-- ==== Sys2Proof/Word.lean ====
section
/-! DEFINITION. The words of the XQ-512: 64-bit scalar words, bytes, 32-bit grid cells (R5, R7, the grid of 01_machine.md). -/

namespace Sys2Proof

/-- A scalar register, a program counter or a system register (R7, R32, R356). -/
abbrev Word := BitVec 64

/-- One byte of any address space (R129). -/
abbrev Byte := BitVec 8

/-- One grid cell holds 32 bits (01_machine.md, "The grid"). -/
abbrev Cell := BitVec 32

/-- A 256-bit element mask (R7). -/
abbrev Mask := BitVec 256

/-- A hart's identity: HARTID bits 9:0, that is DIE, CLU, CORE, HART (R12). -/
abbrev HartId := Nat

/-- A core's identity: HARTID bits 9:1. -/
abbrev CoreId := Nat

/-- A global cluster index: HARTID bits 9:5 (R12). -/
abbrev ClusterId := Nat

/-- A die index, 0 to 7 (R11). -/
abbrev DieId := Nat

/-- A partition, 0 to 7 (R14). -/
abbrev PartId := Nat

end Sys2Proof
end

