-- ==== Sys2Proof/Syntax.lean ====
section
/-! DEFINITION. The instructions and events of the XQ-512: one constructor of `Instr` for every row of spec/opcode_table.json. -/

namespace Sys2Proof

/-- x0 to x31 (R7). -/
abbrev XReg := Fin 32
/-- p0 to p15 (R7). -/
abbrev PReg := Fin 16
/-- m0 to m7 (R7). -/
abbrev MReg := Fin 8
/-- q0 to q7 (R7). -/
abbrev QReg := Fin 8

/-- The two fields of a head that are not the opcode: E ends the bundle, G names the guard (R28). -/
structure Head where
  e : Bool
  g : PReg
  deriving DecidableEq, Repr

/-- KIND of a vector operand (R45). -/
inductive VKind where
  | row | col | dia
  deriving DecidableEq, Repr

/-- A vector operand: a row, column or diagonal of a half (R45); `half` true names h1. -/
structure VOp where
  half : Bool
  kind : VKind
  n : Fin 256
  deriving DecidableEq, Repr

/-- A row of a half: the only operand of QPOP and VMT (R223, R266). -/
structure RowOp where
  half : Bool
  n : Fin 256
  deriving DecidableEq, Repr

/-- Address spaces (R22). -/
inductive Space where
  | t | s | h | g
  deriving DecidableEq, Repr

/-- Scopes of ordering operations (R15, R45). -/
inductive Scope where
  | hart | core | clu | die | part | dom
  deriving DecidableEq, Repr

/-- Type codes (R45); `w` is the code with no suffix. -/
inductive Ty where
  | w | s8 | s16 | s32 | z8 | z16 | z32 | f32 | bf | h | s6 | z6
  deriving DecidableEq, Repr

/-- Ordering qualifier of an atomic (R149). -/
inductive Ord3 where
  | none | aq | rl | aqrl
  deriving DecidableEq, Repr

/-- FMT of CVT, QPUSH and QPOP: `.W` belongs to the queue operations alone (R176, R223). -/
inductive CFmt where
  | bf | h | lf | sf | w
  deriving DecidableEq, Repr

/-- Second operand of a VV operation: a vector, a scalar register, or a shift count (R190, R192). -/
inductive Src2 where
  | vec (v : VOp)
  | scalar (x : XReg)
  | imm (n : Fin 32)
  deriving DecidableEq, Repr

/-- The kind mask of a FENCE (R144). -/
structure FenceKinds where
  ll : Bool
  ls : Bool
  sl : Bool
  ss : Bool
  en : Bool
  deriving DecidableEq, Repr

/-- The window of a matrix operation: row0 and col0 in units of 64, rows and cols 64, 128 or 256 as 0, 1, 2 (R256). -/
structure Window where
  half : Bool
  row0 : Fin 4
  col0 : Fin 4
  rs : Fin 3
  cs : Fin 3
  deriving DecidableEq, Repr

/-- The system registers that an index names (R356); GMODE has rows of its own for MTS. -/
inductive SysReg where
  | hartid | gmode | fpmode | fpflags | vflags | vl | cycle | trapcause | trappc | trapinfo | trapaux
  | epc | ckptpc | tscratch0 | tscratch1 | stepcnt | txtag | rspill | dptroot | iptroot | qbase | qsize
  | mtag | crec | livemask | fscope | sidx | ckstat
  deriving DecidableEq, Repr

/-- Tile states (R249). -/
inductive TileState where
  | empty | filling | ready | draining
  deriving DecidableEq, Repr

/-- Fields of a scalar atomic, layout AM (R149). -/
structure Amo where
  xd : XReg
  xa : XReg
  xb : XReg
  xc : XReg
  sp : Space
  ty : Ty
  dist : Fin 4096
  sc : Scope
  ord : Ord3
  u : Bool
  disp : BitVec 20
  deriving DecidableEq, Repr

/-- Fields of a vector atomic, layout VA (R150); `vd` is none without a return. -/
structure Vamo where
  vd : Option VOp
  vb : VOp
  va : VOp
  xa : XReg
  ma : MReg
  sp : Space
  dist : Fin 4096
  iw : Bool
  sg : Bool
  sc : Fin 8
  ra : Bool
  u : Bool
  deriving DecidableEq, Repr

/-- Fields of a two-operand vector operation, layout VV (R190). -/
structure VV where
  vd : VOp
  va : VOp
  b : Src2
  ty : Ty
  ma : MReg
  deriving DecidableEq, Repr

/-- Fields of a vector compare, layout VV with md (R201). -/
structure VCmp where
  md : MReg
  va : VOp
  b : Src2
  ty : Ty
  ma : MReg
  deriving DecidableEq, Repr

/-- Fields of a unary vector operation, layout VU (R196). -/
structure VU where
  vd : VOp
  va : VOp
  ty : Ty
  ma : MReg
  deriving DecidableEq, Repr

/-- Fields of a vector load or store, common bits of layouts VM, VMS and VMX (R207). -/
structure VM where
  vop : VOp
  xa : XReg
  sp : Space
  ty : Ty
  ma : MReg
  dist : Fin 4096
  deriving DecidableEq, Repr

/-- Index fields of a gather or scatter, layout VMX (R207). -/
structure VX where
  vx : VOp
  iw : Bool
  sg : Bool
  sc : Fin 8
  deriving DecidableEq, Repr

/-- Kinds of error that a stream, a copy or a request can meet after issue (R101, R241, R247). -/
inductive ReqError where
  | timeout | linkLost | errorResponse
  deriving DecidableEq, Repr

/-- What a late fault of a stream or a copy is: a walk fault with its reason and level, or an error (R241). -/
inductive EngFault where
  | page (reason : Fin 16) (level : Fin 8) (va : Word)
  | error (e : ReqError) (addr : Word)
  deriving DecidableEq, Repr

/-- What a frame of a peer port asks of the home agent (R386): a read, a write, or an atomic of 4 or 8 bytes with its operation's number. -/
inductive PeerOp where
  | read (pa len : Nat)
  | write (pa : Nat) (data : List Byte)
  | atomic (pa : Nat) (op : Fin 11) (wide : Bool) (b c : Word)
  deriving DecidableEq, Repr

/-- What a peer frame asks at its address (R386): a read, a write of the first bytes of `data`, or the atomic of code `op` on `b` and `c`. -/
inductive PeerAct where
  | read
  | write (data : List Byte)
  | atomic (op : Fin 11) (b c : Word)
  deriving DecidableEq, Repr

/-- Where an RDMA access arrives and what it reaches (R383): the port (of `n`), the queue pair and the physical address. -/
structure RdmaAt (n : Nat) where
  port : Fin n
  qp : Nat
  pa : Nat
  deriving DecidableEq, Repr

/-- What an RDMA WRITE carries: its data, and the immediate of a WRITE with immediate (R383). -/
structure RdmaPayload where
  data : List Byte
  imm : Option (BitVec 32)
  deriving DecidableEq, Repr

/-- The chunk that a cluster's copy ends (R247), with what an RDMA responder answered for it, if one did (R385). -/
structure ChunkReply where
  cluster : ClusterId
  reply : Option (List Byte)
  deriving DecidableEq, Repr

/-- A flit on a die link, beside its sequence number (R388): its 64 bytes and its CRC-32C. -/
structure Flit where
  payload : List Byte
  crc : BitVec 32
  deriving DecidableEq, Repr

/-- A challenge and the session it was put on (R405): the port, the queue pair and the challenge's bytes. -/
structure SessionChallenge where
  port : Fin 9
  qp : Nat
  bytes : List Byte
  deriving DecidableEq, Repr

/-- The memories that carry error correction (R396): a line of HBM or of a launch's shared SRAM, the grid and TCM of a core, the scratchpad
of a cluster, and the buffers and directory caches of a die. -/
inductive EccMem where
  | hbm (line : Nat)
  | sram (die : DieId) (launch line : Nat)
  | core (core : CoreId)
  | spad (cluster : ClusterId)
  | buffer (die : DieId)
  deriving DecidableEq, Repr

/-- An access from outside that can wait at the home agents (R320, R383, R386). -/
inductive HostOp where
  | write (port : Fin 9) (qp pa : Nat) (data : List Byte) (imm : Option (BitVec 32))
  | read (port : Fin 9) (qp pa len : Nat)
  | fetchAdd (port : Fin 8) (qp pa : Nat) (v : Word)
  | compareSwap (port : Fin 8) (qp pa : Nat) (expected new : Word)
  | peer (port : Fin 8) (seq : Nat) (op : PeerOp)
  deriving DecidableEq, Repr

/-- Reset kinds of the mailbox command RESET that name a target (R407). -/
abbrev Target := Nat

/-- The instructions (with their head) and the events of the part, one constructor for each row of the table. -/
inductive Instr where
  -- scalar integer (R70 to R76)
  | add (h : Head) (xd xa xb : XReg)
  | sub (h : Head) (xd xa xb : XReg)
  | mul (h : Head) (xd xa xb : XReg)
  | mulh (h : Head) (xd xa xb : XReg)
  | and (h : Head) (xd xa xb : XReg)
  | or (h : Head) (xd xa xb : XReg)
  | xor (h : Head) (xd xa xb : XReg)
  | sll (h : Head) (xd xa xb : XReg)
  | srl (h : Head) (xd xa xb : XReg)
  | sra (h : Head) (xd xa xb : XReg)
  | min (h : Head) (xd xa xb : XReg)
  | max (h : Head) (xd xa xb : XReg)
  | minu (h : Head) (xd xa xb : XReg)
  | maxu (h : Head) (xd xa xb : XReg)
  | addi (h : Head) (xd xa : XReg) (imm : BitVec 22)
  | andi (h : Head) (xd xa : XReg) (imm : BitVec 22)
  | ori (h : Head) (xd xa : XReg) (imm : BitVec 22)
  | xori (h : Head) (xd xa : XReg) (imm : BitVec 22)
  | slli (h : Head) (xd xa : XReg) (sh : Fin 64)
  | srli (h : Head) (xd xa : XReg) (sh : Fin 64)
  | srai (h : Head) (xd xa : XReg) (sh : Fin 64)
  | clz (h : Head) (xd xa : XReg)
  | popc (h : Head) (xd xa : XReg)
  | movi (h : Head) (xd : XReg) (imm : BitVec 59)
  | movt (h : Head) (xd xa : XReg) (imm : BitVec 16) (s : Fin 4)
  | sel (h : Head) (xd : XReg) (pa : PReg) (xa xb : XReg)
  -- compares and predicates (R77 to R80)
  | cmpeq (h : Head) (pd pc : PReg) (xa xb : XReg)
  | cmpne (h : Head) (pd pc : PReg) (xa xb : XReg)
  | cmplt (h : Head) (pd pc : PReg) (xa xb : XReg)
  | cmpltu (h : Head) (pd pc : PReg) (xa xb : XReg)
  | cmpge (h : Head) (pd pc : PReg) (xa xb : XReg)
  | cmpgeu (h : Head) (pd pc : PReg) (xa xb : XReg)
  | cmpeqi (h : Head) (pd pc : PReg) (xa : XReg) (imm : BitVec 14)
  | cmplti (h : Head) (pd pc : PReg) (xa : XReg) (imm : BitVec 14)
  | pand (h : Head) (pd pa pb : PReg)
  | por (h : Head) (pd pa pb : PReg)
  | pxor (h : Head) (pd pa pb : PReg)
  | pnot (h : Head) (pd pa : PReg)
  | pget (h : Head) (xd : XReg)
  | pput (h : Head) (xa : XReg)
  -- scalar floating point (R81 to R85)
  | fadd (h : Head) (xd xa xb : XReg)
  | fsub (h : Head) (xd xa xb : XReg)
  | fmul (h : Head) (xd xa xb : XReg)
  | fdiv (h : Head) (xd xa xb : XReg)
  | fsqrt (h : Head) (xd xa : XReg)
  | fma (h : Head) (xd xa xb xc : XReg)
  | fmin (h : Head) (xd xa xb : XReg)
  | fmax (h : Head) (xd xa xb : XReg)
  | fcmpeq (h : Head) (pd pc : PReg) (xa xb : XReg)
  | fcmplt (h : Head) (pd pc : PReg) (xa xb : XReg)
  | fcmple (h : Head) (pd pc : PReg) (xa xb : XReg)
  | fcvt (h : Head) (xd xa : XReg) (ty : Ty) (wid : Bool)
  | fcvti (h : Head) (xd xa : XReg) (ty : Ty) (tz : Bool)
  | icvtf (h : Head) (xd xa : XReg) (ty : Ty)
  -- flow of control (R86 to R93)
  | br (h : Head) (disp : BitVec 27) (hidx : Fin 32)
  | call (h : Head) (disp : BitVec 27) (hidx : Fin 32)
  | callr (h : Head) (xa : XReg)
  | ret (h : Head)
  | jr (h : Head) (xa : XReg)
  | loop (h : Head) (xa : XReg) (disp : BitVec 22) (hidx : Fin 32)
  | nop (h : Head)
  -- timed scalar memory (R118 to R128)
  | ld (h : Head) (xd xa : XReg) (disp : BitVec 24) (sp : Space) (ty : Ty) (dist : Fin 4096)
  | st (h : Head) (xc xa : XReg) (disp : BitVec 24) (sp : Space) (ty : Ty)
  | ldx (h : Head) (xd xa xb : XReg) (ss : Fin 4) (sp : Space) (ty : Ty) (dist : Fin 4096)
  | stx (h : Head) (xc xa xb : XReg) (ss : Fin 4) (sp : Space) (ty : Ty)
  | pref (h : Head) (xa : XReg) (disp : BitVec 24) (sp : Space)
  | div (h : Head) (xd xa xb : XReg) (dist : Fin 4096)
  | divu (h : Head) (xd xa xb : XReg) (dist : Fin 4096)
  | rem (h : Head) (xd xa xb : XReg) (dist : Fin 4096)
  | remu (h : Head) (xd xa xb : XReg) (dist : Fin 4096)
  -- ordering and atomics (R144 to R152)
  | fence (h : Head) (k : FenceKinds) (sc : Scope)
  | ldaq (h : Head) (xd xa : XReg) (disp : BitVec 24) (sp : Space) (ty : Ty) (dist : Fin 4096) (sc : Scope)
  | strl (h : Head) (xc xa : XReg) (disp : BitVec 24) (sp : Space) (ty : Ty) (sc : Scope)
  | amoswp (h : Head) (a : Amo)
  | amoadd (h : Head) (a : Amo)
  | amoand (h : Head) (a : Amo)
  | amoor (h : Head) (a : Amo)
  | amoxor (h : Head) (a : Amo)
  | amomin (h : Head) (a : Amo)
  | amomax (h : Head) (a : Amo)
  | amocas (h : Head) (a : Amo)
  | amofadd (h : Head) (a : Amo)
  | vamoAdd (h : Head) (a : Vamo)
  | vamoAnd (h : Head) (a : Vamo)
  | vamoOr (h : Head) (a : Vamo)
  | vamoXor (h : Head) (a : Vamo)
  | vamoMin (h : Head) (a : Vamo)
  | vamoMax (h : Head) (a : Vamo)
  | vamoFadd (h : Head) (a : Vamo)
  | append (h : Head) (xd xa : XReg) (vb : VOp) (ma : MReg) (sp : Space) (dist : Fin 4096)
  -- block formats (R169 to R177); `w8` true is width class 8
  | qst (h : Head) (vop : VOp) (q : QReg) (w8 : Bool) (ae : BitVec 4) (fb nb : Fin 4)
  | bdec (h : Head) (vop : VOp) (xa : XReg) (disp : BitVec 20) (sp : Space) (w8 : Bool) (fb nb : Fin 4) (dist : Fin 4096)
  | bhdr (h : Head) (xd xa : XReg) (sp : Space) (wd : Fin 3) (dist : Fin 4096)
  | cvt (h : Head) (vd va : VOp) (ma : MReg) (f : CFmt)
  -- grid vector (R190 to R206)
  | vadd (h : Head) (a : VV)
  | vsub (h : Head) (a : VV)
  | vmul (h : Head) (a : VV)
  | vfma (h : Head) (a : VV) (vc : VOp)
  | vmin (h : Head) (a : VV)
  | vmax (h : Head) (a : VV)
  | vadds (h : Head) (a : VV)
  | vand (h : Head) (a : VV)
  | vor (h : Head) (a : VV)
  | vxor (h : Head) (a : VV)
  | vshl (h : Head) (a : VV)
  | vshr (h : Head) (a : VV)
  | vrshr (h : Head) (a : VV) (n16 : Bool)
  | vdot2 (h : Head) (a : VV)
  | vadd2 (h : Head) (a : VV) (sat : Bool)
  | vrq (h : Head) (a : VV)
  | vabs (h : Head) (a : VU)
  | vsqrt (h : Head) (a : VU)
  | vexp (h : Head) (a : VU)
  | vrsq (h : Head) (a : VU)
  | vrcp (h : Head) (a : VU)
  | vmov (h : Head) (a : VU)
  | vcvti (h : Head) (a : VU) (q : Bool)
  | vrsum (h : Head) (xd : XReg) (va : VOp) (ty : Ty) (ma : MReg)
  | vrmax (h : Head) (xd : XReg) (va : VOp) (ty : Ty) (ma : MReg)
  | vrmin (h : Head) (xd : XReg) (va : VOp) (ty : Ty) (ma : MReg)
  | vcmpeq (h : Head) (a : VCmp)
  | vcmplt (h : Head) (a : VCmp)
  | vcmple (h : Head) (a : VCmp)
  | vsel (h : Head) (a : VV)
  | mand (h : Head) (md ma mb : MReg)
  | mor (h : Head) (md ma mb : MReg)
  | mxor (h : Head) (md ma mb : MReg)
  | mnot (h : Head) (md ma : MReg)
  | mpop (h : Head) (xd : XReg) (ma : MReg)
  | msetn (h : Head) (md : MReg) (xa : XReg)
  | vslideup (h : Head) (a : VV) (n : Fin 256)
  | vslidedn (h : Head) (a : VV) (n : Fin 256)
  | vperm (h : Head) (a : VV)
  | vbcast (h : Head) (vd : VOp) (xa : XReg) (ma : MReg)
  -- vector memory (R207 to R213)
  | vld (h : Head) (a : VM) (disp : BitVec 20)
  | vst (h : Head) (a : VM) (disp : BitVec 20) (ord : Bool)
  | vlds (h : Head) (a : VM) (xb : XReg) (disp : BitVec 20)
  | vsts (h : Head) (a : VM) (xb : XReg) (disp : BitVec 20) (ord : Bool)
  | vld6 (h : Head) (a : VM) (disp : BitVec 20) (bo : Fin 4)
  | vgath (h : Head) (a : VM) (i : VX)
  | vscat (h : Head) (a : VM) (i : VX) (ord : Bool)
  -- streams, queues, copies, tiles (R222 to R252)
  | shape (h : Head) (xd xa : XReg) (sp : Space)
  | sfree (h : Head) (xa : XReg)
  | stream (h : Head) (slot : Fin 4) (q : QReg) (xa xb : XReg) (sp : Space) (tile : Option XReg)
  | swait (h : Head) (xd : XReg) (slot : Fin 4)
  | sstop (h : Head) (slot : Fin 4)
  | qcfg (h : Head) (q : QReg) (base : Fin 256) (sz : Fin 8) (es : Fin 32)
  | qpush (h : Head) (q : QReg) (vop : VOp) (f : CFmt)
  | qpop (h : Head) (row : RowOp) (q : QReg) (f : CFmt)
  | qcnt (h : Head) (xd : XReg) (q : QReg)
  | qfence (h : Head) (qm : BitVec 8)
  | copy (h : Head) (xa xb xc : XReg) (md : MReg) (ds ss : Space) (tile fut : Option XReg)
  | tset (h : Head) (pd pc : PReg) (xa xb : XReg) (frm dst : TileState)
  | tget (h : Head) (xd xa : XReg)
  | twait (h : Head) (xa : XReg) (st : TileState)
  -- matrix (R256 to R269)
  | opaBf (h : Head) (w : Window) (qa qb : QReg)
  | opaH (h : Head) (w : Window) (qa qb : QReg)
  | opaN6 (h : Head) (w : Window) (qa qb : QReg)
  | stld (h : Head) (q : QReg) (f16 : Bool)
  | vmt (h : Head) (row : RowOp) (q : QReg) (seg : Fin 4)
  | gzero (h : Head) (w : Window)
  | gwait (h : Head) (h0 h1 : Bool)
  -- tasks (R282 to R299)
  | spawn (h : Head) (xa : XReg) (cl : Option (Fin 4))
  | spawnRes (h : Head) (xa : XReg) (cl : Option (Fin 4))
  | suspend (h : Head) (xa : XReg)
  | yield (h : Head)
  | exit (h : Head)
  | fwait (h : Head) (pd pc : PReg) (xa : XReg)
  | fres (h : Head) (xa xb : XReg)
  | ffail (h : Head) (xa xb : XReg)
  | finopen (h : Head) (xd xa : XReg)
  | finend (h : Head) (xa : XReg)
  | finwait (h : Head) (xa : XReg)
  | farm (h : Head) (xa xb xc xe : XReg) (disp : BitVec 27) (hidx : Fin 32)
  | setvl (h : Head) (xd : XReg) (pd pc : PReg) (xa : XReg)
  -- launch and transaction (R323 to R326)
  | launch (h : Head) (xd xa : XReg)
  | txabort (h : Head) (xa : XReg) (rt : Bool)
  | txwaitOldest (h : Head) (xd : XReg)
  | txwaitPoll (h : Head) (xd : XReg)
  -- system (R357 to R361)
  | mfs (h : Head) (xd : XReg) (r : SysReg)
  | mts (h : Head) (r : SysReg) (xa : XReg)
  | mtsGmode (h : Head) (xa : XReg)
  | ckpt (h : Head)
  | step (h : Head)
  | trap (h : Head) (code : BitVec 16)
  | break (h : Head) (code : BitVec 16)
  | eret (h : Head)
  | icinv (h : Head) (xa xb : XReg)
  | icinvAll (h : Head)
  -- an opcode that the map leaves unassigned (R48)
  | unassignedOpcode (h : Head) (op : BitVec 9) (t : Fin 4)
  -- events that the part itself takes: fetch, translation, requests, engines, tasks, launches, pre-emption, collectives
  | icacheFill (hart : HartId)
  | fetchWalkEnd (hart : HartId)
  | dataWalkEnd (hart : HartId) (id : Nat)
  | landing (core : CoreId)
  | dataArrival (core : CoreId)
  | memoryTimeout (hart : HartId) (id : Nat)
  | storePerform (id : Nat)
  | atomicPerform (id : Nat)
  | checkpointComplete (hart : HartId)
  | bundleLimitCheckpoint (hart : HartId)
  | welkinResume (hart : HartId)
  | engineFire (core : CoreId) (id : Nat)
  | engineComplete (core : CoreId) (id : Nat)
  | qpushFire (core : CoreId) (id : Nat)
  | qpopFire (core : CoreId) (id : Nat)
  | qpopGroupWrite (core : CoreId) (id : Nat)
  | vWriteComplete (core : CoreId) (id : Nat)
  | qstBlockPush (core : CoreId) (id : Nat)
  | recheckExecute (core : CoreId) (id : Nat) (agree : Bool)
  | streamPush (core : CoreId) (slot : Fin 4)
  | streamWrite (core : CoreId) (slot : Fin 4)
  | copyChunkDone (chunk : ChunkReply)
  | copyDone (cluster : ClusterId)
  | pickup (hart : HartId)
  | stripStart (hart : HartId)
  | writebackComplete (hart : HartId)
  | futureWake (die : DieId)
  | sweep (part : PartId) (node : Option ClusterId)
  | launchTake (part : PartId) (queue : Fin 64)
  | admission (part : PartId)
  | launchReady (id : Nat)
  | launchStart (id : Nat)
  | periodRefill (part : PartId) (queue : Fin 64)
  | budgetExhausted (part : PartId) (queue : Fin 64)
  | overrun (id : Nat)
  | shadowOverflow (id : Nat)
  | irrevocableSwitch (id : Nat)
  | launchEnd (id : Nat)
  | prepare (part : PartId)
  | commit (part : PartId)
  | lineSettle (id : Nat)
  | launchAbort (id : Nat)
  | cancel (part : PartId) (queue : Fin 64)
  | contextSave (id : Nat) (faulted : Bool)
  | restore (id : Nat)
  | resume (id : Nat)
  | cutRound (id : Nat)
  | cutfail (id : Nat)
  | collectiveTrigger (die : DieId) (group : Fin 64)
  | collectiveComplete (group : Fin 64)
  | collectiveTimeout (group : Fin 64)
  -- events that the outside or another unit brings about: faults, fabric, start-up, the mailbox
  | streamFault (core : CoreId) (slot : Fin 4) (f : EngFault)
  | preempt (id : Nat)
  | saveRestart (id : Nat)
  | stopRequest (id : Nat)
  | sramerr (hart : HartId) (owner : CoreId)
  | rdmaWrite (place : RdmaAt 9) (payload : RdmaPayload)
  | rdmaRead (place : RdmaAt 9) (len : Nat)
  | rdmaSend (port : Fin 8) (qp : Nat) (data : List Byte)
  | rdmaFetchAdd (place : RdmaAt 8) (v : Word)
  | rdmaCompareSwap (place : RdmaAt 8) (expected new : Word)
  | linkBringup (port : Fin 8) (domid : BitVec 32) (pos : Nat)
  | peerFrame (port : Fin 8) (seq pa : Nat) (act : PeerAct) (len : Nat)
  | peerResend (port : Fin 8) (seq : Nat)
  | peerPortLost (port : Fin 8)
  | flitReceive (a b : DieId) (seq : Nat) (flit : Flit)
  | flitReplay (a b : DieId) (crc : BitVec 32)
  | dieLinkLost (a b : DieId)
  | patrolScrub (mem : EccMem) (corrected uncorrectable : Bool)
  | pcDrop (die : DieId) (stack : Fin 2) (pc : Fin 64)
  | thermalThrottle (temp : Int) (power : Nat)
  | coldStart
  | warmStart
  | keyRollover
  | info (slot : Fin 256)
  | quote (slot : Fin 256)
  | log (slot : Fin 256)
  | chain (slot : Fin 256)
  | load (slot : Fin 256)
  | unload (slot : Fin 256)
  | qconf (slot : Fin 256)
  | pconf (slot : Fin 256)
  | cgroup (slot : Fin 256)
  | rdmaep (slot : Fin 256)
  | resetCore (core : CoreId)
  | resetCopyEngine (cluster : ClusterId)
  | resetDieLink (a b : DieId)
  | resetEthernetPort (port : Fin 8)
  | resetPartition (part : PartId)
  | resetDevice
  | droppc (slot : Fin 256)
  | config (slot : Fin 256)
  | debugResume (hart : HartId)
  | debugHold (hart : HartId)
  | welkinCoreFault (die : DieId)
  | shadowDirectoryError (die : DieId)
  | copyFault (cluster : ClusterId) (f : EngFault)
  | mappingRepaired (core : CoreId)
  | translationInvalidate (core : CoreId)
  | ownerSession (challenge : SessionChallenge) (sig : List Byte)
  deriving DecidableEq, Repr

end Sys2Proof
end

