-- ==== Sys2Proof/WellFormed.lean ====
section
/-! DEFINITION. Well-formed instructions: the operand values that the encodings admit (R41, R190, R207 and the layouts), and events that name units of the package (R10). -/

namespace Sys2Proof

/-- Types of LD, ST and their forms (R121). -/
def Ty.scalarMem : Ty → Bool
  | .s6 | .z6 => false
  | _ => true

/-- Types of vector loads and stores other than VLD6 (R208). -/
def Ty.vecMem : Ty → Bool
  | .s6 | .z6 => false
  | _ => true

/-- Naming one predicate other than p0 for both results is refused (R41, R46). -/
def twice (pd pc : PReg) : Bool := pd = pc && pd ≠ 0

/-- Types of the scalar atomics (R149). -/
def Amo.wf (fadd minmax cas : Bool) (a : Amo) : Bool :=
  (if fadd then a.ty = .f32 else a.ty = .w || a.ty = .s32 || a.ty = .z32)
    && (!a.u || (minmax && a.ty = .w))
    && (cas || a.xc = 0)
    && (a.ord ≠ .none || a.sc = .hart)

/-- Fields of VAMO (R150, R151). -/
def Vamo.wf (fadd minmax : Bool) (a : Vamo) : Bool :=
  (!a.u || minmax) && (!a.ra || (fadd && a.vd.isNone)) && (a.vd.isSome || a.dist = 0)

/-- The second operand of an operation of layout VV: an immediate count only where the operation has one (R192). -/
def Src2.wf (s : Src2) (scalar imm : Bool) : Bool :=
  match s with
  | .vec _ => true
  | .scalar _ => scalar
  | .imm _ => imm

def Ty.isOneOf (t : Ty) (l : List Ty) : Bool := l.contains t

/-- The windows that the encoding admits (R256). -/
def Window.extent (n : Fin 3) : Nat := 64 * 2 ^ n.val
def Window.wf (w : Window) : Bool :=
  w.row0.val * 64 + Window.extent w.rs ≤ 256 && w.col0.val * 64 + Window.extent w.cs ≤ 256

/-- The transitions that TSET encodes (R250). -/
def tsetPair : TileState → TileState → Bool
  | .empty, .filling => true
  | .filling, .ready => true
  | .filling, .empty => true
  | .ready, .draining => true
  | .draining, .empty => true
  | _, _ => false

/-- System registers that MTS may write (R356); GMODE is written by its own row. -/
def SysReg.writable : SysReg → Bool
  | .fpmode | .fpflags | .vflags | .vl | .epc | .tscratch0 | .tscratch1 | .rspill | .crec | .livemask | .fscope | .sidx => true
  | _ => false

/-- QCFG fields (R222). -/
def qcfgWf (base : Fin 256) (sz : Fin 8) (es : Fin 32) : Bool :=
  if sz = 0 then base = 0 && es = 0 else base.val % 2 ^ (sz.val - 1) = 0

/-- Opcodes that the opcode map assigns (R48), as ranges. -/
def assignedRanges : List (Nat × Nat) :=
  [(0x001, 0x01A), (0x020, 0x02D), (0x030, 0x03D), (0x060, 0x066), (0x080, 0x084), (0x088, 0x08B), (0x0C0, 0x0C2),
   (0x0C4, 0x0CC), (0x0E0, 0x0E7), (0x100, 0x103), (0x120, 0x12B), (0x130, 0x137), (0x140, 0x142), (0x148, 0x14B),
   (0x150, 0x154), (0x158, 0x159), (0x160, 0x165), (0x170, 0x176), (0x180, 0x184), (0x188, 0x18C), (0x190, 0x193),
   (0x1A0, 0x1A6), (0x1C0, 0x1C6), (0x1C8, 0x1CC), (0x1E0, 0x1E2), (0x1F0, 0x1F7)]

/-- Whether the opcode map assigns an opcode; opcode 0 is LEND and no operation (R48). -/
def assigned (op : Nat) : Bool := assignedRanges.any fun r => decide (r.1 ≤ op ∧ op ≤ r.2)

/-- Well-formed instructions and events. -/
def Instr.wf : Instr → Bool
  | .cmpeq _ pd pc _ _ | .cmpne _ pd pc _ _ | .cmplt _ pd pc _ _ | .cmpltu _ pd pc _ _ | .cmpge _ pd pc _ _
  | .cmpgeu _ pd pc _ _ | .cmpeqi _ pd pc _ _ | .cmplti _ pd pc _ _ | .fcmpeq _ pd pc _ _ | .fcmplt _ pd pc _ _
  | .fcmple _ pd pc _ _ => !twice pd pc
  | .fcvt _ _ _ ty _ => ty.isOneOf [.bf, .h]
  | .fcvti _ _ _ ty _ => ty.isOneOf [.w, .s32, .z32]
  | .icvtf _ _ _ ty => ty.isOneOf [.w, .s32, .z32]
  | .loop _ xa _ _ => xa ≠ 0
  | .ld _ _ _ _ _ ty _ | .st _ _ _ _ _ ty | .ldx _ _ _ _ _ _ ty _ | .stx _ _ _ _ _ _ ty
  | .ldaq _ _ _ _ _ ty _ _ | .strl _ _ _ _ _ ty _ => ty.scalarMem
  | .fence _ k _ => k.ll || k.ls || k.sl || k.ss || k.en
  | .amoswp _ a | .amoadd _ a | .amoand _ a | .amoor _ a | .amoxor _ a => a.wf false false false
  | .amomin _ a | .amomax _ a => a.wf false true false
  | .amocas _ a => a.wf false false true
  | .amofadd _ a => a.wf true false false
  | .vamoAdd _ a | .vamoAnd _ a | .vamoOr _ a | .vamoXor _ a => a.wf false false
  | .vamoMin _ a | .vamoMax _ a => a.wf false true
  | .vamoFadd _ a => a.wf true false
  | .append _ _ _ _ _ sp _ => sp = .s || sp = .h
  | .qst _ _ _ _ ae fb nb => ae ≠ 0 && fb.val + nb.val + 1 ≤ 4
  | .bdec _ _ _ _ _ _ fb nb _ => fb.val + nb.val + 1 ≤ 4
  | .cvt _ _ _ _ f => f ≠ .w
  | .vadd _ a | .vsub _ a | .vmul _ a => a.ty.isOneOf [.f32, .s32] && a.b.wf true false
  | .vfma _ a _ => a.ty = .f32 && a.b.wf true false
  | .vmin _ a | .vmax _ a => a.ty.isOneOf [.f32, .s32, .z32] && a.b.wf true false
  | .vadds _ a => a.ty = .s32 && a.b.wf true false
  | .vand _ a | .vor _ a | .vxor _ a => a.ty = .w && a.b.wf true false
  | .vshl _ a => a.ty = .w && a.b.wf true true
  | .vshr _ a => a.ty.isOneOf [.z32, .s32] && a.b.wf true true
  | .vrshr _ a _ => a.ty = .s32 && a.b.wf true true
  | .vdot2 _ a | .vadd2 _ a _ => a.ty = .s16 && a.b.wf true false
  | .vrq _ a => a.ty.isOneOf [.s8, .z8, .s16, .z16, .s32, .z32, .s6, .z6] && a.b.wf true false
  | .vabs _ a => a.ty.isOneOf [.f32, .s32]
  | .vsqrt _ a | .vexp _ a | .vrsq _ a | .vrcp _ a => a.ty = .f32
  | .vmov _ a => a.ty = .w
  | .vcvti _ a _ => a.ty.isOneOf [.s32, .z32, .f32]
  | .vrsum _ _ _ ty _ | .vrmax _ _ _ ty _ | .vrmin _ _ _ ty _ => ty.isOneOf [.f32, .s32, .z32]
  | .vcmpeq _ a | .vcmplt _ a | .vcmple _ a => a.ty.isOneOf [.f32, .s32, .z32] && a.b.wf true false
  | .vsel _ a => a.ty = .w && a.b.wf true false
  | .vslideup _ a _ | .vslidedn _ a _ => a.ty.isOneOf [.w, .s16] && a.b.wf true false
  | .vperm _ a => a.ty = .w && a.b.wf true false
  | .vld _ a _ => a.ty.vecMem
  | .vst _ a _ _ => a.ty.vecMem && a.dist = 0
  | .vlds _ a _ _ => a.ty.vecMem
  | .vsts _ a _ _ _ => a.ty.vecMem && a.dist = 0
  | .vld6 _ a _ _ => a.ty.isOneOf [.s6, .z6]
  | .vgath _ a _ => a.ty.vecMem
  | .vscat _ a _ _ => a.ty.vecMem && a.dist = 0
  | .qcfg _ _ base sz es => qcfgWf base sz es
  | .qfence _ qm => qm ≠ 0
  | .copy _ _ _ _ _ ds ss _ _ => ds ≠ .t && ss ≠ .t
  | .tset _ pd pc _ _ frm dst => tsetPair frm dst && !twice pd pc
  | .opaBf _ w _ _ | .opaH _ w _ _ | .opaN6 _ w _ _ | .gzero _ w => w.wf
  | .gwait _ h0 h1 => h0 || h1
  | .fwait _ pd pc _ => !twice pd pc
  | .setvl _ _ pd pc _ => !twice pd pc
  | .mts _ r _ => r.writable
  | .unassignedOpcode _ op _ => !assigned op.toNat && op ≠ 0
  | .icacheFill n | .fetchWalkEnd n | .dataWalkEnd n _ | .memoryTimeout n _ | .checkpointComplete n
  | .bundleLimitCheckpoint n | .welkinResume n | .pickup n | .stripStart n | .writebackComplete n
  | .debugResume n | .debugHold n => n < 1024
  | .landing c | .dataArrival c | .engineFire c _ | .engineComplete c _ | .qpushFire c _ | .qpopFire c _
  | .qpopGroupWrite c _ | .vWriteComplete c _ | .qstBlockPush c _ | .recheckExecute c _ _ | .streamPush c _
  | .streamWrite c _ | .streamFault c _ _ | .resetCore c | .mappingRepaired c | .translationInvalidate c => c < 512
  | .copyChunkDone ⟨c, _⟩ | .copyDone c | .resetCopyEngine c | .copyFault c _ => c < 32
  | .futureWake d | .welkinCoreFault d | .shadowDirectoryError d | .collectiveTrigger d _ | .pcDrop d _ _ => d < 8
  | .sweep p n => p < 8 && (match n with | some c => c < 32 | none => true)
  | .launchTake p _ | .admission p | .periodRefill p _ | .budgetExhausted p _ | .prepare p | .commit p | .cancel p _
  | .resetPartition p => p < 8
  | .patrolScrub (.sram d _ _) _ _ | .patrolScrub (.buffer d) _ _ => d < 8
  | .patrolScrub (.core c) _ _ => c < 512
  | .patrolScrub (.spad c) _ _ => c < 32
  | .sramerr n c => n < 1024 && c < 512
  | .flitReceive a b _ _ | .flitReplay a b _ | .dieLinkLost a b | .resetDieLink a b => a < 8 && b < 8
  | _ => true

end Sys2Proof
end

