-- ==== Sys2Proof/Decode.lean ====
section
/-! DEFINITION. Decoding and encoding of operations, tails, heads and lines (R27 to R48 and the layouts of every chapter). -/

namespace Sys2Proof

/-! ### Bit fields -/

/-- Splits a tail into fields of the given widths, the lowest field first. -/
def unpack : List Nat → Nat → List Nat
  | [], _ => []
  | w :: ws, t => t % 2 ^ w :: unpack ws (t / 2 ^ w)

/-- Joins fields, each with its width, the lowest first. -/
def pack : List (Nat × Nat) → Nat
  | [] => 0
  | (w, v) :: r => v + 2 ^ w * pack r

/-- Why an operation is refused at decode (R41); the number is the DETAIL of R43. -/
inductive IllOp where
  | unassigned | tailLength | reservedBit | reservedValue
  deriving DecidableEq, Repr

def IllOp.detail : IllOp → Nat
  | .unassigned => 0
  | .tailLength => 1
  | .reservedBit => 2
  | .reservedValue => 3

/-- The result of decoding one operation. -/
abbrev Dec := Except IllOp Instr

/-- Goes on only where the reserved bits are zero (R41, DETAIL 2). -/
def rsv (c : Bool) (k : Dec) : Dec := if c then k else .error .reservedBit

/-- Goes on only where a field holds an accepted value (R41, DETAIL 3). -/
def val (c : Bool) (k : Dec) : Dec := if c then k else .error .reservedValue

/-- A fixed number of fields did not come out: never happens, `unpack` answers one field per width. -/
def bad : Dec := .error .reservedBit

def xr (n : Nat) : XReg := Fin.ofNat 32 n
def pr (n : Nat) : PReg := Fin.ofNat 16 n
def mr (n : Nat) : MReg := Fin.ofNat 8 n
def qr (n : Nat) : QReg := Fin.ofNat 8 n
def f2 (n : Nat) : Fin 2 := Fin.ofNat 2 n
def f4 (n : Nat) : Fin 4 := Fin.ofNat 4 n
def bit1 (n : Nat) : Bool := n = 1
def b01 (b : Bool) : Nat := if b then 1 else 0

/-! ### Shared fields (R22, R45) -/

def spaceOf : Nat → Space
  | 0 => .t
  | 1 => .s
  | 2 => .h
  | _ => .g
def Space.code : Space → Nat
  | .t => 0
  | .s => 1
  | .h => 2
  | .g => 3

def scopeOf : Nat → Option Scope
  | 0 => some .hart
  | 1 => some .core
  | 2 => some .clu
  | 3 => some .die
  | 4 => some .part
  | 5 => some .dom
  | _ => none
def Scope.code : Scope → Nat
  | .hart => 0
  | .core => 1
  | .clu => 2
  | .die => 3
  | .part => 4
  | .dom => 5

def tyOf : Nat → Option Ty
  | 0 => some .w
  | 1 => some .s8
  | 2 => some .s16
  | 3 => some .s32
  | 5 => some .z8
  | 6 => some .z16
  | 7 => some .z32
  | 8 => some .f32
  | 9 => some .bf
  | 10 => some .h
  | 12 => some .s6
  | 13 => some .z6
  | _ => none
def Ty.code : Ty → Nat
  | .w => 0
  | .s8 => 1
  | .s16 => 2
  | .s32 => 3
  | .z8 => 5
  | .z16 => 6
  | .z32 => 7
  | .f32 => 8
  | .bf => 9
  | .h => 10
  | .s6 => 12
  | .z6 => 13

def ordOf : Nat → Ord3
  | 0 => .none
  | 1 => .aq
  | 2 => .rl
  | _ => .aqrl
def Ord3.code : Ord3 → Nat
  | .none => 0
  | .aq => 1
  | .rl => 2
  | .aqrl => 3

def fmtOf : Nat → Option CFmt
  | 0 => some .bf
  | 1 => some .h
  | 2 => some .lf
  | 3 => some .sf
  | 4 => some .w
  | _ => none
def CFmt.code : CFmt → Nat
  | .bf => 0
  | .h => 1
  | .lf => 2
  | .sf => 3
  | .w => 4

def tileOf : Nat → TileState
  | 0 => .empty
  | 1 => .filling
  | 2 => .ready
  | _ => .draining
def TileState.code : TileState → Nat
  | .empty => 0
  | .filling => 1
  | .ready => 2
  | .draining => 3

/-- A VOP field (R45): index, kind, half; kind 0b11 is reserved. -/
def vopOf (n : Nat) : Option VOp :=
  match unpack [8, 2, 1] n with
  | [i, k, h] =>
    if k = 0 then some ⟨bit1 h, .row, Fin.ofNat 256 i⟩
    else if k = 1 then some ⟨bit1 h, .col, Fin.ofNat 256 i⟩
    else if k = 2 then some ⟨bit1 h, .dia, Fin.ofNat 256 i⟩
    else none
  | _ => none
def VKind.code : VKind → Nat
  | .row => 0
  | .col => 1
  | .dia => 2
def VOp.code (v : VOp) : Nat := pack [(8, v.n.val), (2, v.kind.code), (1, b01 v.half)]

/-- A row-kind VOP (R223, R266). -/
def rowOf (n : Nat) : Option RowOp :=
  match unpack [8, 2, 1] n with
  | [i, k, h] => if k = 0 then some ⟨bit1 h, Fin.ofNat 256 i⟩ else none
  | _ => none
def RowOp.code (v : RowOp) : Nat := pack [(8, v.n.val), (2, 0), (1, b01 v.half)]

/-- The system registers by index (R356). -/
def sysRegOf : Nat → Option SysReg
  | 0x000 => some .hartid
  | 0x001 => some .gmode
  | 0x002 => some .fpmode
  | 0x003 => some .fpflags
  | 0x004 => some .vflags
  | 0x005 => some .vl
  | 0x006 => some .cycle
  | 0x008 => some .trapcause
  | 0x009 => some .trappc
  | 0x00A => some .trapinfo
  | 0x00B => some .trapaux
  | 0x00C => some .epc
  | 0x00D => some .ckptpc
  | 0x00E => some .tscratch0
  | 0x00F => some .tscratch1
  | 0x010 => some .stepcnt
  | 0x011 => some .txtag
  | 0x012 => some .rspill
  | 0x013 => some .dptroot
  | 0x014 => some .iptroot
  | 0x015 => some .qbase
  | 0x016 => some .qsize
  | 0x017 => some .mtag
  | 0x018 => some .crec
  | 0x019 => some .livemask
  | 0x01A => some .fscope
  | 0x01B => some .sidx
  | 0x01C => some .ckstat
  | _ => none
def SysReg.index : SysReg → Nat
  | .hartid => 0x000
  | .gmode => 0x001
  | .fpmode => 0x002
  | .fpflags => 0x003
  | .vflags => 0x004
  | .vl => 0x005
  | .cycle => 0x006
  | .trapcause => 0x008
  | .trappc => 0x009
  | .trapinfo => 0x00A
  | .trapaux => 0x00B
  | .epc => 0x00C
  | .ckptpc => 0x00D
  | .tscratch0 => 0x00E
  | .tscratch1 => 0x00F
  | .stepcnt => 0x010
  | .txtag => 0x011
  | .rspill => 0x012
  | .dptroot => 0x013
  | .iptroot => 0x014
  | .qbase => 0x015
  | .qsize => 0x016
  | .mtag => 0x017
  | .crec => 0x018
  | .livemask => 0x019
  | .fscope => 0x01A
  | .sidx => 0x01B
  | .ckstat => 0x01C

/-! ### Layouts: each takes a tail and answers an operation -/

/-- Layout A3 (R47). -/
def decA3 (f : XReg → XReg → XReg → Instr) (t : Nat) : Dec :=
  match unpack [5, 5, 5, 17] t with
  | [d, a, b, z] => rsv (z = 0) <| .ok (f (xr d) (xr a) (xr b))
  | _ => bad
def encA3 (d a b : XReg) : Nat := pack [(5, d.val), (5, a.val), (5, b.val), (17, 0)]

/-- Layout A3 with bits 14:10 reserved (FSQRT, R81). -/
def decA3s (f : XReg → XReg → Instr) (t : Nat) : Dec :=
  match unpack [5, 5, 22] t with
  | [d, a, z] => rsv (z = 0) <| .ok (f (xr d) (xr a))
  | _ => bad
def encA3s (d a : XReg) : Nat := pack [(5, d.val), (5, a.val), (22, 0)]

/-- Layout A2I (R47). -/
def decA2I (f : XReg → XReg → BitVec 22 → Instr) (t : Nat) : Dec :=
  match unpack [5, 5, 22] t with
  | [d, a, i] => .ok (f (xr d) (xr a) (BitVec.ofNat 22 i))
  | _ => bad
def encA2I (d a : XReg) (i : BitVec 22) : Nat := pack [(5, d.val), (5, a.val), (22, i.toNat)]

/-- Layout SHI (R72). -/
def decSHI (f : XReg → XReg → Fin 64 → Instr) (t : Nat) : Dec :=
  match unpack [5, 5, 6, 16] t with
  | [d, a, s, z] => rsv (z = 0) <| .ok (f (xr d) (xr a) (Fin.ofNat 64 s))
  | _ => bad
def encSHI (d a : XReg) (s : Fin 64) : Nat := pack [(5, d.val), (5, a.val), (6, s.val), (16, 0)]

/-- Layout A1 (R73). -/
def decA1 (f : XReg → XReg → Instr) (t : Nat) : Dec :=
  match unpack [5, 5, 6] t with
  | [d, a, z] => rsv (z = 0) <| .ok (f (xr d) (xr a))
  | _ => bad
def encA1 (d a : XReg) : Nat := pack [(5, d.val), (5, a.val), (6, 0)]

/-- The tail of MOVI (R74). -/
def decMOVI (f : XReg → BitVec 59 → Instr) (t : Nat) : Dec :=
  match unpack [5, 59] t with
  | [d, i] => .ok (f (xr d) (BitVec.ofNat 59 i))
  | _ => bad
def encMOVI (d : XReg) (i : BitVec 59) : Nat := pack [(5, d.val), (59, i.toNat)]

/-- Layout MT (R75). -/
def decMT (f : XReg → XReg → BitVec 16 → Fin 4 → Instr) (t : Nat) : Dec :=
  match unpack [5, 5, 16, 2, 4] t with
  | [d, a, i, s, z] => rsv (z = 0) <| .ok (f (xr d) (xr a) (BitVec.ofNat 16 i) (f4 s))
  | _ => bad
def encMT (d a : XReg) (i : BitVec 16) (s : Fin 4) : Nat :=
  pack [(5, d.val), (5, a.val), (16, i.toNat), (2, s.val), (4, 0)]

/-- Layout SL (R76). -/
def decSL (f : XReg → PReg → XReg → XReg → Instr) (t : Nat) : Dec :=
  match unpack [5, 5, 5, 4, 13] t with
  | [d, a, b, p, z] => rsv (z = 0) <| .ok (f (xr d) (pr p) (xr a) (xr b))
  | _ => bad
def encSL (d : XReg) (p : PReg) (a b : XReg) : Nat :=
  pack [(5, d.val), (5, a.val), (5, b.val), (4, p.val), (13, 0)]

/-- Layout CR (R77). -/
def decCR (f : PReg → PReg → XReg → XReg → Instr) (t : Nat) : Dec :=
  match unpack [5, 5, 4, 4, 14] t with
  | [a, b, d, c, z] => rsv (z = 0) <| val (!twice (pr d) (pr c)) <| .ok (f (pr d) (pr c) (xr a) (xr b))
  | _ => bad
def encCR (d c : PReg) (a b : XReg) : Nat :=
  pack [(5, a.val), (5, b.val), (4, d.val), (4, c.val), (14, 0)]

/-- Layout CI (R77). -/
def decCI (f : PReg → PReg → XReg → BitVec 14 → Instr) (t : Nat) : Dec :=
  match unpack [5, 5, 4, 4, 14] t with
  | [a, z, d, c, i] =>
    rsv (z = 0) <| val (!twice (pr d) (pr c)) <| .ok (f (pr d) (pr c) (xr a) (BitVec.ofNat 14 i))
  | _ => bad
def encCI (d c : PReg) (a : XReg) (i : BitVec 14) : Nat :=
  pack [(5, a.val), (5, 0), (4, d.val), (4, c.val), (14, i.toNat)]

/-- Layout P2 (R79). -/
def decP2 (f : PReg → PReg → PReg → Instr) (t : Nat) : Dec :=
  match unpack [4, 4, 4, 4] t with
  | [d, a, b, z] => rsv (z = 0) <| .ok (f (pr d) (pr a) (pr b))
  | _ => bad
def encP2 (d a b : PReg) : Nat := pack [(4, d.val), (4, a.val), (4, b.val), (4, 0)]

/-- Layout P2 without pb (PNOT, R79). -/
def decP1 (f : PReg → PReg → Instr) (t : Nat) : Dec :=
  match unpack [4, 4, 8] t with
  | [d, a, z] => rsv (z = 0) <| .ok (f (pr d) (pr a))
  | _ => bad
def encP1 (d a : PReg) : Nat := pack [(4, d.val), (4, a.val), (8, 0)]

/-- Layout X1 (R80); the same layout names xa of SFREE, FINEND and FINWAIT (R236, R295). -/
def decX1 (f : XReg → Instr) (t : Nat) : Dec :=
  match unpack [5, 11] t with
  | [d, z] => rsv (z = 0) <| .ok (f (xr d))
  | _ => bad
def encX1 (d : XReg) : Nat := pack [(5, d.val), (11, 0)]

/-- Layout F4 (R82). -/
def decF4 (f : XReg → XReg → XReg → XReg → Instr) (t : Nat) : Dec :=
  match unpack [5, 5, 5, 5, 44] t with
  | [d, a, b, c, z] => rsv (z = 0) <| .ok (f (xr d) (xr a) (xr b) (xr c))
  | _ => bad
def encF4 (d a b c : XReg) : Nat := pack [(5, d.val), (5, a.val), (5, b.val), (5, c.val), (44, 0)]

/-- Layout CV (R85); `qOk` says whether the operation has the Q bit. -/
def decCV (qOk : Bool) (tys : List Ty) (f : XReg → XReg → Ty → Bool → Instr) (t : Nat) : Dec :=
  match unpack [5, 5, 4, 1, 17] t with
  | [d, a, ty, q, z] =>
    rsv (z = 0 && (qOk || q = 0)) <|
      match tyOf ty with
      | some y => val (y.isOneOf tys) <| .ok (f (xr d) (xr a) y (bit1 q))
      | none => .error .reservedValue
  | _ => bad
def encCV (d a : XReg) (ty : Ty) (q : Bool) : Nat :=
  pack [(5, d.val), (5, a.val), (4, ty.code), (1, b01 q), (17, 0)]

/-- Layout BD (R47). -/
def decBD (f : BitVec 27 → Fin 32 → Instr) (t : Nat) : Dec :=
  match unpack [5, 27] t with
  | [h, d] => .ok (f (BitVec.ofNat 27 d) (Fin.ofNat 32 h))
  | _ => bad
def encBD (d : BitVec 27) (h : Fin 32) : Nat := pack [(5, h.val), (27, d.toNat)]

/-- Layout LP (R92): naming x0 is refused. -/
def decLP (f : XReg → BitVec 22 → Fin 32 → Instr) (t : Nat) : Dec :=
  match unpack [5, 5, 22] t with
  | [h, a, d] => val (xr a ≠ 0) <| .ok (f (xr a) (BitVec.ofNat 22 d) (Fin.ofNat 32 h))
  | _ => bad
def encLP (a : XReg) (d : BitVec 22) (h : Fin 32) : Nat := pack [(5, h.val), (5, a.val), (22, d.toNat)]

/-- Layout LS with a distance (LD, R118). -/
def decLS (f : XReg → XReg → BitVec 24 → Space → Ty → Fin 4096 → Instr) (t : Nat) : Dec :=
  match unpack [5, 5, 2, 4, 12, 24, 12] t with
  | [d, a, sp, ty, n, i, z] =>
    rsv (z = 0) <|
      match tyOf ty with
      | some y => val y.scalarMem <| .ok (f (xr d) (xr a) (BitVec.ofNat 24 i) (spaceOf sp) y (Fin.ofNat 4096 n))
      | none => .error .reservedValue
  | _ => bad
def encLS (d a : XReg) (i : BitVec 24) (sp : Space) (ty : Ty) (n : Fin 4096) : Nat :=
  pack [(5, d.val), (5, a.val), (2, sp.code), (4, ty.code), (12, n.val), (24, i.toNat), (12, 0)]

/-- Layout LS of ST: dist reserved (R118). -/
def decLSs (f : XReg → XReg → BitVec 24 → Space → Ty → Instr) (t : Nat) : Dec :=
  match unpack [5, 5, 2, 4, 12, 24, 12] t with
  | [d, a, sp, ty, n, i, z] =>
    rsv (z = 0 && n = 0) <|
      match tyOf ty with
      | some y => val y.scalarMem <| .ok (f (xr d) (xr a) (BitVec.ofNat 24 i) (spaceOf sp) y)
      | none => .error .reservedValue
  | _ => bad
def encLSs (d a : XReg) (i : BitVec 24) (sp : Space) (ty : Ty) : Nat :=
  pack [(5, d.val), (5, a.val), (2, sp.code), (4, ty.code), (12, 0), (24, i.toNat), (12, 0)]

/-- Layout LS of PREF: ty, dist and bits 4:0 reserved (R118). -/
def decLSp (f : XReg → BitVec 24 → Space → Instr) (t : Nat) : Dec :=
  match unpack [5, 5, 2, 16, 24, 12] t with
  | [d, a, sp, n, i, z] => rsv (z = 0 && n = 0 && d = 0) <| .ok (f (xr a) (BitVec.ofNat 24 i) (spaceOf sp))
  | _ => bad
def encLSp (a : XReg) (i : BitVec 24) (sp : Space) : Nat :=
  pack [(5, 0), (5, a.val), (2, sp.code), (16, 0), (24, i.toNat), (12, 0)]

/-- Layout LX (R122). -/
def decLX (f : XReg → XReg → XReg → Fin 4 → Space → Ty → Fin 4096 → Instr) (t : Nat) : Dec :=
  match unpack [5, 5, 5, 2, 4, 12, 2, 29] t with
  | [d, a, b, sp, ty, n, s, z] =>
    rsv (z = 0) <|
      match tyOf ty with
      | some y => val y.scalarMem <| .ok (f (xr d) (xr a) (xr b) (f4 s) (spaceOf sp) y (Fin.ofNat 4096 n))
      | none => .error .reservedValue
  | _ => bad
def encLX (d a b : XReg) (s : Fin 4) (sp : Space) (ty : Ty) (n : Fin 4096) : Nat :=
  pack [(5, d.val), (5, a.val), (5, b.val), (2, sp.code), (4, ty.code), (12, n.val), (2, s.val), (29, 0)]

/-- Layout LX of STX: dist reserved (R122). -/
def decLXs (f : XReg → XReg → XReg → Fin 4 → Space → Ty → Instr) (t : Nat) : Dec :=
  match unpack [5, 5, 5, 2, 4, 12, 2, 29] t with
  | [d, a, b, sp, ty, n, s, z] =>
    rsv (z = 0 && n = 0) <|
      match tyOf ty with
      | some y => val y.scalarMem <| .ok (f (xr d) (xr a) (xr b) (f4 s) (spaceOf sp) y)
      | none => .error .reservedValue
  | _ => bad
def encLXs (d a b : XReg) (s : Fin 4) (sp : Space) (ty : Ty) : Nat :=
  pack [(5, d.val), (5, a.val), (5, b.val), (2, sp.code), (4, ty.code), (12, 0), (2, s.val), (29, 0)]

/-- Layout DV (R128). -/
def decDV (f : XReg → XReg → XReg → Fin 4096 → Instr) (t : Nat) : Dec :=
  match unpack [5, 5, 5, 12, 5] t with
  | [d, a, b, n, z] => rsv (z = 0) <| .ok (f (xr d) (xr a) (xr b) (Fin.ofNat 4096 n))
  | _ => bad
def encDV (d a b : XReg) (n : Fin 4096) : Nat :=
  pack [(5, d.val), (5, a.val), (5, b.val), (12, n.val), (5, 0)]

/-- Layout FN (R144): a kind mask of zero is refused. -/
def decFN (f : FenceKinds → Scope → Instr) (t : Nat) : Dec :=
  match unpack [3, 1, 1, 1, 1, 1, 8] t with
  | [sc, ll, ls, sl, ss, en, z] =>
    rsv (z = 0) <| val (ll + ls + sl + ss + en ≠ 0) <|
      match scopeOf sc with
      | some s => .ok (f ⟨bit1 ll, bit1 ls, bit1 sl, bit1 ss, bit1 en⟩ s)
      | none => .error .reservedValue
  | _ => bad
def encFN (k : FenceKinds) (s : Scope) : Nat :=
  pack [(3, s.code), (1, b01 k.ll), (1, b01 k.ls), (1, b01 k.sl), (1, b01 k.ss), (1, b01 k.en), (8, 0)]

/-- Layout LSQ of LDAQ (R145). -/
def decLQ (f : XReg → XReg → BitVec 24 → Space → Ty → Fin 4096 → Scope → Instr) (t : Nat) : Dec :=
  match unpack [5, 5, 2, 4, 12, 24, 3, 9] t with
  | [d, a, sp, ty, n, i, sc, z] =>
    rsv (z = 0) <|
      match tyOf ty, scopeOf sc with
      | some y, some s =>
        val y.scalarMem <| .ok (f (xr d) (xr a) (BitVec.ofNat 24 i) (spaceOf sp) y (Fin.ofNat 4096 n) s)
      | _, _ => .error .reservedValue
  | _ => bad
def encLQ (d a : XReg) (i : BitVec 24) (sp : Space) (ty : Ty) (n : Fin 4096) (s : Scope) : Nat :=
  pack [(5, d.val), (5, a.val), (2, sp.code), (4, ty.code), (12, n.val), (24, i.toNat), (3, s.code), (9, 0)]

/-- Layout LSQ of STRL: dist reserved (R145). -/
def decSQ (f : XReg → XReg → BitVec 24 → Space → Ty → Scope → Instr) (t : Nat) : Dec :=
  match unpack [5, 5, 2, 4, 12, 24, 3, 9] t with
  | [d, a, sp, ty, n, i, sc, z] =>
    rsv (z = 0 && n = 0) <|
      match tyOf ty, scopeOf sc with
      | some y, some s => val y.scalarMem <| .ok (f (xr d) (xr a) (BitVec.ofNat 24 i) (spaceOf sp) y s)
      | _, _ => .error .reservedValue
  | _ => bad
def encSQ (d a : XReg) (i : BitVec 24) (sp : Space) (ty : Ty) (s : Scope) : Nat :=
  pack [(5, d.val), (5, a.val), (2, sp.code), (4, ty.code), (12, 0), (24, i.toNat), (3, s.code), (9, 0)]

/-- Layout AM (R149): `fadd`, `minmax` and `cas` say which operation it is. -/
def decAM (fadd minmax cas : Bool) (f : Amo → Instr) (t : Nat) : Dec :=
  match unpack [5, 5, 5, 5, 2, 4, 12, 3, 2, 1, 20] t with
  | [d, a, b, c, sp, ty, n, sc, o, u, i] =>
    rsv ((cas || c = 0) && (o ≠ 0 || sc = 0) && (u = 0 || (minmax && ty = 0))) <|
      match tyOf ty, scopeOf sc with
      | some y, some s =>
        val (if fadd then y = .f32 else y = .w || y = .s32 || y = .z32) <|
          .ok (f ⟨xr d, xr a, xr b, xr c, spaceOf sp, y, Fin.ofNat 4096 n, s, ordOf o, bit1 u, BitVec.ofNat 20 i⟩)
      | _, _ => .error .reservedValue
  | _ => bad
def encAM (a : Amo) : Nat :=
  pack [(5, a.xd.val), (5, a.xa.val), (5, a.xb.val), (5, a.xc.val), (2, a.sp.code), (4, a.ty.code), (12, a.dist.val),
    (3, a.sc.code), (2, a.ord.code), (1, b01 a.u), (20, a.disp.toNat)]

/-- Layout VA (R150, R151). -/
def decVA (fadd minmax : Bool) (f : Vamo → Instr) (t : Nat) : Dec :=
  match unpack [11, 11, 11, 5, 3, 2, 12, 1, 1, 3, 1, 1, 1, 1] t with
  | [vd, vb, va, xa, ma, sp, n, iw, sg, sc, d, ra, u, z] =>
    rsv (z = 0 && (u = 0 || minmax) && (ra = 0 || (fadd && d = 0)) && (d = 1 || (vd = 0 && n = 0))) <|
      match vopOf vd, vopOf vb, vopOf va with
      | some vd, some vb, some va =>
        .ok (f ⟨if d = 1 then some vd else none, vb, va, xr xa, mr ma, spaceOf sp, Fin.ofNat 4096 n, bit1 iw, bit1 sg,
          Fin.ofNat 8 sc, bit1 ra, bit1 u⟩)
      | _, _, _ => .error .reservedValue
  | _ => bad
def encVA (a : Vamo) : Nat :=
  pack [(11, match a.vd with | some v => v.code | none => 0), (11, a.vb.code), (11, a.va.code), (5, a.xa.val),
    (3, a.ma.val), (2, a.sp.code), (12, a.dist.val), (1, b01 a.iw), (1, b01 a.sg), (3, a.sc.val), (1, b01 a.vd.isSome),
    (1, b01 a.ra), (1, b01 a.u), (1, 0)]

/-- Layout AP (R152). -/
def decAP (f : XReg → XReg → VOp → MReg → Space → Fin 4096 → Instr) (t : Nat) : Dec :=
  match unpack [5, 5, 11, 3, 2, 12, 26] t with
  | [d, a, vb, ma, sp, n, z] =>
    rsv (z = 0) <| val (sp = 1 || sp = 2) <|
      match vopOf vb with
      | some v => .ok (f (xr d) (xr a) v (mr ma) (spaceOf sp) (Fin.ofNat 4096 n))
      | none => .error .reservedValue
  | _ => bad
def encAP (d a : XReg) (v : VOp) (m : MReg) (sp : Space) (n : Fin 4096) : Nat :=
  pack [(5, d.val), (5, a.val), (11, v.code), (3, m.val), (2, sp.code), (12, n.val), (26, 0)]

/-- Layout QS (R169). -/
def decQS (f : VOp → QReg → Bool → BitVec 4 → Fin 4 → Fin 4 → Instr) (t : Nat) : Dec :=
  match unpack [11, 3, 1, 4, 2, 2, 41] t with
  | [v, q, w, ae, fb, nb, z] =>
    rsv (z = 0) <| val (ae ≠ 0 && fb + nb + 1 ≤ 4) <|
      match vopOf v with
      | some v => .ok (f v (qr q) (bit1 w) (BitVec.ofNat 4 ae) (f4 fb) (f4 nb))
      | none => .error .reservedValue
  | _ => bad
def encQS (v : VOp) (q : QReg) (w : Bool) (ae : BitVec 4) (fb nb : Fin 4) : Nat :=
  pack [(11, v.code), (3, q.val), (1, b01 w), (4, ae.toNat), (2, fb.val), (2, nb.val), (41, 0)]

/-- Layout BD8 (R172). -/
def decBD8 (f : VOp → XReg → BitVec 20 → Space → Bool → Fin 4 → Fin 4 → Fin 4096 → Instr) (t : Nat) : Dec :=
  match unpack [11, 5, 2, 1, 2, 2, 12, 20, 9] t with
  | [v, a, sp, w, nb, fb, n, i, z] =>
    rsv (z = 0) <| val (fb + nb + 1 ≤ 4) <|
      match vopOf v with
      | some v => .ok (f v (xr a) (BitVec.ofNat 20 i) (spaceOf sp) (bit1 w) (f4 fb) (f4 nb) (Fin.ofNat 4096 n))
      | none => .error .reservedValue
  | _ => bad
def encBD8 (v : VOp) (a : XReg) (i : BitVec 20) (sp : Space) (w : Bool) (fb nb : Fin 4) (n : Fin 4096) : Nat :=
  pack [(11, v.code), (5, a.val), (2, sp.code), (1, b01 w), (2, nb.val), (2, fb.val), (12, n.val), (20, i.toNat), (9, 0)]

/-- Layout BH (R175). -/
def decBH (f : XReg → XReg → Space → Fin 3 → Fin 4096 → Instr) (t : Nat) : Dec :=
  match unpack [5, 5, 2, 2, 12, 6] t with
  | [d, a, sp, w, n, z] =>
    rsv (z = 0) <| val (w ≠ 3) <| .ok (f (xr d) (xr a) (spaceOf sp) (Fin.ofNat 3 w) (Fin.ofNat 4096 n))
  | _ => bad
def encBH (d a : XReg) (sp : Space) (w : Fin 3) (n : Fin 4096) : Nat :=
  pack [(5, d.val), (5, a.val), (2, sp.code), (2, w.val), (12, n.val), (6, 0)]

/-- Layout CT (R176). -/
def decCT (f : VOp → VOp → MReg → CFmt → Instr) (t : Nat) : Dec :=
  match unpack [11, 11, 3, 3, 4] t with
  | [d, a, m, k, z] =>
    rsv (z = 0) <|
      match vopOf d, vopOf a, fmtOf k with
      | some d, some a, some k => val (k ≠ .w) <| .ok (f d a (mr m) k)
      | _, _, _ => .error .reservedValue
  | _ => bad
def encCT (d a : VOp) (m : MReg) (k : CFmt) : Nat :=
  pack [(11, d.code), (11, a.code), (3, m.val), (3, k.code), (4, 0)]

/-- The fields of layout VV (R190) as numbers. -/
structure VVRaw where
  vd : Nat
  va : Nat
  vb : Nat
  vc : Nat
  ma : Nat
  ty : Nat
  s : Nat
  opt : Nat
  imm : Nat
  z : Nat

def rawVV (t : Nat) : VVRaw :=
  match unpack [11, 11, 11, 11, 3, 4, 1, 3, 8, 1] t with
  | [vd, va, vb, vc, ma, ty, s, opt, imm, z] => ⟨vd, va, vb, vc, ma, ty, s, opt, imm, z⟩
  | _ => ⟨0, 0, 0, 0, 0, 0, 0, 0, 0, 1⟩

/-- The second operand of layout VV without an immediate form: with S = 1, xb in the low five bits of VB and zeros above. -/
def src2Of (r : VVRaw) : Option Src2 :=
  if r.s = 1 then some (.scalar (xr r.vb)) else (vopOf r.vb).map .vec

/-- A plain operation of layout VV: `vc` says whether VC is used, `optMask` which OPT values are accepted, `immOk` whether
IMM is used. -/
def decVVg (vc immOk : Bool) (optMax : Nat) (tys : List Ty) (f : VV → VOp → Nat → Nat → Instr) (t : Nat) : Dec :=
  let r := rawVV t
  rsv (r.z = 0 && (vc || r.vc = 0) && (immOk || r.imm = 0) && r.opt ≤ optMax && (r.s = 0 || r.vb < 32)) <|
    match vopOf r.vd, vopOf r.va, src2Of r, vopOf r.vc, tyOf r.ty with
    | some d, some a, some b, some c, some y => val (y.isOneOf tys) <| .ok (f ⟨d, a, b, y, mr r.ma⟩ c r.opt r.imm)
    | _, _, _, _, _ => .error .reservedValue

def Src2.sBit : Src2 → Nat
  | .scalar _ => 1
  | _ => 0
def Src2.field : Src2 → Nat
  | .vec v => v.code
  | .scalar x => x.val
  | .imm _ => 0
def encVVg (a : VV) (vc opt imm : Nat) : Nat :=
  pack [(11, a.vd.code), (11, a.va.code), (11, a.b.field), (11, vc), (3, a.ma.val), (4, a.ty.code), (1, a.b.sBit),
    (3, opt), (8, imm), (1, 0)]

/-- A shift of layout VV (R192, R193): with OPT bit 0 the count is IMM[4:0], and VB, S and IMM[7:5] are reserved. -/
def decVVs (optMax : Nat) (tys : List Ty) (f : VV → Bool → Instr) (t : Nat) : Dec :=
  let r := rawVV t
  rsv (r.z = 0 && r.vc = 0 && r.opt ≤ optMax
      && (if r.opt % 2 = 1 then r.vb = 0 && r.s = 0 && r.imm < 32 else r.imm = 0 && (r.s = 0 || r.vb < 32))) <|
    match vopOf r.vd, vopOf r.va, (if r.opt % 2 = 1 then some (.imm (xr r.imm)) else src2Of r), tyOf r.ty with
    | some d, some a, some b, some y => val (y.isOneOf tys) <| .ok (f ⟨d, a, b, y, mr r.ma⟩ (bit1 (r.opt / 2)))
    | _, _, _, _ => .error .reservedValue
def encVVs (a : VV) (n16 : Bool) : Nat :=
  match a.b with
  | .imm n => encVVg a 0 (1 + 2 * b01 n16) n.val
  | _ => encVVg a 0 (2 * b01 n16) 0

/-- A compare of layout VV (R190, R201): md in bits 2:0 of the VD field. -/
def decVVc (f : VCmp → Instr) (t : Nat) : Dec :=
  let r := rawVV t
  rsv (r.z = 0 && r.vc = 0 && r.imm = 0 && r.opt = 0 && r.vd < 8 && (r.s = 0 || r.vb < 32)) <|
    match vopOf r.va, src2Of r, tyOf r.ty with
    | some a, some b, some y => val (y.isOneOf [.f32, .s32, .z32]) <| .ok (f ⟨mr r.vd, a, b, y, mr r.ma⟩)
    | _, _, _ => .error .reservedValue
def encVVc (a : VCmp) : Nat :=
  pack [(11, a.md.val), (11, a.va.code), (11, a.b.field), (11, 0), (3, a.ma.val), (4, a.ty.code), (1, a.b.sBit),
    (3, 0), (8, 0), (1, 0)]

/-- Layout VU (R196); `qOk` says for which types the Q bit is an option. -/
def decVU (qOk : Bool) (tys : List Ty) (f : VU → Bool → Instr) (t : Nat) : Dec :=
  match unpack [11, 11, 3, 4, 1, 2] t with
  | [d, a, m, ty, q, z] =>
    rsv (z = 0 && (qOk || q = 0)) <|
      match vopOf d, vopOf a, tyOf ty with
      | some d, some a, some y => val (y.isOneOf tys) <| .ok (f ⟨d, a, y, mr m⟩ (bit1 q))
      | _, _, _ => .error .reservedValue
  | _ => bad
def encVU (a : VU) (q : Bool) : Nat :=
  pack [(11, a.vd.code), (11, a.va.code), (3, a.ma.val), (4, a.ty.code), (1, b01 q), (2, 0)]

/-- Layout VR (R199). -/
def decVR (f : XReg → VOp → Ty → MReg → Instr) (t : Nat) : Dec :=
  match unpack [5, 11, 3, 4, 9] t with
  | [d, a, m, ty, z] =>
    rsv (z = 0) <|
      match vopOf a, tyOf ty with
      | some a, some y => val (y.isOneOf [.f32, .s32, .z32]) <| .ok (f (xr d) a y (mr m))
      | _, _ => .error .reservedValue
  | _ => bad
def encVR (d : XReg) (a : VOp) (ty : Ty) (m : MReg) : Nat :=
  pack [(5, d.val), (11, a.code), (3, m.val), (4, ty.code), (9, 0)]

/-- Layout M3 (R203). -/
def decM3 (f : MReg → MReg → MReg → Instr) (t : Nat) : Dec :=
  match unpack [3, 3, 3, 7] t with
  | [d, a, b, z] => rsv (z = 0) <| .ok (f (mr d) (mr a) (mr b))
  | _ => bad
def encM3 (d a b : MReg) : Nat := pack [(3, d.val), (3, a.val), (3, b.val), (7, 0)]

/-- Layout M3 without mb (MNOT, R203). -/
def decM2 (f : MReg → MReg → Instr) (t : Nat) : Dec :=
  match unpack [3, 3, 10] t with
  | [d, a, z] => rsv (z = 0) <| .ok (f (mr d) (mr a))
  | _ => bad
def encM2 (d a : MReg) : Nat := pack [(3, d.val), (3, a.val), (10, 0)]

/-- Layout MP (R203). -/
def decMP (f : XReg → MReg → Instr) (t : Nat) : Dec :=
  match unpack [5, 3, 8] t with
  | [d, a, z] => rsv (z = 0) <| .ok (f (xr d) (mr a))
  | _ => bad
def encMP (d : XReg) (a : MReg) : Nat := pack [(5, d.val), (3, a.val), (8, 0)]

/-- Layout MS (R203). -/
def decMS (f : MReg → XReg → Instr) (t : Nat) : Dec :=
  match unpack [3, 5, 8] t with
  | [d, a, z] => rsv (z = 0) <| .ok (f (mr d) (xr a))
  | _ => bad
def encMS (d : MReg) (a : XReg) : Nat := pack [(3, d.val), (5, a.val), (8, 0)]

/-- Layout VBC (R206). -/
def decVBC (f : VOp → XReg → MReg → Instr) (t : Nat) : Dec :=
  match unpack [11, 5, 3, 13] t with
  | [d, a, m, z] =>
    rsv (z = 0) <|
      match vopOf d with
      | some d => .ok (f d (xr a) (mr m))
      | none => .error .reservedValue
  | _ => bad
def encVBC (d : VOp) (a : XReg) (m : MReg) : Nat := pack [(11, d.code), (5, a.val), (3, m.val), (13, 0)]

/-- Layout VM (R207): which of dist, ORD and BO the operation has. -/
def decVM (dist ord bo : Bool) (tyOk : Ty → Bool) (f : VM → BitVec 20 → Bool → Fin 4 → Instr) (t : Nat) : Dec :=
  match unpack [11, 5, 2, 4, 3, 12, 20, 1, 2, 4] t with
  | [v, a, sp, ty, m, n, i, o, b, z] =>
    rsv (z = 0 && (dist || n = 0) && (ord || o = 0) && (bo || b = 0)) <|
      match vopOf v, tyOf ty with
      | some v, some y =>
        val (tyOk y) <| .ok (f ⟨v, xr a, spaceOf sp, y, mr m, Fin.ofNat 4096 n⟩ (BitVec.ofNat 20 i) (bit1 o) (f4 b))
      | _, _ => .error .reservedValue
  | _ => bad
def encVM (a : VM) (i : BitVec 20) (o : Bool) (b : Nat) : Nat :=
  pack [(11, a.vop.code), (5, a.xa.val), (2, a.sp.code), (4, a.ty.code), (3, a.ma.val), (12, a.dist.val),
    (20, i.toNat), (1, b01 o), (2, b), (4, 0)]

/-- Layout VMS (R207). -/
def decVMS (dist ord : Bool) (f : VM → XReg → BitVec 20 → Bool → Instr) (t : Nat) : Dec :=
  match unpack [11, 5, 2, 4, 3, 12, 5, 20, 1, 1] t with
  | [v, a, sp, ty, m, n, b, i, o, z] =>
    rsv (z = 0 && (dist || n = 0) && (ord || o = 0)) <|
      match vopOf v, tyOf ty with
      | some v, some y =>
        val y.vecMem <| .ok (f ⟨v, xr a, spaceOf sp, y, mr m, Fin.ofNat 4096 n⟩ (xr b) (BitVec.ofNat 20 i) (bit1 o))
      | _, _ => .error .reservedValue
  | _ => bad
def encVMS (a : VM) (b : XReg) (i : BitVec 20) (o : Bool) : Nat :=
  pack [(11, a.vop.code), (5, a.xa.val), (2, a.sp.code), (4, a.ty.code), (3, a.ma.val), (12, a.dist.val),
    (5, b.val), (20, i.toNat), (1, b01 o), (1, 0)]

/-- Layout VMX (R207). -/
def decVMX (dist ord : Bool) (f : VM → VX → Bool → Instr) (t : Nat) : Dec :=
  match unpack [11, 5, 2, 4, 3, 12, 11, 1, 1, 3, 1, 10] t with
  | [v, a, sp, ty, m, n, x, iw, sg, sc, o, z] =>
    rsv (z = 0 && (dist || n = 0) && (ord || o = 0)) <|
      match vopOf v, vopOf x, tyOf ty with
      | some v, some x, some y =>
        val y.vecMem <|
          .ok (f ⟨v, xr a, spaceOf sp, y, mr m, Fin.ofNat 4096 n⟩ ⟨x, bit1 iw, bit1 sg, Fin.ofNat 8 sc⟩ (bit1 o))
      | _, _, _ => .error .reservedValue
  | _ => bad
def encVMX (a : VM) (i : VX) (o : Bool) : Nat :=
  pack [(11, a.vop.code), (5, a.xa.val), (2, a.sp.code), (4, a.ty.code), (3, a.ma.val), (12, a.dist.val),
    (11, i.vx.code), (1, b01 i.iw), (1, b01 i.sg), (3, i.sc.val), (1, b01 o), (10, 0)]

/-- Layout SH (R235). -/
def decSH (f : XReg → XReg → Space → Instr) (t : Nat) : Dec :=
  match unpack [5, 5, 2, 20] t with
  | [d, a, sp, z] => rsv (z = 0) <| .ok (f (xr d) (xr a) (spaceOf sp))
  | _ => bad
def encSH (d a : XReg) (sp : Space) : Nat := pack [(5, d.val), (5, a.val), (2, sp.code), (20, 0)]

/-- Layout ST (R237): xc is reserved when TE = 0. -/
def decST (f : Fin 4 → QReg → XReg → XReg → Space → Option XReg → Instr) (t : Nat) : Dec :=
  match unpack [2, 3, 5, 5, 2, 5, 1, 41] t with
  | [s, q, a, b, sp, c, te, z] =>
    rsv (z = 0 && (te = 1 || c = 0)) <|
      .ok (f (f4 s) (qr q) (xr a) (xr b) (spaceOf sp) (if te = 1 then some (xr c) else none))
  | _ => bad
def optX (o : Option XReg) : Nat :=
  match o with
  | some x => x.val
  | none => 0
def encST (s : Fin 4) (q : QReg) (a b : XReg) (sp : Space) (c : Option XReg) : Nat :=
  pack [(2, s.val), (3, q.val), (5, a.val), (5, b.val), (2, sp.code), (5, optX c), (1, b01 c.isSome), (41, 0)]

/-- Layout SW (R243). -/
def decSW (f : XReg → Fin 4 → Instr) (t : Nat) : Dec :=
  match unpack [5, 2, 9] t with
  | [d, s, z] => rsv (z = 0) <| .ok (f (xr d) (f4 s))
  | _ => bad
def encSW (d : XReg) (s : Fin 4) : Nat := pack [(5, d.val), (2, s.val), (9, 0)]

/-- Layout SP (R244). -/
def decSP (f : Fin 4 → Instr) (t : Nat) : Dec :=
  match unpack [2, 14] t with
  | [s, z] => rsv (z = 0) <| .ok (f (f4 s))
  | _ => bad
def encSP (s : Fin 4) : Nat := pack [(2, s.val), (14, 0)]

/-- Layout QC (R222). -/
def decQC (f : QReg → Fin 256 → Fin 8 → Fin 32 → Instr) (t : Nat) : Dec :=
  match unpack [3, 5, 3, 8, 45] t with
  | [q, es, sz, b, z] =>
    rsv (z = 0) <| val (qcfgWf (Fin.ofNat 256 b) (Fin.ofNat 8 sz) (Fin.ofNat 32 es)) <|
      .ok (f (qr q) (Fin.ofNat 256 b) (Fin.ofNat 8 sz) (Fin.ofNat 32 es))
  | _ => bad
def encQC (q : QReg) (b : Fin 256) (sz : Fin 8) (es : Fin 32) : Nat :=
  pack [(3, q.val), (5, es.val), (3, sz.val), (8, b.val), (45, 0)]

/-- Layout QP of QPUSH (R223). -/
def decQP (f : QReg → VOp → CFmt → Instr) (t : Nat) : Dec :=
  match unpack [11, 3, 3, 15] t with
  | [v, q, k, z] =>
    rsv (z = 0) <|
      match vopOf v, fmtOf k with
      | some v, some k => .ok (f (qr q) v k)
      | _, _ => .error .reservedValue
  | _ => bad
def encQP (q : QReg) (v : VOp) (k : CFmt) : Nat := pack [(11, v.code), (3, q.val), (3, k.code), (15, 0)]

/-- Layout QP of QPOP: row kind only (R223). -/
def decQPr (f : RowOp → QReg → CFmt → Instr) (t : Nat) : Dec :=
  match unpack [11, 3, 3, 15] t with
  | [v, q, k, z] =>
    rsv (z = 0) <|
      match rowOf v, fmtOf k with
      | some v, some k => .ok (f v (qr q) k)
      | _, _ => .error .reservedValue
  | _ => bad
def encQPr (v : RowOp) (q : QReg) (k : CFmt) : Nat := pack [(11, v.code), (3, q.val), (3, k.code), (15, 0)]

/-- Layout QN (R227). -/
def decQN (f : XReg → QReg → Instr) (t : Nat) : Dec :=
  match unpack [5, 3, 8] t with
  | [d, q, z] => rsv (z = 0) <| .ok (f (xr d) (qr q))
  | _ => bad
def encQN (d : XReg) (q : QReg) : Nat := pack [(5, d.val), (3, q.val), (8, 0)]

/-- Layout QF (R228): a mask of zero is refused. -/
def decQF (f : BitVec 8 → Instr) (t : Nat) : Dec :=
  match unpack [8, 8] t with
  | [m, z] => rsv (z = 0) <| val (m ≠ 0) <| .ok (f (BitVec.ofNat 8 m))
  | _ => bad
def encQF (m : BitVec 8) : Nat := pack [(8, m.toNat), (8, 0)]

/-- Layout CP (R246). -/
def decCP (f : XReg → XReg → XReg → MReg → Space → Space → Option XReg → Option XReg → Instr) (t : Nat) : Dec :=
  match unpack [5, 5, 5, 2, 2, 3, 1, 5, 1, 5, 30] t with
  | [a, b, c, ds, ss, m, te, xt, fe, xe, z] =>
    rsv (z = 0 && (te = 1 || xt = 0) && (fe = 1 || xe = 0)) <| val (ds ≠ 0 && ss ≠ 0) <|
      .ok (f (xr a) (xr b) (xr c) (mr m) (spaceOf ds) (spaceOf ss) (if te = 1 then some (xr xt) else none)
        (if fe = 1 then some (xr xe) else none))
  | _ => bad
def encCP (a b c : XReg) (m : MReg) (ds ss : Space) (xt xe : Option XReg) : Nat :=
  pack [(5, a.val), (5, b.val), (5, c.val), (2, ds.code), (2, ss.code), (3, m.val), (1, b01 xt.isSome), (5, optX xt),
    (1, b01 xe.isSome), (5, optX xe), (30, 0)]

/-- Layout TS (R250). -/
def decTS (f : PReg → PReg → XReg → XReg → TileState → TileState → Instr) (t : Nat) : Dec :=
  match unpack [5, 5, 4, 4, 2, 2, 10] t with
  | [a, b, d, c, fr, dst, z] =>
    rsv (z = 0) <| val (tsetPair (tileOf fr) (tileOf dst) && !twice (pr d) (pr c)) <|
      .ok (f (pr d) (pr c) (xr a) (xr b) (tileOf fr) (tileOf dst))
  | _ => bad
def encTS (d c : PReg) (a b : XReg) (fr dst : TileState) : Nat :=
  pack [(5, a.val), (5, b.val), (4, d.val), (4, c.val), (2, fr.code), (2, dst.code), (10, 0)]

/-- Two registers and 22 reserved bits: layouts TG, FO and LN (R251, R294, R323). -/
def decRR (f : XReg → XReg → Instr) (t : Nat) : Dec :=
  match unpack [5, 5, 22] t with
  | [d, a, z] => rsv (z = 0) <| .ok (f (xr d) (xr a))
  | _ => bad
def encRR (d a : XReg) : Nat := pack [(5, d.val), (5, a.val), (22, 0)]

/-- Layout TW (R252). -/
def decTW (f : XReg → TileState → Instr) (t : Nat) : Dec :=
  match unpack [5, 2, 25] t with
  | [a, s, z] => rsv (z = 0) <| .ok (f (xr a) (tileOf s))
  | _ => bad
def encTW (a : XReg) (s : TileState) : Nat := pack [(5, a.val), (2, s.code), (25, 0)]

/-- Layout MW (R256): `qs` says whether qa and qb are used. -/
def decMW (qs : Bool) (f : Window → QReg → QReg → Instr) (t : Nat) : Dec :=
  match unpack [1, 2, 2, 2, 2, 3, 3, 17] t with
  | [h, r, c, rs, cs, qa, qb, z] =>
    let w : Window := ⟨bit1 h, f4 r, f4 c, Fin.ofNat 3 rs, Fin.ofNat 3 cs⟩
    rsv (z = 0 && (qs || (qa = 0 && qb = 0))) <| val (rs ≠ 3 && cs ≠ 3 && w.wf) <| .ok (f w (qr qa) (qr qb))
  | _ => bad
def encMW (w : Window) (qa qb : Nat) : Nat :=
  pack [(1, b01 w.half), (2, w.row0.val), (2, w.col0.val), (2, w.rs.val), (2, w.cs.val), (3, qa), (3, qb), (17, 0)]

/-- Layout SL4 (R265). -/
def decSL4 (f : QReg → Bool → Instr) (t : Nat) : Dec :=
  match unpack [3, 1, 28] t with
  | [q, k, z] => rsv (z = 0) <| .ok (f (qr q) (bit1 k))
  | _ => bad
def encSL4 (q : QReg) (k : Bool) : Nat := pack [(3, q.val), (1, b01 k), (28, 0)]

/-- Layout VT (R266). -/
def decVT (f : RowOp → QReg → Fin 4 → Instr) (t : Nat) : Dec :=
  match unpack [11, 3, 2, 16] t with
  | [v, q, s, z] =>
    rsv (z = 0) <|
      match rowOf v with
      | some v => .ok (f v (qr q) (f4 s))
      | none => .error .reservedValue
  | _ => bad
def encVT (v : RowOp) (q : QReg) (s : Fin 4) : Nat := pack [(11, v.code), (3, q.val), (2, s.val), (16, 0)]

/-- Layout GW (R269): naming no half is refused. -/
def decGW (f : Bool → Bool → Instr) (t : Nat) : Dec :=
  match unpack [1, 1, 14] t with
  | [a, b, z] => rsv (z = 0) <| val (a + b ≠ 0) <| .ok (f (bit1 a) (bit1 b))
  | _ => bad
def encGW (a b : Bool) : Nat := pack [(1, b01 a), (1, b01 b), (14, 0)]

/-- Layout SPN (R282). -/
def decSPN (f g : XReg → Option (Fin 4) → Instr) (t : Nat) : Dec :=
  match unpack [5, 2, 1, 1, 23] t with
  | [a, cl, ca, r, z] =>
    rsv (z = 0) <|
      let c : Option (Fin 4) := if ca = 1 then some (f4 cl) else none
      .ok (if r = 1 then g (xr a) c else f (xr a) c)
  | _ => bad
def encSPN (a : XReg) (c : Option (Fin 4)) (r : Bool) : Nat :=
  pack [(5, a.val), (2, match c with | some k => k.val | none => 0), (1, b01 c.isSome), (1, b01 r), (23, 0)]

/-- Layout X1 widened to 4 bytes (SUSPEND, R283). -/
def decX4 (f : XReg → Instr) (t : Nat) : Dec :=
  match unpack [5, 27] t with
  | [a, z] => rsv (z = 0) <| .ok (f (xr a))
  | _ => bad
def encX4 (a : XReg) : Nat := pack [(5, a.val), (27, 0)]

/-- Layout FW (R287). -/
def decFW (f : PReg → PReg → XReg → Instr) (t : Nat) : Dec :=
  match unpack [5, 4, 4, 19] t with
  | [a, d, c, z] => rsv (z = 0) <| val (!twice (pr d) (pr c)) <| .ok (f (pr d) (pr c) (xr a))
  | _ => bad
def encFW (d c : PReg) (a : XReg) : Nat := pack [(5, a.val), (4, d.val), (4, c.val), (19, 0)]

/-- Layout FM (R297). -/
def decFM (f : XReg → XReg → XReg → XReg → BitVec 27 → Fin 32 → Instr) (t : Nat) : Dec :=
  match unpack [5, 5, 5, 5, 5, 27, 12] t with
  | [a, b, c, e, h, d, z] =>
    rsv (z = 0) <| .ok (f (xr a) (xr b) (xr c) (xr e) (BitVec.ofNat 27 d) (Fin.ofNat 32 h))
  | _ => bad
def encFM (a b c e : XReg) (d : BitVec 27) (h : Fin 32) : Nat :=
  pack [(5, a.val), (5, b.val), (5, c.val), (5, e.val), (5, h.val), (27, d.toNat), (12, 0)]

/-- Layout SV (R299). -/
def decSV (f : XReg → PReg → PReg → XReg → Instr) (t : Nat) : Dec :=
  match unpack [5, 5, 4, 4, 14] t with
  | [d, a, p, c, z] => rsv (z = 0) <| val (!twice (pr p) (pr c)) <| .ok (f (xr d) (pr p) (pr c) (xr a))
  | _ => bad
def encSV (d : XReg) (p c : PReg) (a : XReg) : Nat :=
  pack [(5, d.val), (5, a.val), (4, p.val), (4, c.val), (14, 0)]

/-- Layout TXA (R325). -/
def decTXA (f : XReg → Bool → Instr) (t : Nat) : Dec :=
  match unpack [5, 1, 10] t with
  | [a, r, z] => rsv (z = 0) <| .ok (f (xr a) (bit1 r))
  | _ => bad
def encTXA (a : XReg) (r : Bool) : Nat := pack [(5, a.val), (1, b01 r), (10, 0)]

/-- Layout TXW (R326): M = 00 is OLDEST, 01 POLL, others reserved. -/
def decTXW (f g : XReg → Instr) (t : Nat) : Dec :=
  match unpack [5, 2, 25] t with
  | [d, m, z] => rsv (z = 0) <| if m = 0 then .ok (f (xr d)) else if m = 1 then .ok (g (xr d)) else .error .reservedValue
  | _ => bad
def encTXW (d : XReg) (m : Nat) : Nat := pack [(5, d.val), (2, m), (25, 0)]

/-- Layout SR of MFS (R357). -/
def decMFS (f : XReg → SysReg → Instr) (t : Nat) : Dec :=
  match unpack [5, 10, 17] t with
  | [d, i, z] =>
    rsv (z = 0) <|
      match sysRegOf i with
      | some r => .ok (f (xr d) r)
      | none => .error .reservedValue
  | _ => bad

/-- Layout SR of MTS (R357): a read-only register is refused; GMODE is a row of its own. -/
def decMTS (f : SysReg → XReg → Instr) (g : XReg → Instr) (t : Nat) : Dec :=
  match unpack [5, 10, 17] t with
  | [a, i, z] =>
    rsv (z = 0) <|
      match sysRegOf i with
      | some r => if r = .gmode then .ok (g (xr a)) else val r.writable <| .ok (f r (xr a))
      | none => .error .reservedValue
  | _ => bad
def encSR (d : XReg) (r : SysReg) : Nat := pack [(5, d.val), (10, r.index), (17, 0)]

/-- Layout TB (R359). -/
def decTB (f : BitVec 16 → Instr) (t : Nat) : Dec := .ok (f (BitVec.ofNat 16 t))

/-- Layout IC (R361): with A = 1 xa and xb are reserved. -/
def decIC (f : XReg → XReg → Instr) (g : Instr) (t : Nat) : Dec :=
  match unpack [5, 5, 1, 53] t with
  | [a, b, al, z] =>
    rsv (z = 0 && (al = 0 || (a = 0 && b = 0))) <| if al = 1 then .ok g else .ok (f (xr a) (xr b))
  | _ => bad
def encIC (a b : Nat) (al : Bool) : Nat := pack [(5, a), (5, b), (1, b01 al), (53, 0)]

/-- An operation without a tail. -/
def dec0 (i : Instr) (_ : Nat) : Dec := .ok i

/-! ### The opcode map (R48) -/

/-- A row of the opcode map: major opcode, tail length code, and the reading of its tail. -/
structure OpRow where
  op : Nat
  t : Nat
  dec : Nat → Dec

def rowsA (h : Head) : List OpRow := [
  ⟨0x001, 2, decA3 (.add h)⟩, ⟨0x002, 2, decA3 (.sub h)⟩, ⟨0x003, 2, decA2I (.addi h)⟩, ⟨0x004, 2, decA3 (.mul h)⟩,
  ⟨0x005, 2, decA3 (.mulh h)⟩, ⟨0x006, 2, decA3 (.and h)⟩, ⟨0x007, 2, decA3 (.or h)⟩, ⟨0x008, 2, decA3 (.xor h)⟩,
  ⟨0x009, 2, decA2I (.andi h)⟩, ⟨0x00A, 2, decA2I (.ori h)⟩, ⟨0x00B, 2, decA2I (.xori h)⟩, ⟨0x00C, 2, decA3 (.sll h)⟩,
  ⟨0x00D, 2, decA3 (.srl h)⟩, ⟨0x00E, 2, decA3 (.sra h)⟩, ⟨0x00F, 2, decSHI (.slli h)⟩, ⟨0x010, 2, decSHI (.srli h)⟩,
  ⟨0x011, 2, decSHI (.srai h)⟩, ⟨0x012, 2, decA3 (.min h)⟩, ⟨0x013, 2, decA3 (.max h)⟩, ⟨0x014, 2, decA3 (.minu h)⟩,
  ⟨0x015, 2, decA3 (.maxu h)⟩, ⟨0x016, 1, decA1 (.clz h)⟩, ⟨0x017, 1, decA1 (.popc h)⟩, ⟨0x018, 3, decMOVI (.movi h)⟩,
  ⟨0x019, 2, decMT (.movt h)⟩, ⟨0x01A, 2, decSL (.sel h)⟩]

def rowsB (h : Head) : List OpRow := [
  ⟨0x020, 2, decCR (.cmpeq h)⟩, ⟨0x021, 2, decCR (.cmpne h)⟩, ⟨0x022, 2, decCR (.cmplt h)⟩, ⟨0x023, 2, decCR (.cmpltu h)⟩,
  ⟨0x024, 2, decCR (.cmpge h)⟩, ⟨0x025, 2, decCR (.cmpgeu h)⟩, ⟨0x026, 2, decCI (.cmpeqi h)⟩, ⟨0x027, 2, decCI (.cmplti h)⟩,
  ⟨0x028, 1, decP2 (.pand h)⟩, ⟨0x029, 1, decP2 (.por h)⟩, ⟨0x02A, 1, decP2 (.pxor h)⟩, ⟨0x02B, 1, decP1 (.pnot h)⟩,
  ⟨0x02C, 1, decX1 (.pget h)⟩, ⟨0x02D, 1, decX1 (.pput h)⟩,
  ⟨0x030, 2, decA3 (.fadd h)⟩, ⟨0x031, 2, decA3 (.fsub h)⟩, ⟨0x032, 2, decA3 (.fmul h)⟩, ⟨0x033, 2, decA3 (.fdiv h)⟩,
  ⟨0x034, 3, decF4 (.fma h)⟩, ⟨0x035, 2, decA3 (.fmin h)⟩, ⟨0x036, 2, decA3 (.fmax h)⟩, ⟨0x037, 2, decA3s (.fsqrt h)⟩,
  ⟨0x038, 2, decCR (.fcmpeq h)⟩, ⟨0x039, 2, decCR (.fcmplt h)⟩, ⟨0x03A, 2, decCR (.fcmple h)⟩,
  ⟨0x03B, 2, decCV true [.bf, .h] (.fcvt h)⟩, ⟨0x03C, 2, decCV true [.w, .s32, .z32] (.fcvti h)⟩,
  ⟨0x03D, 2, decCV false [.w, .s32, .z32] fun d a ty _ => .icvtf h d a ty⟩]

def rowsC (h : Head) : List OpRow := [
  ⟨0x060, 2, decBD (.br h)⟩, ⟨0x061, 2, decBD (.call h)⟩, ⟨0x062, 0, dec0 (.ret h)⟩, ⟨0x063, 1, decX1 (.jr h)⟩,
  ⟨0x064, 1, decX1 (.callr h)⟩, ⟨0x065, 2, decLP (.loop h)⟩, ⟨0x066, 0, dec0 (.nop h)⟩,
  ⟨0x080, 3, decLS (.ld h)⟩, ⟨0x081, 3, decLSs (.st h)⟩, ⟨0x082, 3, decLX (.ldx h)⟩, ⟨0x083, 3, decLXs (.stx h)⟩,
  ⟨0x084, 3, decLSp (.pref h)⟩, ⟨0x088, 2, decDV (.div h)⟩, ⟨0x089, 2, decDV (.divu h)⟩, ⟨0x08A, 2, decDV (.rem h)⟩,
  ⟨0x08B, 2, decDV (.remu h)⟩,
  ⟨0x0C0, 1, decFN (.fence h)⟩, ⟨0x0C1, 3, decLQ (.ldaq h)⟩, ⟨0x0C2, 3, decSQ (.strl h)⟩,
  ⟨0x0C4, 3, decAM false false false (.amoswp h)⟩, ⟨0x0C5, 3, decAM false false false (.amoadd h)⟩,
  ⟨0x0C6, 3, decAM false false false (.amoand h)⟩, ⟨0x0C7, 3, decAM false false false (.amoor h)⟩,
  ⟨0x0C8, 3, decAM false false false (.amoxor h)⟩, ⟨0x0C9, 3, decAM false true false (.amomin h)⟩,
  ⟨0x0CA, 3, decAM false true false (.amomax h)⟩, ⟨0x0CB, 3, decAM false false true (.amocas h)⟩,
  ⟨0x0CC, 3, decAM true false false (.amofadd h)⟩,
  ⟨0x0E0, 3, decVA false false (.vamoAdd h)⟩, ⟨0x0E1, 3, decVA false false (.vamoAnd h)⟩,
  ⟨0x0E2, 3, decVA false false (.vamoOr h)⟩, ⟨0x0E3, 3, decVA false false (.vamoXor h)⟩,
  ⟨0x0E4, 3, decVA false true (.vamoMin h)⟩, ⟨0x0E5, 3, decVA false true (.vamoMax h)⟩,
  ⟨0x0E6, 3, decVA true false (.vamoFadd h)⟩, ⟨0x0E7, 3, decAP (.append h)⟩]

def rowsV (h : Head) : List OpRow := [
  ⟨0x100, 3, decQS (.qst h)⟩, ⟨0x101, 3, decBD8 (.bdec h)⟩, ⟨0x102, 2, decBH (.bhdr h)⟩, ⟨0x103, 2, decCT (.cvt h)⟩,
  ⟨0x120, 3, decVVg false false 0 [.f32, .s32] fun a _ _ _ => .vadd h a⟩,
  ⟨0x121, 3, decVVg false false 0 [.f32, .s32] fun a _ _ _ => .vsub h a⟩,
  ⟨0x122, 3, decVVg false false 0 [.f32, .s32] fun a _ _ _ => .vmul h a⟩,
  ⟨0x123, 3, decVVg true false 0 [.f32] fun a c _ _ => .vfma h a c⟩,
  ⟨0x124, 3, decVVg false false 0 [.f32, .s32, .z32] fun a _ _ _ => .vmin h a⟩,
  ⟨0x125, 3, decVVg false false 0 [.f32, .s32, .z32] fun a _ _ _ => .vmax h a⟩,
  ⟨0x126, 2, decVU false [.f32, .s32] fun a _ => .vabs h a⟩, ⟨0x127, 2, decVU false [.f32] fun a _ => .vsqrt h a⟩,
  ⟨0x128, 2, decVU false [.f32] fun a _ => .vexp h a⟩, ⟨0x129, 2, decVU false [.f32] fun a _ => .vrsq h a⟩,
  ⟨0x12A, 2, decVU false [.f32] fun a _ => .vrcp h a⟩,
  ⟨0x12B, 3, decVVg false false 0 [.s32] fun a _ _ _ => .vadds h a⟩,
  ⟨0x130, 3, decVVg false false 0 [.w] fun a _ _ _ => .vand h a⟩,
  ⟨0x131, 3, decVVg false false 0 [.w] fun a _ _ _ => .vor h a⟩,
  ⟨0x132, 3, decVVg false false 0 [.w] fun a _ _ _ => .vxor h a⟩,
  ⟨0x133, 3, decVVs 1 [.w] fun a _ => .vshl h a⟩, ⟨0x134, 3, decVVs 1 [.z32, .s32] fun a _ => .vshr h a⟩,
  ⟨0x135, 3, decVVs 3 [.s32] fun a n => .vrshr h a n⟩,
  ⟨0x136, 3, decVVg false false 0 [.s16] fun a _ _ _ => .vdot2 h a⟩,
  ⟨0x137, 3, decVVg false false 1 [.s16] fun a _ o _ => .vadd2 h a (bit1 o)⟩]

def rowsW (h : Head) : List OpRow := [
  ⟨0x140, 2, decVR (.vrsum h)⟩, ⟨0x141, 2, decVR (.vrmax h)⟩, ⟨0x142, 2, decVR (.vrmin h)⟩,
  ⟨0x148, 3, decVVc (.vcmpeq h)⟩, ⟨0x149, 3, decVVc (.vcmplt h)⟩, ⟨0x14A, 3, decVVc (.vcmple h)⟩,
  ⟨0x14B, 3, decVVg false false 0 [.w] fun a _ _ _ => .vsel h a⟩,
  ⟨0x150, 3, decVVg false true 0 [.w, .s16] fun a _ _ n => .vslideup h a (Fin.ofNat 256 n)⟩,
  ⟨0x151, 3, decVVg false true 0 [.w, .s16] fun a _ _ n => .vslidedn h a (Fin.ofNat 256 n)⟩,
  ⟨0x152, 3, decVVg false false 0 [.w] fun a _ _ _ => .vperm h a⟩,
  ⟨0x153, 2, decVBC (.vbcast h)⟩, ⟨0x154, 2, decVU false [.w] fun a _ => .vmov h a⟩,
  ⟨0x158, 3, decVVg false false 0 [.s8, .z8, .s16, .z16, .s32, .z32, .s6, .z6] fun a _ _ _ => .vrq h a⟩,
  ⟨0x159, 2, decVU true [.s32, .z32, .f32] (.vcvti h)⟩,
  ⟨0x160, 1, decM3 (.mand h)⟩, ⟨0x161, 1, decM3 (.mor h)⟩, ⟨0x162, 1, decM3 (.mxor h)⟩, ⟨0x163, 1, decM2 (.mnot h)⟩,
  ⟨0x164, 1, decMP (.mpop h)⟩, ⟨0x165, 1, decMS (.msetn h)⟩,
  ⟨0x170, 3, decVM true false false Ty.vecMem fun a d _ _ => .vld h a d⟩,
  ⟨0x171, 3, decVM false true false Ty.vecMem fun a d o _ => .vst h a d o⟩,
  ⟨0x172, 3, decVMS true false fun a b d _ => .vlds h a b d⟩, ⟨0x173, 3, decVMS false true (.vsts h)⟩,
  ⟨0x174, 3, decVM true false true (fun y => y.isOneOf [.s6, .z6]) fun a d _ b => .vld6 h a d b⟩,
  ⟨0x175, 3, decVMX true false fun a i _ => .vgath h a i⟩, ⟨0x176, 3, decVMX false true (.vscat h)⟩]

def rowsX (h : Head) : List OpRow := [
  ⟨0x180, 2, decSH (.shape h)⟩, ⟨0x181, 1, decX1 (.sfree h)⟩, ⟨0x182, 3, decST (.stream h)⟩, ⟨0x183, 1, decSW (.swait h)⟩,
  ⟨0x184, 1, decSP (.sstop h)⟩, ⟨0x188, 3, decQC (.qcfg h)⟩, ⟨0x189, 2, decQP (.qpush h)⟩, ⟨0x18A, 2, decQPr (.qpop h)⟩,
  ⟨0x18B, 1, decQN (.qcnt h)⟩, ⟨0x18C, 1, decQF (.qfence h)⟩, ⟨0x190, 3, decCP (.copy h)⟩, ⟨0x191, 2, decTS (.tset h)⟩,
  ⟨0x192, 2, decRR (.tget h)⟩, ⟨0x193, 2, decTW (.twait h)⟩,
  ⟨0x1A0, 2, decMW true (.opaBf h)⟩, ⟨0x1A1, 2, decMW true (.opaH h)⟩, ⟨0x1A2, 2, decMW true (.opaN6 h)⟩,
  ⟨0x1A3, 2, decSL4 (.stld h)⟩, ⟨0x1A4, 2, decVT (.vmt h)⟩, ⟨0x1A5, 2, decMW false fun w _ _ => .gzero h w⟩,
  ⟨0x1A6, 1, decGW (.gwait h)⟩]

def rowsS (h : Head) : List OpRow := [
  ⟨0x1C0, 2, decSPN (.spawn h) (.spawnRes h)⟩, ⟨0x1C1, 2, decX4 (.suspend h)⟩, ⟨0x1C2, 0, dec0 (.yield h)⟩,
  ⟨0x1C3, 0, dec0 (.exit h)⟩, ⟨0x1C4, 2, decFW (.fwait h)⟩, ⟨0x1C5, 2, decRR (.fres h)⟩,
  ⟨0x1C6, 2, decRR (.ffail h)⟩, ⟨0x1C8, 2, decRR (.finopen h)⟩, ⟨0x1C9, 1, decX1 (.finend h)⟩,
  ⟨0x1CA, 1, decX1 (.finwait h)⟩, ⟨0x1CB, 3, decFM (.farm h)⟩, ⟨0x1CC, 2, decSV (.setvl h)⟩,
  ⟨0x1E0, 2, decRR (.launch h)⟩, ⟨0x1E1, 1, decTXA (.txabort h)⟩, ⟨0x1E2, 2, decTXW (.txwaitOldest h) (.txwaitPoll h)⟩,
  ⟨0x1F0, 2, decMFS (.mfs h)⟩, ⟨0x1F1, 2, decMTS (.mts h) (.mtsGmode h)⟩, ⟨0x1F2, 0, dec0 (.ckpt h)⟩,
  ⟨0x1F3, 0, dec0 (.step h)⟩, ⟨0x1F4, 1, decTB (.trap h)⟩, ⟨0x1F5, 0, dec0 (.eret h)⟩,
  ⟨0x1F6, 3, decIC (.icinv h) (.icinvAll h)⟩, ⟨0x1F7, 1, decTB (.break h)⟩]

/-- The rows of one slot class, by opcode range (R26). -/
def rowsFor (h : Head) (op : Nat) : List OpRow :=
  if op < 0x020 then rowsA h
  else if op < 0x060 then rowsB h
  else if op < 0x100 then rowsC h
  else if op < 0x140 then rowsV h
  else if op < 0x180 then rowsW h
  else if op < 0x1C0 then rowsX h
  else rowsS h

def findRow : List OpRow → Nat → Option OpRow
  | [], _ => none
  | r :: rs, op => if r.op = op then some r else findRow rs op

/-- The parts of a head (R28): tail length code, opcode, guard, E. -/
def headOf (w : Nat) : Head := ⟨bit1 (w / 32768 % 2), pr (w / 2048)⟩
def headOp (w : Nat) : Nat := w / 4 % 512
def headT (w : Nat) : Nat := w % 4

/-- A head from its parts (R28). -/
def headWord (h : Head) (op t : Nat) : Nat := pack [(2, t), (9, op), (4, h.g.val), (1, b01 h.e)]

/-- Tail length in bytes of a tail length code (R29). -/
def tailLen : Nat → Nat
  | 0 => 0
  | 1 => 2
  | 2 => 4
  | _ => 8

/-- Decodes one operation from its head and its tail, taken as a little-endian integer (R41). An opcode that the map leaves
unassigned is the row UNASSIGNED_OPCODE, which raises ILLOP. -/
def decodeOp (hw tail : Nat) : Dec :=
  let h := headOf hw
  match findRow (rowsFor h (headOp hw)) (headOp hw) with
  | some r => if r.t = headT hw then r.dec tail else .error .tailLength
  | none =>
    if headOp hw = 0 then .error .unassigned
    else .ok (.unassignedOpcode h (BitVec.ofNat 9 (headOp hw)) (f4 (headT hw)))

/-! ### Lines (R27, R30) -/

/-- Why a line is refused on entry (R43). -/
inductive IllLine where
  | overlap | padding | openBundle | zeroOp
  deriving DecidableEq, Repr

def IllLine.detail : IllLine → Nat
  | .overlap => 0
  | .padding => 1
  | .openBundle => 2
  | .zeroOp => 3

/-- A little-endian integer from bytes (R5). -/
def leNat : List Byte → Nat
  | [] => 0
  | b :: bs => b.toNat + 256 * leNat bs

/-- The low `n` bytes of an integer, little-endian (R5). -/
def leBytes : Nat → Nat → List Byte
  | 0, _ => []
  | n + 1, v => BitVec.ofNat 8 v :: leBytes n (v / 256)

def byteAt (l : List Byte) (i : Nat) : Byte := l.getD i 0
def slice (l : List Byte) (i n : Nat) : List Byte := (l.drop i).take n

/-- A head of a line with its tail: the pair (head halfword, tail integer). -/
abbrev RawOp := Nat × Nat

/-- The heads of a line from head `k` on, `s` bytes of tails taken so far (the loop of R30); fuel bounds the 32 heads. An
error carries the head index of R43. -/
def lineHeads (line : List Byte) : Nat → Nat → Nat → Except (IllLine × Nat) (List RawOp × Nat × Nat)
  | 0, k, s => .ok ([], k, s)
  | fuel + 1, k, s =>
    if 2 * k + s < 64 then
      let h := leNat (slice line (2 * k) 2)
      if h = 0 then .ok ([], k, s)
      else if headOp h = 0 then .error (.zeroOp, k)
      else
        let n := tailLen (headT h)
        if 2 * k + 2 + s + n > 64 then .error (.overlap, k)
        else
          match lineHeads line fuel (k + 1) (s + n) with
          | .ok (r, k', s') => .ok ((h, leNat (slice line (64 - s - n) n)) :: r, k', s')
          | .error e => .error e
    else .ok ([], k, s)

/-- Decodes a line (R30): its operations as heads and tails. -/
def decodeLine (line : List Byte) : Except (IllLine × Nat) (List RawOp) :=
  match lineHeads line 33 0 0 with
  | .error e => .error e
  | .ok (ops, k, s) =>
    if (slice line (2 * k) (64 - s - 2 * k)).any (fun b => b ≠ 0) then .error (.padding, k)
    else
      match ops.getLast? with
      | some (h, _) => if h / 32768 % 2 = 0 then .error (.openBundle, k - 1) else .ok ops
      | none => .ok ops

/-! ### Encoding -/

/-- The opcode, tail length code, head fields and tail of an operation (R48 and the layouts); none for an event. -/
def encodeOp : Instr → Option (Nat × Nat × Head × Nat)
  | .add h d a b => some (0x001, 2, h, encA3 d a b)
  | .sub h d a b => some (0x002, 2, h, encA3 d a b)
  | .addi h d a i => some (0x003, 2, h, encA2I d a i)
  | .mul h d a b => some (0x004, 2, h, encA3 d a b)
  | .mulh h d a b => some (0x005, 2, h, encA3 d a b)
  | .and h d a b => some (0x006, 2, h, encA3 d a b)
  | .or h d a b => some (0x007, 2, h, encA3 d a b)
  | .xor h d a b => some (0x008, 2, h, encA3 d a b)
  | .andi h d a i => some (0x009, 2, h, encA2I d a i)
  | .ori h d a i => some (0x00A, 2, h, encA2I d a i)
  | .xori h d a i => some (0x00B, 2, h, encA2I d a i)
  | .sll h d a b => some (0x00C, 2, h, encA3 d a b)
  | .srl h d a b => some (0x00D, 2, h, encA3 d a b)
  | .sra h d a b => some (0x00E, 2, h, encA3 d a b)
  | .slli h d a s => some (0x00F, 2, h, encSHI d a s)
  | .srli h d a s => some (0x010, 2, h, encSHI d a s)
  | .srai h d a s => some (0x011, 2, h, encSHI d a s)
  | .min h d a b => some (0x012, 2, h, encA3 d a b)
  | .max h d a b => some (0x013, 2, h, encA3 d a b)
  | .minu h d a b => some (0x014, 2, h, encA3 d a b)
  | .maxu h d a b => some (0x015, 2, h, encA3 d a b)
  | .clz h d a => some (0x016, 1, h, encA1 d a)
  | .popc h d a => some (0x017, 1, h, encA1 d a)
  | .movi h d i => some (0x018, 3, h, encMOVI d i)
  | .movt h d a i s => some (0x019, 2, h, encMT d a i s)
  | .sel h d p a b => some (0x01A, 2, h, encSL d p a b)
  | .cmpeq h d c a b => some (0x020, 2, h, encCR d c a b)
  | .cmpne h d c a b => some (0x021, 2, h, encCR d c a b)
  | .cmplt h d c a b => some (0x022, 2, h, encCR d c a b)
  | .cmpltu h d c a b => some (0x023, 2, h, encCR d c a b)
  | .cmpge h d c a b => some (0x024, 2, h, encCR d c a b)
  | .cmpgeu h d c a b => some (0x025, 2, h, encCR d c a b)
  | .cmpeqi h d c a i => some (0x026, 2, h, encCI d c a i)
  | .cmplti h d c a i => some (0x027, 2, h, encCI d c a i)
  | .pand h d a b => some (0x028, 1, h, encP2 d a b)
  | .por h d a b => some (0x029, 1, h, encP2 d a b)
  | .pxor h d a b => some (0x02A, 1, h, encP2 d a b)
  | .pnot h d a => some (0x02B, 1, h, encP1 d a)
  | .pget h d => some (0x02C, 1, h, encX1 d)
  | .pput h a => some (0x02D, 1, h, encX1 a)
  | .fadd h d a b => some (0x030, 2, h, encA3 d a b)
  | .fsub h d a b => some (0x031, 2, h, encA3 d a b)
  | .fmul h d a b => some (0x032, 2, h, encA3 d a b)
  | .fdiv h d a b => some (0x033, 2, h, encA3 d a b)
  | .fma h d a b c => some (0x034, 3, h, encF4 d a b c)
  | .fmin h d a b => some (0x035, 2, h, encA3 d a b)
  | .fmax h d a b => some (0x036, 2, h, encA3 d a b)
  | .fsqrt h d a => some (0x037, 2, h, encA3s d a)
  | .fcmpeq h d c a b => some (0x038, 2, h, encCR d c a b)
  | .fcmplt h d c a b => some (0x039, 2, h, encCR d c a b)
  | .fcmple h d c a b => some (0x03A, 2, h, encCR d c a b)
  | .fcvt h d a ty q => some (0x03B, 2, h, encCV d a ty q)
  | .fcvti h d a ty q => some (0x03C, 2, h, encCV d a ty q)
  | .icvtf h d a ty => some (0x03D, 2, h, encCV d a ty false)
  | .br h d i => some (0x060, 2, h, encBD d i)
  | .call h d i => some (0x061, 2, h, encBD d i)
  | .ret h => some (0x062, 0, h, 0)
  | .jr h a => some (0x063, 1, h, encX1 a)
  | .callr h a => some (0x064, 1, h, encX1 a)
  | .loop h a d i => some (0x065, 2, h, encLP a d i)
  | .nop h => some (0x066, 0, h, 0)
  | .ld h d a i sp ty n => some (0x080, 3, h, encLS d a i sp ty n)
  | .st h c a i sp ty => some (0x081, 3, h, encLSs c a i sp ty)
  | .ldx h d a b s sp ty n => some (0x082, 3, h, encLX d a b s sp ty n)
  | .stx h c a b s sp ty => some (0x083, 3, h, encLXs c a b s sp ty)
  | .pref h a i sp => some (0x084, 3, h, encLSp a i sp)
  | .div h d a b n => some (0x088, 2, h, encDV d a b n)
  | .divu h d a b n => some (0x089, 2, h, encDV d a b n)
  | .rem h d a b n => some (0x08A, 2, h, encDV d a b n)
  | .remu h d a b n => some (0x08B, 2, h, encDV d a b n)
  | .fence h k s => some (0x0C0, 1, h, encFN k s)
  | .ldaq h d a i sp ty n s => some (0x0C1, 3, h, encLQ d a i sp ty n s)
  | .strl h c a i sp ty s => some (0x0C2, 3, h, encSQ c a i sp ty s)
  | .amoswp h a => some (0x0C4, 3, h, encAM a)
  | .amoadd h a => some (0x0C5, 3, h, encAM a)
  | .amoand h a => some (0x0C6, 3, h, encAM a)
  | .amoor h a => some (0x0C7, 3, h, encAM a)
  | .amoxor h a => some (0x0C8, 3, h, encAM a)
  | .amomin h a => some (0x0C9, 3, h, encAM a)
  | .amomax h a => some (0x0CA, 3, h, encAM a)
  | .amocas h a => some (0x0CB, 3, h, encAM a)
  | .amofadd h a => some (0x0CC, 3, h, encAM a)
  | .vamoAdd h a => some (0x0E0, 3, h, encVA a)
  | .vamoAnd h a => some (0x0E1, 3, h, encVA a)
  | .vamoOr h a => some (0x0E2, 3, h, encVA a)
  | .vamoXor h a => some (0x0E3, 3, h, encVA a)
  | .vamoMin h a => some (0x0E4, 3, h, encVA a)
  | .vamoMax h a => some (0x0E5, 3, h, encVA a)
  | .vamoFadd h a => some (0x0E6, 3, h, encVA a)
  | .append h d a v m sp n => some (0x0E7, 3, h, encAP d a v m sp n)
  | .qst h v q w ae fb nb => some (0x100, 3, h, encQS v q w ae fb nb)
  | .bdec h v a i sp w fb nb n => some (0x101, 3, h, encBD8 v a i sp w fb nb n)
  | .bhdr h d a sp w n => some (0x102, 2, h, encBH d a sp w n)
  | .cvt h d a m k => some (0x103, 2, h, encCT d a m k)
  | .vadd h a => some (0x120, 3, h, encVVg a 0 0 0)
  | .vsub h a => some (0x121, 3, h, encVVg a 0 0 0)
  | .vmul h a => some (0x122, 3, h, encVVg a 0 0 0)
  | .vfma h a c => some (0x123, 3, h, encVVg a c.code 0 0)
  | .vmin h a => some (0x124, 3, h, encVVg a 0 0 0)
  | .vmax h a => some (0x125, 3, h, encVVg a 0 0 0)
  | .vabs h a => some (0x126, 2, h, encVU a false)
  | .vsqrt h a => some (0x127, 2, h, encVU a false)
  | .vexp h a => some (0x128, 2, h, encVU a false)
  | .vrsq h a => some (0x129, 2, h, encVU a false)
  | .vrcp h a => some (0x12A, 2, h, encVU a false)
  | .vadds h a => some (0x12B, 3, h, encVVg a 0 0 0)
  | .vand h a => some (0x130, 3, h, encVVg a 0 0 0)
  | .vor h a => some (0x131, 3, h, encVVg a 0 0 0)
  | .vxor h a => some (0x132, 3, h, encVVg a 0 0 0)
  | .vshl h a => some (0x133, 3, h, encVVs a false)
  | .vshr h a => some (0x134, 3, h, encVVs a false)
  | .vrshr h a n => some (0x135, 3, h, encVVs a n)
  | .vdot2 h a => some (0x136, 3, h, encVVg a 0 0 0)
  | .vadd2 h a s => some (0x137, 3, h, encVVg a 0 (b01 s) 0)
  | .vrsum h d a ty m => some (0x140, 2, h, encVR d a ty m)
  | .vrmax h d a ty m => some (0x141, 2, h, encVR d a ty m)
  | .vrmin h d a ty m => some (0x142, 2, h, encVR d a ty m)
  | .vcmpeq h a => some (0x148, 3, h, encVVc a)
  | .vcmplt h a => some (0x149, 3, h, encVVc a)
  | .vcmple h a => some (0x14A, 3, h, encVVc a)
  | .vsel h a => some (0x14B, 3, h, encVVg a 0 0 0)
  | .vslideup h a n => some (0x150, 3, h, encVVg a 0 0 n.val)
  | .vslidedn h a n => some (0x151, 3, h, encVVg a 0 0 n.val)
  | .vperm h a => some (0x152, 3, h, encVVg a 0 0 0)
  | .vbcast h d a m => some (0x153, 2, h, encVBC d a m)
  | .vmov h a => some (0x154, 2, h, encVU a false)
  | .vrq h a => some (0x158, 3, h, encVVg a 0 0 0)
  | .vcvti h a q => some (0x159, 2, h, encVU a q)
  | .mand h d a b => some (0x160, 1, h, encM3 d a b)
  | .mor h d a b => some (0x161, 1, h, encM3 d a b)
  | .mxor h d a b => some (0x162, 1, h, encM3 d a b)
  | .mnot h d a => some (0x163, 1, h, encM2 d a)
  | .mpop h d a => some (0x164, 1, h, encMP d a)
  | .msetn h d a => some (0x165, 1, h, encMS d a)
  | .vld h a i => some (0x170, 3, h, encVM a i false 0)
  | .vst h a i o => some (0x171, 3, h, encVM a i o 0)
  | .vlds h a b i => some (0x172, 3, h, encVMS a b i false)
  | .vsts h a b i o => some (0x173, 3, h, encVMS a b i o)
  | .vld6 h a i b => some (0x174, 3, h, encVM a i false b.val)
  | .vgath h a i => some (0x175, 3, h, encVMX a i false)
  | .vscat h a i o => some (0x176, 3, h, encVMX a i o)
  | .shape h d a sp => some (0x180, 2, h, encSH d a sp)
  | .sfree h a => some (0x181, 1, h, encX1 a)
  | .stream h s q a b sp c => some (0x182, 3, h, encST s q a b sp c)
  | .swait h d s => some (0x183, 1, h, encSW d s)
  | .sstop h s => some (0x184, 1, h, encSP s)
  | .qcfg h q b sz es => some (0x188, 3, h, encQC q b sz es)
  | .qpush h q v k => some (0x189, 2, h, encQP q v k)
  | .qpop h v q k => some (0x18A, 2, h, encQPr v q k)
  | .qcnt h d q => some (0x18B, 1, h, encQN d q)
  | .qfence h m => some (0x18C, 1, h, encQF m)
  | .copy h a b c m ds ss xt xe => some (0x190, 3, h, encCP a b c m ds ss xt xe)
  | .tset h d c a b fr dst => some (0x191, 2, h, encTS d c a b fr dst)
  | .tget h d a => some (0x192, 2, h, encRR d a)
  | .twait h a s => some (0x193, 2, h, encTW a s)
  | .opaBf h w qa qb => some (0x1A0, 2, h, encMW w qa.val qb.val)
  | .opaH h w qa qb => some (0x1A1, 2, h, encMW w qa.val qb.val)
  | .opaN6 h w qa qb => some (0x1A2, 2, h, encMW w qa.val qb.val)
  | .stld h q k => some (0x1A3, 2, h, encSL4 q k)
  | .vmt h v q s => some (0x1A4, 2, h, encVT v q s)
  | .gzero h w => some (0x1A5, 2, h, encMW w 0 0)
  | .gwait h a b => some (0x1A6, 1, h, encGW a b)
  | .spawn h a c => some (0x1C0, 2, h, encSPN a c false)
  | .spawnRes h a c => some (0x1C0, 2, h, encSPN a c true)
  | .suspend h a => some (0x1C1, 2, h, encX4 a)
  | .yield h => some (0x1C2, 0, h, 0)
  | .exit h => some (0x1C3, 0, h, 0)
  | .fwait h d c a => some (0x1C4, 2, h, encFW d c a)
  | .fres h a b => some (0x1C5, 2, h, encRR a b)
  | .ffail h a b => some (0x1C6, 2, h, encRR a b)
  | .finopen h d a => some (0x1C8, 2, h, encRR d a)
  | .finend h a => some (0x1C9, 1, h, encX1 a)
  | .finwait h a => some (0x1CA, 1, h, encX1 a)
  | .farm h a b c e d i => some (0x1CB, 3, h, encFM a b c e d i)
  | .setvl h d p c a => some (0x1CC, 2, h, encSV d p c a)
  | .launch h d a => some (0x1E0, 2, h, encRR d a)
  | .txabort h a r => some (0x1E1, 1, h, encTXA a r)
  | .txwaitOldest h d => some (0x1E2, 2, h, encTXW d 0)
  | .txwaitPoll h d => some (0x1E2, 2, h, encTXW d 1)
  | .mfs h d r => some (0x1F0, 2, h, encSR d r)
  | .mts h r a => some (0x1F1, 2, h, encSR a r)
  | .mtsGmode h a => some (0x1F1, 2, h, encSR a .gmode)
  | .ckpt h => some (0x1F2, 0, h, 0)
  | .step h => some (0x1F3, 0, h, 0)
  | .trap h c => some (0x1F4, 1, h, c.toNat)
  | .eret h => some (0x1F5, 0, h, 0)
  | .icinv h a b => some (0x1F6, 3, h, encIC a.val b.val false)
  | .icinvAll h => some (0x1F6, 3, h, encIC 0 0 true)
  | .break h c => some (0x1F7, 1, h, c.toNat)
  | .unassignedOpcode h op t => some (op.toNat, t.val, h, 0)
  | _ => none

/-- The head halfword and tail of an operation (R28, R29); none for an event. -/
def encode (i : Instr) : Option RawOp :=
  (encodeOp i).map fun (op, t, h, tail) => (headWord h op t, tail)

/-- A line of 64 bytes from the heads and tails of its operations, packed from its front and its back (R27, R59). -/
def lineOf (ops : List RawOp) : List Byte :=
  let heads := ops.flatMap fun o => leBytes 2 o.1
  let tails := (ops.reverse.flatMap fun o => leBytes (tailLen (headT o.1)) o.2)
  heads ++ List.replicate (64 - heads.length - tails.length) 0 ++ tails

/-- The operation that a word of the opcode table decodes to: bits 15:0 are the head, the bits above its tail; an operation
whose T field asks for more bytes than the word gives has zeros there. -/
def decodeTableWord (nbits w : Nat) : Option Instr :=
  let v := w % 2 ^ nbits
  match decodeOp (v % 65536) (v / 65536) with
  | .ok i => some i
  | .error _ => none

end Sys2Proof
end

