-- ==== Sys2Proof/Config.lean ====
section
/-! DEFINITION. What the spec leaves to the device: values with no rule (R3) and keys, as constants without a body; and the sizes the spec fixes. -/

namespace Sys2Proof.Config

/-- The value the device chooses for an unpredictable destination (R3): a fresh word for each number. -/
opaque freeWord : Nat → Word

/-- The unpredictable contents of a grid cell (R183): for a number and the cell's key. -/
opaque freeCell : Nat → Nat → Cell

/-- Unpredictable bytes (R219, R246): for a number and an address. -/
opaque freeByte : Nat → Nat → Byte

/-- A choice of the device between alternatives that the spec leaves open (R133, R150, R186): for a number and an item. -/
opaque freeChoice : Nat → Nat → Nat

/-- The entry of a full translation buffer or instruction cache that a new one replaces (R114, R117): the spec gives no rule. -/
opaque victim : Nat → Nat

/-- XMSS verification under the owner public key recorded at enrolment (R401): message, signature. -/
opaque ownerVerifies : List Byte → List Byte → Bool

/-- The device key's XMSS signature with a leaf index and a salt (R404): message to 2,820 bytes. -/
opaque deviceSign : Nat → Nat → List Byte → List Byte

/-- The subject key of the device key for a salt: XMSS root and public seed, 64 bytes (R404, R407). -/
opaque deviceKey : Nat → List Byte

/-- The certificate that Volmar's manufacturing key signed at enrolment: subject, leaf index and signature, 2,888 bytes (R407). -/
opaque manufacturerCert : List Byte

/-- Firmware images that a start measures into MR0 and MR1 (R402). -/
opaque stage1 : List Byte
opaque stage2 : List Byte

/-- The partition's 16 system range entries, as the Welkin firmware sets them at a start (R109): base, length and attribute word, in the entry
format of a launch record (R302). -/
opaque systemRanges : Nat → List (Nat × Nat × Nat)

/-- DPTROOT of a partition's cores, as the Welkin firmware sets it at a start (R110). -/
opaque dptRoot : Nat → Word

/-- The address, in the system's translation, of the save area of a launch: the Welkin core places it (R352). -/
opaque saveArea : Nat → Nat

/-- The silicon revision (R367). -/
opaque revision : Nat

end Sys2Proof.Config
end

