-- ==== Sys2Proof/Machine/SMap.lean ====
section
/-! DEFINITION. Sparse maps over natural keys, as lists in one canonical form: keys strictly rising, no entry equal to the default. -/

namespace Sys2Proof.Machine

/-- A sparse map: keys strictly rising. -/
abbrev SMap (α : Type) := List (Nat × α)

/-- The value at key `k`; `d` where the map lists nothing. -/
def SMap.look {α : Type} (d : α) : SMap α → Nat → α
  | [], _ => d
  | (k, v) :: r, n => if n = k then v else SMap.look d r n

/-- Whether a key is listed. -/
def SMap.has {α : Type} : SMap α → Nat → Bool
  | [], _ => false
  | (k, _) :: r, n => if n = k then true else SMap.has r n

/-- Sets key `n` to `v`, whatever `v` is. -/
def SMap.put {α : Type} : SMap α → Nat → α → SMap α
  | [], n, v => [(n, v)]
  | (k, w) :: r, n, v =>
    if n = k then (k, v) :: r else if n < k then (n, v) :: (k, w) :: r else (k, w) :: SMap.put r n v

/-- Removes key `n`. -/
def SMap.del {α : Type} : SMap α → Nat → SMap α
  | [], _ => []
  | (k, w) :: r, n => if n = k then SMap.del r n else (k, w) :: SMap.del r n

/-- Sets key `n` to `v`, keeping no entry that equals the default `d`. -/
def SMap.set {α : Type} [DecidableEq α] (d : α) (m : SMap α) (n : Nat) (v : α) : SMap α :=
  if v = d then SMap.del m n else SMap.put m n v

/-- Sets the keys `n`, `n + 1`, ... to the listed values. -/
def SMap.setList {α : Type} [DecidableEq α] (d : α) (m : SMap α) (n : Nat) : List α → SMap α
  | [] => m
  | v :: vs => SMap.setList d (SMap.set d m n v) (n + 1) vs

/-- The values at `n`, ..., `n + len - 1`. -/
def SMap.lookList {α : Type} (d : α) (m : SMap α) (n len : Nat) : List α :=
  (List.range len).map fun i => SMap.look d m (n + i)

/-- Applies `f` to the value at key `n`. -/
def SMap.upd {α : Type} (d : α) (m : SMap α) (n : Nat) (f : α → α) : SMap α :=
  SMap.put m n (f (SMap.look d m n))

/-- The canonical form: keys strictly rising. -/
def SMap.sorted {α : Type} : SMap α → Bool
  | [] => true
  | [_] => true
  | (k, _) :: (k', v') :: r => decide (k < k') && SMap.sorted ((k', v') :: r)

/-- The canonical form of a map whose unlisted keys read as `d`. -/
def SMap.wf {α : Type} [DecidableEq α] (d : α) (m : SMap α) : Bool :=
  SMap.sorted m && m.all fun kv => decide (kv.2 ≠ d)

end Sys2Proof.Machine
end

