-- ==== Sys2Proof/Machine/State.lean ====
section
/-! DEFINITION. The state of the XQ-512 package as plain data: every register, memory, table, queue and pending action the spec gives the machine, and the state right after reset. -/

namespace Sys2Proof.Machine

/-- Why the machine stops. -/
inductive Fault where
  /-- Raised by an event that names a unit beyond the quantities of R10 (a hart, core, cluster, die or partition the
  package does not have). Safe: the machine has no such unit, so no behaviour of the hardware is lost. -/
  | noSuchUnit
  deriving DecidableEq, Repr

/-- Why an instruction has no meaning. -/
inductive Refusal where
  /-- Raised by an arm of the dispatch whose instruction has no meaning yet. Safe: the model stops where the hardware goes on. -/
  | notModelled (mnemonic : String)
  deriving DecidableEq, Repr

/-! ### Memories -/

/-- A memory: bytes in canonical form, an unlisted byte reading as zero, and the 64-byte lines that carry poison (R127, R398). -/
structure Ram where
  bytes : List Host.Cell
  poison : List Nat
  deriving DecidableEq, Repr

def Ram.empty : Ram := ⟨[], []⟩

/-- The unit that holds a location's ordering point (R129, R130). -/
inductive MemUnit where
  /-- the TCM of a core -/
  | tcm (core : CoreId)
  /-- the scratchpad of a cluster -/
  | spad (cluster : ClusterId)
  /-- the shared SRAM allocation of a launch on a die -/
  | sram (die : DieId) (launch : Nat)
  /-- committed G state -/
  | hbm
  /-- memory as it stands: an NT range (R109) -/
  | place
  /-- the shadow view of a launch (R317) -/
  | shadow (launch : Nat)
  /-- committed G state as of a launch's admission (R318) -/
  | snap (launch : Nat)
  /-- HBM of another module of the load-store domain (R304, XM = 1) -/
  | remote (module : Nat)
  /-- an RDMA window reached through an NT range: only a copy may go there (R385) -/
  | window
  /-- an address outside the map of R381, or a window that the access may not reach: the access ends in an error (R115, reason 8) -/
  | error
  /-- a location behind a lost die link or peer port: the access ends in an error (R386, R389; R115, reason 7) -/
  | lost
  deriving DecidableEq, Repr

/-- A location (R129). -/
structure Loc where
  unit : MemUnit
  addr : Nat
  deriving DecidableEq, Repr

/-- A grid cell with its poison mark (R127). -/
structure GCell where
  v : Cell
  poi : Bool
  deriving DecidableEq, Repr

def GCell.zero : GCell := ⟨0, false⟩

/-! ### Registers -/

/-- The stationary tile of a hart: operand S[k][c] at key 64 k + c (R265). -/
structure Tile where
  f16 : Bool
  poi : Bool
  s : SMap (BitVec 16)
  deriving DecidableEq, Repr

/-- The registers of the duplicate register set (R330): x0 to x31, p0 to p15, m0 to m7 with their poison marks, the
system registers that a rollback restores, the return-address store (oldest first) and the stationary tile. -/
structure Regs where
  x : Vector Word 32
  xPoi : BitVec 32
  p : BitVec 16
  pPoi : BitVec 16
  m : Vector Mask 8
  mPoi : BitVec 8
  vl : Word
  fpmode : Word
  fpflags : Word
  vflags : Word
  rspill : Word
  crec : Word
  livemask : Word
  fscope : Word
  sidx : Word
  stepcnt : Word
  ras : List Word
  inh : Bool
  tile : Tile
  deriving DecidableEq, Repr

/-- The four trap registers (R340); `cause` is TRAPCAUSE.CAUSE, INH lives in `Regs`. -/
structure TrapRegs where
  cause : BitVec 8
  pc : Word
  info : Word
  aux : Word
  deriving DecidableEq, Repr

/-- A trap to be raised: its cause number (R339), its registers, and whether R43 sends it to the Welkin core. -/
structure TrapRec where
  cause : BitVec 8
  pc : Word
  info : Word
  aux : Word
  welkin : Bool
  deriving DecidableEq, Repr

/-- Where an ordinary result goes (R66, R98). -/
inductive Dst where
  | x (r : XReg)
  | pred
  | mask (r : MReg)
  | sys (r : SysReg)
  deriving DecidableEq, Repr

/-- An ordinary result in flight: the bits `sel` of its destination become those of `val` at core cycle `due` (R98);
`ser` and `head` are its bundle's serial and its head index (R37). -/
structure PendW where
  dst : Dst
  val : BitVec 256
  sel : BitVec 256
  poi : Bool
  due : Nat
  ser : Nat
  head : Nat
  deriving DecidableEq, Repr

/-! ### Memory requests of a hart -/

/-- What an access waits for at its ordering point beyond the rules of one location: the hart's loads before the program
position `la` (R135), its stores before `st` and its accesses of every kind before `sa` have to be performed first (R136, R144). -/
structure Bar where
  la : Nat
  st : Nat
  sa : Nat
  deriving DecidableEq, Repr

def Bar.none : Bar := ⟨0, 0, 0⟩

/-- One element access of a load: where, how many bytes, which element, and the bytes that the hart's own withheld stores
cover (R124). `loc` is none until the address has been translated. It is performed no earlier than the tick `perfAt` (R433), and `took`
then holds its bytes and their poison. -/
structure Elem where
  idx : Nat
  va : Word
  size : Nat
  loc : Option Loc
  own : List (Option Byte)
  ownPoi : Bool
  perfAt : Nat
  took : Option (List Byte × Bool)
  deriving DecidableEq, Repr

/-- How the data of a timed request becomes register or cell contents. -/
inductive LandKind where
  /-- a scalar load or atomic result extended as `ty` says (R121, R149) -/
  | scalar (r : XReg) (ty : Ty)
  /-- a division result (R128) -/
  | quotient (r : XReg)
  /-- a vector load (R208); bit offset of VLD6 -/
  | vector (v : VOp) (ty : Ty) (bo : Nat)
  /-- BDEC: blocks of width class 8 or 6 (R172) -/
  | blocks (v : VOp) (w8 : Bool) (fb nb vl : Nat)
  /-- BHDR (R175) -/
  | header (r : XReg) (wd : Fin 3)
  /-- the old values of a VAMO (R150) -/
  | old (v : VOp)
  /-- APPEND (R152) -/
  | tail (r : XReg)
  /-- a PREF whose translation walks (R126) -/
  | pref
  deriving DecidableEq, Repr

/-- One write that a landing makes: a register, or a grid cell (key 65536 half + 256 row + column). -/
structure LandW where
  reg : Option XReg
  cell : Nat
  val : Word
  poi : Bool
  deriving DecidableEq, Repr

/-- A landing-buffer entry group: one timed request (R94 to R100), `issued` at a tick. Times are scheduler ticks, `due` is a core cycle.
`acq` says that it orders the hart's later accesses (R135), `gate` that later bundles' loads are sent after its data (R145). `parts` are the
parts of an atomic still to be performed, and `got` the writes of those that have been. `clash` lists destination cells that an engine
operation has written since the request issued (R186). -/
structure Landing where
  id : Nat
  ser : Nat
  pc : Word
  head : Nat
  kind : LandKind
  issued : Nat
  space : Space
  elems : List Elem
  due : Nat
  slots : Nat
  extra : Nat
  sent : Bool
  acq : Bool
  gate : Bool
  bar : Bar
  walking : Bool
  unitOp : Bool
  parts : Nat
  got : List LandW
  arriveAt : Nat
  cyc : Bool
  res : Option (List LandW)
  drange : Bool
  arrived : Bool
  rem : Option Nat
  landed : Bool
  failed : Option ReqError
  groups : List Nat
  clash : List Nat
  deriving DecidableEq, Repr

/-- One element of a store. -/
structure SElem where
  loc : Loc
  data : List Byte
  poi : Bool
  deriving DecidableEq, Repr

/-- A withheld store (R125): its entries, what it waits for (R136, R144), whether its elements are performed in ascending order (R133),
its elements, and the MEMERR that it raises where it ends in an error (R101). -/
structure WStore where
  ser : Nat
  head : Nat
  slots : Nat
  bar : Bar
  ord : Bool
  elems : List SElem
  err : TrapRec
  deriving DecidableEq, Repr

/-- A memory operation whose translation has not been reported yet (R115, R332). -/
structure Xlat where
  id : Nat
  ser : Nat
  head : Nat
  due : Nat
  walking : Bool
  fault : Option TrapRec
  deriving DecidableEq, Repr

/-- Kinds of atomics: the scalar operations of R149 and the lanes of R150. -/
inductive AtomKind where
  | swp | add | and | or | xor | min | max | minu | maxu | cas | fadd
  deriving DecidableEq, Repr

/-- What a released access does at its ordering point. `append` carries the bundle's serial and head, the descriptor's
location and the payload (R152). -/
inductive FlightKind where
  | store (es : List SElem)
  | amo (k : AtomKind) (w : Nat) (loc : Loc) (b c : Word)
  | vamo (k : AtomKind) (ra : Bool) (lanes : List (Nat × Loc × Cell))
  | append (ser head : Nat) (pc : Word) (loc : Loc) (vals : List Cell)
  deriving DecidableEq, Repr

/-- An atomic that has issued and is sent when its bundle has passed every check (R148): its landing, the cycles of its latency that its
translation takes, whether it is an acquire, what it waits for (R135, R136, R144), and the MEMERR that it raises where it ends in an
error (R101). -/
structure PendAtom where
  id : Nat
  ser : Nat
  head : Nat
  kind : FlightKind
  land : Option Nat
  spent : Nat
  acq : Bool
  bar : Bar
  err : TrapRec
  deriving DecidableEq, Repr

/-- An access on its way to its ordering point (R433): sent at `sentAt`, performed no earlier than `perfAt`, acknowledged at `ackAt`. `ser`
and `head` give its place in program order (R131); `eng` marks a write of a stream, which program order does not bind (R240). `bar` and
`needs` (a flight) name what has to be performed first (R133, R135, R136, R144); `wait` says it waits for shadow room (R319). -/
structure Flight where
  id : Nat
  hart : HartId
  launch : Nat
  ser : Nat
  head : Nat
  eng : Bool
  kind : FlightKind
  land : Option Nat
  sentAt : Nat
  perfAt : Nat
  ackAt : Nat
  acq : Bool
  bar : Bar
  needs : Option Nat
  wait : Bool
  performed : Bool
  err : TrapRec
  deriving DecidableEq, Repr

/-! ### Checkpoints and run modes of a hart -/

/-- What follows a completed checkpoint. -/
inductive AfterCkpt where
  /-- issue goes on at the boundary -/
  | go
  /-- a suspension ends (R280, R283, R284): the write-back completes first -/
  | suspend
  | yield
  /-- FWAIT registers on a future (R287) -/
  | fwait (pd pc : PReg) (fut : Nat) (head : Nat) (bpc : Word)
  /-- EXIT counts its end (R285) -/
  | exit
  /-- TRAP and BREAK raise their cause at the boundary (R359) -/
  | trap (t : TrapRec)
  /-- pre-emption: the hart stops at the boundary (R347) -/
  | stop
  /-- the Welkin core resumes the hart at CKPTPC with a checkpoint there (R342) -/
  | resumed
  /-- ICINV completes: lines that hold an address from `lo` up to, not including, `hi` are dropped, or every line (R361) -/
  | icinv (lo hi : Nat) (all : Bool)
  deriving DecidableEq, Repr

/-- A requested checkpoint (R331, R332): the boundary's PC and bundle serial, the earliest cycle, what follows, and whether the boundary is a
step boundary (R350). -/
structure Ckpt where
  pc : Word
  ser : Nat
  earliest : Nat
  reply : Nat
  after : AfterCkpt
  step : Bool
  deriving DecidableEq, Repr

/-- What a hart does. -/
inductive RunMode where
  /-- holds no launch -/
  | off
  /-- issues bundles -/
  | running
  /-- idle under R277, looking for work -/
  | idle
  /-- waits for the acknowledgements of a write-back or an EXIT (R280, R285) -/
  | leaving (a : AfterCkpt)
  /-- stopped and reported to the Welkin core (R342) -/
  | welkin (t : TrapRec)
  /-- stopped for pre-emption (R347) -/
  | stopped
  /-- stopped at a step boundary for a consistent cut (R351) -/
  | cut
  /-- its launch is saved: the hart waits for a restore (R435) -/
  | saved
  deriving DecidableEq, Repr

/-- What stands between a hart and its next line. -/
inductive FetchState where
  | idle
  /-- an instruction cache miss under way: physical address and the tick at which the line arrives (R117) -/
  | fill (line : Nat) (pa : Nat) (due : Nat)
  /-- a fetch translation walk under way (R117) -/
  | walk (va : Word) (due : Nat)
  deriving DecidableEq, Repr

/-- The fetch side of a hart: the line it issues from, whether that line was validated on entry, the pending transfer's
source PC (none for sequential flow), and the instruction cache (line address to 64 bytes). -/
structure Fetch where
  entered : Option Nat
  xferFrom : Option Word
  welkinTarget : Bool
  st : FetchState
  icache : SMap (List Byte)
  deriving DecidableEq, Repr

/-- Issue timing of a hart, in core cycles (R66, R86, R180); `qcfg` is the cycle at which a waiting QCFG may issue (R222). -/
structure Timing where
  nextIssue : Nat
  vNext : Nat
  xNext : Nat
  divNext : Nat
  idivNext : Nat
  qcfg : Option Nat
  deriving DecidableEq, Repr

/-- The fences in force (R144), each by the program position of the latest: LL for later loads; LL or LS for every later access (R135); SL
for later loads; SS or LS for later stores (R136); EN for later engine operations. -/
structure FenceSt where
  ll : Nat
  la : Nat
  sl : Nat
  st : Nat
  en : Nat
  deriving DecidableEq, Repr

def FenceSt.none : FenceSt := ⟨0, 0, 0, 0, 0⟩

/-- One of the reads of a unit operation (R433): the tick from which it may be performed, and its bytes and their poison once it has been. -/
structure UnitRead where
  due : Nat
  took : Option (List Byte × Bool)
  deriving DecidableEq, Repr

/-- The bundle that a hart is executing: issue cycle, head index of the current operation, fall-through PC, transfer target, raised
flags, new return-address store, trap, whether it ends at a step boundary, new GMODE, the latest reply awaited by the ending checkpoint, whether it returns from a handler, the register bits that its operations have
written with their head indices (R37), and, where its next unit operation reads memory and has been sent, those reads, the last of them due
`spent` cycles after the sending (R433). -/
structure Bundle where
  at0 : Nat
  head : Nat
  ft : Word
  line : Word
  npc : Option Word
  slow : Nat
  raisedF : Word
  raisedV : Word
  nras : Option (List Word)
  trap : Option TrapRec
  ckpt : Option AfterCkpt
  step : Bool
  ngmode : Option Word
  reply : Nat
  eret : Bool
  wrote : List (Dst × BitVec 256 × Nat)
  reads : List UnitRead
  spent : Nat
  deriving DecidableEq, Repr

/-- Registers of a hart outside the duplicate set (R330, R340, R341). -/
structure HartSys where
  tr : TrapRegs
  saved : TrapRegs
  epc : Word
  ckptpc : Word
  ts0 : Word
  ts1 : Word
  txtag : Word
  deriving DecidableEq, Repr

/-- Where the results in flight of a hart stand (R347, R348). -/
inductive Drain where
  /-- on their way -/
  | no
  /-- in the snapshot buffer, their distances counted from the boundary in this core cycle -/
  | since (c : Nat)
  /-- restored: their cycles are distances from the first cycle of resumed execution -/
  | resumed
  deriving DecidableEq, Repr

/-- A hart (R10, R12). `rest` are the unit operations of the current bundle that have still to be sent (R148, R215, R281), and
`restRegs` the registers as they stood before that bundle; `histWait` are the element groups that a bundle waiting on the history
buffer needs (R336, R436); `dupFence` are the fences as the last checkpoint saw them; `held` is what
has still to follow the checkpoint at whose step boundary the hart stands (R351). -/
structure Hart where
  r : Regs
  dup : Regs
  sys : HartSys
  pc : Word
  wq : List PendW
  land : List Landing
  wh : List WStore
  atoms : List PendAtom
  rest : List (Nat × Instr)
  restRegs : Regs
  histWait : List Nat
  rearm : Bool
  xl : List Xlat
  ser : Nat
  ckptSer : Nat
  bundles : Nat
  ck : Option Ckpt
  bun : Bundle
  mode : RunMode
  launch : Option Nat
  time : Timing
  fetch : Fetch
  fence : FenceSt
  dupFence : FenceSt
  poisonRetry : Bool
  recheckRetry : Bool
  stopReq : Bool
  idleAt : Nat
  drain : Drain
  held : Option AfterCkpt
  deriving DecidableEq, Repr

/-! ### The core -/

/-- Marks of a queue entry (R219): selector fault with the block's address and the reason of R162, poison, DRANGE. -/
structure Marks where
  sel : Option (Word × Nat)
  poi : Bool
  drange : Bool
  deriving DecidableEq, Repr

/-- A queue entry not yet freed (R218): its ring slot; the bundle serial of the hart operation that pushed it while it is
tentative; the tick of its release; the pop that took it (bundle serial; none for a stream). -/
structure QEnt where
  slot : Nat
  tent : Option Nat
  relAt : Nat
  popped : Bool
  popSer : Option Nat
  popFired : Bool
  marks : Marks
  deriving DecidableEq, Repr

/-- An operand queue (R216, R217): its bytes of QBASE and QSIZE, its owner and its entries, oldest first. -/
structure Queue where
  base : BitVec 8
  sz : BitVec 3
  es : BitVec 5
  owner : Bool
  next : Nat
  ents : List QEnt
  deriving DecidableEq, Repr

/-- What an engine operation does. -/
inductive EngKind where
  | opaBf (w : Window) (qa qb : QReg)
  | opaH (w : Window) (qa qb : QReg)
  | opaN6 (w : Window) (qa qb : QReg)
  | gzero (w : Window)
  | vmt (row : RowOp) (q : QReg) (seg : Fin 4)
  | stld (q : QReg) (f16 : Bool)
  | qpop (row : RowOp) (q : QReg) (f : CFmt) (vl : Nat)
  /-- a QPUSH with the values it has read (R225) -/
  | qpush (q : QReg) (f : CFmt) (vals : List GCell)
  deriving DecidableEq, Repr

/-- An engine operation from its issue to its last write (R221, R261, R262). `fire` is its fire cycle once fired; `done`
the cycle at which its cells are complete; `ops` the operand containers of the entries it popped, `raw` the bytes of a
QPOP's entry, `sums` the dot products of a VMT; `stride` is the distance of its service cycles. `written` says that its cells have been
written, but for those of `late`, which an earlier operation has still to write (R262). `spoil` lists cells that it leaves with an unpredictable value (R183), `skip` cells in which a landed value
stays (R186). -/
structure EngOp where
  id : Nat
  kind : EngKind
  hart : Bool
  ser : Nat
  pc : Word
  head : Nat
  tag : BitVec 8
  issue : Nat
  fire : Option Nat
  last : Nat
  done : Nat
  ops : List (List (BitVec 16))
  raw : List Byte
  sums : List Cell
  marks : Marks
  stride : Nat
  group0 : Bool
  written : Bool
  late : List Nat
  spoil : List Nat
  skip : List Nat
  deriving DecidableEq, Repr

/-- A V-class write in flight (R181, R214) to its destination operand: at core cycle `due`, the cells (key, value). -/
structure VWrite where
  id : Nat
  hart : Bool
  ser : Nat
  op : VOp
  due : Nat
  cells : List (Nat × GCell)
  deriving DecidableEq, Repr

/-- A block of a QST (R170, R171): `grp` numbers its QST and `k` the block; a QST that has not fired waits for room, and holds
the V slot. -/
structure QstBlk where
  id : Nat
  grp : Nat
  k : Nat
  fired : Bool
  hart : Bool
  ser : Nat
  due : Nat
  q : QReg
  image : List Byte
  qnan : Bool
  qclip : Bool
  poi : Bool
  deriving DecidableEq, Repr

/-- A history-buffer entry: the hart it was recorded for, the element group (key 512 half + 2 row + group) and its old
contents (R334). `asked`: the buffer has asked for a checkpoint of the hart since (R436). -/
structure HistEnt where
  hart : Bool
  group : Nat
  old : List GCell
  asked : Bool
  deriving DecidableEq, Repr

/-- A shape object in use (R229). -/
structure Shape where
  layout : Nat
  width : Nat
  decode : Nat
  fmt : Nat
  count : Nat
  h : Nat
  w : Nat
  c : Nat
  kh : Nat
  kw : Nat
  stride : Nat
  pad : Nat
  dil : Nat
  deriving DecidableEq, Repr

/-- A stream slot of the access unit (R237 to R245): its next entry, the count of all entries, the count pushed or written,
how it ended; `start` is the program position of its STREAM (R240); `flights` are its writes on their way. -/
structure Stream where
  active : Bool
  obj : Shape
  shapeIdx : Nat
  q : QReg
  sp : Space
  base : Word
  hart : Bool
  tile : Option Nat
  next : Nat
  total : Nat
  done : Nat
  stopped : Bool
  stopping : Bool
  halted : Bool
  nextAt : Nat
  start : Nat
  flights : List Nat
  deriving DecidableEq, Repr

/-- A QFENCE behind which pushes of a hart wait (R228): its bundle, the queues that it covers, and the QSTs of its own bundle that precede it, to such a
queue (`grps`) and in all (`prior`). -/
structure QFence where
  hart : Bool
  ser : Nat
  qm : BitVec 8
  grps : List Nat
  prior : List Nat
  deriving DecidableEq, Repr

/-- A rechecked operation waiting for its second execution (R346), which takes `cycles` cycles of its unit (R271). -/
structure Recheck where
  id : Nat
  hart : Bool
  ser : Nat
  matrix : Bool
  ready : Nat
  cycles : Nat
  deriving DecidableEq, Repr

/-- A translation held by a translation buffer (R114): virtual page base, page size as a power of two, frame, rights R and X. -/
structure TlbEnt where
  base : Nat
  bits : Nat
  frame : Nat
  r : Bool
  w : Bool
  x : Bool
  deriving DecidableEq, Repr

/-- A range class (R302). -/
inductive RClass where
  | ro | rw | wo | nt | snap
  deriving DecidableEq, Repr

/-- A valid range entry (R302): virtual base, length, physical base, class, and the module of an XM range. -/
structure Range where
  base : Nat
  len : Nat
  pa : Nat
  cls : RClass
  xm : Option Nat
  deriving DecidableEq, Repr

/-- A core (R10). Grid cells are keyed 256 half + row, then column. `t0` is the scheduler tick at which CYCLE was zero,
moved by one for each frozen tick (R21). `stopFrom` is the first cycle
in which a requested pre-emption may stop its harts (R349). -/
structure Core where
  t0 : Nat
  frozen : Bool
  gmode : Word
  grid : SMap (SMap GCell)
  tcm : Ram
  queues : Vector Queue 8
  eng : List EngOp
  vq : List VWrite
  qst : List QstBlk
  qf : List QFence
  hist : List HistEnt
  streams : Vector Stream 4
  recheck : List Recheck
  dtlb : List TlbEnt
  itlb : List TlbEnt
  ranges : List Range
  sysr : List Range
  dptroot : Word
  iptroot : Word
  mtag : BitVec 8
  dirty : BitVec 512
  losses : Nat
  vTaken : Option Nat
  xTaken : Option Nat
  arrayNext : Nat × Nat
  rechkLevel : Nat
  fenced : Bool
  stopFrom : Nat
  deriving DecidableEq, Repr

/-! ### The cluster -/

/-- An entry of the shape table (R234). -/
structure ShapeEnt where
  sealed : Bool
  owner : Nat
  gen : BitVec 8
  uses : Nat
  obj : Shape
  deriving DecidableEq, Repr

/-- A tile entry (R249). -/
structure TileEnt where
  state : TileState
  off : Nat
  len : Nat
  refs : Nat
  cp : Bool
  deriving DecidableEq, Repr

/-- What the present chunk of a copy waits for, and since when: the data of an RDMA READ, or the acknowledgement of an RDMA WRITE (R385). -/
inductive ChunkIo where
  | none
  | reading (since : Nat)
  | writing (since : Nat)
  deriving DecidableEq, Repr

/-- A copy in the cluster's copy queue (R246, R247): `chunk` is the next chunk, done no earlier than `nextAt`; `start`
is the program position of its COPY (R240). -/
structure Copy where
  id : Nat
  hart : HartId
  launch : Nat
  dst : Nat
  src : Nat
  len : Nat
  ds : Space
  ss : Space
  mask : MReg
  tile : Option Nat
  fut : Option Nat
  chunk : Nat
  nextAt : Nat
  start : Nat
  halted : Bool
  io : ChunkIo
  deriving DecidableEq, Repr

/-- A farm entry of a cluster (R297, R298): its strips `next`, `next + stride`, ... below `total` are still to be taken; the body,
argument, scope and rounding mode. -/
structure Farm where
  next : Nat
  stride : Nat
  total : Nat
  body : Word
  arg : Word
  argPoi : Bool
  scope : BitVec 16
  rm : Word
  seq : Nat
  deriving DecidableEq, Repr

/-- A cluster (R10). `spadBits` is the base-2 logarithm of the launch's scratchpad allocation. `spawned` and `ended` are
the totals of the cluster node of the counter tree, by scope index (R292). -/
structure Cluster where
  launch : Option Nat
  spadBits : Nat
  spad : Ram
  shapes : SMap ShapeEnt
  tiles : SMap TileEnt
  copies : List Copy
  ready : List Nat
  farms : List Farm
  spawned : SMap Nat
  ended : SMap Nat
  seen : List (Nat × Nat × Nat)
  deriving DecidableEq, Repr

/-! ### The die and the partition -/

/-- An H allocation (R106, R312); `futs` are the offsets of the futures on which a waiter is registered (R286, R287). -/
structure HAlloc where
  size : Nat
  ram : Ram
  futs : List Nat
  deriving DecidableEq, Repr

/-- The waking of the records that waited on a future, newest first (R288). -/
structure Wake where
  launch : Nat
  link : Word
  ok : Bool
  due : Nat
  deriving DecidableEq, Repr

/-- A log entry (R396, R407). -/
structure LogEnt where
  seq : Nat
  cls : Nat
  cause : Nat
  unit : Nat
  addr : Nat
  detail : Nat
  deriving DecidableEq, Repr

/-- A die (R10). `sram` holds the H allocations by launch id; `coll` the collective window (R392); `log` the event ring; `trig` the groups
whose SEQ has been written in its window and is still to be looked at. -/
structure Die where
  sram : SMap HAlloc
  wakes : List Wake
  coll : Ram
  log : List LogEnt
  logSeq : Nat
  trig : List Nat
  deriving DecidableEq, Repr

/-- A launch queue of a partition (R306, R311, R315). -/
structure LQueue where
  base : Nat
  n : Nat
  period : Nat
  budget : Nat
  left : Nat
  since : Nat
  throttled : Bool
  deriving DecidableEq, Repr

/-- A finish scope of the partition node (R291 to R293). -/
structure ScopeEnt where
  openNow : Bool
  gen : BitVec 8
  token : Bool
  parent : Option (BitVec 16)
  launch : Nat
  root : Bool
  credits : Nat
  prevS : Nat
  prevE : Nat
  prevValid : Bool
  deriving DecidableEq, Repr

/-- A loaded code object in a loader slot (R365). -/
structure Slot where
  gen : Nat
  loaded : Bool
  cbase : Nat
  size : Nat
  pa : Nat
  deriving DecidableEq, Repr

/-- Where the sweep of the counter tree stands (R293). -/
structure Sweep where
  start : Nat
  reading : List ClusterId
  sums : SMap (Nat × Nat)
  deriving DecidableEq, Repr

/-- A partition (R14). `order` are the ADMIT atomics that have reached the scheduler node, oldest first: their queue, and its POSTED after
the atomic (R309). -/
structure Part where
  queues : SMap LQueue
  reldl : Vector Nat 8
  scopes : SMap ScopeEnt
  sweep : Sweep
  slots : SMap Slot
  sysRanges : List Range
  taken : List Nat
  nextPlace : Nat
  admitting : Option (Nat × Nat)
  order : List (Nat × Nat)
  held : Bool
  deriving DecidableEq, Repr

/-! ### Launches and their shadow -/

/-- Launch states (R305); the pre-emption of a RUNNING launch is kept in `Launch.pre`. -/
inductive LState where
  | taken | admitted | ready | running | ended | committing | committed | aborting | aborted | rejected
  deriving DecidableEq, Repr

/-- Where a pre-emption, save or restore of a launch stands (R347, R352, R435). -/
inductive PreState where
  | none
  /-- requested: harts stop at their boundaries -/
  | stopping
  /-- every hart stopped; the save runs with its CURSOR (R353) -/
  | saving (cursor : Word)
  /-- the save is parked at CURSOR after a fault (R353) -/
  | parked (cursor : Word)
  /-- saved: resources freed -/
  | savedOut
  /-- restored: waits for RESUME -/
  | restored
  deriving DecidableEq, Repr

/-- A launch-wide stop request (R351): where the cut stands. -/
inductive CutState where
  | none
  /-- participants run to their next step boundary; the sweep of the round ends at a tick -/
  | gathering (since : Nat) (round : Option Nat)
  /-- participants below M run on -/
  | levelling (m : Nat) (since : Nat) (round : Option Nat)
  | complete
  | failed
  deriving DecidableEq, Repr

/-- The fields of a launch record that are kept decoded (R301). -/
structure LRec where
  code : Nat
  entry : Nat
  trap : Nat
  args : Word
  argsize : Nat
  clusters : Nat
  spad : Nat
  harts : Nat
  mode : Nat
  hbytes : Nat
  queue : Nat
  dclass : Nat
  ovf : Bool
  retry : Nat
  recheck : Nat
  gridchk : Nat
  quota : Nat
  ranges : List (Option Range)
  deriving DecidableEq, Repr

/-- An entry of a snapshot buffer in the fields of R420, with what that layout has no place for: the data words that the entry writes, and
whether its landing raises DRANGE. -/
structure SnapEnt where
  kind : Nat
  file : Nat
  dest : Nat
  dist : Nat
  poison : BitVec 128
  data : List Byte
  writes : BitVec 256
  drange : Bool
  deriving DecidableEq, Repr

/-- A saved hart: the state of section 1 whose layout R352 does not give, and what its snapshot entries have beyond R420. -/
structure SavedHart where
  image : Hart
  more : List (BitVec 256 × Bool)
  deriving DecidableEq, Repr

/-- A saved core with its harts: what R352 gives no layout for. The grid, the stationary tiles, the TCM image and the snapshot entries lie
in the save area in memory. -/
structure SavedCore where
  core : CoreId
  image : Core
  h0 : SavedHart
  h1 : SavedHart
  savedCycle : Nat
  deriving DecidableEq, Repr

/-- What a save area holds beside its bytes in memory (R352): cores with their harts, clusters and the sizes and futures of H allocations. -/
structure Saved where
  cores : List SavedCore
  clusters : List (ClusterId × Cluster)
  allocs : List (DieId × HAlloc)
  deriving DecidableEq, Repr

/-- A launch (R301 to R328). `switching` says that the commit of its irrevocable switch is under way, until `phaseAt` (R319). -/
structure Launch where
  raw : List Byte
  rc : LRec
  part : PartId
  st : LState
  tag : Nat
  place : Nat
  tries : Nat
  deadline : Nat
  slot : Option (Nat × Nat)
  parent : Option Nat
  waits : List Nat
  root : Nat
  charged : Nat
  overflow : Bool
  irrev : Bool
  children : List (List Byte)
  cause : Nat
  abCode : Nat
  trapPc : Word
  trapInfo : Word
  retryable : Bool
  phaseAt : Nat
  switching : Bool
  pre : PreState
  cut : CutState
  saved : Option Saved
  overran : Bool
  deriving DecidableEq, Repr

/-- A shadow line (R317): its launch, the physical line, its mask of written bytes and its 64 bytes; `settleAt` is the
tick at which it settles after its launch has committed (R320). -/
structure ShadowLine where
  launch : Nat
  line : Nat
  mask : BitVec 64
  data : List Byte
  poi : Bool
  settleAt : Option Nat
  deriving DecidableEq, Repr

/-- The earlier version of a line kept for a SNAP reader (R318). -/
structure SnapLine where
  launch : Nat
  line : Nat
  data : List Byte
  poi : Bool
  deriving DecidableEq, Repr

/-! ### The package -/

/-- Whether the part has started (R402). -/
inductive Phase where
  | off | recovery | open
  deriving DecidableEq, Repr

/-- The fields of a configuration record in use (R401). -/
structure Cfg where
  counter : Nat
  parts : List Nat
  modulePos : Nat
  domsize : Nat
  domid : Nat
  memto : Nat
  cutlim : Nat
  shadow : List Nat
  pclimit : Nat
  tlimit : Nat
  desc : List Byte
  deriving DecidableEq, Repr

/-- The answer to a frame of a peer port (R386): data, whether they are poisoned, and whether the access ended in an error. -/
structure PeerReply where
  data : List Byte
  poi : Bool
  err : Bool
  deriving DecidableEq, Repr

/-- An Ethernet port (R382 to R386): the next frame expected, the frame that has gone without an acknowledgement and how often,
its queue pairs in the ready-to-send state, and the answer to the last frame taken. -/
structure Port where
  up : Bool
  lost : Bool
  expect : Nat
  sentSeq : Nat
  unacked : Nat
  qps : List Nat
  reply : PeerReply
  deriving DecidableEq, Repr

/-- One direction of a die-to-die link (R388): its next expected flit, failed replays, count of CRC errors, and the sender's replay
buffer, oldest flit first. -/
structure Link where
  expect : Nat
  nak : Bool
  failed : Nat
  crc : Nat
  lost : Bool
  buf : List (Nat × List Byte)
  deriving DecidableEq, Repr

/-- An RDMA window bound by RDMAEP (R385). -/
structure Window2 where
  port : Nat
  qp : Nat
  rkey : Nat
  rbase : Nat
  deriving DecidableEq, Repr

/-- A collective group (R391, R392, R395): `data` holds each member's elements as they stood at its trigger. -/
structure Group where
  members : BitVec 64
  op : Nat
  ty : Nat
  count : Nat
  round : Nat
  triggered : List Nat
  firstAt : Nat
  doneAt : Option Nat
  data : List (Nat × List Cell)
  deriving DecidableEq, Repr

/-- A reply or report that the package sends outside: the answer to an RDMA read, atomic or SEND, a management datagram,
or an event of the Welkin core (R316, R351, R383). -/
inductive Output where
  | rdmaData (pa : Nat) (data : List Byte)
  /-- a NAK, and whether it is of class Remote Operational Error (R383) -/
  | rdmaNak (pa : Nat) (operational : Bool)
  /-- the immediate of an RDMA WRITE (R383) -/
  | rdmaImm (port : Nat) (qp : Nat) (imm : BitVec 32)
  | rdmaOld (pa : Nat) (v : Word)
  | rdmaAck (pa : Nat)
  | sent (port : Nat) (qp : Nat)
  /-- an RDMA WRITE or READ that a copy sends on a window's queue pair: remote key and remote address (R385) -/
  | rdmaWriteOut (port qp rkey addr : Nat) (data : List Byte)
  | rdmaReadOut (port qp rkey addr len : Nat)
  | peerAck (port : Nat) (seq : Nat) (reply : PeerReply)
  /-- the reply datagram of the management port to a sender (R406) -/
  | datagram (sender : Nat) (data : List Byte)
  | welkin (hart : HartId) (t : TrapRec)
  | overrun (tag : Nat)
  | cutfail (tag : Nat)
  | streamFault (core : CoreId) (slot : Nat)
  | copyFault (cluster : ClusterId)
  deriving DecidableEq, Repr

/-- Start-up, configuration, attestation and the fabric (R381 to R409). `sessions` are the agents that have answered an owner's challenge, and
`writers` names, by mailbox slot, the agent that has written its request; `waiting` are accesses from outside that a commit holds (R320);
`frozeAt` is the last tick for which the core clock domains were frozen at a limit (R408). -/
structure Package where
  phase : Phase
  started : Bool
  flashA : List Byte
  flashB : List Byte
  useB : Bool
  cfg : Cfg
  greatest : Nat
  mr : List (BitVec 512)
  leaf : Nat
  salt : Nat
  chain : List (List Byte)
  sessions : List Nat
  writers : SMap Nat
  waiting : List HostOp
  frozeAt : Option Nat
  mailbox : Ram
  stored : SMap (Nat × List Byte)
  ports : SMap Port
  links : SMap Link
  windows : SMap Window2
  groups : SMap Group
  remote : SMap Ram
  dropped : SMap (BitVec 64)
  absent : List Nat
  corrected : SMap Nat
  drops : List (Nat × Nat × Option Nat)
  flashLog : List (DieId × LogEnt)
  held : List HartId
  temp : Int
  power : Nat
  deriving DecidableEq, Repr

/-- The whole machine. `now` counts cycles of the 1.1 GHz scheduler clock, which never freezes (R311). `cur` is the hart
whose operation is being executed. `inputs` holds what the outside world does next, `outputs` what it has been told.
`fresh` numbers requests; `freeCtr` is the model's own counter for values the spec leaves open (R3). -/
structure State where
  now : Nat
  cur : HartId
  harts : SMap Hart
  cores : SMap Core
  clusters : SMap Cluster
  dies : SMap Die
  parts : SMap Part
  launches : SMap Launch
  mem : Ram
  shadow : List ShadowLine
  snaps : List SnapLine
  flights : List Flight
  pkg : Package
  inputs : List Instr
  outputs : List Output
  fresh : Nat
  freeCtr : Nat
  deriving DecidableEq, Repr

/-! ### The state right after reset -/

def Tile.zero : Tile := ⟨false, false, []⟩

/-- Registers as a launch start leaves them, before x1 and x2 are set (R276, R312): zero, p0 true, m0 all ones, VL 256. -/
def Regs.reset : Regs :=
  { x := Vector.replicate 32 0, xPoi := 0, p := 1, pPoi := 0,
    m := (Vector.replicate 8 0).set 0 (BitVec.allOnes 256), mPoi := 0, vl := 256, fpmode := 0, fpflags := 0, vflags := 0,
    rspill := 0, crec := 0, livemask := 0, fscope := 0, sidx := 0, stepcnt := 0, ras := [], inh := false,
    tile := Tile.zero }

def TrapRegs.zero : TrapRegs := ⟨0, 0, 0, 0⟩
def TrapRec.zero : TrapRec := ⟨0, 0, 0, 0, false⟩

def Bundle.none : Bundle :=
  { at0 := 0, head := 0, ft := 0, line := 0, npc := Option.none, slow := 0, raisedF := 0, raisedV := 0, nras := Option.none,
    trap := Option.none, ckpt := Option.none, step := false, ngmode := Option.none, reply := 0, eret := false, wrote := [], reads := [], spent := 0 }

def Hart.reset : Hart :=
  { r := Regs.reset, dup := Regs.reset, sys := ⟨TrapRegs.zero, TrapRegs.zero, 0, 0, 0, 0, 0⟩, pc := 0,
    wq := [], land := [], wh := [], atoms := [], rest := [], restRegs := Regs.reset, histWait := [], rearm := false, xl := [], ser := 0, ckptSer := 0, bundles := 0, ck := none, bun := Bundle.none,
    mode := .off, launch := none, time := ⟨0, 0, 0, 0, 0, none⟩, fetch := ⟨none, none, false, .idle, []⟩,
    fence := FenceSt.none, dupFence := FenceSt.none, poisonRetry := false, recheckRetry := false, stopReq := false, idleAt := 0, drain := .no, held := none }

def Queue.reset : Queue := ⟨0, 0, 0, false, 0, []⟩

def Shape.zero : Shape := ⟨0, 0, 0, 0, 0, 0, 0, 0, 0, 0, 0, 0, 0⟩

def Stream.reset : Stream :=
  { active := false, obj := Shape.zero, shapeIdx := 0, q := 0, sp := .t, base := 0, hart := false, tile := none, next := 0,
    total := 0, done := 0, stopped := false, stopping := false, halted := false, nextAt := 0, start := 0, flights := [] }

def Core.reset : Core :=
  { t0 := 0, frozen := false, gmode := 0, grid := [], tcm := Ram.empty, queues := Vector.replicate 8 Queue.reset,
    eng := [], vq := [], qst := [], qf := [], hist := [], streams := Vector.replicate 4 Stream.reset, recheck := [], dtlb := [],
    itlb := [], ranges := [], sysr := [], dptroot := 0, iptroot := 0, mtag := 0, dirty := 0, losses := 0, vTaken := none,
    xTaken := none, arrayNext := (0, 0), rechkLevel := 0, fenced := false, stopFrom := 0 }

def ShapeEnt.reset : ShapeEnt := ⟨false, 0, 0, 0, Shape.zero⟩
def TileEnt.reset : TileEnt := ⟨.empty, 0, 0, 0, false⟩

def Cluster.reset : Cluster :=
  { launch := none, spadBits := 16, spad := Ram.empty, shapes := [], tiles := [], copies := [], ready := [], farms := [],
    spawned := [], ended := [], seen := [] }

def Die.reset : Die := ⟨[], [], Ram.empty, [], 0, []⟩

def LQueue.reset : LQueue := ⟨0, 0, 0, 0, 0, 0, false⟩
def ScopeEnt.reset : ScopeEnt := ⟨false, 0, false, none, 0, false, 0, 0, 0, false⟩
def Slot.reset : Slot := ⟨0, false, 0, 0, 0⟩

/-- At partition reset every RELDL is 2^40 - 1, every queue has PERIOD 0 and generations start at zero (R291, R311). -/
def Part.reset : Part :=
  { queues := [], reldl := Vector.replicate 8 (2 ^ 40 - 1), scopes := [], sweep := ⟨0, [], []⟩, slots := [],
    sysRanges := [], taken := [], nextPlace := 0, admitting := none, order := [], held := false }

/-- A configuration record all of whose fields are at their defaults: one partition, no domain (R401). -/
def Cfg.default : Cfg :=
  { counter := 0, parts := [0, 0, 0, 0, 0, 0, 0, 0], modulePos := 0, domsize := 1, domid := 0, memto := 200, cutlim := 100,
    shadow := [16, 16, 16, 16, 16, 16, 16, 16], pclimit := 1000, tlimit := 95, desc := [] }

def Port.reset : Port := ⟨false, false, 0, 0, 0, [], ⟨[], false, false⟩⟩
def Link.reset : Link := ⟨0, false, 0, 0, false, []⟩

def Package.reset : Package :=
  { phase := .off, started := false, flashA := [], flashB := [], useB := false, cfg := Cfg.default, greatest := 0,
    mr := List.replicate 8 0, leaf := 0, salt := 0, chain := [], sessions := [], writers := [], waiting := [], frozeAt := none, mailbox := Ram.empty, stored := [],
    ports := [], links := [], windows := [], groups := [], remote := [], dropped := [], absent := [], corrected := [],
    drops := [], flashLog := [], held := [], temp := 25, power := 0 }

/-- The machine right after reset: power has come on and start-up has not run yet (R402); memory lists nothing. -/
def State.reset : State :=
  { now := 0, cur := 0, harts := [], cores := [], clusters := [], dies := [], parts := [], launches := [], mem := Ram.empty,
    shadow := [], snaps := [], flights := [], pkg := Package.reset, inputs := [], outputs := [], fresh := 1, freeCtr := 0 }

end Sys2Proof.Machine
end

