-- ==== Sys2Proof/Machine/Access.lean ====
section
/-! DEFINITION. Accessors: the current hart and its core, cluster, die and partition, and their updates; clocks, distances and physical units (R10 to R14, R381). -/

namespace Sys2Proof.Machine

/-- The result of a meaning. -/
abbrev Res := Host.Outcome State Fault Refusal

/-! ### Units of the package (R10, R12) -/

def State.hartAt (s : State) (n : HartId) : Hart := SMap.look Hart.reset s.harts n
def State.setHartAt (s : State) (n : HartId) (h : Hart) : State := { s with harts := SMap.put s.harts n h }
def State.updHartAt (s : State) (n : HartId) (f : Hart → Hart) : State := s.setHartAt n (f (s.hartAt n))
def State.hart (s : State) : Hart := s.hartAt s.cur
def State.setHart (s : State) (h : Hart) : State := s.setHartAt s.cur h
def State.updHart (s : State) (f : Hart → Hart) : State := s.setHart (f s.hart)

def coreOf (n : HartId) : CoreId := n / 2
def clusterOf (n : HartId) : ClusterId := n / 32
def dieOf (n : HartId) : DieId := n / 128
/-- HARTID.HART (R12): true for hart 1 of its core. -/
def slotOf (n : HartId) : Bool := n % 2 = 1
def dieOfCore (c : CoreId) : DieId := c / 64
def dieOfCluster (c : ClusterId) : DieId := c / 4
/-- The two harts of a core. -/
def hartsOf (c : CoreId) : List HartId := [2 * c, 2 * c + 1]

def State.coreAt (s : State) (c : CoreId) : Core := SMap.look Core.reset s.cores c
def State.setCoreAt (s : State) (c : CoreId) (v : Core) : State := { s with cores := SMap.put s.cores c v }
def State.updCoreAt (s : State) (c : CoreId) (f : Core → Core) : State := s.setCoreAt c (f (s.coreAt c))
def State.core (s : State) : Core := s.coreAt (coreOf s.cur)
def State.updCore (s : State) (f : Core → Core) : State := s.updCoreAt (coreOf s.cur) f

def State.clusterAt (s : State) (c : ClusterId) : Cluster := SMap.look Cluster.reset s.clusters c
def State.updClusterAt (s : State) (c : ClusterId) (f : Cluster → Cluster) : State :=
  { s with clusters := SMap.put s.clusters c (f (s.clusterAt c)) }
def State.cluster (s : State) : Cluster := s.clusterAt (clusterOf s.cur)
def State.updCluster (s : State) (f : Cluster → Cluster) : State := s.updClusterAt (clusterOf s.cur) f

def State.dieAt (s : State) (d : DieId) : Die := SMap.look Die.reset s.dies d
def State.updDieAt (s : State) (d : DieId) (f : Die → Die) : State :=
  { s with dies := SMap.put s.dies d (f (s.dieAt d)) }

/-- The partition that owns a die, from the configuration record in use (R14, R401). -/
def State.partOf (s : State) (d : DieId) : PartId := s.pkg.cfg.parts.getD d 0
def State.partAt (s : State) (p : PartId) : Part := SMap.look Part.reset s.parts p
def State.updPartAt (s : State) (p : PartId) (f : Part → Part) : State :=
  { s with parts := SMap.put s.parts p (f (s.partAt p)) }
/-- The dies of a partition, ascending. -/
def State.diesOf (s : State) (p : PartId) : List DieId := (List.range 8).filter fun d => s.partOf d = p
/-- The home die of a partition: its lowest-numbered die (R14). -/
def State.homeDie (s : State) (p : PartId) : DieId := (s.diesOf p).headD 0

/-! ### Launches -/

def LRec.zero : LRec := ⟨0, 0, 0, 0, 0, 0, 0, 0, 0, 0, 0, 0, false, 0, 0, 0, 0, []⟩
def Launch.none : Launch :=
  { raw := [], rc := LRec.zero, part := 0, st := .rejected, tag := 0, place := 0, tries := 0, deadline := 0,
    slot := Option.none, parent := Option.none, waits := [], root := 0, charged := 0, overflow := false, irrev := false,
    children := [], cause := 0, abCode := 0, trapPc := 0, trapInfo := 0, retryable := false, phaseAt := 0, switching := false, pre := .none,
    cut := .none, saved := Option.none, overran := false }
def State.launchAt (s : State) (i : Nat) : Launch := SMap.look Launch.none s.launches i
def State.updLaunchAt (s : State) (i : Nat) (f : Launch → Launch) : State :=
  { s with launches := SMap.put s.launches i (f (s.launchAt i)) }
/-- The launch of the current hart; 0 names none. -/
def Hart.launchId (h : Hart) : Nat := h.launch.getD 0
def State.launchId (s : State) : Nat := s.hart.launchId

/-- Clusters that a launch names, ascending (R301). -/
def LRec.clusterList (r : LRec) : List ClusterId := (List.range 32).filter fun k => r.clusters.testBit k
/-- The entry harts of a launch: those with CORE × 2 + HART below HARTS (R312). -/
def LRec.hartList (r : LRec) : List HartId := r.clusterList.flatMap fun c => (List.range r.harts).map fun i => 32 * c + i
/-- The cores that a launch uses. -/
def LRec.coreList (r : LRec) : List CoreId :=
  r.clusterList.flatMap fun c => (List.range ((r.harts + 1) / 2)).map fun i => 16 * c + i
/-- The dies that hold a named cluster. -/
def LRec.dieList (r : LRec) : List DieId := (r.clusterList.map dieOfCluster).eraseDups

/-- Records the first abort cause that the scheduler node receives (R321). -/
def State.requestAbort (s : State) (i cause code : Nat) (pc info : Word) (retry : Bool) : State :=
  s.updLaunchAt i fun l =>
    if l.cause = 0 then { l with cause := cause, abCode := code, trapPc := pc, trapInfo := info, retryable := retry } else l

/-! ### Clocks (R21, R311) -/

/-- CYCLE of a core: its unfrozen cycles (R21, R356). -/
def State.cycleAt (s : State) (c : CoreId) : Nat := s.now - (s.coreAt c).t0
def State.cycle (s : State) : Nat := s.cycleAt (coreOf s.cur)

/-- Nanoseconds in cycles of 1.1 GHz, rounded up (R6, R102). -/
def nsCycles (ns : Nat) : Nat := (ns * 11 + 9) / 10

/-- Half of a latency, rounded up to a whole cycle (R433). -/
def halfUp (n : Nat) : Nat := (n + 1) / 2

def ceilDiv (a b : Nat) : Nat := (a + b - 1) / b

/-- Hop count between two dies of the mesh (R11). -/
def dieHops (a b : DieId) : Nat :=
  (if a / 4 ≤ b / 4 then b / 4 - a / 4 else a / 4 - b / 4) + (if a % 4 ≤ b % 4 then b % 4 - a % 4 else a % 4 - b % 4)

/-- The greatest hop count from a die to a die of the partition (R361). -/
def State.maxHops (s : State) (d : DieId) : Nat :=
  (s.diesOf (s.partOf d)).foldl (fun m e => max m (dieHops d e)) 0

/-- Hops from the current hart's die to the home die of its partition. -/
def State.homeHops (s : State) : Nat := dieHops (dieOf s.cur) (s.homeDie (s.partOf (dieOf s.cur)))

/-- The value of the device's choosing for a destination that the spec leaves unpredictable (R3): a fresh one each time. -/
def State.freeValue (s : State) : Word := Config.freeWord s.freeCtr
def State.spendFree (s : State) : State := { s with freeCtr := s.freeCtr + 1 }

/-! ### The physical address map (R381) -/

def hbmEnd : Nat := 0xC000000000
def stackSize : Nat := 48 * 2 ^ 30
def rdmaBase : Nat := 0xFFE0000000000
def collBase : Nat := 0xFFF0000000000
def mailBase : Nat := 0xFFF0000100000

/-- The die whose home agent holds a physical address. -/
def dieOfPa (pa : Nat) : DieId := if pa < hbmEnd then pa / stackSize / 2 else if collBase ≤ pa ∧ pa < collBase + 0x40000 then (pa - collBase) / 0x8000 else 0

/-- Bytes of a stack that are present: eight drops at most take 768 MiB each from its top (R400). -/
def State.stackPresent (s : State) (j : Nat) : Nat :=
  if j ∈ s.pkg.absent then 0
  else
    let m := SMap.look (0 : BitVec 64) s.pkg.dropped j
    stackSize - 768 * 2 ^ 20 * ((List.range 64).filter fun i => m.getLsbD i).length

/-- Whether a physical address is in present HBM. -/
def State.inHbm (s : State) (pa : Nat) : Bool := pa < hbmEnd && pa % stackSize < s.stackPresent (pa / stackSize)
/-- Whether a physical address names an RDMA window (R385). -/
def isWindow (pa : Nat) : Bool := rdmaBase ≤ pa && pa < rdmaBase + 0x10000000000
def isColl (pa : Nat) : Bool := collBase ≤ pa && pa < collBase + 0x40000
def isMail (pa : Nat) : Bool := mailBase ≤ pa && pa < mailBase + 0x100000
/-- Whether a load, store, atomic or stream access may reach a physical address (R381, R385). -/
def State.mapped (s : State) (pa : Nat) : Bool := s.inHbm pa || isColl pa || isMail pa

/-! ### Latencies (R102, R146, R387, R390) -/

/-- Hops of R387 from die `d` to physical address `pa` of module `xm`. -/
def State.pathHops (s : State) (d : DieId) (xm : Option Nat) (pa : Nat) : Nat :=
  match xm with
  | none => dieHops d (dieOfPa pa)
  | some b => dieHops d b + dieHops s.pkg.cfg.modulePos (dieOfPa pa)

/-- Whether a G access finds no directory entry in the cache of its home agent (R317): only a line that has shadow lines can, and which does is
the device's choice. -/
def State.dirMiss (s : State) (pa : Nat) : Bool :=
  s.shadow.any (fun e => e.line = pa / 64) && Config.freeChoice s.now (pa / 64) % 2 = 1

/-- Unloaded G load latency in nanoseconds (R390), with the directory access of R317. -/
def State.gNanos (s : State) (d : DieId) (xm : Option Nat) (pa : Nat) : Nat :=
  170 + 24 * s.pathHops d xm pa + (if xm.isSome then 120 else 0) + if s.dirMiss pa then 60 else 0

/-- A latency before its conversion (R6): nanoseconds outside the core and cycles. -/
structure Lat where
  ns : Nat
  cyc : Nat
  deriving DecidableEq, Repr

/-- Latencies in a row: their terms are summed before they are rounded (R6). -/
def Lat.plus (a b : Lat) : Lat := ⟨a.ns + b.ns, a.cyc + b.cyc⟩
def Lat.cycles (a : Lat) : Nat := nsCycles a.ns + a.cyc

/-- Unloaded G load latency in cycles (R390). -/
def State.gLatency (s : State) (d : DieId) (xm : Option Nat) (pa : Nat) : Nat := nsCycles (s.gNanos d xm pa)

/-- Unloaded load latency from hart `n` to a location (R102). -/
def State.loadLat (s : State) (n : HartId) (l : Loc) : Lat :=
  match l.unit with
  | .tcm _ => ⟨0, 4⟩
  | .spad c =>
    if c = clusterOf n then ⟨0, 6⟩
    else ⟨0, 20 + 26 * dieHops (dieOf n) (dieOfCluster c)⟩
  | .sram _ _ => ⟨0, 36⟩
  | .remote m => ⟨s.gNanos (dieOf n) (some m) l.addr, 0⟩
  | _ => ⟨s.gNanos (dieOf n) none l.addr, 0⟩
def State.loadLatency (s : State) (n : HartId) (l : Loc) : Nat := (s.loadLat n l).cycles

/-- Unloaded atomic latency from hart `n` to a location (R146). -/
def State.atomicLatency (s : State) (n : HartId) (l : Loc) : Nat :=
  match l.unit with
  | .tcm _ => 6
  | .spad c =>
    if c = clusterOf n then 10
    else 24 + 26 * dieHops (dieOf n) (dieOfCluster c)
  | .sram _ _ => 40
  | .remote m => nsCycles (s.gNanos (dieOf n) (some m) l.addr + 10)
  | _ => nsCycles (s.gNanos (dieOf n) none l.addr + 10)

/-! ### Lost links (R386 to R389) -/

/-- One step of dimension-order routing: along the row to the target column, then along the column (R388). -/
def routeNext (a b : DieId) : DieId :=
  if a % 4 < b % 4 then a + 1 else if b % 4 < a % 4 then a - 1 else if a / 4 < b / 4 then a + 4 else if b / 4 < a / 4 then a - 4 else a

/-- Whether the route from one die to another crosses a lost link. -/
def State.routeLost (s : State) : Nat → DieId → DieId → Bool
  | 0, _, _ => false
  | n + 1, a, b =>
    if a = b then false
    else
      let c := routeNext a b
      (SMap.look Link.reset s.pkg.links (a * 8 + c)).lost || s.routeLost n c b

def State.portUp (s : State) (k : Nat) : Bool := (SMap.look Port.reset s.pkg.ports k).up

/-- Whether the path from a die to a location crosses a lost link or a lost peer port (R386, R389). -/
def State.unreachable (s : State) (d : DieId) (l : Loc) : Bool :=
  match l.unit with
  | .spad c => s.routeLost 4 d (dieOfCluster c)
  | .hbm | .place | .shadow _ | .snap _ => s.routeLost 4 d (dieOfPa l.addr)
  | .remote m => !s.portUp m || s.routeLost 4 d m
  | _ => false

/-- A location that an access reaches, or one that ends in an error. -/
def State.reach (s : State) (n : HartId) (l : Loc) : Loc := if s.unreachable (dieOf n) l then ⟨.lost, l.addr⟩ else l

/-- Whether an access to a location ends in an error, and in which. -/
def Loc.bad (l : Loc) : Bool := l.unit = .error || l.unit = .lost || l.unit = .window
def badError (l : Loc) : ReqError := if l.unit = .lost then .linkLost else .errorResponse
/-- The error of the first location that ends in one. -/
def failOf (ls : List Loc) : ReqError := ((ls.find? Loc.bad).map badError).getD .errorResponse

/-- REASON of TRAPAUX for an error (R115). -/
def reqReason : ReqError → Nat
  | .timeout => 6
  | .linkLost => 7
  | .errorResponse => 8

/-! ### Event logs (R396, R407) -/

/-- The row of R397 that an entry of the log names. -/
inductive ErrClass where
  | corrected | uncorrectable | sram | recheck | selector | crc | dieLink | peerPort | directory | welkin
  deriving DecidableEq, Repr
def ErrClass.code : ErrClass → Nat
  | .corrected => 0
  | .uncorrectable => 1
  | .sram => 2
  | .recheck => 3
  | .selector => 4
  | .crc => 5
  | .dieLink => 6
  | .peerPort => 7
  | .directory => 8
  | .welkin => 9

def logSize : Nat := 4096

/-- Logs an event on a die; a full ring loses its oldest entry. -/
def State.log (d : DieId) (k : ErrClass) (cause unit addr detail : Nat) (s : State) : State :=
  s.updDieAt d fun x =>
    { x with
      log := (x.log ++ [(⟨x.logSeq, k.code, cause, unit, addr, detail⟩ : LogEnt)]).drop (x.log.length + 1 - logSize), logSeq := x.logSeq + 1 }

/-- UNIT of a log entry for a hart or a core: the HARTID layout. -/
def State.unitOf (s : State) (n : HartId) : Nat := n + 1024 * s.pkg.cfg.modulePos

/-! ### Program order (R131, R132) -/

/-- The place of an operation in its hart's program order (R131): of two operations, the earlier has the lower position. -/
def posOf (ser head : Nat) : Nat := 64 * ser + head

/-- A number for the path from a hart to an ordering point: the accesses of one request on one path arrive together. -/
def State.pathOf (s : State) (l : Loc) : Nat :=
  match l.unit with
  | .tcm _ => 0
  | .spad c => 1 + c
  | .sram _ _ => 40
  | .remote m => 256 + 64 * m + (if s.dirMiss l.addr then 32 else 0) + dieOfPa l.addr
  | .error | .lost | .window => 300
  | _ => 64 + 16 * dieOfPa l.addr + if s.dirMiss l.addr then 8 else 0

/-- Whether a unit holds bytes of G memory of this module. -/
def MemUnit.isG : MemUnit → Bool
  | .hbm | .place | .shadow _ | .snap _ => true
  | _ => false

/-- Whether a hart's accesses to two extents are kept in program order: they share a location (R131), in whichever view of a G line (R130),
or one port, of a TCM or of a scratchpad (R132). -/
def Loc.conflicts (a : Loc) (n : Nat) (b : Loc) (m : Nat) : Bool :=
  let meets := decide (a.addr < b.addr + m) && decide (b.addr < a.addr + n)
  match a.unit, b.unit with
  | .tcm c, .tcm d => c = d
  | .spad c, .spad d => c = d
  | .sram c i, .sram d j => c = d && i = j && meets
  | .remote c, .remote d => c = d && meets
  | u, v => u.isG && v.isG && meets

end Sys2Proof.Machine
end

