-- ==== Sys2Proof/Machine/Operands.lean ====
section
/-! DEFINITION. Operand forms: scalar registers, predicates and masks with their poison marks, immediates, effective values, and vector operands as cells of the grid (R7, R44 to R46, R103, R127, R178, R203). -/

namespace Sys2Proof.Machine

/-! ### Registers (R46, R203) -/

/-- x0 reads as zero (R46). -/
def Hart.x (h : Hart) (r : XReg) : Word := if r = 0 then 0 else h.r.x.get r
def Hart.xPoi (h : Hart) (r : XReg) : Bool := r ≠ 0 && h.r.xPoi.getLsbD r.val
/-- p0 reads as true (R46). -/
def Hart.p (h : Hart) (r : PReg) : Bool := r = 0 || h.r.p.getLsbD r.val
def Hart.pPoi (h : Hart) (r : PReg) : Bool := r ≠ 0 && h.r.pPoi.getLsbD r.val
/-- m0 reads as all ones (R203). -/
def Hart.m (h : Hart) (r : MReg) : Mask := if r = 0 then BitVec.allOnes 256 else h.r.m.get r
def Hart.mPoi (h : Hart) (r : MReg) : Bool := r ≠ 0 && h.r.mPoi.getLsbD r.val

def State.x (s : State) (r : XReg) : Word := s.hart.x r
def State.xPoi (s : State) (r : XReg) : Bool := s.hart.xPoi r
def State.p (s : State) (r : PReg) : Bool := s.hart.p r
def State.pPoi (s : State) (r : PReg) : Bool := s.hart.pPoi r
def State.m (s : State) (r : MReg) : Mask := s.hart.m r
def State.mPoi (s : State) (r : MReg) : Bool := s.hart.mPoi r

/-- VL, 1 to 256 (R178). -/
def Hart.vl (h : Hart) : Nat := h.r.vl.toNat
def State.vl (s : State) : Nat := s.hart.vl

/-- The word of predicates p15 to p0 (R80). -/
def Hart.preds (h : Hart) : Word := ((h.r.p ||| 1).setWidth 64)

/-! ### Immediates and effective values -/

def sextTo64 {n : Nat} (b : BitVec n) : Word := b.signExtend 64

/-- Base plus displacement (R103). -/
def State.eaDisp {n : Nat} (s : State) (xa : XReg) (d : BitVec n) : Word := s.x xa + sextTo64 d
/-- Base plus shifted index (R103). -/
def State.eaIndex (s : State) (xa xb : XReg) (ss : Fin 4) : Word := s.x xa + (s.x xb <<< ss.val)

/-- Target of layouts BD, LP and FM: lines from the line that holds the operation, and a head (R47, R92, R297). -/
def lineTarget {n : Nat} (pc : Word) (disp : BitVec n) (hidx : Fin 32) : Word :=
  (((pc >>> 6) + sextTo64 disp) <<< 6) + BitVec.ofNat 64 (2 * hidx.val)

/-! ### Grid cells (R16, R45) -/

/-- Cells are numbered 65536 half + 256 row + column; element groups of 128 cells are numbered cell / 128. -/
def cellOf (half : Bool) (row col : Nat) : Nat := (if half then 65536 else 0) + 256 * row + col
def cellHalf (c : Nat) : Bool := 65536 ≤ c
def cellRow (c : Nat) : Nat := c % 65536 / 256
def cellCol (c : Nat) : Nat := c % 256
def groupOf (c : Nat) : Nat := c / 128
/-- The grid row (256 half + row) of a cell. -/
def gridRowOf (c : Nat) : Nat := c / 256

end Sys2Proof.Machine

namespace Sys2Proof

/-- Element `i` of a vector operand (R45). -/
def VOp.cell (v : VOp) (i : Nat) : Nat :=
  match v.kind with
  | .row => Machine.cellOf v.half v.n.val i
  | .col => Machine.cellOf v.half i v.n.val
  | .dia => Machine.cellOf v.half i ((i + v.n.val) % 256)

def RowOp.vop (r : RowOp) : VOp := ⟨r.half, .row, r.n⟩

end Sys2Proof

namespace Sys2Proof.Machine

def Core.cell (c : Core) (k : Nat) : GCell := SMap.look GCell.zero (SMap.look [] c.grid (gridRowOf k)) (cellCol k)

/-- Writes a cell and marks its row dirty (R352). -/
def Core.setCell (c : Core) (k : Nat) (v : GCell) : Core :=
  let row := SMap.look [] c.grid (gridRowOf k)
  { c with
    grid := SMap.set [] c.grid (gridRowOf k) (SMap.set GCell.zero row (cellCol k) v)
    dirty := c.dirty ||| BitVec.twoPow 512 (gridRowOf k) }

def Core.setCells (c : Core) (l : List (Nat × GCell)) : Core := l.foldl (fun c kv => c.setCell kv.1 kv.2) c

/-- The 128 cells of an element group. -/
def groupCells (g : Nat) : List Nat := (List.range 128).map fun j => 128 * g + j

/-- The value of element `i` of a vector operand as it stands. -/
def State.elem (s : State) (v : VOp) (i : Nat) : GCell := s.core.cell (v.cell i)

/-- The active elements: i < VL with mask bit i set (R178). -/
def activeOf (vl : Nat) (m : Mask) : List Nat := (List.range (min vl 256)).filter fun i => m.getLsbD i
def State.active (s : State) (ma : MReg) : List Nat := activeOf s.vl (s.m ma)
/-- Whether an operation has an active element; one that has none makes no access and consumes nothing (R179). -/
def State.touches (s : State) (ma : MReg) : Bool := !(s.active ma).isEmpty

/-- Element `i` of the second operand of layout VV: a vector element, bits 31:0 of a scalar register, or a count (R190, R192). -/
def State.src2 (s : State) (b : Src2) (i : Nat) : GCell :=
  match b with
  | .vec v => s.elem v i
  | .scalar x => ⟨(s.x x).setWidth 32, s.xPoi x⟩
  | .imm n => ⟨BitVec.ofNat 32 n.val, false⟩

/-! ### The rounding mode (R67) -/

inductive RM where
  | rne | rtz | rup | rdn
  deriving DecidableEq, Repr

def rmOf (w : Word) : RM :=
  match (w.toNat % 4) with
  | 0 => .rne
  | 1 => .rtz
  | 2 => .rup
  | _ => .rdn
def State.rm (s : State) : RM := rmOf s.hart.r.fpmode

end Sys2Proof.Machine

namespace Sys2Proof

/-! ### Access types (R121) -/

/-- Size in bytes of an access type. -/
def Ty.size : Ty → Nat
  | .w => 8
  | .s8 | .z8 | .s6 | .z6 => 1
  | .s16 | .z16 | .bf | .h => 2
  | .s32 | .z32 | .f32 => 4

/-- Extension of loaded bytes to a register (R121). -/
def Ty.extend (t : Ty) (v : Nat) : Word :=
  match t with
  | .w => BitVec.ofNat 64 v
  | .s8 => (BitVec.ofNat 8 v).signExtend 64
  | .s16 => (BitVec.ofNat 16 v).signExtend 64
  | .s32 => (BitVec.ofNat 32 v).signExtend 64
  | .z8 | .s6 | .z6 => (BitVec.ofNat 8 v).setWidth 64
  | .z16 | .bf | .h => (BitVec.ofNat 16 v).setWidth 64
  | .z32 | .f32 => (BitVec.ofNat 32 v).setWidth 64

end Sys2Proof
end

