-- ==== Sys2Proof/Machine/Flags.lean ====
section
/-! DEFINITION. The sticky flags: FPFLAGS (R68) and VFLAGS (R165), as they are raised and merged. -/

namespace Sys2Proof.Machine

/-- Flags of IEEE 754 raised by an operation (R68). -/
structure FFlags where
  nv : Bool
  dz : Bool
  of : Bool
  uf : Bool
  nx : Bool
  deriving DecidableEq, Repr

def FFlags.none : FFlags := ⟨false, false, false, false, false⟩
def FFlags.or (a b : FFlags) : FFlags :=
  ⟨a.nv || b.nv, a.dz || b.dz, a.of || b.of, a.uf || b.uf, a.nx || b.nx⟩
/-- The layout of FPFLAGS (R68). -/
def FFlags.word (f : FFlags) : Word :=
  BitVec.ofNat 64 (b01 f.nx + 2 * b01 f.uf + 4 * b01 f.of + 8 * b01 f.dz + 16 * b01 f.nv)

/-- Flags of VFLAGS (R165). -/
def vfSat : Word := 1
def vfDrange : Word := 2
def vfQnan : Word := 4
def vfQclip : Word := 8

/-- Raises flags of FPFLAGS at the end of the bundle (R68). -/
def State.raiseF (f : FFlags) (s : State) : State :=
  s.updHart fun h => { h with bun := { h.bun with raisedF := h.bun.raisedF ||| f.word } }

/-- Raises flags of VFLAGS at the end of the bundle (R165). -/
def State.raiseV (w : Word) (s : State) : State :=
  s.updHart fun h => { h with bun := { h.bun with raisedV := h.bun.raisedV ||| w } }

/-- Raises flags of VFLAGS outside a bundle, in the registers and, where the cause issued before the last checkpoint, in the
duplicate set as well (R166, R434). A value that an MTS of an ended bundle writes in this cycle keeps them. -/
def State.raiseVNow (n : HartId) (ser : Nat) (w : Word) (s : State) : State :=
  let c := s.cycleAt (coreOf n)
  s.updHartAt n fun h =>
    { h with
      r := { h.r with vflags := h.r.vflags ||| w }
      wq := h.wq.map fun x => if x.dst = .sys .vflags && x.due ≤ c then { x with val := x.val ||| w.setWidth 256 } else x
      dup := if ser ≤ h.ckptSer then { h.dup with vflags := h.dup.vflags ||| w } else h.dup }

/-- Ors raised flags into what an MTS of the bundle writes to `r`. -/
def orWritten (ser : Nat) (r : SysReg) (f : Word) (l : List PendW) : List PendW :=
  l.map fun w => if w.ser = ser && w.dst = .sys r then { w with val := w.val ||| f.setWidth 256 } else w

/-- The end of a bundle: each flag register becomes its value before the bundle, or the value that an MTS of the bundle
writes, ored with every flag raised (R68, R165). -/
def Hart.mergeFlags (h : Hart) : Hart :=
  { h with
    r := { h.r with fpflags := h.r.fpflags ||| h.bun.raisedF, vflags := h.r.vflags ||| h.bun.raisedV }
    wq := orWritten h.ser .vflags h.bun.raisedV (orWritten h.ser .fpflags h.bun.raisedF h.wq)
    bun := { h.bun with raisedF := 0, raisedV := 0 } }

end Sys2Proof.Machine
end

