-- ==== Sys2Proof/Machine/Float.lean ====
section
/-! DEFINITION. Binary floating point computed exactly on integers and rounded once: binary32, binary16 and BF16 (R67 to R69, R81 to R85, R149, R224, R255). -/

namespace Sys2Proof.Machine

/-- A binary format: exponent bits and fraction bits. -/
structure Fmt where
  eb : Nat
  fb : Nat
  deriving DecidableEq, Repr

def fmtF32 : Fmt := ⟨8, 23⟩
def fmtBf : Fmt := ⟨8, 7⟩
def fmtH : Fmt := ⟨5, 10⟩

/-- Significant bits. -/
def Fmt.p (f : Fmt) : Nat := f.fb + 1
def Fmt.bias (f : Fmt) : Nat := 2 ^ (f.eb - 1) - 1
/-- The exponent of the least normal number. -/
def Fmt.emin (f : Fmt) : Int := 1 - (f.bias : Int)
def Fmt.infBits (f : Fmt) : Nat := (2 ^ f.eb - 1) * 2 ^ f.fb
def Fmt.signBit (f : Fmt) : Nat := 2 ^ (f.eb + f.fb)
/-- The canonical NaN (R69, R85). -/
def Fmt.nan (f : Fmt) : Nat := f.infBits + 2 ^ (f.fb - 1)
def Fmt.maxFinite (f : Fmt) : Nat := f.infBits - 1

/-- The value of a datum: a NaN with its signalling mark, an infinity, or (-1)^s m 2^e. -/
inductive FV where
  | nan (sig : Bool)
  | inf (s : Bool)
  | fin (s : Bool) (m : Nat) (e : Int)
  deriving DecidableEq, Repr

/-- Reads a datum. -/
def Fmt.read (f : Fmt) (b : Nat) : FV :=
  let s := b / f.signBit % 2 = 1
  let ex := b / 2 ^ f.fb % 2 ^ f.eb
  let fr := b % 2 ^ f.fb
  if ex = 2 ^ f.eb - 1 then (if fr = 0 then .inf s else .nan (fr < 2 ^ (f.fb - 1)))
  else if ex = 0 then .fin s fr (f.emin - f.fb)
  else .fin s (2 ^ f.fb + fr) (f.emin - f.fb + (ex - 1 : Nat))

def FV.isNan : FV → Bool
  | .nan _ => true
  | _ => false
/-- A NaN whose top fraction bit is 0 (R69). -/
def FV.isSnan : FV → Bool
  | .nan s => s
  | _ => false
def FV.isZero : FV → Bool
  | .fin _ m _ => m = 0
  | _ => false
def FV.isInf : FV → Bool
  | .inf _ => true
  | _ => false
def FV.sign : FV → Bool
  | .nan _ => false
  | .inf s => s
  | .fin s _ _ => s
def FV.neg : FV → FV
  | .nan g => .nan g
  | .inf s => .inf (!s)
  | .fin s m e => .fin (!s) m e

/-- Whether a magnitude is rounded away from zero: the kept integer `q`, the rest `r` of `2^k`. -/
def roundUp (rm : RM) (s : Bool) (q r k : Nat) : Bool :=
  match rm with
  | .rne => 2 * r > 2 ^ k || (2 * r = 2 ^ k && q % 2 = 1)
  | .rtz => false
  | .rup => !s && r ≠ 0
  | .rdn => s && r ≠ 0

/-- Rounds m 2^e to a multiple of 2^q: the multiple and whether it is inexact. -/
def roundTo (rm : RM) (s : Bool) (m : Nat) (e q : Int) : Nat × Bool :=
  if q ≤ e then (m * 2 ^ (e - q).toNat, false)
  else
    let k := (q - e).toNat
    let n := m / 2 ^ k
    let r := m % 2 ^ k
    (if roundUp rm s n r k then n + 1 else n, r ≠ 0)

/-- Bits and flags of an overflow (R69). -/
def Fmt.overflow (f : Fmt) (rm : RM) (s : Bool) : Nat :=
  let toMax := match rm with
    | .rne => false
    | .rtz => true
    | .rup => s
    | .rdn => !s
  (if toMax then f.maxFinite else f.infBits) + (if s then f.signBit else 0)

/-- Rounds (-1)^s m 2^e, m not 0, into a format (R69): tininess is detected after rounding. -/
def Fmt.round (f : Fmt) (rm : RM) (s : Bool) (m : Nat) (e : Int) : Nat × FFlags :=
  let sg := if s then f.signBit else 0
  let top : Int := e + (Nat.log2 m : Nat)
  let w : Int := f.fb
  let q := (if top < f.emin then f.emin else top) - w
  let (n, ix) := roundTo rm s m e q
  let mag := (q - (f.emin - w)).toNat * 2 ^ f.fb + n
  if f.infBits ≤ mag then (f.overflow rm s, { FFlags.none with of := true, nx := true })
  else
    let tiny := decide (top < f.emin) && ((roundTo rm s m e (top - w)).1 < 2 ^ f.p || decide (top + 1 < f.emin))
    (mag + sg, { FFlags.none with uf := tiny && ix, nx := ix })

/-- A signed zero. -/
def Fmt.zero (f : Fmt) (s : Bool) : Nat := if s then f.signBit else 0
def Fmt.inf (f : Fmt) (s : Bool) : Nat := f.infBits + f.zero s

/-- An exact value into a format; zero keeps the given sign. -/
def Fmt.ofVal (f : Fmt) (rm : RM) (s : Bool) (m : Nat) (e : Int) : Nat × FFlags :=
  if m = 0 then (f.zero s, FFlags.none) else f.round rm s m e

def fInvalid : FFlags := { FFlags.none with nv := true }

/-- Adds two exact finite values: sign, magnitude and exponent; the sign is of no meaning when the magnitude is 0. -/
def addExact (s1 : Bool) (m1 : Nat) (e1 : Int) (s2 : Bool) (m2 : Nat) (e2 : Int) : Bool × Nat × Int :=
  let e := min e1 e2
  let a : Int := (if s1 then -1 else 1) * (m1 : Int) * 2 ^ (e1 - e).toNat
  let b : Int := (if s2 then -1 else 1) * (m2 : Int) * 2 ^ (e2 - e).toNat
  (decide (a + b < 0), (a + b).natAbs, e)

/-- The sign of an exact zero sum (R81). -/
def zeroSumSign (rm : RM) (s1 s2 : Bool) (bothZero : Bool) : Bool :=
  if bothZero && s1 = s2 then s1 else rm = .rdn

/-- A sum of two finite values, rounded (R81). -/
def Fmt.addFin (f : Fmt) (rm : RM) (s1 : Bool) (m1 : Nat) (e1 : Int) (s2 : Bool) (m2 : Nat) (e2 : Int) : Nat × FFlags :=
  let (s, m, e) := addExact s1 m1 e1 s2 m2 e2
  if m = 0 then (f.zero (zeroSumSign rm s1 s2 (m1 = 0 && m2 = 0)), FFlags.none) else f.round rm s m e

/-- FADD (R81). -/
def Fmt.addV (f : Fmt) (rm : RM) (a b : FV) : Nat × FFlags :=
  match a, b with
  | .nan g, y => (f.nan, { FFlags.none with nv := g || y.isSnan })
  | _, .nan g => (f.nan, { FFlags.none with nv := g })
  | .inf s, .inf t => if s = t then (f.inf s, FFlags.none) else (f.nan, fInvalid)
  | .inf s, .fin .. => (f.inf s, FFlags.none)
  | .fin .., .inf t => (f.inf t, FFlags.none)
  | .fin s1 m1 e1, .fin s2 m2 e2 => f.addFin rm s1 m1 e1 s2 m2 e2

/-- FMUL (R81). -/
def Fmt.mulV (f : Fmt) (rm : RM) (a b : FV) : Nat × FFlags :=
  match a, b with
  | .nan g, y => (f.nan, { FFlags.none with nv := g || y.isSnan })
  | _, .nan g => (f.nan, { FFlags.none with nv := g })
  | .inf s, .inf t => (f.inf (s ^^ t), FFlags.none)
  | .inf s, .fin t m _ => if m = 0 then (f.nan, fInvalid) else (f.inf (s ^^ t), FFlags.none)
  | .fin s m _, .inf t => if m = 0 then (f.nan, fInvalid) else (f.inf (s ^^ t), FFlags.none)
  | .fin s1 m1 e1, .fin s2 m2 e2 => f.ofVal rm (s1 ^^ s2) (m1 * m2) (e1 + e2)

/-- An exact quotient as an integer with at least 64 significant bits and a sticky bit below them. -/
def divExact (m1 : Nat) (e1 : Int) (m2 : Nat) (e2 : Int) : Nat × Int :=
  let k := 66 + Nat.log2 m2
  let n := m1 * 2 ^ k
  (2 * (n / m2) + (if n % m2 = 0 then 0 else 1), e1 - e2 - k - 1)

/-- FDIV (R81). -/
def Fmt.divV (f : Fmt) (rm : RM) (a b : FV) : Nat × FFlags :=
  match a, b with
  | .nan g, y => (f.nan, { FFlags.none with nv := g || y.isSnan })
  | _, .nan g => (f.nan, { FFlags.none with nv := g })
  | .inf _, .inf _ => (f.nan, fInvalid)
  | .inf s, .fin t _ _ => (f.inf (s ^^ t), FFlags.none)
  | .fin s _ _, .inf t => (f.zero (s ^^ t), FFlags.none)
  | .fin s1 m1 e1, .fin s2 m2 e2 =>
    let s := s1 ^^ s2
    if m2 = 0 then
      if m1 = 0 then (f.nan, fInvalid) else (f.inf s, { FFlags.none with dz := true })
    else if m1 = 0 then (f.zero s, FFlags.none)
    else
      let (m, e) := divExact m1 e1 m2 e2
      f.round rm s m e

/-- Integer square root, one bit at a time from bit `k` down. -/
def isqrt (n : Nat) : Nat → Nat → Nat
  | 0, r => if (r + 1) * (r + 1) ≤ n then r + 1 else r
  | k + 1, r => isqrt n k (let t := r + 2 ^ (k + 1); if t * t ≤ n then t else r)

/-- An exact square root as an integer with many significant bits and a sticky bit: m 2^e, m not 0. -/
def sqrtExact (m : Nat) (e : Int) : Nat × Int :=
  let k : Nat := 64 + (if (e % 2) = 0 then 0 else 1)
  let n := m * 2 ^ (64 + k)
  let r := isqrt n (Nat.log2 n / 2 + 1) 0
  (2 * r + (if r * r = n then 0 else 1), (e - 64 - k) / 2 - 1)

/-- FSQRT (R81). -/
def Fmt.sqrtV (f : Fmt) (rm : RM) (a : FV) : Nat × FFlags :=
  match a with
  | .nan g => (f.nan, { FFlags.none with nv := g })
  | .inf s => if s then (f.nan, fInvalid) else (f.inf false, FFlags.none)
  | .fin s m e =>
    if m = 0 then (f.zero s, FFlags.none)
    else if s then (f.nan, fInvalid)
    else
      let (r, x) := sqrtExact m e
      f.round rm false r x

/-- FMA (R82): one rounding; infinity times zero is invalid even with a quiet NaN addend. -/
def Fmt.fmaV (f : Fmt) (rm : RM) (a b c : FV) : Nat × FFlags :=
  let invalid := (a.isInf && b.isZero) || (a.isZero && b.isInf)
  if a.isNan || b.isNan || c.isNan then
    (f.nan, { FFlags.none with nv := invalid || a.isSnan || b.isSnan || c.isSnan })
  else if invalid then (f.nan, fInvalid)
  else
    let s := a.sign ^^ b.sign
    if a.isInf || b.isInf then
      if c.isInf && c.sign ≠ s then (f.nan, fInvalid) else (f.inf s, FFlags.none)
    else
      match a, b, c with
      | .fin _ m1 e1, .fin _ m2 e2, .fin s3 m3 e3 => f.addFin rm s (m1 * m2) (e1 + e2) s3 m3 e3
      | _, _, .inf t => (f.inf t, FFlags.none)
      | _, _, _ => (f.nan, fInvalid)

/-- Exact order of two values that are no NaN, -0 equal to +0: -1, 0 or 1. -/
def cmpV (a b : FV) : Int :=
  match a, b with
  | .inf s, .inf t => if s = t then 0 else if s then -1 else 1
  | .inf s, _ => if s then -1 else 1
  | _, .inf t => if t then 1 else -1
  | .fin s1 m1 e1, .fin s2 m2 e2 =>
    let (s, m, _) := addExact s1 m1 e1 (!s2) m2 e2
    if m = 0 then 0 else if s then -1 else 1
  | _, _ => 0

/-- FMIN and FMAX (R83): -0 below +0; a single NaN gives the other operand; NV for a signalling NaN. -/
def Fmt.minMax (f : Fmt) (isMax : Bool) (a b : Nat) : Nat × FFlags :=
  let x := f.read a
  let y := f.read b
  let fl := { FFlags.none with nv := x.isSnan || y.isSnan }
  if x.isNan && y.isNan then (f.nan, fl)
  else if x.isNan then (b, fl)
  else if y.isNan then (a, fl)
  else
    let c := cmpV x y
    let aLess := decide (c < 0) || (c = 0 && x.sign && !y.sign)
    (if aLess = isMax then b else a, fl)

/-- The compares of R84: equal, less, less or equal. -/
inductive FCmp where
  | eq | lt | le
  deriving DecidableEq, Repr
def fcmpV (k : FCmp) (x y : FV) : Bool × FFlags :=
  let nanIn := x.isNan || y.isNan
  let nv := match k with
    | .eq => x.isSnan || y.isSnan
    | _ => nanIn
  let c := cmpV x y
  let r := match k with
    | .eq => c = 0
    | .lt => c < 0
    | .le => c ≤ 0
  (!nanIn && r, { FFlags.none with nv := nv })

/-- Conversion between formats (R85): a NaN gives the target's canonical NaN, NV if it signals. -/
def Fmt.convert (t : Fmt) (rm : RM) (v : FV) : Nat × FFlags :=
  match v with
  | .nan g => (t.nan, { FFlags.none with nv := g })
  | .inf s => (t.inf s, FFlags.none)
  | .fin s m e => t.ofVal rm s m e

/-- An exact value to an integer in lo..hi (R85): out of range gives the nearest end and NV, a NaN 0 and NV. -/
def toIntV (rm : RM) (lo hi : Int) (v : FV) : Int × FFlags :=
  match v with
  | .nan _ => (0, fInvalid)
  | .inf s => (if s then lo else hi, fInvalid)
  | .fin s m e =>
    let (n, ix) := roundTo rm s m e 0
    let z : Int := if s then -(n : Int) else n
    if z < lo then (lo, fInvalid) else if hi < z then (hi, fInvalid) else (z, { FFlags.none with nx := ix })

/-- An integer to a format (R85). -/
def Fmt.ofInt (f : Fmt) (rm : RM) (z : Int) : Nat × FFlags := f.ofVal rm (decide (z < 0)) z.natAbs 0

/-- rne32(a + b) on cells, as the atomics use it (R149): no flags. -/
def rne32Add (a b : Cell) : Cell :=
  BitVec.ofNat 32 (fmtF32.addV .rne (fmtF32.read a.toNat) (fmtF32.read b.toNat)).1

end Sys2Proof.Machine
end

