-- ==== Sys2Proof/Machine/Mem.lean ====
section
/-! DEFINITION. Bytes of every memory, translation of G addresses, and the checks of a memory access (R103 to R117, R127, R381, R398). -/

namespace Sys2Proof.Machine

/-! ### Bytes of one memory -/

def Ram.byte (m : Ram) (a : Nat) : Byte := SMap.look 0 m.bytes a
def Ram.poisoned (m : Ram) (a : Nat) : Bool := m.poison.contains (a / 64)

/-- Inserts into a strictly rising list. -/
def insertSorted (l : List Nat) (n : Nat) : List Nat :=
  match l with
  | [] => [n]
  | k :: r => if n < k then n :: k :: r else if n = k then k :: r else k :: insertSorted r n

def Ram.setByte (m : Ram) (a : Nat) (b : Byte) : Ram := { m with bytes := SMap.set 0 m.bytes a b }

/-- Writes bytes from `a` upward. -/
def Ram.setBytes (m : Ram) (a : Nat) (bs : List Byte) : Ram := { m with bytes := SMap.setList 0 m.bytes a bs }

def Ram.mark (m : Ram) (line : Nat) : Ram := { m with poison := insertSorted m.poison line }
def Ram.unmark (m : Ram) (line : Nat) : Ram := { m with poison := m.poison.filter fun l => l ≠ line }

/-- Poison after a write of `n` bytes at `a` (R398): poisoned data marks its line, unpoisoned data clears a line only when it
covers all 64 bytes, and a partial write keeps the mark. -/
def Ram.settlePoison (m : Ram) (a n : Nat) (poi : Bool) : Ram :=
  if poi then m.mark (a / 64) else if a % 64 = 0 ∧ n = 64 then m.unmark (a / 64) else m

/-- A write within one line. -/
def Ram.write (m : Ram) (a : Nat) (bs : List Byte) (poi : Bool) : Ram := (m.setBytes a bs).settlePoison a bs.length poi

/-- The canonical form of a memory: addresses strictly rising and no listed byte equal to zero; poisoned lines rising. -/
def Ram.wf (m : Ram) : Bool := SMap.wf 0 m.bytes && SMap.sorted (m.poison.map fun l => (l, ()))

/-! ### Physical memory (R381) -/

def State.physByte (s : State) (pa : Nat) : Byte :=
  if pa < hbmEnd then s.mem.byte pa
  else if isColl pa then (s.dieAt ((pa - collBase) / 0x8000)).coll.byte ((pa - collBase) % 0x8000)
  else if isMail pa then s.pkg.mailbox.byte (pa - mailBase)
  else 0

def State.physPoisoned (s : State) (pa : Nat) : Bool := pa < hbmEnd && s.mem.poisoned pa

def State.physBytes (s : State) (pa n : Nat) : List Byte := (List.range n).map fun i => s.physByte (pa + i)
def State.physNat (s : State) (pa n : Nat) : Nat := leNat (s.physBytes pa n)

/-! ### Earlier versions for SNAP ranges (R317, R318) -/

/-- Lines of a partition's shadow pool in use: shadow lines and kept SNAP versions. -/
def State.poolLines (s : State) (p : PartId) : Nat :=
  (s.shadow.filter fun e => (s.launchAt e.launch).part = p).length +
    ((s.snaps.filter fun e => (s.launchAt e.launch).part = p).map fun e => (e.line, e.data, e.poi)).eraseDups.length

/-- Lines that the partition's pool holds (R401, SHADOW in GiB). -/
def State.poolSize (s : State) (p : PartId) : Nat := (s.pkg.cfg.shadow.getD p 16) * 2 ^ 30 / 64

def State.snapFind (s : State) (launch line : Nat) : Option SnapLine :=
  s.snaps.find? fun e => e.launch = launch && e.line = line

/-- Whether two extents share a byte. -/
def overlaps (a n b m : Nat) : Bool := a < b + m && b < a + n

/-- Whether a range is of class SNAP and holds bytes of a line. -/
def Range.snaps (g : Range) (line : Nat) : Bool := g.cls = .snap && overlaps g.pa g.len (line * 64) 64

/-- Launches whose SNAP ranges, or SNAP system entries, hold a line and that were admitted and have not ended (R318). -/
def State.snapReaders (s : State) (line : Nat) : List Nat :=
  (s.launches.filter fun x =>
    (x.2.st = .admitted || x.2.st = .ready || x.2.st = .running) &&
      ((x.2.rc.ranges.any fun r => r.any fun g => g.snaps line) || (s.partAt x.2.part).sysRanges.any fun g => g.snaps line)).map fun x => x.1

/-- Keeps the version of a line that is about to be written for its SNAP readers; readers whose version finds no room abort (R318). Beside
commits, which the rule names, writes in place keep the versions too: a SNAP range shows the committed state of the admission whatever
writes the line later (log 27). -/
def State.keepVersion (p : PartId) (line : Nat) (s : State) : State :=
  let rs := (s.snapReaders line).filter fun i => (s.snapFind i line).isNone
  if rs = [] then s
  else if s.poolLines p < s.poolSize p then
    let data := s.physBytes (line * 64) 64
    let poi := s.physPoisoned (line * 64)
    { s with snaps := s.snaps ++ rs.map fun i => ⟨i, line, data, poi⟩ }
  else rs.foldl (fun s i => s.requestAbort i 67 0 0 0 true) s

/-- Writes bytes of one line in place. -/
def State.physWrite (s : State) (pa : Nat) (bs : List Byte) (poi : Bool) : State :=
  if pa < hbmEnd then
    let s := s.keepVersion (s.partOf (dieOfPa pa)) (pa / 64)
    { s with mem := s.mem.write pa bs poi }
  else if isColl pa then
    let o := (pa - collBase) % 0x8000
    s.updDieAt ((pa - collBase) / 0x8000) fun d =>
      { d with coll := d.coll.setBytes o bs, trig := if o % 512 < 8 then insertSorted d.trig (o / 512) else d.trig }
  else if isMail pa then
    { s with pkg := { s.pkg with
        mailbox := s.pkg.mailbox.setBytes (pa - mailBase) bs, writers := SMap.del s.pkg.writers ((pa - mailBase) / 4096) } }
  else s

/-! ### The shadow (R317, R318) -/

def shadowFind (l : List ShadowLine) (launch line : Nat) : Option ShadowLine :=
  l.find? fun e => e.launch = launch && e.line = line && e.settleAt.isNone

/-- A byte of a launch's shadow view: the committed byte, or the launch's own where its mask is set (R317). -/
def State.shadowByte (s : State) (launch pa : Nat) : Byte :=
  match shadowFind s.shadow launch (pa / 64) with
  | some e => if e.mask.getLsbD (pa % 64) then byteAt e.data (pa % 64) else s.physByte pa
  | none => s.physByte pa

def State.shadowPoisoned (s : State) (launch pa : Nat) : Bool :=
  match shadowFind s.shadow launch (pa / 64) with
  | some e => e.poi || (e.mask ≠ BitVec.allOnes 64 && s.physPoisoned pa)
  | none => s.physPoisoned pa

/-- Replaces `bs.length` bytes of a list from `i`. -/
def overlay (l : List Byte) (i : Nat) (bs : List Byte) : List Byte := l.take i ++ bs ++ l.drop (i + bs.length)

def maskRange (i n : Nat) : BitVec 64 := BitVec.ofNat 64 ((2 ^ n - 1) * 2 ^ i)

/-- Writes bytes of one line into a launch's shadow line, which the first access allocates and charges (R317). -/
def State.shadowWrite (s : State) (launch pa : Nat) (bs : List Byte) (poi : Bool) : State :=
  let i := pa % 64
  let full := i = 0 ∧ bs.length = 64
  match shadowFind s.shadow launch (pa / 64) with
  | some e =>
    let e' := { e with
      mask := e.mask ||| maskRange i bs.length, data := overlay e.data i bs,
      poi := poi || (e.poi && !decide full) }
    { s with shadow := s.shadow.map fun x => if x.launch = launch && x.line = pa / 64 && x.settleAt.isNone then e' else x }
  | none =>
    let e : ShadowLine :=
      { launch := launch, line := pa / 64, mask := maskRange i bs.length, data := overlay (List.replicate 64 0) i bs,
        poi := poi, settleAt := none }
    { (s.updLaunchAt launch fun l => { l with charged := l.charged + 64 }) with shadow := s.shadow ++ [e] }

/-- Whether a store of the launch to this line would allocate a shadow line (R317). -/
def State.allocates (s : State) (launch pa : Nat) : Bool := (shadowFind s.shadow launch (pa / 64)).isNone

/-! ### Locations (R129) -/

/-- A byte of a unit's memory. -/
def State.unitByte (s : State) (u : MemUnit) (a : Nat) : Byte :=
  match u with
  | .tcm c => (s.coreAt c).tcm.byte a
  | .spad c => (s.clusterAt c).spad.byte a
  | .sram d l => (SMap.look (⟨0, Ram.empty, []⟩ : HAlloc) (s.dieAt d).sram l).ram.byte a
  | .hbm | .place => s.physByte a
  | .shadow l => if (s.launchAt l).irrev then s.physByte a else s.shadowByte l a
  | .snap l =>
    match s.snapFind l (a / 64) with
    | some e => byteAt e.data (a % 64)
    | none => s.physByte a
  | .remote m => (SMap.look Ram.empty s.pkg.remote m).byte a
  | .window | .error | .lost => 0

def State.unitPoisoned (s : State) (u : MemUnit) (a : Nat) : Bool :=
  match u with
  | .tcm c => (s.coreAt c).tcm.poisoned a
  | .spad c => (s.clusterAt c).spad.poisoned a
  | .sram d l => (SMap.look (⟨0, Ram.empty, []⟩ : HAlloc) (s.dieAt d).sram l).ram.poisoned a
  | .hbm | .place => s.physPoisoned a
  | .shadow l => if (s.launchAt l).irrev then s.physPoisoned a else s.shadowPoisoned l a
  | .snap l =>
    match s.snapFind l (a / 64) with
    | some e => e.poi
    | none => s.physPoisoned a
  | .remote m => (SMap.look Ram.empty s.pkg.remote m).poisoned a
  | .window | .error | .lost => false

/-- The ordering point's write of bytes within one line (R433). -/
def State.unitWrite (s : State) (u : MemUnit) (a : Nat) (bs : List Byte) (poi : Bool) : State :=
  match u with
  | .tcm c => s.updCoreAt c fun k => { k with tcm := k.tcm.write a bs poi }
  | .spad c => s.updClusterAt c fun k => { k with spad := k.spad.write a bs poi }
  | .sram d l =>
    s.updDieAt d fun k =>
      let al := SMap.look (⟨0, Ram.empty, []⟩ : HAlloc) k.sram l
      { k with sram := SMap.put k.sram l { al with ram := al.ram.write a bs poi } }
  | .hbm | .place => s.physWrite a bs poi
  | .shadow l => if (s.launchAt l).irrev then s.physWrite a bs poi else s.shadowWrite l a bs poi
  | .remote m =>
    { s with pkg := { s.pkg with
        remote := SMap.put s.pkg.remote m ((SMap.look Ram.empty s.pkg.remote m).write a bs poi) } }
  | .snap _ | .window | .error | .lost => s

def State.locBytes (s : State) (l : Loc) (n : Nat) : List Byte := (List.range n).map fun i => s.unitByte l.unit (l.addr + i)
def State.locNat (s : State) (l : Loc) (n : Nat) : Nat := leNat (s.locBytes l n)
def State.locPoisoned (s : State) (l : Loc) (n : Nat) : Bool :=
  s.unitPoisoned l.unit l.addr || s.unitPoisoned l.unit (l.addr + (n - 1))

/-! ### Faults of memory accesses (R115) -/

/-- ACCESS codes of TRAPAUX (R115). -/
inductive Acc where
  | load | store | fetch | atomic
  deriving DecidableEq, Repr
def Acc.code : Acc → Nat
  | .load => 0
  | .store => 1
  | .fetch => 2
  | .atomic => 3

/-- TRAPAUX for memory faults (R115). -/
def auxMem (reason level : Nat) (sp : Space) (a : Acc) (head : Nat) : Word :=
  BitVec.ofNat 64 (pack [(5, head), (2, a.code), (2, sp.code), (3, level), (4, reason)])

/-- A fault of an access: cause of R339, walk reason and level (15 and 7 where no walk). -/
structure MemFault where
  cause : BitVec 8
  reason : Nat
  level : Nat
  deriving DecidableEq, Repr

def cAlign : BitVec 8 := 16
def cScluster : BitVec 8 := 17
def cHrange : BitVec 8 := 18
def cGaddr : BitVec 8 := 19
def cRangestore : BitVec 8 := 20
def cRangeload : BitVec 8 := 21
def cPagefault : BitVec 8 := 22
def cFetchfault : BitVec 8 := 23
def cMemerr : BitVec 8 := 24

def MemFault.plain (c : BitVec 8) : MemFault := ⟨c, 15, 7⟩

/-- What the checks of an access give: a location with whether the translation is ready, a walk to be made, or a fault. -/
inductive Tr where
  | loc (l : Loc)
  | walk
  | fault (f : MemFault)
  deriving DecidableEq, Repr

/-! ### Page tables (R110 to R114) -/

/-- Reads the entry of level `k` for `va` in the table at `tbl`. -/
def State.pte (s : State) (tbl k va : Nat) : Nat := s.physNat (tbl + 8 * (va / 2 ^ (12 + 9 * k) % 512)) 8
def pteAddr (tbl k va : Nat) : Nat := tbl + 8 * (va / 2 ^ (12 + 9 * k) % 512)

/-- Fields of a page-table entry (R111). -/
def pteBit (e i : Nat) : Bool := e / 2 ^ i % 2 = 1
def ptePpn (e : Nat) : Nat := e / 4096 % 2 ^ 40

/-- Whether the home agent answers the read of a table entry from die `d` with its bytes: the address is in the map, the line is not poisoned and
the route to it has not been lost (R112, R389). -/
def State.entryReads (s : State) (d : DieId) (a : Nat) : Bool :=
  s.mapped a && !s.physPoisoned a && !s.routeLost 4 d (dieOfPa a)

/-- A walk from level `k` down for die `d` (R112); `fetch` takes the rule of R117. The error carries reason and level. Two choices are the
model's: of several conditions that one entry breaks, the first in the order written here gives the reason (log 54), and in a 64 KiB
group whose 16 entries differ the translation uses the entry that the address indexes, which R113 allows as any other (log 55). -/
def State.walk (s : State) (d : DieId) (fetch : Bool) (acc : Acc) (va : Nat) : Nat → Nat → Except (Nat × Nat) TlbEnt
  | tbl, k =>
    let a := pteAddr tbl k va
    if !s.entryReads d a then .error (5, k)
    else
      let e := s.pte tbl k va
      if !pteBit e 0 then .error (0, k)
      else if e / 2 ^ 52 ≠ 0 || e / 64 % 64 ≠ 0 then .error (2, k)
      else if pteBit e 1 then
        if k > 2 || (fetch && k = 0) then .error (3, k)
        else if pteBit e 5 && k ≠ 0 then .error (2, k)
        else
          let bits := if k = 0 then (if pteBit e 5 then 16 else 12) else 12 + 9 * k
          if (ptePpn e * 4096) % 2 ^ bits ≠ 0 then .error (4, k)
          else if !(match acc with | .fetch => pteBit e 4 | .load => pteBit e 2 | _ => pteBit e 3) then .error (1, k)
          else .ok ⟨va / 2 ^ bits * 2 ^ bits, bits, ptePpn e * 4096, pteBit e 2, pteBit e 3, pteBit e 4⟩
      else
        match k with
        | 0 => .error (3, 0)
        | k' + 1 =>
          if fetch && k = 1 then .error (3, k)
          else if pteBit e 2 || pteBit e 3 || pteBit e 4 || pteBit e 5 then .error (2, k)
          else s.walk d fetch acc va (ptePpn e * 4096) k'

/-- A walk from DPTROOT or IPTROOT (R110, R117). -/
def State.walkRoot (s : State) (d : DieId) (root : Word) (fetch : Bool) (acc : Acc) (va : Nat) : Except (Nat × Nat) TlbEnt :=
  if root.getLsbD 0 then s.walk d fetch acc va (root.toNat / 4096 % 2 ^ 40 * 4096) 4 else .error (0, 4)

/-- Whether the home agents hold the accesses to a line: a commit, or the commit of an irrevocable switch, is under way on it (R319, R320). -/
def State.lineCommits (s : State) (line : Nat) : Bool :=
  s.shadow.any fun e => e.line = line && e.settleAt.isNone && ((s.launchAt e.launch).st = .committing || (s.launchAt e.launch).switching)

/-- Addresses of the entries that a walk reads, from level `k` down. -/
def State.walkReads (s : State) (d : DieId) (va : Nat) : Nat → Nat → List Nat
  | tbl, k =>
    let a := pteAddr tbl k va
    let e := s.pte tbl k va
    if !s.entryReads d a || !pteBit e 0 || pteBit e 1 then [a]
    else
      match k with
      | 0 => [a]
      | k' + 1 => a :: s.walkReads d va (ptePpn e * 4096) k'

/-- Addresses of the entries that a walk from a root reads. -/
def State.rootReads (s : State) (d : DieId) (root : Word) (va : Nat) : List Nat :=
  if root.getLsbD 0 then s.walkReads d va (root.toNat / 4096 % 2 ^ 40 * 4096) 4 else []

/-- Nanoseconds that the entry reads of a walk take: one read per level at G latency (R114). -/
def State.walkNanos (s : State) (n : HartId) (root : Word) (va : Nat) : Nat :=
  (s.rootReads (dieOf n) root va).foldl (fun t a => t + s.gNanos (dieOf n) none a) 0

/-- The same in cycles, rounded as a whole (R6). -/
def State.walkCycles (s : State) (n : HartId) (root : Word) (va : Nat) : Nat := nsCycles (s.walkNanos n root va)

/-- Whether a commit holds an entry read of a walk (R320). -/
def State.walkHeld (s : State) (n : HartId) (root : Word) (va : Nat) : Bool :=
  (s.rootReads (dieOf n) root va).any fun a => s.lineCommits (a / 64)

def tlbFind (l : List TlbEnt) (va : Nat) : Option TlbEnt := l.find? fun e => va / 2 ^ e.bits = e.base / 2 ^ e.bits
def TlbEnt.pa (e : TlbEnt) (va : Nat) : Nat := e.frame + va % 2 ^ e.bits

/-- Places a translation in a buffer of `cap` entries; a full buffer loses an entry of the device's choosing (R114). -/
def tlbPut (cap : Nat) (pick : Nat) (l : List TlbEnt) (e : TlbEnt) : List TlbEnt :=
  let l := l.filter fun x => x.base ≠ e.base
  if l.length < cap then l ++ [e] else (l.eraseIdx (pick % cap)) ++ [e]

/-! ### Ranges (R109, R147) -/

/-- R108: bits 63:57 equal bit 56. -/
def canonical (a : Word) : Bool := (a.setWidth 57).signExtend 64 = a

def rangeHit (l : List Range) (va : Nat) : Option Range := l.find? fun r => decide (r.base ≤ va ∧ va < r.base + r.len)

/-- The location that a hit of a range gives, by its class (R109). -/
def rangeLoc (launch : Nat) (r : Range) (va : Nat) : Loc :=
  let pa := r.pa + (va - r.base)
  match r.xm with
  | some m => ⟨.remote m, pa⟩
  | none =>
    match r.cls with
    | .rw | .wo => ⟨.shadow launch, pa⟩
    | .nt => ⟨if isWindow pa then .window else .place, pa⟩
    | .snap => ⟨.snap launch, pa⟩
    | .ro => ⟨.hbm, pa⟩

/-- A location whose physical address is outside the map ends in an error (R381). -/
def State.checkMap (s : State) (l : Loc) : Loc :=
  match l.unit with
  | .remote _ => if l.addr < hbmEnd then l else ⟨.error, l.addr⟩
  | .window => l
  | _ => if s.mapped l.addr then l else ⟨.error, l.addr⟩

/-- Translation of a G address on core `c` for the launch (R108, R109, R147). -/
def State.trG (s : State) (c : CoreId) (launch : Nat) (acc : Acc) (e : Word) : Tr :=
  let k := s.coreAt c
  let va := e.toNat
  if !canonical e then .fault (.plain cGaddr)
  else
    match rangeHit k.ranges va with
    | some r =>
      let ok := Tr.loc (s.checkMap (rangeLoc launch r va))
      match acc, r.cls with
      | .load, .wo => .fault (.plain cRangeload)
      | .load, _ => ok
      | .store, .ro | .store, .snap => .fault (.plain cRangestore)
      | .store, _ => ok
      | .atomic, .rw | .atomic, .nt => ok
      | .atomic, .wo => .fault (.plain cRangeload)
      | _, _ => .fault (.plain cRangestore)
    | none =>
      match rangeHit k.sysr va with
      | some r =>
        match acc, r.cls with
        | .load, .wo => .fault (.plain cRangeload)
        | .load, _ => .loc (s.checkMap (rangeLoc launch r va))
        | _, _ => .fault (.plain cRangestore)
      | none =>
        match acc with
        | .load =>
          match tlbFind k.dtlb va with
          | some t => if t.r then .loc (s.checkMap ⟨.hbm, t.pa va⟩) else .fault ⟨cPagefault, 1, (t.bits - 12) / 9⟩
          | none => .walk
        | _ => .fault (.plain cRangestore)

/-! ### Spaces (R104 to R108) -/

/-- Bytes of a launch's scratchpad allocation in a cluster: none where it holds none (R105). -/
def State.spadSize (s : State) (c : ClusterId) : Nat := 2 ^ (s.clusterAt c).spadBits

/-- The H allocation of a launch on a die; of size 0 where there is none (R106). -/
def State.halloc (s : State) (d : DieId) (launch : Nat) : HAlloc := SMap.look (⟨0, Ram.empty, []⟩ : HAlloc) (s.dieAt d).sram launch

/-- The checks of one access of `size` bytes in the order of R115, on behalf of hart `n`. -/
def State.translate (s : State) (n : HartId) (launch : Nat) (sp : Space) (acc : Acc) (size : Nat) (e : Word) : Tr :=
  let at0 := fun t : Tr => match t with
    | .loc l => .loc (s.reach n l)
    | x => x
  if e.toNat % size ≠ 0 then .fault (.plain cAlign)
  else
    match sp with
    | .t => .loc ⟨.tcm (coreOf n), e.toNat % 2 ^ 18⟩
    | .s =>
      let c := e.toNat / 2 ^ 23 % 32
      if (s.clusterAt c).launch = some launch then at0 (.loc ⟨.spad c, e.toNat % 2 ^ 23 % s.spadSize c⟩)
      else .fault (.plain cScluster)
    | .h =>
      if e.toNat + size - 1 < (s.halloc (dieOf n) launch).size then .loc ⟨.sram (dieOf n) launch, e.toNat⟩
      else .fault (.plain cHrange)
    | .g => at0 (s.trG (coreOf n) launch acc e)

/-- Whether an access to a location is held at its home agent by a commit under way (R320). -/
def State.lineHeld (s : State) (l : Loc) : Bool := l.unit.isG && s.lineCommits (l.addr / 64)

/-! ### Walks of the engines -/

/-- Entries of the data and instruction translation buffers (R114). -/
def dtlbSize : Nat := 512
def itlbSize : Nat := 64

/-- Translates one access on behalf of hart `n`, walking the tables at once where the buffer misses: the location, the
cycles of the walk, and the state with the translation placed (R112, R114). -/
def State.resolve (s : State) (n : HartId) (launch : Nat) (sp : Space) (acc : Acc) (size : Nat) (e : Word) :
    Except MemFault (Loc × Nat) × State :=
  match s.translate n launch sp acc size e with
  | .loc l => (.ok (l, 0), s)
  | .fault f => (.error f, s)
  | .walk =>
    let root := (s.coreAt (coreOf n)).dptroot
    match s.walkRoot (dieOf n) root false acc e.toNat with
    | .error (r, k) => (.error ⟨cPagefault, r, k⟩, s)
    | .ok t =>
      let s' := s.updCoreAt (coreOf n) fun k => { k with dtlb := tlbPut dtlbSize (Config.victim s.now) k.dtlb t }
      (.ok (s.reach n (s.checkMap ⟨.hbm, t.pa e.toNat⟩), s.walkCycles n root e.toNat), s')

/-- Translates a list of accesses in order: their locations and the cycles of their walks, or the first failing address. -/
def State.resolveAll (s : State) (n : HartId) (launch : Nat) (sp : Space) (acc : Acc) :
    List (Word × Nat) → Except (MemFault × Word) (List Loc × Nat) × State
  | [] => (.ok ([], 0), s)
  | (e, size) :: r =>
    match s.resolve n launch sp acc size e with
    | (.error f, s1) => (.error (f, e), s1)
    | (.ok (l, c), s1) =>
      match s1.resolveAll n launch sp acc r with
      | (.ok (ls, c'), s2) => (.ok (l :: ls, c + c'), s2)
      | x => x

/-- Whether a commit holds one of an engine's accesses, or the entry reads of its walk (R320). -/
def State.reqsHeld (s : State) (n : HartId) (launch : Nat) (sp : Space) (acc : Acc) (reqs : List (Word × Nat)) : Bool :=
  reqs.any fun x =>
    (match s.translate n launch sp acc x.2 x.1 with
     | .walk => s.walkHeld n (s.coreAt (coreOf n)).dptroot x.1.toNat
     | _ => false) ||
    (match (s.resolve n launch sp acc x.2 x.1).1 with
     | .ok (l, _) => s.lineHeld l
     | .error _ => false)

/-- The first address of an engine's accesses whose translation ends in a page fault (R241). -/
def State.reqsUnmapped (s : State) (n : HartId) (launch : Nat) (sp : Space) (acc : Acc) (reqs : List (Word × Nat)) : Option Word :=
  match (s.resolveAll n launch sp acc reqs).1 with
  | .error (f, e) => if f.cause = cPagefault then some e else none
  | .ok _ => none

/-! ### Extents (R237, R246) -/

/-- Offsets at which the checks of an extent can change: its start, the clusters and ranges it crosses, and the ends of the
H allocation and of the canonical addresses. -/
def State.extentCuts (s : State) (n : HartId) (launch : Nat) (sp : Space) (base len : Nat) : List Nat :=
  let k := s.coreAt (coreOf n)
  let at0 := fun a : Nat => if base ≤ a ∧ a < base + len then [a - base] else []
  let raw :=
    match sp with
    | .t => []
    | .s => (List.range (len / 2 ^ 23 + 1)).flatMap fun j => at0 ((base / 2 ^ 23 + 1 + j) * 2 ^ 23)
    | .h => at0 (s.halloc (dieOf n) launch).size
    | .g => ((k.ranges ++ k.sysr).flatMap fun r : Range => at0 r.base ++ at0 (r.base + r.len)) ++ at0 (2 ^ 56) ++ at0 (2 ^ 64)
  (raw.foldl insertSorted [0])

/-- The first failing byte of an extent, checked for its space and range (R104 to R109) in ascending order. -/
def State.checkExtent (s : State) (n : HartId) (launch : Nat) (sp : Space) (acc : Acc) (base : Word) (len : Nat) :
    Option (MemFault × Word) :=
  (s.extentCuts n launch sp base.toNat len).findSome? fun o =>
    let e := base + BitVec.ofNat 64 o
    match s.translate n launch sp acc 1 e with
    | .fault f => if f.cause = cPagefault then none else some (f, e)
    | _ => none

end Sys2Proof.Machine
end

