-- ==== Sys2Proof/Machine/Ops.lean ====
section
/-! DEFINITION. The named operations: results of operations, guards, the history buffer, checkpoints, rollback, and taking a trap and returning from one (R37, R39, R98, R330 to R344). -/

namespace Sys2Proof.Machine

/-! ### Results in flight (R37, R66, R98) -/

def allBits : BitVec 256 := BitVec.allOnes 256

/-- Bits of a destination that operations of the current bundle at head indices above `head` have written. -/
def Bundle.above (b : Bundle) (d : Dst) : BitVec 256 :=
  b.wrote.foldl (fun m w => if w.1 = d && b.head < w.2.2 then m ||| w.2.1 else m) 0

/-- Appends a result of the current operation that takes effect `lat` cycles after now; of two results of one bundle for
the same bits, the one of the higher head index stays (R37), also where it has taken effect already. -/
def State.push (d : Dst) (v sel : BitVec 256) (poi : Bool) (lat : Nat) (s : State) : State :=
  let c := s.cycle
  s.updHart fun h =>
    let same := fun w : PendW => w.ser = h.ser && w.dst = d
    let sel := sel &&& ~~~(h.bun.above d)
    let older := h.wq.map fun w => if same w && w.head < h.bun.head then { w with sel := w.sel &&& ~~~sel } else w
    { h with
      wq := older ++ [⟨d, v, sel, poi, c + lat, h.ser, h.bun.head⟩]
      bun := { h.bun with wrote := h.bun.wrote ++ [(d, sel, h.bun.head)] } }

/-- A scalar result; a write to x0 is discarded (R46). -/
def State.putX (xd : XReg) (v : Word) (poi : Bool) (lat : Nat) (s : State) : State :=
  if xd = 0 then s else s.push (.x xd) (v.setWidth 256) allBits poi lat

/-- A predicate result; a write to p0 is discarded (R46). -/
def State.putP (pd : PReg) (b : Bool) (poi : Bool) (lat : Nat) (s : State) : State :=
  if pd = 0 then s
  else s.push .pred (if b then BitVec.twoPow 256 pd.val else 0) (BitVec.twoPow 256 pd.val) poi lat

/-- The two results of a compare (R77). -/
def State.putP2 (pd pc : PReg) (b poi : Bool) (lat : Nat) (s : State) : State :=
  (s.putP pd b poi lat).putP pc (!b) poi lat

/-- A mask result; a write to m0 is discarded (R46). -/
def State.putM (md : MReg) (v : Mask) (poi : Bool) (lat : Nat) (s : State) : State :=
  if md = 0 then s else s.push (.mask md) v allBits poi lat

/-- A system register result, in force for the next bundle (R37, R356). -/
def State.putSys (r : SysReg) (v : Word) (s : State) : State := s.push (.sys r) (v.setWidth 256) allBits false 1

/-- Sets bit `i` of a mark word to `b`. -/
def markBit {n : Nat} (m : BitVec n) (i : Nat) (b : Bool) : BitVec n :=
  if b then m ||| BitVec.twoPow n i else m &&& ~~~(BitVec.twoPow n i)

/-- A result written into a register set. -/
def Regs.put (r : Regs) (w : PendW) : Regs :=
  match w.dst with
  | .x d => if w.sel = 0 then r else { r with x := r.x.set d.val (w.val.setWidth 64), xPoi := markBit r.xPoi d.val w.poi }
  | .pred =>
    let sel := w.sel.setWidth 16
    { r with
      p := (r.p &&& ~~~sel) ||| (w.val.setWidth 16 &&& sel)
      pPoi := if w.poi then r.pPoi ||| sel else r.pPoi &&& ~~~sel }
  | .mask d =>
    if w.sel = 0 then r
    else
      { r with
        m := r.m.set d.val ((r.m.get d &&& ~~~w.sel) ||| (w.val &&& w.sel))
        mPoi := markBit r.mPoi d.val (w.poi || (w.sel ≠ allBits && r.mPoi.getLsbD d.val)) }
  | .sys k =>
    if w.sel = 0 then r
    else
      let v : Word := w.val.setWidth 64
      let sel : Word := w.sel.setWidth 64
      match k with
      | .vl => { r with vl := v }
      | .fpmode => { r with fpmode := v }
      | .fpflags => { r with fpflags := v }
      | .vflags => { r with vflags := (r.vflags &&& ~~~sel) ||| (v &&& sel) }
      | .rspill => { r with rspill := v }
      | .crec => { r with crec := v }
      | .livemask => { r with livemask := v }
      | .fscope => { r with fscope := v }
      | .sidx => { r with sidx := v }
      | .stepcnt => { r with stepcnt := v }
      | _ => r

/-- The registers outside the duplicate set that a result may name (R341). -/
def HartSys.put (r : HartSys) (w : PendW) : HartSys :=
  if w.sel = 0 then r
  else
    match w.dst with
    | .sys .epc => { r with epc := w.val.setWidth 64 }
    | .sys .tscratch0 => { r with ts0 := w.val.setWidth 64 }
    | .sys .tscratch1 => { r with ts1 := w.val.setWidth 64 }
    | _ => r

/-- Writes one result; one of a bundle before the last completed checkpoint goes into the duplicate set as well (R434). -/
def Hart.write (h : Hart) (w : PendW) : Hart :=
  { h with r := h.r.put w, dup := if w.ser ≤ h.ckptSer then h.dup.put w else h.dup, sys := h.sys.put w }

/-- Writes the results whose cycle has come (R98), but for those in the snapshot buffer (R347). -/
def Hart.settle (c : Nat) (h : Hart) : Hart :=
  if h.drain ≠ .no then h else
  let ready := fun w : PendW => decide (w.due ≤ c)
  let h' := (h.wq.filter ready).foldl Hart.write h
  { h' with wq := h.wq.filter fun w => !ready w }

def State.settleHart (n : HartId) (s : State) : State := s.updHartAt n (Hart.settle (s.cycleAt (coreOf n)))

/-! ### The history buffer (R334, R436) -/

/-- Entries of one hart. -/
def Core.histOf (k : Core) (hart : Bool) : Nat := (k.hist.filter fun e => e.hart = hart).length

def Core.hasHist (k : Core) (hart : Bool) (g : Nat) : Bool := k.hist.any fun e => e.hart = hart && e.group = g

/-- Groups that a writer of the hart would have to record. -/
def Core.unrecorded (k : Core) (hart : Bool) (gs : List Nat) : List Nat := gs.eraseDups.filter fun g => !k.hasHist hart g

/-- Records the old contents of element groups that hold no entry of the hart; a buffer of 192 entries or more asks for a
checkpoint of every hart that holds some (R334, R436). -/
def Core.record (k : Core) (hart : Bool) (gs : List Nat) : Core :=
  let l := k.hist ++ (k.unrecorded hart gs).map (fun g => ⟨hart, g, (groupCells g).map k.cell, false⟩)
  { k with hist := if 192 ≤ l.length then l.map fun e => { e with asked := true } else l }

/-- Applies a write that issued before its hart's checkpoint to the entries that later writers recorded (R434). -/
def Core.patchHist (k : Core) (cells : List (Nat × GCell)) : Core :=
  { k with hist := k.hist.map fun e =>
      { e with old := cells.foldl (fun o kv => if groupOf kv.1 = e.group then o.set (kv.1 % 128) kv.2 else o) e.old } }

/-- Restores a hart's groups and empties its entries. -/
def Core.restoreHist (k : Core) (hart : Bool) : Core :=
  let mine := k.hist.filter fun e => e.hart = hart
  let k' := mine.foldl (fun k e => k.setCells ((groupCells e.group).zip e.old)) k
  { k' with hist := k.hist.filter fun e => e.hart ≠ hart }

/-! ### Code objects (R365) -/

def slotIndex (handle : Nat) : Nat := handle % 4096
/-- The loaded object that a handle names (R365). -/
def State.codeSlot (s : State) (p : PartId) (handle : Nat) : Option Slot :=
  let k := SMap.look Slot.reset (s.partAt p).slots (slotIndex handle)
  if k.loaded && k.gen = handle / 4096 && handle ≠ 0 then some k else none
/-- The base of a launch's code section in the instruction address space. -/
def State.codeBase (s : State) (launch : Nat) : Nat :=
  let l := s.launchAt launch
  (SMap.look Slot.reset (s.partAt l.part).slots (slotIndex l.rc.code)).cbase

/-! ### Operand queues under checkpoints (R218) -/

/-- A completed checkpoint releases tentative entries and frees popped ones up to serial `ser`, but for those of an operation that waits for
its recheck (R271). -/
def Queue.atCkpt (q : Queue) (ser now : Nat) (re : Nat → Bool) : Queue :=
  let freed := fun e : QEnt => e.popped && e.popFired && (match e.popSer with | some p => decide (p ≤ ser) && !re p | none => true)
  let rel := fun e : QEnt =>
    match e.tent with
    | some t => if t ≤ ser then { e with tent := none, relAt := now } else e
    | none => e
  { q with ents := (q.ents.filter fun e => !freed e).map rel }

/-- A rollback discards tentative entries and returns those popped after the checkpoint. Kept entries stay in their slots: the next push
follows the last of them, or takes the place of the first discarded one where none is kept (R218, R253). -/
def Queue.rollback (q : Queue) (ser : Nat) : Queue :=
  let keep := q.ents.filter fun e => match e.tent with | some t => decide (t ≤ ser) | none => true
  { q with
    next :=
      if keep.length = q.ents.length then q.next
      else match keep.getLast?, q.ents with
        | some e, _ => e.slot + 1
        | none, e :: _ => e.slot
        | none, [] => q.next
    ents := keep.map fun e => match e.popSer with
      | some p => if ser < p then { e with popped := false, popSer := none, popFired := false } else e
      | none => e }

/-! ### Rollback (R337, R100, R218, R270) -/

/-- Cancels what the hart's bundles after the checkpoint left in its core, and answers the number of restored groups. -/
def Core.rollback (k : Core) (hart : Bool) (ser : Nat) : Core :=
  let young := fun (h : Bool) (n : Nat) => h = hart && decide (ser < n)
  { k.restoreHist hart with
    eng := k.eng.filter fun e => !young e.hart e.ser
    vq := k.vq.filter fun w => !young w.hart w.ser
    qst := k.qst.filter fun b => !young b.hart b.ser
    recheck := k.recheck.filter fun e => !young e.hart e.ser
    queues := k.queues.map fun q => if q.owner = hart then q.rollback ser else q }

/-- Restores the hart to its last checkpoint (R337). Timed requests after it are discarded, recorded landings are re-armed
(R100), withheld stores and unsent atomics are dropped, and results of bundles before it are written at once (R434). -/
def Hart.rollback (h : Hart) : Hart :=
  let dup := (h.wq.filter fun w => w.ser ≤ h.ckptSer).foldl (fun r w => r.put w) h.dup
  { h with
    r := dup, dup := dup, fence := h.dupFence, wq := [], xl := [], wh := [], atoms := [], rest := [], histWait := [], bundles := 0, ck := none
    land := (h.land.filter fun l => l.ser ≤ h.ckptSer).map fun l => { l with landed := false }
    rearm := true
    drain := if h.drain = .resumed then .resumed else .no
    held := none
    time := { h.time with qcfg := none }
    bun := Bundle.none
    fetch := { h.fetch with st := .idle, entered := none, xferFrom := none, welkinTarget := false } }

def State.rollback (n : HartId) (s : State) : State :=
  let ser := (s.hartAt n).ckptSer
  (s.updCoreAt (coreOf n) fun k => k.rollback (slotOf n) ser).updHartAt n Hart.rollback

/-! ### Trap causes and destinations (R339) -/

def cIlline : BitVec 8 := 1
def cIllop : BitVec 8 := 2
def cBundle : BitVec 8 := 3
def cTarget : BitVec 8 := 4
def cHalfown : BitVec 8 := 5
def cSysstate : BitVec 8 := 6
def cRasfull : BitVec 8 := 8
def cRetempty : BitVec 8 := 9
def cSelfault : BitVec 8 := 32
def cAccbusy : BitVec 8 := 33
def cQform : BitVec 8 := 34
def cBadshape : BitVec 8 := 35
def cStreambusy : BitVec 8 := 36
def cTilestate : BitVec 8 := 37
def cCopylen : BitVec 8 := 38
def cNorec : BitVec 8 := 48
def cSuspdepth : BitVec 8 := 49
def cGridlive : BitVec 8 := 50
def cBadrec : BitVec 8 := 51
def cBadfut : BitVec 8 := 52
def cFuttwice : BitVec 8 := 53
def cBadscope : BitVec 8 := 54
def cBadlaunch : BitVec 8 := 64
def cTxabort : BitVec 8 := 65
def cShadowfull : BitVec 8 := 66
def cSnaplost : BitVec 8 := 67
def cCodegone : BitVec 8 := 68
def cCancel : BitVec 8 := 69
def cReset : BitVec 8 := 70
def cPoison : BitVec 8 := 80
def cErrpoison : BitVec 8 := 81
def cRecheck : BitVec 8 := 82
def cFenced : BitVec 8 := 83
def cSramerr : BitVec 8 := 84
def cSwtrap : BitVec 8 := 96
def cBreak : BitVec 8 := 97

/-- Destinations of a trap (R339). -/
inductive Dest where
  | handler | welkin | abort
  deriving DecidableEq, Repr

/-- The destination of a cause (R339, R281); `welkin` marks a TARGET or BADREC that R43 or R279 sends to the Welkin core. -/
def TrapRec.dest (t : TrapRec) : Dest :=
  let c := t.cause.toNat
  if t.welkin then .welkin
  else if (22 ≤ c && c ≤ 24) || c = 32 || c = 80 || c = 97 then .welkin
  else if (65 ≤ c && c ≤ 70) || c = 81 || c = 83 || c = 84 then .abort
  else .handler

/-- MEMERR and a fenced core or SRAM error may be retried (R321, R345). -/
def retryCause (c : BitVec 8) : Bool := c = cMemerr || c = cFenced || c = cSramerr

/-! ### Taking a trap (R341 to R344) -/

/-- The four trap registers (R340). -/
def Hart.setTrapRegs (h : Hart) (t : TrapRec) : Hart := { h with sys := { h.sys with tr := ⟨t.cause, t.pc, t.info, t.aux⟩ } }

/-- Aborts the launch of hart `n` with a trap as its cause (R322, R343). -/
def State.trapAbort (n : HartId) (t : TrapRec) (s : State) : State :=
  let s := if t.cause = cSelfault then s.log (dieOf n) .selector t.cause.toNat (s.unitOf n) t.info.toNat 0 else s
  (s.updHartAt n fun h => { h with mode := .stopped }).requestAbort (s.hartAt n).launchId t.cause.toNat 0 t.pc t.info
    (retryCause t.cause)

/-- The core cycle at which the handler's first bundle may issue, `g` element groups restored (R338). -/
def handlerCycle (c g : Nat) : Nat := c + 12 + ceilDiv g 4

/-- Enters the launch's handler (R341): EPC := CKPTPC, INH := 1, a checkpoint at the handler's first bundle, and the PC at
the code base plus TRAP. -/
def State.enterHandler (n : HartId) (t : TrapRec) (g : Nat) (s : State) : State :=
  let l := s.launchAt (s.hartAt n).launchId
  let pc : Word := BitVec.ofNat 64 (s.codeBase (s.hartAt n).launchId + l.rc.trap)
  let at0 := handlerCycle (s.cycleAt (coreOf n)) g
  s.updHartAt n fun h =>
    { h with
      sys := { h.sys with epc := h.sys.ckptpc }
      r := { h.r with inh := true }
      pc := pc
      ck := some ⟨pc, h.ser, at0, 0, .go, false⟩
      time := { h.time with nextIssue := at0 }
      fetch := { h.fetch with xferFrom := some t.pc, welkinTarget := true }
      mode := .running }

/-- Takes a trap on hart `n`: the rollback, the four trap registers, and the destination (R337 to R343). A handler cause is
unhandled where the record's TRAP is all ones or the hart already runs its handler (R343). -/
def State.takeTrap (n : HartId) (t : TrapRec) (s : State) : State :=
  let h0 := s.hartAt n
  let inh := h0.r.inh
  let g := (s.coreAt (coreOf n)).histOf (slotOf n)
  let s1 := s.rollback n
  let s2 := s1.updHartAt n fun h => (h.setTrapRegs t)
  match t.dest with
  | .abort => s2.trapAbort n t
  | .welkin =>
    if t.cause = cPoison && h0.poisonRetry then
      let t' := { t with cause := cErrpoison }
      (s2.updHartAt n fun h => h.setTrapRegs t').trapAbort n t'
    else
      { (s2.updHartAt n fun h => { h with sys := { h.sys with saved := h0.sys.tr }, mode := .welkin t }) with
        outputs := s2.outputs ++ [.welkin n t] }
  | .handler =>
    if inh || (s.launchAt h0.launchId).rc.trap = 2 ^ 64 - 1 then s2.trapAbort n t else s2.enterHandler n t g

/-- A trap that the current operation raises at issue: precise, the bundle takes no effect (R38). -/
def State.raise (cause : BitVec 8) (info aux : Word) (s : State) : State :=
  let t : TrapRec := ⟨cause, s.hart.pc, info, aux, false⟩
  (s.takeTrap s.cur t).updHart fun h => { h with bun := { h.bun with trap := some t } }

/-- The head index of the current operation, where TRAPAUX gives it (R340). -/
def State.headAux (s : State) : Word := BitVec.ofNat 64 s.hart.bun.head

/-- TRAPAUX of the layout of R220: object, reason, head. -/
def auxObj (obj reason head : Nat) : Word := BitVec.ofNat 64 (pack [(5, head), (7, 0), (4, reason), (8, obj % 256)])

def State.raiseObj (cause : BitVec 8) (info : Word) (obj reason : Nat) (s : State) : State :=
  s.raise cause info (auxObj obj reason s.hart.bun.head)

/-- The hart consumes poison (R344). -/
def State.consumePoison (s : State) : State := s.raise cPoison 0 0

/-- Goes on unless a poisoned value would be consumed (R344). -/
def State.unlessPoison (b : Bool) (f : State → State) (s : State) : State := if b then s.consumePoison else f s

/-- A memory fault that the current operation raises at issue. -/
def State.raiseMem (f : MemFault) (e : Word) (sp : Space) (a : Acc) (s : State) : State :=
  s.raise f.cause e (auxMem f.reason f.level sp a s.hart.bun.head)

/-! ### Guards and halves (R19, R39, R40) -/

/-- An operation under its guard: a false guard does nothing (R40), a poisoned one is consumed (R344). -/
def guarded (h : Head) (f : State → State) (s : State) : Res :=
  .next (if s.pPoi h.g then s.consumePoison else if s.p h.g then f s else s)

/-- Half ownership (R19): MODE SOLO gives both halves to hart 0, SPLIT one to each, SHARED both to both. -/
def ownsHalf (mode : Nat) (hart half : Bool) : Bool :=
  match mode with
  | 0 => !hart
  | 1 => hart = half
  | _ => true
def State.gmode (s : State) : Nat := s.core.gmode.toNat % 4
def State.owns (s : State) (half : Bool) : Bool := ownsHalf s.gmode (slotOf s.cur) half

/-- An operation that names halves: HALFOWN whatever the guard (R19, R40). -/
def guardedHalf (h : Head) (halves : List Bool) (f : State → State) (s : State) : Res :=
  if halves.all s.owns then guarded h f s else .next (s.raise cHalfown 0 0)

/-! ### Checkpoints (R331 to R333) -/

/-- Requests a checkpoint at the boundary after the current bundle; a plain request leaves a fuller one standing. -/
def State.wantCkpt (a : AfterCkpt) (s : State) : State :=
  s.updHart fun h => { h with bun := { h.bun with ckpt := some (match h.bun.ckpt, a with | some b, .go => b | _, a => a) } }

/-- The bundle's ending checkpoint is a step boundary (R350). -/
def State.stepEnds (s : State) : State := (s.wantCkpt .go).updHart fun h => { h with bun := { h.bun with step := true } }

/-- The bundle ends with a checkpoint, which waits for a reply that comes `lat` cycles after issue (R148, R215, R281). -/
def State.awaitReply (lat : Nat) (s : State) : State :=
  let t := s.now + lat
  (s.wantCkpt .go).updHart fun h => { h with bun := { h.bun with reply := max h.bun.reply t } }

/-- Groups items by the path of their locations, keeping their order within a group. -/
def State.splitPaths {α : Type} (s : State) (loc : α → Loc) (es : List α) : List (List α) :=
  (es.map fun e => s.pathOf (loc e)).eraseDups.map fun p => es.filter fun e => s.pathOf (loc e) = p

/-- Cuts a list of items into its longest runs on one path. -/
def State.runsOf {α : Type} (s : State) (loc : α → Loc) (es : List α) : List (List α) :=
  es.foldr (fun e acc => match acc with
    | (x :: r) :: t => if s.pathOf (loc e) = s.pathOf (loc x) then (e :: x :: r) :: t else [e] :: (x :: r) :: t
    | _ => [e] :: acc) []

def State.freshId (s : State) : Nat × State := (s.fresh, { s with fresh := s.fresh + 1 })

/-- Locations that a flight acts on. -/
def FlightKind.locs : FlightKind → List Loc
  | .amo _ _ l _ _ => [l]
  | .vamo _ _ ls => ls.map fun x => x.2.1
  | .append _ _ _ l _ => [l]
  | .store es => es.map fun e => e.loc

/-- Bytes of each of a flight's locations. -/
def FlightKind.extents : FlightKind → List (Loc × Nat)
  | .amo _ w l _ _ => [(l, w)]
  | .vamo _ _ ls => ls.map fun x => (x.2.1, 4)
  | .append _ _ _ l _ => [(l, 16)]
  | .store es => es.map fun e => (e.loc, e.data.length)

/-- Sends one flight of hart `n` at the location `l` of its first access (R433): it is performed half a load's latency after it is sent, and
acknowledged after the whole (R144). The answer names it. -/
def State.sendFlight (n : HartId) (ser head : Nat) (eng : Bool) (k : FlightKind) (land : Option Nat) (l : Loc) (at0 : Nat) (acq : Bool)
    (bar : Bar) (needs : Option Nat) (err : TrapRec) (s : State) : Nat × State :=
  let lat := s.loadLatency n l
  let fl : Flight :=
    { id := s.fresh, hart := n, launch := (s.hartAt n).launchId, ser := ser, head := head, eng := eng, kind := k, land := land, sentAt := at0,
      perfAt := at0 + halfUp lat, ackAt := at0 + lat, acq := acq, bar := bar, needs := needs, wait := false, performed := false, err := err }
  (s.fresh, { s with flights := s.flights ++ [fl], fresh := s.fresh + 1 })

/-- Sends a withheld store (R125, R433): one flight for each path; with `.ORD` one for each run of elements on a path, each performed after
the one before it (R133). -/
def State.sendStore (n : HartId) (w : WStore) (s : State) : State :=
  let gs := if w.ord then s.runsOf (fun e : SElem => e.loc) w.elems else s.splitPaths (fun e : SElem => e.loc) w.elems
  (gs.foldl (fun (acc : Option Nat × State) es =>
    match es with
    | [] => acc
    | e :: _ =>
      let r := acc.2.sendFlight n w.ser w.head false (.store es) none e.loc acc.2.now false w.bar acc.1 w.err
      (if w.ord then some r.1 else none, r.2)) (none, s)).2

/-- The parts in which an atomic is sent: a vector atomic is split by path, so that each lane is performed by its own latency (R433). -/
def State.atomParts (s : State) (k : FlightKind) : List FlightKind :=
  match k with
  | .vamo a ra lanes => (s.splitPaths (fun x : Nat × Loc × Cell => x.2.1) lanes).map fun l => .vamo a ra l
  | k => [k]

/-- Sends an atomic (R146, R148, R433): it reaches its ordering point half a load's latency later, and its reply takes the latency of R146,
which, as that of a load does, includes the translation (R95, R102, log 76). -/
def State.sendAtom (n : HartId) (a : PendAtom) (s : State) : State :=
  let parts := s.atomParts a.kind
  let reply := a.kind.locs.foldl (fun m l => max m (s.now + s.atomicLatency n l - a.spent)) s.now
  let s := parts.foldl (fun s k =>
    match k.locs with
    | [] => s
    | l :: _ => (s.sendFlight n a.ser a.head false k a.land l s.now a.acq a.bar none a.err).2) s
  s.updHartAt n fun h =>
    { h with land := h.land.map fun l => if some l.id = a.land then { l with sent := true, parts := parts.length, arriveAt := reply } else l }

/-- Insertion sort, keeping the order of equal keys. -/
def insertBy {α : Type} (le : α → α → Bool) (x : α) : List α → List α
  | [] => [x]
  | y :: r => if le y x then y :: insertBy le x r else x :: y :: r
def sortBy {α : Type} (le : α → α → Bool) (l : List α) : List α := l.foldl (fun acc x => insertBy le x acc) []

/-- Program order of (bundle serial, head index) (R131). -/
def before (x y : Nat × Nat) : Bool := x.1 < y.1 || (x.1 = y.1 && x.2 ≤ y.2)

def WStore.pos (w : WStore) : Nat := posOf w.ser w.head
def PendAtom.pos (a : PendAtom) : Nat := posOf a.ser a.head
def Flight.pos (f : Flight) : Nat := posOf f.ser f.head
def Landing.pos (l : Landing) : Nat := posOf l.ser l.head

/-- Whether a landing stands for a load that reads memory through its elements. -/
def Landing.reads (l : Landing) : Bool := !l.unitOp && !l.cyc && l.kind ≠ .pref

/-- Elements of a load that have still to be performed. -/
def Landing.undone (l : Landing) : List Elem := if l.reads && l.res.isNone then l.elems.filter fun e => e.took.isNone else []

/-- Whether a flight is an atomic, which counts as a load and as a store (R144). -/
def Flight.isAtomic (f : Flight) : Bool := match f.kind with | .store _ => false | _ => true

/-- Whether every access of a hart before a program position has been performed: loads, stores and atomics (R136, R140, R240). -/
def State.doneBefore (s : State) (n : HartId) (pos : Nat) : Bool :=
  let h := s.hartAt n
  (s.flights.all fun f => f.hart ≠ n || f.eng || f.performed || pos ≤ f.pos) && (h.wh.all fun w => pos ≤ w.pos) &&
    (h.atoms.all fun a => pos ≤ a.pos) && h.land.all fun l => pos ≤ l.pos || l.undone.isEmpty

/-- Sends the withheld stores and atomics of a hart before a program position, in program order. -/
def State.releaseTo (n : HartId) (pos : Nat) (s : State) : State :=
  let h := s.hartAt n
  let ws := h.wh.filter fun w => w.pos < pos
  let as := h.atoms.filter fun a => a.pos < pos
  let all : List (Nat × (WStore ⊕ PendAtom)) := ws.map (fun w => (w.pos, .inl w)) ++ as.map fun a => (a.pos, .inr a)
  let all := sortBy (fun a b => decide (a.1 ≤ b.1)) all
  let s := all.foldl (fun s x => match x.2 with | .inl w => s.sendStore n w | .inr a => s.sendAtom n a) s
  s.updHartAt n fun h =>
    { h with wh := h.wh.filter fun w => !decide (w.pos < pos), atoms := h.atoms.filter fun a => !decide (a.pos < pos) }

/-- Sends withheld stores and atomics up to serial `ser`, in program order. -/
def State.release (n : HartId) (ser : Nat) (s : State) : State := s.releaseTo n (posOf (ser + 1) 0)

/-- The distance to a landing, or a write, that is to be made at core cycle `due`, from the boundary of a checkpoint that completes in cycle
`c` (R100, R347). -/
def Hart.distance (h : Hart) (c due : Nat) : Nat :=
  match h.drain with
  | .no => due - c
  | .since b => due - b
  | .resumed => due

/-- What a completed checkpoint does to the hart itself (R333, R100). A landing that a rollback has re-armed and whose first bundle has still to
issue keeps its recorded distance. -/
def Hart.atCkpt (c : Nat) (ck : Ckpt) (h : Hart) : Hart :=
  { h with
    dup := h.r
    dupFence := h.fence
    ckptSer := ck.ser
    land := (h.land.filter fun l => !l.landed).map fun l =>
      if l.ser ≤ ck.ser then { l with rem := some (if h.rearm then l.rem.getD 0 else h.distance c l.due) } else l
    sys := { h.sys with ckptpc := ck.pc }
    bundles := 0
    ck := none
    poisonRetry := if ck.after = .resumed then h.poisonRetry else false
    recheckRetry := if ck.after = .resumed then h.recheckRetry else false
    time := { h.time with nextIssue := max h.time.nextIssue c } }

/-- Drops the lines of an instruction cache that hold an address from `lo` up to, not including, `hi`, or all (R361). -/
def Fetch.drop (lo hi : Nat) (all : Bool) (f : Fetch) : Fetch :=
  let hit := fun a : Nat => all || (decide (lo < a + 64 ∧ a < hi)) || decide (a + 2 ^ 64 < hi)
  { f with
    icache := f.icache.filter fun e => !hit e.1
    entered := f.entered.filter fun a => !hit a
    st := match f.st with | .fill a pa d => if hit a then .idle else .fill a pa d | x => x }

/-- ICINV completes on every hart of a partition (R361). -/
def State.invalidate (p : PartId) (lo hi : Nat) (all : Bool) (s : State) : State :=
  { s with harts := s.harts.map fun e =>
      if s.partOf (dieOf e.1) = p then (e.1, { e.2 with fetch := e.2.fetch.drop lo hi all }) else e }

/-- Whether a stop request stops a hart at the step boundary that it has reached (R351). -/
def stopsHere (c : CutState) (cnt : Nat) : Bool :=
  match c with
  | .gathering _ _ => true
  | .levelling m _ _ => m ≤ cnt
  | _ => false

/-- What follows a completed checkpoint of hart `n`. -/
def State.follow (n : HartId) (a : AfterCkpt) (s : State) : State :=
  match a with
  | .go | .resumed => s
  | .icinv lo hi all => s.invalidate (s.partOf (dieOf n)) lo hi all
  | .stop => s.updHartAt n fun h => { h with mode := .stopped }
  | .trap t => s.takeTrap n t
  | a => s.updHartAt n fun h => { h with mode := .leaving a }

/-- A hart that a consistent cut has stopped goes on, with what had still to follow its checkpoint (R351). -/
def State.unhold (n : HartId) (s : State) : State :=
  let a := (s.hartAt n).held
  let s := s.updHartAt n fun h => { h with mode := .running, held := none }
  match a with
  | some a => s.follow n a
  | none => s

/-- Completes the checkpoint of hart `n` whose conditions hold (R333), and goes on as it was requested for; at a step boundary a consistent cut
may stop the hart first (R351). -/
def State.completeCkpt (n : HartId) (s : State) : State :=
  match (s.hartAt n).ck with
  | none => s
  | some ck =>
    let c := s.cycleAt (coreOf n)
    let s := s.settleHart n
    let s := s.release n ck.ser
    let s := s.updHartAt n (Hart.atCkpt c ck)
    let s := s.updCoreAt (coreOf n) fun k =>
      { k with
        hist := k.hist.filter fun e => e.hart ≠ slotOf n
        queues := k.queues.map fun q => if q.owner = slotOf n then q.atCkpt ck.ser s.now (fun p => k.recheck.any fun r => r.matrix && r.hart = q.owner && r.ser = p) else q }
    let cut := (s.launchAt (s.hartAt n).launchId).cut
    if ck.step && (s.hartAt n).stopReq && stopsHere cut (s.hartAt n).r.stepcnt.toNat then
      s.updHartAt n fun h => { h with mode := .cut, held := if ck.after = .go then none else some ck.after }
    else s.follow n ck.after

end Sys2Proof.Machine
end

