-- ==== Sys2Proof/Machine/Grid.lean ====
section
/-! DEFINITION. The grid shared by vector operations, landings and engines: in-flight writes, progress indices, busy halves, ACCBUSY, and the V slot (R178 to R187, R262, R334, R346). -/

namespace Sys2Proof.Machine

/-! ### Engine writes in flight (R182, R183, R262) -/

/-- Rows and columns of a matrix window (R256). -/
def winRow0 (w : Window) : Nat := 64 * w.row0.val
def winCol0 (w : Window) : Nat := 64 * w.col0.val
def winRows (w : Window) : Nat := Window.extent w.rs
def winCols (w : Window) : Nat := Window.extent w.cs

/-- The region that an engine operation writes: half, first row, rows, first column, columns; none for STLD and QPUSH. -/
def EngKind.region : EngKind → Option (Bool × Nat × Nat × Nat × Nat)
  | .opaBf w _ _ | .opaH w _ _ | .opaN6 w _ _ | .gzero w => some (w.half, winRow0 w, winRows w, winCol0 w, winCols w)
  | .vmt r _ seg => some (r.half, r.n.val, 1, 64 * seg.val, 64)
  | .qpop r _ _ vl => some (r.half, r.n.val, 1, 0, vl)
  | .stld .. | .qpush .. => none

/-- Whether a cell lies in a region. -/
def inRegion (g : Bool × Nat × Nat × Nat × Nat) (k : Nat) : Bool :=
  cellHalf k = g.1 && g.2.1 ≤ cellRow k && cellRow k < g.2.1 + g.2.2.1 && g.2.2.2.1 ≤ cellCol k
    && cellCol k < g.2.2.2.1 + g.2.2.2.2

/-- The cells of a region. -/
def regionCells (g : Bool × Nat × Nat × Nat × Nat) : List Nat :=
  (List.range g.2.2.1).flatMap fun i => (List.range g.2.2.2.2).map fun j => cellOf g.1 (g.2.1 + i) (g.2.2.2.1 + j)

/-- The element groups of a region. -/
def regionGroups (g : Bool × Nat × Nat × Nat × Nat) : List Nat :=
  (List.range g.2.2.1).flatMap fun i =>
    ([0, 1].filter fun j => g.2.2.2.1 < 128 * (j + 1) && 128 * j < g.2.2.2.1 + g.2.2.2.2).map fun j =>
      groupOf (cellOf g.1 (g.2.1 + i) (128 * j))

/-- Whether an engine operation will still write a cell. -/
def EngOp.willWrite (e : EngOp) (k : Nat) : Bool :=
  match e.kind.region with
  | some g => if e.written then e.late.contains k else inRegion g k && (!(e.group0 && cellCol k < 128) || e.late.contains k)
  | none => false

def Core.inFlight (k : Core) (cell : Nat) : Bool := k.eng.any fun e => e.willWrite cell

/-- Engine operations that write the half (R183); one that has written its last cell is no longer among them. -/
def Core.writersOf (k : Core) (half : Bool) : List EngOp :=
  k.eng.filter fun e => !(e.written && e.late.isEmpty) && (match e.kind.region with | some g => g.1 = half | none => false)
def Core.busy (k : Core) (half : Bool) : Bool := !(k.writersOf half).isEmpty

/-- A core without the engine operations of a bundle of a hart: a V-class operation of that bundle comes before them (R37). -/
def Core.before (k : Core) (hart : Bool) (ser : Nat) : Core := { k with eng := k.eng.filter fun e => !(e.hart = hart && e.ser = ser) }
/-- The core as the V-class operation of the current bundle finds it. -/
def State.coreV (s : State) : Core := s.core.before (slotOf s.cur) s.hart.ser

/-- Whether group `g` of a row may be read or written: the row is free, or its youngest writer has completed that group, or
does not write it (R182, R262). An operation whose row an earlier one has still to complete stays a writer of it, so that writes to one row
complete in issue order: also where the youngest has written all its cells, and the earlier one writes other columns, the row waits
(log 61). -/
def Core.rowReady (k : Core) (half : Bool) (row g : Nat) : Bool :=
  let ws := k.eng.filter fun e => match e.kind.region with
    | some r => r.1 = half && r.2.1 ≤ row && row < r.2.1 + r.2.2.1
    | none => false
  match ws.getLast? with
  | none => true
  | some e =>
    match e.kind.region with
    | some r => !(regionGroups r).contains (groupOf (cellOf half row (128 * g))) || (e.group0 && g = 0 && ws.length = 1)
    | none => true

/-- Whether a V-class write to a cell is in flight (R181). -/
def Core.vPending (k : Core) (cell : Nat) : Bool := k.vq.any fun w => w.cells.any fun c => c.1 = cell

/-- The interlocks of R181 and R182 on a vector operand of `n` elements. -/
def Core.operandReady (k : Core) (v : VOp) (n : Nat) : Bool :=
  (v.kind ≠ .row || ((List.range (if 128 < n then 2 else 1)).all fun g => k.rowReady v.half v.n.val g))
    && (k.vq.isEmpty || (List.range n).all fun i => !k.vPending (v.cell i))

/-! ### Reading and writing operands -/

/-- Element groups that an operation executes (R180). -/
def State.vGroups (s : State) : Nat := if 128 < s.vl then 2 else 1

/-- Element `i` of a vector source; one of a busy half without GRIDCHK may be unpredictable (R183). -/
def State.vread (s : State) (v : VOp) (i : Nat) : GCell :=
  let k := v.cell i
  if v.kind ≠ .row && s.coreV.inFlight k then ⟨Config.freeCell s.freeCtr k, false⟩ else s.core.cell k

/-- Element `i` of a second operand of layout VV. -/
def State.vread2 (s : State) (b : Src2) (i : Nat) : GCell :=
  match b with
  | .vec v => s.vread v i
  | .scalar x => ⟨(s.x x).setWidth 32, s.xPoi x⟩
  | .imm n => ⟨BitVec.ofNat 32 n.val, false⟩

/-- Marks cells that in-flight engine operations, but those of bundle `ser` of the hart, write as unpredictable (R183). -/
def Core.spoil (k : Core) (hart : Bool) (ser : Nat) (cells : List Nat) : Core :=
  { k with eng := k.eng.map fun e => if e.hart = hart && e.ser = ser then e else { e with spoil := e.spoil ++ cells.filter e.willWrite } }

/-- A V-class result that reaches its cells `lat` cycles after issue; it records the groups it writes (R181, R334). -/
def State.vwrite (vd : VOp) (vals : List (Nat × GCell)) (lat : Nat) (s : State) : State :=
  let k := s.coreV
  let cells := vals.map fun x => (vd.cell x.1, x.2)
  let cells := cells.map fun x => if vd.kind ≠ .row && k.inFlight x.1 then (x.1, ⟨Config.freeCell s.freeCtr x.1, false⟩) else x
  if cells = [] then s
  else
    let h := s.hart
    let w : VWrite := { id := s.fresh, hart := slotOf s.cur, ser := h.ser, op := vd, due := s.cycle + lat, cells := cells }
    { (s.updCore fun k =>
        let keys := cells.map fun x => x.1
        let k := k.record (slotOf s.cur) (keys.map groupOf)
        let k := if vd.kind = .row then k else k.spoil (slotOf s.cur) h.ser keys
        { k with vq := k.vq ++ [w] }) with
      fresh := s.fresh + 1, freeCtr := s.freeCtr + 1 }

/-- Holds the V slot for an interval (R180). -/
def State.holdV (interval : Nat) (s : State) : State :=
  let t := s.cycle + interval
  s.updHart fun h => { h with time := { h.time with vNext := t } }

/-- A rechecked V-class operation takes an entry of the recheck queue (R346). -/
def State.vRecheck (s : State) : State :=
  if s.core.rechkLevel = 0 then s
  else
    let h := s.hart
    { (s.updCore fun k => { k with recheck := k.recheck ++ [⟨s.fresh, slotOf s.cur, h.ser, false, s.cycle + 1, 1⟩] }) with
      fresh := s.fresh + 1 }

/-! ### Checks at issue (R19, R183, R184) -/

/-- GMODE.GRIDCHK (R18). -/
def State.gridchk (s : State) : Bool := s.core.gmode.getLsbD 2

/-- TRAPINFO of ACCBUSY (R184). -/
def Core.accInfo (k : Core) (half : Bool) : Word :=
  let ws := k.writersOf half
  let tag := match ws with | e :: _ => e.tag.toNat | [] => 0
  let rows := ws.filterMap fun e => e.kind.region.map fun g => g.2.1
  BitVec.ofNat 64 (pack [(8, rows.foldl min 255), (1, b01 half), (7, 0), (8, tag)])

/-- A column or diagonal operand of a busy half raises ACCBUSY with GRIDCHK = 1 (R183). An engine operation of the bundle itself makes no half
busy for its V-class operation, and none that an atomic of the bundle reads. Where operands name both halves and both are busy, TRAPINFO
names the half of the first of them in the order destination, first source, second source (log 60). -/
def State.accCheck (ops : List VOp) (f : State → State) (s : State) : State :=
  match ops.find? fun v => v.kind ≠ .row && s.coreV.busy v.half with
  | some v => if s.gridchk then s.raise cAccbusy (s.coreV.accInfo v.half) s.headAux else f s
  | none => f s

/-- An operation with vector operands: HALFOWN whatever the guard, ACCBUSY under a true guard. -/
def guardedVec (h : Head) (ops : List VOp) (f : State → State) (s : State) : Res :=
  guardedHalf h (ops.map fun v => v.half) (State.accCheck ops f) s

/-- Vector operands among the second operand of layout VV. -/
def src2Ops : Src2 → List VOp
  | .vec v => [v]
  | _ => []

end Sys2Proof.Machine
end

