-- ==== Sys2Proof/Machine/Control.lean ====
section
/-! DEFINITION. Flow of control: BR, CALL, RET, JR, CALLR, LOOP, NOP and the return-address store (R33, R34, R86 to R93). -/

namespace Sys2Proof.Machine

/-- The bundle transfers to `t`; the target is checked before its bundle issues (R34, R86). -/
def State.transfer (t : Word) (s : State) : State := s.updHart fun h => { h with bun := { h.bun with npc := some t } }

/-- What the current operation's accesses wait for under the fences before it (R135, R136, R144): `store` says that it stores, `rel` that it is
a release. -/
def State.barNow (s : State) (store rel : Bool) : Bar :=
  let f := s.hart.fence
  ⟨f.la, f.sl, if rel || (store && f.st ≠ 0) then posOf s.hart.ser s.hart.bun.head else 0⟩

/-- Bytes as the hart itself sees them: memory, then its own stores on their way, then its withheld stores of earlier
bundles (R124, R131). -/
def State.ownByte (s : State) (n : HartId) (l : Loc) : Byte × Bool :=
  let h := s.hartAt n
  let pick := fun (acc : Byte × Bool) (e : SElem) =>
    if e.loc.unit = l.unit ∧ e.loc.addr ≤ l.addr ∧ l.addr < e.loc.addr + e.data.length then
      (byteAt e.data (l.addr - e.loc.addr), e.poi) else acc
  let base := (s.unitByte l.unit l.addr, s.unitPoisoned l.unit l.addr)
  let fl := s.flights.foldl (fun acc f =>
    if f.hart = n && !f.performed then
      match f.kind with
      | .store es => es.foldl pick acc
      | _ => acc
    else acc) base
  h.wh.foldl (fun acc w => if w.ser < h.ser then w.elems.foldl pick acc else acc) fl

def State.ownBytes (s : State) (n : HartId) (l : Loc) (k : Nat) : List Byte × Bool :=
  let bs := (List.range k).map fun i => s.ownByte n ⟨l.unit, l.addr + i⟩
  (bs.map fun b => b.1, bs.any fun b => b.2)

/-- The bytes of each read of a unit operation: those that its reads have taken, or, where they were not sent apart, those that stand there. -/
def State.unitParts (s : State) (ls : List Loc) (k : Nat) : List (List Byte × Bool) :=
  match s.hart.bun.reads with
  | [] => ls.map fun l => s.ownBytes s.cur l k
  | rs => rs.map fun r => r.took.getD ([], false)

/-! ### RSPILL (R88) -/

def rspPtr (w : Word) : Nat := w.toNat % 2 ^ 19
def rspBase (w : Word) : Nat := w.toNat / 2 ^ 19 % 2 ^ 19
def rspLimit (w : Word) : Nat := w.toNat / 2 ^ 38 % 2 ^ 19
def rspWith (w : Word) (ptr : Nat) : Word := BitVec.ofNat 64 (pack [(19, ptr), (19, rspBase w), (19, rspLimit w)])

/-- Whether a value may be written to RSPILL (R88). -/
def rspillOk (w : Word) : Bool :=
  w.toNat < 2 ^ 57 && rspPtr w % 8 = 0 && rspBase w % 8 = 0 && rspLimit w % 8 = 0
    && rspBase w ≤ rspPtr w && rspPtr w ≤ rspLimit w && rspLimit w ≤ 0x40000

/-- Entries of the return-address store (R88). -/
def rasSize : Nat := 16

/-- A store of a bundle's own, as CALL's spill and SUSPEND's write-back make it: withheld like any other (R89, R125). -/
def State.withholdAt (l : Loc) (data : List Byte) (s : State) : State :=
  s.updHart fun h => { h with wh := h.wh ++ [⟨h.ser, h.bun.head, 1, s.barNow true false, true, [⟨l, data, false⟩], TrapRec.zero⟩] }

/-- Pushes the fall-through PC and transfers (R89). -/
def State.callTo (t : Word) (s : State) : State :=
  let h := s.hart
  let sp := h.r.rspill
  if h.r.ras.length < rasSize then
    (s.updHart fun h => { h with bun := { h.bun with nras := some (h.r.ras ++ [h.bun.ft]) } }).transfer t
  else if rspPtr sp = rspLimit sp then s.raise cRasfull 0 0
  else
    let s := s.withholdAt ⟨.tcm (coreOf s.cur), rspPtr sp⟩ (leBytes 8 (h.r.ras.headD 0).toNat)
    let s := s.putSys .rspill (rspWith sp (rspPtr sp + 8))
    (s.updHart fun h => { h with bun := { h.bun with nras := some (h.r.ras.drop 1 ++ [h.bun.ft]) } }).transfer t

/-- BR (R87). -/
def execBr (h : Head) (disp : BitVec 27) (hidx : Fin 32) (s : State) : Res :=
  guarded h (fun s => s.transfer (lineTarget s.hart.pc disp hidx)) s
/-- CALL (R89). -/
def execCall (h : Head) (disp : BitVec 27) (hidx : Fin 32) (s : State) : Res :=
  guarded h (fun s => s.callTo (lineTarget s.hart.pc disp hidx)) s
/-- CALLR (R89); a poisoned target is consumed (R344). -/
def execCallr (h : Head) (xa : XReg) (s : State) : Res :=
  guarded h (fun s => s.unlessPoison (s.xPoi xa) (State.callTo (s.x xa))) s

/-- Pops the newest return address, or refills it from the spill area (R90). -/
def State.returnOp (s : State) : State :=
  let h := s.hart
  let sp := h.r.rspill
  match h.r.ras.getLast? with
  | some a =>
    (s.updHart fun h => { h with bun := { h.bun with nras := some h.r.ras.dropLast } }).transfer a
  | none =>
    if rspPtr sp = rspBase sp then s.raise cRetempty 0 0
    else
      let ptr := rspPtr sp - 8
      let (bs, poi) := s.ownBytes s.cur ⟨.tcm (coreOf s.cur), ptr % 2 ^ 18⟩ 8
      s.unlessPoison poi fun s =>
        let s := s.putSys .rspill (rspWith sp ptr)
        (s.updHart fun h => { h with bun := { h.bun with slow := 4 } }).transfer (BitVec.ofNat 64 (leNat bs))

/-- RET (R90). -/
def execRet (h : Head) (s : State) : Res := guarded h State.returnOp s
/-- JR (R91). -/
def execJr (h : Head) (xa : XReg) (s : State) : Res :=
  guarded h (fun s => s.unlessPoison (s.xPoi xa) (State.transfer (s.x xa))) s
/-- LOOP (R92): decrements, and transfers while the new value is not zero. The new value takes effect one cycle after issue: the table of
R66 has no row for LOOP (log 59). -/
def execLoop (h : Head) (xa : XReg) (disp : BitVec 22) (hidx : Fin 32) (s : State) : Res :=
  guarded h (fun s => s.unlessPoison (s.xPoi xa) fun s =>
    let v := s.x xa - 1
    let s := s.putX xa v false 1
    if v = 0 then s else s.transfer (lineTarget s.hart.pc disp hidx)) s
/-- NOP (R93). -/
def execNop (h : Head) (s : State) : Res := guarded h (fun s => s) s

end Sys2Proof.Machine
end

