-- ==== Sys2Proof/Machine/Timed.lean ====
section
/-! DEFINITION. Timed requests and withheld stores: their checks, translation, landing-buffer entries and sending; LD, ST, LDX, STX, PREF and the divisions (R94 to R128, R332). -/

namespace Sys2Proof.Machine

/-! ### Translation and its reports (R115, R332) -/

/-- Cycles after issue at which an access counts as translated (R332): `n` active elements of a vector access. -/
def transCycles (sp : Space) (n : Option Nat) : Nat :=
  match sp with
  | .g => match n with
    | none => 2
    | some k => 2 + ceilDiv k 16
  | _ => 1

/-- The trap of a memory fault of the current operation (R115). -/
def State.memTrap (s : State) (f : MemFault) (e : Word) (sp : Space) (a : Acc) : TrapRec :=
  ⟨f.cause, s.hart.pc, e, auxMem f.reason f.level sp a s.hart.bun.head, false⟩

/-- Checks elements in ascending order: the locations up to the first that walks or faults. -/
inductive TrList where
  | all (ls : List Loc)
  | walk (e : Word)
  | fault (f : MemFault) (e : Word)
  deriving DecidableEq, Repr

def State.translateAll (s : State) (n : HartId) (launch : Nat) (sp : Space) (a : Acc) : List (Word × Nat) → TrList
  | [] => .all []
  | (e, size) :: r =>
    match s.translate n launch sp a size e with
    | .fault f => .fault f e
    | .walk => .walk e
    | .loc l =>
      match s.translateAll n launch sp a r with
      | .all ls => .all (l :: ls)
      | x => x

/-- Records that the current operation is translated, or faults, `cycles` after its issue; the fault is reported then, in
program order (R115, R332). -/
def State.pushXlat (cycles : Nat) (f : Option TrapRec) (s : State) : State :=
  let due := s.now + cycles
  let s' := { s with fresh := s.fresh + 1 }
  s'.updHart fun h => { h with xl := h.xl ++ [⟨s.fresh, h.ser, h.bun.head, due, false, f⟩] }

/-! ### Loads (R94 to R100, R119, R124) -/

/-- Bytes of `k` at a location that the hart's withheld stores of earlier bundles cover (R124). -/
def Hart.overlayAt (h : Hart) (l : Loc) (k : Nat) : List (Option Byte) × Bool :=
  let es := (h.wh.filter fun w => w.ser < h.ser).flatMap fun w => w.elems
  let get := fun i => es.foldl (fun (acc : Option Byte × Bool) e =>
    if e.loc.unit = l.unit ∧ e.loc.addr ≤ l.addr + i ∧ l.addr + i < e.loc.addr + e.data.length then
      (some (byteAt e.data (l.addr + i - e.loc.addr)), e.poi) else acc) (none, false)
  let bs := (List.range k).map get
  (bs.map fun b => b.1, bs.any fun b => b.2)

/-- One element of a load before translation: its index, address and size. -/
abbrev Req := Nat × Word × Nat

/-- The address that a fault of a request reports: that of the element, or block, one of whose accesses fails at `e` (R210). -/
def reqAddr (reqs : List Req) (e : Word) : Word :=
  match reqs.find? fun r => r.2.1 = e with
  | some r => ((reqs.find? fun q => q.1 = r.1).map fun q => q.2.1).getD e
  | none => e

def mkElem (h : Hart) (r : Req) (l : Option Loc) : Elem :=
  match l with
  | some l =>
    let (own, poi) := h.overlayAt l r.2.2
    ⟨r.1, r.2.1, r.2.2, some l, own, poi, 0, none⟩
  | none => ⟨r.1, r.2.1, r.2.2, none, List.replicate r.2.2 none, false, 0, none⟩

/-- Whether a landing writes nothing and is never waited for (R99, R126). -/
def Landing.silent (l : Landing) : Bool :=
  match l.kind with
  | .scalar r _ | .quotient r | .header r _ | .tail r => r = 0
  | .pref => true
  | _ => false

/-- Whether loads of bundle `ser` are held back by an LDAQ, or an acquiring atomic, whose data has not arrived (R135, R145). -/
def Hart.acquireHolds (h : Hart) (ser : Nat) : Bool := h.land.any fun l => l.gate && l.ser < ser && !l.arrived

/-- MEMERR of a timed request (R101, R115): the address of its first element that ends in an error, else of its first. -/
def Landing.memerr (l : Landing) (e : ReqError) : TrapRec :=
  let x := (l.elems.find? fun x => x.loc.any Loc.bad).getD (l.elems.headD ⟨0, 0, 0, none, [], false, 0, none⟩)
  let va := ((l.elems.find? fun y => y.idx = x.idx).map fun y => y.va).getD x.va
  ⟨cMemerr, l.pc, va, auxMem (reqReason e) 7 l.space (if l.unitOp then .atomic else .load) l.head, false⟩

/-- The unloaded latency of a request: that of its farthest element. -/
def State.reqLatency (s : State) (n : HartId) (es : List Elem) : Nat :=
  es.foldl (fun m e => match e.loc with | some l => max m (s.loadLatency n l) | none => m) 0

/-- Sends a load at tick `t0` (R433): each element reaches its own ordering point half its latency later, and the data arrives after the
whole latency of the farthest. -/
def State.sendLoad (n : HartId) (t0 : Nat) (l : Landing) (s : State) : Landing :=
  { l with
    sent := true
    elems := l.elems.map fun e => { e with perfAt := t0 + (match e.loc with | some x => halfUp (s.loadLatency n x) | none => 0) }
    arriveAt := t0 + s.reqLatency n l.elems + l.extra }

/-- The error of elements that name a location outside the map or behind a lost link (R101, R381, R389). -/
def badElem (es : List Elem) : Option ReqError := ((es.find? fun e => e.loc.any Loc.bad).bind fun e => e.loc).map badError

/-- Appends a landing-buffer entry group of the current hart. -/
def State.addLanding (l : Landing) (s : State) : State := s.updHart fun h => { h with land := h.land ++ [l] }

/-- A landing-buffer entry group of the current operation, for which nothing has happened yet. -/
def State.newLanding (s : State) (kind : LandKind) (sp : Space) (dist slots : Nat) (groups : List Nat) : Landing :=
  { id := s.fresh, ser := s.hart.ser, pc := s.hart.pc, head := s.hart.bun.head, kind := kind, issued := s.now, space := sp, elems := [],
    due := s.hart.bun.at0 + max dist 1, slots := slots, extra := 0, sent := false, acq := false, gate := false, bar := Bar.none,
    walking := false, unitOp := false, parts := 0, got := [], arriveAt := 0, cyc := false, res := none, drange := false, arrived := false,
    rem := none, landed := false, failed := none, groups := groups, clash := [] }

/-- Issues a timed load of the current hart (R94, R119): `reqs` are its elements in ascending order, `slots` its
landing-buffer entries, `groups` the element groups it will write, `vec` the active elements of a vector access; `acq` and `gate` make it an
acquire (R135, R145). A load that follows a store still withheld to the same scratchpad or TCM enters its port first: R433 sends the
load now and the store at its checkpoint (log 56). -/
def State.timedLoad (kind : LandKind) (sp : Space) (reqs : List Req) (dist slots : Nat) (acq gate : Bool) (groups : List Nat)
    (vec : Option Nat) (extra : Nat) (s : State) : State :=
  let h := s.hart
  let l0 : Landing :=
    { s.newLanding kind sp dist slots groups with extra := extra, acq := acq, gate := gate, bar := s.barNow false false }
  match s.translateAll s.cur h.launchId sp .load (reqs.map fun r => r.2) with
  | .fault f e => s.pushXlat (transCycles sp vec) (some (s.memTrap f (reqAddr reqs e) sp .load))
  | .walk e =>
    let due := s.now + s.walkCycles s.cur s.core.dptroot e.toNat
    let s1 := { s with fresh := s.fresh + 1 }
    (s1.addLanding { l0 with elems := reqs.map fun r => mkElem h r none, walking := true }).updHart fun h =>
      { h with xl := h.xl ++ [⟨s.fresh, h.ser, h.bun.head, due, true, none⟩] }
  | .all ls =>
    let es := (reqs.zip ls).map fun x => mkElem h x.1 (some x.2)
    let l1 := { l0 with elems := es, failed := badElem es }
    let s1 := ({ s with fresh := s.fresh + 1 }).pushXlat (transCycles sp vec) none
    s1.addLanding (if h.acquireHolds h.ser then l1 else s1.sendLoad s.cur s.now l1)

/-- A scalar load (R119 to R121). -/
def State.scalarLoad (xd : XReg) (e : Word) (sp : Space) (ty : Ty) (dist : Nat) (acq gate : Bool) (s : State) : State :=
  s.timedLoad (.scalar xd ty) sp [(0, e, ty.size)] dist (if xd = 0 then 0 else 1) acq gate [] none 0

/-! ### Stores (R120, R125) -/

/-- Whether two elements share a byte. -/
def SElem.meets (a b : SElem) : Bool :=
  a.loc.unit = b.loc.unit && a.loc.addr < b.loc.addr + b.data.length && b.loc.addr < a.loc.addr + a.data.length
def meetsAny : List SElem → Bool
  | [] => false
  | e :: r => r.any e.meets || meetsAny r

/-- The order in which the elements of one store are performed: ascending, or, for an unordered store whose elements share
bytes, one of the device's choosing (R133, R212). -/
def State.storeOrder (s : State) (ordered : Bool) (es : List SElem) : List SElem :=
  if ordered || !meetsAny es then es
  else
    (sortBy (fun a b => decide (a.1 ≤ b.1)) ((List.range es.length).map fun i =>
      (Config.freeChoice s.freeCtr i, es.getD i ⟨⟨.error, 0⟩, [], false⟩))).map fun x => x.2

/-- Withholds a store of the current hart: `reqs` are its elements with their data in ascending order. -/
def State.withhold (sp : Space) (reqs : List (Word × List Byte)) (rel ordered : Bool) (vec : Option Nat) (slots : Nat)
    (s : State) : State :=
  let h := s.hart
  match s.translateAll s.cur h.launchId sp .store (reqs.map fun r => (r.1, r.2.length)) with
  | .all ls =>
    let es := s.storeOrder ordered ((reqs.zip ls).map fun x => (⟨x.2, x.1.2, false⟩ : SElem))
    let bad := (((reqs.zip ls).find? fun x => x.2.bad).map fun x => x.1.1).getD ((reqs.map fun r => r.1).headD 0)
    let err := s.memTrap ⟨cMemerr, reqReason (failOf ls), 7⟩ bad sp .store
    ((s.pushXlat (transCycles sp vec) none).updHart fun h =>
      { h with wh := h.wh ++ [⟨h.ser, h.bun.head, slots, s.barNow true rel, ordered, es, err⟩] }).spendFree
  | .fault f e => s.pushXlat (transCycles sp vec) (some (s.memTrap f e sp .store))
  | .walk e => s.pushXlat (transCycles sp vec) (some (s.memTrap (.plain cRangestore) e sp .store))

/-- A scalar store (R120): the low bytes of xc; poisoned data is consumed (R344). -/
def State.scalarStore (xc : XReg) (e : Word) (sp : Space) (ty : Ty) (rel : Bool) (s : State) : State :=
  s.withhold sp [(e, leBytes ty.size (s.x xc).toNat)] rel true none 1

/-- LD (R119). -/
def execLd (h : Head) (xd xa : XReg) (disp : BitVec 24) (sp : Space) (ty : Ty) (dist : Fin 4096) (s : State) : Res :=
  guarded h (fun s => s.unlessPoison (s.xPoi xa) (State.scalarLoad xd (s.eaDisp xa disp) sp ty dist.val false false)) s
/-- ST (R120). -/
def execSt (h : Head) (xc xa : XReg) (disp : BitVec 24) (sp : Space) (ty : Ty) (s : State) : Res :=
  guarded h (fun s =>
    s.unlessPoison (s.xPoi xa || s.xPoi xc) (State.scalarStore xc (s.eaDisp xa disp) sp ty false)) s
/-- LDX (R122). -/
def execLdx (h : Head) (xd xa xb : XReg) (ss : Fin 4) (sp : Space) (ty : Ty) (dist : Fin 4096) (s : State) : Res :=
  guarded h (fun s =>
    s.unlessPoison (s.xPoi xa || s.xPoi xb) (State.scalarLoad xd (s.eaIndex xa xb ss) sp ty dist.val false false)) s
/-- STX (R122). -/
def execStx (h : Head) (xc xa xb : XReg) (ss : Fin 4) (sp : Space) (ty : Ty) (s : State) : Res :=
  guarded h (fun s =>
    s.unlessPoison (s.xPoi xa || s.xPoi xb || s.xPoi xc) (State.scalarStore xc (s.eaIndex xa xb ss) sp ty false)) s

/-- PREF in G space: a translation that misses the buffer walks, without a trap (R126). -/
def State.prefetch (e : Word) (s : State) : State :=
  match s.trG (coreOf s.cur) s.launchId .load e with
  | .walk =>
    let l : Landing :=
      { s.newLanding .pref .g 0 0 [] with
        elems := [⟨0, e, 1, none, [none], false, 0, none⟩], due := 0, walking := true,
        arriveAt := s.now + s.walkCycles s.cur s.core.dptroot e.toNat, res := some [] }
    ({ s with fresh := s.fresh + 1 }).addLanding l
  | _ => s

/-- PREF (R126): no effect in T, S and H. It never traps: a poisoned guard makes it do nothing, and so does a poisoned address, which names no
page to translate (log 57). -/
def execPref (h : Head) (xa : XReg) (disp : BitVec 24) (sp : Space) (s : State) : Res :=
  .next (if s.p h.g && !s.pPoi h.g && !s.xPoi xa && sp = .g then s.prefetch (s.eaDisp xa disp) else s)

/-! ### Division (R128) -/

/-- Significant bits of a dividend. -/
def sigBits (n : Nat) : Nat := if n = 0 then 0 else Nat.log2 n + 1
/-- Latency of a division of a dividend with `w` significant bits (R128). -/
def divLatency (w : Nat) : Nat := 4 + ceilDiv w 4

def divS (a b : Word) : Word := if b = 0 then BitVec.allOnes 64 else BitVec.ofInt 64 (a.toInt.tdiv b.toInt)
def remS (a b : Word) : Word := if b = 0 then a else BitVec.ofInt 64 (a.toInt.tmod b.toInt)
def divU (a b : Word) : Word := if b = 0 then BitVec.allOnes 64 else BitVec.ofNat 64 (a.toNat / b.toNat)
def remU (a b : Word) : Word := if b = 0 then a else BitVec.ofNat 64 (a.toNat % b.toNat)

/-- A division: a timed request of the hart's divider, whose latency counts unfrozen cycles (R94, R128). -/
def divide (h : Head) (xd xa xb : XReg) (dist : Fin 4096) (signed : Bool) (f : Word → Word → Word) (s : State) : Res :=
  guarded h (fun s =>
    let c := s.cycle
    let start := max c s.hart.time.idivNext
    let w := sigBits (if signed then (s.x xa).toInt.natAbs else (s.x xa).toNat)
    let l : Landing :=
      { s.newLanding (.quotient xd) .t dist.val (if xd = 0 then 0 else 1) [] with
        sent := true, arriveAt := start + divLatency w, cyc := true,
        res := some [⟨some xd, 0, f (s.x xa) (s.x xb), s.xPoi xa || s.xPoi xb⟩] }
    (({ s with fresh := s.fresh + 1 }).addLanding l).updHart fun h =>
      { h with time := { h.time with idivNext := start + 1 } }) s

/-- DIV (R128). -/
def execDiv (h : Head) (xd xa xb : XReg) (dist : Fin 4096) (s : State) : Res := divide h xd xa xb dist true divS s
/-- DIVU (R128). -/
def execDivu (h : Head) (xd xa xb : XReg) (dist : Fin 4096) (s : State) : Res := divide h xd xa xb dist false divU s
/-- REM (R128). -/
def execRem (h : Head) (xd xa xb : XReg) (dist : Fin 4096) (s : State) : Res := divide h xd xa xb dist true remS s
/-- REMU (R128). -/
def execRemu (h : Head) (xd xa xb : XReg) (dist : Fin 4096) (s : State) : Res := divide h xd xa xb dist false remU s

end Sys2Proof.Machine
end

