-- ==== Sys2Proof/Machine/Atomic.lean ====
section
/-! DEFINITION. Ordering and atomics: FENCE, LDAQ, STRL, AMOSWP to AMOFADD, VAMO and APPEND (R129 to R152). -/

namespace Sys2Proof.Machine

/-! ### FENCE, LDAQ, STRL (R138, R144, R145) -/

/-- The fences in force after a FENCE at program position `p` (R144). -/
def FenceSt.add (f : FenceSt) (k : FenceKinds) (p : Nat) : FenceSt :=
  { ll := if k.ll then p else f.ll
    la := if k.ll || k.ls then p else f.la
    sl := if k.sl then p else f.sl
    st := if k.ss || k.ls then p else f.st
    en := if k.en then p else f.en }

/-- FENCE (R144): at `.hart` it has no effect beyond its checkpoint. At every other scope it orders the accesses for all agents: for those
outside the scope R134 leaves the order open (log 58). -/
def execFence (h : Head) (k : FenceKinds) (sc : Scope) (s : State) : Res :=
  guarded h (fun s =>
    let s :=
      if sc = .hart then s
      else s.updHart fun hh => { hh with fence := hh.fence.add k (posOf hh.ser hh.bun.head) }
    if k.ss || k.ls || k.sl || k.en then s.wantCkpt .go else s) s

/-- LDAQ (R145): a load that is an acquire (R135). At `.hart` it orders nothing but what the hart sees itself (R15, R124); at every other scope
it orders for all agents (log 58). -/
def execLdaq (h : Head) (xd xa : XReg) (disp : BitVec 24) (sp : Space) (ty : Ty) (dist : Fin 4096) (sc : Scope)
    (s : State) : Res :=
  guarded h (fun s => s.unlessPoison (s.xPoi xa) (State.scalarLoad xd (s.eaDisp xa disp) sp ty dist.val (sc ≠ .hart) true)) s

/-- STRL (R145): a store that is a release (R136), for all agents at every scope but `.hart` (R15, log 58); its bundle ends with a
checkpoint (R138). -/
def execStrl (h : Head) (xc xa : XReg) (disp : BitVec 24) (sp : Space) (ty : Ty) (sc : Scope) (s : State) : Res :=
  guarded h (fun s =>
    s.unlessPoison (s.xPoi xa || s.xPoi xc) fun s =>
      (s.scalarStore xc (s.eaDisp xa disp) sp ty (sc ≠ .hart)).wantCkpt .go) s

/-! ### Effects of atomics (R149, R150) -/

/-- The new value of an atomic on `w` bytes, none where it does not write (R149). -/
def AtomKind.apply (k : AtomKind) (w : Nat) (old b c : Nat) : Option Nat :=
  let m := 2 ^ (8 * w)
  let sg := fun n : Nat => if n < m / 2 then (n : Int) else (n : Int) - m
  match k with
  | .swp => some b
  | .add => some ((old + b) % m)
  | .and => some (old &&& b)
  | .or => some (old ||| b)
  | .xor => some (old ^^^ b)
  | .min => some (if sg old < sg b then old else b)
  | .max => some (if sg old < sg b then b else old)
  | .minu => some (if old < b then old else b)
  | .maxu => some (if old < b then b else old)
  | .cas => if old = b then some c else none
  | .fadd => some (rne32Add (BitVec.ofNat 32 old) (BitVec.ofNat 32 b)).toNat

/-- The landing of an atomic: it is sent with the atomic, and gets its value when the atomic is performed. -/
def State.atomLanding (s : State) (kind : LandKind) (sp : Space) (elems : List Elem) (dist slots : Nat) (groups : List Nat) : Landing :=
  { s.newLanding kind sp dist slots groups with elems := elems, unitOp := true, failed := badElem elems }

/-- One location of an atomic, for its landing. -/
def atomElem (i : Nat) (e : Word) (w : Nat) (l : Loc) : Elem := ⟨i, e, w, some l, [], false, 0, none⟩

/-- Queues an atomic that is sent when its bundle has passed every check (R148), with its landing; its translation takes `spent` cycles. -/
def State.queueAtom (k : FlightKind) (land : Landing) (spent : Nat) (acq rel : Bool) (s : State) : State :=
  let l := { land with id := s.fresh + 1 }
  let a : PendAtom :=
    { id := s.fresh, ser := s.hart.ser, head := s.hart.bun.head, kind := k, land := some l.id, spent := spent, acq := acq, bar := s.barNow true rel,
      err := l.memerr .errorResponse }
  let s := { s with fresh := s.fresh + 2 }
  s.updHart fun h => { h with atoms := h.atoms ++ [a], land := h.land ++ [l] }

/-- A scalar atomic (R148, R149). Its scope matters as that of LDAQ and STRL does (R15, R134, log 58). -/
def scalarAtomic (h : Head) (k : AtomKind) (a : Amo) (s : State) : Res :=
  guarded h (fun s =>
    s.unlessPoison (s.xPoi a.xa || s.xPoi a.xb || (k = .cas && s.xPoi a.xc)) fun s =>
      let w := a.ty.size
      let e := s.eaDisp a.xa a.disp
      let s := s.wantCkpt .go
      match s.translate s.cur s.launchId a.sp .atomic w e with
      | .loc l =>
        let b := BitVec.ofNat 64 ((s.x a.xb).toNat % 2 ^ (8 * w))
        let c := BitVec.ofNat 64 ((s.x a.xc).toNat % 2 ^ (8 * w))
        let out := a.sc ≠ .hart
        let acq := out && (a.ord = .aq || a.ord = .aqrl)
        let land := s.atomLanding (.scalar a.xd a.ty) a.sp [atomElem 0 e w l] a.dist.val (if a.xd = 0 then 0 else 1) []
        let land := { land with acq := acq, gate := acq }
        (s.pushXlat (transCycles a.sp none) none).queueAtom (.amo k w l b c) land (transCycles a.sp none) acq (out && (a.ord = .rl || a.ord = .aqrl))
      | .fault f => s.pushXlat (transCycles a.sp none) (some (s.memTrap f e a.sp .atomic))
      | .walk => s.pushXlat (transCycles a.sp none) (some (s.memTrap (.plain cRangestore) e a.sp .atomic))) s

/-- AMOSWP (R149). -/
def execAmoswp (h : Head) (a : Amo) (s : State) : Res := scalarAtomic h .swp a s
/-- AMOADD (R149). -/
def execAmoadd (h : Head) (a : Amo) (s : State) : Res := scalarAtomic h .add a s
/-- AMOAND (R149). -/
def execAmoand (h : Head) (a : Amo) (s : State) : Res := scalarAtomic h .and a s
/-- AMOOR (R149). -/
def execAmoor (h : Head) (a : Amo) (s : State) : Res := scalarAtomic h .or a s
/-- AMOXOR (R149). -/
def execAmoxor (h : Head) (a : Amo) (s : State) : Res := scalarAtomic h .xor a s
/-- AMOMIN (R149): unsigned for `.Z32` and with `.U`. -/
def execAmomin (h : Head) (a : Amo) (s : State) : Res := scalarAtomic h (if a.u || a.ty = .z32 then .minu else .min) a s
/-- AMOMAX (R149). -/
def execAmomax (h : Head) (a : Amo) (s : State) : Res := scalarAtomic h (if a.u || a.ty = .z32 then .maxu else .max) a s
/-- AMOCAS (R149). -/
def execAmocas (h : Head) (a : Amo) (s : State) : Res := scalarAtomic h .cas a s
/-- AMOFADD (R149). -/
def execAmofadd (h : Head) (a : Amo) (s : State) : Res := scalarAtomic h .fadd a s

/-! ### Vector atomics (R150, R151) -/

/-- An index element: 16 or 32 low bits, sign- or zero-extended (R150, R209). -/
def indexValue (iw sg : Bool) (c : Cell) : Word :=
  match iw, sg with
  | true, true => c.signExtend 64
  | true, false => c.setWidth 64
  | false, true => ((c.setWidth 16 : BitVec 16)).signExtend 64
  | false, false => ((c.setWidth 16 : BitVec 16)).setWidth 64

/-- Element groups that hold an active element of a vector operand. -/
def activeGroups (v : VOp) (act : List Nat) : List Nat := (act.map fun i => groupOf (v.cell i)).eraseDups

/-- Element groups of an operation that hold an active element (R180, R347). -/
def groupsWithActive (act : List Nat) : Nat := (act.map fun i => i / 128).eraseDups.length

/-- Vector operands of a VAMO. -/
def vamoOps (a : Vamo) : List VOp := a.va :: a.vb :: a.vd.toList

/-- A vector atomic: every active element is checked before any lane is sent (R148, R150, R151). -/
def vectorAtomic (h : Head) (k : AtomKind) (a : Vamo) (s : State) : Res :=
  guardedVec h (vamoOps a) (fun s =>
    let act := s.active a.ma
    let poi := s.xPoi a.xa || s.mPoi a.ma || act.any fun i => (s.vread a.va i).poi || (s.vread a.vb i).poi
    s.unlessPoison (s.touches a.ma && poi) fun s =>
      if act = [] then s
      else
        let s := s.wantCkpt .go
        let addr := fun i => s.x a.xa + (indexValue a.iw a.sg (s.vread a.va i).v <<< a.sc.val)
        let tc := transCycles a.sp (some act.length)
        match s.translateAll s.cur s.launchId a.sp .atomic (act.map fun i => (addr i, 4)) with
        | .all ls =>
          let lanes := (act.zip ls).map fun x => (x.1, x.2, (s.vread a.vb x.1).v)
          let es := (act.zip ls).map fun x => atomElem x.1 (addr x.1) 4 x.2
          let land := match a.vd with
            | some v => s.atomLanding (.old v) a.sp es a.dist.val (groupsWithActive act) (activeGroups v act)
            | none => s.atomLanding (.scalar 0 .w) a.sp es 0 0 []
          (s.pushXlat tc none).queueAtom (.vamo k a.ra lanes) land tc false false
        | .fault f e => s.pushXlat tc (some (s.memTrap f e a.sp .atomic))
        | .walk e => s.pushXlat tc (some (s.memTrap (.plain cRangestore) e a.sp .atomic))) s

/-- VAMO.ADD (R150). -/
def execVamoAdd (h : Head) (a : Vamo) (s : State) : Res := vectorAtomic h .add a s
/-- VAMO.AND (R150). -/
def execVamoAnd (h : Head) (a : Vamo) (s : State) : Res := vectorAtomic h .and a s
/-- VAMO.OR (R150). -/
def execVamoOr (h : Head) (a : Vamo) (s : State) : Res := vectorAtomic h .or a s
/-- VAMO.XOR (R150). -/
def execVamoXor (h : Head) (a : Vamo) (s : State) : Res := vectorAtomic h .xor a s
/-- VAMO.MIN (R150). -/
def execVamoMin (h : Head) (a : Vamo) (s : State) : Res := vectorAtomic h (if a.u then .minu else .min) a s
/-- VAMO.MAX (R150). -/
def execVamoMax (h : Head) (a : Vamo) (s : State) : Res := vectorAtomic h (if a.u then .maxu else .max) a s
/-- VAMO.FADD (R150). -/
def execVamoFadd (h : Head) (a : Vamo) (s : State) : Res := vectorAtomic h .fadd a s

/-! ### APPEND (R152) -/

/-- APPEND (R152): sends the tail atomic; the bundle's ending checkpoint waits for its reply, and the payload stores follow
it. Its landing cycle counts from the bundle's issue (R95), also where the step is sent later. -/
def execAppend (h : Head) (xd xa : XReg) (vb : VOp) (ma : MReg) (sp : Space) (dist : Fin 4096) (s : State) : Res :=
  guardedVec h [vb] (fun s =>
    let act := s.active ma
    s.unlessPoison (s.touches ma && (s.xPoi xa || s.mPoi ma || act.any fun i => (s.vread vb i).poi)) fun s =>
      if act = [] then s
      else
        let e := s.x xa
        match s.translate s.cur s.launchId sp .atomic 16 e with
        | .loc l =>
          let s := s.wantCkpt .go
          let lat := s.atomicLatency s.cur l
          let land := { s.atomLanding (.tail xd) sp [atomElem 0 e 16 l] dist.val (if xd = 0 then 0 else 1) [] with
            sent := true, parts := 1, arriveAt := s.now + lat }
          let vals := act.map fun i => (s.vread vb i).v
          let k : FlightKind := .append s.hart.ser s.hart.bun.head s.hart.pc l vals
          ((({ s with fresh := s.fresh + 1 }).addLanding land).sendFlight s.cur s.hart.ser s.hart.bun.head false k (some land.id) l s.now false
            (s.barNow true false) none (land.memerr .errorResponse)).2.awaitReply lat
        | .fault f => s.raiseMem f e sp .atomic
        | .walk => s.raiseMem (.plain cRangestore) e sp .atomic) s

end Sys2Proof.Machine
end

