-- ==== Sys2Proof/Machine/BlockFormat.lean ====
section
/-! DEFINITION. Block formats: fetch floats, code values, headers, block images, decoding and the quantising store rule (R60, R153 to R168, R224). -/

namespace Sys2Proof.Machine

/-! ### Fetch floats (R154, R155) -/

def FV.abs : FV → FV
  | .nan g => .nan g
  | .inf _ => .inf false
  | .fin _ m e => .fin false m e

/-- The largest finite fetch float of a width class (R154): as a value and as a container. -/
def fetchMax (w8 : Bool) : FV := if w8 then .fin false 255 120 else .fin false 31 123
def fetchMaxBits (w8 : Bool) : Nat := if w8 then 0x7F7F else 0x7F78

/-- Brings a value into a fetch float: its container, and whether DRANGE is raised (R155). -/
def fetchFloat (w8 : Bool) (v : FV) : BitVec 16 × Bool :=
  let zero := fun s : Bool => BitVec.ofNat 16 (fmtBf.zero s)
  match v with
  | .nan _ => (BitVec.ofNat 16 fmtBf.nan, false)
  | .inf s => (BitVec.ofNat 16 (fetchMaxBits w8 + fmtBf.zero s), true)
  | .fin s m e =>
    if m = 0 then (zero s, false)
    else if 0 < cmpV (.fin false m e) (fetchMax w8) then (BitVec.ofNat 16 (fetchMaxBits w8 + fmtBf.zero s), true)
    else if e + (Nat.log2 m : Nat) < -126 then (zero s, false)
    else (BitVec.ofNat 16 (fmtBf.round .rne s m e).1, false)

/-- Rounds a value to `p` significant bits, to nearest with ties to even (R158, R176, R224). -/
def roundSig (p : Nat) (v : FV) : FV :=
  match v with
  | .fin s m e =>
    if m = 0 then v
    else
      let q := e + (Nat.log2 m : Nat) - (p - 1 : Nat)
      .fin s (roundTo .rne s m e q).1 q
  | v => v

/-- The binary32 cell that a BF16 container widens to (R224). -/
def widenBf (c : BitVec 16) : Cell := (c.setWidth 32 : BitVec 32) <<< 16

/-- Conversion into a container (R224): its 16 bits, and whether it saturated under R155. -/
def convC (f : CFmt) (v : FV) : BitVec 16 × Bool :=
  match f with
  | .bf | .w => (BitVec.ofNat 16 (fmtBf.convert .rne v).1, false)
  | .h => (BitVec.ofNat 16 (fmtH.convert .rne v).1, false)
  | .lf => fetchFloat true (roundSig 8 v)
  | .sf => fetchFloat false (roundSig 5 v)

/-- Widening from a container (R224). -/
def wideC (f : CFmt) (c : BitVec 16) : Cell :=
  match f with
  | .h => BitVec.ofNat 32 (fmtF32.convert .rne (fmtH.read c.toNat)).1
  | _ => widenBf c

/-! ### Codes (R156 to R158) -/

/-- TAP code value (R157); `es` is 0 for TAP6 and 1 for TAP8. -/
def tapValue (n es c : Nat) : FV :=
  if c = 0 then .fin false 0 0
  else if c = 2 ^ (n - 1) then .nan false
  else
    let s := c / 2 ^ (n - 1) % 2 = 1
    let c := if s then 2 ^ n - c else c
    let b := c / 2 ^ (n - 2) % 2
    let m := ((List.range (n - 1)).takeWhile fun j => c / 2 ^ (n - 2 - j) % 2 = b).length
    let k : Int := if b = 1 then (m : Int) - 1 else -(m : Int)
    let rest := if m < n - 1 then n - 2 - m else 0
    let u := min es rest
    let e := c % 2 ^ rest / 2 ^ (rest - u) * 2 ^ (es - u)
    let fb := rest - u
    .fin s (2 ^ fb + c % 2 ^ fb) (k * 2 ^ es + e - fb)

/-- 2^(b/3) rounded to 5 significant bits, and 2^(b/8) to 8, as integers (R158). -/
def lvb6Table : List Nat := [16, 20, 25]
def lvb8Table : List Nat := [128, 140, 152, 166, 181, 197, 215, 235]

/-- The level L(k) of LVA and LVB (R158). -/
def lvaLevel (w8 : Bool) (k : Nat) : FV :=
  if k = 0 then .fin false 0 0
  else
    let d := if w8 then 127 else 31
    let (m, e) := divExact (k * k) 0 (d * d) 0
    roundSig (if w8 then 8 else 5) (.fin false m e)
def lvbLevel (w8 : Bool) (k : Nat) : FV :=
  if k = 0 then .fin false 0 0
  else if w8 then
    let z : Int := (k : Int) - 127
    .fin false (lvb8Table.getD (z % 8).toNat 0) (z / 8 - 7)
  else
    let z : Int := (k : Int) - 31
    .fin false (lvb6Table.getD (z % 3).toNat 0) (z / 3 - 4)

/-- The code value of a code under an encoding: 0 INT, 1 TAP, 2 LVA, 3 LVB (R156 to R158). -/
def codeValue (enc : Nat) (w8 : Bool) (c : Nat) : FV :=
  let n := if w8 then 8 else 6
  let sg := c / 2 ^ (n - 1) % 2 = 1
  let lv := fun l : FV => if sg then l.neg else l
  match enc with
  | 0 => if sg then .fin true (2 ^ n - c) 0 else .fin false c 0
  | 1 => tapValue n (if w8 then 1 else 0) c
  | 2 => lv (lvaLevel w8 (c % 2 ^ (n - 1)))
  | _ => lv (lvbLevel w8 (c % 2 ^ (n - 1)))

/-- The constant M of an encoding (the table of encodings). -/
def encMax (enc : Nat) (w8 : Bool) : Nat :=
  match enc with
  | 0 => if w8 then 127 else 31
  | 1 => if w8 then 4096 else 16
  | _ => 1

/-! ### The header (R60, R159, R162) -/

def crcBit (poly c : Nat) : Nat := if 0x8000 ≤ c then (c * 2 ^^^ poly) % 65536 else c * 2
def crcByte (c : Nat) (b : Byte) : Nat := (List.range 8).foldl (fun c _ => crcBit 0x1021 c) (c ^^^ (b.toNat * 256))
/-- CRC-16/CCITT-FALSE (R60). -/
def crc16 (bs : List Byte) : Nat := bs.foldl crcByte 0xFFFF

/-- Bytes of a block: 64 for width class 6, 80 for width class 8 (R160). -/
def blockSize (w8 : Bool) : Nat := if w8 then 80 else 64

/-- The first failing check of R162, with the width class that the reader declares: 1 class 6, 2 class 8, 0 none. -/
def headerFault (declared : Nat) (h : List Byte) : Option Nat :=
  let sel := (byteAt h 0).toNat
  if leNat ((h.drop 14).take 2) ≠ crc16 (h.take 14) then some 0
  else if sel % 16 ≠ 0 || leNat ((h.drop 10).take 4) ≠ 0 then some 1
  else if sel / 64 = 0 || sel / 64 = 3 then some 2
  else if declared ≠ 0 && sel / 64 ≠ declared then some 3
  else none
def widthCode (w8 : Bool) : Nat := if w8 then 2 else 1

/-! ### Decoding (R161) -/

/-- The decoded value of a code with its scale and subshift, brought into the fetch float. -/
def decodeCode (enc : Nat) (w8 : Bool) (scale t c : Nat) : BitVec 16 × Bool :=
  match codeValue enc w8 c with
  | .fin s m e => fetchFloat w8 (.fin s m (e + scale - 127 - t))
  | v => fetchFloat w8 v

/-- Code `i` of an image (R160). -/
def codeOf (w8 : Bool) (codes : Nat) (i : Nat) : Nat := if w8 then codes / 2 ^ (8 * i) % 256 else codes / 2 ^ (6 * i) % 64

/-- The 64 decoded elements of an image, each with whether it saturated (R161). -/
def decodeBlock (w8 : Bool) (img : List Byte) : List (BitVec 16 × Bool) :=
  let scale := (byteAt img 1).toNat
  let sub := leNat ((img.drop 2).take 8)
  let codes := leNat (img.drop 16)
  let enc := (byteAt img 0).toNat / 16 % 4
  (List.range 64).map fun i =>
    if scale = 0 then (0, false)
    else if scale = 0xFF then (BitVec.ofNat 16 fmtBf.nan, false)
    else decodeCode enc w8 scale (sub / 16 ^ (i / 4) % 16) (codeOf w8 codes i)

/-! ### The quantising store (R167, R168) -/

/-- An image from its fields. -/
def makeImage (w8 : Bool) (enc scale sub : Nat) (codes : List Nat) : List Byte :=
  let sel := widthCode w8 * 64 + enc * 16
  let h := leBytes 14 (pack [(8, sel), (8, scale), (64, sub)])
  let body := if w8 then codes.map fun c => BitVec.ofNat 8 c else leBytes 48 (pack (codes.map fun c => (6, c)))
  h ++ leBytes 2 (crc16 h) ++ body

/-- The greater of a list of finite magnitudes. -/
def maxAbs (l : List FV) : FV := l.foldl (fun m v => if 0 < cmpV v.abs m then v.abs else m) (.fin false 0 0)

/-- |x - y| of two finite values. -/
def absDiff (x y : FV) : FV :=
  match x, y with
  | .fin s m e, .fin t n f =>
    let (_, k, g) := addExact s m e (!t) n f
    .fin false k g
  | _, _ => .fin false 0 0

/-- A candidate code: number, code value and decoded value. -/
abbrev Cand := Nat × FV × FV

/-- Every code of an encoding but the TAP NaN code, with its decoded value at a scale and subshift. -/
def candidates (enc : Nat) (w8 : Bool) (scale t : Nat) : List Cand :=
  (List.range (if w8 then 256 else 64)).filterMap fun c =>
    let v := codeValue enc w8 c
    if v.isNan then none else some (c, v, fmtBf.read (decodeCode enc w8 scale t c).1.toNat)

/-- The candidates with the least value of a measure. -/
def leastBy (f : Cand → FV) (l : List Cand) : List Cand :=
  l.foldl (fun acc c =>
    match acc with
    | [] => [c]
    | a :: _ => let k := cmpV (f c) (f a); if k < 0 then [c] else if k = 0 then acc ++ [c] else acc) []

/-- Keeps those that satisfy `p`, if any does. -/
def preferBy (p : Cand → Bool) (l : List Cand) : List Cand := if l.any p then l.filter p else l

/-- The nearest code (R168). -/
def nearestCode (w8 : Bool) (cands : List Cand) (x : FV) : Nat :=
  let n := if w8 then 8 else 6
  let l1 := leastBy (fun c => absDiff x c.2.2) cands
  let l2 := l1.filter fun c => !(l1.any fun d => cmpV d.2.2 c.2.2 = 0 && cmpV d.2.1.abs c.2.1.abs < 0)
  let two := l2.any fun c => l2.any fun d => cmpV c.2.2 d.2.2 ≠ 0
  let l3 := if two then preferBy (fun c => c.1 % 2 = 0) l2 else l2
  let l4 := if 1 < l3.length then preferBy (fun c => decide (c.1 / 2 ^ (n - 1) % 2 = 1) = x.sign) l3 else l3
  (l4.map fun c => c.1).headD 0

/-- M 2^k. -/
def encBound (enc : Nat) (w8 : Bool) (k : Int) : FV := .fin false (encMax enc w8) k

/-- One trial: clip, scale, subshifts, codes and error (R167). -/
structure Trial where
  enc : Nat
  clip : Bool
  scale : Nat
  sub : List Nat
  codes : List Nat
  err : Nat
  deriving DecidableEq, Repr

def groupsOf4 (x : List FV) : List (List FV) := (List.range 16).map fun g => (x.drop (4 * g)).take 4

/-- rne32 of the difference, its square, and the accumulation, in binary32 (R167). -/
def errAdd (acc : Nat) (x v : FV) : Nat :=
  let d := (fmtF32.addV .rne x v.neg).1
  let dv := fmtF32.read d
  (fmtF32.addV .rne (fmtF32.read acc) (fmtF32.read (fmtF32.mulV .rne dv dv).1)).1

def tryEnc (enc : Nat) (w8 : Bool) (x : List FV) : Trial :=
  let a := maxAbs x
  let clip := decide (0 < cmpV a (encBound enc w8 127))
  let scale : Nat :=
    if clip then 254
    else ((List.range 254).find? fun j : Nat => cmpV a (encBound enc w8 ((j : Int) - 126)) ≤ 0).getD 253 + 1
  let perGroup := (groupsOf4 x).map fun g =>
    let ag := maxAbs g
    let t := ((List.range 16).reverse.find? fun t : Nat => cmpV ag (encBound enc w8 ((scale : Int) - 127 - (t : Int))) ≤ 0).getD 0
    let cands := candidates enc w8 scale t
    (t, g.map fun v => nearestCode w8 cands v)
  let sub := perGroup.map fun g => g.1
  let codes := perGroup.flatMap fun g => g.2
  let vals := perGroup.flatMap fun g => g.2.map fun c => fmtBf.read (decodeCode enc w8 scale g.1 c).1.toNat
  { enc := enc, clip := clip, scale := scale, sub := sub, codes := codes,
    err := (x.zip vals).foldl (fun e xv => errAdd e xv.1 xv.2) 0 }

/-- Encodings that a set allows, in order of code (R169). -/
def allowed (ae : BitVec 4) : List Nat := (List.range 4).filter fun e => ae.getLsbD e

/-- The quantising store: image, QNAN and QCLIP (R167). -/
def quantise (w8 : Bool) (ae : BitVec 4) (xs : List Cell) : List Byte × Bool × Bool :=
  let x := xs.map fun c => fmtF32.read c.toNat
  let low := (allowed ae).headD 0
  if x.any fun v => v.isNan || v.isInf then (makeImage w8 low 0xFF 0 (List.replicate 64 0), true, false)
  else if x.all FV.isZero then (makeImage w8 low 0 0 (List.replicate 64 0), false, false)
  else
    let trials := (allowed ae).map fun e => tryEnc e w8 x
    match trials with
    | [] => (makeImage w8 low 0 0 (List.replicate 64 0), false, false)
    | t :: r =>
      let win := r.foldl (fun b t => if t.err < b.err then t else b) t
      (makeImage w8 win.enc win.scale (pack (win.sub.map fun t => (4, t))) win.codes, false, win.clip)

end Sys2Proof.Machine
end

