-- ==== Sys2Proof/Machine/Queue.lean ====
section
/-! DEFINITION. Operand queues: configuration, entries, pushes and pops; QCFG, QPUSH, QPOP, QCNT and QFENCE at issue (R216 to R228). -/

namespace Sys2Proof.Machine

/-! ### Configuration (R216) -/

def Queue.conf (q : Queue) : Bool := q.sz ≠ 0
def Queue.size (q : Queue) : Nat := 2 ^ (q.sz.toNat + 9)
def Queue.esize (q : Queue) : Nat := (q.es.toNat + 1) * 16
/-- Entries of the ring. -/
def Queue.slots (q : Queue) : Nat := if q.conf then q.size / q.esize else 0
def Queue.origin (q : Queue) : Nat := q.base.toNat * 1024
/-- TCM offset of a ring slot. -/
def Queue.addr (q : Queue) (slot : Nat) : Nat := q.origin + slot % (max q.slots 1) * q.esize

def Core.q (k : Core) (q : QReg) : Queue := k.queues.get q
def Core.updQ (k : Core) (q : QReg) (f : Queue → Queue) : Core := { k with queues := k.queues.set q.val (f (k.q q)) }

/-- QBASE and QSIZE as MFS reads them (R216). -/
def Core.qbaseWord (k : Core) : Word := BitVec.ofNat 64 (pack (k.queues.toList.map fun q => (8, q.base.toNat)))
def Core.qsizeWord (k : Core) : Word :=
  BitVec.ofNat 64 (pack (k.queues.toList.map fun q => (8, q.sz.toNat * 32 + q.es.toNat)))

/-! ### Entries (R218) -/

/-- Whether an engine operation is a QPUSH to `q` that has fired and not yet pushed. -/
def EngOp.pushing (e : EngOp) (q : QReg) : Bool :=
  match e.kind with
  | .qpush r _ _ => r = q && e.fire.isSome
  | _ => false

/-- Slots free for a push: those of entries not yet freed and of pushes under way are taken (R218). -/
def Core.room (k : Core) (q : QReg) : Nat :=
  (k.q q).slots - (k.q q).ents.length - (k.qst.filter fun b => b.fired && b.q = q).length - (k.eng.filter fun e => e.pushing q).length

/-- Entries that the owning hart may pop, and those that a write stream may pop. -/
def Queue.avail (q : Queue) : Nat := (q.ents.filter fun e => !e.popped).length
def Queue.headReleased (q : Queue) : Option QEnt :=
  match q.ents.filter fun e => !e.popped with
  | e :: _ => if e.tent.isNone then some e else none
  | [] => none

/-- Pads an entry's bytes with zeros (R219). -/
def padTo (n : Nat) (l : List Byte) : List Byte := l.take n ++ List.replicate (n - l.length) 0

/-- The ring slot of the next entry: the first from `next` on that holds no entry still to be freed. A rollback that discards entries
between kept ones leaves free slots behind (R218, R253, log 62). -/
def Queue.freeSlot (q : Queue) : Nat :=
  let n := max q.slots 1
  ((List.range n).find? fun i => !(q.ents.any fun e => e.slot = (q.next + i) % n)).elim (q.next % n) fun i => (q.next + i) % n

/-- Appends an entry: its bytes go to its slot in the TCM. -/
def Core.pushEntry (k : Core) (q : QReg) (bytes : List Byte) (marks : Marks) (tent : Option Nat) (now : Nat) : Core :=
  let qu := k.q q
  let slot := qu.freeSlot
  let e : QEnt :=
    { slot := slot, tent := tent, relAt := now, popped := false, popSer := none, popFired := false, marks := marks }
  { k.updQ q fun qu => { qu with next := slot + 1, ents := qu.ents ++ [e] } with
    tcm := k.tcm.setBytes (qu.addr slot) (padTo qu.esize bytes) }

/-- The bytes of an entry. -/
def Core.entryBytes (k : Core) (q : QReg) (e : QEnt) : List Byte :=
  (List.range (k.q q).esize).map fun i => k.tcm.byte ((k.q q).addr e.slot + i)

/-- Container `i` of an entry (R219). -/
def container (bs : List Byte) (i : Nat) : BitVec 16 := BitVec.ofNat 16 ((byteAt bs (2 * i)).toNat + 256 * (byteAt bs (2 * i + 1)).toNat)

/-- Marks the oldest unpopped entry as popped by an operation of serial `ser`, none for a stream. -/
def popOldest (ser : Option Nat) : List QEnt → List QEnt
  | [] => []
  | e :: r => if e.popped then e :: popOldest ser r else { e with popped := true, popSer := ser, popFired := true } :: r

/-- Frees popped entries whose pop can no longer be undone: by a stream, or by an operation up to serial `ser` that waits for no recheck
(R218, R271). -/
def Queue.free (q : Queue) (ser : Nat) (re : Nat → Bool) : Queue :=
  { q with ents := q.ents.filter fun e => !(e.popped && (match e.popSer with | some p => decide (p ≤ ser) && !re p | none => true)) }

/-- Whether the matrix operation of a bundle of a hart waits for its recheck (R271). -/
def Core.rechecking (k : Core) (hart : Bool) (ser : Nat) : Bool := k.recheck.any fun r => r.matrix && r.hart = hart && r.ser = ser

/-- Pops the oldest entry: its bytes, its marks, and the core after it (R218). -/
def Core.pop (k : Core) (q : QReg) (ser : Option Nat) (ckptSer : Nat) : List Byte × Marks × Core :=
  match (k.q q).ents.find? fun e => !e.popped with
  | none => ([], ⟨none, false, false⟩, k)
  | some e =>
    (k.entryBytes q e, e.marks, k.updQ q fun qu => ({ qu with ents := popOldest ser qu.ents } : Queue).free ckptSer (k.rechecking qu.owner))

/-! ### Checks at issue (R217, R220) -/

/-- QFORM reasons 0, 1 and 2, and 6 where the operation pops `least` entries at once. -/
def State.qform (q : QReg) (need least : Nat) (f : State → State) (s : State) : State :=
  let qu := s.core.q q
  if !qu.conf then s.raiseObj cQform 0 q.val 0
  else if qu.owner ≠ slotOf s.cur then s.raiseObj cQform 0 q.val 1
  else if qu.esize < need then s.raiseObj cQform 0 q.val 2
  else if qu.slots < least then s.raiseObj cQform 0 q.val 6
  else f s

/-- Appends an engine operation of the current hart; one that writes the grid takes a matrix tag (R221, R261, R264). -/
def State.engine (kind : EngKind) (s : State) : State :=
  let h := s.hart
  let k := s.core
  let tagged := kind.region.isSome
  let e : EngOp :=
    { id := s.fresh, kind := kind, hart := slotOf s.cur, ser := h.ser, pc := h.pc, head := h.bun.head, tag := k.mtag,
      issue := s.cycle, fire := none, last := 0, done := 0, ops := [], raw := [], sums := [], marks := ⟨none, false, false⟩,
      stride := 1, group0 := false, written := false, late := [], spoil := [], skip := [] }
  { (s.updCore fun k => { k with eng := k.eng ++ [e], mtag := if tagged then k.mtag + 1 else k.mtag }) with
    fresh := s.fresh + 1 }

/-- Holds the X slot until a cycle (R225). -/
def State.holdX (t : Nat) (s : State) : State := s.updHart fun h => { h with time := { h.time with xNext := t } }

/-! ### QCFG (R222) -/

/-- Whether the region of a configuration overlaps a configured queue other than `q`. -/
def Core.regionClash (k : Core) (q : QReg) (origin size : Nat) : Bool :=
  (List.finRange 8).any fun r => r ≠ q && (k.q r).conf && origin < (k.q r).origin + (k.q r).size && (k.q r).origin < origin + size

/-- QCFG (R222). -/
def execQcfg (h : Head) (q : QReg) (base : Fin 256) (sz : Fin 8) (es : Fin 32) (s : State) : Res :=
  guarded h (fun s =>
    let nq : Queue := { Queue.reset with base := BitVec.ofNat 8 base.val, sz := BitVec.ofNat 3 sz.val, es := BitVec.ofNat 5 es.val }
    if s.core.streams.toList.any fun t => t.active && t.q = q then s.raiseObj cQform 0 q.val 4
    else if sz ≠ 0 && nq.size < nq.esize then s.raiseObj cQform 0 q.val 5
    else if sz ≠ 0 && s.core.regionClash q nq.origin nq.size then s.raiseObj cQform 0 q.val 3
    else (s.updCore fun k => k.updQ q fun _ => { nq with owner := slotOf s.cur }).wantCkpt .go) s

/-! ### QPUSH, QPOP, QCNT, QFENCE (R223 to R228) -/

/-- Entry bytes that QPUSH and QPOP need for VL elements. -/
def pushNeed (f : CFmt) (vl : Nat) : Nat := if f = .w then 4 * vl else 2 * vl

/-- QPUSH (R225): reads its source at issue and waits to fire. -/
def execQpush (h : Head) (q : QReg) (vop : VOp) (f : CFmt) (s : State) : Res :=
  guardedHalf h [vop.half] (State.qform q (pushNeed f s.vl) 0 (State.accCheck [vop] fun s =>
    let vals := (List.range s.vl).map fun i => s.vread vop i
    ((s.engine (.qpush q f vals)).holdX (s.cycle + s.vGroups)).spendFree)) s

/-- QPOP (R226): the youngest writer of its row from its issue. -/
def execQpop (h : Head) (row : RowOp) (q : QReg) (f : CFmt) (s : State) : Res :=
  guardedHalf h [row.half] (State.qform q (pushNeed f s.vl) 0 (State.engine (.qpop row q f s.vl))) s

/-- QCNT (R227): the count fields are zero for a queue that the hart does not own. -/
def execQcnt (h : Head) (xd : XReg) (q : QReg) (s : State) : Res :=
  guarded h (fun s =>
    let qu := s.core.q q
    let own := qu.conf && qu.owner = slotOf s.cur
    let counts := if own then [(16, qu.avail), (16, s.core.room q)] else [(16, 0), (16, 0)]
    s.putX xd (BitVec.ofNat 64 (pack (counts ++ [(1, b01 own), (1, b01 qu.conf)]))) false 1) s

/-- Whether a push before a QFENCE has still to become available (R228): a QST of its own bundle that precedes it and has blocks still to
push, or an entry of a covered queue that a write stream drains and no checkpoint has released. -/
def Core.fencePending (k : Core) (f : QFence) : Bool :=
  (k.qst.any fun b => f.grps.contains b.grp) ||
    (List.finRange 8).any fun q => f.qm.getLsbD q.val && (k.streams.toList.any fun t => t.active && t.obj.layout = 0x30 && t.q = q) &&
      (k.q q).ents.any fun e => e.tent.any fun t => t ≤ f.ser

/-- Whether a QFENCE holds back a push of bundle `ser` of a hart, the QST `grp` or a QPUSH (R228). -/
def Core.pushHeld (k : Core) (hart : Bool) (ser : Nat) (grp : Option Nat) : Bool :=
  k.qf.any fun f => f.hart = hart && (f.ser < ser || (f.ser = ser && grp.any fun g => !f.prior.contains g)) && k.fencePending f

/-- QFENCE (R228): the hart's pushes of earlier bundles have entered their queues when it issues; its later pushes wait for those that have
still to become available. Fences that wait for nothing any more are forgotten. -/
def execQfence (h : Head) (qm : BitVec 8) (s : State) : Res :=
  guarded h (fun s => s.updCore fun k =>
    let me := slotOf s.cur
    let prior := k.qst.filter fun b => b.hart = me && b.ser = s.hart.ser
    let mine := prior.filter fun b => qm.getLsbD b.q.val
    { k with
      qf := (k.qf.filter k.fencePending) ++
        [⟨me, s.hart.ser, qm, (mine.map fun b => b.grp).eraseDups, (prior.map fun b => b.grp).eraseDups⟩] }) s

end Sys2Proof.Machine
end

