-- ==== Sys2Proof/Machine/FloatOps.lean ====
section
/-! DEFINITION. Scalar floating point: FADD to ICVTF (R66 to R69, R81 to R85). -/

namespace Sys2Proof.Machine

/-- The binary32 datum in bits 31:0 of a register (R69). -/
def State.f32 (s : State) (r : XReg) : FV := fmtF32.read ((s.x r).toNat % 2 ^ 32)

/-- Writes a floating result with its flags. -/
def State.putF (xd : XReg) (r : Nat × FFlags) (poi : Bool) (lat : Nat) (s : State) : State :=
  (s.putX xd (BitVec.ofNat 64 r.1) poi lat).raiseF r.2

/-- A binary32 operation of two sources under FPMODE (R81). -/
def fp2 (h : Head) (xd xa xb : XReg) (lat : Nat) (f : RM → FV → FV → Nat × FFlags) (s : State) : Res :=
  guarded h (fun s => s.putF xd (f s.rm (s.f32 xa) (s.f32 xb)) (s.xPoi xa || s.xPoi xb) lat) s

/-- Occupies the divide and square-root unit for 12 cycles; a second operation of the bundle starts 12 cycles later (R66). -/
def State.takeDivider (s : State) : State × Nat :=
  let c := s.cycle
  let start := max c s.hart.time.divNext
  (s.updHart fun h => { h with time := { h.time with divNext := start + 12 } }, start - c)

/-- FADD (R81). -/
def execFadd (h : Head) (xd xa xb : XReg) (s : State) : Res := fp2 h xd xa xb 4 fmtF32.addV s
/-- FSUB (R81). -/
def execFsub (h : Head) (xd xa xb : XReg) (s : State) : Res := fp2 h xd xa xb 4 (fun m a b => fmtF32.addV m a b.neg) s
/-- FMUL (R81). -/
def execFmul (h : Head) (xd xa xb : XReg) (s : State) : Res := fp2 h xd xa xb 4 fmtF32.mulV s
/-- FDIV (R81), latency 14 (R66). -/
def execFdiv (h : Head) (xd xa xb : XReg) (s : State) : Res :=
  guarded h (fun s =>
    let r := fmtF32.divV s.rm (s.f32 xa) (s.f32 xb)
    let poi := s.xPoi xa || s.xPoi xb
    let (s, w) := s.takeDivider
    s.putF xd r poi (14 + w)) s
/-- FSQRT (R81), latency 16 (R66). -/
def execFsqrt (h : Head) (xd xa : XReg) (s : State) : Res :=
  guarded h (fun s =>
    let r := fmtF32.sqrtV s.rm (s.f32 xa)
    let poi := s.xPoi xa
    let (s, w) := s.takeDivider
    s.putF xd r poi (16 + w)) s
/-- FMA (R82). -/
def execFma (h : Head) (xd xa xb xc : XReg) (s : State) : Res :=
  guarded h (fun s =>
    s.putF xd (fmtF32.fmaV s.rm (s.f32 xa) (s.f32 xb) (s.f32 xc)) (s.xPoi xa || s.xPoi xb || s.xPoi xc) 4) s

/-- FMIN and FMAX (R83). -/
def fpMinMax (isMax : Bool) (h : Head) (xd xa xb : XReg) (s : State) : Res :=
  guarded h (fun s =>
    s.putF xd (fmtF32.minMax isMax ((s.x xa).toNat % 2 ^ 32) ((s.x xb).toNat % 2 ^ 32)) (s.xPoi xa || s.xPoi xb) 2) s
/-- FMIN (R83). -/
def execFmin (h : Head) (xd xa xb : XReg) (s : State) : Res := fpMinMax false h xd xa xb s
/-- FMAX (R83). -/
def execFmax (h : Head) (xd xa xb : XReg) (s : State) : Res := fpMinMax true h xd xa xb s

/-- A floating compare, latency 2 (R66, R84). -/
def fpCmp (k : FCmp) (h : Head) (pd pc : PReg) (xa xb : XReg) (s : State) : Res :=
  guarded h (fun s =>
    let r := fcmpV k (s.f32 xa) (s.f32 xb)
    (s.putP2 pd pc r.1 (s.xPoi xa || s.xPoi xb) 2).raiseF r.2) s
/-- FCMPEQ (R84). -/
def execFcmpeq (h : Head) (pd pc : PReg) (xa xb : XReg) (s : State) : Res := fpCmp .eq h pd pc xa xb s
/-- FCMPLT (R84). -/
def execFcmplt (h : Head) (pd pc : PReg) (xa xb : XReg) (s : State) : Res := fpCmp .lt h pd pc xa xb s
/-- FCMPLE (R84). -/
def execFcmple (h : Head) (pd pc : PReg) (xa xb : XReg) (s : State) : Res := fpCmp .le h pd pc xa xb s

/-- The 16-bit format of a conversion. -/
def fmt16 (ty : Ty) : Fmt := if ty = .h then fmtH else fmtBf

/-- FCVT (R85): narrows binary32 to BF16 or binary16, or widens with `.WID`. -/
def execFcvt (h : Head) (xd xa : XReg) (ty : Ty) (wid : Bool) (s : State) : Res :=
  guarded h (fun s =>
    let r :=
      if wid then fmtF32.convert .rne ((fmt16 ty).read ((s.x xa).toNat % 2 ^ 16))
      else (fmt16 ty).convert s.rm (s.f32 xa)
    s.putF xd r (s.xPoi xa) 4) s

/-- Ranges of the integer types of R85. -/
def intLow : Ty → Int
  | .s32 => -2 ^ 31
  | .z32 => 0
  | _ => -2 ^ 63
def intHigh : Ty → Int
  | .s32 => 2 ^ 31 - 1
  | .z32 => 2 ^ 32 - 1
  | _ => 2 ^ 63 - 1

/-- FCVTI (R85): binary32 to integer, under FPMODE or toward zero. -/
def execFcvti (h : Head) (xd xa : XReg) (ty : Ty) (tz : Bool) (s : State) : Res :=
  guarded h (fun s =>
    let r := toIntV (if tz then .rtz else s.rm) (intLow ty) (intHigh ty) (s.f32 xa)
    (s.putX xd (BitVec.ofInt 64 r.1) (s.xPoi xa) 4).raiseF r.2) s

/-- The integer operand of ICVTF (R85). -/
def intOperand (ty : Ty) (w : Word) : Int :=
  match ty with
  | .s32 => (w.setWidth 32).toInt
  | .z32 => ((w.setWidth 32).toNat : Int)
  | _ => w.toInt

/-- ICVTF (R85): integer to binary32 under FPMODE. -/
def execIcvtf (h : Head) (xd xa : XReg) (ty : Ty) (s : State) : Res :=
  guarded h (fun s => s.putF xd (fmtF32.ofInt s.rm (intOperand ty (s.x xa))) (s.xPoi xa) 4) s

end Sys2Proof.Machine
end

