-- ==== Sys2Proof/Machine/Vector.lean ====
section
/-! DEFINITION. Grid vector operations: element-wise arithmetic, unary functions, reductions, compares, masks, slides, permutation and broadcast (R178 to R206, R214). -/

namespace Sys2Proof.Machine

/-! ### One lane -/

/-- What one active element gives: its cell, the flags of FPFLAGS, and whether it saturated. -/
structure LaneR where
  v : Cell
  f : FFlags
  sat : Bool
  deriving DecidableEq, Repr

def laneOf (v : Cell) : LaneR := ⟨v, FFlags.none, false⟩
/-- A lane of a binary32 result. -/
def laneF (r : Nat × FFlags) : LaneR := ⟨BitVec.ofNat 32 r.1, r.2, false⟩
/-- A lane that saturates an exact integer to `lo`..`hi`. -/
def laneSat (lo hi z : Int) : LaneR :=
  ⟨BitVec.ofInt 32 (if z < lo then lo else if hi < z then hi else z), FFlags.none, decide (z < lo ∨ hi < z)⟩

/-- A binary32 element. -/
def f32c (c : Cell) : FV := fmtF32.read c.toNat

def i32Min : Int := -2 ^ 31
def i32Max : Int := 2 ^ 31 - 1

/-- The flags that lanes raise (R165, R189). -/
def State.raiseLanes (l : List LaneR) (s : State) : State :=
  (s.raiseF (l.foldl (fun f r => f.or r.f) FFlags.none)).raiseV (if l.any fun r => r.sat then vfSat else 0)

/-- Writes the lanes of the active elements: `srcs` are the elements each lane reads, for its poison mark (R127, R179). -/
def State.lanes (vd : VOp) (ma : MReg) (lat interval : Nat) (srcs : Nat → List GCell) (fn : Nat → LaneR) (s : State) :
    State :=
  let act := s.active ma
  let rs := act.map fun i => (i, fn i, s.mPoi ma || (srcs i).any fun c => c.poi)
  let vals := rs.map fun r => (r.1, (⟨r.2.1.v, r.2.2⟩ : GCell))
  (((s.vwrite vd vals lat).raiseLanes (rs.map fun r => r.2.1)).holdV interval).vRecheck

/-! ### Layout VV (R190 to R195) -/

/-- An element-wise operation of layout VV. -/
def vvOp (h : Head) (a : VV) (lat : Nat) (fn : RM → Cell → Cell → LaneR) (s : State) : Res :=
  guardedVec h ([a.vd, a.va] ++ src2Ops a.b) (fun s =>
    s.lanes a.vd a.ma lat s.vGroups (fun i => [s.vread a.va i, s.vread2 a.b i])
      fun i => fn s.rm (s.vread a.va i).v (s.vread2 a.b i).v) s

/-- Latency of an operation that has a binary32 and an integer form (R214). -/
def latFI (ty : Ty) (i : Nat) : Nat := if ty = .f32 then 4 else i

/-- VADD (R191). -/
def execVadd (h : Head) (a : VV) (s : State) : Res :=
  vvOp h a (latFI a.ty 2) (fun m x y => if a.ty = .f32 then laneF (fmtF32.addV m (f32c x) (f32c y)) else laneOf (x + y)) s
/-- VSUB (R191). -/
def execVsub (h : Head) (a : VV) (s : State) : Res :=
  vvOp h a (latFI a.ty 2)
    (fun m x y => if a.ty = .f32 then laneF (fmtF32.addV m (f32c x) (f32c y).neg) else laneOf (x - y)) s
/-- VMUL (R191). -/
def execVmul (h : Head) (a : VV) (s : State) : Res :=
  vvOp h a (latFI a.ty 3) (fun m x y => if a.ty = .f32 then laneF (fmtF32.mulV m (f32c x) (f32c y)) else laneOf (x * y)) s

/-- VFMA (R191). -/
def execVfma (h : Head) (a : VV) (vc : VOp) (s : State) : Res :=
  guardedVec h ([a.vd, a.va] ++ src2Ops a.b ++ [vc]) (fun s =>
    s.lanes a.vd a.ma 4 s.vGroups (fun i => [s.vread a.va i, s.vread2 a.b i, s.vread vc i])
      fun i => laneF (fmtF32.fmaV s.rm (f32c (s.vread a.va i).v) (f32c (s.vread2 a.b i).v) (f32c (s.vread vc i).v))) s

/-- The lesser or greater of two cells as a type reads them (R83, R188). -/
def minMaxCell (isMax : Bool) (ty : Ty) (x y : Cell) : LaneR :=
  match ty with
  | .f32 => laneF (fmtF32.minMax isMax x.toNat y.toNat)
  | .z32 => laneOf (if (x.toNat < y.toNat) = isMax then y else x)
  | _ => laneOf (if (x.toInt < y.toInt) = isMax then y else x)

/-- VMIN (R191). -/
def execVmin (h : Head) (a : VV) (s : State) : Res := vvOp h a (latFI a.ty 2) (fun _ => minMaxCell false a.ty) s
/-- VMAX (R191). -/
def execVmax (h : Head) (a : VV) (s : State) : Res := vvOp h a (latFI a.ty 2) (fun _ => minMaxCell true a.ty) s
/-- VADDS (R191). -/
def execVadds (h : Head) (a : VV) (s : State) : Res :=
  vvOp h a 2 (fun _ x y => laneSat i32Min i32Max (x.toInt + y.toInt)) s

/-- VAND (R192). -/
def execVand (h : Head) (a : VV) (s : State) : Res := vvOp h a 2 (fun _ x y => laneOf (x &&& y)) s
/-- VOR (R192). -/
def execVor (h : Head) (a : VV) (s : State) : Res := vvOp h a 2 (fun _ x y => laneOf (x ||| y)) s
/-- VXOR (R192). -/
def execVxor (h : Head) (a : VV) (s : State) : Res := vvOp h a 2 (fun _ x y => laneOf (x ^^^ y)) s

/-- VSHL (R192): the count is the low five bits. -/
def execVshl (h : Head) (a : VV) (s : State) : Res := vvOp h a 2 (fun _ x y => laneOf (x <<< (y.toNat % 32))) s
/-- VSHR (R192): `.S32` copies bit 31. -/
def execVshr (h : Head) (a : VV) (s : State) : Res :=
  vvOp h a 2 (fun _ x y => laneOf (if a.ty = .s32 then x.sshiftRight (y.toNat % 32) else x >>> (y.toNat % 32))) s

/-- The rounding shift (R193). -/
def roundShift (z : Int) (n : Nat) : Int := if n = 0 then z else (z + 2 ^ (n - 1)) / 2 ^ n
/-- VRSHR (R193). -/
def execVrshr (h : Head) (a : VV) (n16 : Bool) (s : State) : Res :=
  vvOp h a 3 (fun _ x y =>
    let v := roundShift x.toInt (y.toNat % 32)
    if n16 then laneSat (-32768) 32767 v else laneOf (BitVec.ofInt 32 v)) s

/-- The two signed halves of a cell (R194). -/
def loHalf (c : Cell) : Int := (c.setWidth 16 : BitVec 16).toInt
def hiHalf (c : Cell) : Int := ((c >>> 16).setWidth 16 : BitVec 16).toInt
def pairCell (hi lo : Int) : Cell :=
  ((BitVec.ofInt 16 hi).setWidth 32 <<< 16) ||| (BitVec.ofInt 16 lo).setWidth 32

/-- VDOT2 (R194): accumulates into VD, which it reads as it stood before the bundle. -/
def execVdot2 (h : Head) (a : VV) (s : State) : Res :=
  guardedVec h ([a.vd, a.va] ++ src2Ops a.b) (fun s =>
    s.lanes a.vd a.ma 3 s.vGroups (fun i => [s.vread a.vd i, s.vread a.va i, s.vread2 a.b i])
      fun i =>
        let x := (s.vread a.va i).v
        let y := (s.vread2 a.b i).v
        laneSat i32Min i32Max ((s.vread a.vd i).v.toInt + loHalf x * loHalf y + hiHalf x * hiHalf y)) s

def sat16 (z : Int) : Int := if z < -32768 then -32768 else if 32767 < z then 32767 else z
/-- VADD2 (R194). -/
def execVadd2 (h : Head) (a : VV) (sat : Bool) (s : State) : Res :=
  vvOp h a 2 (fun _ x y =>
    let lo := loHalf x + loHalf y
    let hi := hiHalf x + hiHalf y
    if sat then ⟨pairCell (sat16 hi) (sat16 lo), FFlags.none, sat16 hi ≠ hi || sat16 lo ≠ lo⟩
    else laneOf (pairCell hi lo)) s

/-- Ranges of the integer types (R45). -/
def tyLow : Ty → Int
  | .s8 => -128
  | .s16 => -32768
  | .s6 => -32
  | .s32 => -2 ^ 31
  | _ => 0
def tyHigh : Ty → Int
  | .s8 => 127
  | .s16 => 32767
  | .s6 => 31
  | .s32 => 2 ^ 31 - 1
  | .z8 => 255
  | .z16 => 65535
  | .z6 => 63
  | _ => 2 ^ 32 - 1

/-- Requantising (R195). -/
def requant (rm : RM) (lo hi : Int) (a b : FV) : LaneR :=
  if a.isNan || b.isNan || (a.isInf && b.isZero) || (a.isZero && b.isInf) then ⟨0, fInvalid, false⟩
  else
    let s := a.sign ^^ b.sign
    match a, b with
    | .fin _ m1 e1, .fin _ m2 e2 =>
      let (n, ix) := roundTo rm s (m1 * m2) (e1 + e2) 0
      { laneSat lo hi (if s then -(n : Int) else n) with f := { FFlags.none with nx := ix } }
    | _, _ => ⟨BitVec.ofInt 32 (if s then lo else hi), FFlags.none, true⟩

/-- VRQ (R195). -/
def execVrq (h : Head) (a : VV) (s : State) : Res :=
  vvOp h a 4 (fun m x y => requant m (tyLow a.ty) (tyHigh a.ty) (f32c x) (f32c y)) s

/-! ### Unary operations (R196 to R198) -/

/-- A unary operation of layout VU. -/
def vuOp (h : Head) (a : VU) (lat mult : Nat) (fn : RM → Cell → LaneR) (s : State) : Res :=
  guardedVec h [a.vd, a.va] (fun s =>
    s.lanes a.vd a.ma lat (mult * s.vGroups) (fun i => [s.vread a.va i]) fun i => fn s.rm (s.vread a.va i).v) s

/-- VABS (R196): a NaN stays as it is. -/
def execVabs (h : Head) (a : VU) (s : State) : Res :=
  vuOp h a 2 1 (fun _ x =>
    if a.ty = .f32 then laneOf (if (f32c x).isNan then x else x &&& 0x7FFFFFFF#32) else laneSat i32Min i32Max |x.toInt|) s
/-- VSQRT (R196). -/
def execVsqrt (h : Head) (a : VU) (s : State) : Res := vuOp h a 12 4 (fun m x => laneF (fmtF32.sqrtV m (f32c x))) s

/-- Fraction bits of the fixed-point arithmetic of VEXP. -/
def expBits : Nat := 256

/-- 2^(f/2^k) in fixed point, 0 ≤ f < 2^k: the product over the bits of `f` of the repeated square roots of 2. `root` is
2^(2^-(j-1)) for the bit of weight 2^-j. -/
def exp2Frac (f : Nat) : Nat → Nat → Nat → Nat
  | 0, _, acc => acc
  | k + 1, root, acc =>
    let r := isqrt (root * 2 ^ expBits) expBits 0
    exp2Frac f k r (if f / 2 ^ k % 2 = 1 then acc * r / 2 ^ expBits else acc)

/-- 2^a rounded to nearest even (R197). A power that is no integer has an irrational value, so a bit below the fixed point
stands for the rest. -/
def exp2V (v : FV) : Nat × FFlags :=
  match v with
  | .nan g => (fmtF32.nan, { FFlags.none with nv := g })
  | .inf s => (if s then fmtF32.zero false else fmtF32.inf false, FFlags.none)
  | .fin s m e =>
    if m = 0 then fmtF32.round .rne false 1 0
    else if 9 ≤ e + (Nat.log2 m : Nat) then fmtF32.round .rne false 1 (if s then -600 else 600)
    else
      let z : Int := if s then -(m : Int) else m
      if 0 ≤ e then fmtF32.round .rne false 1 (z * 2 ^ e.toNat)
      else
        let k := (-e).toNat
        let n := z / 2 ^ k
        let f := (z % 2 ^ k).toNat
        if f = 0 then fmtF32.round .rne false 1 n
        else fmtF32.round .rne false (2 * exp2Frac f k (2 * 2 ^ expBits) (2 ^ expBits) + 1) (n - expBits - 1)

/-- VEXP (R197). -/
def execVexp (h : Head) (a : VU) (s : State) : Res := vuOp h a 12 4 (fun _ x => laneF (exp2V (f32c x))) s

/-- 1 / sqrt(a) rounded to nearest even (R197). -/
def rsqV (v : FV) : Nat × FFlags :=
  match v with
  | .nan g => (fmtF32.nan, { FFlags.none with nv := g })
  | .inf s => if s then (fmtF32.nan, fInvalid) else (fmtF32.zero false, FFlags.none)
  | .fin s m e =>
    if m = 0 then (fmtF32.inf s, { FFlags.none with dz := true })
    else if s then (fmtF32.nan, fInvalid)
    else
      let k : Nat := 160 + (if e % 2 = 0 then 0 else 1)
      let r := isqrt (2 ^ k / m) 90 0
      fmtF32.round .rne false (2 * r + (if r * r * m = 2 ^ k then 0 else 1)) ((-e - k) / 2 - 1)

/-- VRSQ (R197). -/
def execVrsq (h : Head) (a : VU) (s : State) : Res := vuOp h a 12 4 (fun _ x => laneF (rsqV (f32c x))) s
/-- VRCP (R197). -/
def execVrcp (h : Head) (a : VU) (s : State) : Res :=
  vuOp h a 12 4 (fun _ x => laneF (fmtF32.divV .rne (.fin false 1 0) (f32c x))) s
/-- VMOV (R196). -/
def execVmov (h : Head) (a : VU) (s : State) : Res := vuOp h a 2 1 (fun _ x => laneOf x) s

/-- VCVTI (R198). -/
def execVcvti (h : Head) (a : VU) (q : Bool) (s : State) : Res :=
  vuOp h a 4 1 (fun m x =>
    if a.ty = .f32 then laneF (fmtF32.ofInt m (if q then (x.toNat : Int) else x.toInt))
    else
      let r := toIntV (if q then .rtz else m) (intLow a.ty) (intHigh a.ty) (f32c x)
      ⟨BitVec.ofInt 32 r.1, r.2, false⟩) s

/-! ### Reductions (R199, R200) -/

/-- One level of the tree: absent children pass the other through. -/
def treeLevel (op : Nat → Nat → Nat × FFlags) : List (Option Nat) → List (Option Nat) × FFlags
  | u :: v :: r =>
    let (t, f) := treeLevel op r
    match u, v with
    | none, v => (v :: t, f)
    | u, none => (u :: t, f)
    | some x, some y => let z := op x y; (some z.1 :: t, f.or z.2)
  | l => (l, FFlags.none)

def treeUp (op : Nat → Nat → Nat × FFlags) : Nat → List (Option Nat) × FFlags → Option Nat × FFlags
  | 0, (l, f) => (l.headD none, f)
  | n + 1, (l, f) => let (l', f') := treeLevel op l; treeUp op n (l', f.or f')

/-- The fixed binary tree over the 256 element positions (R200). -/
def treeReduce (op : Nat → Nat → Nat × FFlags) (l : List (Option Nat)) : Option Nat × FFlags := treeUp op 8 (l, FFlags.none)

inductive RedKind where
  | sum | max | min
  deriving DecidableEq, Repr

/-- The result with no active element. -/
def redIdentity (k : RedKind) (ty : Ty) : Word :=
  match k, ty with
  | .sum, _ => 0
  | .max, .f32 => 0xFF800000
  | .max, .s32 => BitVec.ofInt 64 i32Min
  | .max, _ => 0
  | .min, .f32 => 0x7F800000
  | .min, .s32 => BitVec.ofInt 64 i32Max
  | .min, _ => 0xFFFFFFFF

/-- The value of an element as an integer type. -/
def intOf (ty : Ty) (c : Cell) : Int := if ty = .s32 then c.toInt else c.toNat

def reduceInt (k : RedKind) (ty : Ty) (l : List Cell) : Word :=
  match l.map (intOf ty) with
  | [] => redIdentity k ty
  | x :: r =>
    match k with
    | .sum => BitVec.ofInt 64 (r.foldl (· + ·) x)
    | .max => BitVec.ofInt 64 (r.foldl max x)
    | .min => BitVec.ofInt 64 (r.foldl min x)

def redOp (k : RedKind) (rm : RM) (x y : Nat) : Nat × FFlags :=
  match k with
  | .sum => fmtF32.addV rm (fmtF32.read x) (fmtF32.read y)
  | .max => fmtF32.minMax true x y
  | .min => fmtF32.minMax false x y

/-- A reduction of the active elements (R199, R200). -/
def reduce (k : RedKind) (h : Head) (xd : XReg) (va : VOp) (ty : Ty) (ma : MReg) (s : State) : Res :=
  guardedVec h [va] (fun s =>
    let act := s.active ma
    let poi := s.mPoi ma || act.any fun i => (s.vread va i).poi
    let r : Word × FFlags :=
      if ty = .f32 then
        let t := treeReduce (redOp k s.rm)
          ((List.range 256).map fun i => if act.contains i then some (s.vread va i).v.toNat else none)
        ((t.1.map fun n => BitVec.ofNat 64 n).getD (redIdentity k ty), t.2)
      else (reduceInt k ty (act.map fun i => (s.vread va i).v), FFlags.none)
    ((((s.putX xd r.1 poi 12).raiseF r.2).holdV s.vGroups).vRecheck).spendFree) s

/-- VRSUM (R199). -/
def execVrsum (h : Head) (xd : XReg) (va : VOp) (ty : Ty) (ma : MReg) (s : State) : Res := reduce .sum h xd va ty ma s
/-- VRMAX (R199). -/
def execVrmax (h : Head) (xd : XReg) (va : VOp) (ty : Ty) (ma : MReg) (s : State) : Res := reduce .max h xd va ty ma s
/-- VRMIN (R199). -/
def execVrmin (h : Head) (xd : XReg) (va : VOp) (ty : Ty) (ma : MReg) (s : State) : Res := reduce .min h xd va ty ma s

/-! ### Compares, select, masks (R201 to R203) -/

/-- The mask whose bits are the listed elements. -/
def maskOf (l : List Nat) : Mask := l.foldl (fun m i => m ||| BitVec.twoPow 256 i) 0

/-- A compare of two cells (R201). -/
def cmpCell (k : FCmp) (ty : Ty) (x y : Cell) : Bool × FFlags :=
  if ty = .f32 then fcmpV k (f32c x) (f32c y)
  else
    let a := intOf ty x
    let b := intOf ty y
    (match k with
     | .eq => decide (a = b)
     | .lt => decide (a < b)
     | .le => decide (a ≤ b), FFlags.none)

/-- A vector compare: the bits of inactive elements keep their values. -/
def vcmp (k : FCmp) (h : Head) (a : VCmp) (s : State) : Res :=
  guardedVec h (a.va :: src2Ops a.b) (fun s =>
    let act := s.active a.ma
    let rs := act.map fun i => (i, cmpCell k a.ty (s.vread a.va i).v (s.vread2 a.b i).v)
    let poi := s.mPoi a.ma || act.any fun i => (s.vread a.va i).poi || (s.vread2 a.b i).poi
    let s' := if a.md = 0 then s
      else s.push (.mask a.md) (maskOf ((rs.filter fun r => r.2.1).map fun r => r.1)) (maskOf act) poi 2
    (((s'.raiseF (rs.foldl (fun f r => f.or r.2.2) FFlags.none)).holdV s.vGroups).vRecheck).spendFree) s

/-- VCMPEQ (R201). -/
def execVcmpeq (h : Head) (a : VCmp) (s : State) : Res := vcmp .eq h a s
/-- VCMPLT (R201). -/
def execVcmplt (h : Head) (a : VCmp) (s : State) : Res := vcmp .lt h a s
/-- VCMPLE (R201). -/
def execVcmple (h : Head) (a : VCmp) (s : State) : Res := vcmp .le h a s

/-- VSEL (R202): the mask selects; every element below VL is written. -/
def execVsel (h : Head) (a : VV) (s : State) : Res :=
  guardedVec h ([a.vd, a.va] ++ src2Ops a.b) (fun s =>
    let pick := fun i => if (s.m a.ma).getLsbD i then s.vread a.va i else s.vread2 a.b i
    let vals := (List.range s.vl).map fun i => (i, ({ pick i with poi := (pick i).poi || s.mPoi a.ma } : GCell))
    ((s.vwrite a.vd vals 2).holdV s.vGroups).vRecheck) s

/-- A mask operation of layout M3 (R203). -/
def maskOp (h : Head) (md : MReg) (v : State → Mask) (poi : State → Bool) (s : State) : Res :=
  guarded h (fun s => ((s.putM md (v s) (poi s) 1).holdV 1).vRecheck) s
/-- MAND (R203). -/
def execMand (h : Head) (md ma mb : MReg) (s : State) : Res :=
  maskOp h md (fun s => s.m ma &&& s.m mb) (fun s => s.mPoi ma || s.mPoi mb) s
/-- MOR (R203). -/
def execMor (h : Head) (md ma mb : MReg) (s : State) : Res :=
  maskOp h md (fun s => s.m ma ||| s.m mb) (fun s => s.mPoi ma || s.mPoi mb) s
/-- MXOR (R203). -/
def execMxor (h : Head) (md ma mb : MReg) (s : State) : Res :=
  maskOp h md (fun s => s.m ma ^^^ s.m mb) (fun s => s.mPoi ma || s.mPoi mb) s
/-- MNOT (R203). -/
def execMnot (h : Head) (md ma : MReg) (s : State) : Res := maskOp h md (fun s => ~~~(s.m ma)) (fun s => s.mPoi ma) s
/-- MPOP (R203): the bits below VL that are set. -/
def execMpop (h : Head) (xd : XReg) (ma : MReg) (s : State) : Res :=
  guarded h (fun s => ((s.putX xd (BitVec.ofNat 64 (s.active ma).length) (s.mPoi ma) 1).holdV 1).vRecheck) s
/-- MSETN (R203). -/
def execMsetn (h : Head) (md : MReg) (xa : XReg) (s : State) : Res :=
  guarded h (fun s =>
    let n := min (s.x xa).toNat 256
    ((s.putM md (BitVec.ofNat 256 (2 ^ n - 1)) (s.xPoi xa) 1).holdV 1).vRecheck) s

/-! ### Slides, permutation, broadcast (R204 to R206) -/

/-- Unit `j` of a vector source: a cell, or one half of a cell with `.S16` (R204). -/
def unitOf (half : Bool) (c : Nat → GCell) (j : Nat) : Nat × Bool :=
  if half then
    let g := c (j / 2)
    (if j % 2 = 0 then g.v.toNat % 65536 else g.v.toNat / 65536, g.poi)
  else ((c j).v.toNat, (c j).poi)

/-- A unit of the concatenation of two sequences of `n` units; zero outside it. -/
def unitAt (n : Nat) (first second : Nat → Nat × Bool) (i : Int) : Nat × Bool :=
  if i < 0 then (0, false)
  else
    let k := i.toNat
    if k < n then first k else if k < 2 * n then second (k - n) else (0, false)

/-- A slide (R204): `up` is VSLIDEUP. -/
def slide (up : Bool) (h : Head) (a : VV) (n : Fin 256) (s : State) : Res :=
  guardedVec h ([a.vd, a.va] ++ src2Ops a.b) (fun s =>
    let half := decide (a.ty = .s16)
    let len := if half then 2 * s.vl else s.vl
    let srcA := unitOf half (s.vread a.va)
    let srcF := match a.b with
      | .vec v => unitOf half (s.vread v)
      | b => fun _ => let g := s.vread2 b 0; (if half then g.v.toNat % 65536 else g.v.toNat, g.poi)
    let res := fun j : Nat =>
      if up then unitAt len srcF srcA ((len : Int) + j - n.val) else unitAt len srcA srcF ((j : Int) + n.val)
    let cell := fun i : Nat =>
      if half then
        let lo := res (2 * i)
        let hi := res (2 * i + 1)
        (⟨BitVec.ofNat 32 (lo.1 + 65536 * hi.1), lo.2 || hi.2 || s.mPoi a.ma⟩ : GCell)
      else ⟨BitVec.ofNat 32 (res i).1, (res i).2 || s.mPoi a.ma⟩
    ((s.vwrite a.vd ((s.active a.ma).map fun i => (i, cell i)) 4).holdV s.vGroups).vRecheck) s

/-- VSLIDEUP (R204). -/
def execVslideup (h : Head) (a : VV) (n : Fin 256) (s : State) : Res := slide true h a n s
/-- VSLIDEDN (R204). -/
def execVslidedn (h : Head) (a : VV) (n : Fin 256) (s : State) : Res := slide false h a n s

/-- VPERM (R205). -/
def execVperm (h : Head) (a : VV) (s : State) : Res :=
  guardedVec h ([a.vd, a.va] ++ src2Ops a.b) (fun s =>
    let cell := fun i : Nat =>
      let k := s.vread2 a.b i
      let g : GCell := if k.v.toNat < s.vl then s.vread a.va k.v.toNat else GCell.zero
      (⟨g.v, g.poi || k.poi || s.mPoi a.ma⟩ : GCell)
    ((s.vwrite a.vd ((s.active a.ma).map fun i => (i, cell i)) 4).holdV s.vGroups).vRecheck) s

/-- VBCAST (R206). -/
def execVbcast (h : Head) (vd : VOp) (xa : XReg) (ma : MReg) (s : State) : Res :=
  guardedVec h [vd] (fun s =>
    let g : GCell := ⟨(s.x xa).setWidth 32, s.xPoi xa || s.mPoi ma⟩
    ((s.vwrite vd ((s.active ma).map fun i => (i, g)) 2).holdV s.vGroups).vRecheck) s

end Sys2Proof.Machine
end

