-- ==== Sys2Proof/Machine/Block.lean ====
section
/-! DEFINITION. Block format instructions: QST, BDEC, BHDR and CVT (R162 to R177). -/

namespace Sys2Proof.Machine

/-! ### QST (R169 to R171) -/

/-- Whether a QST fires now: its queue has room for its blocks, and the hart's earlier pushes to the queue have fired
(R170). -/
def Core.qstFires (k : Core) (grp : Nat) : Bool :=
  match k.qst.filter fun b => b.grp = grp && !b.fired with
  | [] => false
  | b :: r =>
    r.length + 1 ≤ k.room b.q && !k.pushHeld b.hart b.ser (some grp) && !k.eng.any fun e => e.hart = b.hart && e.ser < b.ser && e.fire.isNone &&
      (match e.kind with | .qpush q _ _ => decide (q = b.q) | _ => false)

/-- Fires a QST: block k enters the queue 8 + 2k cycles later, and the V slot is held for 2 cycles a block (R171). -/
def State.fireQst (c : CoreId) (grp : Nat) (s : State) : State :=
  let k := s.coreAt c
  let t := s.cycleAt c
  if !k.frozen && k.qstFires grp then
    let n := (k.qst.filter fun b => b.grp = grp).length
    let hart := (k.qst.filter fun b => b.grp = grp).getLast?.any fun b => b.hart
    let s := s.updCoreAt c fun k =>
      { k with qst := k.qst.map fun b => if b.grp = grp then { b with fired := true, due := t + 8 + 2 * b.k } else b }
    s.updHartAt (2 * c + (if hart then 1 else 0)) fun h => { h with time := { h.time with vNext := max h.time.vNext (t + 2 * n) } }
  else s

/-- QST: forms nb blocks from its source as it stood before the bundle. -/
def execQst (h : Head) (vop : VOp) (q : QReg) (w8 : Bool) (ae : BitVec 4) (fb nb : Fin 4) (s : State) : Res :=
  guardedHalf h [vop.half] (State.qform q (blockSize w8) 0 (State.accCheck [vop] fun s =>
    let n := nb.val + 1
    let blk := fun k : Nat =>
      let els := (List.range 64).map fun j =>
        let i := 64 * (fb.val + k) + j
        if i < s.vl then s.vread vop i else GCell.zero
      let (img, qn, qc) := quantise w8 ae (els.map fun g => g.v)
      ({ id := s.fresh + k, grp := s.fresh, k := k, fired := false, hart := slotOf s.cur, ser := s.hart.ser, due := 0, q := q, image := img,
         qnan := qn, qclip := qc, poi := els.any fun g => g.poi } : QstBlk)
    let s' : State := { (s.updCore fun k => { k with qst := k.qst ++ (List.range n).map blk }) with
      fresh := s.fresh + n, freeCtr := s.freeCtr + 1 }
    (s'.fireQst (coreOf s.cur) s.fresh).vRecheck)) s

/-! ### BDEC (R172 to R174) -/

/-- The accesses of one block: one aligned line, or five aligned 16-byte pieces (R129, R160). -/
def blockPieces (w8 : Bool) (k : Nat) (va : Word) : List Req :=
  if w8 then (List.range 5).map fun j => (k, va + BitVec.ofNat 64 (16 * j), 16) else [(k, va, 64)]

/-- Blocks of a BDEC that hold an element below VL. -/
def blocksRead (fb nb : Fin 4) (vl : Nat) : List Nat := (List.range (nb.val + 1)).filter fun k => 64 * (fb.val + k) < vl

/-- Sends a BDEC's reads of the blocks `reqs`; its header checks, and then the fault `f`, are reported when the data has
arrived (R173). -/
def State.blockLoad (kind : LandKind) (sp : Space) (reqs : List Req) (ls : List Loc) (dist slots : Nat) (groups : List Nat)
    (f : Option TrapRec) (s : State) : State :=
  let h := s.hart
  let es := (reqs.zip ls).map fun x => mkElem h x.1 (some x.2)
  let l : Landing :=
    { s.newLanding kind sp dist slots groups with elems := es, extra := 4, bar := s.barNow false false, failed := badElem es }
  let s1 := { s with fresh := s.fresh + 1 }
  let x : Xlat := { id := l.id, ser := h.ser, head := h.bun.head, due := 0, walking := true, fault := f }
  let s2 := s1.updHart fun h => { h with xl := h.xl ++ [x] }
  s2.addLanding (if h.acquireHolds h.ser then l else s2.sendLoad s.cur s.now l)

/-- BDEC (R172): faults are taken block by block, the address checks of a block before its header check (R173). TRAPINFO of an address fault is
the address of its block (log 64). A BDEC that reads no block uses no address, and consumes no poison (log 65). -/
def execBdec (h : Head) (vop : VOp) (xa : XReg) (disp : BitVec 20) (sp : Space) (w8 : Bool) (fb nb : Fin 4)
    (dist : Fin 4096) (s : State) : Res :=
  guardedVec h [vop] (fun s => s.unlessPoison (s.xPoi xa && blocksRead fb nb s.vl ≠ []) fun s =>
    let blocks := blocksRead fb nb s.vl
    let s := s.holdV (nb.val + 1)
    if blocks = [] then s
    else
      let e := s.eaDisp xa disp
      let reqs := blocks.flatMap fun k => blockPieces w8 k (e + BitVec.ofNat 64 (k * blockSize w8))
      let cells := blocks.flatMap fun k => (List.range 64).filterMap fun j =>
        let i := 64 * (fb.val + k) + j
        if i < s.vl then some (groupOf (vop.cell i)) else none
      let kind : LandKind := .blocks vop w8 fb.val (nb.val + 1) s.vl
      match s.translateAll s.cur s.launchId sp .load (reqs.map fun r => r.2) with
      | .all ls => s.blockLoad kind sp reqs ls dist.val blocks.length cells.eraseDups none
      | .walk _ => s.timedLoad kind sp reqs dist.val blocks.length false false cells.eraseDups none 4
      | .fault f a =>
        let t := s.memTrap f (reqAddr reqs a) sp .load
        let bad := ((reqs.find? fun r => r.2.1 = a).map fun r => r.1).getD 0
        let good := reqs.filter fun r => r.1 < bad
        match s.translateAll s.cur s.launchId sp .load (good.map fun r => r.2) with
        | .all ls => if good = [] then s.pushXlat (transCycles sp none) (some t)
                     else s.blockLoad kind sp good ls dist.val blocks.length cells.eraseDups (some t)
        | _ => s.pushXlat (transCycles sp none) (some t)) s

/-! ### BHDR (R175) -/

/-- BHDR: a timed request for the 16 bytes of a header; the V slot, but no half. -/
def execBhdr (h : Head) (xd xa : XReg) (sp : Space) (wd : Fin 3) (dist : Fin 4096) (s : State) : Res :=
  guarded h (fun s => s.unlessPoison (s.xPoi xa) fun s =>
    (s.timedLoad (.header xd wd) sp [(0, s.x xa, 16)] dist.val (if xd = 0 then 0 else 1) false false [] none 2).holdV 1) s

/-- The summary that BHDR lands (R175). -/
def headerSummary (wd : Nat) (h : List Byte) : Word :=
  let status := match headerFault wd h with
    | none => 0
    | some r => 1 + r
  BitVec.ofNat 64 (pack [(8, (byteAt h 0).toNat), (8, (byteAt h 1).toNat), (4, status), (12, 0), (16, crc16 (h.take 14))])

/-! ### CVT (R176, R177) -/

/-- One element of CVT: its cell, the flags of R69 and DRANGE. -/
def cvtCell (rm : RM) (f : CFmt) (c : Cell) : Cell × FFlags × Bool :=
  let v := f32c c
  match f with
  | .bf | .w => let r := fmtBf.convert rm v; (widenBf (BitVec.ofNat 16 r.1), r.2, false)
  | .h => let r := fmtH.convert rm v; (wideC .h (BitVec.ofNat 16 r.1), r.2, false)
  | .lf | .sf => let r := convC f v; (widenBf r.1, FFlags.none, r.2)

/-- CVT (R176). -/
def execCvt (h : Head) (vd va : VOp) (ma : MReg) (f : CFmt) (s : State) : Res :=
  guardedVec h [vd, va] (fun s =>
    let rs := (s.active ma).map fun i => let g := s.vread va i; (i, cvtCell s.rm f g.v, g.poi || s.mPoi ma)
    let s' := s.vwrite vd (rs.map fun r => (r.1, ⟨r.2.1.1, r.2.2⟩)) 4
    let s' := s'.raiseF (rs.foldl (fun fl r => fl.or r.2.1.2.1) FFlags.none)
    let s' := if rs.any fun r => r.2.1.2.2 then s'.raiseV vfDrange else s'
    (s'.holdV s.vGroups).vRecheck) s

end Sys2Proof.Machine
end

