-- ==== Sys2Proof/Machine/Stream.lean ====
section
/-! DEFINITION. Shape objects and streams at issue: SHAPE, SFREE, STREAM, SWAIT and SSTOP (R229 to R245). -/

namespace Sys2Proof.Machine

/-! ### Shape objects (R229 to R231) -/

/-- A shape object from its bytes. -/
def shapeOf (b : List Byte) : Shape :=
  let n1 := fun i => (byteAt b i).toNat
  let n2 := fun i => n1 i + 256 * n1 (i + 1)
  { layout := n1 1, width := n1 2, decode := n1 3, fmt := n1 4, count := n2 6, h := n2 8, w := n2 10, c := n2 12,
    kh := n1 14, kw := n1 15, stride := n1 16, pad := n1 17, dil := n1 18 }

def Shape.isRow (o : Shape) : Bool := o.layout = 1 || o.layout = 3 || o.layout = 5
def Shape.isCol (o : Shape) : Bool := o.layout = 2 || o.layout = 4 || o.layout = 6
def Shape.isBlocks (o : Shape) : Bool := o.layout = 0x10
def Shape.isUnf (o : Shape) : Bool := o.layout = 0x20 || o.layout = 0x21
def Shape.isWrite (o : Shape) : Bool := o.layout = 0x30

/-- OH and OW of an unfolding (R233), as integers. -/
def outDim (d pad dil k stride : Nat) : Int := ((d : Int) + 2 * pad - dil * ((k : Int) - 1) - 1) / (max stride 1 : Nat) + 1
def Shape.oh (o : Shape) : Int := outDim o.h o.pad o.dil o.kh o.stride
def Shape.ow (o : Shape) : Int := outDim o.w o.pad o.dil o.kw o.stride

/-- Conditions of R231 in the order of its table: the offset of a field and whether it is valid. -/
def shapeChecks (b : List Byte) : List (Nat × Bool) :=
  let o := shapeOf b
  let unf := o.isUnf
  let dec := o.isBlocks && o.decode = 1
  let img := o.isBlocks && o.decode = 0
  let upTo := fun n : Nat => decide (1 ≤ o.count ∧ o.count ≤ n)
  let one := fun v : Nat => if unf then decide (1 ≤ v) else decide (v = 0)
  ([ (0, byteAt b 0 = 1),
    (1, o.isRow || o.isCol || o.isBlocks || unf || o.isWrite),
    (2, if o.isBlocks then o.width = 6 || o.width = 8
        else if o.isWrite then o.width = 0 || o.width = 6 || o.width = 8 else o.width = 0),
    (3, if o.isBlocks then o.decode ≤ 1 else o.decode = 0),
    (4, if dec then o.fmt = (if o.width = 8 then 2 else 3) else if img || o.isWrite then o.fmt = 0 else o.fmt ≤ 3),
    (6, if o.isRow then upTo (min o.w 256) else if o.isCol then upTo (min o.h 256)
        else if dec then upTo (min o.w 256) else if unf then upTo 256
        else if o.isWrite && o.width = 0 then upTo 256 else o.count = 0),
    (8, 1 ≤ o.h),
    (10, if img || o.isWrite then o.w = 0 else if dec then 1 ≤ o.w && o.w % 64 = 0 else 1 ≤ o.w),
    (12, one o.c), (14, one o.kh), (15, one o.kw), (16, one o.stride), (18, one o.dil),
    (17, unf || o.pad = 0),
    (8, !unf || decide (1 ≤ o.oh)), (10, !unf || decide (1 ≤ o.ow)),
    (5, byteAt b 5 = 0) ] : List (Nat × Bool)) ++
  (List.range 77).map fun i => (19 + i, decide (byteAt b (19 + i) = 0))

/-- The offset of the first invalid field (R231). -/
def shapeFault (b : List Byte) : Option Nat := ((shapeChecks b).find? fun c => !c.2).map fun c => c.1

/-! ### Counting entries and bytes (R232, R233, R237) -/

/-- Bytes of an element of a dense layout. -/
def Shape.elemSize (o : Shape) : Nat := if o.layout = 5 || o.layout = 6 then 4 else 2
def Shape.blockBytes (o : Shape) : Nat := if o.width = 8 then 80 else 64

/-- Entries that a stream produces or consumes (R232). -/
def Shape.entries (o : Shape) : Nat :=
  if o.isCol then o.w
  else if o.isUnf then ceilDiv (o.oh.toNat * o.ow.toNat) (max o.count 1) * (o.kh * o.kw * o.c)
  else o.h

/-- Bytes of an entry's image (R237). -/
def Shape.image (o : Shape) : Nat :=
  if o.isBlocks then (if o.decode = 1 then 2 * o.count else o.blockBytes)
  else if o.isWrite then (if o.width = 0 then 2 * o.count else o.blockBytes)
  else 2 * o.count

/-- Bytes of a stream's extent (R237). -/
def Shape.extent (o : Shape) : Nat :=
  if o.isBlocks then (if o.decode = 1 then o.h * (o.w / 64) * o.blockBytes else o.h * o.blockBytes)
  else if o.isWrite then o.h * o.image
  else if o.isUnf then o.h * o.w * o.c * 2
  else o.h * o.w * o.elemSize

/-- Alignment of a stream's base (R237). -/
def Shape.align (o : Shape) : Nat :=
  if o.isBlocks || (o.isWrite && o.width ≠ 0) then (if o.width = 8 then 16 else 64) else o.elemSize

/-! ### The shape table (R234) -/

def Cluster.shapeAt (c : Cluster) (i : Nat) : ShapeEnt := SMap.look ShapeEnt.reset c.shapes i
def Cluster.updShape (c : Cluster) (i : Nat) (f : ShapeEnt → ShapeEnt) : Cluster :=
  { c with shapes := SMap.put c.shapes i (f (c.shapeAt i)) }
def Cluster.tileAt (c : Cluster) (i : Nat) : TileEnt := SMap.look TileEnt.reset c.tiles i
def Cluster.updTile (c : Cluster) (i : Nat) (f : TileEnt → TileEnt) : Cluster :=
  { c with tiles := SMap.put c.tiles i (f (c.tileAt i)) }

/-- Whether a handle is valid for a launch (R234). -/
def Cluster.shapeValid (c : Cluster) (launch handle : Nat) : Bool :=
  let e := c.shapeAt (handle % 256)
  e.sealed && e.owner = launch && e.gen.toNat = handle / 256 % 256

/-! ### SHAPE and SFREE (R235, R236) -/

/-- Seals an object in the lowest free entry of the cluster's table (R235). -/
def State.sealShape (xd : XReg) (e : Word) (b : List Byte) (lat : Nat) (s : State) : State :=
  match shapeFault b with
  | some off => s.raiseObj cBadshape e off 0
  | none =>
    match (List.range 256).find? fun i => !(s.cluster.shapeAt i).sealed with
    | none => s.raiseObj cBadshape 0 0 1
    | some i =>
      let gen := (s.cluster.shapeAt i).gen + 1
      let launch := s.launchId
      ((s.updCluster fun c => c.updShape i fun _ => ⟨true, launch, gen, 0, shapeOf b⟩).putX xd
        (BitVec.ofNat 64 (gen.toNat * 256 + i)) false lat).awaitReply lat

/-- The reads of the object that SHAPE names. -/
def shapeReads (e : Word) : List (Word × Nat) := (List.range 3).map fun i => (e + BitVec.ofNat 64 (32 * i), 32)

/-- SHAPE (R235), once its reads have been performed, each half a load's latency after it was sent (R433). -/
def execShape (h : Head) (xd xa : XReg) (sp : Space) (s : State) : Res :=
  guarded h (fun s => s.unlessPoison (s.xPoi xa) fun s =>
    let e := s.x xa
    match s.resolveAll s.cur s.launchId sp .load (shapeReads e) with
    | (.error (f, a), s) => s.raiseMem f a sp .load
    | (.ok (ls, walk), s) =>
      let parts := s.unitParts ls 32
      let lat := walk + (ls.foldl (fun m l => max m (s.loadLatency s.cur l)) 0) + 8 - s.hart.bun.spent
      if ls.any fun l => l.bad then s.raiseMem ⟨cMemerr, reqReason (failOf ls), 7⟩ e sp .load
      else s.unlessPoison (parts.any fun p => p.2) (State.sealShape xd e (parts.flatMap fun p => p.1) lat)) s

/-- SFREE (R236). -/
def execSfree (h : Head) (xa : XReg) (s : State) : Res :=
  guarded h (fun s => s.unlessPoison (s.xPoi xa) fun s =>
    let hd := (s.x xa).toNat % 65536
    let i := hd % 256
    if !s.cluster.shapeValid s.launchId hd then s.raiseObj cBadshape 0 i 2
    else if (s.cluster.shapeAt i).uses ≠ 0 then s.raiseObj cBadshape 0 i 3
    else (s.updCluster fun c => c.updShape i fun e => { e with sealed := false }).awaitReply 4) s

/-! ### STREAM (R237, R242) -/

/-- Whether [off, off + len) of the issuing cluster's scratchpad lies inside a tile's extent (R237). -/
def State.insideTile (s : State) (t : TileEnt) (sp : Space) (base : Word) (len : Nat) : Bool :=
  let off := base.toNat % 2 ^ 23
  sp = .s && base.toNat / 2 ^ 23 % 32 = clusterOf s.cur && t.off ≤ off && off + len ≤ t.off + 64 * t.len

/-- The latency before a stream's first entry (R242). -/
def State.firstEntry (s : State) (o : Shape) (sp : Space) (base : Word) : Nat :=
  if o.isWrite then 0
  else
    let l := match s.translate s.cur s.launchId sp .load 1 base with
      | .loc l => s.loadLatency s.cur l
      | _ => s.gLatency (dieOf s.cur) none 0
    l + (if o.isBlocks || o.isUnf then 8 else 4)

/-- Starts a stream in its slot. -/
def State.startStream (slot : Fin 4) (q : QReg) (shapeIdx : Nat) (sp : Space) (base : Word) (tile : Option Nat) (s : State) :
    State :=
  let o := (s.cluster.shapeAt shapeIdx).obj
  let st : Stream :=
    { active := true, obj := o, shapeIdx := shapeIdx, q := q, sp := sp, base := base, hart := slotOf s.cur,
      tile := if o.isWrite then none else tile, next := 0, total := o.entries, done := 0, stopped := false,
      stopping := false, halted := false, nextAt := s.now + s.firstEntry o sp base, start := posOf s.hart.ser s.hart.bun.head, flights := [] }
  let s := s.updCore fun k => { k with streams := k.streams.set slot.val st }
  s.updCluster fun c =>
    let c := c.updShape shapeIdx fun e => { e with uses := e.uses + 1 }
    match st.tile with
    | some t => c.updTile t fun e => { e with refs := e.refs + 1 }
    | none => c

/-- STREAM (R237): its six checks in order. -/
def execStream (h : Head) (slot : Fin 4) (q : QReg) (xa xb : XReg) (sp : Space) (tile : Option XReg) (s : State) : Res :=
  guarded h (fun s =>
    s.unlessPoison (s.xPoi xa || s.xPoi xb || tile.elim false s.xPoi) fun s =>
      let hd := (s.x xa).toNat % 65536
      let o := (s.cluster.shapeAt (hd % 256)).obj
      let base := s.x xb
      let t := tile.map fun r => (s.x r).toNat % 256
      let acc := if o.isWrite then Acc.store else Acc.load
      if (s.core.streams.get slot).active then s.raiseObj cStreambusy 0 slot.val 0
      else if !s.cluster.shapeValid s.launchId hd then s.raiseObj cBadshape 0 (hd % 256) 2
      else s.qform q o.image 0 (fun s =>
        match t.filter fun i => !s.insideTile (s.cluster.tileAt i) sp base o.extent with
        | some i => s.raiseObj cTilestate 0 i 2
        | none =>
          if base.toNat % o.align ≠ 0 then s.raiseMem (.plain cAlign) base sp acc
          else
            match s.checkExtent s.cur s.launchId sp acc base o.extent with
            | some (f, a) => s.raiseMem f a sp acc
            | none => (s.startStream slot q (hd % 256) sp base t).wantCkpt .go)) s

/-! ### SWAIT and SSTOP (R243, R244) -/

/-- The value of SWAIT. -/
def Stream.report (t : Stream) : Word := BitVec.ofNat 64 (pack [(32, t.done), (1, b01 t.stopped)])

/-- SWAIT (R243): it issues when the slot is idle. -/
def execSwait (h : Head) (xd : XReg) (slot : Fin 4) (s : State) : Res :=
  guarded h (fun s => s.putX xd (s.core.streams.get slot).report false 1) s

/-- Drops the references of a stream that has ended. -/
def Cluster.dropRefs (c : Cluster) (t : Stream) : Cluster :=
  let c := c.updShape t.shapeIdx fun e => { e with uses := e.uses - 1 }
  match t.tile with
  | some i => c.updTile i fun e => { e with refs := e.refs - 1 }
  | none => c

/-- Makes the slot idle once its accesses in flight have completed. -/
def State.endStream (core : CoreId) (slot : Fin 4) (s : State) : State :=
  let t := (s.coreAt core).streams.get slot
  if t.active then
    (s.updCoreAt core fun k => { k with streams := k.streams.set slot.val { t with active := false } }).updClusterAt
      (core / 16) fun c => c.dropRefs t
  else s

/-- Stops the stream of a slot (R244): no further entry is pushed or popped. -/
def State.stopStream (core : CoreId) (slot : Fin 4) (s : State) : State :=
  let t := (s.coreAt core).streams.get slot
  if t.active then
    let s := s.updCoreAt core fun k =>
      { k with streams := k.streams.set slot.val { t with stopping := true, stopped := true } }
    if t.flights.isEmpty then s.endStream core slot else s
  else s

/-- SSTOP (R244). -/
def execSstop (h : Head) (slot : Fin 4) (s : State) : Res := guarded h (fun s => (s.stopStream (coreOf s.cur) slot).wantCkpt .go) s

end Sys2Proof.Machine
end

