-- ==== Sys2Proof/Machine/VecMem.lean ====
section
/-! DEFINITION. Vector loads and stores: VLD, VST, VLDS, VSTS, VLD6, VGATH and VSCAT (R207 to R213). -/

namespace Sys2Proof.Machine

/-! ### Elements (R208, R209) -/

/-- Bytes of an element in memory (R208). -/
def vecSize (ty : Ty) : Nat := match ty with
  | .w => 4
  | t => t.size

/-- Loaded bytes to a cell (R208). -/
def vecLoad (ty : Ty) (v : Nat) : Cell :=
  match ty with
  | .w | .f32 | .s32 | .z32 => BitVec.ofNat 32 v
  | .s16 => (BitVec.ofNat 16 v).signExtend 32
  | .z16 => BitVec.ofNat 32 (v % 65536)
  | .s8 => (BitVec.ofNat 8 v).signExtend 32
  | .z8 => BitVec.ofNat 32 (v % 256)
  | .bf => widenBf (BitVec.ofNat 16 v)
  | .h => wideC .h (BitVec.ofNat 16 v)
  | .s6 => (BitVec.ofNat 6 v).signExtend 32
  | .z6 => BitVec.ofNat 32 (v % 64)

/-- A cell to the bytes that a store writes, with the flags of the conversion (R208). -/
def vecStore (rm : RM) (ty : Ty) (c : Cell) : List Byte × FFlags :=
  match ty with
  | .bf => let r := fmtBf.convert rm (f32c c); (leBytes 2 r.1, r.2)
  | .h => let r := fmtH.convert rm (f32c c); (leBytes 2 r.1, r.2)
  | t => (leBytes (vecSize t) c.toNat, FFlags.none)

def wordOfNat (n : Nat) : Word := BitVec.ofNat 64 n

/-- Addresses of the forms (R209). -/
def addrUnit (b : Word) (ty : Ty) (i : Nat) : Word := b + wordOfNat (i * vecSize ty)
def addrStride (b st : Word) (i : Nat) : Word := b + wordOfNat i * st
def State.addrIndex (s : State) (xa : XReg) (x : VX) (i : Nat) : Word :=
  s.x xa + (indexValue x.iw x.sg (s.vread x.vx i).v <<< x.sc.val)

/-! ### Loads (R211, R213) -/

/-- A vector load of the active elements at the given addresses. -/
def State.vecLoadOp (a : VM) (reqs : Nat → List Req) (bo slots extra interval : Nat) (s : State) : State :=
  let act := s.active a.ma
  let s := s.holdV interval
  if act = [] then s
  else
    s.timedLoad (.vector a.vop a.ty bo) a.sp (act.flatMap reqs) a.dist.val slots false false (activeGroups a.vop act)
      (some act.length) extra

/-- Interval of the strided and indexed forms (R213). -/
def stridedInterval (n : Nat) : Nat := max 1 (ceilDiv n 16)

/-- VLD (R207). -/
def execVld (h : Head) (a : VM) (disp : BitVec 20) (s : State) : Res :=
  guardedVec h [a.vop] (fun s => s.unlessPoison (s.touches a.ma && (s.xPoi a.xa || s.mPoi a.ma)) fun s =>
    let b := s.eaDisp a.xa disp
    s.vecLoadOp a (fun i => [(i, addrUnit b a.ty i, vecSize a.ty)]) 0 s.vGroups (2 * s.vGroups) s.vGroups) s

/-- VLDS (R207). -/
def execVlds (h : Head) (a : VM) (xb : XReg) (disp : BitVec 20) (s : State) : Res :=
  guardedVec h [a.vop] (fun s => s.unlessPoison (s.touches a.ma && (s.xPoi a.xa || s.xPoi xb || s.mPoi a.ma)) fun s =>
    let b := s.eaDisp a.xa disp
    let n := (s.active a.ma).length
    s.vecLoadOp a (fun i => [(i, addrStride b (s.x xb) i, vecSize a.ty)]) 0 s.vGroups (ceilDiv n 16) (stridedInterval n)) s

/-- Accesses of element `i` of VLD6: the one or two bytes that hold its six bits (R209). -/
def bits6Req (b : Word) (bo i : Nat) : List Req :=
  let bit := 2 * bo + 6 * i
  let at0 := b + wordOfNat (bit / 8)
  if bit % 8 ≤ 2 then [(i, at0, 1)] else [(i, at0, 1), (i, at0 + 1, 1)]

/-- VLD6 (R207). -/
def execVld6 (h : Head) (a : VM) (disp : BitVec 20) (bo : Fin 4) (s : State) : Res :=
  guardedVec h [a.vop] (fun s => s.unlessPoison (s.touches a.ma && (s.xPoi a.xa || s.mPoi a.ma)) fun s =>
    s.vecLoadOp a (bits6Req (s.eaDisp a.xa disp) bo.val) bo.val s.vGroups (2 * s.vGroups) s.vGroups) s

/-- VGATH (R207); its entries are raised to the number of element groups with an active element (R347). -/
def execVgath (h : Head) (a : VM) (x : VX) (s : State) : Res :=
  guardedVec h [a.vop, x.vx] (fun s =>
    let act := s.active a.ma
    s.unlessPoison (s.touches a.ma && (s.xPoi a.xa || s.mPoi a.ma || act.any fun i => (s.vread x.vx i).poi)) fun s =>
      let n := act.length
      (s.vecLoadOp a (fun i => [(i, s.addrIndex a.xa x i, vecSize a.ty)]) 0
        (max (ceilDiv n 16) (groupsWithActive act)) (ceilDiv n 16) (stridedInterval n)).spendFree) s

/-! ### Stores (R212) -/

/-- A vector store of the active elements. -/
def State.vecStoreOp (a : VM) (addr : Nat → Word) (ord : Bool) (slots interval : Nat) (s : State) : State :=
  let act := s.active a.ma
  s.unlessPoison (act.any fun i => (s.vread a.vop i).poi) fun s =>
    let rs := act.map fun i => (addr i, vecStore s.rm a.ty (s.vread a.vop i).v)
    let s := s.holdV interval
    if act = [] then s
    else
      ((s.withhold a.sp (rs.map fun r => (r.1, r.2.1)) false ord (some act.length) slots).raiseF
        (rs.foldl (fun f r => f.or r.2.2) FFlags.none)).spendFree

/-- VST (R207). -/
def execVst (h : Head) (a : VM) (disp : BitVec 20) (ord : Bool) (s : State) : Res :=
  guardedVec h [a.vop] (fun s => s.unlessPoison (s.touches a.ma && (s.xPoi a.xa || s.mPoi a.ma)) fun s =>
    let b := s.eaDisp a.xa disp
    s.vecStoreOp a (addrUnit b a.ty) ord s.vGroups s.vGroups) s

/-- VSTS (R207). -/
def execVsts (h : Head) (a : VM) (xb : XReg) (disp : BitVec 20) (ord : Bool) (s : State) : Res :=
  guardedVec h [a.vop] (fun s => s.unlessPoison (s.touches a.ma && (s.xPoi a.xa || s.xPoi xb || s.mPoi a.ma)) fun s =>
    let b := s.eaDisp a.xa disp
    s.vecStoreOp a (addrStride b (s.x xb)) ord s.vGroups (stridedInterval (s.active a.ma).length)) s

/-- VSCAT (R207). -/
def execVscat (h : Head) (a : VM) (x : VX) (ord : Bool) (s : State) : Res :=
  guardedVec h [a.vop, x.vx] (fun s =>
    let act := s.active a.ma
    s.unlessPoison (s.touches a.ma && (s.xPoi a.xa || s.mPoi a.ma || act.any fun i => (s.vread x.vx i).poi)) fun s =>
      let n := act.length
      s.vecStoreOp a (fun i => s.addrIndex a.xa x i) ord (ceilDiv n 16) (stridedInterval n)) s

end Sys2Proof.Machine
end

