-- ==== Sys2Proof/Machine/Perform.lean ====
section
/-! DEFINITION. Performing accesses at their ordering points: stores, atomics, vector atomics and APPEND, with the allocation of shadow lines (R129 to R133, R149 to R152, R219, R317, R319, R433). -/

namespace Sys2Proof.Machine

/-! ### Room in the shadow (R317, R319) -/

/-- Shadow lines that writes of a launch to the given locations would allocate. -/
def State.newLines (s : State) (launch : Nat) (ls : List Loc) : Nat :=
  ((ls.filter fun l => l.unit = MemUnit.shadow launch && s.allocates launch l.addr).map fun l => l.addr / 64).eraseDups.length

/-- Whether an allocation of the launch waits: it overflows, or has overflowed and is not yet irrevocable (R319). -/
def State.noRoom (s : State) (launch : Nat) (ls : List Loc) : Bool :=
  let l := s.launchAt launch
  let n := s.newLines launch ls
  n ≠ 0 && !l.irrev && (l.overflow || l.rc.quota < l.charged + 64 * n || s.poolSize l.part < s.poolLines l.part + n)

/-- Marks a launch as overflowing (R319). -/
def State.overflow (launch : Nat) (s : State) : State := s.updLaunchAt launch fun l => { l with overflow := true }

/-! ### Stores (R433) -/

/-- Bytes of a queue entry that an ordinary store covers become unpredictable (R219). -/
def Core.scramble (ctr : Nat) (k : Core) (a n : Nat) : Core :=
  k.queues.toList.foldl (fun k q =>
    if !q.conf then k
    else q.ents.foldl (fun k e =>
      let b := q.addr e.slot
      if a < b + q.esize ∧ b < a + n then
        { k with tcm := k.tcm.setBytes b ((List.range q.esize).map fun i => Config.freeByte ctr (b + i)) } else k) k) k

/-- Whether an extent holds bytes of a future on which a waiter is registered (R286). -/
def HAlloc.waits (a : HAlloc) (at0 n : Nat) : Bool := a.futs.any fun f => overlaps at0 n f 16

/-- The bytes that a store leaves (R286, R2, R3): a store to a future with a registered waiter, which software must not make, leaves
unpredictable ones. -/
def State.storedBytes (s : State) (l : Loc) (bs : List Byte) : List Byte :=
  match l.unit with
  | .sram d i => if (s.halloc d i).waits l.addr bs.length then (List.range bs.length).map fun j => Config.freeByte s.freeCtr (l.addr + j) else bs
  | _ => bs

/-- Performs one element of a store. -/
def State.performElem (s : State) (e : SElem) : State :=
  let s1 := s.unitWrite e.loc.unit e.loc.addr (s.storedBytes e.loc e.data) e.poi
  match e.loc.unit with
  | .tcm c => (s1.updCoreAt c fun k => k.scramble s.freeCtr e.loc.addr e.data.length).spendFree
  | .sram _ _ => s1.spendFree
  | _ => s1

/-- Whether unpoisoned elements of a store set cover all 64 bytes of a line. -/
def coversLine (es : List SElem) (u : MemUnit) (line : Nat) : Bool :=
  (List.range 64).all fun i => es.any fun e =>
    !e.poi && e.loc.unit = u && e.loc.addr ≤ 64 * line + i && 64 * line + i < e.loc.addr + e.data.length

/-- Clears the poison of a line that a store set has written whole with unpoisoned data (R398). -/
def State.clearLine (s : State) (u : MemUnit) (line : Nat) : State :=
  s.unitWrite u (64 * line) (s.locBytes ⟨u, 64 * line⟩ 64) false

/-- Performs the elements of a store together: the lines that they cover whole lose their poison (R398). -/
def State.performStore (s : State) (es : List SElem) : State :=
  let s1 := es.foldl State.performElem s
  let lines := (es.map fun e => (e.loc.unit, e.loc.addr / 64)).eraseDups
  lines.foldl (fun s x => if s.unitPoisoned x.1 (64 * x.2) && coversLine es x.1 x.2 then s.clearLine x.1 x.2 else s) s1

/-! ### Atomics (R149) -/

/-- Performs a scalar atomic: the old value, whether its line is poisoned, and the state after. A failed AMOCAS makes no write. -/
def State.performAmo (s : State) (k : AtomKind) (w : Nat) (l : Loc) (b c : Word) : Nat × Bool × State :=
  let old := s.locNat l w
  let poi := s.locPoisoned l w
  match k.apply w old b.toNat c.toNat with
  | some v => (old, poi, (s.unitWrite l.unit l.addr (s.storedBytes l (leBytes w v)) false).spendFree)
  | none => (old, poi, s)

/-! ### Vector atomics (R150) -/

/-- Applies lanes at one address one after another: the old value that each lane finds, and the final value. -/
def applyLanes (k : AtomKind) : Nat → List (Nat × Cell) → List (Nat × Nat) × Nat
  | old, [] => ([], old)
  | old, (i, v) :: r =>
    let new := (k.apply 4 old v.toNat 0).getD old
    let (rs, fin) := applyLanes k new r
    ((i, old) :: rs, fin)

/-- Removes the item at index `i`. -/
def takeAt (l : List Cell) (i : Nat) : Cell × List Cell := (l.getD i 0, l.eraseIdx i)

/-- Combines items by a binary tree of rne32 additions of the device's choosing (R150, `.RA`). -/
def treeAdd (ctr : Nat) : Nat → List Cell → Cell
  | 0, l => l.headD 0
  | n + 1, l =>
    if l.length ≤ 1 then l.headD 0
    else
      let (x, l) := takeAt l (Config.freeChoice ctr (2 * n) % l.length)
      let (y, l) := takeAt l (Config.freeChoice ctr (2 * n + 1) % l.length)
      treeAdd ctr n (rne32Add x y :: l)

/-- One address of a vector atomic: FADD in ascending lane order, or by a tree with `.RA`; the other operations in an order
of the device's choosing. -/
def vamoAt (ctr : Nat) (k : AtomKind) (ra : Bool) (old : Nat) (lanes : List (Nat × Cell)) : List (Nat × Nat) × Nat :=
  if k = .fadd then
    if ra then ([], (treeAdd ctr lanes.length (BitVec.ofNat 32 old :: lanes.map fun x => x.2)).toNat)
    else applyLanes k old lanes
  else
    applyLanes k old
      ((sortBy (fun a b => decide (a.1 ≤ b.1)) (lanes.map fun x => (Config.freeChoice ctr x.1, x))).map fun x => x.2)

/-- Performs a vector atomic: the old value of every lane with its poison mark, and the state after. -/
def State.performVamo (s : State) (k : AtomKind) (ra : Bool) (lanes : List (Nat × Loc × Cell)) :
    List (Nat × Nat × Bool) × State :=
  let locs := (lanes.map fun x => x.2.1).eraseDups
  let r := locs.foldl (fun (acc : List (Nat × Nat × Bool) × State) l =>
    let old := acc.2.locNat l 4
    let poi := acc.2.locPoisoned l 4
    let (olds, fin) := vamoAt acc.2.freeCtr k ra old ((lanes.filter fun x => x.2.1 = l).map fun x => (x.1, x.2.2))
    (acc.1 ++ olds.map (fun o => (o.1, o.2, poi)), (acc.2.unitWrite l.unit l.addr (leBytes 4 fin) false).spendFree)) ([], s)
  r

/-! ### APPEND (R152) -/

/-- What the tail atomic of APPEND gives. -/
inductive AppendRes where
  /-- the value for xd and the offset of the first payload word, none where the vector is full -/
  | done (xd : Word) (slot : Option Nat)
  /-- the H offset of the first word beyond the allocation -/
  | refused (off : Word)
  deriving DecidableEq, Repr

/-- The tail atomic (R152): `size` is the H allocation's size, none in S space. -/
def State.performAppend (s : State) (l : Loc) (n : Nat) (size : Option Nat) : AppendRes × State :=
  let old := s.locNat l 4
  let cap := s.locNat ⟨l.unit, l.addr + 4⟩ 4
  let base := s.locNat ⟨l.unit, l.addr + 8⟩ 4
  let first := base + 4 * old
  if cap < old + n then (.done (BitVec.allOnes 64) none, s)
  else
    match size with
    | some z =>
      if z < base + 4 * (old + n) then
        (.refused (BitVec.ofNat 64 (first + 4 * (if z < first + 4 then 0 else (z - first) / 4))), s)
      else (.done (BitVec.ofNat 64 old) (some first), s.unitWrite l.unit l.addr (leBytes 4 (old + n)) false)
    | none => (.done (BitVec.ofNat 64 old) (some first), s.unitWrite l.unit l.addr (leBytes 4 (old + n)) false)

/-- The payload stores of APPEND: one word for each value, wrapping in the scratchpad (R105, R152). -/
def appendElems (unit : MemUnit) (wrap first : Nat) (vals : List Cell) : List SElem :=
  (List.range vals.length).map fun j =>
    let a := first + 4 * j
    ⟨⟨unit, if wrap = 0 then a else a % wrap⟩, leBytes 4 (vals.getD j 0).toNat, false⟩

end Sys2Proof.Machine
end

