-- ==== Sys2Proof/Machine/Copy.lean ====
section
/-! DEFINITION. Copies and the tile table at issue: COPY, TSET, TGET and TWAIT (R246 to R252). -/

namespace Sys2Proof.Machine

/-- Depth of a cluster's copy queue (R247). -/
def copyDepth : Nat := 16

/-- Chunks of a copy (R246). -/
def chunksOf (n : Nat) : Nat := ceilDiv n 1024

/-- The unloaded latency of a load at the start of an extent (R247). -/
def State.edgeLat (s : State) (n : HartId) (launch : Nat) (sp : Space) (base : Word) : Lat :=
  match s.translate n launch sp .load 1 base with
  | .loc l => s.loadLat n l
  | _ => ⟨s.gNanos (dieOf n) none 0, 0⟩

/-- The time from a copy's start to the bit of its first chunk (R247), rounded as a whole (R6). -/
def State.copyFirst (s : State) (n : HartId) (launch : Nat) (ds ss : Space) (dst src : Word) : Nat :=
  ((s.edgeLat n launch ss src).plus (s.edgeLat n launch ds dst)).cycles + 4

/-- The checks of a copy's extents in order: the destination as a store, then the source as a load (R246). -/
def State.copyFault (s : State) (ds ss : Space) (dst src : Word) (n : Nat) : Option (MemFault × Word × Space × Acc) :=
  if dst.toNat % 64 ≠ 0 then some (.plain cAlign, dst, ds, .store)
  else if src.toNat % 64 ≠ 0 then some (.plain cAlign, src, ss, .load)
  else
    match s.checkExtent s.cur s.launchId ds .store dst n with
    | some (f, _) => some (f, dst, ds, .store)
    | none => (s.checkExtent s.cur s.launchId ss .load src n).map fun x => (x.1, src, ss, .load)

/-- Why a copy may not fill a tile (R246): its reason in R220. -/
def State.tileFault (s : State) (t : Nat) (ds : Space) (dst : Word) (n : Nat) : Option Nat :=
  if ds ≠ .s || dst.toNat / 2 ^ 23 % 32 ≠ clusterOf s.cur then some 3
  else if (s.cluster.tileAt t).state ≠ .empty then some 0
  else if s.spadSize (clusterOf s.cur) < dst.toNat % 2 ^ 23 + n then some 1
  else none

/-- Appends a copy to the cluster's queue. -/
def State.queueCopy (dst src : Word) (n : Nat) (md : MReg) (ds ss : Space) (tile fut : Option Nat) (s : State) : State :=
  let first := s.copyFirst s.cur s.launchId ds ss dst src
  let c : Copy :=
    { id := s.fresh, hart := s.cur, launch := s.launchId, dst := dst.toNat, src := src.toNat, len := n, ds := ds, ss := ss,
      mask := md, tile := tile, fut := fut, chunk := 0, nextAt := s.now + first, start := posOf s.hart.ser s.hart.bun.head, halted := false, io := .none }
  ({ s with fresh := s.fresh + 1 }).updCluster fun k =>
    let k := { k with copies := k.copies ++ [c] }
    match tile with
    | some t => k.updTile t fun _ => ⟨.filling, dst.toNat % 2 ^ 23, n / 64, 0, true⟩
    | none => k

/-- COPY (R246). -/
def execCopy (h : Head) (xa xb xc : XReg) (md : MReg) (ds ss : Space) (tile fut : Option XReg) (s : State) : Res :=
  guarded h (fun s =>
    s.unlessPoison (s.xPoi xa || s.xPoi xb || s.xPoi xc || tile.elim false s.xPoi || fut.elim false s.xPoi) fun s =>
      let n := (s.x xc).toNat
      let dst := s.x xa
      let src := s.x xb
      let t := tile.map fun r => (s.x r).toNat % 256
      if n = 0 || n % 64 ≠ 0 || 2 ^ 32 ≤ n then s.raiseObj cCopylen 0 0 0
      else if md ≠ 0 && 262144 < n then s.raiseObj cCopylen 0 0 1
      else
        match s.copyFault ds ss dst src n with
        | some (f, a, sp, acc) => s.raiseMem f a sp acc
        | none =>
          match t.bind fun i => (s.tileFault i ds dst n).map fun r => (i, r) with
          | some (i, r) => s.raiseObj cTilestate 0 i r
          | none =>
            let bits : Mask := BitVec.ofNat 256 (2 ^ (min (chunksOf n) 256) - 1)
            let s := if md = 0 then s else s.push (.mask md) 0 bits false 1
            (s.queueCopy dst src n md ds ss t (fut.map fun r => (s.x r).toNat)).wantCkpt .go) s

/-! ### The tile table (R249 to R252) -/

/-- A tile entry as TGET returns it (R249). -/
def TileEnt.word (t : TileEnt) : Word :=
  BitVec.ofNat 64 (pack [(2, t.state.code), (6, 0), (1, b01 t.cp), (8, t.refs), (23, t.off), (18, t.len)])

/-- The condition of a transition (R250). -/
def tsetCond (t : TileEnt) (frm dst : TileState) : Bool :=
  match frm, dst with
  | .filling, _ => !t.cp
  | .ready, .draining => t.refs = 0
  | _, _ => true

/-- TSET (R250): the predicates are written 4 cycles after issue. -/
def execTset (h : Head) (pd pc : PReg) (xa xb : XReg) (frm dst : TileState) (s : State) : Res :=
  guarded h (fun s =>
    s.unlessPoison (s.xPoi xa || (frm = .empty && s.xPoi xb)) fun s =>
      let i := (s.x xa).toNat % 256
      let t := s.cluster.tileAt i
      let off := (s.x xb).toNat / 2 ^ 17 % 2 ^ 23
      let len := (s.x xb).toNat / 2 ^ 40 % 2 ^ 18
      if t.state ≠ frm || !tsetCond t frm dst then (s.putP2 pd pc false false 4).awaitReply 4
      else if frm = .empty && (len = 0 || s.spadSize (clusterOf s.cur) < off + 64 * len) then s.raiseObj cTilestate 0 i 1
      else
        let t' := if frm = .empty then { t with state := dst, off := off, len := len } else { t with state := dst }
        ((s.updCluster fun c => c.updTile i fun _ => t').putP2 pd pc true false 4).awaitReply 4) s

/-- TGET (R251). -/
def execTget (h : Head) (xd xa : XReg) (s : State) : Res :=
  guarded h (fun s =>
    s.unlessPoison (s.xPoi xa) fun s => s.putX xd (s.cluster.tileAt ((s.x xa).toNat % 256)).word false 4) s

/-- TWAIT (R252): it issues when the tile is in the state waited for. -/
def execTwait (h : Head) (xa : XReg) (_st : TileState) (s : State) : Res :=
  guarded h (fun s => s.unlessPoison (s.xPoi xa) fun s => s) s

end Sys2Proof.Machine
end

