-- ==== Sys2Proof/Machine/Matrix.lean ====
section
/-! DEFINITION. Matrix arithmetic and the matrix instructions at issue: OPA, GZERO, STLD, VMT and GWAIT (R254 to R269). -/

namespace Sys2Proof.Machine

/-! ### mac (R255) -/

/-- An exact product; 0 times infinity is a NaN. -/
def mulFV (a b : FV) : FV :=
  match a, b with
  | .nan g, _ => .nan g
  | _, .nan g => .nan g
  | .inf s, .inf t => .inf (s ^^ t)
  | .inf s, .fin t m _ => if m = 0 then .nan false else .inf (s ^^ t)
  | .fin s m _, .inf t => if m = 0 then .nan false else .inf (s ^^ t)
  | .fin s1 m1 e1, .fin s2 m2 e2 => .fin (s1 ^^ s2) (m1 * m2) (e1 + e2)

/-- The sum of exact terms rounded once to nearest even; an exact zero is -0 only when every term is -0 (R255). -/
def sumRne (ts : List FV) : Cell :=
  let nan : Cell := 0x7FC00000
  if ts.any FV.isNan then nan
  else
    let infs := ts.filter FV.isInf
    match infs with
    | i :: r => if r.all fun x => x.sign = i.sign then BitVec.ofNat 32 (fmtF32.inf i.sign) else nan
    | [] =>
      let (s, m, e) := ts.foldl (fun acc t =>
        match t with
        | .fin s2 m2 e2 => addExact acc.1 acc.2.1 acc.2.2 s2 m2 e2
        | _ => acc) (false, 0, 0)
      if m = 0 then BitVec.ofNat 32 (fmtF32.zero (ts.all fun t => t.isZero && t.sign))
      else BitVec.ofNat 32 (fmtF32.round .rne s m e).1

/-- mac(g, s) with `s` the exact sum of products (R255). -/
def mac (g : Cell) (ps : List (FV × FV)) : Cell := sumRne (f32c g :: ps.map fun p => mulFV p.1 p.2)

/-- One level of the fixed tree of VMT. -/
def treePairs : List FV → List FV
  | a :: b :: r => f32c (sumRne [a, b]) :: treePairs r
  | l => l

/-- The dot product of VMT: the exact products summed in seven levels (R266). -/
def vmtDot (v s : List FV) : Cell :=
  let p := (v.zip s).map fun x => mulFV x.1 x.2
  match (List.range 7).foldl (fun l _ => treePairs l) p with
  | .fin sg m e :: _ => sumRne [.fin sg m e]
  | x :: _ => sumRne [x]
  | [] => 0

/-- The operand of a container (R257, R266). -/
def operandOf (f16 : Bool) (c : BitVec 16) : FV := if f16 then fmtH.read c.toNat else fmtBf.read c.toNat

/-! ### Intervals (R260) -/

/-- The interval of an operation on a window: `per` cells each cycle and `bytes` of queue operands. -/
def interval (cells per bytes : Nat) : Nat := max (max 1 (cells / per)) (ceilDiv bytes 256)
def winCells (w : Window) : Nat := winRows w * winCols w
def winSpan (w : Window) : Nat := winRows w + winCols w

/-- Service cycles of an engine operation (R260, R265, R266). -/
def EngKind.service : EngKind → Nat
  | .opaBf w _ _ => interval (winCells w) 8192 (2 * winSpan w)
  | .opaH w _ _ => interval (winCells w) 4096 (2 * winSpan w)
  | .opaN6 w _ _ => interval (winCells w) 8192 (4 * winSpan w)
  | .gzero w => interval (winCells w) 8192 0
  | .vmt .. => 1
  | .stld .. => 64
  | .qpop .. | .qpush .. => 0

/-- Whether an operation joins the array order (R261). -/
def EngKind.isArray : EngKind → Bool
  | .qpop .. | .qpush .. => false
  | _ => true

/-- Operations that recheck level 2 executes twice (R271). -/
def EngKind.rechecked : EngKind → Bool
  | .opaBf .. | .opaH .. | .opaN6 .. | .vmt .. => true
  | _ => false

/-! ### The instructions -/

/-- Appends an array operation; at recheck level 2 it takes an entry of the recheck queue, executed once it has fired. -/
def State.arrayOp (kind : EngKind) (s : State) : State :=
  let id := s.fresh
  let s' := s.engine kind
  if 2 ≤ s.core.rechkLevel && kind.rechecked then
    s'.updCore fun k => { k with recheck := k.recheck ++ [⟨id, slotOf s.cur, s.hart.ser, true, 0, kind.service⟩] }
  else s'

/-- The checks of an OPA (R259) before it joins the array order. -/
def opaOp (h : Head) (w : Window) (qa qb : QReg) (kind : EngKind) (s : State) : Res :=
  guardedHalf h [w.half] (fun s =>
    s.qform qa 0 0 fun s => s.qform qb 0 0 fun s =>
      s.qform qa (2 * winRows w) 0 fun s => s.qform qb (2 * winCols w) 0 (State.arrayOp kind)) s

/-- OPA.BF (R258). -/
def execOpaBf (h : Head) (w : Window) (qa qb : QReg) (s : State) : Res := opaOp h w qa qb (.opaBf w qa qb) s
/-- OPA.H (R258). -/
def execOpaH (h : Head) (w : Window) (qa qb : QReg) (s : State) : Res := opaOp h w qa qb (.opaH w qa qb) s
/-- OPA.N6 (R258). -/
def execOpaN6 (h : Head) (w : Window) (qa qb : QReg) (s : State) : Res := opaOp h w qa qb (.opaN6 w qa qb) s

/-- GZERO (R268). -/
def execGzero (h : Head) (w : Window) (s : State) : Res := guardedHalf h [w.half] (State.arrayOp (.gzero w)) s

/-- STLD (R265): names no half. -/
def execStld (h : Head) (q : QReg) (f16 : Bool) (s : State) : Res :=
  guarded h (fun s => s.qform q 256 64 (State.arrayOp (.stld q f16))) s

/-- VMT (R266). -/
def execVmt (h : Head) (row : RowOp) (q : QReg) (seg : Fin 4) (s : State) : Res :=
  guardedHalf h [row.half] (fun s => s.qform q 256 0 (State.arrayOp (.vmt row q seg))) s

/-- GWAIT (R269): it issues when no named half is busy. -/
def execGwait (h : Head) (h0 h1 : Bool) (s : State) : Res :=
  guardedHalf h ((if h0 then [false] else []) ++ if h1 then [true] else []) (fun s => s) s

end Sys2Proof.Machine
end

