-- ==== Sys2Proof/Machine/Engine.lean ====
section
/-! DEFINITION. Engines at work: firing and completion of queue and matrix operations, V-class writes, QST blocks and rechecks (R17, R163, R166, R171, R181 to R186, R218, R221, R225, R226, R254 to R271, R334 to R336, R346). -/

namespace Sys2Proof.Machine

/-! ### Small helpers -/

/-- The hart of a core that an engine entry names. -/
def hartIn (c : CoreId) (h : Bool) : HartId := 2 * c + (if h then 1 else 0)

/-- Entries of the history buffer (R334). -/
def histSize : Nat := 256

/-- Groups for which a landing still holds a reservation (R436). -/
def reservedFor (k : Core) (hart : Bool) (ls : List Landing) : Nat :=
  ((ls.filter fun l => !l.landed).flatMap fun l => l.groups.filter fun g => !k.hasHist hart g).length

/-- Entries in use or reserved, of both harts. -/
def State.histUsed (s : State) (c : CoreId) : Nat :=
  let k := s.coreAt c
  k.hist.length + reservedFor k false (s.hartAt (2 * c)).land + reservedFor k true (s.hartAt (2 * c + 1)).land

/-- Whether a writer of hart `h` finds free entries for the groups that it will record (R335, R436). -/
def State.histRoom (s : State) (c : CoreId) (h : Bool) (gs : List Nat) : Bool :=
  s.histUsed c + ((s.coreAt c).unrecorded h gs).length ≤ histSize

/-- Whether some group holds an entry of the other hart of a SHARED core (R336). -/
def Core.heldByOther (k : Core) (h : Bool) (gs : List Nat) : Bool := k.gmode.toNat % 4 = 2 && gs.any fun g => k.hasHist (!h) g

/-- Groups that an engine operation will record when it fires (R334, R335). -/
def State.toRecord (s : State) (c : CoreId) (e : EngOp) : List Nat :=
  match e.kind.region with
  | some g => if (s.hartAt (hartIn c e.hart)).ckptSer < e.ser then regionGroups g else []
  | none => []

/-! ### Destination cells of a landing (R186) -/

def Landing.cells (l : Landing) : List Nat :=
  match l.kind with
  | .vector v _ _ | .old v => (l.elems.map fun e => v.cell e.idx).eraseDups
  | .blocks v _ fb nb vl =>
    ((List.range (64 * nb)).filter fun j => 64 * fb + j < vl).map fun j => v.cell (64 * fb + j)
  | _ => []

/-- Notes in the pending landings of a core that an engine has written some of their cells (R186). -/
def State.noteClash (c : CoreId) (hit : Nat → Bool) (s : State) : State :=
  (hartsOf c).foldl (fun s n => s.updHartAt n fun h =>
    { h with land := h.land.map fun l => if l.landed || l.groups.isEmpty then l else { l with clash := l.clash ++ l.cells.filter hit } }) s

/-! ### Writing the grid from an engine -/

/-- Writes an engine operation's cells: an unpredictable value where R183 says so, nothing where a landed value stays; an
operation that issued before its hart's checkpoint also reaches the entries that later writers recorded (R270, R434). -/
def State.engineWrite (c : CoreId) (e : EngOp) (cells : List (Nat × GCell)) (s : State) : State :=
  let cells := (cells.filter fun x => !e.skip.contains x.1).map fun x =>
    if e.spoil.contains x.1 then (x.1, (⟨Config.freeCell s.freeCtr x.1, false⟩ : GCell)) else x
  let old := decide (e.ser ≤ (s.hartAt (hartIn c e.hart)).ckptSer)
  let s := s.updCoreAt c fun k => (if old then k.patchHist cells else k).setCells cells
  (s.noteClash c e.willWrite).spendFree

/-! ### Fire conditions (R17, R185, R221, R261, R335, R336) -/

/-- Operations of the hart that issued earlier and have not fired hold it back (R221). -/
def firstWaiting (l : List EngOp) (hart : Bool) : Option EngOp := l.find? fun e => e.hart = hart && e.fire.isNone

/-- Entries that an operation takes from each queue. -/
def EngKind.needs : EngKind → List (QReg × Nat)
  | .opaBf _ a b | .opaH _ a b => if a = b then [(a, 2)] else [(a, 1), (b, 1)]
  | .opaN6 _ a b => if a = b then [(a, 4)] else [(a, 2), (b, 2)]
  | .vmt _ q _ => [(q, 1)]
  | .stld q _ => [(q, 64)]
  | .qpop _ q _ _ => [(q, 1)]
  | .qpush .. | .gzero .. => []

/-- Whether the array is free for an operation's order in cycle `t` (R261): in SOLO and SHARED mode it serves no operation of either hart,
also none that fired under SPLIT. -/
def Core.arrayFree (k : Core) (e : EngOp) (t : Nat) : Bool :=
  if k.gmode.toNat % 4 = 1 then
    t % 2 = (if e.hart then 1 else 0) && (if e.hart then k.arrayNext.2 else k.arrayNext.1) ≤ t
  else k.arrayNext.1 ≤ t && k.arrayNext.2 ≤ t

/-- Whether every earlier operation of its array order has fired; the service cycles are `arrayFree`'s (R261). -/
def Core.orderTurn (k : Core) (e : EngOp) : Bool :=
  let split := decide (k.gmode.toNat % 4 = 1)
  !(k.eng.any fun d => d.id < e.id && d.kind.isArray && d.fire.isNone && (!split || d.hart = e.hart))

/-- No V-class write of an operation that issued no later is in flight to a cell of the operation (R185). -/
def Core.vDone (k : Core) (e : EngOp) : Bool :=
  match e.kind.region with
  | some g => !(k.vq.any fun w => (w.id < e.id || (w.hart = e.hart && w.ser = e.ser)) && w.cells.any fun x => inRegion g x.1)
  | none => true

/-- Whether a matrix recheck keeps further operations of every kind from firing: a checkpoint waits on it (R271). -/
def State.recheckHolds (s : State) (c : CoreId) : Bool :=
  (s.coreAt c).recheck.any fun r => r.matrix && r.ready ≠ 0 && (match (s.hartAt (hartIn c r.hart)).ck with
    | some ck => decide (r.ser ≤ ck.ser)
    | none => false)

/-- Whether the history buffer lets an operation fire (R335, R336). -/
def State.histAllows (s : State) (c : CoreId) (e : EngOp) : Bool :=
  let gs := s.toRecord c e
  s.histRoom c e.hart gs && !((s.coreAt c).heldByOther e.hart (match e.kind.region with | some g => regionGroups g | none => []))

/-- Whether a selector fault has stopped the hart of an operation that issued before its checkpoint and would pop the faulting entry again:
it waits for the Welkin core (R163, R342). -/
def State.selStops (s : State) (c : CoreId) (e : EngOp) : Bool :=
  (match (s.hartAt (hartIn c e.hart)).mode with | .welkin _ | .stopped => true | _ => false) &&
    e.kind.needs.any fun x => (((s.coreAt c).q x.1).ents.filter fun n => !n.popped).take x.2 |>.any fun n => n.marks.sel.isSome

/-- Whether a waiting operation of a core fires now, but for the history buffer. -/
def State.mayFire (s : State) (c : CoreId) (e : EngOp) : Bool :=
  let k := s.coreAt c
  let t := s.cycleAt c
  !k.frozen && e.fire.isNone && e.issue < t && !s.selStops c e && !s.recheckHolds c && (firstWaiting k.eng e.hart).any (fun d => d.id = e.id) &&
    (e.kind.needs.all fun x => x.2 ≤ (k.q x.1).avail) && k.vDone e &&
    (match e.kind with
     | .qpush q _ _ => 0 < k.room q && !k.pushHeld e.hart e.ser none && !(k.qst.any fun b => b.q = q && b.hart = e.hart && b.ser ≤ e.ser)
         && !(k.eng.any fun d => d.id < e.id && d.pushing q)
     | .qpop .. => true
     | _ => k.orderTurn e && k.arrayFree e t)

def State.fires (s : State) (c : CoreId) (e : EngOp) : Bool := s.mayFire c e && s.histAllows c e

/-- Whether an engine operation of the hart waits for a checkpoint of that hart (R335, R336). -/
def State.engineWants (s : State) (n : HartId) : Bool :=
  let c := coreOf n
  let k := s.coreAt c
  k.eng.any fun e => s.mayFire c e &&
    ((e.hart = slotOf n && !s.histRoom c e.hart (s.toRecord c e)) ||
     (e.hart ≠ slotOf n && k.heldByOther e.hart (match e.kind.region with | some g => regionGroups g | none => [])))

/-! ### Firing -/

/-- Pops entries of queues in turn: their bytes and marks, and the core after. -/
def popAll (ser ckptSer : Nat) : List QReg → Core → List (List Byte × Marks) × Core
  | [], k => ([], k)
  | q :: r, k =>
    let (bs, m, k1) := k.pop q (some ser) ckptSer
    let (l, k2) := popAll ser ckptSer r k1
    ((bs, m) :: l, k2)

/-- The queues that an operation pops when it fires, in order (R257, R265, R266). -/
def EngKind.popOrder : EngKind → List QReg
  | .opaBf _ a b | .opaH _ a b => [a, b]
  | .opaN6 _ a b => [a, a, b, b]
  | .vmt _ q _ => [q]
  | .stld q _ => [q]
  | .qpop _ q _ _ => [q]
  | .qpush .. | .gzero .. => []

/-- The order of OPA.N6 with one queue is A1, B1, A2, B2 (R257). -/
def sameQueueN6 : EngKind → Bool
  | .opaN6 _ a b => a = b
  | _ => false

/-- SELFAULT at a pop, for the raising operation (R163). -/
def selTrap (e : EngOp) (f : Word × Nat) (origin : Nat) : TrapRec :=
  ⟨cSelfault, e.pc, f.1, BitVec.ofNat 64 (pack [(5, e.head), (5, 0), (2, origin), (4, f.2)]), false⟩

/-- Containers of an entry. -/
def containers (bs : List Byte) (n : Nat) : List (BitVec 16) := (List.range n).map fun i => container bs i

/-- Updates one engine operation. -/
def Core.updEng (k : Core) (id : Nat) (f : EngOp → EngOp) : Core :=
  { k with eng := k.eng.map fun e => if e.id = id then f e else e }

/-- The dot products of a VMT with a tile (R266). -/
def vmtSums (t : Tile) (v : List (BitVec 16)) : List Cell :=
  let vs := v.map (operandOf t.f16)
  (List.range 64).map fun j => vmtDot vs ((List.range 128).map fun k => operandOf t.f16 (SMap.look 0 t.s (64 * k + j)))

/-- Distance of the service cycles of an operation that fires now (R261). -/
def Core.stride (k : Core) : Nat := if k.gmode.toNat % 4 = 1 then 2 else 1
/-- Last service cycle of an operation that fires in cycle `t` (R261). -/
def Core.lastService (k : Core) (e : EngOp) (t : Nat) : Nat := t + k.stride * (e.kind.service - 1)

/-- The array serves an operation of a hart up to cycle `last`: under SPLIT the hart's own order waits, else both (R261). -/
def Core.serve (k : Core) (hart : Bool) (last : Nat) : Core :=
  { k with
    arrayNext :=
      if k.gmode.toNat % 4 = 1 then (if hart then (k.arrayNext.1, last + 1) else (last + 1, k.arrayNext.2)) else (last + 1, last + 1) }

/-- Cycle at which a fired operation is complete (R226, R262, R265). -/
def EngKind.doneAt (k : EngKind) (fire last : Nat) : Nat :=
  match k with
  | .vmt .. => last + 8
  | .stld .. => last + 1
  | .qpop _ _ _ vl => fire + (if 128 < vl then 3 else 2)
  | .qpush .. => fire + 2
  | _ => last + 6

/-- Fires a waiting operation of a core: its pops and their marks, its record in the history buffer, and its service
cycles; the X-class operation after a QPUSH issues no earlier than the next cycle (R225); a popped entry with a selector fault raises SELFAULT and stays in its queue (R163, R226, R257, R259). -/
def State.fireOp (c : CoreId) (e : EngOp) (s : State) : State :=
  let n := hartIn c e.hart
  let t := s.cycleAt c
  let h := s.hartAt n
  let k := s.coreAt c
  let (pops, k1) := popAll e.ser h.ckptSer e.kind.popOrder k
  match pops.findSome? fun p => p.2.sel with
  | some f => s.takeTrap n (selTrap e f 1)
  | none =>
    let last := k.lastService e t
    let tile := h.r.tile
    let poi := (pops.any fun p => p.2.poi) || (match e.kind with | .vmt .. => tile.poi | _ => false)
    let width := 256
    let e' : EngOp :=
      { e with
        fire := some t, last := last, done := e.kind.doneAt t last
        ops := pops.map fun p => containers p.1 width
        raw := match e.kind with | .qpop .. => (pops.headD ([], ⟨none, false, false⟩)).1 | _ => []
        sums := match e.kind, pops with
          | .vmt .., p :: _ => vmtSums tile (containers p.1 128)
          | _, _ => []
        marks := { e.marks with poi := poi }, stride := k.stride }
    let k2 := (k1.record e.hart (s.toRecord c e)).updEng e.id fun _ => e'
    let k3 := if e.kind.isArray then
        { k2.serve e.hart last with
          recheck := k2.recheck.map fun r => if r.matrix && r.id = e.id then { r with ready := last + 1 } else r }
      else k2
    let s1 := s.setCoreAt c k3
    let s1 := match e.kind with
      | .qpush .. => s1.updHartAt n fun h => { h with time := { h.time with xNext := max h.time.xNext (t + 1) } }
      | _ => s1
    if pops.any fun p => p.2.drange then s1.raiseVNow n e.ser vfDrange else s1

/-- QPUSH_FIRE (R225). -/
def evQpushFire (c : CoreId) (id : Nat) (s : State) : State :=
  match (s.coreAt c).eng.find? fun e => e.id = id with
  | some e => match e.kind with
    | .qpush .. => if s.fires c e then s.fireOp c e else s
    | _ => s
  | none => s

/-- QPOP_FIRE (R226). -/
def evQpopFire (c : CoreId) (id : Nat) (s : State) : State :=
  match (s.coreAt c).eng.find? fun e => e.id = id with
  | some e => match e.kind with
    | .qpop .. => if s.fires c e then s.fireOp c e else s
    | _ => s
  | none => s

/-- ENGINE_FIRE (R261). -/
def evEngineFire (c : CoreId) (id : Nat) (s : State) : State :=
  match (s.coreAt c).eng.find? fun e => e.id = id with
  | some e => if e.kind.isArray && s.fires c e then s.fireOp c e else s
  | none => s

/-! ### STLD pops one entry in each service cycle (R265) -/

/-- Whether a fired STLD pops its next entry by cycle `t`. -/
def EngOp.stldDue (e : EngOp) (t : Nat) : Bool :=
  match e.kind, e.fire with
  | .stld .., some f => e.ops.length < 64 && f + e.stride * e.ops.length ≤ t
  | _, _ => false

/-- Pops the next entry of a STLD. -/
def State.stldPop (c : CoreId) (e : EngOp) (s : State) : State :=
  let n := hartIn c e.hart
  match e.kind with
  | .stld q _ =>
    let (bs, m, k1) := (s.coreAt c).pop q (some e.ser) (s.hartAt n).ckptSer
    match m.sel with
    | some f => s.takeTrap n (selTrap e f 1)
    | none =>
      let s1 := s.setCoreAt c (k1.updEng e.id fun e =>
        { e with ops := e.ops ++ [containers bs 128], marks := { e.marks with poi := e.marks.poi || m.poi } })
      if m.drange then s1.raiseVNow n e.ser vfDrange else s1
  | _ => s

/-! ### Completion (R226, R258, R262, R263, R265, R266) -/

/-- Whether an earlier operation in flight still has to write a cell (R262). -/
def Core.earlierWriter (k : Core) (e : EngOp) (cell : Nat) : Bool := k.eng.any fun d => d.id < e.id && d.willWrite cell

/-- Whether an earlier operation writes a row of the operation and has not completed (R182). -/
def Core.rowBehind (k : Core) (e : EngOp) : Bool :=
  match e.kind.region with
  | none => false
  | some g => k.eng.any fun d => d.id < e.id && (match d.kind.region with
      | some r => g.1 = r.1 && g.2.1 < r.2.1 + r.2.2.1 && r.2.1 < g.2.1 + g.2.2.1
      | none => false)

/-- The rank-one update of a window (R258): the operands of row i and of column j. -/
def opaCells (k : Core) (w : Window) (f16 : Bool) (as bs : List (List (BitVec 16))) (poi : Bool) : List (Nat × GCell) :=
  let av := as.map fun l => l.map (operandOf f16)
  let bv := bs.map fun l => l.map (operandOf f16)
  (List.range (winRows w)).flatMap fun i => (List.range (winCols w)).map fun j =>
    let key := cellOf w.half (winRow0 w + i) (winCol0 w + j)
    let g := k.cell key
    let ps := (av.zip bv).map fun x => (x.1.getD i (.fin false 0 0), x.2.getD j (.fin false 0 0))
    (key, ⟨mac g.v ps, g.poi || poi⟩)

/-- The cells that a completed operation writes. -/
def EngOp.results (e : EngOp) (k : Core) : List (Nat × GCell) :=
  let op := fun i => e.ops.getD i []
  match e.kind with
  | .opaBf w _ _ => opaCells k w false [op 0] [op 1] e.marks.poi
  | .opaH w _ _ => opaCells k w true [op 0] [op 1] e.marks.poi
  | .opaN6 w _ _ =>
    if sameQueueN6 e.kind then opaCells k w false [op 0, op 2] [op 1, op 3] e.marks.poi
    else opaCells k w false [op 0, op 1] [op 2, op 3] e.marks.poi
  | .gzero w => (regionCells (w.half, winRow0 w, winRows w, winCol0 w, winCols w)).map fun c => (c, GCell.zero)
  | .vmt row _ seg =>
    (List.range 64).map fun j =>
      let key := cellOf row.half row.n.val (64 * seg.val + j)
      let g := k.cell key
      (key, ⟨sumRne [f32c g.v, f32c (e.sums.getD j 0)], g.poi || e.marks.poi⟩)
  | .qpop row _ f vl =>
    (List.range vl).map fun i =>
      let v : Cell := if f = .w then BitVec.ofNat 32 (leNat ((e.raw.drop (4 * i)).take 4)) else wideC f (container e.raw i)
      (cellOf row.half row.n.val i, ⟨v, e.marks.poi⟩)
  | .stld .. | .qpush .. => []

def Core.dropEng (k : Core) (id : Nat) : Core := { k with eng := k.eng.filter fun e => e.id ≠ id }

/-- The tile that a STLD loads: column c from its c-th entry. -/
def tileOf64 (f16 poi : Bool) (cols : List (List (BitVec 16))) : Tile :=
  { f16 := f16, poi := poi
    s := (List.range 128).foldl (fun m k => (List.range 64).foldl (fun m c =>
      SMap.set 0 m (64 * k + c) ((cols.getD c []).getD k 0)) m) [] }

/-- Whether a fired operation writes now: its cells at its completion cycle (R262), then, one after another, those that an earlier operation
was still to write. -/
def State.writesNow (s : State) (c : CoreId) (e : EngOp) : Bool :=
  let k := s.coreAt c
  !k.frozen && e.fire.isSome &&
    ((!e.written && e.done ≤ s.cycleAt c) || e.late.any fun x => !k.earlierWriter e x)

/-- Whether an operation that has written its last cell leaves the engine: no earlier writer of its rows is left (R182). -/
def State.leaves (s : State) (c : CoreId) (e : EngOp) : Bool := e.written && e.late.isEmpty && !(s.coreAt c).rowBehind e

/-- Whether a fired operation completes now, in whole or in part. -/
def State.completes (s : State) (c : CoreId) (e : EngOp) : Bool := s.writesNow c e || s.leaves c e

/-- Writes what an operation may write now of its results: those whose cell no earlier operation has still to write. -/
def State.writeFree (c : CoreId) (e : EngOp) (mine : Nat → Bool) (s : State) : List Nat × State :=
  let k := s.coreAt c
  let cells := (e.results k).filter fun x => e.willWrite x.1 && mine x.1
  let late := (cells.filter fun x => k.earlierWriter e x.1).map fun x => x.1
  (late, s.engineWrite c e (cells.filter fun x => !k.earlierWriter e x.1))

/-- What completion does: the cells of a matrix operation or of a QPOP, the tile of a STLD, the entry of a QPUSH, which carries DRANGE where a
conversion saturated (R219). -/
def State.finishOp (c : CoreId) (e : EngOp) (s : State) : State :=
  let n := hartIn c e.hart
  let ck := (s.hartAt n).ckptSer
  match e.kind with
  | .qpush q f vals =>
    let data := vals.map fun g => if f = .w then (leBytes 4 g.v.toNat, false)
      else let r := convC f (f32c g.v); (leBytes 2 r.1.toNat, r.2)
    let sat := data.any fun d => d.2
    let marks : Marks := ⟨none, vals.any fun g => g.poi, sat⟩
    let s1 := s.updCoreAt c fun k =>
      (k.dropEng e.id).pushEntry q (data.flatMap fun d => d.1) marks (if e.ser ≤ ck then none else some e.ser) s.now
    if sat then s1.raiseVNow n e.ser vfDrange else s1
  | .stld _ f16 =>
    let t := tileOf64 f16 e.marks.poi e.ops
    (s.updCoreAt c fun k => k.dropEng e.id).updHartAt n fun h =>
      { h with
        r := { h.r with tile := t }
        dup := if e.ser ≤ h.ckptSer then { h.dup with tile := t } else h.dup }
  | _ =>
    if s.writesNow c e then
      let all := e.written || decide (e.done ≤ s.cycleAt c)
      let (late, s) := s.writeFree c e fun x => all || e.late.contains x
      s.updCoreAt c fun k =>
        let k := k.updEng e.id fun e => { e with written := all, late := late }
        if all && late = [] && !k.rowBehind e then k.dropEng e.id else k
    else s.updCoreAt c fun k => k.dropEng e.id

/-- ENGINE_COMPLETE (R262). -/
def evEngineComplete (c : CoreId) (id : Nat) (s : State) : State :=
  match (s.coreAt c).eng.find? fun e => e.id = id with
  | some e => if s.completes c e then s.finishOp c e else s
  | none => s

/-- Whether element group 0 of a QPOP is written now, with group 1 still to come (R226). -/
def State.group0Due (s : State) (c : CoreId) (e : EngOp) : Bool :=
  match e.kind, e.fire with
  | .qpop _ _ _ vl, some f =>
    !(s.coreAt c).frozen && !e.group0 && 128 < vl && f + 2 ≤ s.cycleAt c
  | _, _ => false

/-- QPOP_GROUP_WRITE (R226): element group 0 two cycles after the pop fires. -/
def evQpopGroupWrite (c : CoreId) (id : Nat) (s : State) : State :=
  match (s.coreAt c).eng.find? fun e => e.id = id with
  | some e =>
    if s.group0Due c e then
      let (late, s) := s.writeFree c e fun x => cellCol x < 128
      s.updCoreAt c fun k => k.updEng id fun e => { e with group0 := true, late := late }
    else s
  | none => s

/-! ### V-class writes and QST blocks -/

/-- Whether a V-class write completes now: its cycle has come, and it is not in the snapshot buffer (R347). -/
def State.vWriteDue (s : State) (c : CoreId) (w : VWrite) : Bool :=
  !(s.coreAt c).frozen && w.due ≤ s.cycleAt c && (s.hartAt (hartIn c w.hart)).drain = .no

/-- V_WRITE_COMPLETE (R181, R214): a write of an operation that issued before its hart's checkpoint also reaches the history
entries (R434). -/
def evVWriteComplete (c : CoreId) (id : Nat) (s : State) : State :=
  match (s.coreAt c).vq.find? fun w => w.id = id with
  | some w =>
    if s.vWriteDue c w then
      let old := decide (w.ser ≤ (s.hartAt (hartIn c w.hart)).ckptSer)
      s.updCoreAt c fun k =>
        { (if old then k.patchHist w.cells else k).setCells w.cells with vq := k.vq.filter fun x => x.id ≠ id }
    else s
  | none => s

/-- QST_BLOCK_PUSH (R171): the block enters its queue; its flags are visible to bundles from the next cycle on. An MTS VFLAGS that issues in the
same cycle takes effect with them, and its value prevails (log 63). -/
def evQstBlockPush (c : CoreId) (id : Nat) (s : State) : State :=
  match (s.coreAt c).qst.find? fun b => b.id = id with
  | some b =>
    if !(s.coreAt c).frozen && b.fired && b.due ≤ s.cycleAt c then
      let n := hartIn c b.hart
      let ck := (s.hartAt n).ckptSer
      let s1 := s.updCoreAt c fun k =>
        ({ k with qst := k.qst.filter fun x => x.id ≠ id }).pushEntry b.q b.image ⟨none, b.poi, false⟩
          (if b.ser ≤ ck then none else some b.ser) s.now
      let fl := (if b.qnan then vfQnan else 0) ||| (if b.qclip then vfQclip else 0)
      let bits : BitVec 256 := BitVec.setWidth 256 fl
      if fl = 0 then s1
      else s1.updHartAt n fun h => { h with wq := h.wq ++ [⟨.sys .vflags, bits, bits, false, s.cycleAt c + 1, b.ser, 0⟩] }
    else s
  | none => s

/-! ### Recheck (R271, R346) -/

/-- A recheck whose second execution may run: an unfrozen cycle in which its unit serves no operation; those of the array follow one
another. -/
def State.recheckReady (s : State) (c : CoreId) (r : Recheck) : Bool :=
  let k := s.coreAt c
  let t := s.cycleAt c
  !k.frozen && r.ready ≠ 0 && r.ready ≤ t &&
    (if r.matrix then k.arrayNext.1 ≤ t && k.arrayNext.2 ≤ t && !(k.recheck.any fun x => x.matrix && x.ready ≠ 0 && x.id < r.id)
     else (s.hartAt (2 * c)).time.vNext ≤ t && (s.hartAt (2 * c + 1)).time.vNext ≤ t)

/-- RECHECK_EXECUTE (R346): the array serves a matrix operation a second time (R271); agreement frees the entry; a mismatch rolls the hart back without a handler, and a second one
before a completed checkpoint fences the core and aborts the launch. -/
def evRecheckExecute (c : CoreId) (id : Nat) (agree : Bool) (s : State) : State :=
  match (s.coreAt c).recheck.find? fun r => r.id = id with
  | none => s
  | some r =>
    if !s.recheckReady c r then s
    else
      let n := hartIn c r.hart
      let ck := (s.hartAt n).ckptSer
      let s1 := s.updCoreAt c fun k =>
        let k := { k with recheck := k.recheck.filter fun x => x.id ≠ id }
        if r.matrix then
          let last := s.cycleAt c + r.cycles - 1
          { k with
            arrayNext := (last + 1, last + 1)
            queues := k.queues.map fun q => if q.owner = r.hart then q.free ck (k.rechecking q.owner) else q }
        else k
      let s1 := if agree then s1 else s1.log (dieOf n) .recheck cRecheck.toNat (s.unitOf n) 0 0
      if agree then s1
      else if (s.hartAt n).recheckRetry then
        let h := s.hartAt n
        (s1.updCoreAt c fun k => { k with fenced := true }).takeTrap n ⟨cFenced, h.pc, 0, 0, false⟩
      else
        let g := (s1.coreAt c).histOf r.hart
        let s2 := s1.rollback n
        let at0 := handlerCycle (s.cycleAt c) g
        s2.updHartAt n fun h =>
          { h with pc := h.sys.ckptpc, recheckRetry := true, time := { h.time with nextIssue := max h.time.nextIssue at0 } }

end Sys2Proof.Machine
end

