-- ==== Sys2Proof/Machine/StreamRun.lean ====
section
/-! DEFINITION. Streams and copies at work: entries pushed and written, chunks copied, and their late faults (R232, R233, R238 to R242, R247, R248, R385). -/

namespace Sys2Proof.Machine

/-! ### Entries of a read stream (R232, R233, R238) -/

/-- The byte offset of container `j` of entry `r`, none for a padding position (R232, R233). -/
def Shape.elemOff (o : Shape) (r j : Nat) : Option Nat :=
  if o.isRow then some ((r * o.w + j) * o.elemSize)
  else if o.isCol then some ((j * o.w + r) * o.elemSize)
  else
    let kk := o.kh * o.kw * o.c
    let tile := r / max kk 1
    let k := r % max kk 1
    let kh := k / max (o.kw * o.c) 1
    let kw := k / max o.c 1 % max o.kw 1
    let c := k % max o.c 1
    let p := tile * o.count + j
    let ow := max o.ow.toNat 1
    let ih : Int := (p / ow * o.stride : Nat) - (o.pad : Int) + (kh * o.dil : Nat)
    let iw : Int := (p % ow * o.stride : Nat) - (o.pad : Int) + (kw * o.dil : Nat)
    if p < o.oh.toNat * o.ow.toNat && 0 ≤ ih && ih < o.h && 0 ≤ iw && iw < o.w then
      some (((ih.toNat * o.w + iw.toNat) * o.c + c) * 2)
    else none

/-- A source element as a value (R230). -/
def Shape.value (o : Shape) (v : Nat) : FV :=
  if o.elemSize = 4 then fmtF32.read v
  else if o.layout = 3 || o.layout = 4 || o.layout = 0x21 then fmtH.read v
  else fmtBf.read v

/-- The FMT field as a format (R229). -/
def Shape.cfmt (o : Shape) : CFmt :=
  match o.fmt with
  | 0 => .bf
  | 1 => .h
  | 2 => .lf
  | _ => .sf

/-- Bytes of locations as they stand, with whether one lies in a poisoned line. -/
def State.readLocs (s : State) (ls : List (Loc × Nat)) : List (List Byte) × Bool :=
  (ls.map fun x => s.locBytes x.1 x.2, ls.any fun x => s.locPoisoned x.1 x.2)

/-- What fetching an entry gives. -/
inductive Fetched where
  | entry (bytes : List Byte) (m : Marks)
  | fault (f : EngFault)
  deriving DecidableEq, Repr

/-- A memory fault met after issue, as a late fault (R241). -/
def lateFault (f : MemFault) (e : Word) : EngFault :=
  if f.cause = cPagefault then .page (Fin.ofNat 16 f.reason) (Fin.ofNat 8 f.level) e else .error .errorResponse e

/-- The block reads of an entry: block numbers (R232). -/
def Shape.blocksOf (o : Shape) (r : Nat) : List Nat :=
  if o.decode = 1 then (List.range (ceilDiv o.count 64)).map fun b => r * (o.w / 64) + b else [r]

/-- One block of a stream: its containers (or its image), and marks (R162, R164, R238). A poisoned block raises no flag. Saturation marks the
entry wherever it occurs among the 64 elements of the block, those beyond COUNT included (log 66). -/
def streamBlock (o : Shape) (addr : Word) (img : List Byte) (poi : Bool) : List (BitVec 16) × Marks :=
  let w8 := decide (o.width = 8)
  if !poi && (headerFault (widthCode w8) img).isSome then
    (List.replicate 64 0, ⟨(headerFault (widthCode w8) img).map fun r => (addr, r), false, false⟩)
  else
    let d := decodeBlock w8 img
    (d.map fun x => x.1, ⟨none, poi, !poi && d.any fun x => x.2⟩)

def Marks.or (a b : Marks) : Marks := ⟨if a.sel.isSome then a.sel else b.sel, a.poi || b.poi, a.drange || b.drange⟩

def bytesOf16 (l : List (BitVec 16)) : List Byte := l.flatMap fun c => leBytes 2 c.toNat

/-- The accesses that fetch entry `r` of a read stream (R232, R233). -/
def Stream.reads (t : Stream) (r : Nat) : List (Word × Nat) :=
  let o := t.obj
  if o.isBlocks then
    (o.blocksOf r).flatMap fun b =>
      (blockPieces (decide (o.width = 8)) b (t.base + BitVec.ofNat 64 (b * o.blockBytes))).map fun p => (p.2.1, p.2.2)
  else ((List.range o.count).filterMap (o.elemOff r)).map fun a => (t.base + BitVec.ofNat 64 a, o.elemSize)

/-- Fetches entry `r` of a read stream for hart `n`. -/
def State.fetchEntry (s : State) (n : HartId) (launch : Nat) (t : Stream) (r : Nat) : Fetched × State :=
  let o := t.obj
  if o.isBlocks then
    let bs := o.blocksOf r
    let reqs := t.reads r
    match s.resolveAll n launch t.sp .load reqs with
    | (.error (f, e), s1) => (.fault (lateFault f e), s1)
    | (.ok (ls, _), s1) =>
      match (ls.zip reqs).find? fun x => x.1.bad with
      | some x => (.fault (.error (badError x.1) x.2.1), s1)
      | none =>
        let all := ls.zip (reqs.map fun q => q.2)
        let per := all.length / max bs.length 1
        let blocks := (List.range bs.length).map fun i =>
          let (bytes, poi) := s1.readLocs ((all.drop (i * per)).take per)
          let addr := t.base + BitVec.ofNat 64 (bs.getD i 0 * o.blockBytes)
          (bytes.flatten, streamBlock o addr bytes.flatten poi)
        let m := blocks.foldl (fun m b => m.or b.2.2) ⟨none, false, false⟩
        if o.decode = 1 then
          (.entry (bytesOf16 ((blocks.flatMap fun b => b.2.1).take o.count)) m, s1)
        else (.entry (if m.sel.isSome then [] else blocks.flatMap fun b => b.1) { m with drange := false }, s1)
  else
    let offs := (List.range o.count).map fun j => o.elemOff r j
    let reqs := t.reads r
    match s.resolveAll n launch t.sp .load reqs with
    | (.error (f, e), s1) => (.fault (lateFault f e), s1)
    | (.ok (ls, _), s1) =>
      match (ls.zip reqs).find? fun x => x.1.bad with
      | some x => (.fault (.error (badError x.1) x.2.1), s1)
      | none =>
        let (_, cs, poi, sat) := offs.foldl (fun (acc : List Loc × List (BitVec 16) × Bool × Bool) x =>
          match x, acc.1 with
          | some _, l :: rest =>
            let c := convC o.cfmt (o.value (s1.locNat l o.elemSize))
            (rest, c.1 :: acc.2.1, acc.2.2.1 || s1.locPoisoned l o.elemSize, acc.2.2.2 || c.2)
          | _, rest => (rest, (convC o.cfmt (.fin false 0 0)).1 :: acc.2.1, acc.2.2.1, acc.2.2.2)) (ls, [], false, false)
        (.entry (bytesOf16 cs.reverse) ⟨none, poi, sat⟩, s1)

/-! ### Late faults (R241, R247) -/

/-- Aborts the launch with MEMERR, as the Welkin core does for an engine's error (R241, R322). -/
def State.engineError (launch : Nat) (addr : Word) (s : State) : State := s.requestAbort launch cMemerr.toNat 0 0 addr true

/-- STREAM_FAULT (R241): a page fault halts the stream and is reported; an error ends it and aborts the launch. -/
def evStreamFault (c : CoreId) (slot : Fin 4) (f : EngFault) (s : State) : State :=
  let t := (s.coreAt c).streams.get slot
  if !t.active then s
  else
    match f with
    | .page .. =>
      { (s.updCoreAt c fun k => { k with streams := k.streams.set slot.val { t with halted := true } }) with
        outputs := s.outputs ++ [.streamFault c slot] }
    | .error _ a => (s.endStream c slot).engineError ((s.clusterAt (c / 16)).launch.getD 0) a

/-- COPY_FAULT (R241, R247): the same for the cluster's copy, which halts and is reported; one that ends in error leaves its tile FILLING. -/
def evCopyFault (cl : ClusterId) (f : EngFault) (s : State) : State :=
  match (s.clusterAt cl).copies with
  | [] => s
  | c :: r =>
    match f with
    | .page .. =>
      { (s.updClusterAt cl fun k => { k with copies := { c with halted := true } :: r }) with outputs := s.outputs ++ [.copyFault cl] }
    | .error _ a => (s.updClusterAt cl fun k => { k with copies := r }).engineError c.launch a

/-! ### STREAM_PUSH and STREAM_WRITE (R238, R239, R242) -/

/-- Cycles between entries at the peak rate (R242). -/
def Shape.rate (o : Shape) : Nat :=
  max 1 (if o.isRow then ceilDiv (o.count * o.elemSize) 256
    else if o.isCol then ceilDiv o.count 16
    else if o.isBlocks then ceilDiv (o.blocksOf 0).length 2
    else if o.isUnf then ceilDiv o.count 32
    else ceilDiv o.image 256)

/-- Whether a read stream pushes now: the accesses of its hart before it have been performed (R240), and no commit holds its reads (R320). -/
def State.pushReady (s : State) (c : CoreId) (slot : Fin 4) : Bool :=
  let k := s.coreAt c
  let t := k.streams.get slot
  t.active && !t.halted && !t.stopping && !t.obj.isWrite && t.nextAt ≤ s.now && t.next < t.total && 0 < k.room t.q &&
    s.doneBefore (hartIn c t.hart) t.start &&
    !s.reqsHeld (hartIn c t.hart) ((s.clusterAt (c / 16)).launch.getD 0) t.sp .load (t.reads t.next)

/-- STREAM_PUSH (R238). -/
def evStreamPush (c : CoreId) (slot : Fin 4) (s : State) : State :=
  if !s.pushReady c slot then s
  else
    let t := (s.coreAt c).streams.get slot
    let launch := (s.clusterAt (c / 16)).launch.getD 0
    match s.fetchEntry (hartIn c t.hart) launch t t.next with
    | (.fault f, s1) => evStreamFault c slot f s1
    | (.entry bs m, s1) =>
      let t' := { t with next := t.next + 1, done := t.done + 1, nextAt := s.now + t.obj.rate }
      let s2 := s1.updCoreAt c fun k => { k.pushEntry t.q bs m none s.now with streams := k.streams.set slot.val t' }
      if t'.next = t'.total then s2.endStream c slot else s2

/-- Whether a write stream writes now: the oldest entry was released to it at least 4 cycles ago. -/
def State.writeReady (s : State) (c : CoreId) (slot : Fin 4) : Bool :=
  let k := s.coreAt c
  let t := k.streams.get slot
  t.active && !t.halted && !t.stopping && t.obj.isWrite && t.nextAt ≤ s.now && t.next < t.total &&
    (match (k.q t.q).headReleased with
     | some e => decide (e.relAt + 4 ≤ s.now)
     | none => false) && s.doneBefore (hartIn c t.hart) t.start

/-- Accesses of an entry's image at its address (R239). -/
def Shape.writePieces (o : Shape) (base : Word) (r : Nat) (bs : List Byte) : List (Word × List Byte) :=
  let a := base + BitVec.ofNat 64 (o.image * r)
  let g := if o.width = 6 then 64 else if o.width = 8 then 16 else 2
  (List.range (o.image / g)).map fun i => (a + BitVec.ofNat 64 (g * i), (bs.drop (g * i)).take g)

/-- Sends one flight of a stream's write, at the farthest of its locations. -/
def State.sendEngine (n : HartId) (start : Nat) (es : List SElem) (s : State) : List Nat × State :=
  match es with
  | [] => ([], s)
  | e :: r =>
    let far := r.foldl (fun m x => if s.loadLatency n m < s.loadLatency n x.loc then x.loc else m) e.loc
    let x := s.sendFlight n (start / 64) (start % 64) true (.store es) none far s.now false Bar.none none TrapRec.zero
    ([x.1], x.2)

/-- Sends a stream's write of an entry on behalf of hart `n`: a block, as one flight that is performed as a whole (R129), or dense elements, a
flight for each path. The answer names the flights. -/
def State.sendEngineStore (n : HartId) (start : Nat) (block : Bool) (es : List SElem) (s : State) : List Nat × State :=
  (if block then [es] else s.splitPaths (fun e : SElem => e.loc) es).foldl (fun (acc : List Nat × State) g =>
    let x := acc.2.sendEngine n start g
    (acc.1 ++ x.1, x.2)) ([], s)

/-- STREAM_WRITE (R239): an entry marked SEL stops the stream and aborts the launch with SELFAULT. -/
def evStreamWrite (c : CoreId) (slot : Fin 4) (s : State) : State :=
  if !s.writeReady c slot then s
  else
    let t := (s.coreAt c).streams.get slot
    let n := hartIn c t.hart
    let launch := (s.clusterAt (c / 16)).launch.getD 0
    let (bs, m, k) := (s.coreAt c).pop t.q none 0
    match m.sel with
    | some f => ((s.stopStream c slot).requestAbort launch cSelfault.toNat 0 0 f.1 false).log (dieOfCore c) .selector cSelfault.toNat
        (s.unitOf n) f.1.toNat 0
    | none =>
      let ps := t.obj.writePieces t.base t.next bs
      match s.resolveAll n launch t.sp .store (ps.map fun p => (p.1, p.2.length)) with
      | (.error (f, e), s1) => evStreamFault c slot (lateFault f e) s1
      | (.ok (ls, _), s1) =>
        match (ls.zip ps).find? fun x => x.1.bad with
        | some x => evStreamFault c slot (.error (badError x.1) x.2.1) s1
        | none =>
          let es := (ls.zip ps).map fun x => (⟨x.1, x.2.2, m.poi⟩ : SElem)
          let (ids, s2) := (s1.setCoreAt c k).sendEngineStore n t.start (t.obj.width ≠ 0) es
          let t' := { t with next := t.next + 1, done := t.done + 1, nextAt := s.now + t.obj.rate, flights := t.flights ++ ids }
          s2.updCoreAt c fun k => { k with streams := k.streams.set slot.val t' }

/-- Drops an acknowledged flight from the streams that wait for it; one with nothing left to write is idle (R243, R244). -/
def State.streamAck (c : CoreId) (id : Nat) (s : State) : State :=
  (List.finRange 4).foldl (fun s slot =>
    let t := (s.coreAt c).streams.get slot
    if t.flights.contains id then
      let t' := { t with flights := t.flights.filter fun x => x ≠ id }
      let s := s.updCoreAt c fun k => { k with streams := k.streams.set slot.val t' }
      if t'.flights.isEmpty && (t'.stopping || t'.next = t'.total) then s.endStream c slot else s
    else s) s

/-! ### COPY_CHUNK_DONE (R247, R248) -/

/-- Whether two locations name one line of one memory; G views of a line coincide. -/
def MemUnit.sameMem (a b : MemUnit) : Bool :=
  let g := fun u : MemUnit => match u with
    | .hbm | .place | .shadow _ | .snap _ => true
    | _ => false
  a = b || (g a && g b)

/-- Lines of an extent. -/
def linesOf (base n : Nat) : List (Word × Nat) := (List.range (n / 64)).map fun i => (BitVec.ofNat 64 (base + 64 * i), 64)

/-- Bytes of the current chunk of a copy. -/
def Copy.chunkLen (c : Copy) : Nat := min 1024 (c.len - 1024 * c.chunk)

/-- The lines of the current chunk. -/
def Copy.srcLines (c : Copy) : List (Word × Nat) := linesOf (c.src + 1024 * c.chunk) c.chunkLen
def Copy.dstLines (c : Copy) : List (Word × Nat) := linesOf (c.dst + 1024 * c.chunk) c.chunkLen

/-- Whether the copy's next chunk may complete, but for shadow room: the accesses of its hart before it have been performed (R240, R247), and no
commit holds a line of it (R320). -/
def State.chunkDue (s : State) (cl : ClusterId) : Bool :=
  match (s.clusterAt cl).copies with
  | c :: _ =>
    !c.halted && c.io = .none && c.chunk < chunksOf c.len && c.nextAt ≤ s.now && s.doneBefore c.hart c.start &&
      !s.reqsHeld c.hart c.launch c.ss .load c.srcLines && !s.reqsHeld c.hart c.launch c.ds .store c.dstLines
  | [] => false

/-- Whether the next chunk waits for shadow room: its launch has overflowed, and the chunk allocates (R319). -/
def State.chunkHeld (s : State) (cl : ClusterId) : Bool :=
  match (s.clusterAt cl).copies with
  | c :: _ =>
    (s.launchAt c.launch).overflow &&
      (match (s.resolveAll c.hart c.launch c.ds .store c.dstLines).1 with
       | .ok (dl, _) => s.noRoom c.launch dl
       | .error _ => false)
  | [] => false

/-- Sets a chunk bit in the hart's mask, in the duplicate set, and in a write of the mask that takes effect now (R248). -/
def Hart.setChunk (h : Hart) (md : MReg) (b : Nat) (c : Nat) : Hart :=
  let bit := BitVec.twoPow 256 b
  if md = 0 then h
  else
    { h with
      r := { h.r with m := h.r.m.set md.val (h.r.m.get md ||| bit) }
      dup := { h.dup with m := h.dup.m.set md.val (h.dup.m.get md ||| bit) }
      wq := h.wq.map fun w => if w.dst = .mask md && w.due ≤ c then { w with val := w.val ||| bit } else w }

/-- The data of a chunk line: unpredictable where the source and destination extents overlap (R246). -/
def State.copyLine (s : State) (src : Loc) (overlap : Bool) : List Byte × Bool :=
  if overlap then ((List.range 64).map fun i => Config.freeByte s.freeCtr (src.addr + i), s.locPoisoned src 64)
  else (s.locBytes src 64, s.locPoisoned src 64)

/-- The binding of the RDMA window in which a location lies (R385). -/
def State.windowOf (s : State) (l : Loc) : Option Window2 :=
  if l.unit = MemUnit.window then
    let w := (l.addr - rdmaBase) / 2 ^ 32
    if SMap.has s.pkg.windows w then some (SMap.look ⟨0, 0, 0, 0⟩ s.pkg.windows w) else none
  else none

/-- The remote address behind a location of a window (R385). -/
def Window2.remote (w : Window2) (l : Loc) : Nat := w.rbase + (l.addr - rdmaBase) % 2 ^ 32

/-- The locations of a copy's present chunk, source and destination, or its late fault. -/
def State.chunkLocs (s : State) (c : Copy) : Except EngFault (List Loc × List Loc) × State :=
  match s.resolveAll c.hart c.launch c.ss .load c.srcLines with
  | (.error (f, e), s1) => (.error (lateFault f e), s1)
  | (.ok (sl, _), s1) =>
    match s1.resolveAll c.hart c.launch c.ds .store c.dstLines with
    | (.error (f, e), s2) => (.error (lateFault f e), s2)
    | (.ok (dl, _), s2) =>
      match (sl ++ dl).find? fun l => l.bad && (s2.windowOf l).isNone with
      | some l => (.error (.error (badError l) (BitVec.ofNat 64 (c.src + 1024 * c.chunk))), s2)
      | none => (.ok (sl, dl), s2)

/-- Updates the copy at the head of a cluster's queue. -/
def State.updCopy (cl : ClusterId) (f : Copy → Copy) (s : State) : State :=
  s.updClusterAt cl fun k => { k with copies := match k.copies with | c :: r => f c :: r | [] => [] }

/-- The chunk is done: its bit is set, and the next may follow four cycles later. -/
def State.endChunk (cl : ClusterId) (c : Copy) (s : State) : State :=
  let now := s.now
  let s := s.updCopy cl fun c => { c with chunk := c.chunk + 1, nextAt := now + 4, io := .none }
  s.updHartAt c.hart fun h => h.setChunk c.mask c.chunk (s.cycleAt (coreOf c.hart))

/-- The chunk's data go to its destination: a window's as an RDMA WRITE, whose acknowledgement ends the chunk (R385). -/
def State.putChunk (cl : ClusterId) (c : Copy) (dl : List Loc) (data : List (List Byte × Bool)) (s : State) : State :=
  let s1 := ((dl.zip data).filter fun x => x.1.unit ≠ MemUnit.window).foldl (fun s x => s.unitWrite x.1.unit x.1.addr x.2.1 x.2.2) s
  match dl.findSome? fun l => (s.windowOf l).map fun w => (l, w) with
  | none => s1.endChunk cl c
  | some (l, w) =>
    let bytes := ((dl.zip data).filter fun x => x.1.unit = MemUnit.window).flatMap fun x => x.2.1
    { (s1.updCopy cl fun c => { c with io := .writing s.now }) with
      outputs := s1.outputs ++ [.rdmaWriteOut w.port w.qp w.rkey (w.remote l) bytes] }

/-- The lines of a chunk as memory holds them, but for those of a window, which come from `reply` (R385). -/
def State.chunkData (s : State) (c : Copy) (sl dl : List Loc) (reply : List Byte) : List (List Byte × Bool) :=
  let whole := match (s.resolveAll c.hart c.launch c.ss .load (linesOf c.src c.len)).1 with
    | .ok (l, _) => l
    | .error _ => []
  ((sl.zip dl).zip (List.range sl.length)).map fun x =>
    if x.1.1.unit = MemUnit.window then ((reply.drop (64 * x.2)).take 64, false)
    else s.copyLine x.1.1 (whole.any fun w => w.unit.sameMem x.1.2.unit && w.addr / 64 = x.1.2.addr / 64)

/-- The present chunk's work: an RDMA READ is sent where its source lies in a window; otherwise its data go on. -/
def State.startChunk (cl : ClusterId) (c : Copy) (s : State) : State :=
  match s.chunkLocs c with
  | (.error f, s) => evCopyFault cl f s
  | (.ok (sl, dl), s) =>
    if s.noRoom c.launch dl then s.overflow c.launch
    else
      match sl.findSome? fun l => (s.windowOf l).map fun w => (l, w) with
      | some (l, w) =>
        { (s.updCopy cl fun c => { c with io := .reading s.now }) with
          outputs := s.outputs ++ [.rdmaReadOut w.port w.qp w.rkey (w.remote l) c.chunkLen] }
      | none => (s.putChunk cl c dl (s.chunkData c sl dl [])).spendFree

/-- Whether the reply to a chunk's RDMA READ or WRITE has not come within the memory timeout (R101). -/
def State.chunkLate (s : State) (cl : ClusterId) : Bool :=
  match (s.clusterAt cl).copies with
  | c :: _ =>
    (match c.io with
     | .none => false
     | .reading t | .writing t => decide (t + 1100 * s.pkg.cfg.memto ≤ s.now))
  | [] => false

/-- COPY_CHUNK_DONE (R247): the chunk is read and written, and its bit set; a bound RDMA window is read or written through its queue pair,
and `reply` is the responder's answer (R385). A reply that has not come within the memory timeout ends the copy in an error. -/
def evCopyChunkDone (cl : ClusterId) (reply : Option (List Byte)) (s : State) : State :=
  match (s.clusterAt cl).copies, reply with
  | [], _ => s
  | c :: _, none =>
    if s.chunkLate cl then evCopyFault cl (.error .timeout (BitVec.ofNat 64 (c.src + 1024 * c.chunk))) s
    else if s.chunkDue cl then s.startChunk cl c
    else s
  | c :: _, some bs =>
    match c.io with
    | .none => s
    | .writing _ => s.endChunk cl c
    | .reading _ =>
      if bs.length ≠ c.chunkLen then s
      else
        match s.chunkLocs c with
        | (.error f, s) => evCopyFault cl f s
        | (.ok (sl, dl), s) => (s.putChunk cl c dl (s.chunkData c sl dl bs)).spendFree

/-- The addresses that a stream's next entry reads or writes. -/
def Stream.touches (t : Stream) : List (Word × Nat) :=
  if t.obj.isWrite then (t.obj.writePieces t.base t.next (List.replicate t.obj.image 0)).map fun p => (p.1, p.2.length) else t.reads t.next

/-- The address at which a halted stream would fault again. -/
def State.streamUnmapped (s : State) (c : CoreId) (t : Stream) : Option Word :=
  if t.active && t.halted then
    s.reqsUnmapped (hartIn c t.hart) ((s.clusterAt (c / 16)).launch.getD 0) t.sp (if t.obj.isWrite then .store else .load) t.touches
  else none

/-- The address at which a halted copy would fault again. -/
def State.copyUnmapped (s : State) (c : Copy) : Option Word :=
  if c.halted then
    match s.reqsUnmapped c.hart c.launch c.ss .load c.srcLines with
    | some e => some e
    | none => s.reqsUnmapped c.hart c.launch c.ds .store c.dstLines
  else none

/-- MAPPING_REPAIRED (R241): halted streams of the core and halted copies of its cluster go on where they stood. Where the tables still do not
map the address, the mapping could not be repaired, and the launch aborts with PAGEFAULT (log 67). -/
def evMappingRepaired (c : CoreId) (s : State) : State :=
  let s := s.updCoreAt c fun k => { k with dtlb := [], itlb := [] }
  let launch := (s.clusterAt (c / 16)).launch.getD 0
  let lost := ((s.coreAt c).streams.toList.filterMap (s.streamUnmapped c)).map (fun e => (launch, e)) ++
    (s.clusterAt (c / 16)).copies.filterMap fun x => (s.copyUnmapped x).map fun e => (x.launch, e)
  let s1 := (s.updCoreAt c fun k =>
      { k with streams := k.streams.map fun t => if (s.streamUnmapped c t).isSome then t else { t with halted := false } }).updClusterAt
    (c / 16) fun k => { k with copies := k.copies.map fun x => if (s.copyUnmapped x).isSome then x else { x with halted := false } }
  lost.foldl (fun s x => s.requestAbort x.1 cPagefault.toNat 0 0 x.2 false) s1

/-- TRANSLATION_INVALIDATE (R114). -/
def evTranslationInvalidate (c : CoreId) (s : State) : State := s.updCoreAt c fun k => { k with dtlb := [], itlb := [] }

end Sys2Proof.Machine
end

