-- ==== Sys2Proof/Machine/Task.lean ====
section
/-! DEFINITION. Tasks: continuation records, ready lists, pick-up, suspension, futures, finish scopes and the counter tree, strip farms, SETVL (R273 to R300). -/

namespace Sys2Proof.Machine

/-! ### H words (R106) and links (R275) -/

/-- A location of a launch's H allocation on a die. -/
def hLoc (d : DieId) (l off : Nat) : Loc := ⟨.sram d l, off⟩
def State.hNat (s : State) (d : DieId) (l off n : Nat) : Nat := s.locNat (hLoc d l off) n
/-- A step of the shared-SRAM atomic unit writes `n` bytes. -/
def State.hPut (d : DieId) (l off n v : Nat) (s : State) : State := s.unitWrite (.sram d l) off (leBytes n v) false

def recSize : Nat := 192
def futSize : Nat := 16
/-- A link to the record at an H offset (R275). -/
def linkTo (off : Nat) : Nat := off + 1
def linkValid (w : Nat) : Bool := w % 2 = 1
/-- The H offset that a link names. -/
def linkOff (w : Nat) : Nat := w / 64 % 2 ^ 20 * 64
/-- Whether a link obeys its layout (R275). -/
def linkOk (w : Nat) : Bool := w < 2 ^ 26 && w / 2 % 32 = 0 && (linkValid w || w = 0)

/-- The alignment and H-range checks of a record or future (R106, R115, R281). -/
def State.hFault (s : State) (e : Word) (align len : Nat) : Option MemFault :=
  if e.toNat % align ≠ 0 then some (.plain cAlign)
  else if (s.halloc (dieOf s.cur) s.launchId).size < e.toNat + len then some (.plain cHrange)
  else none

/-- A task operation on the H extent at `e`: its memory faults come before its own traps (R281). -/
def State.onH (e : Word) (align len : Nat) (f : State → State) (s : State) : State :=
  match s.hFault e align len with
  | some m => s.raiseMem m e .h .atomic
  | none => f s

/-! ### Record fields (R273, R274) -/

/-- Record states of FLAGS.RSTATE (R274). -/
inductive RState where
  | idle | ready | running | waiting
  deriving DecidableEq, Repr

def RState.code : RState → Nat
  | .idle => 0
  | .ready => 1
  | .running => 2
  | .waiting => 3

/-- A field of FLAGS: `w` bits at bit `i`. -/
def flagField (f i w : Nat) : Nat := f / 2 ^ i % 2 ^ w
/-- FLAGS with a field replaced. -/
def setFlag (f i w v : Nat) : Nat := f - flagField f i w * 2 ^ i + v % 2 ^ w * 2 ^ i

def State.recFlags (s : State) (d : DieId) (l off : Nat) : Nat := s.hNat d l (off + 14) 2
def State.setRecState (d : DieId) (l off : Nat) (r : RState) (s : State) : State :=
  s.hPut d l (off + 14) 2 (setFlag (s.recFlags d l off) 4 2 r.code)

/-! ### Ready lists (R277) -/

/-- Appends a record to a cluster's ready list, linked behind the last one. -/
def State.appendReady (cl : ClusterId) (l off : Nat) (s : State) : State :=
  let d := dieOfCluster cl
  let s := match (s.clusterAt cl).ready.getLast? with
    | some t => s.hPut d l (t + 32) 8 (linkTo off)
    | none => s
  (s.hPut d l (off + 32) 8 0).updClusterAt cl fun c => { c with ready := c.ready ++ [off] }

/-- Whether a cluster runs a launch. -/
def State.runs (s : State) (cl : ClusterId) (l : Nat) : Bool := (s.clusterAt cl).launch = some l

/-- Makes a record ready on the list of a cluster, or of `own` where that cluster does not run the launch (R282). -/
def State.makeReady (cl own : ClusterId) (l off : Nat) (s : State) : State :=
  let t := if s.runs cl l then cl else own
  let d := dieOfCluster own
  let f := setFlag (setFlag (s.recFlags d l off) 4 2 RState.ready.code) 2 2 (t % 4)
  (s.hPut d l (off + 14) 2 f).appendReady t l off

/-! ### The counter tree (R291, R292) -/

def scopeIndex (id : Nat) : Nat := id % 256
def State.scopeAt (s : State) (p : PartId) (id : Nat) : ScopeEnt := SMap.look ScopeEnt.reset (s.partAt p).scopes (scopeIndex id)
/-- Whether a scope id is open (R291). -/
def State.scopeOpen (s : State) (p : PartId) (id : Nat) : Bool :=
  let e := s.scopeAt p id
  e.openNow && e.gen.toNat = id / 256 % 256
def State.updScope (p : PartId) (i : Nat) (f : ScopeEnt → ScopeEnt) (s : State) : State :=
  s.updPartAt p fun q => { q with scopes := SMap.upd ScopeEnt.reset q.scopes i f }

/-- Adds to the spawned total of a scope at a cluster's node. -/
def State.countSpawned (cl : ClusterId) (id n : Nat) (s : State) : State :=
  s.updClusterAt cl fun c => { c with spawned := SMap.upd 0 c.spawned (scopeIndex id) (· + n) }
def State.countEnded (cl : ClusterId) (id : Nat) (s : State) : State :=
  s.updClusterAt cl fun c => { c with ended := SMap.upd 0 c.ended (scopeIndex id) (· + 1) }

/-- Clusters of a partition. -/
def State.clustersOf (s : State) (p : PartId) : List ClusterId :=
  (s.diesOf p).flatMap fun d => (List.range 4).map fun i => 4 * d + i

/-- Opens a scope at an index (R291): its totals start at zero, and no earlier sweep counts for it. -/
def State.openScope (p : PartId) (i launch : Nat) (parent : Option (BitVec 16)) (token root : Bool) (s : State) : State :=
  let s := (s.clustersOf p).foldl (fun s cl =>
    s.updClusterAt cl fun c => { c with spawned := SMap.del c.spawned i, ended := SMap.del c.ended i }) s
  let s := s.updPartAt p fun q => { q with sweep := { q.sweep with sums := SMap.del q.sweep.sums i } }
  s.updScope p i fun e =>
    { e with
      openNow := true, token := token, parent := parent, launch := launch, root := root, credits := 0, prevS := 0
      prevE := 0, prevValid := false }

/-- The lowest free scope index of a partition (R294). -/
def State.freeScope (s : State) (p : PartId) : Option Nat :=
  (List.range 256).find? fun i => !(SMap.look ScopeEnt.reset (s.partAt p).scopes i).openNow

/-- The id of the scope at an index. -/
def State.scopeId (s : State) (p : PartId) (i : Nat) : Nat :=
  (SMap.look ScopeEnt.reset (s.partAt p).scopes i).gen.toNat * 256 + i

/-- Frees an index with GEN + 1. -/
def State.freeScopeAt (p : PartId) (i : Nat) (s : State) : State :=
  s.updScope p i fun e => { e with openNow := false, token := false, gen := e.gen + 1 }

/-- The partition of the current hart. -/
def State.part (s : State) : PartId := s.partOf (dieOf s.cur)
/-- Latency of a step decided at the partition node (R294). -/
def State.nodeLatency (s : State) : Nat := 80 + 52 * s.homeHops

/-! ### Suspension (R280, R283, R284, R285) -/

/-- The registers of LIVEMASK, ascending. -/
def liveRegs (m : Nat) : List XReg := (List.finRange 32).filter fun r => r ≠ 0 && m.testBit r.val

/-- The spill depth that OBJ of SUSPDEPTH gives: entries of the return-address store and of the spill area. -/
def Hart.rasDepth (h : Hart) : Nat := h.r.ras.length + (rspPtr h.r.rspill - rspBase h.r.rspill) / 8

/-- The oldest engine operation of the current hart that is not complete and that R272 names. -/
def State.gridLive (s : State) : Option EngOp :=
  s.core.eng.find? fun e => e.hart = slotOf s.cur && e.kind.region.isSome

/-- The stores of a write-back: offsets in the record, data, and poison (R280). -/
def State.recordStores (s : State) (off flags : Nat) (aux : Option (Word × Bool)) : List (Nat × List Byte × Bool) :=
  let h := s.hart
  let l := s.launchAt s.launchId
  let regs := liveRegs h.r.livemask.toNat
  [(0, leBytes 8 h.bun.ft.toNat, false), (8, leBytes 4 l.rc.code, false), (12, leBytes 2 h.r.fscope.toNat, false),
   (14, leBytes 2 flags, false), (16, leBytes 4 h.r.livemask.toNat, false), (20, leBytes 4 h.r.sidx.toNat, false)] ++
  (match aux with
   | some a => [(24, leBytes 8 a.1.toNat, a.2), (48, [1], false)]
   | none => []) ++
  [(40, leBytes 8 (h.preds.toNat / 2 * 2), decide (h.r.pPoi ≠ 0))] ++
  (List.range 16).map fun j =>
    match regs[j]? with
    | some r => (64 + 8 * j, leBytes 8 (s.x r).toNat, s.xPoi r)
    | none => (64 + 8 * j, leBytes 8 0, false)

/-- Writes the record back after the checks of R280, and ends the bundle with the suspension's checkpoint; `edit` sets the
suspension's own bits of FLAGS. -/
def State.writeBack (a : AfterCkpt) (rs : RState) (edit : Nat → Nat) (aux : Option (Word × Bool)) (s : State) : State :=
  let h := s.hart
  let crec := h.r.crec.toNat
  let off := linkOff crec
  let d := dieOf s.cur
  if !linkValid crec then s.raiseObj cNorec 0 0 0
  else
    s.onH (BitVec.ofNat 64 off) 64 recSize (fun s =>
      if h.rasDepth ≠ 0 then s.raiseObj cSuspdepth 0 h.rasDepth 0
      else
        match s.gridLive with
        | some e => s.raiseObj cGridlive 0 e.tag.toNat 0
        | none =>
          let old := leNat (s.ownBytes s.cur (hLoc d s.launchId (off + 14)) 2).1
          let f := setFlag (setFlag (setFlag old 0 2 h.r.fpmode.toNat) 2 2 (clusterOf s.cur % 4)) 4 2 rs.code
          let es := (s.recordStores off (edit f) aux).map fun x => (⟨hLoc d s.launchId (off + x.1), x.2.1, x.2.2⟩ : SElem)
          (s.updHart fun h => { h with wh := h.wh ++ [⟨h.ser, h.bun.head, es.length, s.barNow true false, true, es, TrapRec.zero⟩] }).wantCkpt a)

/-- SUSPEND (R283). -/
def execSuspend (h : Head) (xa : XReg) (s : State) : Res :=
  guarded h (fun s => s.writeBack .suspend .idle id (some (s.x xa, s.xPoi xa))) s

/-- YIELD (R284): ready again once the write-back is complete. -/
def execYield (h : Head) (s : State) : Res := guarded h (State.writeBack .yield .running id none) s

/-- EXIT (R285). -/
def execExit (h : Head) (s : State) : Res :=
  guarded h (fun s =>
    let crec := s.hart.r.crec.toNat
    if linkValid crec then s.onH (BitVec.ofNat 64 (linkOff crec)) 64 recSize (State.wantCkpt .exit)
    else s.wantCkpt .exit) s

/-- FWAIT (R287): the write-back with FW, PD and PC; the registration follows it. -/
def execFwait (h : Head) (pd pc : PReg) (xa : XReg) (s : State) : Res :=
  guarded h (fun s => s.unlessPoison (s.xPoi xa) fun s =>
    let e := s.x xa
    s.onH e futSize futSize (fun s =>
      s.writeBack (.fwait pd pc e.toNat s.hart.bun.head s.hart.pc) .running
        (fun f => setFlag (setFlag (setFlag f 6 1 1) 8 4 pd.val) 12 4 pc.val) none)) s

/-! ### Futures (R286 to R288) -/

/-- Fields of a future's state word. -/
def futState (w : Nat) : Nat := w / 2 ^ 62 % 4
def futWaiter (w : Nat) : Nat := w % 2 ^ 48
/-- Notes whether a waiter is registered on a future (R286, R287). -/
def State.noteFuture (d : DieId) (l off : Nat) (waits : Bool) (s : State) : State :=
  s.updDieAt d fun x =>
    let a := SMap.look (⟨0, Ram.empty, []⟩ : HAlloc) x.sram l
    let rest := a.futs.filter fun f => f ≠ off
    { x with sram := SMap.put x.sram l { a with futs := if waits then rest ++ [off] else rest } }

/-- Whether a state word obeys R286. -/
def futOk (w : Nat) : Bool := w / 2 ^ 48 % 2 ^ 14 = 0 && linkOk (futWaiter w) && (linkValid (futWaiter w) = decide (futState w = 1))

/-- The step of FRES and FFAIL at the unit: the refusal, or the state after (R288). -/
def State.resolveFuture (d : DieId) (l off : Nat) (v : Word) (ok : Bool) (s : State) : Except (BitVec 8) State :=
  let w := s.hNat d l off 8
  if 2 ≤ futState w then .error cFuttwice
  else if !futOk w then .error cBadfut
  else
    let s := s.hPut d l (off + 8) 8 v.toNat
    let s := (s.hPut d l off 8 ((if ok then 2 else 3) * 2 ^ 62)).noteFuture d l off false
    if linkValid (futWaiter w) then
      let wake : Wake := ⟨l, BitVec.ofNat 64 (futWaiter w), ok, s.now + 4⟩
      .ok (s.updDieAt d fun x => { x with wakes := x.wakes ++ [wake] })
    else .ok s

/-- FRES and FFAIL. -/
def resolveOp (h : Head) (xa xb : XReg) (ok : Bool) (s : State) : Res :=
  guarded h (fun s => s.unlessPoison (s.xPoi xa || s.xPoi xb) fun s =>
    let e := s.x xa
    s.onH e futSize futSize (fun s =>
      match s.resolveFuture (dieOf s.cur) s.launchId e.toNat (s.x xb) ok with
      | .error c => s.raiseObj c e 0 0
      | .ok s => s.awaitReply 40)) s

/-- FRES (R288). -/
def execFres (h : Head) (xa xb : XReg) (s : State) : Res := resolveOp h xa xb true s
/-- FFAIL (R288). -/
def execFfail (h : Head) (xa xb : XReg) (s : State) : Res := resolveOp h xa xb false s

/-- FUTURE_WAKE (R288): wakes the next record of the oldest waking under way on a die. -/
def evFutureWake (d : DieId) (s : State) : State :=
  match (s.dieAt d).wakes with
  | [] => s
  | w :: r =>
    if s.now < w.due then s
    else
      let off := linkOff w.link.toNat
      let next := s.hNat d w.launch (off + 32) 8
      let f := setFlag (s.recFlags d w.launch off) 7 1 (b01 w.ok)
      let home := 4 * d + flagField f 2 2
      let s := (s.hPut d w.launch (off + 14) 2 f).makeReady home home w.launch off
      let rest := if linkValid next then { w with link := BitVec.ofNat 64 next, due := s.now + 4 } :: r else r
      s.updDieAt d fun x => { x with wakes := rest }

/-! ### SPAWN (R282) -/

/-- The step of SPAWN at the unit: PARKED has to be 1 with `.RES` and 0 without. -/
def State.spawnStep (xa : XReg) (cl : Option (Fin 4)) (res : Bool) (s : State) : State :=
  let e := s.x xa
  let off := e.toNat
  let d := dieOf s.cur
  let l := s.launchId
  let own := clusterOf s.cur
  let parked := s.hNat d l (off + 48) 1
  let scope := s.hNat d l (off + 12) 2
  if flagField (s.recFlags d l off) 4 2 ≠ RState.idle.code || parked ≠ b01 res then s.raiseObj cBadrec e 0 0
  else if !res && !s.scopeOpen s.part scope then s.raiseObj cBadrec e (scopeIndex scope) 2
  else
    let s := if res then s.hPut d l (off + 48) 1 0 else s.countSpawned own scope 1
    (s.makeReady (match cl with | some c => 4 * d + c.val | none => own) own l off).awaitReply 40

/-- A spawn under its guard. -/
def spawnOp (h : Head) (xa : XReg) (cl : Option (Fin 4)) (res : Bool) (s : State) : Res :=
  guarded h (fun s => s.unlessPoison (s.xPoi xa) fun s => s.onH (s.x xa) 64 recSize (State.spawnStep xa cl res)) s

/-- SPAWN (R282). -/
def execSpawn (h : Head) (xa : XReg) (cl : Option (Fin 4)) (s : State) : Res := spawnOp h xa cl false s
/-- SPAWN.RES (R282). -/
def execSpawnRes (h : Head) (xa : XReg) (cl : Option (Fin 4)) (s : State) : Res := spawnOp h xa cl true s

/-! ### Finish scopes (R294 to R296) -/

/-- A scope id as an operand: xa[15:0]. -/
def scopeOperand (w : Word) : Nat := w.toNat % 65536

/-- FINOPEN (R294). -/
def execFinopen (h : Head) (xd xa : XReg) (s : State) : Res :=
  guarded h (fun s => s.unlessPoison (s.xPoi xa) fun s =>
    let id := scopeOperand (s.x xa)
    if !s.scopeOpen s.part id then s.raiseObj cBadscope (BitVec.ofNat 64 id) (scopeIndex id) 0
    else
      match s.freeScope s.part with
      | none => s.raiseObj cBadscope (BitVec.ofNat 64 id) 0 3
      | some i =>
        let lat := s.nodeLatency
        let new := s.scopeId s.part i
        let own := clusterOf s.cur
        let s := s.openScope s.part i s.launchId (some (BitVec.ofNat 16 id)) true false
        ((((s.countSpawned own id 1).countSpawned own new 1).putX xd (BitVec.ofNat 64 new) false lat).awaitReply lat)) s

/-- FINEND (R295). -/
def execFinend (h : Head) (xa : XReg) (s : State) : Res :=
  guarded h (fun s => s.unlessPoison (s.xPoi xa) fun s =>
    let id := scopeOperand (s.x xa)
    let info := BitVec.ofNat 64 id
    if !s.scopeOpen s.part id then s.raiseObj cBadscope info (scopeIndex id) 0
    else if !(s.scopeAt s.part id).token then s.raiseObj cBadscope info (scopeIndex id) 2
    else
      ((s.updScope s.part (scopeIndex id) fun e => { e with token := false }).countEnded (clusterOf s.cur) id).awaitReply
        s.nodeLatency) s

/-- FINWAIT (R296): it issues when the scope is complete. -/
def execFinwait (h : Head) (xa : XReg) (s : State) : Res :=
  guarded h (fun s => s.unlessPoison (s.xPoi xa) fun s =>
    let id := scopeOperand (s.x xa)
    if id = scopeOperand s.hart.r.fscope then s.raiseObj cBadscope (BitVec.ofNat 64 id) (scopeIndex id) 1 else s) s

/-! ### Strip farms (R297, R298) -/

/-- Farm entries of a cluster (R297). -/
def farmSize : Nat := 16

/-- The clusters that a FARM's mask names. -/
def State.farmClusters (s : State) (mask : Word) : List ClusterId :=
  (List.range 32).filter fun k => mask.getLsbD k && s.runs k s.launchId

/-- FARM (R297). -/
def execFarm (h : Head) (xa xb xc xe : XReg) (disp : BitVec 27) (hidx : Fin 32) (s : State) : Res :=
  guarded h (fun s => s.unlessPoison (s.xPoi xa || s.xPoi xb || s.xPoi xc) fun s =>
    let n := (s.x xa).toNat % 2 ^ 32
    let cls := s.farmClusters (s.x xb)
    let id := scopeOperand (s.x xc)
    let info := BitVec.ofNat 64 id
    if n = 0 || cls = [] then s.raiseObj cBadscope info 0 0
    else if !s.scopeOpen s.part id then s.raiseObj cBadscope info (scopeIndex id) 0
    else
      let body := lineTarget s.hart.pc disp hidx
      let farm := fun j : Nat => (⟨j, cls.length, n, body, s.x xe, s.xPoi xe, BitVec.ofNat 16 id, s.hart.r.fpmode, s.fresh⟩ : Farm)
      let lat := s.nodeLatency
      let s1 := (List.range cls.length).foldl (fun s j =>
        if j < n then s.updClusterAt (cls.getD j 0) fun c => { c with farms := c.farms ++ [farm j] } else s) s
      (({ s1 with fresh := s1.fresh + 1 }).countSpawned (clusterOf s.cur) id n).awaitReply lat) s

/-! ### SETVL (R299) -/

/-- STEPCNT plus one for each STEP and SETVL of the bundle (R350). -/
def State.countStep (s : State) : State :=
  let h := s.hart
  let now := h.wq.foldl (fun v w => if w.ser = h.ser && w.dst = .sys .stepcnt then w.val.setWidth 64 else v) h.r.stepcnt
  s.putSys .stepcnt (now + 1)

/-- SETVL (R299): its checkpoint is a step boundary. -/
def execSetvl (h : Head) (xd : XReg) (pd pc : PReg) (xa : XReg) (s : State) : Res :=
  guarded h (fun s => s.unlessPoison (s.xPoi xa) fun s =>
    let n := (s.x xa).toNat
    let v := min n 256
    let s := s.putSys .vl (BitVec.ofNat 64 (max v 1))
    let s := (s.putX xd (BitVec.ofNat 64 (n - v)) false 1).putP2 pd pc (n ≠ 0) false 1
    s.countStep.stepEnds) s

/-! ### Pick-up (R277 to R279, R298) -/

/-- Whether an idle hart may take work now. -/
def State.mayTake (s : State) (n : HartId) : Bool :=
  let h := s.hartAt n
  let l := s.launchAt h.launchId
  h.mode = .idle && h.idleAt ≤ s.now && l.pre = .none && l.cause = 0 && !h.stopReq

/-- Farms of a hart's cluster with strips left: taken farms leave the list. -/
def State.stripReady (s : State) (n : HartId) : Bool := s.mayTake n && !(s.clusterAt (clusterOf n)).farms.isEmpty

/-- The ready list that an idle hart takes from (R277). -/
def State.readySource (s : State) (n : HartId) : Option ClusterId :=
  let c := clusterOf n % 4
  let l := (s.hartAt n).launchId
  ([0, 1, 2, 3].map fun k => 4 * dieOf n + (c + k) % 4).find? fun cl => s.runs cl l && !(s.clusterAt cl).ready.isEmpty

def State.pickupReady (s : State) (n : HartId) : Bool := s.mayTake n && !s.stripReady n && (s.readySource n).isSome

/-- Whether the record at an offset is valid for pick-up (R279). -/
def State.recordValid (s : State) (d : DieId) (l off : Nat) : Bool :=
  let g := fun o n => s.hNat d l (off + o) n
  let f := g 14 2
  let live := g 16 4
  g 49 15 = 0 && linkOk (g 32 8) && g 40 8 % 2 = 0 && g 40 8 < 65536 && g 8 4 = (s.launchAt l).rc.code && live % 2 = 0 &&
    (liveRegs live).length ≤ 16 && (flagField f 6 1 = 0 || flagField f 8 4 ≠ flagField f 12 4)

/-- The registers with which a task starts: everything else than the flags, STEPCNT, INH and the tile is fresh (R278, R298). -/
def Regs.task (r : Regs) (rm : Nat) : Regs :=
  { Regs.reset with
    fpmode := BitVec.ofNat 64 (r.fpmode.toNat / 4 * 4 + rm % 4), fpflags := r.fpflags, vflags := r.vflags
    stepcnt := r.stepcnt, inh := r.inh, tile := r.tile }

/-- Starts a task on a hart at `pc`: a checkpoint there, its first bundle `lat` cycles later. -/
def State.startTask (n : HartId) (r : Regs) (pc : Word) (lat : Nat) (s : State) : State :=
  let c := s.cycleAt (coreOf n) + lat
  s.updHartAt n fun h =>
    { h with
      r := r, wq := [], pc := pc, mode := .running, bun := Bundle.none
      ck := some ⟨pc, h.ser, c, 0, .go, false⟩
      time := { h.time with nextIssue := max h.time.nextIssue c }
      fetch := { h.fetch with st := .idle, entered := none, xferFrom := some pc, welkinTarget := false } }

/-- Cycles from the list step to the first bundle (R278); DEDUCED: a strip, whose rule R298 gives no figure, takes as many
(log 77). -/
def pickupCycles : Nat := 48

/-- The registers that a record gives (R278). -/
def State.recordRegs (s : State) (d : DieId) (l off : Nat) (r : Regs) : Regs :=
  let g := fun o n => s.hNat d l (off + o) n
  let f := g 14 2
  let head := s.locPoisoned (hLoc d l off) 64
  let live := liveRegs (g 16 4)
  let r0 := r.task (flagField f 0 2)
  let r1 := (List.range 16).foldl (fun (r : Regs) j =>
    match live[j]? with
    | some x =>
      { r with
        x := r.x.set x.val (BitVec.ofNat 64 (g (64 + 8 * j) 8))
        xPoi := markBit r.xPoi x.val (s.locPoisoned (hLoc d l (off + 64 + 8 * j)) 8) }
    | none => r) r0
  let p : BitVec 16 := BitVec.ofNat 16 (g 40 8 / 2 * 2 + 1)
  let setP := fun (p : BitVec 16) (i : Nat) (b : Bool) => if i = 0 then p else markBit p i b
  let ok := decide (flagField f 7 1 = 1)
  let p := if flagField f 6 1 = 1 then setP (setP p (flagField f 8 4) ok) (flagField f 12 4) (!ok) else p
  { r1 with
    p := p, pPoi := if head then 0xFFFE else 0
    crec := BitVec.ofNat 64 (linkTo off), livemask := BitVec.ofNat 64 (g 16 4), fscope := BitVec.ofNat 64 (g 12 2)
    sidx := BitVec.ofNat 64 (g 20 4) }

/-- PICKUP (R277 to R279): the list step, the record's checks and its registers. -/
def evPickup (n : HartId) (s : State) : State :=
  if !s.pickupReady n then s
  else
    match s.readySource n with
    | none => s
    | some cl =>
      match (s.clusterAt cl).ready with
      | [] => s
      | off :: rest =>
        let d := dieOf n
        let h := s.hartAt n
        let l := h.launchId
        let s := s.updClusterAt cl fun c => { c with ready := rest }
        if !s.recordValid d l off then
          s.takeTrap n ⟨cBadrec, h.pc, BitVec.ofNat 64 off, auxObj 0 1 0, true⟩
        else
          let r := s.recordRegs d l off h.r
          let pc := BitVec.ofNat 64 (s.hNat d l off 8)
          let f := setFlag (setFlag (setFlag (s.recFlags d l off) 4 2 RState.running.code) 6 1 0) 7 1 0
          (s.hPut d l (off + 14) 2 f).startTask n r pc pickupCycles

/-- The registers with which a strip starts (R298). -/
def Farm.regs (f : Farm) (r : Regs) : Regs :=
  let r0 := r.task f.rm.toNat
  { r0 with
    x := (r0.x.set 1 (BitVec.ofNat 64 f.next)).set 2 f.arg, xPoi := markBit 0 2 f.argPoi
    fscope := f.scope.setWidth 64, sidx := BitVec.ofNat 64 f.next }

/-- STRIP_START (R298): the next strip of the oldest farm of the hart's cluster; an entry whose last strip is taken frees. -/
def evStripStart (n : HartId) (s : State) : State :=
  if !s.stripReady n then s
  else
    match (s.clusterAt (clusterOf n)).farms with
    | [] => s
    | f :: rest =>
      let f' := { f with next := f.next + f.stride }
      let s := s.updClusterAt (clusterOf n) fun c => { c with farms := if f'.next < f.total then f' :: rest else rest }
      s.startTask n (f.regs (s.hartAt n).r) f.body pickupCycles

/-! ### The end of a suspension (R280, R284, R285, R287) -/

/-- Whether the stores that a leaving hart waits for have been acknowledged: those to H for a write-back, all for EXIT. -/
def State.leaveReady (s : State) (n : HartId) : Bool :=
  match (s.hartAt n).mode with
  | .leaving .exit => !(s.flights.any fun f => f.hart = n)
  | .leaving _ => !(s.flights.any fun f => f.hart = n && f.kind.locs.any fun l => match l.unit with | .sram _ _ => true | _ => false)
  | _ => false

/-- The hart becomes idle. -/
def State.goIdle (n : HartId) (lat : Nat) (s : State) : State :=
  let t := s.now + lat
  s.updHartAt n fun h => { h with mode := .idle, idleAt := t }

/-- The registration of FWAIT at the unit (R287): the hart becomes idle, or goes on with the future's outcome. -/
def State.registerFuture (n : HartId) (pd pc : PReg) (fut head : Nat) (bpc : Word) (s : State) : State :=
  let d := dieOf n
  let h := s.hartAt n
  let l := h.launchId
  let w := s.hNat d l fut 8
  let off := linkOff h.r.crec.toNat
  if 2 ≤ futState w then
    let ok := decide (futState w = 2)
    let put := fun (r : Regs) (p : PReg) (b : Bool) =>
      if p = 0 then r else { r with p := markBit r.p p.val b, pPoi := markBit r.pPoi p.val false }
    let both := fun r => put (put r pd ok) pc (!ok)
    let c := s.cycleAt (coreOf n) + 42
    s.updHartAt n fun h =>
      { h with r := both h.r, dup := both h.dup, mode := .running, time := { h.time with nextIssue := max h.time.nextIssue c } }
  else if !futOk w then s.takeTrap n ⟨cBadfut, bpc, BitVec.ofNat 64 fut, auxObj 0 0 head, false⟩
  else
    let s := s.hPut d l (off + 32) 8 (futWaiter w)
    let s := s.setRecState d l off .waiting
    ((s.hPut d l fut 8 (2 ^ 62 + linkTo off)).noteFuture d l fut true).goIdle n 40

/-- WRITEBACK_COMPLETE (R280): the step that the suspension makes at a unit, and the idle hart. -/
def evWritebackComplete (n : HartId) (s : State) : State :=
  if !s.leaveReady n then s
  else
    let h := s.hartAt n
    let d := dieOf n
    let off := linkOff h.r.crec.toNat
    match h.mode with
    | .leaving .suspend => s.goIdle n 0
    | .leaving .yield => (s.makeReady (clusterOf n) (clusterOf n) h.launchId off).goIdle n 0
    | .leaving .exit =>
      let s := s.countEnded (clusterOf n) h.r.fscope.toNat
      (if linkValid h.r.crec.toNat then s.setRecState d h.launchId off .idle else s).goIdle n 0
    | .leaving (.fwait pd pc fut head bpc) => s.registerFuture n pd pc fut head bpc
    | _ => s

/-! ### The sweep of the counter tree (R293) -/

/-- Cycles between sweeps. -/
def sweepPeriod : Nat := 220

/-- Totals of a cluster's node. -/
def Cluster.totals (c : Cluster) (i : Nat) : Nat × Nat := (SMap.look 0 c.spawned i, SMap.look 0 c.ended i)

/-- One node's report. -/
def State.readNode (p : PartId) (cl : ClusterId) (s : State) : State :=
  let c := s.clusterAt cl
  s.updPartAt p fun q =>
    let add := fun (m : SMap (Nat × Nat)) (i : Nat) =>
      let t := c.totals i
      SMap.upd (0, 0) m i fun x => (x.1 + t.1, x.2 + t.2)
    { q with
      sweep := { q.sweep with
        reading := q.sweep.reading.filter fun x => x ≠ cl
        sums := (q.scopes.filter fun e => e.2.openNow).foldl (fun m e => add m e.1) q.sweep.sums } }

/-- Completion of a scope (R293): the parent is credited and the index freed; with a root scope the launch's streams
stop (R245). -/
def State.completeScope (p : PartId) (i : Nat) (s : State) : State :=
  let e := SMap.look ScopeEnt.reset (s.partAt p).scopes i
  let s := match e.parent with
    | some q => if s.scopeOpen p q.toNat then s.updScope p (scopeIndex q.toNat) fun x => { x with credits := x.credits + 1 } else s
    | none => s
  let s := s.freeScopeAt p i
  if e.root then (s.launchAt e.launch).rc.coreList.foldl (fun s c => (List.finRange 4).foldl (fun s k => s.stopStream c k) s) s
  else s

/-- The condition of R293 on an open scope, with this sweep's sums. -/
def scopeDone (e : ScopeEnt) (sums : Nat × Nat) : Bool :=
  e.prevValid && sums.1 = sums.2 + e.credits && sums.1 = e.prevS && sums.2 + e.credits = e.prevE

/-- The end of a sweep. -/
def State.endSweep (p : PartId) (s : State) : State :=
  let q := s.partAt p
  let live := q.scopes.filter fun e => e.2.openNow
  let sum := fun i => SMap.look (0, 0) q.sweep.sums i
  let done := (live.filter fun e => scopeDone e.2 (sum e.1)).map fun e => e.1
  let s := live.foldl (fun s e =>
    s.updScope p e.1 fun x => { x with prevS := (sum e.1).1, prevE := (sum e.1).2 + x.credits, prevValid := true }) s
  let s := done.foldl (fun s i => s.completeScope p i) s
  let next := q.sweep.start + sweepPeriod
  let cls := s.clustersOf p
  s.updPartAt p fun q => { q with sweep := ⟨next, cls, []⟩ }

/-- Cycles of a sweep (R293: within 0.2 microseconds and before the next one). -/
def sweepLength : Nat := 200

/-- SWEEP (R293): the report of a node, or the end of the sweep once every node has reported. -/
def evSweep (p : PartId) (node : Option ClusterId) (s : State) : State :=
  let w := (s.partAt p).sweep
  if s.now < w.start then s
  else
    match node with
    | some cl => if w.reading.contains cl then s.readNode p cl else s
    | none => if w.reading.isEmpty && w.start + sweepLength ≤ s.now then s.endSweep p else s

/-! ### The end of a copy (R247) -/

/-- Whether the oldest copy of a cluster has written its last chunk. -/
def State.copyEnds (s : State) (cl : ClusterId) : Bool :=
  match (s.clusterAt cl).copies with
  | c :: _ => c.chunk = chunksOf c.len
  | [] => false

/-- COPY_DONE (R247): the tile becomes READY and the future is resolved with n; a refusal aborts the launch. -/
def evCopyDone (cl : ClusterId) (s : State) : State :=
  if !s.copyEnds cl then s
  else
    match (s.clusterAt cl).copies with
    | [] => s
    | c :: r =>
      let s := s.updClusterAt cl fun k =>
        let k := { k with copies := r }
        match c.tile with
        | some t => k.updTile t fun x => { x with state := .ready, cp := false }
        | none => k
      match c.fut with
      | none => s
      | some f =>
        let d := dieOfCluster cl
        let fail := fun cause : BitVec 8 => s.requestAbort c.launch cause.toNat 0 0 (BitVec.ofNat 64 f) false
        if f % futSize ≠ 0 then fail cAlign
        else if (s.halloc d c.launch).size < f + futSize then fail cHrange
        else
          match s.resolveFuture d c.launch f (BitVec.ofNat 64 c.len) true with
          | .error e => fail e
          | .ok s => s

end Sys2Proof.Machine
end

