-- ==== Sys2Proof/Machine/Launch.lean ====
section
/-! DEFINITION. Launches and transactions: records and their validation, submission, admission, start, scheduling, the shadow, commit and abort; LAUNCH, TXABORT and TXWAIT (R301 to R328). -/

namespace Sys2Proof.Machine

/-! ### The launch record (R301, R302) -/

/-- `n` bytes of a record at an offset, little-endian. -/
def rd (raw : List Byte) (o n : Nat) : Nat := leNat ((raw.drop o).take n)

def recBytes : Nat := 512

/-- Range classes by their code; codes above 4 are reserved (R302). -/
def classOf (n : Nat) : Option RClass :=
  match n with
  | 0 => some .ro
  | 1 => some .rw
  | 2 => some .wo
  | 3 => some .nt
  | 4 => some .snap
  | _ => none

def rangeBase (raw : List Byte) (i : Nat) : Nat := rd raw (128 + 24 * i) 8
def rangeLen (raw : List Byte) (i : Nat) : Nat := rd raw (136 + 24 * i) 8
def rangeAttr (raw : List Byte) (i : Nat) : Nat := rd raw (144 + 24 * i) 8
def rangeIsValid (raw : List Byte) (i : Nat) : Bool := rangeAttr raw i % 2 = 1
def attrXm (a : Nat) : Bool := a.testBit 60
def attrMod (a : Nat) : Nat := a / 2 ^ 57 % 8
def attrPa (a : Nat) : Nat := a / 4096 % 2 ^ 40 * 4096

/-- Range entry `i`, none where V = 0. -/
def rangeOf (raw : List Byte) (i : Nat) : Option Range :=
  let a := rangeAttr raw i
  if rangeIsValid raw i then
    (classOf (a / 2 ^ 61)).map fun c =>
      { base := rangeBase raw i, len := rangeLen raw i, pa := attrPa a, cls := c, xm := if attrXm a then some (attrMod a) else none }
  else none

/-- The decoded fields of a record (R301). -/
def recOf (raw : List Byte) : LRec :=
  { code := rd raw 8 4, entry := rd raw 16 8, trap := rd raw 24 8, args := BitVec.ofNat 64 (rd raw 32 8)
    argsize := rd raw 40 8, clusters := rd raw 48 4, spad := rd raw 52 1, harts := rd raw 53 1, mode := rd raw 54 1
    hbytes := rd raw 56 8, queue := rd raw 64 1, dclass := rd raw 65 1, ovf := rd raw 72 1 = 1, retry := rd raw 73 1
    recheck := rd raw 74 1, gridchk := rd raw 75 1, quota := rd raw 80 8
    ranges := (List.range 16).map fun i => rangeOf raw i }

/-- Number of valid range entries. -/
def validRanges (raw : List Byte) : Nat := ((List.range 16).filter fun i => rangeIsValid raw i).length

/-! ### Validation (R303, R304) -/

/-- Whether a physical extent overlaps a configured queue region of the device (R304, R306). -/
def State.overQueue (s : State) (pa len : Nat) : Bool :=
  s.parts.any fun p => p.2.queues.any fun q => q.2.n ≠ 0 && overlaps pa len q.2.base (64 + 512 * q.2.n)

/-- Whether an extent lies in HBM of the partition's dies (R304). -/
def State.partHbm (s : State) (p : PartId) (pa len : Nat) : Bool :=
  pa + len ≤ hbmEnd && (List.range 16).all fun j => !overlaps pa len (stackSize * j) stackSize || s.partOf (j / 2) = p

/-- R304 on entry `i`. The extent of an XM range lies in another module, so that it overlaps no queue region of the device. -/
def State.rangeOk (s : State) (p : PartId) (raw : List Byte) (i : Nat) : Bool :=
  let a := rangeAttr raw i
  let b := rangeBase raw i
  let n := rangeLen raw i
  if !rangeIsValid raw i then a = 0 && b = 0 && n = 0
  else
    match classOf (a / 2 ^ 61) with
    | none => false
    | some c =>
      let pa := attrPa a
      b % 4096 = 0 && n % 4096 = 0 && 4096 ≤ n && b + n ≤ 2 ^ 56 && pa + n ≤ 2 ^ 52 && a / 2 ^ 52 % 32 = 0 &&
        a / 2 % 2 ^ 11 = 0 && (attrXm a || attrMod a = 0) && (attrXm a || !s.overQueue pa n) &&
        (!attrXm a || ((c = .ro || c = .nt) && attrMod a < s.pkg.cfg.domsize && attrMod a ≠ s.pkg.cfg.modulePos)) &&
        (!(c = .rw || c = .wo || c = .snap) || s.partHbm p pa n)

/-- Reasons 0 to 8 of R303 that fail, in order, with OBJ. -/
def State.recordFaults (s : State) (p : PartId) (raw : List Byte) : List (Nat × Nat) :=
  let r := recOf raw
  let z := fun o n => rd raw o n = 0
  let inCode := fun (k : Slot) (e : Nat) => e % 2 = 0 && e < k.size
  let fail := fun (reason obj : Nat) (ok : Bool) => if ok then [] else [(reason, obj)]
  fail 0 0 (rd raw 0 8 = 1) ++
  fail 1 0 (z 12 4 && z 55 1 && z 66 6 && z 76 4 && z 88 8 && z 96 32) ++
  fail 2 0 (match s.codeSlot p r.code with
    | some k => inCode k r.entry && (r.trap = 2 ^ 64 - 1 || inCode k r.trap)
    | none => false) ++
  fail 3 0 (r.clusters ≠ 0 && (r.clusterList.all fun c => s.partOf (dieOfCluster c) = p) && 16 ≤ r.spad && r.spad ≤ 23 &&
    1 ≤ r.harts && r.harts ≤ 32 && r.mode ≤ 2 && r.hbytes % 4096 = 0 && r.hbytes ≤ 64 * 2 ^ 20) ++
  fail 4 0 (r.queue ≤ 63 && r.dclass ≤ 7) ++
  fail 5 0 (rd raw 72 1 ≤ 1 && r.retry ≤ 15 && r.recheck ≤ 2 && r.gridchk ≤ 1) ++
  (match (List.range 16).find? fun i => !s.rangeOk p raw i with
   | some i => [(6, i)]
   | none => []) ++
  fail 7 0 (r.argsize ≤ 65536 && (r.argsize = 0 || r.ranges.any fun x => x.any fun g =>
    g.cls ≠ .wo && g.base ≤ r.args.toNat && r.args.toNat + r.argsize ≤ g.base + g.len)) ++
  fail 8 0 (r.quota % 64 = 0 && r.quota ≤ s.poolSize p * 64)

/-- Whether a child's range lies within one of the parent's (R323). -/
def childRangeOk (parent : LRec) (g : Range) : Bool :=
  let writes := fun c : RClass => c = .rw || c = .wo || c = .nt
  parent.ranges.any fun x => x.any fun q =>
    q.xm = g.xm && q.pa ≤ g.pa && g.pa + g.len ≤ q.pa + q.len && (!writes g.cls || writes q.cls)

/-- The first reason of R303 that fails for a record named by LAUNCH, with OBJ. -/
def State.childFault (s : State) (parent : Launch) (raw : List Byte) : Option (Nat × Nat) :=
  let r := recOf raw
  match s.recordFaults parent.part raw with
  | f :: _ => some f
  | [] =>
    match (List.range 16).find? fun i => ((r.ranges.getD i none).any fun g => !childRangeOk parent.rc g) with
    | some i => some (9, i)
    | none => if 64 ≤ parent.children.length then some (10, 0) else none

/-! ### Submission (R305 to R307) -/

def State.queueAt (s : State) (p : PartId) (q : Nat) : LQueue := SMap.look LQueue.reset (s.partAt p).queues q
def State.updQueue (p : PartId) (q : Nat) (f : LQueue → LQueue) (s : State) : State :=
  s.updPartAt p fun x => { x with queues := SMap.upd LQueue.reset x.queues q f }

def LQueue.slotAddr (q : LQueue) (seq : Nat) : Nat := q.base + 64 + seq % (max q.n 1) * 512
def State.taken (s : State) (q : LQueue) : Nat := s.physNat q.base 4
def State.posted (s : State) (q : LQueue) : Nat := s.physNat (q.base + 4) 4

/-- A record taken for admission (R305). -/
def State.takeRecord (p : PartId) (raw : List Byte) (slot : Option (Nat × Nat)) (parent : Option Nat) (s : State) : State :=
  let r := recOf raw
  let l : Launch :=
    { Launch.none with
      raw := raw, rc := r, part := p, st := .taken, slot := slot, parent := parent
      deadline := s.now + (s.partAt p).reldl.toList.getD (r.dclass % 8) 0 }
  let id := s.fresh
  ({ s with launches := SMap.put s.launches id l, fresh := s.fresh + 1 }).updPartAt p fun x => { x with taken := x.taken ++ [id] }

/-- Whether records of a queue wait to be taken. -/
def State.hasRecords (s : State) (p : PartId) (q : Nat) : Bool :=
  let x := s.queueAt p q
  x.n ≠ 0 && s.taken x ≠ s.posted x

/-- Whether an ADMIT atomic stands for records that have still to be taken: its POSTED lies ahead of TAKEN, and not beyond the present POSTED. -/
def State.atomicLive (s : State) (p : PartId) (a : Nat × Nat) : Bool :=
  let x := s.queueAt p a.1
  let ahead := fun n : Nat => (n + 2 ^ 32 - s.taken x) % 2 ^ 32
  s.hasRecords p a.1 && 0 < ahead a.2 && ahead a.2 ≤ ahead (s.posted x)

/-- Whether the scheduler takes a record from a queue now (R309): across queues, in the order in which their ADMIT atomics reached the node.
Where none of those stands for a record, as after a QCONF onto a region in use, every queue may be taken from. -/
def State.takeReady (s : State) (p : PartId) (q : Nat) : Bool :=
  !(s.partAt p).held && s.hasRecords p q &&
    match (s.partAt p).order.find? (s.atomicLive p) with
    | some a => a.1 = q
    | none => true

/-- Notes an ADMIT atomic that a host has performed at a physical address (R309). -/
def State.noteAdmit (pa : Nat) (s : State) : State :=
  { s with parts := s.parts.map fun p =>
      (p.1, { p.2 with order := p.2.order.filter (s.atomicLive p.1) ++
        ((p.2.queues.filter fun q => q.2.n ≠ 0 && q.2.base = pa).map fun q => (q.1, s.posted q.2)) }) }

/-- LAUNCH_TAKE (R306). -/
def evLaunchTake (p : PartId) (q : Fin 64) (s : State) : State :=
  if !s.takeReady p q.val then s
  else
    let x := s.queueAt p q.val
    let seq := s.taken x
    let raw := s.physBytes (x.slotAddr seq) recBytes
    (s.takeRecord p raw (some (q.val, seq)) none).physWrite x.base (leBytes 4 ((seq + 1) % 2 ^ 32)) false

/-- Whether the scheduler node of a partition reaches a queue region (R329, R389). -/
def State.queueReached (s : State) (p : PartId) (q : LQueue) : Bool := !s.routeLost 4 (s.homeDie p) (dieOfPa q.base)

/-- Writes the status of a launch into its slot (R307), where the queue region can be reached (R329). -/
def State.writeStatus (id outcome tag code : Nat) (s : State) : State :=
  let l := s.launchAt id
  match l.slot with
  | none => s
  | some (q, seq) =>
    let x := s.queueAt l.part q
    let trap := outcome ≠ 1 && outcome ≠ 4
    let bs := leBytes 1 outcome ++ leBytes 1 l.tries ++ leBytes 2 tag ++ leBytes 2 (if trap then l.cause else 0) ++ leBytes 2 code ++
      leBytes 8 (if trap then l.trapPc.toNat else 0) ++ leBytes 8 (if trap then l.trapInfo.toNat else 0) ++ leBytes 8 0
    if x.n = 0 || !s.queueReached l.part x then s else s.physWrite (x.slotAddr seq + 96) bs false

/-! ### Admission (R309, R310) -/

/-- Launches of a partition. -/
def State.launchesOf (s : State) (p : PartId) : List (Nat × Launch) := s.launches.filter fun x => x.2.part = p

/-- States from admission until a launch has committed or aborted. -/
def LState.uncommitted : LState → Bool
  | .admitted | .ready | .running | .ended | .committing | .aborting => true
  | _ => false

/-- Whether a launch still holds shadow lines. -/
def State.holdsLines (s : State) (id : Nat) : Bool := s.shadow.any fun e => e.launch = id

/-- Tags in use (R305, R309): those of live launches, and of launches whose lines, of a commit or of a switch, have still to settle. -/
def State.tagsOf (s : State) (p : PartId) : List Nat :=
  ((s.launchesOf p).filter fun x => x.2.st.uncommitted || s.holdsLines x.1).map fun x => x.2.tag

def State.freeTag (s : State) (p : PartId) : Option Nat :=
  let used := s.tagsOf p
  (List.range 1023).findSome? fun i => if used.contains (i + 1) then none else some (i + 1)

/-- Whether launch `l` waits for an earlier launch `e` (R310). -/
def conflicts (l e : LRec) : Bool :=
  l.ranges.any fun x => x.any fun g => (g.cls = .ro || g.cls = .rw) && g.xm.isNone &&
    e.ranges.any fun y => y.any fun h => (h.cls = .rw || h.cls = .wo) && overlaps g.pa g.len h.pa h.len

/-- Cycles of an admission (R309). -/
def admitCycles (raw : List Byte) : Nat := nsCycles (1200 + 50 * validRanges raw)

/-- The end of the admission of a valid record: a tag, a place and the waits. -/
def State.admitRecord (p : PartId) (id tag : Nat) (s : State) : State :=
  let l := s.launchAt id
  let waits := ((s.launchesOf p).filter fun x => x.2.st.uncommitted && conflicts l.rc x.2.rc).map fun x => x.1
  let place := (s.partAt p).nextPlace + 1
  (s.updLaunchAt id fun l => { l with st := .admitted, tag := tag, place := place, waits := waits }).updPartAt p fun x =>
    { x with nextPlace := place }

/-- The first reason of R303 for which a record is refused. -/
def State.rejects (s : State) (p : PartId) (id : Nat) : Option Nat := ((s.recordFaults p (s.launchAt id).raw).head?).map fun f => f.1

/-- Whether the scheduler node has admission work to do now: a valid record waits for a free tag, an invalid one for nothing. -/
def State.admitReady (s : State) (p : PartId) : Bool :=
  let x := s.partAt p
  !x.held && (match x.admitting with
    | none => !x.taken.isEmpty
    | some (id, t) => t ≤ s.now && ((s.rejects p id).isSome || (s.freeTag p).isSome))

/-- ADMISSION (R309): begins the admission of the next record, or ends the one under way: its validation comes before its tag. -/
def evAdmission (p : PartId) (s : State) : State :=
  if !s.admitReady p then s
  else
    match (s.partAt p).admitting, (s.partAt p).taken with
    | none, [] => s
    | none, id :: r =>
      let t := s.now + admitCycles (s.launchAt id).raw
      s.updPartAt p fun x => { x with admitting := some (id, t), taken := r }
    | some (id, _), _ =>
      let done := s.updPartAt p fun x => { x with admitting := none }
      match s.rejects p id with
      | some reason => (done.updLaunchAt id fun l => { l with st := .rejected }).writeStatus id 4 0 reason
      | none =>
        match s.freeTag p with
        | none => s
        | some tag => done.admitRecord p id tag

/-- Whether every launch that a launch waits for has committed or aborted. -/
def State.waitsOver (s : State) (l : Launch) : Bool := l.waits.all fun w => !(s.launchAt w).st.uncommitted

/-- LAUNCH_READY (R310). -/
def evLaunchReady (id : Nat) (s : State) : State :=
  let l := s.launchAt id
  if l.st = .admitted && s.waitsOver l then s.updLaunchAt id fun l => { l with st := .ready } else s

/-! ### Start (R312, R314) -/

/-- Shared SRAM of a die (R10). -/
def sramSize : Nat := 64 * 2 ^ 20
def State.sramUsed (s : State) (d : DieId) : Nat := (s.dieAt d).sram.foldl (fun n x => n + x.2.size) 0

/-- Whether the harts, cores and allocations of a launch are free (R312). -/
def State.resourcesFree (s : State) (r : LRec) : Bool :=
  (r.clusterList.all fun c => (s.clusterAt c).launch.isNone) && (r.hartList.all fun n => (s.hartAt n).mode = .off) &&
    (r.coreList.all fun c => !(s.coreAt c).fenced) && r.dieList.all fun d => s.sramUsed d + r.hbytes ≤ sramSize

/-- Whether the scheduler could start, or restore, a launch now. -/
def State.startable (s : State) (l : Launch) : Bool :=
  l.st = .ready && l.cause = 0 && !(s.partAt l.part).held && !(s.queueAt l.part l.rc.queue).throttled && s.resourcesFree l.rc &&
    (l.pre = .savedOut || (s.freeScope l.part).isSome)

/-- The launch that the scheduler chooses: the earliest deadline, then the earliest place (R314). -/
def State.chosen (s : State) (p : PartId) : Option Nat :=
  let c := (s.launchesOf p).filter fun x => s.startable x.2
  (c.foldl (fun (b : Option (Nat × Launch)) x =>
    match b with
    | none => some x
    | some y => if x.2.deadline < y.2.deadline || (x.2.deadline = y.2.deadline && x.2.place < y.2.place) then some x else b)
    none).map fun x => x.1

/-- A core as a launch finds it (R312, R18, R216, R264). -/
def Core.started (r : LRec) (sys : List Range) (k : Core) : Core :=
  { k with
    gmode := BitVec.ofNat 64 (r.mode + 4 * r.gridchk), tcm := Ram.empty, queues := Vector.replicate 8 Queue.reset, eng := []
    vq := [], qst := [], qf := [], hist := [], streams := Vector.replicate 4 Stream.reset, recheck := [], ranges := r.ranges.filterMap id, sysr := sys
    mtag := 0, dirty := BitVec.allOnes 512, rechkLevel := r.recheck, arrayNext := (0, 0) }

/-- TXTAG of a launch (R327). -/
def Launch.txtag (l : Launch) : Word :=
  BitVec.ofNat 64 (pack [(10, l.tag), (4, l.tries), (1, b01 l.irrev), (1, b01 l.parent.isSome), (6, l.rc.queue)])

/-- A hart that starts at a launch's entry (R276, R312). -/
def Hart.started (id : Nat) (l : Launch) (root pc : Word) (c : Nat) (h : Hart) : Hart :=
  { Hart.reset with
    r := { Regs.reset with
      x := (Regs.reset.x.set 1 l.rc.args).set 2 (BitVec.ofNat 64 l.rc.argsize), fscope := root }
    sys := { Hart.reset.sys with txtag := l.txtag }
    ser := h.ser, ckptSer := h.ser, pc := pc, mode := .running, launch := some id, ck := some ⟨pc, h.ser, c + 1, 0, .go, false⟩
    time := { Hart.reset.time with nextIssue := c + 1 }
    fetch := { h.fetch with st := .idle, entered := none, xferFrom := some pc, welkinTarget := false } }

/-- Starts a launch (R312). -/
def State.start (id : Nat) (s : State) : State :=
  let l := s.launchAt id
  let p := l.part
  match s.freeScope p with
  | none => s
  | some i =>
    let s := s.openScope p i id none false true
    let root := s.scopeId p i
    let s := s.updLaunchAt id fun l => { l with st := .running, root := root, phaseAt := s.now }
    let s := l.rc.coreList.foldl (fun s c => s.updCoreAt c (Core.started l.rc (s.partAt p).sysRanges)) s
    let s := l.rc.clusterList.foldl (fun s c => s.updClusterAt c fun k =>
      { k with
        launch := some id, spadBits := l.rc.spad, spad := Ram.empty, tiles := [], copies := [], ready := [], farms := []
        spawned := SMap.upd 0 k.spawned i (· + l.rc.harts) }) s
    let s := l.rc.dieList.foldl (fun s d => s.updDieAt d fun x => { x with sram := SMap.put x.sram id ⟨l.rc.hbytes, Ram.empty, []⟩ }) s
    let pc : Word := BitVec.ofNat 64 (s.codeBase id + l.rc.entry)
    l.rc.hartList.foldl (fun s n => s.updHartAt n (Hart.started id l (BitVec.ofNat 64 root) pc (s.cycleAt (coreOf n)))) s

/-- LAUNCH_START (R312, R314). -/
def evLaunchStart (id : Nat) (s : State) : State :=
  let l := s.launchAt id
  if s.chosen l.part = some id && l.pre ≠ .savedOut then s.start id else s

/-! ### Queue budgets and deadlines (R315, R316) -/

/-- Whether a launch counts against its queue's budget. -/
def Launch.runs (l : Launch) : Bool := l.st = .running && (l.pre = .none || l.pre = .stopping)

/-- PERIOD_REFILL (R315). -/
def evPeriodRefill (p : PartId) (q : Fin 64) (s : State) : State :=
  let x := s.queueAt p q.val
  if x.period ≠ 0 && x.since + x.period ≤ s.now then
    s.updQueue p q.val fun x => { x with left := x.budget, throttled := false, since := x.since + x.period }
  else s

/-- Requests the pre-emption of a launch (R347): its harts stop at their next bundle boundaries, those of a frozen core after the frozen cycle
(R349). -/
def State.requestStop (id : Nat) (s : State) : State :=
  let s := s.updLaunchAt id fun l => { l with pre := .stopping }
  (s.launchAt id).rc.coreList.foldl (fun s c =>
    let t := s.cycleAt c
    s.updCoreAt c fun k => { k with stopFrom := if k.frozen then t + 1 else t }) s

/-- BUDGET_EXHAUSTED (R315): the queue is throttled and its running launches are pre-empted. -/
def evBudgetExhausted (p : PartId) (q : Fin 64) (s : State) : State :=
  let x := s.queueAt p q.val
  if x.period ≠ 0 && x.left = 0 && !x.throttled then
    let s := s.updQueue p q.val fun x => { x with throttled := true }
    (s.launchesOf p).foldl (fun s l =>
      if l.2.rc.queue = q.val && l.2.st = .running && l.2.pre = .none then s.requestStop l.1
      else s) s
  else s

/-- One scheduler cycle of the budgets (R315). -/
def Part.spend (running : Nat → Bool) (p : Part) : Part :=
  { p with queues := p.queues.map fun q => if q.2.period ≠ 0 && 0 < q.2.left && running q.1 then (q.1, { q.2 with left := q.2.left - 1 }) else q }

/-- OVERRUN (R316). -/
def evOverrun (id : Nat) (s : State) : State :=
  let l := s.launchAt id
  if (l.st.uncommitted || l.st = .taken) && !l.overran && l.deadline < s.now then
    { (s.updLaunchAt id fun l => { l with overran := true }) with outputs := s.outputs ++ [.overrun l.tag] }
  else s

/-! ### Commit (R313, R318 to R320) -/

/-- Whether a launch is the oldest of its partition that has neither committed nor aborted (R319, R320). -/
def State.oldest (s : State) (id : Nat) : Bool :=
  let l := s.launchAt id
  l.st.uncommitted && !(s.launchesOf l.part).any fun x => x.2.st.uncommitted && x.2.place < l.place

/-- Lines of a launch's shadow that have not committed. -/
def State.linesOfTag (s : State) (id : Nat) : List ShadowLine := s.shadow.filter fun e => e.launch = id && e.settleAt.isNone

/-- Home agents that hold shadow lines of a launch: one for each stack. -/
def State.agentsOf (s : State) (id : Nat) : List Nat := ((s.linesOfTag id).map fun e => e.line * 64 / stackSize).eraseDups

/-- Lays a shadow line's masked bytes over the committed line (R320). -/
def State.layLine (e : ShadowLine) (s : State) : State :=
  let base := e.line * 64
  let bs := (List.range 64).map fun i => if e.mask.getLsbD i then byteAt e.data i else s.physByte (base + i)
  let m := s.mem.setBytes base bs
  { s with mem := if e.poi then m.mark e.line else if e.mask = BitVec.allOnes 64 then m.unmark e.line else m }

/-- Commits the shadow of a launch in one step: versions are kept, its lines are laid over memory and begin to settle. -/
def State.flip (id : Nat) (s : State) : State :=
  let p := (s.launchAt id).part
  let ls := s.linesOfTag id
  let s := ls.foldl (fun s e => (s.keepVersion p e.line).layLine e) s
  let now := s.now
  let settle := fun (seen : List ShadowLine) (e : ShadowLine) =>
    let k := (seen.filter fun x => x.launch = id && x.line * 64 / stackSize = e.line * 64 / stackSize).length
    now + nsCycles (100 + 2 * (k + 1))
  { s with shadow := s.shadow.foldl (fun acc e =>
      acc ++ [if e.launch = id && e.settleAt.isNone then { e with settleAt := some (settle acc e) } else e]) [] }

/-- The launch of a partition that begins to commit now. -/
def State.prepares (s : State) (p : PartId) : Option Nat :=
  ((s.launchesOf p).find? fun x => x.2.st = .ended && x.2.cause = 0 && s.oldest x.1).map fun x => x.1

/-- Cycles from PREPARE to the flip of the commit entry (R320). -/
def State.commitCycles (s : State) (id : Nat) : Nat := nsCycles (800 + 3 * (s.agentsOf id).length)

/-- PREPARE (R320). -/
def evPrepare (p : PartId) (s : State) : State :=
  match s.prepares p with
  | none => s
  | some id =>
    let t := s.now + s.commitCycles id
    s.updLaunchAt id fun l => { l with st := .committing, phaseAt := t }

/-- The launch of a partition whose commit entry flips now. -/
def State.commits (s : State) (p : PartId) : Option Nat :=
  ((s.launchesOf p).find? fun x => x.2.st = .committing && x.2.phaseAt ≤ s.now).map fun x => x.1

/-- COMMIT (R320, R324): the entry flips, the status is written, and the children are taken. -/
def evCommit (p : PartId) (s : State) : State :=
  match s.commits p with
  | none => s
  | some id =>
    let l := s.launchAt id
    let s := (s.flip id).updLaunchAt id fun l => { l with st := .committed, children := [] }
    let s := s.writeStatus id 1 l.tag 0
    l.children.foldl (fun s raw => s.takeRecord p raw none (some id)) s

/-- LINE_SETTLE (R320): settled lines return to the pool. -/
def evLineSettle (id : Nat) (s : State) : State :=
  { s with shadow := s.shadow.filter fun e => !(e.launch = id && e.settleAt.any fun t => t ≤ s.now) }

/-- SHADOW_OVERFLOW (R319): the policy ABORT. -/
def evShadowOverflow (id : Nat) (s : State) : State :=
  let l := s.launchAt id
  if l.overflow && !l.rc.ovf && l.st = .running then s.requestAbort id cShadowfull.toNat 0 0 0 true else s

/-- Whether an overflowing launch begins the switch of R319 now, or ends the commit of its shadow under R320. An abort that comes before the
flip of the commit entry stops the switch (log 68). -/
def State.switches (s : State) (id : Nat) : Bool :=
  let l := s.launchAt id
  l.overflow && l.rc.ovf && !l.irrev && l.st = .running && l.cause = 0 && s.oldest id && (!l.switching || l.phaseAt ≤ s.now)

/-- TXTAG.IRREV of a launch's harts becomes 1 (R319, R327). -/
def State.showIrrev (id : Nat) (s : State) : State :=
  let l := s.launchAt id
  l.rc.hartList.foldl (fun s n => s.updHartAt n fun h =>
    if h.launch = some id then { h with sys := { h.sys with txtag := l.txtag } } else h) s

/-- IRREVOCABLE_SWITCH (R319): the commit of the shadow begins with its PREPARE, or its entry flips, and the waiting stores go ahead. -/
def evIrrevocableSwitch (id : Nat) (s : State) : State :=
  if !s.switches id then s
  else if (s.launchAt id).switching then
    ((s.flip id).updLaunchAt id fun l => { l with irrev := true, switching := false }).showIrrev id
  else
    let t := s.now + s.commitCycles id
    s.updLaunchAt id fun l => { l with switching := true, phaseAt := t }

/-! ### The end of a launch (R320) -/

/-- A core whose harts have been stopped: its operations and streams are gone. -/
def Core.halted (k : Core) : Core :=
  { k with
    frozen := false, queues := Vector.replicate 8 Queue.reset, eng := [], vq := [], qst := [], qf := [], hist := []
    streams := Vector.replicate 4 Stream.reset, recheck := [] }

/-- A core whose launch has left it. -/
def Core.freed (k : Core) : Core := { k.halted with ranges := [] }

/-- A hart whose launch has left it: its registers stay as they stood. -/
def Hart.freed (h : Hart) : Hart :=
  { Hart.reset with
    r := h.r, dup := h.dup, sys := h.sys, pc := h.pc, ser := h.ser, ckptSer := h.ser
    fetch := { h.fetch with st := .idle, entered := none, xferFrom := none, welkinTarget := false } }

/-- A cluster whose launch has left it: shape generations stay (R234). -/
def Cluster.freed (k : Cluster) : Cluster :=
  { k with
    launch := none, spad := Ram.empty, shapes := k.shapes.map fun e => (e.1, { e.2 with sealed := false, uses := 0 })
    tiles := [], copies := [], ready := [], farms := [] }

/-- Frees the harts, tables and allocations of a launch (R320, R322, R353). -/
def State.freeUnits (id : Nat) (s : State) : State :=
  let r := (s.launchAt id).rc
  let s := r.hartList.foldl (fun s n => if (s.hartAt n).launch = some id then s.updHartAt n Hart.freed else s) s
  let s := r.coreList.foldl (fun s c => if (s.clusterAt (c / 16)).launch = some id then s.updCoreAt c Core.freed else s) s
  let s := r.clusterList.foldl (fun s c => if (s.clusterAt c).launch = some id then s.updClusterAt c Cluster.freed else s) s
  r.dieList.foldl (fun s d => s.updDieAt d fun x =>
    { x with sram := SMap.del x.sram id, wakes := x.wakes.filter fun w => w.launch ≠ id }) s

/-- Frees the scopes of a launch with GEN + 1 (R291). -/
def State.freeScopes (id : Nat) (s : State) : State :=
  let p := (s.launchAt id).part
  (((s.partAt p).scopes.filter fun e => e.2.openNow && e.2.launch = id).map fun e => e.1).foldl (fun s i => s.freeScopeAt p i) s

/-- Whether a RUNNING launch has finished its work (R320). -/
def State.finished (s : State) (id : Nat) : Bool :=
  let l := s.launchAt id
  l.st = .running && l.cause = 0 && l.pre = .none && !s.scopeOpen l.part l.root &&
    (l.rc.coreList.all fun c => !(s.coreAt c).streams.toList.any fun t => t.active) &&
    (l.rc.clusterList.all fun c => (s.clusterAt c).copies.isEmpty) && !s.flights.any fun f => f.launch = id

/-- LAUNCH_END (R320). -/
def evLaunchEnd (id : Nat) (s : State) : State :=
  if !s.finished id then s
  else
    let s := ((s.freeUnits id).freeScopes id).updLaunchAt id fun l => { l with st := .ended }
    { s with snaps := s.snaps.filter fun e => e.launch ≠ id }

/-! ### Abort and cancellation (R308, R321, R322) -/

/-- States from which a launch can abort. -/
def LState.abortable : LState → Bool
  | .taken | .admitted | .ready | .running | .ended => true
  | _ => false

/-- What remains in flight after an abort: stores in place (R322). -/
def Flight.survives (id : Nat) (irrev : Bool) (f : Flight) : Bool :=
  f.launch ≠ id || f.kind.locs.all fun l => match l.unit with
    | .place | .remote _ | .hbm => true
    | .shadow _ => irrev
    | _ => false

/-- A running copy of an aborted launch ends with its present chunk (R322). -/
def Copy.stopped (c : Copy) : Copy := { c with len := min c.len (1024 * (c.chunk + 1)), tile := none, fut := none }

/-- Stops a launch (R322, steps 1, 2 and 4): its harts and streams at once, its copies but for the chunk under way, its children. -/
def State.halt (id : Nat) (s : State) : State :=
  let l := s.launchAt id
  let r := l.rc
  let s := r.hartList.foldl (fun s n => if (s.hartAt n).launch = some id then s.updHartAt n Hart.freed else s) s
  let s := r.coreList.foldl (fun s c => if (s.clusterAt (c / 16)).launch = some id then s.updCoreAt c Core.halted else s) s
  let s := r.clusterList.foldl (fun s c =>
    if (s.clusterAt c).launch = some id then
      s.updClusterAt c fun k => { k with copies := (k.copies.take 1).map Copy.stopped, ready := [], farms := [] }
    else s) s
  let s := s.updPartAt l.part fun x =>
    { x with
      taken := x.taken.filter fun t => t ≠ id
      admitting := match x.admitting with | some (t, d) => if t = id then none else some (t, d) | none => none }
  { (s.updLaunchAt id fun l => { l with st := .aborting, children := [], switching := false }) with
    flights := s.flights.filter (Flight.survives id l.irrev) }

/-- Whether no copy of a stopped launch has a chunk under way; one that is halted, or waits for shadow room, has none. -/
def State.copiesStopped (s : State) (id : Nat) : Bool :=
  (s.launchAt id).rc.clusterList.all fun c =>
    (s.clusterAt c).copies.all fun x => x.launch ≠ id || x.halted || s.chunkHeld c

/-- Discards every effect of a stopped launch, and ends the waits on it (R322, steps 3, 5 and 6). -/
def State.discard (id : Nat) (s : State) : State :=
  let s := (s.freeUnits id).freeScopes id
  { s with
    shadow := s.shadow.filter fun e => !(e.launch = id && e.settleAt.isNone)
    snaps := s.snaps.filter fun e => e.launch ≠ id
    launches := s.launches.map fun x => (x.1, { x.2 with waits := x.2.waits.filter fun w => w ≠ id }) }

/-- Whether an abort takes the record again (R322). -/
def Launch.retries (l : Launch) : Bool := l.retryable && l.tries < l.rc.retry && !l.irrev

/-- OUTCOME of an abort (R307, R322). -/
def Launch.outcome (l : Launch) : Nat := if l.cause = cCancel.toNat then 5 else if l.irrev then 3 else 2

/-- Whether an abort begins now, or its effects can be discarded (R305, R322). -/
def State.abortDue (s : State) (id : Nat) : Bool :=
  let l := s.launchAt id
  (l.cause ≠ 0 && l.st.abortable) || (l.st = .aborting && s.copiesStopped id)

/-- The end of an abort: the record is taken again, or the status is written. -/
def State.endAbort (id : Nat) (s : State) : State :=
  let l := s.launchAt id
  let s := s.discard id
  if l.retries then
    (s.updLaunchAt id fun l =>
      { l with
        st := .taken, tag := 0, tries := l.tries + 1, waits := [], root := 0, charged := 0, overflow := false, children := []
        cause := 0, abCode := 0, trapPc := 0, trapInfo := 0, retryable := false, pre := .none, cut := .none, saved := none }).updPartAt l.part fun x =>
      { x with taken := x.taken ++ [id] }
  else
    (s.updLaunchAt id fun l => { l with st := .aborted, children := [], pre := .none, cut := .none, saved := none }).writeStatus id
      l.outcome l.tag l.abCode

/-- LAUNCH_ABORT (R322): the launch is stopped and enters ABORTING; when its copies have stopped, its effects are discarded. -/
def evLaunchAbort (id : Nat) (s : State) : State :=
  if !s.abortDue id then s
  else if (s.launchAt id).st = .aborting then s.endAbort id
  else s.halt id

/-- A valid CANCEL word of a queue. -/
def State.cancelWord (s : State) (q : LQueue) : Nat := s.physNat (q.base + 8) 8
def State.cancelReady (s : State) (p : PartId) (q : Nat) : Bool :=
  let x := s.queueAt p q
  x.n ≠ 0 && (s.cancelWord x).testBit 63

/-- CANCEL (R308). -/
def evCancel (p : PartId) (q : Fin 64) (s : State) : State :=
  if !s.cancelReady p q.val then s
  else
    let x := s.queueAt p q.val
    let w := s.cancelWord x
    let hit := (s.launchesOf p).find? fun l => l.2.slot = some (q.val, w % 2 ^ 32) && l.2.st.abortable
    let s := s.physWrite (x.base + 8) (leBytes 8 (w % 2 ^ 63)) false
    match hit with
    | some l => s.requestAbort l.1 cCancel.toNat 0 0 0 false
    | none => s

/-! ### LAUNCH, TXABORT, TXWAIT (R323 to R326) -/

/-- The line reads of the record that LAUNCH names. -/
def launchReads (e : Word) : List (Word × Nat) := (List.range 8).map fun i => (e + BitVec.ofNat 64 (64 * i), 64)

/-- The latency of LAUNCH from its sending (R323): twice the G latency of the record and the way to the home die, rounded as a whole (R6). -/
def State.launchLatency (s : State) (ls : List Loc) (walk : Nat) : Nat :=
  let far := ls.foldl (fun m x => max m (s.loadLat s.cur x).ns) 0
  walk + nsCycles (2 * far) + s.nodeLatency

/-- LAUNCH (R323), once its reads have been performed, each half a load's latency after it was sent (R433). -/
def execLaunch (h : Head) (xd xa : XReg) (s : State) : Res :=
  guarded h (fun s => s.unlessPoison (s.xPoi xa) fun s =>
    let e := s.x xa
    match s.resolveAll s.cur s.launchId .g .load (launchReads e) with
    | (.error (f, a), s) => s.raiseMem f a .g .load
    | (.ok (ls, walk), s) =>
      if ls.any fun l => l.bad then s.raiseMem ⟨cMemerr, reqReason (failOf ls), 7⟩ e .g .load
      else
        let parts := s.unitParts ls 64
        let raw := parts.flatMap fun p => p.1
        s.unlessPoison (parts.any fun p => p.2) fun s =>
          let l := s.launchAt s.launchId
          match s.childFault l raw with
          | some (reason, obj) => s.raiseObj cBadlaunch e obj reason
          | none =>
            let lat := s.launchLatency ls walk - s.hart.bun.spent
            (((s.updLaunchAt s.launchId fun l => { l with children := l.children ++ [raw] }).putX xd
              (BitVec.ofNat 64 l.children.length) false lat).awaitReply lat)) s

/-- TXABORT (R325): no handler, no rollback. -/
def execTxabort (h : Head) (xa : XReg) (rt : Bool) (s : State) : Res :=
  guarded h (fun s => s.unlessPoison (s.xPoi xa) fun s =>
    let t : TrapRec := ⟨cTxabort, s.hart.pc, 0, 0, false⟩
    let s := s.requestAbort s.launchId cTxabort.toNat ((s.x xa).toNat % 65536) s.hart.pc 0 rt
    s.updHart fun h => { h with mode := .stopped, bun := { h.bun with trap := some t } }) s

/-- Whether every launch admitted before launch `id` has committed or aborted (R326). -/
def State.earlierOver (s : State) (id : Nat) : Bool :=
  let l := s.launchAt id
  !(s.launchesOf l.part).any fun x => x.2.st.uncommitted && x.2.place < l.place

/-- TXWAIT.OLDEST (R326): it issues when the condition holds. -/
def execTxwaitOldest (h : Head) (xd : XReg) (s : State) : Res :=
  guarded h (fun s => s.putX xd s.hart.sys.txtag false 1) s

/-- TXWAIT.POLL (R326). -/
def execTxwaitPoll (h : Head) (xd : XReg) (s : State) : Res :=
  guarded h (fun s => s.putX xd (if s.earlierOver s.launchId then 1 else 0) false s.nodeLatency) s

end Sys2Proof.Machine
end

