-- ==== Sys2Proof/Machine/Fetch.lean ====
section
/-! DEFINITION. Instruction fetch: translation, the instruction cache, entry of a line, and the decode-time checks of a bundle (R26, R31 to R36, R41 to R43, R114, R117). -/

namespace Sys2Proof.Machine

/-! ### Translation and the instruction cache (R117) -/

/-- The line that holds a PC. -/
def lineAddr (pc : Word) : Nat := pc.toNat / 64 * 64
/-- The head index of a PC. -/
def headIdx (pc : Word) : Nat := pc.toNat / 2 % 32
def pcOf (line idx : Nat) : Word := BitVec.ofNat 64 (line + 2 * idx)
/-- The 57 bits that the instruction address space implements. -/
def va57 (a : Nat) : Nat := a % 2 ^ 57

/-- Lines of an instruction cache. -/
def icacheSize : Nat := 512

/-- Fetch translation: the physical address, a walk, or the reason and level of a fault. -/
inductive FTr where
  | pa (a : Nat)
  | walk
  | fault (reason level : Nat)
  deriving DecidableEq, Repr

def State.fetchTr (s : State) (n : HartId) (va : Nat) : FTr :=
  match tlbFind (s.coreAt (coreOf n)).itlb va with
  | some t => if t.x then .pa (t.pa va) else .fault 1 ((t.bits - 12) / 9)
  | none => .walk

/-- A fetch fault of the bundle at `pc` (R117). -/
def fetchTrap (cause : BitVec 8) (reason level : Nat) (pc : Word) : TrapRec :=
  ⟨cause, pc, pc, auxMem reason level .g .fetch (headIdx pc), false⟩

/-- Places a line in an instruction cache; a full one loses a line of the device's choosing. -/
def icachePut (pick : Nat) (m : SMap (List Byte)) (line : Nat) (bs : List Byte) : SMap (List Byte) :=
  let m := if m.length < icacheSize || SMap.has m line then m else m.eraseIdx (pick % icacheSize)
  SMap.put m line bs

def State.updFetch (n : HartId) (f : Fetch → Fetch) (s : State) : State := s.updHartAt n fun h => { h with fetch := f h.fetch }

/-- Whether the walk or the fill of a hart's fetch side ends now: its latency is over, and no commit holds what it reads (R117, R320). -/
def State.fetchDue (s : State) (n : HartId) : Bool :=
  match (s.hartAt n).fetch.st with
  | .walk va due => due ≤ s.now && !s.walkHeld n (s.coreAt (coreOf n)).iptroot (va57 va.toNat)
  | .fill _ pa due => due ≤ s.now && !s.lineCommits (pa / 64)
  | .idle => false

/-- FETCH_WALK_END (R112, R117). -/
def evFetchWalkEnd (n : HartId) (s : State) : State :=
  match (s.hartAt n).fetch.st with
  | .walk va _ =>
    if !s.fetchDue n then s
    else
      let s := s.updFetch n fun f => { f with st := .idle }
      match s.walkRoot (dieOf n) (s.coreAt (coreOf n)).iptroot true .fetch (va57 va.toNat) with
      | .error (r, k) => s.takeTrap n (fetchTrap cFetchfault r k (s.hartAt n).pc)
      | .ok t => s.updCoreAt (coreOf n) fun k => { k with itlb := tlbPut itlbSize (Config.victim s.now) k.itlb t }
  | _ => s

/-- The error in which the read of a line ends, if any: its address is outside the map, or the route to it is lost (R101, R381, R389). -/
def State.fillError (s : State) (n : HartId) (pa : Nat) : Option ReqError :=
  if !s.mapped pa then some .errorResponse else if s.routeLost 4 (dieOf n) (dieOfPa pa) then some .linkLost else none

/-- ICACHE_FILL (R117): the line arrives from committed G state, or the read ends in an error (R101). -/
def evIcacheFill (n : HartId) (s : State) : State :=
  match (s.hartAt n).fetch.st with
  | .fill line pa _ =>
    if !s.fetchDue n then s
    else
      let s := s.updFetch n fun f => { f with st := .idle }
      match s.fillError n pa with
      | some e => s.takeTrap n (fetchTrap cMemerr (reqReason e) 7 (s.hartAt n).pc)
      | none =>
        if s.physPoisoned pa then s.takeTrap n ⟨cPoison, (s.hartAt n).pc, 0, 0, false⟩
        else s.updFetch n fun f => { f with icache := icachePut (Config.victim s.now) f.icache line (s.physBytes pa 64) }
  | _ => s

/-! ### Classes and marks (R26, R48) -/

/-- Slot classes. -/
inductive Slot3 where
  | as | v | x
  deriving DecidableEq, Repr

def slotOfOp (op : Nat) : Slot3 := if op < 0x100 then .as else if op < 0x180 then .v else if op < 0x1C0 then .x else .as

/-- Operations marked as transfers, and as solo, in R48. -/
def isTransferOp (op : Nat) : Bool := (0x060 ≤ op && op ≤ 0x065) || op = 0x1C2 || op = 0x1C4 || op = 0x1F4 || op = 0x1F7
def isSoloOp (op : Nat) : Bool := op = 0x1C1 || op = 0x1C3 || op = 0x1F2 || op = 0x1F5 || op = 0x1F6

/-- An operation of a bundle: its head index, its opcode, its guard and its instruction. -/
structure BOp where
  idx : Nat
  op : Nat
  g : PReg
  ins : Instr
  deriving DecidableEq, Repr

/-- The heads of the bundle that begins at index `i` of a line. -/
def bundleFrom : Nat → List RawOp → List (Nat × RawOp)
  | _, [] => []
  | i, o :: r => (i, o) :: (if o.1 / 32768 % 2 = 1 then [] else bundleFrom (i + 1) r)

/-- Decodes the operations of a bundle in ascending head order; the first refusal with its head (R41, R43). -/
def decodeBundle : List (Nat × RawOp) → Except (Nat × IllOp) (List BOp)
  | [] => .ok []
  | (i, hw, tail) :: r =>
    match decodeOp hw tail with
    | .error e => .error (i, e)
    | .ok (.unassignedOpcode ..) => .error (i, .unassigned)
    | .ok ins =>
      match decodeBundle r with
      | .ok l => .ok (⟨i, headOp hw, (headOf hw).g, ins⟩ :: l)
      | .error e => .error e

/-- The limits of R26: two of classes A and S, one of V, one of X. -/
def limitOf : Slot3 → Nat
  | .as => 2
  | _ => 1

/-- The first head whose inclusion takes a count beyond its limit (R43). -/
def overLimit : List BOp → List Slot3 → Option Nat
  | [], _ => none
  | b :: r, seen =>
    let c := slotOfOp b.op
    if limitOf c ≤ (seen.filter fun x => x = c).length then some b.idx else overLimit r (c :: seen)

/-- The rules of R36: DETAIL and head of the first that a bundle breaks. -/
def bundleFault (l : List BOp) : Option (Nat × Nat) :=
  match overLimit l [] with
  | some i => some (0, i)
  | none =>
    match l.dropLast.find? fun b => isTransferOp b.op with
    | some b => some (1, b.idx)
    | none =>
      match (if l.length = 1 then none else l.find? fun b => isSoloOp b.op) with
      | some b => some (2, b.idx)
      | none => none

/-- TRAPINFO of ILLINE, ILLOP and BUNDLE (R43). -/
def detailInfo (detail head : Nat) : Word := BitVec.ofNat 64 (pack [(5, head), (3, detail)])

/-! ### Targets (R34) -/

/-- Bit 0 and the upper bits of a target. -/
def targetShape (pc : Word) : Bool := !pc.getLsbD 0 && canonical pc

/-- The head index of a target and the head before it. -/
def targetHead (ops : List RawOp) (i : Nat) : Bool :=
  i < ops.length && (i = 0 || (ops.getD (i - 1) (0, 0)).1 / 32768 % 2 = 1)

/-- Whether a target fails R34, as far as its line can be read at once: ERET checks it before it takes effect (R360). -/
def State.targetFails (s : State) (n : HartId) (pc : Word) : Bool :=
  if !targetShape pc then true
  else
    let line := lineAddr pc
    let k := s.coreAt (coreOf n)
    let pa := match s.fetchTr n (va57 line) with
      | .pa a => some a
      | .walk => match s.walkRoot (dieOf n) k.iptroot true .fetch (va57 line) with
        | .ok t => some (t.pa (va57 line))
        | .error _ => none
      | .fault _ _ => none
    match pa with
    | none => false
    | some a =>
      let bs := if SMap.has (s.hartAt n).fetch.icache line then SMap.look [] (s.hartAt n).fetch.icache line else s.physBytes a 64
      match decodeLine bs with
      | .ok ops => !targetHead ops (headIdx pc)
      | .error _ => false

/-! ### The stages before issue (R42) -/

/-- What stands between a hart and its next bundle. -/
inductive Front where
  /-- the operations of the bundle, and whether the line holds more after it -/
  | ready (ops : List BOp) (more : Bool)
  /-- a walk or a fill is under way -/
  | wait
  /-- the fetch side moves on -/
  | act (s : State)
  deriving Repr

/-- TARGET of a pending transfer (R43). -/
def targetTrap (from_ pc : Word) (w : Bool) : TrapRec := ⟨cTarget, from_, pc, 0, w⟩

/-- Enters the line that holds the PC: translation, the cache, the structure of the line and the target (R42, steps 2 to 4). -/
def State.enterLine (n : HartId) (s : State) : Front :=
  let h := s.hartAt n
  let line := lineAddr h.pc
  match s.fetchTr n (va57 line) with
  | .fault r k => .act (s.takeTrap n (fetchTrap cFetchfault r k h.pc))
  | .walk =>
    let due := s.now + s.walkCycles n (s.coreAt (coreOf n)).iptroot (va57 line)
    .act (s.updFetch n fun f => { f with st := .walk h.pc due })
  | .pa pa =>
    if !SMap.has h.fetch.icache line then
      match s.fillError n pa with
      | some e => .act (s.takeTrap n (fetchTrap cMemerr (reqReason e) 7 h.pc))
      | none =>
        let due := s.now + s.gLatency (dieOf n) none pa + 6
        .act (s.updFetch n fun f => { f with st := .fill line pa due })
    else
      match decodeLine (SMap.look [] h.fetch.icache line) with
      | .error (e, k) => .act (s.takeTrap n ⟨cIlline, BitVec.ofNat 64 line, detailInfo e.detail k, 0, false⟩)
      | .ok ops =>
        let i := headIdx h.pc
        match h.fetch.xferFrom with
        | some f =>
          if targetHead ops i then .act (s.updFetch n fun x => { x with entered := some line, xferFrom := none, welkinTarget := false })
          else .act (s.takeTrap n (targetTrap f h.pc h.fetch.welkinTarget))
        | none =>
          if i < ops.length then .act (s.updFetch n fun x => { x with entered := some line })
          else .act (s.updHartAt n fun h => { h with pc := pcOf (line + 64) 0 })

/-- The stages before issue for hart `n`: a bundle that passes the checks of R42 but for half ownership is ready. -/
def State.front (n : HartId) (s : State) : Front :=
  let h := s.hartAt n
  let line := lineAddr h.pc
  match h.fetch.st with
  | .walk .. | .fill .. => .wait
  | .idle =>
    match h.fetch.xferFrom with
    | some f =>
      if targetShape h.pc then s.enterLine n else .act (s.takeTrap n (targetTrap f h.pc h.fetch.welkinTarget))
    | none =>
      if h.fetch.entered ≠ some line || !SMap.has h.fetch.icache line then s.enterLine n
      else
        match decodeLine (SMap.look [] h.fetch.icache line) with
        | .error _ => s.enterLine n
        | .ok ops =>
          let raw := bundleFrom (headIdx h.pc) (ops.drop (headIdx h.pc))
          match decodeBundle raw with
          | .error (i, e) => .act (s.takeTrap n ⟨cIllop, h.pc, detailInfo e.detail i, 0, false⟩)
          | .ok l =>
            match bundleFault l with
            | some (d, i) => .act (s.takeTrap n ⟨cBundle, h.pc, detailInfo d i, 0, false⟩)
            | none => .ready l (headIdx h.pc + l.length < ops.length)

end Sys2Proof.Machine
end

