-- ==== Sys2Proof/Machine/System.lean ====
section
/-! DEFINITION. System instructions: MFS, MTS, CKPT, STEP, TRAP, BREAK, ERET, ICINV; the Welkin core's resume (R340 to R345, R356 to R361). -/

namespace Sys2Proof.Machine

/-! ### System registers (R356) -/

/-- TRAPCAUSE (R340). -/
def Hart.trapcause (h : Hart) : Word := BitVec.ofNat 64 (pack [(8, h.sys.tr.cause.toNat), (7, 0), (1, b01 h.r.inh)])

/-- Store-withholding entries in use (R125). -/
def Hart.withheld (h : Hart) : Nat := h.wh.foldl (fun n w => n + w.slots) 0

/-- CKSTAT. -/
def State.ckstat (s : State) : Word :=
  BitVec.ofNat 64 (pack [(9, s.core.histOf (slotOf s.cur)), (9, s.hart.withheld), (13, s.hart.bundles)])

/-- The value that MFS reads (R356). -/
def State.sysValue (s : State) (r : SysReg) : Word :=
  let h := s.hart
  match r with
  | .hartid => BitVec.ofNat 64 (pack [(10, s.cur), (3, s.pkg.cfg.modulePos)])
  | .gmode => s.core.gmode
  | .fpmode => h.r.fpmode
  | .fpflags => h.r.fpflags
  | .vflags => h.r.vflags
  | .vl => h.r.vl
  | .cycle => BitVec.ofNat 64 s.cycle
  | .trapcause => h.trapcause
  | .trappc => h.sys.tr.pc
  | .trapinfo => h.sys.tr.info
  | .trapaux => h.sys.tr.aux
  | .epc => h.sys.epc
  | .ckptpc => h.sys.ckptpc
  | .tscratch0 => h.sys.ts0
  | .tscratch1 => h.sys.ts1
  | .stepcnt => h.r.stepcnt
  | .txtag => h.sys.txtag
  | .rspill => h.r.rspill
  | .dptroot => s.core.dptroot
  | .iptroot => s.core.iptroot
  | .qbase => s.core.qbaseWord
  | .qsize => s.core.qsizeWord
  | .mtag => s.core.mtag.setWidth 64
  | .crec => h.r.crec
  | .livemask => h.r.livemask
  | .fscope => h.r.fscope
  | .sidx => h.r.sidx
  | .ckstat => s.ckstat

/-- Whether a value obeys the layout and the conditions of the register that an MTS names (R357). -/
def sysValueOk (r : SysReg) (v : Word) : Bool :=
  match r with
  | .fpmode => v.toNat < 4
  | .fpflags => v.toNat < 32
  | .vflags => v.toNat < 16
  | .vl => 1 ≤ v.toNat && v.toNat ≤ 256
  | .rspill => rspillOk v
  | .crec => linkOk v.toNat
  | .livemask => v.toNat < 2 ^ 32 && v.toNat % 2 = 0 && (liveRegs v.toNat).length ≤ 16
  | .fscope => v.toNat < 2 ^ 16
  | .sidx => v.toNat < 2 ^ 32
  | .gmode => v.toNat < 8 && v.toNat % 4 ≠ 3
  | _ => true

/-- ILLOP of an MTS whose value is refused (R43, DETAIL 4). -/
def State.raiseBadValue (s : State) : State := s.raise cIllop (detailInfo 4 s.hart.bun.head) 0

/-- MFS (R357). -/
def execMfs (h : Head) (xd : XReg) (r : SysReg) (s : State) : Res :=
  guarded h (fun s => s.putX xd (s.sysValue r) false 1) s

/-- MTS to a register other than GMODE (R357); an MTS to EPC needs INH = 1 (R340). -/
def execMts (h : Head) (r : SysReg) (xa : XReg) (s : State) : Res :=
  guarded h (fun s => s.unlessPoison (s.xPoi xa) fun s =>
    if r = .epc && !s.hart.r.inh then s.raise cSysstate 0 s.headAux
    else if !sysValueOk r (s.x xa) then s.raiseBadValue
    else s.putSys r (s.x xa)) s

/-- MTS to GMODE (R18): the new value governs both harts from the next bundle; a checkpoint follows (R331). -/
def execMtsGmode (h : Head) (xa : XReg) (s : State) : Res :=
  guarded h (fun s => s.unlessPoison (s.xPoi xa) fun s =>
    let v := s.x xa
    if !sysValueOk .gmode v then s.raiseBadValue
    else (s.updHart fun h => { h with bun := { h.bun with ngmode := some v } }).wantCkpt .go) s

/-! ### Checkpoints, traps and returns (R358 to R360) -/

/-- CKPT (R358). -/
def execCkpt (h : Head) (s : State) : Res := guarded h (State.wantCkpt .go) s

/-- STEP (R350, R358). -/
def execStep (h : Head) (s : State) : Res := guarded h (fun s => s.countStep.stepEnds) s

/-- The cause that TRAP or BREAK raises once its bundle's checkpoint has completed. -/
def State.codeTrap (s : State) (cause : BitVec 8) (code : BitVec 16) : TrapRec :=
  ⟨cause, s.hart.pc, code.setWidth 64, s.headAux, false⟩

/-- TRAP (R359). -/
def execTrap (h : Head) (code : BitVec 16) (s : State) : Res :=
  guarded h (fun s => s.wantCkpt (.trap (s.codeTrap cSwtrap code))) s
/-- BREAK (R359). -/
def execBreak (h : Head) (code : BitVec 16) (s : State) : Res :=
  guarded h (fun s => s.wantCkpt (.trap (s.codeTrap cBreak code))) s

/-- ERET (R360). -/
def execEret (h : Head) (s : State) : Res :=
  guarded h (fun s =>
    let e := s.hart.sys.epc
    if !s.hart.r.inh then s.raise cSysstate 0 s.headAux
    else if s.targetFails s.cur e then
      let t := targetTrap s.hart.pc e true
      (s.takeTrap s.cur t).updHart fun h => { h with bun := { h.bun with trap := some t } }
    else ((s.updHart fun h => { h with r := { h.r with inh := false }, bun := { h.bun with eret := true } }).transfer e).wantCkpt .go) s

/-! ### ICINV (R361) -/

/-- Cycles from issue to the completion of an ICINV of `lines` lines. -/
def State.icinvCycles (s : State) (lines : Nat) : Nat := 200 + 52 * s.maxHops (dieOf s.cur) + ceilDiv lines 16

/-- Lines of an extent. -/
def lineSpan (a n : Nat) : Nat := if n = 0 then 0 else (a + n - 1) / 64 - a / 64 + 1

/-- ICINV (R361): a length of 0 invalidates nothing. -/
def execIcinv (h : Head) (xa xb : XReg) (s : State) : Res :=
  guarded h (fun s => s.unlessPoison (s.xPoi xa || s.xPoi xb) fun s =>
    let a := (s.x xa).toNat
    let n := (s.x xb).toNat
    if n = 0 then s.wantCkpt .go
    else (s.wantCkpt (.icinv a (a + n) false)).awaitReply (s.icinvCycles (lineSpan a n))) s

/-- ICINV.ALL (R361). -/
def execIcinvAll (h : Head) (s : State) : Res :=
  guarded h (fun s => (s.wantCkpt (.icinv 0 0 true)).awaitReply (s.icinvCycles 512)) s

/-- An unassigned opcode raises ILLOP (R41), whatever its guard. -/
def execUnassignedOpcode (_h : Head) (_op : BitVec 9) (_t : Fin 4) (s : State) : Res :=
  .next (s.raise cIllop (detailInfo 0 s.hart.bun.head) 0)

/-! ### The Welkin core and a stopped hart (R342, R344, R359) -/

/-- Causes after which the Welkin core can resume a hart; SELFAULT and BADREC end in an abort (R163, R279). -/
def resumable (t : TrapRec) : Bool := t.cause ≠ cSelfault && t.cause ≠ cBadrec

/-- WELKIN_RESUME (R342): the trap registers return to the values before the cause, the core's translation buffers are
invalidated (R114), and the hart continues at CKPTPC with a checkpoint there. -/
def evWelkinResume (n : HartId) (s : State) : State :=
  match (s.hartAt n).mode with
  | .welkin t =>
    if !resumable t then (s.updHartAt n fun h => { h with mode := .stopped }).trapAbort n t
    else
      let c := s.cycleAt (coreOf n)
      let s := s.updCoreAt (coreOf n) fun k => { k with dtlb := [], itlb := [] }
      s.updHartAt n fun h =>
        { h with
          sys := { h.sys with tr := h.sys.saved }
          pc := h.sys.ckptpc, mode := .running, ck := some ⟨h.sys.ckptpc, h.ser, c + 1, 0, .resumed, false⟩
          poisonRetry := h.poisonRetry || t.cause = cPoison
          time := { h.time with nextIssue := max h.time.nextIssue (c + 1) }
          fetch := { h.fetch with st := .idle, entered := none, xferFrom := some h.sys.ckptpc, welkinTarget := true } }
  | _ => s

/-- What the Welkin core does with a stopped hart when nothing from outside decides otherwise: it resumes after POISON and
after a BREAK that no debugger holds, and aborts the launch for every other cause (R241, R321, R344, R359). -/
def State.welkinActs (n : HartId) (s : State) : State :=
  match (s.hartAt n).mode with
  | .welkin t =>
    if t.cause = cPoison || t.cause = cBreak then evWelkinResume n s else s.trapAbort n t
  | _ => s

/-- Whether the Welkin core acts on hart `n` now. -/
def State.welkinDue (s : State) (n : HartId) : Bool :=
  match (s.hartAt n).mode with
  | .welkin t => !(t.cause = cBreak && s.pkg.held.contains n)
  | _ => false

/-- DEBUG_HOLD and DEBUG_RESUME: a debugger attached through the mailbox holds a hart at a BREAK, and lets it go (R359). -/
def evDebugHold (n : HartId) (s : State) : State := { s with pkg := { s.pkg with held := insertSorted s.pkg.held n } }
def evDebugResume (n : HartId) (s : State) : State := { s with pkg := { s.pkg with held := s.pkg.held.filter fun x => x ≠ n } }

/-- SRAMERR (R345): the core that holds the memory is fenced and the launch aborts. -/
def evSramerr (n : HartId) (owner : CoreId) (s : State) : State :=
  let h := s.hartAt n
  let s := (s.updCoreAt owner fun k => { k with fenced := true }).log (dieOf n) .sram cSramerr.toNat (s.unitOf (2 * owner)) 0 0
  if h.launch.isNone then s else s.takeTrap n ⟨cSramerr, h.pc, 0, 0, false⟩

end Sys2Proof.Machine
end

