-- ==== Sys2Proof/Machine/Context.lean ====
section
/-! DEFINITION. Pre-emption and the snapshot buffer, the save area in memory, restore and resume, and the consistent cut (R347 to R355, R420, R435). -/

namespace Sys2Proof.Machine

/-! ### Pre-emption (R347, R349) -/

/-- PREEMPT (R347): every hart stops at its next bundle boundary. -/
def evPreempt (id : Nat) (s : State) : State :=
  let l := s.launchAt id
  if l.st = .running && l.pre = .none then (s.requestStop id).updLaunchAt id fun l => { l with cut := .none } else s

/-- Whether hart `n` stops at the boundary at which it stands: no X-class operation or QST of it waits to fire (R272), and a frozen cycle ends
first (R349). -/
def State.stopsNow (s : State) (n : HartId) : Bool :=
  let h := s.hartAt n
  let k := s.coreAt (coreOf n)
  (s.launchAt h.launchId).pre = .stopping && (h.mode = .running || h.mode = .cut) && h.ck.isNone && h.rest.isEmpty && !k.frozen &&
    k.stopFrom ≤ s.cycleAt (coreOf n) && !(k.eng.any fun e => e.hart = slotOf n && e.fire.isNone) &&
    !k.qst.any fun b => b.hart = slotOf n && !b.fired

/-- The hart stops issuing (R347, step 1): its results in flight go to the snapshot buffer, with their distances from the first cycle after this boundary (R420), and the
checkpoint at which it stops is requested. -/
def State.stopHart (n : HartId) (s : State) : State :=
  let c := s.cycleAt (coreOf n)
  s.updHartAt n fun h =>
    let b := max c (h.bun.at0 + 1)
    { h with
      mode := .running, drain := if h.drain = .resumed then .resumed else .since b
      ck := some ⟨h.pc, h.ser, b, 0, .stop, false⟩ }

/-- Whether every part of a launch has drained, so that its context can be saved (R347, steps 2 to 5): results in flight wait in the snapshot
buffers. -/
def State.drained (s : State) (id : Nat) : Bool :=
  let r := (s.launchAt id).rc
  (r.hartList.all fun n =>
    let h := s.hartAt n
    (h.mode = .stopped || h.mode = .idle) && h.land.all fun l => l.landed || l.silent || l.arrived) &&
    (r.coreList.all fun c =>
      let k := s.coreAt c
      k.eng.isEmpty && k.qst.isEmpty && k.recheck.isEmpty && k.streams.toList.all fun t => t.flights.isEmpty) &&
    (r.clusterList.all fun c => (s.clusterAt c).copies.isEmpty) && (r.dieList.all fun d => !(s.dieAt d).wakes.any fun w => w.launch = id) &&
    !s.flights.any fun f => f.launch = id

/-! ### The snapshot buffer (R347, R420) -/

def snapEntries : Nat := 96
def snapBytes : Nat := 544

/-- FILE of an element group of a vector operand. -/
def fileOf : VKind → Nat
  | .row => 3
  | .col => 5
  | .dia => 6

/-- DEST of element group `g` of a vector operand. -/
def groupDest (v : VOp) (g : Nat) : Nat := 512 * b01 v.half + 2 * v.n.val + g

/-- The entry of one element group of a vector operand: its data word j is the cell of element 128 g + j; none where nothing of the group is
written. -/
def groupEntry (kind : Nat) (v : VOp) (dist : Nat) (drange : Bool) (cells : List (Nat × GCell)) (g : Nat) : Option SnapEnt :=
  let at_ := fun j : Nat => (cells.find? fun x => x.1 = v.cell (128 * g + j)).map fun x => x.2
  let words := (List.range 128).map at_
  if words.all Option.isNone then none
  else
    some {
      kind := kind, file := fileOf v.kind, dest := groupDest v g, dist := dist
      poison := BitVec.ofNat 128 (pack (words.map fun w => (1, b01 (w.any fun x => x.poi))))
      data := words.flatMap fun w => leBytes 4 (w.getD GCell.zero).v.toNat
      writes := BitVec.ofNat 256 (pack (words.map fun w => (1, b01 w.isSome))), drange := drange }

/-- The entries of a result bound for the grid. -/
def gridEntries (kind : Nat) (v : VOp) (dist : Nat) (drange : Bool) (cells : List (Nat × GCell)) : List SnapEnt :=
  match groupEntry kind v dist drange cells 0, groupEntry kind v dist drange cells 1 with
  | some a, some b => [a, { b with drange := false }]
  | some a, none => [a]
  | none, some b => [b]
  | none, none => []

/-- The entry of a result of `n` data bytes bound for a register. -/
def regEntry (kind file dest dist n : Nat) (v : Nat) (poi : Bool) (sel : BitVec 256) (drange : Bool) : SnapEnt :=
  ⟨kind, file, dest, dist, if poi then 1 else 0, leBytes n v ++ List.replicate (512 - n) 0, sel, drange⟩

/-- The vector operand into which a landing goes. -/
def LandKind.operand : LandKind → Option VOp
  | .vector v _ _ | .blocks v _ _ _ _ | .old v => some v
  | _ => none

/-- The entries of a pending landing (R100). -/
def Landing.entries (l : Landing) : List SnapEnt :=
  let ws := l.res.getD []
  let d := l.rem.getD 0
  match l.kind.operand with
  | some v => gridEntries 0 v d l.drange ((ws.filter fun w => w.reg.isNone).map fun w => (w.cell, (⟨w.val.setWidth 32, w.poi⟩ : GCell)))
  | none => ws.filterMap fun w => w.reg.map fun r => regEntry 0 0 r.val d 8 w.val.toNat w.poi allBits l.drange

/-- The entries of an ordinary result: one for each predicate that it writes. -/
def PendW.entries (r : Regs) (d : Nat) (w : PendW) : List SnapEnt :=
  if w.sel = 0 then []
  else
    match w.dst with
    | .x x => [regEntry 1 0 x.val d 8 w.val.toNat w.poi w.sel false]
    | .pred =>
      ((List.range 16).filter fun i => w.sel.getLsbD i).map fun i => regEntry 1 1 i d 8 (b01 (w.val.getLsbD i)) w.poi allBits false
    | .mask m => [regEntry 1 2 m.val d 32 ((w.val &&& w.sel) ||| (r.m.get m &&& ~~~w.sel)).toNat w.poi w.sel false]
    | .sys k => [regEntry 1 4 k.index d 8 (w.val &&& w.sel).toNat false w.sel false]

/-- The snapshot of a stopped hart: its pending landings, then its ordinary results, those bound for the grid last. -/
def State.snapshot (s : State) (n : HartId) : List SnapEnt :=
  let h := s.hartAt n
  let dist := h.distance (s.cycleAt (coreOf n))
  ((h.land.filter fun l => !l.landed && !l.silent).flatMap Landing.entries) ++
    (h.wq.flatMap fun w => w.entries h.r (dist w.due)) ++
    ((s.coreAt (coreOf n)).vq.filter fun w => w.hart = slotOf n).flatMap fun w => gridEntries 1 w.op (dist w.due) false w.cells

/-- The 544 bytes of an entry (R420). -/
def SnapEnt.bytes (e : SnapEnt) : List Byte :=
  leBytes 1 e.kind ++ leBytes 1 e.file ++ leBytes 2 e.dest ++ leBytes 2 e.dist ++ List.replicate 10 0 ++ leBytes 16 e.poison.toNat ++ e.data

/-- An entry from its bytes, and what the layout has no place for. -/
def SnapEnt.ofBytes (bs : List Byte) (more : BitVec 256 × Bool) : SnapEnt :=
  let rd := fun a n => leNat ((bs.drop a).take n)
  ⟨rd 0 1, rd 1 1, rd 2 2, rd 4 2, BitVec.ofNat 128 (rd 16 16), bs.drop 32, more.1, more.2⟩

/-- The vector operand that FILE and DEST name. -/
def SnapEnt.operand (e : SnapEnt) : VOp :=
  ⟨512 ≤ e.dest, if e.file = 3 then .row else if e.file = 5 then .col else .dia, Fin.ofNat 256 (e.dest / 2)⟩

/-- The cells that an entry of the grid writes. -/
def SnapEnt.cells (e : SnapEnt) : List (Nat × GCell) :=
  ((List.range 128).filter fun j => e.writes.getLsbD j).map fun j =>
    (e.operand.cell (128 * (e.dest % 2) + j), ⟨BitVec.ofNat 32 (leNat ((e.data.drop (4 * j)).take 4)), e.poison.getLsbD j⟩)

/-- The value of an entry of a register. -/
def SnapEnt.value (e : SnapEnt) (n : Nat) : Nat := leNat (e.data.take n)

/-- A restored landing: its cycle is a distance from the first cycle of resumed execution (R348). -/
def SnapEnt.landing (e : SnapEnt) (id ser : Nat) : Landing :=
  let kind : LandKind := if e.file = 0 then .scalar (Fin.ofNat 32 e.dest) .w else .old e.operand
  let ws : List LandW :=
    if e.file = 0 then [⟨some (Fin.ofNat 32 e.dest), 0, BitVec.ofNat 64 (e.value 8), e.poison.getLsbD 0⟩]
    else e.cells.map fun x => ⟨none, x.1, x.2.v.setWidth 64, x.2.poi⟩
  { id := id, ser := ser, pc := 0, head := 0, kind := kind, issued := 0, space := .t, elems := [], due := e.dist, slots := 1, extra := 0,
    sent := true, acq := false, gate := false, bar := Bar.none, walking := false, unitOp := false, parts := 0, got := [], arriveAt := 0,
    cyc := false, res := some ws, drange := e.drange, arrived := true, rem := some e.dist, landed := false, failed := none
    groups := ((ws.filter fun w => w.reg.isNone).map fun w => groupOf w.cell).eraseDups, clash := [] }

/-- The destination of a restored ordinary result, and its value in place. -/
def SnapEnt.dst (e : SnapEnt) : Option (Dst × BitVec 256 × BitVec 256) :=
  match e.file with
  | 0 => some (.x (Fin.ofNat 32 e.dest), BitVec.ofNat 256 (e.value 8), e.writes)
  | 1 => some (.pred, BitVec.ofNat 256 (e.value 8 % 2 * 2 ^ e.dest), BitVec.twoPow 256 e.dest)
  | 2 => some (.mask (Fin.ofNat 8 e.dest), BitVec.ofNat 256 (e.value 32), e.writes)
  | 4 => (sysRegOf e.dest).map fun k => (.sys k, BitVec.ofNat 256 (e.value 8), e.writes)
  | _ => none

/-- Puts a restored entry back among the results in flight of hart `n`, as one of a bundle before the checkpoint (R348). -/
def State.putEntry (n : HartId) (e : SnapEnt) (s : State) : State :=
  let ser := (s.hartAt n).ckptSer
  let s' := { s with fresh := s.fresh + 1 }
  if e.kind = 0 then s'.updHartAt n fun h => { h with land := h.land ++ [e.landing s.fresh ser] }
  else
    match e.dst with
    | some (d, v, sel) => s'.updHartAt n fun h => { h with wq := h.wq ++ [⟨d, v, sel, e.poison.getLsbD 0, e.dist, ser, 0⟩] }
    | none => s'.updCoreAt (coreOf n) fun k => { k with vq := k.vq ++ [⟨s.fresh, slotOf n, ser, e.operand, e.dist, e.cells⟩] }

/-- The first cycle of resumed, or repeated, execution of hart `n`: what waits for it counts from here (R100, R348). -/
def State.armHart (n : HartId) (s : State) : State :=
  let c := s.cycleAt (coreOf n)
  let resumed := (s.hartAt n).drain = .resumed
  let s := if resumed then
      s.updCoreAt (coreOf n) fun k => { k with vq := k.vq.map fun w => if w.hart = slotOf n then { w with due := w.due + c } else w }
    else s
  s.updHartAt n fun h =>
    { h with
      rearm := false, drain := .no
      wq := if resumed then h.wq.map fun w => { w with due := w.due + c } else h.wq
      land := h.land.map fun l => match l.rem with | some d => { l with due := c + d } | none => l }

/-! ### The save area (R352, R353) -/

/-- A place in a save area: its section, the hart, core, cluster or die, and the byte offset there (R353). -/
structure Place where
  sec : Nat
  unit : Nat
  off : Nat
  deriving DecidableEq, Repr

/-- CURSOR (R353). -/
def Place.cursor (p : Place) : Word := BitVec.ofNat 64 (pack [(40, p.off), (16, p.unit), (8, p.sec)])
def placeOf (c : Word) : Place := ⟨c.toNat / 2 ^ 56, c.toNat / 2 ^ 40 % 2 ^ 16, c.toNat % 2 ^ 40⟩

def rowsAt : Nat := 64
def marksAt : Nat := 524352
def tilesAt : Nat := 540736
def tileBytes : Nat := 16448

/-- The units that a section of a launch's area covers, in order. -/
def LRec.saveUnits (r : LRec) (sec : Nat) : List Nat :=
  match sec with
  | 1 => r.hartList
  | 2 | 3 => r.coreList
  | 4 => r.clusterList
  | 5 => r.dieList
  | _ => [0]

/-- Bytes of each unit of a section; those of the parts of sections 3 and 6 that have no layout are the model's (log 69). -/
def LRec.unitBytes (r : LRec) (sec : Nat) : Nat :=
  match sec with
  | 0 => 256
  | 1 => 65536
  | 2 => tilesAt + 2 * tileBytes
  | 3 => 2 ^ 18 + 4096
  | 4 => 2 ^ r.spad
  | 5 => r.hbytes
  | _ => 65536

/-- Bytes of a section. -/
def LRec.sectionBytes (r : LRec) (sec : Nat) : Nat := (r.saveUnits sec).length * r.unitBytes sec

/-- The address of a place: the sections follow one another, and in each its units (log 69). -/
def State.placeAddr (s : State) (id : Nat) (p : Place) : Nat :=
  let r := (s.launchAt id).rc
  Config.saveArea id / 64 * 64 + (List.range p.sec).foldl (fun a k => a + r.sectionBytes k) 0 +
    (r.saveUnits p.sec).findIdx (fun u => u = p.unit) * r.unitBytes p.sec + p.off

/-- The first place of the first section from `sec` on that has bytes. -/
def LRec.firstFrom (r : LRec) (sec : Nat) : Option Place :=
  ((List.range 7).find? fun k => sec ≤ k && r.sectionBytes k ≠ 0).map fun k => ⟨k, (r.saveUnits k).headD 0, 0⟩

/-- The place of the next line. -/
def LRec.nextPlace (r : LRec) (p : Place) : Option Place :=
  if p.off + 64 < r.unitBytes p.sec then some { p with off := p.off + 64 }
  else
    match ((r.saveUnits p.sec).dropWhile fun u => u ≠ p.unit).drop 1 with
    | u :: _ => some ⟨p.sec, u, 0⟩
    | [] => r.firstFrom (p.sec + 1)

/-- The rows of a core that a line of its grid section belongs to. -/
def gridLineRows (off : Nat) : List Nat :=
  if rowsAt ≤ off && off < marksAt then [(off - rowsAt) / 1024]
  else if marksAt ≤ off && off < tilesAt then [(off - marksAt) / 32, (off - marksAt) / 32 + 1]
  else []

/-- Whether the save writes the line at a place: rows that are not dirty already hold their values there (R352). -/
def State.savesLine (s : State) (p : Place) : Bool :=
  let rows := gridLineRows p.off
  p.sec ≠ 2 || rows = [] || rows.any fun r => (s.coreAt p.unit).dirty.getLsbD r

/-- A byte of a hart's stationary tile as the grid section holds it. -/
def Tile.byte (t : Tile) (i : Nat) : Byte :=
  if i < 16384 then byteAt (leBytes 2 (SMap.look 0 t.s (i / 2)).toNat) (i % 2)
  else if i = 16384 then BitVec.ofNat 8 (b01 t.f16)
  else if i = 16385 then BitVec.ofNat 8 (b01 t.poi)
  else 0

/-- A byte of the grid section of a core (R352, section 2). -/
def State.gridByte (s : State) (c : CoreId) (i : Nat) : Byte :=
  let k := s.coreAt c
  if i < rowsAt then BitVec.ofNat 8 (k.dirty.toNat / 2 ^ (8 * i))
  else if i < marksAt then byteAt (leBytes 4 (k.cell ((i - rowsAt) / 4)).v.toNat) ((i - rowsAt) % 4)
  else if i < tilesAt then
    BitVec.ofNat 8 (pack ((List.range 8).map fun j => (1, b01 (k.cell (8 * (i - marksAt) + j)).poi)))
  else
    let j := i - tilesAt
    (s.hartAt (2 * c + j / tileBytes)).r.tile.byte (j % tileBytes)

/-- A byte of a hart's frame (R352, section 1; R420): the registers of R330 have no layout, and their bytes are free. -/
def State.frameByte (s : State) (n : HartId) (i : Nat) : Byte :=
  if i < 2048 then Config.freeByte s.freeCtr i
  else
    match ((s.snapshot n).take snapEntries)[(i - 2048) / snapBytes]? with
    | some e => byteAt e.bytes ((i - 2048) % snapBytes)
    | none => 0

/-- A byte of the header: VERSION, the launch tag, the code handle and CURSOR (R352, section 0); the places of its fields are the model's (log
69). -/
def State.headerByte (s : State) (id : Nat) (p : Place) (i : Nat) : Byte :=
  let l := s.launchAt id
  byteAt (leBytes 8 1 ++ leBytes 8 l.tag ++ leBytes 8 l.rc.code ++ leBytes 8 p.cursor.toNat ++ List.replicate 224 0) i

/-- A byte that the save writes at a place. -/
def State.saveByte (s : State) (id : Nat) (p : Place) : Byte :=
  match p.sec with
  | 0 => s.headerByte id p p.off
  | 1 => s.frameByte p.unit p.off
  | 2 => s.gridByte p.unit p.off
  | 3 => if p.off < 2 ^ 18 then (s.coreAt p.unit).tcm.byte p.off else Config.freeByte s.freeCtr p.off
  | 4 => (s.clusterAt p.unit).spad.byte p.off
  | 5 => (s.halloc p.unit id).ram.byte p.off
  | _ => Config.freeByte s.freeCtr p.off

/-- Whether the line that the save writes at a place carries poison. -/
def State.savePoison (s : State) (id : Nat) (p : Place) : Bool :=
  match p.sec with
  | 3 => p.off < 2 ^ 18 && (s.coreAt p.unit).tcm.poisoned p.off
  | 4 => (s.clusterAt p.unit).spad.poisoned p.off
  | 5 => (s.halloc p.unit id).ram.poisoned p.off
  | _ => false

/-- The physical address of a byte of a save area under the system's translation; none where the access faults (R352, R353). -/
def State.areaPa (s : State) (id : Nat) (acc : Acc) (a : Nat) : Option Nat :=
  let c := (s.launchAt id).rc.coreList.headD 0
  match s.walkRoot (dieOfCore c) (s.coreAt c).dptroot false acc a with
  | .ok t =>
    let pa := t.pa a
    if s.mapped pa && !s.routeLost 4 (dieOfCore c) (dieOfPa pa) then some pa else none
  | .error _ => none

/-- Writes the line at a place, and CURSOR behind it into the header; none where the store faults. -/
def State.saveLine (s : State) (id : Nat) (p : Place) (next : Option Place) : Option State :=
  if !s.savesLine p then some s
  else
    match s.areaPa id .store (s.placeAddr id p), s.areaPa id .store (s.placeAddr id ⟨0, 0, 24⟩) with
    | some pa, some pc =>
      let line := (List.range 64).map fun i => s.saveByte id { p with off := p.off + i }
      let s := s.physWrite pa line (s.savePoison id p)
      some (s.physWrite pc (leBytes 8 (next.getD p).cursor.toNat) false).spendFree
    | _, _ => none

/-! ### Context save and restore (R348, R352 to R355, R435) -/

/-- A hart as the part of its frame without a layout keeps it, and what its snapshot has beyond R420. -/
def State.savedHart (s : State) (n : HartId) : SavedHart :=
  let h := s.hartAt n
  { image :=
      { h with
        wq := [], land := [], xl := [], r := { h.r with tile := Tile.zero }, dup := { h.dup with tile := Tile.zero } }
    more := ((s.snapshot n).take snapEntries).map fun e => (e.writes, e.drange) }

/-- What a save area holds beside its bytes. -/
def State.contextOf (s : State) (id : Nat) : Saved :=
  let r := (s.launchAt id).rc
  { cores := r.coreList.map fun c =>
      ⟨c, { s.coreAt c with grid := [], tcm := Ram.empty, vq := [] }, s.savedHart (2 * c), s.savedHart (2 * c + 1), s.cycleAt c⟩
    clusters := r.clusterList.map fun c => (c, { s.clusterAt c with spad := Ram.empty })
    allocs := r.dieList.map fun d => (d, { s.halloc d id with ram := Ram.empty }) }

/-- The context is complete: the launch's units are freed and it is READY again (R353, R435). -/
def State.saveContext (id : Nat) (s : State) : State :=
  let c := s.contextOf id
  (s.freeUnits id).updLaunchAt id fun l => { l with st := .ready, pre := .savedOut, saved := some c }

/-- One line of the save at CURSOR `c` (R353): a fault parks the save there. -/
def State.saveStep (id : Nat) (faulted : Bool) (c : Word) (s : State) : State :=
  let p := placeOf c
  let next := (s.launchAt id).rc.nextPlace p
  match (if faulted then none else s.saveLine id p next) with
  | none => s.updLaunchAt id fun l => { l with pre := .parked c }
  | some s =>
    match next with
    | some q => s.updLaunchAt id fun l => { l with pre := .saving q.cursor }
    | none => s.saveContext id

/-- CONTEXT_SAVE (R352, R353): the next line of the save area is written; a fault on its store parks the save at CURSOR. -/
def evContextSave (id : Nat) (faulted : Bool) (s : State) : State :=
  let l := s.launchAt id
  match l.pre with
  | .stopping => if l.st = .running && l.cause = 0 && s.drained id then s.saveStep id faulted 0 else s
  | .saving c => if l.st = .running && l.cause = 0 then s.saveStep id faulted c else s
  | _ => s

/-- SAVE_RESTART (R353): the mapping is repaired and the save goes on at CURSOR, rewriting the line. -/
def evSaveRestart (id : Nat) (s : State) : State :=
  match (s.launchAt id).pre with
  | .parked c => s.updLaunchAt id fun l => { l with pre := .saving c }
  | _ => s

/-- `n` bytes of a save area from a place. -/
def State.areaBytes (s : State) (id : Nat) (p : Place) (n : Nat) : List Byte :=
  let a := s.placeAddr id p
  (List.range n).map fun i => match s.areaPa id .load (a + i) with | some pa => s.physByte pa | none => 0

/-- The memory that `n` bytes of a save area from a place hold, with its poisoned lines. -/
def State.areaRam (s : State) (id : Nat) (p : Place) (n : Nat) : Ram :=
  let a := s.placeAddr id p
  let bytes := (List.range n).zip (s.areaBytes id p n)
  { bytes := bytes.filter fun x => x.2 ≠ 0
    poison := (List.range (n / 64)).filter fun i => (s.areaPa id .load (a + 64 * i)).any s.physPoisoned }

/-- A row of a core's grid as its area holds it. -/
def State.areaRow (s : State) (id : Nat) (c : CoreId) (r : Nat) : SMap GCell :=
  let bs := s.areaBytes id ⟨2, c, rowsAt + 1024 * r⟩ 1024
  let m := leNat (s.areaBytes id ⟨2, c, marksAt + 32 * r⟩ 32)
  ((List.range 256).map fun j => (j, (⟨BitVec.ofNat 32 (leNat ((bs.drop (4 * j)).take 4)), m.testBit j⟩ : GCell))).filter
    fun x => x.2 ≠ GCell.zero

/-- A core's grid as its area holds it. -/
def State.areaGrid (s : State) (id : Nat) (c : CoreId) : SMap (SMap GCell) :=
  ((List.range 512).map fun r => (r, s.areaRow id c r)).filter fun x => x.2 ≠ []

/-- A hart's stationary tile as its area holds it. -/
def State.areaTile (s : State) (id : Nat) (n : HartId) : Tile :=
  let bs := s.areaBytes id ⟨2, coreOf n, tilesAt + tileBytes * (n % 2)⟩ 16386
  { f16 := byteAt bs 16384 = 1, poi := byteAt bs 16385 = 1
    s := ((List.range 8192).map fun i => (i, BitVec.ofNat 16 (leNat ((bs.drop (2 * i)).take 2)))).filter fun x => x.2 ≠ 0 }

/-- A restored core: its saved state, with what belongs to the core itself (R330, R354). -/
def Core.restored (image now : Core) : Core :=
  { image with
    t0 := now.t0, frozen := false, dtlb := now.dtlb, itlb := now.itlb, sysr := now.sysr, dptroot := now.dptroot
    iptroot := now.iptroot, dirty := 0, vTaken := none, xTaken := none, arrayNext := (0, 0), fenced := now.fenced, stopFrom := 0 }

/-- A restored hart: it waits for RESUME. -/
def Hart.restored (image now : Hart) (tile : Tile) (c : Nat) : Hart :=
  { image with
    r := { image.r with tile := tile }, dup := { image.dup with tile := tile }
    mode := if image.mode = .stopped then .saved else image.mode, time := ⟨c, c, c, c, c, none⟩, rearm := true, drain := .resumed
    stopReq := false
    fetch := { now.fetch with st := .idle, entered := none, xferFrom := none, welkinTarget := false } }

/-- Writes a saved hart back, and its snapshot entries among its results in flight (R348, R354). -/
def State.loadHart (id : Nat) (n : HartId) (v : SavedHart) (s : State) : State :=
  let tile := s.areaTile id n
  let c := s.cycleAt (coreOf n)
  let ents := (List.range v.more.length).map fun k =>
    SnapEnt.ofBytes (s.areaBytes id ⟨1, n, 2048 + snapBytes * k⟩ snapBytes) (v.more.getD k (0, false))
  ents.foldl (fun s e => s.putEntry n e) (s.updHartAt n fun h => v.image.restored h tile c)

/-- Writes a saved core back with its harts. -/
def State.loadCore (id : Nat) (x : SavedCore) (s : State) : State :=
  let grid := s.areaGrid id x.core
  let tcm := s.areaRam id ⟨3, x.core, 0⟩ (2 ^ 18)
  let s := s.updCoreAt x.core fun k => { x.image.restored k with grid := grid, tcm := tcm }
  (s.loadHart id (2 * x.core) x.h0).loadHart id (2 * x.core + 1) x.h1

/-- A restored cluster: the shape entries that the launch had sealed are its own again, and the others keep their generations (R234). -/
def Cluster.restored (image now : Cluster) (spad : Ram) : Cluster :=
  { image with
    spawned := now.spawned, ended := now.ended, spad := spad
    shapes := (image.shapes.filter fun e => e.2.sealed).foldl (fun m e => SMap.put m e.1 e.2) now.shapes }

/-- Writes a saved context back: the sections in their order (R354). -/
def State.loadContext (id : Nat) (v : Saved) (s : State) : State :=
  let r := (s.launchAt id).rc
  let s := v.cores.foldl (fun s x => s.loadCore id x) s
  let s := v.clusters.foldl (fun s x =>
    let spad := s.areaRam id ⟨4, x.1, 0⟩ (2 ^ r.spad)
    s.updClusterAt x.1 fun k => x.2.restored k spad) s
  v.allocs.foldl (fun s x =>
    let ram := s.areaRam id ⟨5, x.1, 0⟩ r.hbytes
    s.updDieAt x.1 fun d => { d with sram := SMap.put d.sram id { x.2 with ram := ram } }) s

/-- RESTORE (R354): CODEGONE where the header's handle names no loaded code object. -/
def evRestore (id : Nat) (s : State) : State :=
  let l := s.launchAt id
  if l.pre = .savedOut && s.chosen l.part = some id then
    match l.saved with
    | none => s
    | some v =>
      let handle := leNat (s.areaBytes id ⟨0, 0, 16⟩ 8)
      if (s.codeSlot l.part handle).isNone then s.requestAbort id cCodegone.toNat 0 0 0 false
      else (s.loadContext id v).updLaunchAt id fun l => { l with st := .running, pre := .restored, saved := none }
  else s

/-- A hart goes on after a restore. -/
def Hart.goOn (c : Nat) (h : Hart) : Hart :=
  match h.mode with
  | .saved =>
    { h with
      mode := .running, pc := h.sys.ckptpc, stopReq := false, rearm := true, bun := Bundle.none
      time := { h.time with nextIssue := max h.time.nextIssue (c + 1) }
      fetch := { h.fetch with entered := none, xferFrom := some h.sys.ckptpc, welkinTarget := true } }
  | _ => { h with stopReq := false }

/-- Hart `n` goes on after a pre-emption or a failed cut: what a cut has kept from following its checkpoint follows now. -/
def State.goOnHart (n : HartId) (s : State) : State :=
  let cut := (s.hartAt n).mode = .cut
  let s := s.updHartAt n (Hart.goOn (s.cycleAt (coreOf n)))
  if cut || (s.hartAt n).held.isSome then s.unhold n else s

/-- RESUME (R348, R351). -/
def evResume (id : Nat) (s : State) : State :=
  let l := s.launchAt id
  if l.st = .running && (l.pre = .restored || (l.pre = .none && l.cut = .failed)) then
    let s := s.updLaunchAt id fun l => { l with pre := .none, cut := .none }
    l.rc.hartList.foldl (fun s n => s.goOnHart n) s
  else s

/-! ### The consistent cut (R351) -/

/-- STOP_REQUEST (R351): idle harts take no new work, and the others run to their next step boundary. -/
def evStopRequest (id : Nat) (s : State) : State :=
  let l := s.launchAt id
  if l.st = .running && l.pre = .none && l.cut = .none then
    let now := s.now
    let s := s.updLaunchAt id fun l => { l with cut := .gathering now none }
    l.rc.hartList.foldl (fun s n => s.updHartAt n fun h => { h with stopReq := true }) s
  else s

/-- The harts of a launch that still take part in its cut. -/
def State.participants (s : State) (id : Nat) : List HartId :=
  (s.launchAt id).rc.hartList.filter fun n => (s.hartAt n).mode ≠ .idle && (s.hartAt n).mode ≠ .off

/-- When a cut was requested. -/
def CutState.since : CutState → Option Nat
  | .gathering t _ => some t
  | .levelling _ t _ => some t
  | _ => Option.none

/-- When the sweep of a cut's present round ends. -/
def CutState.round : CutState → Option Nat
  | .gathering _ r => r
  | .levelling _ _ r => r
  | _ => Option.none

/-- A round begins: its sweep ends at tick `t`. -/
def CutState.sweeping (t : Nat) : CutState → CutState
  | .gathering a _ => .gathering a (some t)
  | .levelling m a _ => .levelling m a (some t)
  | x => x

def State.allCut (s : State) (id : Nat) : Bool := (s.participants id).all fun n => (s.hartAt n).mode = .cut

/-- Whether a cut goes on now: every participant has stopped, and no sweep is under way. -/
def State.cutGoes (s : State) (id : Nat) : Bool :=
  let c := (s.launchAt id).cut
  c.since.isSome && s.allCut id && c.round.all fun t => t ≤ s.now

/-- CUT_ROUND (R351): a sweep of 0.2 µs gathers the greatest STEPCNT; then the cut is complete when all are equal, and otherwise those below it
run on. -/
def evCutRound (id : Nat) (s : State) : State :=
  let l := s.launchAt id
  if !s.cutGoes id then s
  else
    match l.cut.round with
    | none => s.updLaunchAt id fun l => { l with cut := l.cut.sweeping (s.now + nsCycles 200) }
    | some _ =>
      let ps := s.participants id
      let cnt := fun n => (s.hartAt n).r.stepcnt.toNat
      let m := ps.foldl (fun m n => max m (cnt n)) 0
      if ps.all fun n => cnt n = m then (s.requestStop id).updLaunchAt id fun l => { l with cut := .complete }
      else
        let t := l.cut.since.getD s.now
        (ps.filter fun n => cnt n < m).foldl (fun s n => s.unhold n) (s.updLaunchAt id fun l => { l with cut := .levelling m t none })

/-- Cycles of the cut limit, a number of microseconds (R351). -/
def State.cutCycles (s : State) : Nat := 1100 * s.pkg.cfg.cutlim

/-- Whether a cut has run out of time. -/
def State.cutLate (s : State) (id : Nat) : Bool :=
  match (s.launchAt id).cut.since with
  | some t => t + s.cutCycles < s.now && !s.allCut id
  | none => false

/-- CUTFAIL (R351). -/
def evCutfail (id : Nat) (s : State) : State :=
  if s.cutLate id then
    { (s.updLaunchAt id fun l => { l with cut := .failed }) with outputs := s.outputs ++ [.cutfail (s.launchAt id).tag] }
  else s

end Sys2Proof.Machine
end

