-- ==== Sys2Proof/Machine/Request.lean ====
section
/-! DEFINITION. Requests on their way: translation walks, loads performed and landed, stores and atomics performed, errors and timeouts, and the completion of checkpoints (R94 to R102, R113 to R117, R129 to R136, R152, R173, R186, R332 to R336, R433). -/

namespace Sys2Proof.Machine

/-! ### Results of a load (R121, R166, R174, R175, R208) -/

/-- Bytes of an element: the hart's own withheld stores of earlier bundles over memory (R124); and its poison. -/
def State.elemBytes (s : State) (e : Elem) : List Byte × Bool :=
  match e.loc with
  | none => ([], false)
  | some l =>
    let bs := (List.range e.size).map fun i => match (e.own.getD i none) with
      | some b => b
      | none => s.unitByte l.unit (l.addr + i)
    (bs, e.ownPoi || (e.own.any (fun o => o.isNone) && s.locPoisoned l e.size))

/-- What an element has read, or would read now. -/
def State.elemTook (s : State) (e : Elem) : List Byte × Bool := e.took.getD (s.elemBytes e)

/-- Elements of a landing with index `i`, their bytes joined. -/
def State.joined (s : State) (l : Landing) (i : Nat) : List Byte × Bool :=
  let es := (l.elems.filter fun e => e.idx = i).map s.elemTook
  (es.flatMap fun e => e.1, es.any fun e => e.2)

def Landing.indices (l : Landing) : List Nat := (l.elems.map fun e => e.idx).eraseDups

/-- The value of an element of a vector load (R208). -/
def vectorValue (ty : Ty) (bo i : Nat) (bs : List Byte) : Cell :=
  match ty with
  | .s6 | .z6 => vecLoad ty (leNat bs / 2 ^ ((2 * bo + 6 * i) % 8))
  | _ => vecLoad ty (leNat bs)

/-- The writes of a load that is performed now, and whether it raises DRANGE. -/
def State.loadResults (s : State) (l : Landing) : List LandW × Bool :=
  match l.kind with
  | .scalar r ty => let b := s.joined l 0; ([⟨some r, 0, ty.extend (leNat b.1), b.2⟩], false)
  | .header r wd => let b := s.joined l 0; ([⟨some r, 0, headerSummary wd.val b.1, b.2⟩], false)
  | .vector v ty bo =>
    (l.indices.map fun i => let b := s.joined l i; ⟨none, v.cell i, (vectorValue ty bo i b.1).setWidth 64, b.2⟩, false)
  | .blocks v w8 fb _ vl =>
    let bs := l.indices.map fun k => let b := s.joined l k; (k, decodeBlock w8 b.1, b.2)
    let live := fun (k j : Nat) => decide (64 * (fb + k) + j < vl)
    (bs.flatMap fun b => ((List.range 64).filter (live b.1)).map fun j =>
        ⟨none, v.cell (64 * (fb + b.1) + j), (widenBf (b.2.1.getD j (0, false)).1).setWidth 64, b.2.2⟩,
      bs.any fun b => !b.2.2 && (List.range 64).any fun j => live b.1 j && (b.2.1.getD j (0, false)).2)
  | .quotient _ | .old _ | .tail _ | .pref => ([], false)

/-! ### Updating landings -/

def Hart.updLand (h : Hart) (id : Nat) (f : Landing → Landing) : Hart :=
  { h with land := h.land.map fun l => if l.id = id then f l else l }
def State.updLand (n : HartId) (id : Nat) (f : Landing → Landing) (s : State) : State := s.updHartAt n fun h => h.updLand id f
def Hart.dropLand (h : Hart) (id : Nat) : Hart := { h with land := h.land.filter fun l => l.id ≠ id }
def Hart.updXlat (h : Hart) (id : Nat) (f : Xlat → Xlat) : Hart := { h with xl := h.xl.map fun x => if x.id = id then f x else x }

/-! ### Walks (R112, R114, R126) -/

/-- Sends a located load, or holds it behind an acquire (R135). -/
def State.dispatchLoad (n : HartId) (l : Landing) (s : State) : State :=
  if (s.hartAt n).acquireHolds l.ser then s.updLand n l.id fun _ => l
  else s.updLand n l.id fun _ => s.sendLoad n s.now l

/-- The trap of a fault that a walk, or a later element, meets. -/
def Landing.trapOf (l : Landing) (f : MemFault) (e : Word) : TrapRec :=
  ⟨f.cause, l.pc, reqAddr (l.elems.map fun x => (x.idx, x.va, x.size)) e, auxMem f.reason f.level l.space .load l.head, false⟩

/-- A fault ends the translation of a request: a BDEC still checks the headers of the blocks before it (R173). -/
def State.walkFault (n : HartId) (l : Landing) (f : MemFault) (e : Word) (s : State) : State :=
  let h := s.hartAt n
  let t := l.trapOf f e
  let bad := ((l.elems.find? fun x => x.va = e).map fun x => x.idx).getD 0
  let good := l.elems.filter fun x => x.idx < bad
  let reqs := good.map fun x => (x.va, x.size)
  let stop := fun s : State => s.updHartAt n fun h =>
    (h.dropLand l.id).updXlat l.id fun x => { x with walking := false, due := s.now, fault := some t }
  match l.kind with
  | .blocks .. =>
    match s.translateAll n h.launchId .g .load reqs with
    | .all ls =>
      if good = [] then stop s
      else
        let es := (good.zip ls).map fun x => mkElem { h with ser := l.ser } (x.1.idx, x.1.va, x.1.size) (some x.2)
        let s := s.updHartAt n fun h => h.updXlat l.id fun x => { x with fault := some t }
        s.dispatchLoad n { l with elems := es, walking := false, failed := badElem es }
    | _ => stop s
  | _ => stop s

/-- Goes on with the translation of a request whose walk has ended. -/
def State.afterWalk (n : HartId) (l : Landing) (s : State) : State :=
  let h := s.hartAt n
  let blocks := match l.kind with | .blocks .. => true | _ => false
  match s.translateAll n h.launchId .g .load (l.elems.map fun x => (x.va, x.size)) with
  | .all ls =>
    let es := (l.elems.zip ls).map fun x => mkElem { h with ser := l.ser } (x.1.idx, x.1.va, x.1.size) (some x.2)
    let s := if blocks then s else s.updHartAt n fun h => h.updXlat l.id fun x => { x with walking := false, due := s.now }
    s.dispatchLoad n { l with elems := es, walking := false, failed := badElem es }
  | .walk e =>
    let due := s.now + s.walkCycles n (s.coreAt (coreOf n)).dptroot e.toNat
    s.updHartAt n fun h => h.updXlat l.id fun x => { x with due := due }
  | .fault f e => s.walkFault n l f e

/-- The address whose walk is under way: the first that the buffer does not hold. -/
def State.walkAddr (s : State) (n : HartId) (l : Landing) : Word :=
  match s.translateAll n (s.hartAt n).launchId .g .load (l.elems.map fun x => (x.va, x.size)) with
  | .walk e => e
  | _ => ((l.elems.map fun x => x.va).headD 0)

/-- Whether a data walk of a request ends now; a commit holds the reads of entries that it changes (R320). -/
def State.walkDue (s : State) (n : HartId) (l : Landing) : Bool :=
  l.walking && !s.walkHeld n (s.coreAt (coreOf n)).dptroot (s.walkAddr n l).toNat && (match l.kind with
    | .pref => l.arriveAt ≤ s.now
    | _ => (s.hartAt n).xl.any fun x => x.id = l.id && x.walking && x.due ≤ s.now)

/-- DATA_WALK_END (R112, R114): the translation enters the buffer, or the walk's fault ends the request; a PREF drops it. -/
def evDataWalkEnd (n : HartId) (id : Nat) (s : State) : State :=
  match (s.hartAt n).land.find? fun l => l.id = id with
  | none => s
  | some l =>
    if !s.walkDue n l then s
    else
      let e := s.walkAddr n l
      let pref := decide (l.kind = .pref)
      match s.walkRoot (dieOf n) (s.coreAt (coreOf n)).dptroot false .load e.toNat with
      | .error (r, k) =>
        if pref then s.updHartAt n fun h => h.dropLand id else s.walkFault n l ⟨cPagefault, r, k⟩ e
      | .ok t =>
        let s := s.updCoreAt (coreOf n) fun k => { k with dtlb := tlbPut dtlbSize (Config.victim s.now) k.dtlb t }
        if pref then s.updHartAt n fun h => h.dropLand id else s.afterWalk n l

/-- Sends the loads that an acquire held back, once its data has arrived (R135, R145). -/
def State.sendHeld (n : HartId) (s : State) : State :=
  (s.hartAt n).land.foldl (fun s l =>
    if !l.sent && !l.walking && !l.unitOp && !l.cyc && l.res.isNone && !(s.hartAt n).acquireHolds l.ser then
      s.dispatchLoad n l else s) s

/-! ### Reporting faults (R115, R332) -/

/-- The fault that the device reports now: the earliest in program order, once every earlier access has been translated. -/
def Hart.faultNow (h : Hart) (now : Nat) : Option TrapRec :=
  let order := sortBy (fun a b : Xlat => before (a.ser, a.head) (b.ser, b.head)) h.xl
  match order.find? fun x => x.walking || now < x.due || x.fault.isSome with
  | some x => if !x.walking && x.due ≤ now then x.fault else none
  | none => none

/-! ### Program order at the ordering points (R131 to R137, R144) -/

/-- Where an element is, or will be once its walk has ended; none where that walk will fault. -/
def State.peek (s : State) (n : HartId) (l : Landing) (e : Elem) : Option Loc :=
  match e.loc with
  | some x => some x
  | none =>
    match s.translate n (s.hartAt n).launchId l.space .load e.size e.va with
    | .loc x => some x
    | .walk =>
      match s.walkRoot (dieOf n) (s.coreAt (coreOf n)).dptroot false .load e.va.toNat with
      | .ok t => some (s.reach n (s.checkMap ⟨.hbm, t.pa e.va.toNat⟩))
      | .error _ => none
    | .fault _ => none

/-- Whether an element of a load and an extent are kept in order at their ordering point. -/
def State.elemMeets (s : State) (n : HartId) (l : Landing) (e : Elem) (x : Loc × Nat) : Bool :=
  match s.peek n l e with
  | some y => y.conflicts e.size x.1 x.2
  | none => false

def anyMeets (x : Loc × Nat) (l : List (Loc × Nat)) : Bool := l.any fun y => x.1.conflicts x.2 y.1 y.2

/-- Whether a load and a store or an atomic of its own bundle act on one location or at one port: the load then reads what stood before the
bundle, whatever the head order (R37), and waits for no acquire and no fence of its bundle (log 56). -/
def State.beforeBundle (s : State) (n : HartId) (l : Landing) (x : Loc × Nat) : Bool :=
  let h := s.hartAt n
  (s.flights.any fun f => f.hart = n && !f.eng && f.ser = l.ser && anyMeets x f.kind.extents) ||
    (h.atoms.any fun a => a.ser = l.ser && anyMeets x a.kind.extents) ||
    h.wh.any fun w => w.ser = l.ser && anyMeets x (w.elems.map fun e => (e.loc, e.data.length))

/-- Whether an access that precedes an element of a load at its ordering point has still to be performed: one of the hart at the same location
or port (R131, R132), an acquire (R135), or one that a FENCE names (R144). -/
def State.elemHeld (s : State) (n : HartId) (l : Landing) (x : Loc × Nat) : Bool :=
  let h := s.hartAt n
  let free := s.beforeBundle n l x
  let bound := fun ser : Nat => ser < l.ser || !free
  (s.flights.any fun f => f.hart = n && !f.eng && !f.performed &&
      ((f.ser < l.ser && anyMeets x f.kind.extents) ||
        (f.pos < l.pos && bound f.ser && (f.acq || (f.isAtomic && f.pos < l.bar.la) || f.pos < l.bar.st)))) ||
    (h.atoms.any fun a => a.pos < l.pos && bound a.ser && (a.acq || a.pos < l.bar.la || a.pos < l.bar.st)) ||
    (h.wh.any fun w => w.pos < l.bar.st && bound w.ser) ||
    h.land.any fun m => m.pos < l.pos && m.undone.any fun d =>
      (bound m.ser && (m.acq || m.pos < l.bar.la)) || s.elemMeets n m d x

/-- Whether an element of a load is performed now. -/
def State.elemDue (s : State) (n : HartId) (l : Landing) (e : Elem) : Bool :=
  match e.loc with
  | none => false
  | some x => e.took.isNone && e.perfAt ≤ s.now && !s.lineHeld x && !s.elemHeld n l (x, e.size)

/-! ### Loads performed (R433) -/

/-- Whether elements of a load are performed now. -/
def State.performsLoad (s : State) (n : HartId) (l : Landing) : Bool :=
  l.sent && l.reads && !l.walking && l.res.isNone && l.elems.any (s.elemDue n l)

/-- The selector fault of a BDEC: its first block whose header fails, poisoned blocks apart (R163, R164, R173). -/
def State.blockFault (s : State) (l : Landing) : Option TrapRec :=
  match l.kind with
  | .blocks _ w8 _ _ _ =>
    l.indices.findSome? fun k =>
      let b := s.joined l k
      let va := ((l.elems.find? fun e => e.idx = k).map fun e => e.va).getD 0
      if b.2 then none
      else (headerFault (widthCode w8) b.1).map fun r =>
        ⟨cSelfault, l.pc, va, BitVec.ofNat 64 (pack [(5, l.head), (5, 0), (2, 0), (4, r)]), false⟩
  | _ => none

/-- The header checks of a BDEC whose blocks are taken, as its values are (R173): block by block, so that a selector fault of a block before
the first whose read ends in an error is the one reported. -/
def State.checkHeaders (n : HartId) (l : Landing) (s : State) : State :=
  match l.kind with
  | .blocks .. =>
    let bad := (l.elems.find? fun e => e.loc.any Loc.bad).map fun e => e.idx
    let f := s.blockFault { l with elems := l.elems.filter fun e => bad.all fun b => e.idx < b }
    s.updHartAt n fun h =>
      let h := h.updXlat l.id fun x => { x with fault := if f.isSome then f else x.fault }
      if f.isSome then h.updLand l.id fun l => { l with failed := none } else h
  | _ => s

/-- The elements of a load after those that are due have been performed; one that was held answers later by as much. -/
def State.takeElems (s : State) (n : HartId) (l : Landing) : List Elem × Nat :=
  let due := fun e => s.elemDue n l e
  (l.elems.map fun e => if due e then { e with took := some (s.elemBytes e) } else e,
    (l.elems.filter due).foldl (fun m e => match e.loc with
      | some x => if e.perfAt < s.now then max m (s.now + (s.loadLatency n x - halfUp (s.loadLatency n x)) + l.extra) else m
      | none => m) l.arriveAt)

/-- Performs the elements of a load that are due: their values are taken now, and its results once all of them have been (R433). -/
def State.performLoad (n : HartId) (l : Landing) (s : State) : State :=
  let (es, arrive) := s.takeElems n l
  let l := { l with elems := es, arriveAt := arrive }
  let s := s.updLand n l.id fun _ => l
  if l.elems.any fun e => e.took.isNone then s
  else
    let s := s.checkHeaders n l
    let (ws, dr) := if l.failed.isSome then ([], false) else s.loadResults l
    s.updLand n l.id fun l => { l with res := some ws, drange := dr }

/-! ### Data arrives (R97, R101, R173) -/

/-- Whether the data of a request arrives now. -/
def State.arrivesNow (s : State) (n : HartId) (l : Landing) : Bool :=
  l.sent && !l.arrived && !l.walking && l.res.isSome &&
    (if l.cyc then l.arriveAt ≤ s.cycleAt (coreOf n) else l.arriveAt ≤ s.now)

/-- The arrival of one request's data. -/
def State.arrive (n : HartId) (l : Landing) (s : State) : State :=
  match l.failed with
  | some e => (s.updHartAt n fun h => h.dropLand l.id).takeTrap n (l.memerr e)
  | none =>
    let now := s.now
    let s := s.updHartAt n fun h => h.updXlat l.id fun x => { x with walking := false, due := now }
    if l.silent && l.rem.isNone then s.updHartAt n fun h => h.dropLand l.id
    else s.updLand n l.id fun l => { l with arrived := true, landed := l.landed || l.silent }

/-- DATA_ARRIVAL (R97): the data of the requests of a core that are answered now. -/
def evDataArrival (c : CoreId) (s : State) : State :=
  (hartsOf c).foldl (fun s n => (s.hartAt n).land.foldl (fun s l =>
    if s.arrivesNow n l && (s.hartAt n).land.any (fun x => x.id = l.id) then s.arrive n l else s) s) s

/-- The trap of a store or atomic that ends in an error; none where its launch has left the hart (R101, R322). -/
def State.flightTrap (f : Flight) (t : TrapRec) (s : State) : State :=
  if (s.hartAt f.hart).launch = some f.launch then s.takeTrap f.hart t else s

/-- A flight ends in an error (R101): a store or an atomic raises the MEMERR that it carries, with the reason of the error; a write of a stream
ends the stream (R241). -/
def State.failFlight (f : Flight) (e : ReqError) (s : State) : State :=
  let c := coreOf f.hart
  if f.eng then
    (List.finRange 4).foldl (fun s k =>
      if ((s.coreAt c).streams.get k).flights.contains f.id then
        evStreamFault c k (.error e (BitVec.ofNat 64 ((f.kind.locs.map fun l => l.addr).headD 0))) s
      else s) s
  else s.flightTrap f { f.err with aux := BitVec.ofNat 64 (f.err.aux.toNat % 4096 + reqReason e * 4096) }

/-- Cycles of the memory timeout (R101). -/
def State.memtoCycles (s : State) : Nat := 1100 * s.pkg.cfg.memto

/-- MEMORY_TIMEOUT (R101): a request without an answer completes with an error. -/
def evMemoryTimeout (n : HartId) (id : Nat) (s : State) : State :=
  match (s.hartAt n).land.find? fun l => l.id = id && !l.arrived && !l.cyc with
  | some l => (s.updHartAt n fun h => h.dropLand id).takeTrap n (l.memerr .timeout)
  | none =>
    match s.flights.find? fun f => f.hart = n && f.id = id with
    | some f =>
      let s := { s with flights := s.flights.filter fun x => x.id ≠ id }
      s.failFlight f .timeout
    | none => s

/-! ### Landings (R95 to R100, R186, R336) -/

/-- Whether the landings of a hart go on: a hart stopped for pre-emption keeps them in its snapshot (R347). -/
def Hart.lands (h : Hart) : Bool := h.mode ≠ .stopped && h.mode ≠ .saved && h.mode ≠ .off

/-- The landings of a hart whose cycle has come and that no entry of the other hart holds back (R336). -/
def State.dueLandings (s : State) (n : HartId) : List Landing :=
  let h := s.hartAt n
  let k := s.coreAt (coreOf n)
  if !h.lands || h.rearm || h.drain ≠ .no then []
  else h.land.filter fun l =>
    !l.landed && !l.silent && l.due ≤ s.cycleAt (coreOf n) && !k.heldByOther (slotOf n) l.groups

/-- Writes one landing: registers, or cells under R186. -/
def State.land (n : HartId) (l : Landing) (s : State) : State :=
  let c := coreOf n
  let ws := l.res.getD []
  let k := s.coreAt c
  let pick := fun key : Nat => Config.freeChoice s.freeCtr key % 2 = 0
  let cells := (ws.filter fun w => w.reg.isNone).map fun w => (w.cell, (⟨w.val.setWidth 32, w.poi⟩ : GCell))
  let wins := (cells.filter fun x => k.inFlight x.1 && pick x.1).map fun x => x.1
  let put := cells.filter fun x => !l.clash.contains x.1 || pick x.1
  let s := s.updHartAt n fun h =>
    let r := ws.foldl (fun (r : Regs) w => match w.reg with
      | some x => if x = 0 then r else { r with x := r.x.set x.val w.val, xPoi := markBit r.xPoi x.val w.poi }
      | none => r) h.r
    let h := { h with r := r }
    if l.rem.isSome then h.updLand l.id fun l => { l with landed := true } else h.dropLand l.id
  let s := if cells = [] then s
    else
      (s.updCoreAt c fun k =>
        let k := (k.record (slotOf n) (cells.map fun x => groupOf x.1)).setCells put
        { k with eng := k.eng.map fun e => { e with skip := e.skip ++ wins.filter e.willWrite } }).spendFree
  if l.drange then s.raiseVNow n l.ser vfDrange else s

/-- LANDING (R95, R97): the core freezes until the data of every request that lands in this cycle has arrived; then all of
them are written, a later request after an earlier one. -/
def evLanding (c : CoreId) (s : State) : State :=
  let all := (hartsOf c).map fun n => (n, s.dueLandings n)
  if all.any fun x => x.2.any fun l => !l.arrived then s.updCoreAt c fun k => { k with frozen := true }
  else
    let s := s.updCoreAt c fun k => { k with frozen := false }
    all.foldl (fun s x =>
      (sortBy (fun a b : Landing => before (a.ser, a.head) (b.ser, b.head)) x.2).foldl (fun s l => s.land x.1 l) s) s

/-- Whether LANDING has something to do on a core. -/
def State.landingDue (s : State) (c : CoreId) : Bool :=
  let due := (hartsOf c).flatMap fun n => s.dueLandings n
  let late := due.any fun l => !l.arrived
  let k := s.coreAt c
  if late then !k.frozen else k.frozen || !due.isEmpty

/-! ### Stores and atomics performed (R129, R131, R136, R319, R433) -/

/-- Whether two flights act on one location or at one port. -/
def Flight.meets (f g : Flight) : Bool := f.kind.extents.any fun x => anyMeets x g.kind.extents

/-- Whether flight `g` has to be performed before `f`: an earlier one of the hart at the same location or port (R131, R132), an acquire
(R135), or one that `f`, as a release or behind a FENCE, waits for (R136, R144). The writes of a stream follow one another (R240). -/
def Flight.after (f g : Flight) : Bool :=
  g.hart = f.hart && g.id ≠ f.id &&
    (if f.eng || g.eng then f.eng && g.eng && g.id < f.id && f.meets g
     else
      ((g.pos < f.pos || (g.pos = f.pos && g.id < f.id)) && f.meets g) ||
        (g.pos < f.pos && (g.acq || (g.isAtomic && g.pos < f.bar.la) || (f.isAtomic && g.pos < f.bar.st) || g.pos < f.bar.sa)))

/-- Whether an element of a load has to be performed before flight `f`. -/
def State.loadFirst (s : State) (f : Flight) (l : Landing) (e : Elem) : Bool :=
  (l.pos < f.pos && (l.acq || l.pos < f.bar.la || l.pos < f.bar.sa)) ||
    (l.ser ≤ f.ser && f.kind.extents.any fun x => s.elemMeets f.hart l e x)

/-- Whether the accesses that a flight waits for have been performed (R131, R133, R135, R136, R144). -/
def State.ordered (s : State) (f : Flight) : Bool :=
  !(s.flights.any fun g => !g.performed && (f.needs = some g.id || f.after g)) &&
    (f.eng || (s.hartAt f.hart).land.all fun l => l.undone.all fun e => !s.loadFirst f l e)

/-- Whether a flight may be performed now. -/
def State.performsFlight (s : State) (f : Flight) : Bool :=
  !f.performed && f.perfAt ≤ s.now && s.ordered f && !f.kind.locs.any s.lineHeld &&
    !(f.wait && s.noRoom f.launch f.kind.locs)

def State.markPerformed (id : Nat) (s : State) : State :=
  let ack := fun f : Flight => max f.ackAt (s.now + (f.ackAt - f.perfAt))
  { s with flights := s.flights.map fun f => if f.id = id then { f with performed := true, wait := false, ackAt := ack f } else f }

/-- A flight whose allocation overflows waits at the home agent (R319). -/
def State.holdFlight (f : Flight) (s : State) : State :=
  State.overflow f.launch { s with flights := s.flights.map fun x => if x.id = f.id then { x with wait := true } else x }

/-- STORE_PERFORM (R433). -/
def evStorePerform (id : Nat) (s : State) : State :=
  match s.flights.find? fun f => f.id = id with
  | none => s
  | some f =>
    if !s.performsFlight f then s
    else if s.noRoom f.launch f.kind.locs then s.holdFlight f
    else
      match f.kind with
      | .store es => (s.performStore es).markPerformed id
      | _ => s

/-- The landing of an atomic, one part of which has been performed (R149, R150): it has its values once every part has been. -/
def Landing.fill (now : Nat) (ws : List LandW) (l : Landing) : Landing :=
  let got := l.got ++ ws
  { l with got := got, parts := l.parts - 1, res := if l.parts ≤ 1 then some got else none, arriveAt := max l.arriveAt now }

def State.fillLanding (f : Flight) (ws : List LandW) (s : State) : State :=
  match f.land with
  | none => s
  | some i =>
    let late := if f.perfAt < s.now then s.now + (f.ackAt - f.perfAt) else s.now
    s.updLand f.hart i (Landing.fill late ws)

/-- APPEND at its ordering point (R152): the payload stores are sent when the tail atomic has returned; a refusal is reported
with its reply. -/
def State.performAppendAt (f : Flight) (head : Nat) (pc : Word) (l : Loc) (vals : List Cell) (s : State) : State :=
  let h := s.hartAt f.hart
  let reg := match h.land.find? fun x : Landing => decide (some x.id = f.land) with
    | some x => match x.kind with | .tail r => r | _ => 0
    | none => 0
  let size := match l.unit with
    | .sram d i => some (s.halloc d i).size
    | _ => none
  let reply := max (f.sentAt + s.atomicLatency f.hart l) s.now
  match s.performAppend l vals.length size with
  | (.refused off, s) =>
    let t : TrapRec := ⟨cHrange, pc, off, auxMem 15 7 .h .atomic head, false⟩
    let s := s.markPerformed f.id
    { s with flights := s.flights.map fun x => if x.id = f.id then { x with err := t, ackAt := reply } else x }
  | (.done xd slot, s) =>
    let s := (s.fillLanding f [⟨some reg, 0, xd, false⟩]).markPerformed f.id
    match slot with
    | none => s
    | some first =>
      let wrap := match l.unit with | .spad c => s.spadSize c | _ => 0
      let es := appendElems l.unit wrap first vals
      (s.sendFlight f.hart f.ser f.head false (.store es) none l reply false f.bar none TrapRec.zero).2

/-- ATOMIC_PERFORM (R149, R150, R152). -/
def evAtomicPerform (id : Nat) (s : State) : State :=
  match s.flights.find? fun f => f.id = id with
  | none => s
  | some f =>
    if !s.performsFlight f then s
    else if s.noRoom f.launch f.kind.locs then s.holdFlight f
    else
      match f.kind with
      | .store _ => s
      | .amo k w l b c =>
        let (old, poi, s) := s.performAmo k w l b c
        let (reg, ty) := match (s.hartAt f.hart).land.find? fun x : Landing => decide (some x.id = f.land) with
          | some x => match x.kind with | .scalar r ty => (r, ty) | _ => (0, .w)
          | none => (0, .w)
        (s.fillLanding f [⟨some reg, 0, ty.extend old, poi⟩]).markPerformed id
      | .vamo k ra lanes =>
        let (olds, s) := s.performVamo k ra lanes
        let ws := match (s.hartAt f.hart).land.find? fun x : Landing => decide (some x.id = f.land) with
          | some x => match x.kind with
            | .old v => olds.map fun o => (⟨none, v.cell o.1, BitVec.ofNat 64 o.2.1, o.2.2⟩ : LandW)
            | _ => []
          | none => []
        (s.fillLanding f ws).markPerformed id
      | .append _ head pc l vals => s.performAppendAt f head pc l vals

/-- Whether an acknowledgement carries an error: a store to a location outside the map, or a refused APPEND (R101, R152). The error of an
atomic comes with its data. -/
def Flight.failed (f : Flight) : Bool :=
  f.err.cause = cHrange || (f.err.cause ≠ 0 && !f.isAtomic && f.kind.locs.any Loc.bad)

/-- The acknowledgement of a performed flight (R144): streams that wait for it go on, and an error raises its trap. -/
def State.acknowledge (f : Flight) (s : State) : State :=
  let s := { s with flights := s.flights.filter fun x => x.id ≠ f.id }
  let s := s.streamAck (coreOf f.hart) f.id
  if f.failed then s.flightTrap f f.err else s

/-! ### Checkpoints (R331 to R336, R436) -/

/-- Groups of a hart's landings, V-class operations and engine operations wait for the other hart's checkpoint (R336). -/
def State.blocksOther (s : State) (n : HartId) : Bool :=
  let c := coreOf n
  let k := s.coreAt c
  let other := if slotOf n then n - 1 else n + 1
  k.gmode.toNat % 4 = 2 && (s.hartAt other).land.any fun l => !l.landed && l.due ≤ s.cycleAt c && k.heldByOther (slotOf other) l.groups

/-- Whether a bundle that waits on the history buffer needs a checkpoint of the hart: entries that it holds take up the room, or lie
in a group that the other hart is to write (R336, R436). -/
def State.historyWants (s : State) (n : HartId) : Bool :=
  let c := coreOf n
  let k := s.coreAt c
  (hartsOf c).any fun m =>
    let gs := (s.hartAt m).histWait
    gs ≠ [] && ((0 < k.histOf (slotOf n) && !s.histRoom c (slotOf m) gs) ||
      (m ≠ n && k.gmode.toNat % 4 = 2 && gs.any fun g => k.hasHist (slotOf n) g))

/-- Whether the device requests a checkpoint of the hart at its next boundary (R331, R335, R336, R436). -/
def State.wantsCkpt (s : State) (n : HartId) : Bool :=
  let h := s.hartAt n
  let k := s.coreAt (coreOf n)
  4096 ≤ h.bundles || 192 ≤ k.histOf (slotOf n) || (k.hist.any fun e => e.hart = slotOf n && e.asked) || 192 ≤ h.withheld ||
    s.engineWants n || s.blocksOther n || s.historyWants n

/-- BUNDLE_LIMIT_CHECKPOINT (R331): the checkpoint that a threshold requests at a boundary. -/
def evBundleLimitCheckpoint (n : HartId) (s : State) : State :=
  let h := s.hartAt n
  if h.mode = .running && h.ck.isNone && h.rest.isEmpty && s.wantsCkpt n then
    let c := s.cycleAt (coreOf n)
    s.updHartAt n fun h => { h with ck := some ⟨h.pc, h.ser, max c (h.bun.at0 + 1), 0, .go, false⟩ }
  else s

/-- Whether the requested checkpoint of hart `n` completes now (R332). -/
def State.ckptReady (s : State) (n : HartId) : Bool :=
  let h := s.hartAt n
  let k := s.coreAt (coreOf n)
  match h.ck with
  | none => false
  | some ck =>
    h.mode = .running && !k.frozen && ck.earliest ≤ s.cycleAt (coreOf n) && ck.reply ≤ s.now &&
      (h.xl.all fun x => ck.ser < x.ser || (!x.walking && x.due ≤ s.now && x.fault.isNone)) &&
      (k.recheck.all fun r => r.hart ≠ slotOf n || ck.ser < r.ser || (r.matrix && r.ready = 0)) &&
      (s.flights.all fun f => f.hart ≠ n || (match f.kind with | .append .. => false | _ => true))

/-- CHECKPOINT_COMPLETE (R333). -/
def evCheckpointComplete (n : HartId) (s : State) : State :=
  if s.ckptReady n then
    (s.completeCkpt n).updHartAt n fun h => { h with xl := h.xl.filter fun x => h.ckptSer < x.ser }
  else s

end Sys2Proof.Machine
end

