-- ==== Sys2Proof/Machine/Shake.lean ====
section
/-! DEFINITION. SHAKE256, as the device hash and the measurements use it (R368, R403). -/

namespace Sys2Proof.Machine

/-- Rotation offsets of Keccak's lanes, lane x + 5 y. -/
def keccakRot : List Nat := [0, 1, 62, 28, 27, 36, 44, 6, 55, 20, 3, 10, 43, 25, 39, 41, 45, 15, 21, 8, 18, 2, 61, 56, 14]

/-- Round constants. -/
def keccakRc : List Word :=
  [0x1, 0x8082, 0x800000000000808A, 0x8000000080008000, 0x808B, 0x80000001, 0x8000000080008081, 0x8000000000008009,
   0x8A, 0x88, 0x80008009, 0x8000000A, 0x8000808B, 0x800000000000008B, 0x8000000000008089, 0x8000000000008003,
   0x8000000000008002, 0x8000000000000080, 0x800A, 0x800000008000000A, 0x8000000080008081, 0x8000000000008080,
   0x80000001, 0x8000000080008008]

/-- One round on 25 lanes. -/
def keccakRound (a : List Word) (rc : Word) : List Word :=
  let at0 := fun (l : List Word) (i : Nat) => l.getD i 0
  let c := (List.range 5).map fun x => at0 a x ^^^ at0 a (x + 5) ^^^ at0 a (x + 10) ^^^ at0 a (x + 15) ^^^ at0 a (x + 20)
  let d := (List.range 5).map fun x => at0 c ((x + 4) % 5) ^^^ (at0 c ((x + 1) % 5)).rotateLeft 1
  let t := (List.range 25).map fun i => at0 a i ^^^ at0 d (i % 5)
  let b := (List.range 25).map fun i =>
    let j := (i % 5 + 3 * (i / 5)) % 5 + 5 * (i % 5)
    (at0 t j).rotateLeft (keccakRot.getD j 0)
  (List.range 25).map fun i =>
    let y := 5 * (i / 5)
    let v := at0 b i ^^^ (~~~(at0 b ((i + 1) % 5 + y)) &&& at0 b ((i + 2) % 5 + y))
    if i = 0 then v ^^^ rc else v

def keccakF (a : List Word) : List Word := keccakRc.foldl keccakRound a

/-- Bytes of a block. -/
def shakeRate : Nat := 136

/-- Absorbs one block. -/
def absorb (a : List Word) (block : List Byte) : List Word :=
  keccakF ((List.range 25).map fun i => a.getD i 0 ^^^ (if i < 17 then BitVec.ofNat 64 (leNat ((block.drop (8 * i)).take 8)) else 0))

/-- The message padded to whole blocks. -/
def shakePad (m : List Byte) : List Byte :=
  let n := shakeRate - m.length % shakeRate
  if n = 1 then m ++ [0x9F] else m ++ [0x1F] ++ List.replicate (n - 2) 0 ++ [0x80]

/-- Squeezes `n` blocks. -/
def squeeze : Nat → List Word → List Byte
  | 0, _ => []
  | n + 1, a => (a.take 17).flatMap (fun w => leBytes 8 w.toNat) ++ squeeze n (keccakF a)

/-- The first `len` bytes of SHAKE256. -/
def shake256 (m : List Byte) (len : Nat) : List Byte :=
  let p := shakePad m
  let a := (List.range (p.length / shakeRate)).foldl (fun a i => absorb a ((p.drop (shakeRate * i)).take shakeRate)) (List.replicate 25 0)
  (squeeze (len / shakeRate + 1) a).take len

end Sys2Proof.Machine
end

