-- ==== Sys2Proof/Machine/Fabric.lean ====
section
/-! DEFINITION. The fabric: host RDMA, peer ports, die links, collectives, patrol scrub, pseudo-channel drops, throttling and the resets (R143, R329, R382 to R400, R408). -/

namespace Sys2Proof.Machine

/-! ### Host RDMA (R143, R383, R398) -/

/-- The line pieces of bytes from `pa`: each lies within one 64-byte line. -/
def linePieces (pa : Nat) : Nat → List Byte → List (Nat × List Byte)
  | 0, _ => []
  | n + 1, bs =>
    if bs = [] then []
    else
      let k := 64 - pa % 64
      (pa, bs.take k) :: linePieces (pa + k) n (bs.drop k)

/-- A write from outside: line accesses on committed state (R143). -/
def State.hostWrite (pa : Nat) (bs : List Byte) (s : State) : State :=
  (linePieces pa (bs.length / 64 + 2) bs).foldl (fun s p => s.physWrite p.1 p.2 false) s

def State.allMapped (s : State) (pa n : Nat) : Bool := (List.range (n / 64 + 2)).all fun i => s.mapped (min (pa + 64 * i) (pa + n - 1))
/-- Whether a read of `n` bytes meets a poisoned line. -/
def State.meetsPoison (s : State) (pa n : Nat) : Bool :=
  (List.range (n / 64 + 2)).any fun i => s.physPoisoned (min (pa + 64 * i) (pa + n - 1))

def State.output (o : Output) (s : State) : State := { s with outputs := s.outputs ++ [o] }

/-- The greatest RDMA message (R383). -/
def rdmaMax : Nat := 2 ^ 31

def State.portAt (s : State) (k : Nat) : Port := SMap.look Port.reset s.pkg.ports k
def State.updPort (k : Nat) (f : Port → Port) (s : State) : State :=
  { s with pkg := { s.pkg with ports := SMap.put s.pkg.ports k (f (s.portAt k)) } }

/-- Queue pairs that the device holds at most (R383). -/
def qpMax : Nat := 4096
def State.qpCount (s : State) : Nat := s.pkg.ports.foldl (fun n p => n + p.2.qps.length) 0

/-- The port number that stands for the management port, which carries only the mailbox (R382). -/
def mgmtPort : Nat := 8

/-- Whether a message of a queue pair is taken: on the management port always, on another port that is up where the device holds the queue
pair or can still hold it (R382, R383). -/
def State.takesQp (s : State) (port qp : Nat) : Bool :=
  port = mgmtPort || (s.portUp port && ((s.portAt port).qps.contains qp || s.qpCount < qpMax))

/-- A message shows its queue pair to be ready to send (R383). -/
def State.seeQp (port qp : Nat) (s : State) : State :=
  if port = mgmtPort then s else s.updPort port fun p => { p with qps := insertSorted p.qps qp }

/-- Whether a port reaches an extent: the management port carries only the mailbox (R382). -/
def carries (port pa n : Nat) : Bool := port ≠ mgmtPort || (isMail pa && isMail (pa + n - 1))

/-- The agent behind a queue pair of a port (R405). -/
def agentOf (port qp : Nat) : Nat := 16 * qp + port

/-- Whether a commit holds an access to an extent (R320). -/
def State.extentHeld (s : State) (pa n : Nat) : Bool :=
  s.shadow.any fun e => overlaps pa n (e.line * 64) 64 && s.lineCommits e.line

/-- An access from outside that a commit holds at the home agents (R320). -/
def State.holdAccess (i : HostOp) (s : State) : State := { s with pkg := { s.pkg with waiting := s.pkg.waiting ++ [i] } }

/-- Notes which agent has written requests of the mailbox (R405). -/
def State.noteWriter (agent pa n : Nat) (s : State) : State :=
  if isMail pa then
    { s with pkg := { s.pkg with
        writers := ((List.range 256).filter fun k => overlaps (pa - mailBase) n (4096 * k) 4096).foldl (fun m k => SMap.put m k agent) s.pkg.writers } }
  else s

/-- RDMA_WRITE (R383), with or without an immediate: an address outside the map is answered with an error. -/
def evRdmaWrite (port : Fin 9) (qp pa : Nat) (data : List Byte) (imm : Option (BitVec 32)) (s : State) : State :=
  if !s.takesQp port.val qp then s
  else if data ≠ [] && (rdmaMax < data.length || !s.allMapped pa data.length || !carries port.val pa data.length) then
    (s.seeQp port.val qp).output (.rdmaNak pa false)
  else if s.extentHeld pa data.length then s.holdAccess (.write port qp pa data imm)
  else
    let s := s.seeQp port.val qp
    let s := if data = [] then s else (s.hostWrite pa data).noteWriter (agentOf port.val qp) pa data.length
    let s := match imm with
      | some v => s.output (.rdmaImm port.val qp v)
      | none => s
    s.output (.rdmaAck pa)

/-- RDMA_READ (R383): a poisoned line is answered with a NAK of class Remote Operational Error. -/
def evRdmaRead (port : Fin 9) (qp pa len : Nat) (s : State) : State :=
  if !s.takesQp port.val qp then s
  else if rdmaMax < len || (len ≠ 0 && (!s.allMapped pa len || !carries port.val pa len)) then
    (s.seeQp port.val qp).output (.rdmaNak pa false)
  else if s.extentHeld pa len then s.holdAccess (.read port qp pa len)
  else if len ≠ 0 && s.meetsPoison pa len then (s.seeQp port.val qp).output (.rdmaNak pa true)
  else (s.seeQp port.val qp).output (.rdmaData pa (s.physBytes pa len))

/-- RDMA_SEND (R383): a message on a port that is up. -/
def evRdmaSend (port : Fin 8) (qp : Nat) (data : List Byte) (s : State) : State :=
  if !s.takesQp port.val qp then s
  else if rdmaMax < data.length then (s.seeQp port.val qp).output (.rdmaNak 0 false)
  else (s.seeQp port.val qp).output (.sent port.val qp)

/-- A host atomic on 8 aligned bytes of memory (R383): `f` answers the new value, none where nothing is written. One that reaches the ADMIT word
of a queue also reaches its scheduler node (R309). -/
def State.hostAtomic (i : HostOp) (port qp pa : Nat) (f : Nat → Option Nat) (s : State) : State :=
  if !s.takesQp port qp then s
  else if pa % 8 ≠ 0 || !s.mapped pa then (s.seeQp port qp).output (.rdmaNak pa false)
  else if s.extentHeld pa 8 then s.holdAccess i
  else if s.physPoisoned pa then (s.seeQp port qp).output (.rdmaNak pa true)
  else
    let s := s.seeQp port qp
    let old := s.physNat pa 8
    let s := match f old with
      | some v => ((s.hostWrite pa (leBytes 8 v)).noteWriter (agentOf port qp) pa 8).noteAdmit pa
      | none => s
    s.output (.rdmaOld pa (BitVec.ofNat 64 old))

/-- RDMA_FETCH_ADD (R383). -/
def evRdmaFetchAdd (port : Fin 8) (qp pa : Nat) (v : Word) (s : State) : State :=
  s.hostAtomic (.fetchAdd port qp pa v) port.val qp pa fun old => some ((old + v.toNat) % 2 ^ 64)
/-- RDMA_COMPARE_SWAP (R383). -/
def evRdmaCompareSwap (port : Fin 8) (qp pa : Nat) (expected new : Word) (s : State) : State :=
  s.hostAtomic (.compareSwap port qp pa expected new) port.val qp pa fun old => if old = expected.toNat then some new.toNat else none

/-! ### Resets (R329, R399) -/

/-- Aborts a launch at once, without a retry: a reset of its partition, which writes OUTCOME 2 (R329). -/
def State.resetAbort (id : Nat) (s : State) : State :=
  let s := (s.halt id).discard id
  let l := s.launchAt id
  (s.updLaunchAt id fun l =>
    { l with
      st := .aborted, cause := if l.cause = 0 then cReset.toNat else l.cause, children := [], pre := .none, cut := .none
      saved := none }).writeStatus id 2 l.tag l.abCode

/-- States of a launch whose commit entry has not flipped. -/
def LState.unflipped : LState → Bool
  | .committed | .aborted | .rejected => false
  | _ => true

/-- A core after its reset: what the Welkin core has set for it stays. -/
def Core.afterReset (now : Nat) (k : Core) : Core :=
  { Core.reset with t0 := now, sysr := k.sysr, dptroot := k.dptroot, iptroot := k.iptroot }

/-- A hart after the reset of its core. -/
def Hart.afterReset (h : Hart) : Hart := { Hart.reset with ser := h.ser, ckptSer := h.ser }

def State.resetCoreNow (c : CoreId) (s : State) : State :=
  let s := s.updCoreAt c (Core.afterReset s.now)
  (hartsOf c).foldl (fun s n => s.updHartAt n Hart.afterReset) s

/-- The partition's queues and deadlines after its reset (R311); regions stay configured. -/
def Part.afterReset (sweepStart : Nat) (nodes : List ClusterId) (p : Part) : Part :=
  { Part.reset with
    queues := p.queues.map fun q => (q.1, { q.2 with period := 0, budget := 0, left := 0, since := 0, throttled := false })
    slots := p.slots, sysRanges := p.sysRanges, nextPlace := p.nextPlace
    sweep := ⟨sweepStart, nodes, []⟩ }

/-- RESET_PARTITION (R329, R399): every launch whose commit entry has not flipped aborts, committed lines settle, and the
memories of the partition's dies are cleared. -/
def evResetPartition (p : PartId) (s : State) : State :=
  let s := ((s.launchesOf p).filter fun l => l.2.st.unflipped).foldl (fun s l => s.resetAbort l.1) s
  let s := { s with shadow := s.shadow.filter fun e => (s.launchAt e.launch).part ≠ p }
  let ds := s.diesOf p
  let s := (ds.flatMap fun d => (List.range 64).map fun i => 64 * d + i).foldl (fun s c => s.resetCoreNow c) s
  let s := (ds.flatMap fun d => (List.range 4).map fun i => 4 * d + i).foldl (fun s c => s.updClusterAt c fun _ => Cluster.reset) s
  let s := ds.foldl (fun s d => s.updDieAt d fun x => { x with sram := [], wakes := [] }) s
  s.updPartAt p (Part.afterReset (s.now + sweepPeriod) (s.clustersOf p))

/-- RESET_CORE (R399): launches that use the core abort, retryable. -/
def evResetCore (c : CoreId) (s : State) : State :=
  let users := s.launches.filter fun l => l.2.st = .running && l.2.pre ≠ .savedOut && l.2.rc.coreList.contains c
  let s := users.foldl (fun s l => s.requestAbort l.1 cReset.toNat 0 0 0 true) s
  s.resetCoreNow c

/-- RESET_COPY_ENGINE (R399): launches with copies queued abort. -/
def evResetCopyEngine (cl : ClusterId) (s : State) : State :=
  let ids := ((s.clusterAt cl).copies.map fun c => c.launch).eraseDups
  let s := ids.foldl (fun s i => s.requestAbort i cReset.toNat 0 0 0 true) s
  s.updClusterAt cl fun k => { k with copies := [] }

/-- Two dies that a link joins (R11). -/
def linked (a b : DieId) : Bool := a < 8 && b < 8 && dieHops a b = 1

def State.linkAt (s : State) (a b : DieId) : Link := SMap.look Link.reset s.pkg.links (a * 8 + b)
def State.updLink (a b : DieId) (f : Link → Link) (s : State) : State :=
  { s with pkg := { s.pkg with links := SMap.put s.pkg.links (a * 8 + b) (f (s.linkAt a b)) } }

/-- The partitions that have a die at either end of a link. -/
def State.partsOfLink (s : State) (a b : DieId) : List PartId := [s.partOf a, s.partOf b].eraseDups

/-- RESET_DIE_LINK (R389, R399): the link is retrained, and its partitions reset. -/
def evResetDieLink (a b : DieId) (s : State) : State :=
  if !linked a b then s
  else
    let s := (s.partsOfLink a b).foldl (fun s p => evResetPartition p s) s
    (s.updLink a b fun _ => Link.reset).updLink b a fun _ => Link.reset

/-- RESET_DEVICE (R399): everything stops; the warm start follows. -/
def evResetDevice (s : State) : State :=
  { s with pkg := { s.pkg with phase := .off, waiting := [] } }

/-! ### Requests that a lost path ends (R101, R386, R389) -/

/-- A location that is now out of reach. -/
def Elem.cutOff (out : Loc → Bool) (e : Elem) : Elem :=
  { e with loc := e.loc.map fun x => if out x then ⟨.lost, x.addr⟩ else x }

/-- Ends hart `n`'s requests to locations that are out of reach in an error: the first one raises MEMERR; a stream's ends the stream. -/
def State.failRequests (n : HartId) (s : State) : State :=
  let out := fun l : Loc => s.unreachable (dieOf n) l
  match (s.hartAt n).land.find? fun l : Landing => !l.arrived && l.elems.any fun e => e.took.isNone && e.loc.any out with
  | some l =>
    let l' := { l with elems := l.elems.map (Elem.cutOff out) }
    (s.updHartAt n fun h => h.dropLand l.id).takeTrap n (l'.memerr .linkLost)
  | none =>
    match s.flights.find? fun f : Flight => f.hart = n && !f.performed && f.kind.locs.any out with
    | some f =>
      let s := { s with flights := s.flights.filter fun x => x.hart ≠ n || x.performed || !x.kind.locs.any out }
      s.failFlight f .linkLost
    | none => s

def State.failAllRequests (s : State) : State := (s.harts.map fun h => h.1).foldl (fun s n => s.failRequests n) s

/-! ### Collectives (R391 to R395) -/

def slotSize : Nat := 512
/-- Address of a slot's field in a die's collective window. -/
def State.slotNat (s : State) (d : DieId) (g o n : Nat) : Nat :=
  leNat ((List.range n).map fun i => (s.dieAt d).coll.byte (slotSize * g + o + i))
def State.slotWrite (d : DieId) (g o : Nat) (bs : List Byte) (s : State) : State :=
  s.updDieAt d fun x => { x with coll := x.coll.setBytes (slotSize * g + o) bs }

def State.groupAt (s : State) (g : Nat) : Group := SMap.look ⟨0, 0, 0, 0, 0, [], 0, none, []⟩ s.pkg.groups g
def State.updGroup (g : Nat) (f : Group → Group) (s : State) : State :=
  { s with pkg := { s.pkg with groups := SMap.put s.pkg.groups g (f (s.groupAt g)) } }

/-- Member dies of a group on module `m`, as die indexes. -/
def Group.diesOn (k : Group) (m : Nat) : List DieId := (List.range 8).filter fun d => k.members.getLsbD (8 * m + d)
/-- Modules that have a member. -/
def Group.modules (k : Group) : List Nat := (List.range 8).filter fun m => k.diesOn m ≠ []
def Group.memberList (k : Group) : List Nat := (List.range 64).filter fun i => k.members.getLsbD i

/-- The elements of a member's slot. -/
def State.slotData (s : State) (d : DieId) (g n : Nat) : List Cell :=
  (List.range n).map fun i => BitVec.ofNat 32 (s.slotNat d g (64 + 4 * i) 4)

/-- Least k with 2^k at least n. -/
def ceilLog2 (n : Nat) : Nat := if n ≤ 1 then 0 else Nat.log2 (n - 1) + 1

/-- The all-reduce time (R390). -/
def Group.time (k : Group) : Nat :=
  let d := k.modules.foldl (fun m x => max m (k.diesOn x).length) 0
  nsCycles (600 + 150 * ceilLog2 d + 450 * ceilLog2 k.modules.length)

/-- Sets the time of the result once every member has contributed. -/
def State.checkRound (g : Nat) (s : State) : State :=
  s.updGroup g fun k =>
    if k.doneAt.isNone && k.memberList.all fun m => k.data.any fun x => x.1 = m then { k with doneAt := some (s.now + k.time) } else k

/-- DONE := all ones in a slot (R395). -/
def State.failSlot (d : DieId) (g : Nat) (s : State) : State := s.slotWrite d g 8 (List.replicate 8 255)

/-- COLLECTIVE_TRIGGER (R392, R395): a SEQ write is looked at. -/
def evCollectiveTrigger (d : DieId) (g : Fin 64) (s : State) : State :=
  if !(s.dieAt d).trig.contains g.val then s
  else
    let s := s.updDieAt d fun x => { x with trig := x.trig.filter fun t => t ≠ g.val }
    let k := s.groupAt g.val
    let m := 8 * s.pkg.cfg.modulePos + d
    if !k.members.getLsbD m then s
    else if s.slotNat d g.val 0 8 ≠ (k.round + 1) % 2 ^ 64 then s.failSlot d g.val
    else if k.triggered.contains m then s
    else
      let v := s.slotData d g.val k.count
      let now := s.now
      (s.updGroup g.val fun k =>
        { k with
          triggered := insertSorted k.triggered m, firstAt := if k.triggered = [] && k.data = [] then now else k.firstAt
          data := k.data ++ [(m, v)] }).checkRound g.val

/-- One binary operation of a group (R394). -/
def Group.combine (k : Group) (x y : Cell) : Cell :=
  if k.ty = 0 then
    match k.op with
    | 0 => rne32Add x y
    | 1 => BitVec.ofNat 32 (fmtF32.minMax true x.toNat y.toNat).1
    | _ => BitVec.ofNat 32 (fmtF32.minMax false x.toNat y.toNat).1
  else
    match k.op with
    | 0 => x + y
    | 1 => if x.slt y then y else x
    | _ => if x.slt y then x else y

/-- A node of the tree: an absent child passes the other through (R200, R394). -/
def optMap2 (f : Cell → Cell → Cell) : Option Cell → Option Cell → Option Cell
  | none, v => v
  | u, none => u
  | some x, some y => some (f x y)

/-- The tree of R200 over eight positions (R394). -/
def tree8 (f : Cell → Cell → Cell) (l : Nat → Option Cell) : Option Cell :=
  let o := optMap2 f
  o (o (o (l 0) (l 1)) (o (l 2) (l 3))) (o (o (l 4) (l 5)) (o (l 6) (l 7)))

/-- Element `i` of the result (R394). -/
def Group.result (k : Group) (i : Nat) : Cell :=
  let val := fun m => (k.data.find? fun x => x.1 = m).map fun x => x.2.getD i 0
  (tree8 k.combine fun m => tree8 k.combine fun d => if k.members.getLsbD (8 * m + d) then val (8 * m + d) else none).getD 0

/-- Whether a member of this module has written its data since its trigger (R395). -/
def State.dataMoved (s : State) (g : Nat) (k : Group) : Bool :=
  (k.diesOn s.pkg.cfg.modulePos).any fun d =>
    (k.data.find? fun x => x.1 = 8 * s.pkg.cfg.modulePos + d).any fun x => x.2 ≠ s.slotData d g k.count

/-- A group at the start of its next round. -/
def Group.next (k : Group) : Group := { k with round := k.round + 1, triggered := [], firstAt := 0, doneAt := none, data := [] }

/-- COLLECTIVE_COMPLETE (R392 to R395): the result, unpredictable where data was written after its trigger, and DONE. -/
def evCollectiveComplete (g : Fin 64) (s : State) : State :=
  let k := s.groupAt g.val
  match k.doneAt with
  | none => s
  | some t =>
    if s.now < t then s
    else
      let moved := s.dataMoved g.val k
      let bs := (List.range k.count).flatMap fun i =>
        leBytes 4 (if moved then (Config.freeCell s.freeCtr i).toNat else (k.result i).toNat)
      let s := (k.diesOn s.pkg.cfg.modulePos).foldl (fun s d =>
        (s.slotWrite d g.val 64 bs).slotWrite d g.val 8 (leBytes 8 ((k.round + 1) % 2 ^ 64))) s
      (s.updGroup g.val Group.next).spendFree

/-- Abandons a round (R395). -/
def State.failRound (g : Nat) (s : State) : State :=
  let k := s.groupAt g
  ((k.diesOn s.pkg.cfg.modulePos).foldl (fun s d => s.failSlot d g) s).updGroup g Group.next

/-- COLLECTIVE_TIMEOUT (R395). -/
def State.roundLate (s : State) (g : Nat) : Bool :=
  let k := s.groupAt g
  k.data ≠ [] && k.firstAt + s.memtoCycles ≤ s.now && (match k.doneAt with | some t => decide (s.now < t) | none => true)
def evCollectiveTimeout (g : Fin 64) (s : State) : State := if s.roundLate g.val then s.failRound g.val else s

/-- Rounds under way that a lost die or port breaks: those with a member that satisfies `p`. -/
def State.failRounds (p : Nat → Bool) (s : State) : State :=
  ((s.pkg.groups.filter fun k => k.2.data ≠ [] && k.2.memberList.any p).map fun k => k.1).foldl (fun s g => s.failRound g) s

/-! ### Ports (R384, R386) -/

/-- What a port is used for: a host port, or the peer port of a module (R384). -/
def Cfg.isPeer (c : Cfg) (k : Nat) : Bool := 1 < c.domsize && k < c.domsize && k ≠ c.modulePos
def Cfg.isHost (c : Cfg) (k : Nat) : Bool := c.domsize ≤ 1 || k = c.modulePos

/-- LINK_BRINGUP (R384): a peer port whose partner reports another domain, or another position, stays down. -/
def evLinkBringup (port : Fin 8) (domid : BitVec 32) (pos : Nat) (s : State) : State :=
  let c := s.pkg.cfg
  let up := fun s : State => s.updPort port.val fun p => { p with up := true, lost := false, expect := 0, sentSeq := 0, unacked := 0 }
  if c.isHost port.val then up s
  else if !c.isPeer port.val then s
  else if domid.toNat = c.domid && pos = port.val then up s
  else (s.updPort port.val fun p => { p with up := false }).log port.val .peerPort 0 port.val 0 pos

/-- A member's contribution that its module has sent: the DATA of its slot (R392). -/
def State.contribute (m g : Nat) (bs : List Byte) (s : State) : State :=
  let now := s.now
  let v := (List.range (s.groupAt g).count).map fun i => BitVec.ofNat 32 (leNat ((bs.drop (4 * i)).take 4))
  (s.updGroup g fun k =>
    if k.members.getLsbD m && !k.data.any fun x => x.1 = m then
      { k with data := k.data ++ [(m, v)], firstAt := if k.data = [] then now else k.firstAt } else k).checkRound g

/-- The operation that a frame's number names. -/
def atomOf (n : Fin 11) : AtomKind := [.swp, .add, .and, .or, .xor, .min, .max, .minu, .maxu, .cas, .fadd].getD n.val .swp

/-- The bytes that a frame's access reaches. -/
def peerExtent : PeerOp → Nat × Nat
  | .read pa n => (pa, n)
  | .write pa bs => (pa, bs.length)
  | .atomic pa _ w _ _ => (pa, if w then 8 else 4)

/-- A frame's access at the home agent (R386): an unmapped address ends it in an error (R381). A frame that writes a collective window's DATA
carries a member's contribution. -/
def State.peerAct (port : Nat) (op : PeerOp) (s : State) : PeerReply × State :=
  let x := peerExtent op
  let failed : PeerReply := ⟨[], false, true⟩
  match op with
  | .read pa n => if s.allMapped pa n then (⟨s.physBytes pa n, s.meetsPoison pa n, false⟩, s) else (failed, s)
  | .write pa bs =>
    if isColl pa then
      (⟨[], false, false⟩, s.contribute (8 * port + (pa - collBase) / 0x8000) ((pa - collBase) % 0x8000 / slotSize) bs)
    else if s.allMapped pa bs.length then (⟨[], false, false⟩, s.hostWrite pa bs) else (failed, s)
  | .atomic pa k _ b c =>
    if pa % x.2 = 0 && s.mapped pa then
      let (old, poi, s) := s.performAmo (atomOf k) x.2 ⟨.place, pa⟩ b c
      (⟨leBytes x.2 old, poi, false⟩, s)
    else (failed, s)

/-- The remote access that a peer frame carries (R386): `len` bytes from `pa`; an atomic is on 8 bytes or on 4. -/
def peerOp (pa : Nat) (act : PeerAct) (len : Nat) : PeerOp :=
  match act with
  | .read => .read pa len
  | .write data => .write pa (data.take len)
  | .atomic op b c => .atomic pa op (len = 8) b c

/-- PEER_FRAME (R386): a frame in sequence is performed at the home agent and acknowledged; one that has been taken is
acknowledged again with the same answer. -/
def evPeerFrame (port : Fin 8) (seq : Nat) (op : PeerOp) (s : State) : State :=
  let p := s.portAt port.val
  if !p.up || !s.pkg.cfg.isPeer port.val then s
  else if seq + 1 = p.expect then s.output (.peerAck port.val seq p.reply)
  else if seq ≠ p.expect then s
  else if s.extentHeld (peerExtent op).1 (peerExtent op).2 then s.holdAccess (.peer port seq op)
  else
    let (r, s) := s.peerAct port.val op
    (s.updPort port.val fun p => { p with expect := p.expect + 1, reply := r }).output (.peerAck port.val seq r)

/-- The bytes that a waiting access from outside reaches. -/
def hostExtent : HostOp → Nat × Nat
  | .write _ _ pa data _ => (pa, data.length)
  | .read _ _ pa len => (pa, len)
  | .fetchAdd _ _ pa _ | .compareSwap _ _ pa _ _ => (pa, 8)
  | .peer _ _ op => peerExtent op

/-- An access from outside as it arrives. -/
def State.hostOp (i : HostOp) (s : State) : State :=
  match i with
  | .write port qp pa data imm => evRdmaWrite port qp pa data imm s
  | .read port qp pa len => evRdmaRead port qp pa len s
  | .fetchAdd port qp pa v => evRdmaFetchAdd port qp pa v s
  | .compareSwap port qp pa x y => evRdmaCompareSwap port qp pa x y s
  | .peer port seq op => evPeerFrame port seq op s

/-- The first waiting access from outside that no commit holds any more (R320). -/
def State.hostDue (s : State) : Option HostOp :=
  s.pkg.waiting.find? fun i => !s.extentHeld (hostExtent i).1 (hostExtent i).2

/-- A waiting access goes ahead. -/
def State.hostGoes (i : HostOp) (s : State) : State :=
  { s with pkg := { s.pkg with waiting := s.pkg.waiting.erase i } }.hostOp i

/-- PEER_PORT_LOST (R386, R395). -/
def evPeerPortLost (port : Fin 8) (s : State) : State :=
  if !s.pkg.cfg.isPeer port.val || (s.portAt port.val).lost then s
  else
    let s := (s.updPort port.val fun p => { p with up := false, lost := true }).log port.val .peerPort 0 port.val 0 0
    (s.failRounds fun m => m / 8 = port.val).failAllRequests

/-- PEER_RESEND (R386): a frame that has gone 2 µs without an acknowledgement; the third time in a row the port is lost. -/
def evPeerResend (port : Fin 8) (seq : Nat) (s : State) : State :=
  let p := s.portAt port.val
  if !p.up || !s.pkg.cfg.isPeer port.val then s
  else
    let n := if p.sentSeq = seq && 0 < p.unacked then p.unacked + 1 else 1
    let s := s.updPort port.val fun p => { p with sentSeq := seq, unacked := n }
    if 3 ≤ n then evPeerPortLost port s else s

/-- RESET_ETHERNET_PORT (R399): its queue pairs enter the error state, and requests through it end in an error. -/
def evResetEthernetPort (port : Fin 8) (s : State) : State :=
  let s := s.updPort port.val fun _ => Port.reset
  let s := { s with pkg := { s.pkg with windows := s.pkg.windows.filter fun w => w.2.port ≠ port.val } }
  if s.pkg.cfg.isPeer port.val then (s.failRounds fun m => m / 8 = port.val).failAllRequests else s

/-! ### Die links (R388, R389) -/

/-- DIE_LINK_LOST (R389): partitions at its ends reset, and other requests across it end in an error. -/
def evDieLinkLost (a b : DieId) (s : State) : State :=
  if !linked a b then s
  else
    let s := (s.updLink a b fun l => { l with lost := true }).updLink b a fun l => { l with lost := true }
    let s := s.log a .dieLink 0 (min a b * 8 + max a b) 0 0
    let ps := s.partsOfLink a b
    let s := ps.foldl (fun s p => evResetPartition p s) s
    (s.failRounds fun m => m / 8 = s.pkg.cfg.modulePos && ps.contains (s.partOf (m % 8))).failAllRequests

/-- One byte into a CRC-32C. -/
def crc32cByte (c : Nat) (b : Byte) : Nat :=
  (List.range 8).foldl (fun c _ => if c % 2 = 1 then c / 2 ^^^ 0x82F63B78 else c / 2) (c ^^^ b.toNat)

/-- The CRC-32C of bytes. -/
def crc32c (bs : List Byte) : Nat := bs.foldl crc32cByte 0xFFFFFFFF ^^^ 0xFFFFFFFF

/-- The CRC-32C of a flit (R388): over its payload and then its sequence number, an order that is the model's (log 70). -/
def flitCrc (seq : Nat) (payload : List Byte) : BitVec 32 := BitVec.ofNat 32 (crc32c (payload ++ leBytes 2 seq))

/-- Flits that a replay buffer holds (R388). -/
def replaySize : Nat := 512

/-- A flit leaves its sender, whose replay buffer keeps it. -/
def Link.sent (seq : Nat) (payload : List Byte) (l : Link) : Link :=
  { l with buf := (l.buf ++ [(seq, payload)]).drop (l.buf.length + 1 - replaySize) }

/-- The next flit has arrived without an error. -/
def Link.deliver (l : Link) : Link := { l with expect := (l.expect + 1) % 4096, nak := false, failed := 0 }

/-- FLIT_RECEIVE (R388): a CRC error answers with a NAK; a flit in sequence is delivered. -/
def evFlitReceive (a b : DieId) (seq : Nat) (payload : List Byte) (crc : BitVec 32) (s : State) : State :=
  if !linked a b || payload.length ≠ 64 then s
  else
    s.updLink a b fun l =>
      if l.lost then l
      else
        let l := l.sent seq payload
        if crc ≠ flitCrc seq payload then { l with nak := true, crc := l.crc + 1 }
        else if seq = l.expect then l.deliver
        else l

/-- FLIT_REPLAY (R388): the flit that a NAK names is sent again out of the replay buffer, and arrives with `crc`; eight consecutive failed
replays of a flit lose the link. -/
def evFlitReplay (a b : DieId) (crc : BitVec 32) (s : State) : State :=
  let l := s.linkAt a b
  if !linked a b || !l.nak || l.lost then s
  else
    match l.buf.find? fun x => x.1 = l.expect with
    | none => s
    | some x =>
      if crc = flitCrc x.1 x.2 then s.updLink a b Link.deliver
      else
        let s := s.updLink a b fun l => { l with failed := l.failed + 1, crc := l.crc + 1 }
        if 8 ≤ l.failed + 1 then evDieLinkLost a b s else s

/-! ### Scrub, drops and throttling (R396 to R400, R408) -/

/-- The pseudo-channel of a stack that holds a line: the spec gives no interleaving. -/
def pcOfLine (line : Nat) : Nat := Config.freeChoice 0 line % 64

/-- Scheduler cycles of an hour. -/
def hourCycles : Nat := 3600 * 1100000000

/-- Key of the corrected-error count of a pseudo-channel in the present hour. -/
def State.pcKey (s : State) (j pc : Nat) : Nat := s.now / hourCycles * 1024 + 64 * j + pc

/-- Requests the drop of a pseudo-channel (R400). -/
def State.requestDrop (j pc : Nat) (slot : Option Nat) (s : State) : State :=
  if s.pkg.drops.any fun d => d.1 = j && d.2.1 = pc then s
  else { s with pkg := { s.pkg with drops := s.pkg.drops ++ [(j, pc, slot)] } }

/-- A line of HBM that the scrub, or an access, has read with an error (R396, R397, R400). -/
def State.hbmError (line : Nat) (corrected uncorrectable : Bool) (s : State) : State :=
  if !s.inHbm (line * 64) then s
  else
    let j := line * 64 / stackSize
    let d := j / 2
    if uncorrectable then { s with mem := s.mem.mark line }.log d .uncorrectable 0 j (line * 64) 0
    else if corrected then
      let pc := pcOfLine line
      let n := SMap.look 0 s.pkg.corrected (s.pcKey j pc) + 1
      let s := { s with pkg := { s.pkg with corrected := SMap.put s.pkg.corrected (s.pcKey j pc) n } }
      let s := s.log d .corrected 0 j (line * 64) n
      if s.pkg.cfg.pclimit < n then s.requestDrop j pc none else s
    else s

/-- A line of a launch's shared SRAM with an error (R397). -/
def State.sramError (d : DieId) (id line : Nat) (corrected uncorrectable : Bool) (s : State) : State :=
  if uncorrectable then
    (s.updDieAt d fun k =>
      let a := SMap.look (⟨0, Ram.empty, []⟩ : HAlloc) k.sram id
      if SMap.has k.sram id && 64 * line < a.size then { k with sram := SMap.put k.sram id { a with ram := a.ram.mark line } } else k).log d
      .uncorrectable 0 d (64 * line) 0
  else if corrected then s.log d .corrected 0 d (64 * line) 0
  else s

/-- PATROL_SCRUB (R396, R397, R400): what reading a memory finds. An uncorrectable error of the grid, a TCM or a scratchpad is met in a read, as
SRAMERR (R345). -/
def evPatrolScrub (m : EccMem) (corrected uncorrectable : Bool) (s : State) : State :=
  let logged := fun (d : DieId) (unit : Nat) => if corrected && !uncorrectable then s.log d .corrected 0 unit 0 0 else s
  match m with
  | .hbm line => s.hbmError line corrected uncorrectable
  | .sram d id line => s.sramError d id line corrected uncorrectable
  | .core c => logged (dieOfCore c) (s.unitOf (2 * c))
  | .spad c => logged (dieOfCluster c) c
  | .buffer d => logged d d

/-- Partitions whose dies hold a stack. -/
def State.partOfStack (s : State) (j : Nat) : PartId := s.partOf (j / 2)

/-- Whether every launch of a partition has left its units and no commit is under way. -/
def State.quiet (s : State) (p : PartId) : Bool :=
  (s.launchesOf p).all fun l => (l.2.st ≠ .running) && l.2.st ≠ .committing

/-- The drop that is next for its stack and may go on. -/
def State.nextDrop (s : State) : Option (Nat × Nat × Option Nat) :=
  s.pkg.drops.find? fun d => (s.pkg.drops.find? fun e => e.1 = d.1) = some d && s.quiet (s.partOfStack d.1)

/-- Whether the pre-emption for a pending drop has still to be requested. -/
def State.dropStarts (s : State) : Option Nat :=
  (s.pkg.drops.find? fun d =>
    let p := s.partOfStack d.1
    !(s.partAt p).held || (s.launchesOf p).any fun l => l.2.st = .running && l.2.pre = .none && l.2.cause = 0).map fun d => s.partOfStack d.1

/-- Drops the bytes of removed lines. -/
def Ram.cut (m : Ram) (lo hi : Nat) : Ram :=
  { bytes := m.bytes.filter fun b => b.1 < lo || hi ≤ b.1, poison := m.poison.filter fun l => l * 64 < lo || hi ≤ l * 64 }

/-- The end of a drop: the stack shrinks from its top; beyond eight drops its partition resets and the stack is absent. -/
def State.dropNow (j pc : Nat) (s : State) : State :=
  let m := SMap.look (0 : BitVec 64) s.pkg.dropped j
  let lo := j * stackSize
  if 8 ≤ ((List.range 64).filter fun i => m.getLsbD i).length then
    let s := evResetPartition (s.partOfStack j) s
    { s with pkg := { s.pkg with absent := insertSorted s.pkg.absent j }, mem := s.mem.cut lo (lo + stackSize) }
  else
    let s := { s with pkg := { s.pkg with dropped := SMap.put s.pkg.dropped j (m ||| BitVec.twoPow 64 pc) } }
    { s with mem := s.mem.cut (lo + s.stackPresent j) (lo + stackSize) }

/-- A drop has ended: the partition admits again where no other drop of it is pending. -/
def State.endDrop (d : Nat × Nat × Option Nat) (s : State) : State :=
  let s := { s with pkg := { s.pkg with drops := s.pkg.drops.filter fun x => x ≠ d } }
  let p := s.partOfStack d.1
  if s.pkg.drops.any fun x => s.partOfStack x.1 = p then s else s.updPartAt p fun x => { x with held := false }

/-- THERMAL_THROTTLE (R408): the freeze of one cycle at a limit, at most every second cycle; beyond TLIMIT by 10 °C the device resets. -/
def powerLimit : Nat := 2400
def evThermalThrottle (temp : Int) (power : Nat) (s : State) : State :=
  let s := { s with pkg := { s.pkg with temp := temp, power := power } }
  if (s.pkg.cfg.tlimit : Int) + 10 ≤ temp then evResetDevice s
  else if ((s.pkg.cfg.tlimit : Int) ≤ temp || powerLimit ≤ power) && s.pkg.frozeAt.all fun t => t + 2 ≤ s.now then
    let s := { s with pkg := { s.pkg with frozeAt := some s.now } }
    (List.range 512).foldl (fun s c => if s.cycleAt c = 0 then s else s.updCoreAt c fun k => { k with t0 := k.t0 + 1 }) s
  else s

/-- SHADOW_DIRECTORY_ERROR (R397). -/
def evShadowDirectoryError (d : DieId) (s : State) : State :=
  evResetPartition (s.partOf d) (s.log d .directory 0 d 0 0)

/-- WELKIN_CORE_FAULT (R397): logged in flash, and the device resets. -/
def evWelkinCoreFault (d : DieId) (s : State) : State :=
  let e : LogEnt := ⟨(s.dieAt d).logSeq, ErrClass.welkin.code, 0, d, 0, 0⟩
  evResetDevice { (s.log d .welkin 0 d 0 0) with pkg := { s.pkg with flashLog := s.pkg.flashLog ++ [(d, e)] } }

end Sys2Proof.Machine
end

