-- ==== Sys2Proof/Machine/Turis.lean ====
section
/-! DEFINITION. The Turis form and its translation (R369 to R377, R424, R426 to R428). -/

namespace Sys2Proof.Machine

/-- What the translation of a Turis section gives: lines, BADTURIS with its reason and position, or VXVER. -/
inductive TurisRes where
  | code (bytes : List Byte)
  | bad (reason pos : Nat)
  | vxver
  deriving DecidableEq, Repr

/-! ### Moves (R370, R371)

A name stands for a piece of the program's state: t0 to t63 are 0 to 63, b0 to b7 are 64 to 71, and port p of unit u is
128 + 8u + p, with p = 0 a, 1 c, 2 o, 3 d, 4 e. -/

def tPred (k : Nat) : Nat := 64 + k
def tPort (u p : Nat) : Nat := 128 + 8 * u + p
def isTReg (n : Nat) : Bool := n < 64
def isTPred (n : Nat) : Bool := 64 ≤ n && n < 72
def isTPort (n : Nat) : Bool := 128 ≤ n
def isTOut (n : Nat) : Bool := isTPort n && n % 8 = 2
def isTOperand (n : Nat) : Bool := isTPort n && n % 8 ≠ 2

/-- The source of a move. -/
inductive TSrc where
  | name (n : Nat)
  | imm (v : Int)
  deriving DecidableEq, Repr

/-- The destination of a move. -/
inductive TDst where
  | name (n : Nat)
  | trig (u op : Nat)
  deriving DecidableEq, Repr

/-- A move: its word, its guard as a native predicate (bk is pk, its complement p(k + 8)), source and destination. -/
structure TMove where
  word : Nat
  g : Nat
  src : TSrc
  dst : TDst
  long : Bool
  deriving DecidableEq, Repr

abbrev TGroup := List TMove

/-- Operations of each unit (R372). -/
def unitOps : List Nat := [16, 16, 2, 4, 18, 18, 32, 32, 3, 11, 7, 1]

def signed (w v : Nat) : Int := if 2 ^ (w - 1) ≤ v then (v : Int) - (2 ^ w : Nat) else v

/-- A port address as a source (R371): a name, a short immediate, or how many words of immediate follow. -/
def srcAddr (a : Nat) : Option (TSrc ⊕ Nat) :=
  let lo := a % 1024
  match a / 1024 with
  | 0 => if lo < 64 then some (.inl (.name lo)) else none
  | 1 => if lo < 8 then some (.inl (.name (tPred lo))) else none
  | 2 => if lo / 64 < 12 && lo / 32 % 2 = 0 && lo % 32 < 5 then some (.inl (.name (tPort (lo / 64) (lo % 32)))) else none
  | 3 => some (.inl (.imm (signed 10 lo)))
  | 4 => if lo < 2 then some (.inr (1 + lo)) else none
  | _ => none

/-- A port address as a destination (R371). -/
def dstAddr (a : Nat) : Option TDst :=
  let lo := a % 1024
  match a / 1024 with
  | 0 => if lo < 64 then some (.name lo) else none
  | 1 => if 0 < lo && lo < 8 then some (.name (tPred lo)) else none
  | 2 =>
    if 12 ≤ lo / 64 then none
    else if lo / 32 % 2 = 0 then (if lo % 32 < 5 && lo % 32 ≠ 2 then some (.name (tPort (lo / 64) (lo % 32))) else none)
    else if lo % 32 < unitOps.getD (lo / 64) 0 then some (.trig (lo / 64) (lo % 32)) else none
  | _ => none

/-- A move from a predicate to a unit port is reserved (R371). -/
def predToUnit (s : TSrc) (d : TDst) : Bool :=
  match s, d with
  | .name n, .trig .. => isTPred n
  | .name n, .name m => isTPred n && isTPort m
  | _, _ => false

/-- A failed check of R375: the word and the reason. -/
abbrev TBad := Nat × Nat

/-- The moves of a section, in groups: the words from index `i` on, `cur` the group under way in reverse. A reserved move
closes its group by its L bit and takes no other part. -/
def tGroups : List Nat → Nat → TGroup → Nat → List TGroup × List TBad
  | [], i, _, open_ => ([], if open_ = 1 then [(i - 1, 2)] else [])
  | w :: ws, i, cur, 0 =>
    let s := srcAddr (w / 2 ^ 13 % 2 ^ 13)
    let d := dstAddr (w % 2 ^ 13)
    let g := w / 2 ^ 27 % 8
    let neg := w / 2 ^ 30 % 2
    let last := w / 2 ^ 31 % 2
    let guard := if g = 0 then 0 else g + 8 * neg
    let (src, n) : Option TSrc × Nat :=
      match s with
      | some (.inl x) => (some x, 0)
      | some (.inr 1) => (some (.imm (signed 32 (ws.headD 0))), 1)
      | some (.inr _) => (some (.imm (signed 64 (ws.headD 0 + 2 ^ 32 * (ws.drop 1).headD 0))), 2)
      | none => (none, 0)
    let mv : Option TMove :=
      match src, d with
      | some x, some y =>
        if w / 2 ^ 26 % 2 = 0 && !(neg = 1 && g = 0) && !predToUnit x y then some ⟨i, guard, x, y, n = 2⟩ else none
      | _, _ => none
    let b1 : List TBad := if mv.isNone then [(i, 1)] else []
    if ws.length < n then ([], b1 ++ [(i, 2)])
    else
      let cur := match mv with | some m => m :: cur | none => cur
      -- the words of the immediate are skipped through the counter below
      if n = 0 then
        if last = 1 then
          let (gs, bs) := tGroups ws (i + 1) [] 0
          (cur.reverse :: gs, b1 ++ bs)
        else
          let (gs, bs) := tGroups ws (i + 1) cur (if ws.isEmpty then 1 else 0)
          (gs, b1 ++ bs)
      else
        let (gs, bs) := tGroups ws (i + 1) cur (2 * n + last)
        (gs, b1 ++ bs)
  | _ :: ws, i, cur, k + 1 =>
    -- `k + 1 = 2n + last`: n words of an immediate are still to be skipped, and the move was the last of its group or not
    let n := (k + 1) / 2
    let last := (k + 1) % 2
    if 1 < n then tGroups ws (i + 1) cur (2 * (n - 1) + last)
    else if last = 1 then
      let (gs, bs) := tGroups ws (i + 1) [] 0
      (cur.reverse :: gs, bs)
    else tGroups ws (i + 1) cur (if ws.isEmpty then 1 else 0)

/-! ### Units (R372) -/

/-- Operand ports that an operation reads: 0 a, 1 c, 3 d, 4 e. -/
def opReads (u op : Nat) : List Nat :=
  if u < 2 then (if op = 15 then [] else [0])
  else if u < 4 then [0]
  else if u < 6 then
    if op = 5 || op = 17 then [0, 1] else if op = 4 || (11 ≤ op && op ≤ 16) then [] else [0]
  else if u < 8 then (if 16 ≤ op then [0] else [])
  else if u = 9 then (if op = 5 || op = 6 then [0] else if op = 10 then [0, 1, 3, 4] else [])
  else if u = 10 then (if op = 1 then [0] else [])
  else if u = 11 then [3]
  else []

/-- Whether an operation writes its unit's port o. -/
def opWrites (u op : Nat) : Bool :=
  u < 6 || (u < 8 && op < 16) || (u = 9 && (op = 4 || op = 7)) || (u = 10 && op = 0)

/-- Whether an operation reads the trigger's value b as data. -/
def opUsesB (u op : Nat) : Bool :=
  !(u = 8 || (u = 9 && (op = 2 || op = 3 || op = 10)) || u = 10 || u = 11)

/-- Operations whose result is 1 or 0 and whose native form writes a predicate pair. -/
def isCompare (u op : Nat) : Bool :=
  (u < 2 && 12 ≤ op && op ≤ 14) || ((u = 4 || u = 5) && 8 ≤ op && op ≤ 10) || (u = 9 && op = 4)

/-- Suspension points (R377). -/
def isSuspend (u op : Nat) : Bool := u = 9 && (op = 1 || op = 2 || op = 4)

def decOk (d : Dec) : Bool := match d with | .ok _ => true | .error _ => false

/-- Reason 5: an operand that the native operation fixes, as an immediate of an allowed value (R375). -/
def fixedOk (ng : Nat) (u op : Nat) (s : TSrc) : Bool :=
  let grp := match s with | .imm v => 0 ≤ v && v < (ng : Int) | _ => false
  let field := fun (n : Nat) (f : Nat → Bool) => match s with | .imm v => 0 ≤ v && v < (2 ^ n : Nat) && f v.toNat | _ => false
  if (u = 8 && op < 2) || (u = 9 && op = 10) then grp
  else if u = 10 && op = 0 then field 10 fun v => decOk (decodeOp (headWord ⟨true, 0⟩ 0x1F0 2) (32 * v))
  else if u = 10 && op = 1 then field 10 fun v => decOk (decodeOp (headWord ⟨true, 0⟩ 0x1F1 2) (32 * v))
  else if u = 10 && op = 2 then field 16 fun v => decOk (decodeOp (headWord ⟨true, 0⟩ 0x0C0 1) v)
  else if u = 10 && op = 6 then field 16 fun _ => true
  else if u = 11 then (match s with | .imm _ => true | _ => false)
  else true

/-- What a destination counts as for reason 3: two triggers of one unit write its port o twice. -/
def writeKey : TDst → Nat
  | .name n => n
  | .trig u _ => tPort u 2

/-- Reasons 3, 4 and 5 over one group; `seen` are the destinations and `ctl` whether a CTL or TASK trigger came before. -/
def groupBads (ng : Nat) : List TMove → List Nat → Bool → List TBad
  | [], _, _ => []
  | m :: r, seen, ctl =>
    let key := writeKey m.dst
    let b3 := if seen.contains key then [(m.word, 3)] else []
    match m.dst with
    | .trig u op =>
      let t := u = 8 || u = 9
      b3 ++ (if t && ctl then [(m.word, 4)] else []) ++ (if fixedOk ng u op m.src then [] else [(m.word, 5)]) ++
        groupBads ng r (key :: seen) (ctl || t)
    | .name _ => b3 ++ groupBads ng r (key :: seen) ctl

/-! ### Control flow -/

/-- The triggers of a group that may leave it: unit, operation, guard and immediate. -/
def TGroup.exits (l : TGroup) : List (Nat × Nat × Nat × Nat) :=
  l.filterMap fun m => match m.dst with
    | .trig u op =>
      if u = 8 || (u = 9 && (op = 3 || op = 10)) || (u = 10 && op = 5) then
        some (u, op, m.g, match m.src with | .imm v => v.toNat | _ => 0)
      else none
    | _ => none

/-- A program: its groups and entries (`none` an absent trap handler). -/
structure TProg where
  groups : List TGroup
  entries : List (Option Nat)
  deriving DecidableEq, Repr

def TProg.ng (p : TProg) : Nat := p.groups.length
def TProg.grp (p : TProg) (g : Nat) : TGroup := p.groups.getD g []
/-- Groups at which execution begins: the entries, and the bodies of farms (R298). -/
def TProg.roots (p : TProg) : List Nat :=
  (p.entries.filterMap id ++ p.groups.flatMap fun l => (TGroup.exits l).filterMap fun x => if x.1 = 9 && x.2.1 = 10 then some x.2.2.2 else none)
    |>.eraseDups
/-- Whether control may pass from a group to the next. -/
def falls (l : TGroup) : Bool :=
  !((TGroup.exits l).any fun x => x.2.2.1 = 0 && !(x.1 = 9 && x.2.1 = 10) && !(x.1 = 8 && x.2.1 = 1))
/-- Targets of jumps, and of calls. -/
def jumpsOf (l : TGroup) : List Nat := (TGroup.exits l).filterMap fun x => if x.1 = 8 && x.2.1 = 0 then some x.2.2.2 else none
def callsOf (l : TGroup) : List Nat := (TGroup.exits l).filterMap fun x => if x.1 = 8 && x.2.1 = 1 then some x.2.2.2 else none
def returns (l : TGroup) : Bool := (TGroup.exits l).any fun x => x.1 = 8 && x.2.1 = 2
def guardedCall (l : TGroup) : Bool := (TGroup.exits l).any fun x => x.1 = 8 && x.2.1 = 1 && x.2.2.1 ≠ 0

/-- Repeats `f` until nothing changes, at most `fuel` times. -/
def settle {α : Type} [DecidableEq α] (f : α → α) : Nat → α → α
  | 0, x => x
  | n + 1, x => let y := f x; if y = x then x else settle f n y

/-- Groups reachable from some groups under a successor function. -/
def reachFrom (nx : Nat → List Nat) (n : Nat) (l : List Nat) : List Nat :=
  settle (fun s => (s ++ s.flatMap nx).eraseDups) (n + 1) l.eraseDups

/-- Successors of a group within its own routine: a call goes on behind itself. -/
def TProg.next (p : TProg) (g : Nat) : List Nat :=
  let l := p.grp g
  (jumpsOf l ++ if falls l && g + 1 < p.ng then [g + 1] else []).eraseDups

/-- The calls of a program: the group and its target. -/
def TProg.calls (p : TProg) : List (Nat × Nat) := (List.range p.ng).flatMap fun g => (callsOf (p.grp g)).map fun t => (g, t)
/-- The call of a group. -/
def TProg.callAt (p : TProg) (g : Nat) : Option Nat := (callsOf (p.grp g)).head?
/-- The groups of a routine, without those that it calls. -/
def TProg.routine (p : TProg) (t : Nat) : List Nat := reachFrom p.next p.ng [t]
/-- Groups that may follow a return: those behind a call of a routine that it ends. -/
def TProg.returnsTo (p : TProg) (g : Nat) : List Nat :=
  if returns (p.grp g) then (p.calls.filter fun c => c.1 + 1 < p.ng && (p.routine c.2).contains g).map fun c => c.1 + 1 else []

/-- Groups that a group may lead to without a return: a call leads to its target and to the group behind it. -/
def TProg.flow (p : TProg) (g : Nat) : List Nat := (p.next g ++ callsOf (p.grp g)).eraseDups
/-- Successors of a group. -/
def TProg.succ (p : TProg) (g : Nat) : List Nat := (p.flow g ++ p.returnsTo g).eraseDups

/-! ### Reason 7: a port read before any write (R375)

`in` facts are the ports that every path from an entry has surely written. A call adds what its target surely writes before
it returns. -/

def interN (a b : List Nat) : List Nat := a.filter b.contains
def unionN (a b : List Nat) : List Nat := a ++ b.filter fun x => !a.contains x

/-- Ports that a group surely writes: by moves, and by triggers. -/
def sureMoves (l : TGroup) : List Nat :=
  l.filterMap fun m => match m.dst with
    | .name n => if m.g = 0 && isTPort n then some n else none
    | _ => none
def sureOuts (l : TGroup) : List Nat :=
  l.filterMap fun m => match m.dst with
    | .trig u op => if m.g = 0 && opWrites u op then some (tPort u 2) else none
    | _ => none

/-- What each group surely writes, of ports. -/
def TProg.surePorts (p : TProg) : List (List Nat) := p.groups.map fun l => unionN (sureMoves l) (sureOuts l)

/-- One round of the analysis: `sure` is what each group surely writes, and `s` gives each call target what it surely writes before it
returns. -/
def TProg.mustStep (p : TProg) (sure : List (List Nat)) (s : List (Nat × List Nat)) (w : List (Option (List Nat))) : List (Option (List Nat)) :=
  (List.range p.ng).foldl (fun w g =>
    match w.getD g none with
    | none => w
    | some i =>
      let l := p.grp g
      let out := unionN i (sure.getD g [])
      let put := fun (w : List (Option (List Nat))) (j : Nat) (x : List Nat) =>
        w.set j (some (match w.getD j none with | none => x | some y => interN y x))
      let w := (jumpsOf l ++ callsOf l).foldl (fun w j => put w j out) w
      if g + 1 < p.ng && falls l then
        match callsOf l with
        | t :: _ =>
          let back := unionN out ((s.lookup t).getD [])
          put w (g + 1) (if guardedCall l then out else back)
        | [] => put w (g + 1) out
      else w) w

def TProg.mustFrom (p : TProg) (sure : List (List Nat)) (s : List (Nat × List Nat)) (roots : List Nat) : List (Option (List Nat)) :=
  settle (p.mustStep sure s) (200 + 20 * p.ng) ((List.range p.ng).map fun g => if roots.contains g then some [] else none)

/-- What each call target surely writes before it returns. -/
def TProg.summaries (p : TProg) (sure : List (List Nat)) : List (Nat × List Nat) :=
  let all := (sure.flatMap id).eraseDups
  let ts := (p.groups.flatMap callsOf).eraseDups
  settle (fun s => ts.map fun t =>
    let w := p.mustFrom sure s [t]
    (t, (p.routine t).foldl (fun acc g => match w.getD g none with
      | some i => if returns (p.grp g) then interN acc (unionN i (sure.getD g [])) else acc
      | none => acc) all)) (2 + 20 * ts.length) (ts.map fun t => (t, all))

def TProg.reason7 (p : TProg) : List TBad :=
  let w := p.mustFrom p.surePorts (p.summaries p.surePorts) p.roots
  (List.range p.ng).flatMap fun g => match w.getD g none with
    | none => []
    | some i =>
      let l := p.grp g
      let after := unionN i (sureMoves l)
      l.flatMap fun m =>
        (match m.src with | .name n => if isTPort n && !i.contains n then [(m.word, 7)] else [] | _ => []) ++
        (match m.dst with
          | .trig u op => if (opReads u op).any fun q => !after.contains (tPort u q) then [(m.word, 7)] else []
          | _ => [])

/-! ### What the native forms read

A value of the program at the point where a native operation reads it: an immediate, a name as it stood before the group, or
a port that a guarded move of the group may have written. -/

inductive TVal where
  | imm (v : Int)
  | at (n : Nat)
  | post (n : Nat)
  deriving DecidableEq, Repr

/-- Where a result goes. -/
inductive TDest where
  | none
  | name (n : Nat)
  | pair (k : Nat)
  deriving DecidableEq, Repr

inductive TKind where
  | copy (n : Nat)
  | pmove (k : Nat)
  | trig (u op : Nat)
  deriving DecidableEq, Repr

/-- An act of a group: a move into a register, a homed port or a predicate, or an operation. -/
structure TAct where
  word : Nat
  g : Nat
  kind : TKind
  b : TVal
  a : TVal
  c : TVal
  d : TVal
  e : TVal
  dst : TDest
  deriving DecidableEq, Repr

/-- The register fields of a V- or X-class operation's tail: bit position, and whether the field is a destination (the
layouts of the opcode map). -/
def natFields (op tail : Nat) : List (Nat × Bool) :=
  let bit := fun n => tail / 2 ^ n % 2 = 1
  let when := fun (c : Bool) (x : Nat × Bool) => if c then [x] else []
  if op = 0x101 then [(11, false)]
  else if op = 0x102 then [(0, true), (5, false)]
  else if (0x120 ≤ op && op ≤ 0x125) || op = 0x12B || (0x130 ≤ op && op ≤ 0x137) || (0x148 ≤ op && op ≤ 0x14B) ||
      (0x150 ≤ op && op ≤ 0x152) || op = 0x158 then when (bit 51) (22, false)
  else if 0x140 ≤ op && op ≤ 0x142 then [(0, true)]
  else if op = 0x153 then [(11, false)]
  else if op = 0x164 then [(0, true)]
  else if op = 0x165 then [(3, false)]
  else if op = 0x172 || op = 0x173 then [(11, false), (37, false)]
  else if 0x170 ≤ op && op ≤ 0x176 then [(11, false)]
  else if op = 0x180 || op = 0x192 then [(0, true), (5, false)]
  else if op = 0x181 || op = 0x193 then [(0, false)]
  else if op = 0x182 then [(5, false), (10, false)] ++ when (bit 22) (17, false)
  else if op = 0x183 || op = 0x18B then [(0, true)]
  else if op = 0x190 then [(0, false), (5, false), (10, false)] ++ when (bit 22) (23, false) ++ when (bit 28) (29, false)
  else if op = 0x191 then [(0, false), (5, false)]
  else []

def natField (tail p : Nat) : Nat := tail / 2 ^ p % 32

/-- The predicates that a NAT operation writes: those of TSET. -/
def natPreds (op tail : Nat) : List Nat := if op = 0x191 then [tail / 2 ^ 10 % 16, tail / 2 ^ 14 % 16] else []

/-- Arrival distance of a timed NAT operation; 0 for others. -/
def natDist (op tail : Nat) : Nat :=
  if op = 0x101 then tail / 2 ^ 23 % 4096
  else if op = 0x102 then tail / 2 ^ 14 % 4096
  else if op = 0x170 || op = 0x172 || op = 0x174 || op = 0x175 then tail / 2 ^ 25 % 4096
  else 0

def immNat : TVal → Nat
  | .imm v => (v % (2 ^ 64 : Nat)).toNat
  | _ => 0

def valNames : TVal → List Nat
  | .imm _ => []
  | .at n | .post n => [n]

def guardName (g : Nat) : List Nat := if g % 8 = 0 then [] else [tPred (g % 8)]

/-- Names that an act reads. -/
def TAct.reads (x : TAct) : List Nat :=
  let nat := match x.kind with
    | .trig 11 _ => (natFields (immNat x.d) (immNat x.b)).filterMap fun f => if f.2 then none else some (natField (immNat x.b) f.1)
    | _ => []
  valNames x.b ++ valNames x.a ++ valNames x.c ++ valNames x.d ++ valNames x.e ++ guardName x.g ++ nat

/-- Names that an act writes. -/
def TAct.writes (x : TAct) : List Nat :=
  match x.kind with
  | .copy n => [n]
  | .pmove k => [tPred k]
  | .trig 11 _ =>
    ((natFields (immNat x.d) (immNat x.b)).filterMap fun f => if f.2 then some (natField (immNat x.b) f.1) else none) ++
      (natPreds (immNat x.d) (immNat x.b)).flatMap guardName
  | .trig .. => match x.dst with
    | .none => []
    | .name n => [n]
    | .pair k => guardName k

/-! ### Bindings of operand ports (R426)

An operand port that a move has bound to a source reads the source's home until either is next written. A port that every write sets to
the same immediate reads that immediate. A fact holds at a group where it holds on every path. -/

abbrev TBind := List (Nat × TVal)

def bindMeet (a b : TBind) : TBind := a.filter fun x => b.contains x

/-- A move's source under the bindings that hold before the group. -/
def resolveSrc (b : TBind) : TSrc → TVal
  | .imm v => .imm v
  | .name n => match b.lookup n with
    | some v => v
    | none => .at n

/-- Ports that every write of the program sets to one immediate, which then needs no home; the opcode port of NAT is read by the translator
alone (R373, R426). -/
def TProg.constPorts (p : TProg) : List Nat :=
  let ws := p.groups.flatMap fun l => l.filterMap fun m => match m.dst with
    | .name n => if isTOperand n then some (n, m.src) else none
    | .trig .. => none
  ((ws.map fun w => w.1).eraseDups.filter fun n =>
    match ((ws.filter fun w => w.1 = n).map fun w => w.2 : List TSrc) with
    | .imm v :: r => r.all fun x => x = .imm v
    | _ => false) ++ [tPort 11 3]

/-- Names that a group writes. -/
def groupWrites (l : TGroup) : List Nat :=
  let d := (l.findSome? fun m => match m.dst, m.src with
    | .name n, .imm v => if n = tPort 11 3 then some v else none
    | _, _ => none).getD 0
  l.flatMap fun m => match m.dst, m.src with
    | .name n, _ => [n]
    | .trig 11 _, .imm v =>
      let t := immNat (.imm v)
      -- without the opcode in the group every register field counts
      if d = 0 then (List.range 32) else (natFields d.toNat t).filterMap fun f => if f.2 then some (natField t f.1) else none
    | .trig u op, _ => if opWrites u op then [tPort u 2] else []

/-- Bindings after a group. `bar` are the names that the trap handler's code may write, `const` the ports that an immediate may be bound to. -/
def bindOut (bar const : List Nat) (l : TGroup) (b : TBind) : TBind :=
  let b1 := l.foldl (fun acc m => match m.dst with
    | .name n =>
      if !isTOperand n then acc
      else
        let v := resolveSrc b m.src
        let rest := acc.filter fun x => x.1 ≠ n
        let binds : Bool := match v with | .imm _ => const.contains n | _ => decide (v ≠ .at n)
        if m.g = 0 then (if binds then (n, v) :: rest else rest)
        else if b.lookup n = some v then acc else rest
    | _ => acc) b
  let ws := groupWrites l
  b1.filter fun x => !bar.contains x.1 && (match x.2 with | .at n => !ws.contains n && !bar.contains n | _ => true)

def TProg.bindStep (p : TProg) (bar const : List Nat) (w : List (Option TBind)) : List (Option TBind) :=
  (List.range p.ng).foldl (fun w g => match w.getD g none with
    | none => w
    | some b =>
      let l := p.grp g
      let out := bindOut bar const l b
      let nx := jumpsOf l ++ callsOf l ++ p.returnsTo g ++
        (if falls l && g + 1 < p.ng && (callsOf l = [] || guardedCall l) then [g + 1] else [])
      nx.foldl (fun w j => w.set j (some (match w.getD j none with | none => out | some y => bindMeet y out))) w) w

/-- The groups of the trap handler that no other entry reaches. -/
def TProg.handlerGroups (p : TProg) : List Nat :=
  match p.entries.getD 1 none with
  | none => []
  | some h =>
    let others := reachFrom p.succ p.ng (p.roots.filter fun r => r ≠ h || p.entries.headD none = some h)
    (reachFrom p.succ p.ng [h]).filter fun g => !others.contains g

def TProg.bindings (p : TProg) : List TBind :=
  let bar := (p.handlerGroups.flatMap fun g => groupWrites (p.grp g)).eraseDups
  let w0 : List (Option TBind) := (List.range p.ng).map fun g => if p.roots.contains g then some [] else none
  (settle (p.bindStep bar p.constPorts) (200 + 20 * p.ng) w0).map fun x => x.getD []

/-- The acts of a group under the bindings before it; an immediate moved into a port that has a home is read from there. -/
def actsOf (const : List Nat) (b : TBind) (l : TGroup) : List TAct :=
  let port := fun (u q : Nat) =>
    let n := tPort u q
    match l.find? fun m => m.dst = .name n with
    | some m =>
      let v := resolveSrc b m.src
      let binds : Bool := match v with | .imm _ => const.contains n | _ => true
      if (m.g = 0 && binds) || b.lookup n = some v then v else .post n
    | none => match b.lookup n with
      | some v => v
      | none => .at n
  l.map fun m =>
    let v := resolveSrc b m.src
    match m.dst with
    | .name n =>
      ⟨m.word, m.g, if isTPred n then .pmove (n - 64) else .copy n, v, .imm 0, .imm 0, .imm 0, .imm 0, .none⟩
    | .trig u op =>
      let rd := fun q => if (opReads u op).contains q then port u q else .imm 0
      let bv := if opUsesB u op then v else match m.src with | .imm x => .imm x | _ => .imm 0
      ⟨m.word, m.g, .trig u op, bv, rd 0, rd 1, rd 3, rd 4, if opWrites u op then .name (tPort u 2) else .none⟩

/-! ### Liveness -/

abbrev TActs := List (List TAct)

/-- Names that a group needs before it, given those needed after it. -/
def liveBefore (l : List TAct) (out : List Nat) : List Nat :=
  let sure := l.flatMap fun x => if x.g = 0 then x.writes else []
  unionN (l.flatMap TAct.reads).eraseDups (out.filter fun n => !sure.contains n)

/-- What liveness takes from the routines of a program: for each call target, the names that it needs, and those that it surely writes before
it returns; and where each return leads. -/
structure TRoutines where
  needs : List (Nat × List Nat)
  kills : List (Nat × List Nat)
  back : List (List Nat)

/-- Names needed behind group `g`, given those needed before every group: a call needs what its target needs, and what is needed behind it
and the target does not surely write. -/
def TProg.needOut (p : TProg) (k : TRoutines) (live : Nat → List Nat) (g : Nat) : List Nat :=
  let l := p.grp g
  let on := (p.next g ++ k.back.getD g []).foldl (fun o j => unionN o (live j)) []
  match p.callAt g with
  | none => on
  | some t =>
    let kill := if guardedCall l then [] else (k.kills.lookup t).getD []
    unionN ((k.needs.lookup t).getD []) (on.filter fun n => !kill.contains n)

def TProg.liveStep (p : TProg) (k : TRoutines) (acts : TActs) (w : List (List Nat)) : List (List Nat) :=
  let n := acts.length
  (List.range n).foldl (fun w i =>
    let g := n - 1 - i
    w.set g (unionN (w.getD g []) (p.needOut k (fun j => liveBefore (acts.getD j []) (w.getD j [])) g))) w

def TProg.liveWith (p : TProg) (k : TRoutines) (acts : TActs) : List (List Nat) :=
  settle (p.liveStep k acts) (200 + 20 * acts.length) (acts.map fun _ => [])

/-- The routines of a program: what each needs is found with nothing needed behind its returns. -/
def TProg.routines (p : TProg) (acts : TActs) : TRoutines :=
  let ts := (p.groups.flatMap callsOf).eraseDups
  let sure := acts.map fun l => l.flatMap fun x => if x.g = 0 then x.writes else []
  let kills := p.summaries sure
  let needs := settle (fun s =>
    let lo := p.liveWith ⟨s, kills, []⟩ acts
    ts.map fun t => (t, liveBefore (acts.getD t []) (lo.getD t []))) (2 + 72 * ts.length) (ts.map fun t => (t, []))
  ⟨needs, kills, (List.range p.ng).map p.returnsTo⟩

/-- Names live after each group, on some path through calls and their own returns. -/
def TProg.liveOuts (p : TProg) (acts : TActs) : List (List Nat) := p.liveWith (p.routines acts) acts

/-- Moves into operand ports whose home nothing reads emit nothing (R426). -/
def TProg.dropMoves (p : TProg) (acts : TActs) : TActs :=
  let lo := p.liveOuts acts
  (List.range acts.length).map fun g => (acts.getD g []).filter fun x => match x.kind with
    | .copy n => !isTOperand n || (lo.getD g []).contains n || (acts.getD g []).any fun y =>
        [y.a, y.c, y.d, y.e].contains (.post n)
    | _ => true

/-! ### Fusion (R376) -/

/-- Follows the straight run from group `j` to the only read of port `o`: the group and the act that reads it. -/
def soleRead (p : TProg) (acts : TActs) (lo : List (List Nat)) (o : Nat) : Nat → Nat → Option (Nat × TAct)
  | 0, _ => none
  | f + 1, j =>
    if p.ng ≤ j || p.succ (j - 1) ≠ [j] || p.roots.contains j ||
        ((List.range p.ng).any fun g => g ≠ j - 1 && (p.succ g).contains j) then none
    else
      let l := acts.getD j []
      let rs := l.filter fun x => x.reads.contains o
      let redefined := l.any fun x => x.writes.contains o
      match rs with
      | [] => if redefined then none else soleRead p acts lo o f (j + 1)
      | [x] => if (lo.getD j []).contains o && !redefined then none
               else if x.g ≠ 0 || x.reads.count o ≠ 1 || (redefined && l.any fun y => y.writes.contains o && y.g ≠ 0) then none
               else some (j, x)
      | _ => none

/-- Whether `t` may hold the result of the trigger in group `g` from there to the move in group `h`. -/
def mayHold (p : TProg) (acts : TActs) (t g h : Nat) (mv : TAct) : Bool :=
  let hd := p.handlerGroups.flatMap fun i => (acts.getD i []).flatMap fun x => x.reads ++ x.writes
  !hd.contains t && !((acts.getD g []).any fun x => x.writes.contains t) &&
    (List.range (h - g)).all fun i =>
      (acts.getD (g + 1 + i) []).all fun x => x.word = mv.word || !(x.reads.contains t || x.writes.contains t)

/-- Fuses the outputs of a group: a result that moves only to one Turis register goes to it, and a compare whose result
moves only to bk writes pk and p(k + 8). -/
def fuseAt (p : TProg) (acts : TActs) (g : Nat) : TActs :=
  (acts.getD g []).foldl (fun acts x => match x.kind, x.dst with
    | .trig u op, .name o =>
      if x.g ≠ 0 || !isTOut o then acts
      else
        let lo := p.liveOuts acts
        let upd := fun (acts : TActs) (d : TDest) =>
          acts.set g ((acts.getD g []).map fun y => if y.word = x.word then { y with dst := d } else y)
        let del := fun (acts : TActs) (h w : Nat) => acts.set h ((acts.getD h []).filter fun y => y.word ≠ w)
        if isCompare u op && !(lo.getD g []).contains o then upd acts (.pair 0)
        else
          match soleRead p acts lo o p.ng (g + 1) with
          | none => acts
          | some (h, mv) =>
            match mv.kind with
            | .copy t =>
              if isTReg t && mv.b = .at o && !isCompare u op && mayHold p acts t g h mv then del (upd acts (.name t)) h mv.word else acts
            | .pmove k =>
              if mv.b = .at o && isCompare u op && mayHold p acts (tPred k) g h mv then del (upd acts (.pair k)) h mv.word else acts
            | _ => acts
    | _, _ => acts) acts

def fuseAll (p : TProg) (acts : TActs) : TActs := (List.range p.ng).foldl (fun a g => fuseAt p a g) acts

end Sys2Proof.Machine
end

