-- ==== Sys2Proof/Machine/TurisPlan.lean ====
section
/-! DEFINITION. Where a translated Turis program keeps its registers and ports, group by group: homes, spill slots, reloads, and what passes through calls (R376, R377, R426, R427). -/

namespace Sys2Proof.Machine

/-! ### Ports in classes (R426) -/

inductive THome where
  | x (r : Nat)
  | slot (k : Nat)
  deriving DecidableEq, Repr

/-- What the choice of homes looks at: per group its acts, the names live after and before it, where execution begins, and the trap handler's
groups. -/
structure TFacts where
  prog : TProg
  acts : TActs
  lout : List (List Nat)
  lin : List (List Nat)
  roots : List Nat
  handler : List Nat

/-- Whether a group's writes keep two ports apart: one is written while the other is live or written, except by a move of one into the
other. -/
def apartIn (f : TFacts) (g n m : Nat) : Bool :=
  let l := f.acts.getD g []
  let out := f.lout.getD g []
  let ws := l.flatMap TAct.writes
  let one := fun a b => ws.contains a && (out.contains b || ws.contains b) &&
    !(l.any fun x => x.kind = .copy a && x.g = 0 && x.b = .at b && !ws.contains b)
  one n m || one m n

def accessed (f : TFacts) (gs : List Nat) (n : Nat) : Bool :=
  gs.any fun g => (f.acts.getD g []).any fun x => x.reads.contains n || x.writes.contains n

/-- Whether two ports need different homes. -/
def TFacts.apart (f : TFacts) (n m : Nat) : Bool :=
  let all := List.range f.acts.length
  n ≠ m && (all.any (fun g => apartIn f g n m) ||
    f.roots.any (fun r => (f.lin.getD r []).contains n && (f.lin.getD r []).contains m) ||
    (f.handler ≠ [] &&
      let rest := all.filter fun g => !f.handler.contains g
      (accessed f f.handler n && accessed f rest m) || (accessed f f.handler m && accessed f rest n)))

/-- Word of the next read of a name after word `w`, words before it counting as later. -/
def TFacts.nextRead (f : TFacts) (n w : Nat) : Nat :=
  let rs := f.acts.flatMap fun l => l.filterMap fun x => if x.reads.contains n then some x.word else none
  let big := 2 ^ 20
  match rs.filter fun r => w < r with
  | r :: _ => r
  | [] => match rs with
    | r :: _ => big + r
    | [] => 2 * big

/-- Names in the order of their first write, with the word; names never written come last. -/
def TFacts.firstWrites (f : TFacts) (keep : Nat → Bool) : List (Nat × Nat) :=
  let ws := f.acts.flatMap fun l => l.flatMap fun x => (x.writes.filter keep).map fun n => (n, x.word)
  let rs := f.acts.flatMap fun l => l.flatMap fun x => (x.reads.filter keep).map fun n => (n, 2 ^ 20)
  (ws ++ rs).foldl (fun acc x => if acc.any fun y => y.1 = x.1 then acc else acc ++ [x]) []

/-- A class of ports that share a home, with the word of its first write. Its first member stands for it. -/
structure TClass where
  members : List Nat
  first : Nat
  deriving DecidableEq, Repr

def TClass.name (c : TClass) : Nat := c.members.headD 0

def classApart (f : TFacts) (a b : TClass) : Bool := a.members.any fun n => b.members.any fun m => f.apart n m

/-- Ports in classes: an output that moves into an operand port of its own unit shares that port's home (R426). -/
def TFacts.portClasses (f : TFacts) : List TClass :=
  let fw := f.firstWrites isTPort
  let single := fw.map fun x => (⟨[x.1], x.2⟩ : TClass)
  let pairs := (f.acts.flatMap fun l => l.filterMap fun x => match x.kind, x.b with
    | .copy q, .at o => if isTOut o && isTOperand q && q / 8 = o / 8 then some (o, q) else none
    | _, _ => none).eraseDups
  let merged := pairs.foldl (fun cs x =>
    match cs.find? fun c => c.members.contains x.1, cs.find? fun c => c.members.contains x.2 with
    | some a, some b =>
      if a = b || classApart f a b then cs
      else (cs.filter fun c => c ≠ a && c ≠ b) ++ [⟨a.members ++ b.members, min a.first b.first⟩]
    | _, _ => cs) single
  merged.mergeSort fun a b => a.first ≤ b.first

/-- Registers that hold Turis registers, in the order in which they are taken (R427), and those that hold ports (R426). -/
def regPool : List Nat := (List.range 14).map (· + 3) ++ [1, 2]
def portPool : List Nat := (List.range 13).map (· + 17)

/-- The homes that ports have for good: the lowest register of x17 to x29 that no class before has taken, in order of first write, or, once
all have been taken, the lowest that is free for the class; a class that finds none takes one that is free for a while. -/
def stickyHomes (f : TFacts) : List TClass → List (TClass × Nat) → List (TClass × Nat)
  | [], acc => acc
  | c :: cs, acc =>
    let untouched := portPool.find? fun r => acc.all fun x => x.2 ≠ r
    let free := portPool.find? fun r => acc.all fun x => x.2 ≠ r || !classApart f x.1 c
    match untouched.orElse fun _ => free with
    | some r => stickyHomes f cs (acc ++ [(c, r)])
    | none => stickyHomes f cs acc

/-! ### Maps of homes -/

/-- Where names are: Turis registers and port classes. -/
abbrev TMap := List (Nat × THome)

def TMap.put (m : TMap) (n : Nat) (h : THome) : TMap := (m.filter fun x => x.1 ≠ n) ++ [(n, h)]
def TMap.del (m : TMap) (n : Nat) : TMap := m.filter fun x => x.1 ≠ n
def TMap.keep (m : TMap) (l : List Nat) : TMap := m.filter fun x => l.contains x.1
def TMap.names (m : TMap) : List Nat := m.map fun x => x.1
def TMap.holds (m : TMap) (h : THome) : Bool := m.any fun x => x.2 = h
/-- One more than the greatest slot of a map. -/
def TMap.slots (m : TMap) : Nat := m.foldl (fun k x => match x.2 with | .slot i => max k (i + 1) | .x _ => k) 0

/-- The lowest of `pool` that a map does not hold. -/
def TMap.freeReg (m : TMap) (pool : List Nat) : Option Nat := pool.find? fun r => !m.holds (.x r)
/-- The lowest slot that no map holds. -/
def freeSlot (ms : List TMap) : Nat :=
  let top := ms.foldl (fun k m => max k m.slots) 0
  ((List.range top).find? fun k => ms.all fun m => !m.holds (.slot k)).getD top

/-! ### What a plan rests on -/

/-- What the plan of a program rests on: its port classes and their homes, the names that the trap handler shares with the rest, which keep one
home, the homes in which names pass through calls, and the spills that temporaries force: a port class and its group. -/
structure TBase where
  f : TFacts
  classes : List TClass
  sticky : List (Nat × Nat)
  pinned : TMap
  conv : TMap
  forced : List (Nat × Nat)

/-- The name that stands for a register or port. -/
def TBase.lead (c : TBase) (n : Nat) : Nat :=
  if isTPort n then ((c.classes.find? fun k => k.members.contains n).map TClass.name).getD n else n
def TBase.members (c : TBase) (n : Nat) : List Nat := ((c.classes.find? fun k => k.name = n).map TClass.members).getD [n]

def isHomed (n : Nat) : Bool := isTReg n || isTPort n
def TBase.leads (c : TBase) (l : List Nat) : List Nat := ((l.filter isHomed).map c.lead).eraseDups

def TBase.acts (c : TBase) (g : Nat) : List TAct := c.f.acts.getD g []
def TBase.liveIn (c : TBase) (g : Nat) : List Nat := c.leads (c.f.lin.getD g [])
def TBase.liveOut (c : TBase) (g : Nat) : List Nat := c.leads (c.f.lout.getD g [])
def TBase.reads (c : TBase) (g : Nat) : List Nat := c.leads ((c.acts g).flatMap TAct.reads)
/-- Names that a group writes, with the word of the first write and whether each write is sure. -/
def TBase.writes (c : TBase) (g : Nat) : List (Nat × Nat × Bool) :=
  let ws := (c.acts g).flatMap fun x => (c.leads x.writes).map fun n => (n, x.word, decide (x.g = 0))
  (c.leads ((c.acts g).flatMap TAct.writes)).map fun n =>
    let mine := ws.filter fun w => w.1 = n
    (n, (mine.headD (0, 0, true)).2.1, mine.all fun w => w.2.2)
/-- Ports that an operation of the group reads after a move of the same group. -/
def TBase.postReads (c : TBase) (g : Nat) : List Nat :=
  c.leads ((c.acts g).flatMap fun x => [x.b, x.a, x.c, x.d, x.e].flatMap fun v => match v with | .post n => [n] | _ => [])

/-- How far in move order the next read of a name lies. -/
def TBase.far (c : TBase) (n w : Nat) : Nat := ((c.members n).map fun m => c.f.nextRead m w).foldl min (3 * 2 ^ 20)

/-- The registers that a name may take, in order: a Turis register the lowest of x3 to x16, and x1 and x2 where they are free; a port its own
home, then those that are no port's, then any. -/
def TBase.pool (c : TBase) (n : Nat) : List Nat :=
  let ok := fun r => !c.pinned.holds (.x r)
  if isTReg n then regPool.filter ok
  else
    let mine := (c.sticky.lookup n).toList
    mine ++ (portPool.filter fun r => ok r && !(c.sticky.any fun x => x.2 = r)) ++ portPool.filter ok

/-- Names accessed in a routine and in those that it calls. -/
def TBase.accessed (c : TBase) (t : Nat) : List Nat :=
  c.leads ((reachFrom c.f.prog.flow c.f.prog.ng [t]).flatMap fun g => (c.acts g).flatMap fun x => x.reads ++ x.writes)

/-! ### Entries of groups -/

/-- Gives a home to each name that is live at a group's entry and that no path has brought there, but for those that only pass through a routine
in a slot of its caller. -/
def TBase.fill (c : TBase) (g : Nat) (m : TMap) : TMap :=
  (c.liveIn g).foldl (fun m n =>
    let away := (match c.conv.lookup n with | some (.slot _) => true | _ => false) && !(c.accessed g).contains n
    if (m.lookup n).isSome || (c.pinned.lookup n).isSome || away then m
    else
      match m.freeReg (c.pool n) with
      | some r => m.put n (.x r)
      | none => m.put n (.slot (freeSlot [m, c.pinned]))) (m.keep (c.liveIn g))

/-- The entry that a group has whatever leads to it: t0 and t1 in x1 and x2 where execution begins, and the homes of passing through calls where
a routine begins. -/
def TBase.fixedEntry (c : TBase) (g : Nat) : Option TMap :=
  let free := fun m : TMap => m.filter fun x => (c.pinned.lookup x.1).isNone
  if c.f.roots.contains g then some (c.fill g (free [(0, .x 1), (1, .x 2)]))
  else if c.f.prog.calls.any fun x => x.2 = g then
    let seen := c.accessed g
    some (c.fill g (c.conv.filter fun x => match x.2 with | .x _ => true | .slot _ => seen.contains x.1))
  else none

/-! ### One group -/

/-- A group under way: the homes that its reads find, those after its writes, and the moves made before it. -/
structure TStep where
  mid : TMap
  out : TMap
  pre : List (THome × THome)

/-- A home for a name that group `g` makes live at word `w`: a free register, or that of the held name which the group does not touch and whose
next read lies farthest, which is stored before the group; or a slot, where the name's own next read lies farthest (R427). -/
def TBase.take (c : TBase) (g n w : Nat) (start : TMap) (s : TStep) : TStep :=
  let pool := c.pool n
  match s.out.freeReg pool with
  | some r => { s with out := s.out.put n (.x r) }
  | none =>
    let busy := c.reads g ++ (c.writes g).map fun x => x.1
    let held := s.out.filterMap fun x => match x.2 with
      | .x r => if pool.contains r && !busy.contains x.1 then some (x.1, r) else none
      | .slot _ => none
    let k := freeSlot [start, s.mid, s.out, c.pinned]
    let best := held.foldl (fun (b : Option (Nat × Nat)) x => match b with
      | none => some x
      | some y => if c.far y.1 w < c.far x.1 w then some x else b) none
    match best with
    | some (v, r) =>
      if c.far n w < c.far v w then
        { mid := s.mid.put v (.slot k), out := (s.out.put v (.slot k)).put n (.x r), pre := s.pre ++ [(.x r, .slot k)] }
      else { s with out := s.out.put n (.slot k) }
    | none => { s with out := s.out.put n (.slot k) }

/-- A group from its entry: forced spills, reloads of Turis registers that it reads and for which a register is free, and homes for what it
writes. -/
def TBase.step (c : TBase) (g : Nat) (start : TMap) : TStep :=
  let s : TStep := ⟨start, start, []⟩
  let s := (c.forced.filter fun x => x.1 = g).foldl (fun s x => match s.out.lookup x.2 with
    | some (.x r) =>
      let k := freeSlot [start, s.mid, s.out, c.pinned]
      { mid := s.mid.put x.2 (.slot k), out := s.out.put x.2 (.slot k), pre := s.pre ++ [(.x r, .slot k)] }
    | _ => s) s
  let s := ((c.reads g).filter isTReg).foldl (fun s n => match s.mid.lookup n with
    | some (.slot k) => match s.mid.freeReg (c.pool n) with
      | some r => { mid := s.mid.put n (.x r), out := s.out.put n (.x r), pre := s.pre ++ [(.slot k, .x r)] }
      | none => s
    | _ => s) s
  let need := c.liveOut g ++ c.postReads g
  let s := { s with out := s.out.keep need }
  (c.writes g).foldl (fun s x =>
    if !need.contains x.1 || (c.pinned.lookup x.1).isSome then s
    else match s.out.lookup x.1 with
      | some (.x _) => s
      | some (.slot _) => if x.2.2 && !c.forced.contains (g, x.1) then c.take g x.1 x.2.1 start { s with out := s.out.del x.1 } else s
      | none =>
        if c.forced.contains (g, x.1) then { s with out := s.out.put x.1 (.slot (freeSlot [start, s.mid, s.out, c.pinned])) }
        else c.take g x.1 x.2.1 start s) s

/-! ### Calls (R376) -/

/-- Where names go before a call from homes `m` to a routine whose entry is `e`, the slots of the caller's own frame, by which sp is lowered, and
the homes behind the call. A name that the routine does not touch and that has no register to pass in stays in the caller's frame. -/
structure TCall where
  before : TMap
  frame : Nat
  after : TMap

def shiftHome (k : Nat) : THome → THome
  | .x r => .x r
  | .slot j => .slot (k + j)

def TBase.callMaps (c : TBase) (g t : Nat) (m e : TMap) : TCall :=
  let seen := c.accessed t
  -- a name that the routine only writes passes too: a guarded call may leave it as it was
  let way := fun n => (e.lookup n).orElse fun _ => if seen.contains n then c.conv.lookup n else none
  let stay := (m.filter fun x => (way x.1).isNone).foldl (fun (acc : TMap) x => match x.2 with
    | .slot k => acc.put x.1 (.slot k)
    | .x _ => acc.put x.1 (.slot (freeSlot [m, acc]))) []
  let frame := stay.slots
  let pass := m.filterMap fun x => (way x.1).map fun h => (x.1, shiftHome frame h)
  let after := (c.liveIn (g + 1)).filterMap fun n => match stay.lookup n with
    | some h => some (n, h)
    | none => (c.conv.lookup n).map fun h => (n, shiftHome frame h)
  ⟨stay ++ pass, frame, after⟩

/-- The homes in which names pass through calls: those that some routine touches first. -/
def convHomes (c : TBase) : TMap :=
  let p := c.f.prog
  let through := c.leads (p.calls.flatMap fun x => c.f.lin.getD x.2 [] ++ c.f.lin.getD (x.1 + 1) [])
  let seen := (p.calls.flatMap fun x => c.accessed x.2).eraseDups
  let order := (through.filter seen.contains) ++ through.filter fun n => !seen.contains n
  let order := (order.filter (· < 2)) ++ order.filter (2 ≤ ·)
  order.foldl (fun m n =>
    if (c.pinned.lookup n).isSome then m
    else
      let pool := (if n < 2 then [n + 1] else []) ++ c.pool n
      match m.freeReg pool with
      | some r => m.put n (.x r)
      | none => m.put n (.slot (freeSlot [m, c.pinned]))) []

/-- The names that the trap handler touches keep one home throughout: what a trap interrupts finds them there. -/
def pinnedHomes (c : TBase) : TMap :=
  let names := c.leads (c.f.handler.flatMap fun g => (c.acts g).flatMap fun x => x.reads ++ x.writes)
  names.foldl (fun m n =>
    -- two ports at most, so that the temporaries of a group find registers
    let pool :=
      if n < 2 then [n + 1] else if isTReg n then (List.range 14).map (· + 3)
      else if (m.filter fun x => isTPort x.1).length < 2 then (c.sticky.lookup n).toList ++ portPool else []
    match m.freeReg pool with
    | some r => m.put n (.x r)
    | none => m.put n (.slot (freeSlot [m]))) []

/-! ### The plan -/

/-- The plan of a program, group by group: homes at entry, those that its reads find, those after it, the moves made before it, and, for a group
that calls, its call. -/
structure TPlan where
  entry : List TMap
  mid : List TMap
  out : List TMap
  pre : List (List (THome × THome))
  call : List (Option TCall)

/-- A plan under way: the entries known so far. -/
structure TPass where
  known : List (Option TMap)
  plan : TPlan

/-- Plans the next group. -/
def TBase.passStep (c : TBase) (s : TPass) (g : Nat) : TPass :=
  let p := c.f.prog
  let last := s.plan.out.getLastD []
  let e := match c.fixedEntry g with
    | some m => m
    | none => c.fill g ((s.known.getD g none).getD last)
  let t := c.step g e
  let call := (p.callAt g).map fun x => c.callMaps g x (t.out.keep (c.liveOut g)) ((c.fixedEntry x).getD [])
  let on := (t.out.keep (c.liveOut g))
  let put := fun (k : List (Option TMap)) (h : Nat) (m : TMap) => if (k.getD h none).isSome then k else k.set h (some m)
  let known := (jumpsOf (p.grp g)).foldl (fun k h => put k h on) s.known
  let known := if falls (p.grp g) then put known (g + 1) (match call with | some x => x.after | none => on) else known
  ⟨known, { entry := s.plan.entry ++ [e], mid := s.plan.mid ++ [t.mid], out := s.plan.out ++ [t.out], pre := s.plan.pre ++ [t.pre],
            call := s.plan.call ++ [call] }⟩

def TBase.plan (c : TBase) : TPlan :=
  ((List.range c.f.prog.ng).foldl c.passStep ⟨(List.range (c.f.prog.ng + 1)).map fun _ => none, ⟨[], [], [], [], []⟩⟩).plan

/-- The base of a program, with the forced spills. -/
def TFacts.base (f : TFacts) (forced : List (Nat × Nat)) : TBase :=
  let classes := f.portClasses
  let sticky := (stickyHomes f classes []).map fun x => (x.1.name, x.2)
  let c : TBase := ⟨f, classes, sticky, [], [], forced⟩
  let c := { c with pinned := pinnedHomes c }
  { c with conv := convHomes c }

/-- The home of a name in a map of the plan. -/
def TBase.home (c : TBase) (m : TMap) (n : Nat) : Option THome :=
  let k := c.lead n
  (c.pinned.lookup k).orElse fun _ => m.lookup k

/-- Slots that a plan uses, in the frame of the group that uses most. -/
def TPlan.slots (p : TPlan) (c : TBase) : Nat :=
  let call := (p.call.filterMap id).foldl (fun k x => max k (max x.before.slots x.after.slots)) 0
  (p.entry ++ p.mid ++ p.out ++ [c.conv, c.pinned]).foldl (fun k m => max k m.slots) call

/-! ### Moves between homes -/

/-- Puts moves that happen at once in an order in which each may be made alone; a cycle goes through the slot `scratch`. -/
def orderMoves (scratch : Nat) : Nat → List (THome × THome) → List (THome × THome)
  | 0, _ => []
  | f + 1, l =>
    match l.filter fun x => x.1 ≠ x.2 with
    | [] => []
    | x :: r =>
      let l := x :: r
      match l.find? fun y => !(l.any fun z => z ≠ y && z.1 = y.2) with
      | some y => y :: orderMoves scratch f (l.filter fun z => z ≠ y)
      | none => (x.1, .slot scratch) :: orderMoves scratch f ((.slot scratch, x.2) :: r)

/-- The moves that take names from homes `m` to homes `e`. -/
def movesTo (scratch : Nat) (m e : TMap) : List (THome × THome) :=
  let l := m.filterMap fun x => (e.lookup x.1).map fun h => (x.2, h)
  orderMoves scratch (2 * l.length + 1) l

end Sys2Proof.Machine
end

