-- ==== Sys2Proof/Machine/TurisCode.lean ====
section
/-! DEFINITION. The native operations of a translated Turis program, their order, bundles and lines (R376, R377, R426, R428). -/

namespace Sys2Proof.Machine

/-! ### Native operations

Registers from 64 up are temporaries, those from 4096 up the targets of reloads; 32 stands for LIVEMASK. -/

structure NOp where
  op : Nat
  base : Nat
  rs : List (Nat × Nat × Bool) := []
  ds : List (Nat × Nat) := []
  g : Nat := 0
  ps : List (Nat × Bool) := []
  pd : List Nat := []
  tgt : Option Nat := none
  dist : Nat := 0
  phase : Nat := 0
  eff : Bool := false
  shut : Bool := false

def immLow (w : Nat) (v : Int) : Nat := (v % (2 ^ w : Nat)).toNat
def fitsS (w : Nat) (v : Int) : Bool := -(2 ^ (w - 1) : Nat) ≤ v && v < ((2 ^ (w - 1) : Nat) : Int)

def nAddi (d : Nat) (a : Nat × Bool) (v : Int) (g : Nat := 0) : NOp :=
  { op := 0x003, base := immLow 22 v * 2 ^ 10, rs := [(5, a)], ds := [(0, d)], g := g }

/-- An immediate into a register: MOVI, with MOVT for a full 64-bit value (R75). -/
def nImm (d : Nat) (v : Int) (g : Nat := 0) : List NOp :=
  let m : NOp := { op := 0x018, base := immLow 59 v * 32, ds := [(0, d)], g := g }
  if fitsS 59 v then [m]
  else [m, { op := 0x019, base := (immLow 64 v / 2 ^ 48) * 2 ^ 10 + 3 * 2 ^ 26, rs := [(5, d, true)], ds := [(0, d)], g := g }]

/-- A move of an immediate into a home. -/
def nMoveImm (d : Nat) (v : Int) (g : Nat) : List NOp := if fitsS 22 v then [nAddi d (0, false) v g] else nImm d v g

def nSel (d p : Nat) (pPost : Bool) (a b : Nat × Bool) : NOp :=
  { op := 0x01A, base := p * 2 ^ 15, rs := [(5, a), (10, b)], ds := [(0, d)], ps := [(p, pPost)] }

/-- CMPNE pk, p(k + 8), xa, x0 (R376). -/
def nSetPred (k : Nat) (a : Nat × Bool) (g : Nat) : NOp :=
  { op := 0x021, base := k * 2 ^ 10 + (k + 8) * 2 ^ 14, rs := [(0, a), (5, 0, false)], g := g, pd := [k, k + 8], phase := 1 }

/-- A slot of the spill area: T offset sp − 8(k + 1) (R376). -/
def slotDisp (k : Nat) : Nat := immLow 24 (-8 * (k + 1 : Int))
def nReload (d k : Nat) : NOp :=
  { op := 0x080, base := 4 * 2 ^ 16 + slotDisp k * 2 ^ 28, rs := [(5, 31, true)], ds := [(0, d)], dist := 4, eff := true }
def nSpill (a : Nat × Bool) (k g : Nat) : NOp :=
  { op := 0x081, base := slotDisp k * 2 ^ 28, rs := [(0, a), (5, 31, true)], g := g, eff := true }

/-- Moves between homes, in order; one from slot to slot goes through x30. -/
def moveOps (phase : Nat) (l : List (THome × THome)) : List NOp :=
  (l.flatMap fun x => match x with
    | (.x a, .x b) => [nAddi b (a, true) 0]
    | (.x a, .slot k) => [nSpill (a, true) k 0]
    | (.slot k, .x b) => [nReload b k]
    | (.slot k, .slot j) => [nReload 30 k, nSpill (30, true) j 0]).map fun o => { o with phase := phase }

/-- The operations of a group as they are collected: the next temporary and reload number, the immediates in temporaries,
and the keys of temporaries. -/
structure TEmit where
  ops : List NOp := []
  next : Nat := 64
  rel : Nat := 4096
  imms : List (Int × Nat) := []
  keys : List (Nat × Nat × Nat) := []

def TEmit.add (e : TEmit) (l : List NOp) : TEmit := { e with ops := e.ops ++ l }
/-- A new temporary; `key` lets later groups use the same register again. -/
def TEmit.temp (e : TEmit) (key : Nat × Nat) : Nat × TEmit := (e.next, { e with next := e.next + 1, keys := (e.next, key) :: e.keys })

/-- What emission knows of a group: the homes that reads and writes find, and, where the group reads memory alone, the slots to which what it
reads has been copied. -/
structure TCtx where
  hin : Nat → Option THome
  hout : Nat → Option THome
  snap : Option (Nat → Option Nat)
  lout : List Nat
  /-- predicates that the group writes, and those that it reads -/
  pw : List Nat
  pr : List Nat
  /-- where a guarded jump or return goes first -/
  target : Option Nat
  liveMask : Nat

/-- An immediate in a register, which later operations of the group find there unless the group reads memory alone. -/
def TEmit.immReg (k : TCtx) (e : TEmit) (v : Int) : (Nat × Bool) × TEmit :=
  if v = 0 then ((0, false), e)
  else
    match e.imms.lookup v with
    | some r => ((r, true), e)
    | none =>
      let (t, e) := e.temp (1, (v % (2 ^ 64 : Nat)).toNat)
      ((t, true), { (e.add (nImm t v)) with imms := if k.snap.isNone then (v, t) :: e.imms else e.imms })

/-- A slot's value in a register, read where the group stands. -/
def TEmit.reload (e : TEmit) (s : Nat) : (Nat × Bool) × TEmit :=
  ((e.rel, true), { e with rel := e.rel + 1, ops := e.ops ++ [nReload e.rel s] })

/-- A value in a register: the register, and whether an earlier operation of the group writes it. -/
def TEmit.reg (k : TCtx) (v : TVal) (e : TEmit) : (Nat × Bool) × TEmit :=
  match v with
  | .imm i => e.immReg k i
  | .at n | .post n =>
    let post := decide (v = .post n)
    if isTPred n then
      let (one, e) := e.immReg k 1
      let (t, e) := e.temp (2, 0)
      ((t, true), e.add [nSel t (n - 64) false one (0, false)])
    else
      match k.snap with
      | some snap =>
        if post then
          match k.hout n with
          | some (.x r) => ((r, true), e)
          | some (.slot s) => e.reload s
          | none => ((0, false), e)
        else match snap n with
          | some s => e.reload s
          | none => ((0, false), e)
      | none =>
        match if post then k.hout n else k.hin n with
        | some (.x r) => ((r, post), e)
        | some (.slot s) =>
          -- a read of the state before the group comes before the group's spills
          if post then e.reload s else ((e.rel, true), { e with rel := e.rel + 1, ops := nReload e.rel s :: e.ops })
        | none => ((0, false), e)

/-- Where an operation writes a name, and what must follow it. -/
def TEmit.dest (k : TCtx) (d : TDest) (g : Nat) (e : TEmit) : Nat × List NOp × TEmit :=
  match d with
  | .name n =>
    match k.hout n with
    | some (.x r) => (r, [], e)
    | some (.slot s) => let (t, e) := e.temp (3, 0); (t, [nSpill (t, true) s g], e)
    | none => (0, [], e)
  | _ => (0, [], e)

/-- An operation of layout A3. -/
def TEmit.op3 (k : TCtx) (op : Nat) (x y : TVal) (d : TDest) (g : Nat) (e : TEmit) (base : Nat := 0) (dist : Nat := 0) : TEmit :=
  let (a, e) := e.reg k x
  let (b, e) := e.reg k y
  let (t, post, e) := e.dest k d g
  e.add ({ op := op, base := base, rs := [(5, a), (10, b)], ds := [(0, t)], g := g, dist := dist } :: post)

/-- An operation with one source. -/
def TEmit.op2 (k : TCtx) (op base : Nat) (x : TVal) (d : TDest) (g : Nat) (e : TEmit) : TEmit :=
  let (a, e) := e.reg k x
  let (t, post, e) := e.dest k d g
  e.add ({ op := op, base := base, rs := [(5, a)], ds := [(0, t)], g := g } :: post)

/-- An operation with a 22-bit immediate. -/
def TEmit.opI (k : TCtx) (op : Nat) (x : TVal) (v : Int) (w : Nat) (d : TDest) (g : Nat) (e : TEmit) : TEmit :=
  e.op2 k op (immLow w v * 2 ^ 10) x d g

/-- The native compare of an operation, writing predicates `pk` and `pc`. -/
def TEmit.cmp (k : TCtx) (u op pk pc : Nat) (x y : TVal) (g : Nat) (phase : Nat) (e : TEmit) : TEmit :=
  let pf := pk * 2 ^ 10 + pc * 2 ^ 14
  let pd := [pk, pc].filter (· ≠ 0)
  let imm := fun (op : Nat) (v : Int) (x : TVal) =>
    let (a, e) := e.reg k x
    e.add [{ op := op, base := pf + immLow 14 v * 2 ^ 18, rs := [(0, a)], g := g, pd := pd, phase := phase }]
  let plain := fun (op : Nat) =>
    let (a, e) := e.reg k x
    let (b, e) := e.reg k y
    e.add [{ op := op, base := pf, rs := [(0, a), (5, b)], g := g, pd := pd, phase := phase }]
  if u < 2 then
    match op, x, y with
    | 12, _, .imm v => if fitsS 14 v then imm 0x026 v x else plain 0x020
    | 12, .imm v, _ => if fitsS 14 v then imm 0x026 v y else plain 0x020
    | 12, _, _ => plain 0x020
    | 13, _, .imm v => if fitsS 14 v then imm 0x027 v x else plain 0x022
    | 13, _, _ => plain 0x022
    | _, _, _ => plain 0x023
  else plain (0x038 + (op - 8))

/-- 1 or 0 from a predicate pair that the group has just written. -/
def TEmit.fromPred (k : TCtx) (p : Nat) (d : TDest) (g phase : Nat) (e : TEmit) : TEmit :=
  let (t, post, e) := e.dest k d g
  e.add (({ nAddi t (0, false) 0 g with phase := phase } ::
    { nAddi t (0, false) 1 p with phase := phase, ps := [(p, true)] } :: (post.map fun o => { o with phase := phase })))

/-- The predicate that receives a compare whose result no predicate receives, and what follows its use: one that nothing needs at this point, or
else the complement of one, which is made again behind. -/
def TCtx.scratchPred (k : TCtx) (g : Nat) : Nat × List NOp :=
  match ((List.range 7).map (· + 1)).find? fun i => !k.lout.contains (tPred i) && !k.pw.contains i && !k.pr.contains i && i ≠ g % 8 with
  | some p => (p, [])
  | none =>
    let p := if g % 8 = 1 then 2 else 1
    (p + 8, [{ op := 0x02B, base := p + 8 + p * 16, pd := [p + 8], ps := [(p, true)], shut := true }])

/-- PNOT p, p0, which clears a predicate; `shut` where the group's other operations may read it. -/
def nClear (p phase : Nat) (shut : Bool) : NOp := { op := 0x02B, base := p, pd := [p], phase := phase, shut := shut }

/-- A compare whose result goes to a register or a port. -/
def TEmit.cmpValue (k : TCtx) (u op : Nat) (x y : TVal) (d : TDest) (g : Nat) (e : TEmit) : TEmit :=
  let (p, back) := k.scratchPred g
  (((e.add [nClear p 0 (back ≠ [])]).cmp k u op p 0 x y g 0).fromPred k p d g 0).add back

/-- Widths of LSU accesses as ty (R121): loads zero-extend. -/
def lsuTy (n : Nat) : Nat := if n = 0 then 5 else if n = 1 then 6 else if n = 2 then 7 else 0
/-- Nominal distances of R102. -/
def nominal (sp : Nat) : Nat := if sp = 0 then 4 else if sp = 1 then 6 else if sp = 2 then 36 else 187

/-- An address: a short immediate enters the displacement. -/
def TEmit.addr (k : TCtx) (v : TVal) (w : Nat) (e : TEmit) : (Nat × Bool) × Nat × TEmit :=
  match v with
  | .imm i => if fitsS w i then ((0, false), immLow w i, e) else let (r, e) := e.reg k v; (r, 0, e)
  | _ => let (r, e) := e.reg k v; (r, 0, e)

/-- The IALU operations (R70, R71, R72). -/
def TEmit.ialu (k : TCtx) (op : Nat) (x y : TVal) (d : TDest) (g : Nat) (e : TEmit) : TEmit :=
  let natOp := [0x001, 0x002, 0x006, 0x007, 0x008, 0x00C, 0x00D, 0x00E, 0x012, 0x013, 0x014, 0x015].getD op 0x001
  let immOp := [0x003, 0, 0x009, 0x00A, 0x00B].getD op 0
  let plain := e.op3 k natOp x y d g
  if op = 15 then
    match y with
    | .imm v =>
      let (t, post, e) := e.dest k d g
      e.add (nMoveImm t v g ++ post)
    | _ => e.opI k 0x003 y 0 22 d g
  else
    match x, y with
    | _, .imm v =>
      if immOp ≠ 0 && fitsS 22 v && (match x with | .imm _ => v ≠ 0 | _ => true) then e.opI k immOp x v 22 d g
      else if 5 ≤ op && op ≤ 7 && 0 ≤ v && v < 64 then e.opI k (0x00F + (op - 5)) x v 6 d g
      else plain
    | .imm v, _ => if immOp ≠ 0 && fitsS 22 v then e.opI k immOp y v 22 d g else plain
    | _, _ => plain

/-- The FPU operations (R81 to R85); hmac is two widenings and an FMA (R374). -/
def TEmit.fpu (k : TCtx) (u op : Nat) (a b c : TVal) (d : TDest) (g : Nat) (e : TEmit) : TEmit :=
  if op < 4 then e.op3 k (0x030 + op) a b d g
  else if op = 4 then e.op2 k 0x037 0 b d g
  else if op = 6 || op = 7 then e.op3 k (0x035 + (op - 6)) a b d g
  else if op = 5 then
    let (x, e) := e.reg k a
    let (y, e) := e.reg k b
    let (z, e) := e.reg k c
    let (t, post, e) := e.dest k d g
    e.add ({ op := 0x034, base := 0, rs := [(5, x), (10, y), (15, z)], ds := [(0, t)], g := g } :: post)
  else if op = 17 then
    let (x, e) := e.reg k a
    let (y, e) := e.reg k b
    let (z, e) := e.reg k c
    let (t1, e) := e.temp (5, 2 * u)
    let (t2, e) := e.temp (5, 2 * u + 1)
    let (t, post, e) := e.dest k d g
    let cvt := fun (t : Nat) (s : Nat × Bool) => ({ op := 0x03B, base := 10 * 2 ^ 10 + 2 ^ 14, rs := [(5, s)], ds := [(0, t)], g := g } : NOp)
    e.add ([cvt t1 x, cvt t2 y,
      { op := 0x034, base := 0, rs := [(5, t1, true), (10, t2, true), (15, z)], ds := [(0, t)], g := g }] ++ post)
  else
    match op with
    | 11 => e.op2 k 0x03B (9 * 2 ^ 10) b d g
    | 12 => e.op2 k 0x03B (10 * 2 ^ 10) b d g
    | 13 => e.op2 k 0x03B (9 * 2 ^ 10 + 2 ^ 14) b d g
    | 14 => e.op2 k 0x03B (10 * 2 ^ 10 + 2 ^ 14) b d g
    | 15 => e.op2 k 0x03C 0 b d g
    | _ => e.op2 k 0x03D 0 b d g

/-- A NAT operation with its register fields renamed (R373). -/
def TEmit.nat (k : TCtx) (op tail g : Nat) (e : TEmit) : TEmit :=
  let fs := natFields op tail
  let base := fs.foldl (fun t f => t - natField tail f.1 * 2 ^ f.1) tail
  let (rs, e) := (fs.filter fun f => !f.2).foldl (fun (acc, e) f =>
    let (r, e) := e.reg k (.at (natField tail f.1))
    (acc ++ [(f.1, r)], e)) (([] : List (Nat × Nat × Bool)), e)
  let (ds, post, e) := (fs.filter fun f => f.2).foldl (fun (acc, post, e) f =>
    let (t, p, e) := e.dest k (.name (natField tail f.1)) g
    (acc ++ [(f.1, t)], post ++ p, e)) (([] : List (Nat × Nat)), ([] : List NOp), e)
  let pd := (natPreds op tail).filter (· ≠ 0)
  e.add ({ op := op, base := base, rs := rs, ds := ds, g := g, pd := pd, dist := natDist op tail, eff := true } :: post)

/-- LIVEMASK before a suspension: the registers of the Turis registers that are live behind it (R377). -/
def TEmit.liveMask (k : TCtx) (e : TEmit) : TEmit :=
  e.add (nMoveImm 30 k.liveMask 0 ++ [{ op := 0x1F1, base := 0x019 * 32, rs := [(0, 30, true)], ds := [(64, 32)], eff := true }])

/-- The operations of one act. -/
def TEmit.act (k : TCtx) (x : TAct) (e : TEmit) : TEmit :=
  let g := x.g
  match x.kind with
  | .copy n =>
    match x.b, k.hout n with
    | .imm v, some (.x r) => e.add (nMoveImm r v g)
    | v, some (.x r) => let (a, e) := e.reg k v; if a = (r, false) then e else e.add [nAddi r a 0 g]
    | v, some (.slot s) => let (a, e) := e.reg k v; e.add [nSpill a s g]
    | _, none => e
  | .pmove p =>
    let (a, e) := e.reg k x.b
    -- a guard that the group writes is folded into the value
    if g ≠ 0 && g % 8 ≠ p && k.pw.contains (g % 8) then
      let (one, e) := e.immReg k 1
      let (t1, e) := e.temp (2, 1)
      let (t2, e) := e.temp (2, 2)
      (e.add [nSel t1 p false one (0, false), nSel t2 g false a (t1, true)]).add [nSetPred p (t2, true) 0]
    else e.add [nSetPred p a g]
  | .trig u op =>
    if isCompare u op && u ≠ 9 then
      match x.dst with
      | .pair p => e.cmp k u op p (if p = 0 then 0 else p + 8) x.a x.b g 1
      | d => e.cmpValue k u op x.a x.b d g
    else if u < 2 then e.ialu k op x.a x.b x.dst g
    else if u = 2 then e.op3 k (if op = 0 then 0x004 else 0x005) x.a x.b x.dst g
    else if u = 3 then e.op3 k (0x088 + op) x.a x.b x.dst g (20 * 2 ^ 15) 20
    else if u < 6 then e.fpu k u op x.a x.b x.c x.dst g
    else if u < 8 then
      let sp := op / 4 % 4
      let (r, disp, e) := e.addr k x.b 24
      let base := sp * 2 ^ 10 + lsuTy (op % 4) * 2 ^ 12 + disp * 2 ^ 28
      if 16 ≤ op then
        let (a, e) := e.reg k x.a
        e.add [{ op := 0x081, base := base, rs := [(0, a), (5, r)], g := g, eff := true }]
      else
        let (t, post, e) := e.dest k x.dst g
        e.add ({ op := 0x080, base := base + nominal sp * 2 ^ 16, rs := [(5, r)], ds := [(0, t)], g := g, dist := nominal sp, eff := true } :: post)
    else if u = 8 then
      match op, k.target with
      | 0, t => e.add [{ op := 0x060, base := 0, g := g, tgt := some (t.getD (immNat x.b)), phase := 2 }]
      | 1, _ => e.add [{ op := 0x061, base := 0, g := g, tgt := some (immNat x.b), phase := 2 }]
      | _, some t => e.add [{ op := 0x060, base := 0, g := g, tgt := some t, phase := 2 }]
      | _, none => e.add [{ op := 0x062, base := 0, g := g, phase := 2 }]
    else if u = 9 then
      match op with
      | 0 => let (r, e) := e.reg k x.b; e.add [{ op := 0x1C0, base := 0, rs := [(0, r)], g := g, eff := true }]
      | 1 =>
        let (r, e) := e.reg k x.b
        (e.liveMask k).add [{ op := 0x1C1, base := 0, rs := [(0, r), (64, 32, true)], g := g, phase := 2 }]
      | 2 => (e.liveMask k).add [{ op := 0x1C2, base := 0, rs := [(64, 32, true)], g := g, phase := 2 }]
      | 3 => e.add [{ op := 0x1C3, base := 0, g := g, phase := 2 }]
      | 4 =>
        let (r, e) := e.reg k x.b
        let e := e.liveMask k
        let wait := fun (p q : Nat) => ({ op := 0x1C4, base := p * 2 ^ 5 + q * 2 ^ 9, rs := [(0, r), (64, 32, true)], g := g,
                                          pd := [p, q].filter (· ≠ 0), phase := 2 } : NOp)
        match x.dst with
        | .pair p => e.add [wait p (if p = 0 then 0 else p + 8)]
        | d =>
          let (p, back) := k.scratchPred g
          ((e.add [nClear p 1 (back ≠ []), wait p 0]).fromPred k p d g 3).add (back.map fun o => { o with phase := 3 })
      | 5 | 6 =>
        let (r, e) := e.reg k x.b
        let (a, e) := e.reg k x.a
        e.add [{ op := 0x1C0 + op, base := 0, rs := [(0, r), (5, a)], g := g, eff := true }]
      | 7 => ((e.op2 k 0x1C8 0 x.b x.dst g))
      | 8 | 9 => let (r, e) := e.reg k x.b; e.add [{ op := 0x1C9 + (op - 8), base := 0, rs := [(0, r)], g := g, eff := true }]
      | _ =>
        let (a, e) := e.reg k x.a
        let (c, e) := e.reg k x.c
        let (d, e) := e.reg k x.d
        let (f, e) := e.reg k x.e
        e.add [{ op := 0x1CB, base := 0, rs := [(0, a), (5, d), (10, c), (15, f)], g := g, tgt := some (immNat x.b), eff := true }]
    else if u = 10 then
      match op with
      | 0 =>
        let (t, post, e) := e.dest k x.dst g
        e.add ({ op := 0x1F0, base := immNat x.b % 1024 * 32, ds := [(0, t)], g := g, eff := true } :: post)
      | 1 => let (a, e) := e.reg k x.a; e.add [{ op := 0x1F1, base := immNat x.b % 1024 * 32, rs := [(0, a)], g := g, eff := true }]
      | 2 => e.add [{ op := 0x0C0, base := immNat x.b % 2 ^ 16, g := g, eff := true }]
      | 3 => e.add [{ op := 0x1F2, base := 0, g := g, eff := true }]
      | 4 => e.add [{ op := 0x1F3, base := 0, g := g, eff := true }]
      | 5 => e.add [{ op := 0x1F5, base := 0, g := g, phase := 2 }]
      | _ => e.add [{ op := 0x1F4, base := immNat x.b % 2 ^ 16, g := g, eff := true }]
    else e.nat k (immNat x.d) (immNat x.b) g

/-! ### Order and bundles (R36, R370, R376) -/

def NOp.isT (o : NOp) : Bool := isTransferOp o.op
def NOp.isSolo (o : NOp) : Bool := isSoloOp o.op
def NOp.srcs (o : NOp) : List Nat := o.rs.map fun x => x.2.1
def NOp.pre (o : NOp) : List Nat := o.rs.filterMap fun x => if x.2.2 || x.2.1 = 0 then none else some x.2.1
def NOp.posts (o : NOp) : List Nat := o.rs.filterMap fun x => if x.2.2 then some x.2.1 else none
def NOp.dests (o : NOp) : List Nat := o.ds.filterMap fun x => if x.2 = 0 then none else some x.2
/-- Accesses of spill slots. -/
def NOp.isReload (o : NOp) : Bool := o.op = 0x080 && o.srcs.contains 31
def NOp.isSpill (o : NOp) : Bool := o.op = 0x081 && o.srcs.contains 31
def NOp.slot (o : NOp) : Nat := if o.op < 0x100 || 0x1C0 ≤ o.op then 0 else if o.op < 0x180 then 1 else 2

/-- Whether operation `b` must come after operation `a` that precedes it in the list. -/
def follows (a b : NOp) : Bool :=
  a.phase < b.phase || (a.eff && b.eff) || b.posts.any a.dests.contains || (a.dests.any b.dests.contains) ||
    (b.ps.any fun x => a.pd.contains x.1) || (a.ps.any fun x => x.2 && b.pd.contains x.1) || (a.pd.any b.pd.contains) || a.shut || b.shut ||
    (a.posts.any b.dests.contains)

/-- Orders a group's operations: an operation that reads a register goes before one that writes it where that can be. -/
def orderOps : Nat → List NOp → List NOp
  | 0, l => l
  | f + 1, l =>
    let idx := List.range l.length
    let ready := idx.filter fun i => idx.all fun j => !(j < i && follows (l.getD j { op := 0, base := 0 }) (l.getD i { op := 0, base := 0 }))
    let best := ready.find? fun i =>
      let o := l.getD i { op := 0, base := 0 }
      idx.all fun j => j = i || !((l.getD j { op := 0, base := 0 }).pre.any o.dests.contains)
    match (best.orElse fun _ => ready.head?) with
    | none => l
    | some i =>
      match l[i]? with
      | some o => o :: orderOps f (l.eraseIdx i)
      | none => l

abbrev NBundle := List NOp

/-- Whether an operation may join a bundle. -/
def joins (b : NBundle) (o : NOp) : Bool :=
  !o.isSolo && !(b.any fun x => x.isT || x.isSolo || x.shut) && !o.shut &&
    (b.filter fun x => x.slot = o.slot).length < (if o.slot = 0 then 2 else 1) &&
    !(o.isReload && b.any NOp.isSpill) &&
    !(b.any fun x => o.posts.any x.dests.contains || o.dests.any x.dests.contains ||
      (o.ps.any fun q => q.2 && x.pd.contains q.1) || o.pd.any x.pd.contains)

/-- Puts operations in order into bundles; a transfer shares the bundle of the write of its guard. -/
def bundleOps : List NOp → List NBundle → List NBundle
  | [], acc => acc.reverse
  | o :: r, acc =>
    let pair := match r with
      | t :: _ => t.phase = 2 && t.isT && t.g ≠ 0 && o.pd.contains t.g
      | [] => false
    match acc with
    | b :: bs =>
      if (match b with | [] => false | _ => joins b o) && !(pair && 0 < (b.filter fun x => x.slot = 0).length) then bundleOps r ((b ++ [o]) :: bs)
      else bundleOps r ([o] :: b :: bs)
    | [] => bundleOps r [[o]]

/-- Registers that a bundle reads as they stood before the group after an earlier bundle has written them (R376). -/
def overwritten : List NBundle → List Nat → List Nat
  | [], _ => []
  | b :: bs, w =>
    (b.flatMap fun o => o.pre.filter w.contains) ++ overwritten bs (w ++ b.flatMap NOp.dests)

/-- Schedules a group, copying into temporaries every source that an earlier bundle would overwrite. -/
def scheduleGroup : Nat → TEmit → List NOp → List NBundle × TEmit
  | 0, e, ops => (bundleOps (orderOps ops.length ops) [], e)
  | f + 1, e, ops =>
    let bs := bundleOps (orderOps ops.length ops) []
    match (overwritten bs []).eraseDups with
    | [] => (bs, e)
    | r :: _ =>
      let (t, e) := e.temp (6, 0)
      let ops := ops.map fun o => { o with rs := o.rs.map fun x => if !x.2.2 && x.2.1 = r && o.phase < 4 then (x.1, t, true) else x }
      scheduleGroup f e ({ nAddi t (r, false) 0 with phase := 0 } :: ops)

/-! ### Temporaries (R426) -/

/-- First bundle that writes a temporary and last that reads it. -/
def tempSpan (bs : List NBundle) (t : Nat) : Nat × Nat :=
  let idx := List.range bs.length
  let uses := idx.filter fun i => (bs.getD i []).any fun o => o.srcs.contains t || o.dests.contains t
  (uses.headD 0, uses.getLastD 0)

/-- Registers for the temporaries of a group: next-free registers first, then those that the group does not need. `held` are
registers ever given, `busy` those that the group needs, `keys` the registers of earlier temporaries by key. -/
def assignTemps (bs : List NBundle) (keyOf : Nat → Nat × Nat) (busy : List Nat) :
    List Nat → List (Nat × Nat) → List Nat → List ((Nat × Nat) × Nat) → Option (List (Nat × Nat) × List Nat × List ((Nat × Nat) × Nat))
  | [], m, held, keys => some (m, held, keys)
  | t :: ts, m, held, keys =>
    let sp := tempSpan bs t
    let clash := fun r => busy.contains r || m.any fun x => x.2 = r &&
      (let q := tempSpan bs x.1; sp.1 < q.2 && q.1 < sp.2 || sp.1 = q.1 || (sp.1 = sp.2 && q.1 < sp.1 && sp.1 < q.2))
    let regs := (List.range 13).map (· + 17)
    let reload := 4096 ≤ t
    let key := keyOf t
    let again := if key.1 = 1 || key.1 = 5 then (keys.lookup key).bind fun r => if clash r then none else some r else none
    let pick := (if reload && !clash 30 then some 30 else none).orElse fun _ => again.orElse fun _ =>
      (regs.find? fun r => !held.contains r && !clash r).orElse fun _ => (regs.find? fun r => !clash r).orElse fun _ =>
        if clash 30 then none else some 30
    match pick with
    | none => none
    | some r => assignTemps bs keyOf busy ts (m ++ [(t, r)]) (if held.contains r then held else held ++ [r]) ((key, r) :: keys)

def renameOp (m : List (Nat × Nat)) (o : NOp) : NOp :=
  let f := fun r => (m.lookup r).getD r
  { o with rs := o.rs.map fun x => (x.1, f x.2.1, x.2.2), ds := o.ds.map fun x => (x.1, f x.2) }

/-! ### Timed results (R428) -/

/-- Successors of a bundle. -/
def bundleNext (bs : List NBundle) (starts : List Nat) (afterCalls : List Nat) (i : Nat) : List Nat :=
  let b := bs.getD i []
  let tg := b.filterMap fun o => if o.op = 0x060 || o.op = 0x061 then o.tgt.map fun g => starts.getD g bs.length else none
  let stop := b.any fun o => o.g = 0 && (o.op = 0x060 || o.op = 0x062 || o.op = 0x1C3 || o.op = 0x1F5)
  let ret := b.any fun o => o.op = 0x062
  tg ++ (if stop then [] else [i + 1]) ++ (if ret then afterCalls else [])

/-- Fewest bundles from bundle `i` to one that `hit` says touches the result, up to `d`. -/
def nearest (next : Nat → List Nat) (hit : Nat → Bool) : Nat → Nat → List Nat → List Nat → Option Nat
  | 0, _, _, _ => none
  | f + 1, k, front, seen =>
    if front.any hit then some k
    else
      let nx := (front.flatMap next).eraseDups.filter fun j => !seen.contains j
      if nx.isEmpty then none else nearest next hit f (k + 1) nx (seen ++ nx)

def nop : NOp := { op := 0x066, base := 0 }

/-- Bound on an operation's latency (R66); 0 for a timed request, whose result lands (R428). -/
def NOp.lag (o : NOp) : Nat :=
  if o.dist ≠ 0 then 0
  else if o.op = 0x004 || o.op = 0x005 then 3
  else if o.op = 0x033 || o.op = 0x037 then 64
  else if 0x030 ≤ o.op && o.op ≤ 0x03D then 4
  else if o.slot ≠ 0 then 512
  else 1

/-- The least wait before an operation's result takes effect. -/
def NOp.soonest (o : NOp) : Nat := if o.dist ≠ 0 then o.dist else 1

/-- Bundles, reached within `d` bundles and before any reader, whose write would take effect before the one in flight (R98). -/
def overtaking (next : Nat → List Nat) (reads : Nat → Bool) (write : Nat → Option Nat) : Nat → List Nat → List Nat → Option Nat
  | 0, _, _ => none
  | d + 1, front, seen =>
    let front := front.filter fun j => !reads j
    match front.find? fun j => match write j with | some l => l ≤ d + 1 | none => false with
    | some j => some j
    | none =>
      let nx := ((front.filter fun j => (write j).isNone).flatMap next).eraseDups.filter fun j => !seen.contains j
      if nx.isEmpty then none else overtaking next reads write d nx (seen ++ nx)

/-- The first write that would be overtaken, as a bundle that reads the result in flight and the place for it. -/
def firstOvertaken (bs : List NBundle) (starts : List Nat) : Option (Nat × NBundle) :=
  let calls := (List.range bs.length).filterMap fun j => if (bs.getD j []).any fun o => o.op = 0x061 then some (j + 1) else none
  let next := bundleNext bs starts calls
  let at' := fun (j : Nat) => bs.getD j []
  (List.range bs.length).findSome? fun i => (at' i).findSome? fun o =>
    if o.lag ≤ 1 then none
    else
      let reg := o.dests.findSome? fun r =>
        (overtaking next (fun j => (at' j).any fun x => x.srcs.contains r)
          (fun j => ((at' j).find? fun x => x.dests.contains r).map NOp.soonest) (o.lag - 1) (next i) []).map
          fun j => (j, [nAddi 0 (r, false) 0])
      reg.orElse fun _ => o.pd.findSome? fun q =>
        (overtaking next (fun j => (at' j).any fun x => x.g % 8 = q || x.ps.any fun y => y.1 = q)
          (fun j => ((at' j).find? fun x => x.pd.contains q).map NOp.soonest) (o.lag - 1) (next i) []).map
          fun j => (j, [nSel 0 q false (0, false) (0, false)])

/-- A later write never takes effect before an earlier one: a bundle before it reads, and so waits for, the earlier result. -/
def guardOrder : Nat → List NBundle → List Nat → List NBundle × List Nat
  | 0, bs, starts => (bs, starts)
  | f + 1, bs, starts =>
    match firstOvertaken bs starts with
    | none => (bs, starts)
    | some (j, b) => guardOrder f (bs.take j ++ [b] ++ bs.drop j) (starts.map fun s => if j < s then s + 1 else s)

/-- Fills the gaps after timed requests with NOP bundles. -/
def padTimed : Nat → Nat → List NBundle → List Nat → List NBundle × List Nat
  | 0, _, bs, starts => (bs, starts)
  | f + 1, i, bs, starts =>
    if bs.length ≤ i then (bs, starts)
    else
      let b := bs.getD i []
      let calls := (List.range bs.length).filterMap fun j => if (bs.getD j []).any fun o => o.op = 0x061 then some (j + 1) else none
      let next := bundleNext bs starts calls
      let need := b.foldl (fun m o =>
        if o.dist = 0 then m
        else
          let hit := fun j => (bs.getD j []).any fun x =>
            (o.dests ≠ [] && (x.srcs.any o.dests.contains || x.dests.any o.dests.contains)) ||
            (o.slot ≠ 0 && x.slot ≠ 0 && o.dests = [])
          match nearest next hit o.dist 1 (next i) [] with
          | some k => max m (o.dist - k)
          | none => m) 0
      if need = 0 then padTimed f (i + 1) bs starts
      else if 1 < b.length && b.any NOp.isT then
        -- a transfer that shares the request's bundle would skip the gap: it goes behind it
        padTimed f i (bs.take i ++ [b.filter fun o => !o.isT, b.filter NOp.isT] ++ bs.drop (i + 1))
          (starts.map fun s => if i < s then s + 1 else s)
      else padTimed f (i + 1 + need) (bs.take (i + 1) ++ List.replicate need [nop] ++ bs.drop (i + 1))
        (starts.map fun s => if i < s then s + need else s)

/-! ### Lines (R27, R59, R376) -/

def opTail (op : Nat) : Nat := match findRow (rowsFor ⟨false, 0⟩ op) op with | some r => r.t | none => 0

/-- Head and tail of an operation; `last` says whether it ends its bundle, `disp` and `hidx` name its target. -/
def NOp.raw (o : NOp) (last : Bool) (disp : Int) (hidx : Nat) : RawOp :=
  let regs := (o.rs.filterMap fun x => if x.1 < 64 then some (x.2.1 * 2 ^ x.1) else none) ++
    (o.ds.filterMap fun x => if x.1 < 64 then some (x.2 * 2 ^ x.1) else none)
  let t := match o.tgt with
    | none => 0
    | some _ => if o.op = 0x1CB then hidx * 2 ^ 20 + immLow 27 disp * 2 ^ 25 else hidx + immLow 27 disp * 32
  (headWord ⟨last, Fin.ofNat 16 o.g⟩ o.op (opTail o.op), o.base + regs.sum + t)

/-- Position of each bundle, by the packing of R59: line, heads taken and tail bytes taken so far. -/
def placeBundles : List NBundle → Nat → Nat → Nat → List (Nat × Nat)
  | [], _, _, _ => []
  | b :: r, line, k, s =>
    let t := (b.map fun o => tailLen (opTail o.op)).sum
    if 2 * (k + b.length) + s + t ≤ 64 then (line, k) :: placeBundles r line (k + b.length) (s + t)
    else (line + 1, 0) :: placeBundles r (line + 1) b.length t

/-- The line images: the entry table, then the bundles. -/
def buildLines (entries : List (Option Nat)) (bs : List NBundle) (starts : List Nat) : List Byte :=
  let ne := entries.length
  let pos := placeBundles bs ne 0 0
  let lines := match pos.getLast? with | some p => p.1 + 1 | none => ne
  let where_ := fun g => pos.getD (starts.getD g bs.length) (lines, 0)
  let enc := fun (line : Nat) (o : NOp) (last : Bool) =>
    match o.tgt with
    | some g => o.raw last ((where_ g).1 - (line : Int)) (where_ g).2
    | none => o.raw last 0 0
  let table := (List.range ne).map fun i => match entries.getD i none with
    | some g => [enc i { op := 0x060, base := 0, tgt := some g } true]
    | none => []
  let code := (List.range (lines - ne)).map fun i =>
    (bs.zip pos).flatMap fun x =>
      if x.2.1 = ne + i then (List.range x.1.length).map fun j => enc (ne + i) (x.1.getD j nop) (j + 1 = x.1.length) else []
  (table ++ code).flatMap lineOf

/-! ### The translation -/

/-- What a group's one transfer and its end need: the moves before a call or an unguarded transfer, those behind the group, those on the way of
a guarded transfer, and the frame of a call. -/
structure TEdges where
  before : List (THome × THome) := []
  behind : List (THome × THome) := []
  stub : Option (List (THome × THome) × NOp) := none
  frame : Nat := 0

/-- The edges of group `g`; `base` is the slot for moves that go in a circle. -/
def TBase.edges (c : TBase) (pl : TPlan) (base g : Nat) : TEdges :=
  let p := c.f.prog
  let on := TMap.keep (pl.out.getD g []) (c.liveOut g)
  let behind := if falls (p.grp g) && g + 1 < p.ng then movesTo base on (pl.entry.getD (g + 1) []) else []
  let leave := fun (x : TAct) (moves : List (THome × THome)) (o : NOp) =>
    if moves = [] then { behind := behind : TEdges }
    else if x.g = 0 then { before := moves }
    else { behind := behind, stub := some (moves, o) }
  match pl.call.getD g none with
  | some k => { before := movesTo base on k.before, behind := movesTo base k.after (pl.entry.getD (g + 1) []), frame := 8 * k.frame }
  | none =>
    (((c.acts g).findSome? fun x => match x.kind with
      | .trig 8 0 => some (leave x (movesTo base on (pl.entry.getD (immNat x.b) [])) { op := 0x060, base := 0, tgt := some (immNat x.b), phase := 2 })
      | .trig 8 2 => some (leave x (movesTo base on c.conv) { op := 0x062, base := 0, phase := 2 })
      | _ => none).getD { behind := behind })

/-- A group as emitted: its bundles, those that its guarded transfer reaches first, and the registers given to temporaries so far. -/
structure TPiece where
  code : List NBundle
  stub : List NBundle
  held : List Nat
  keys : List ((Nat × Nat) × Nat)

/-- The bundles of group `g`, where its temporaries find registers. With `slow` the group first copies all that it reads into slots, and its
operations read these alone. -/
def TBase.emitGroup (c : TBase) (pl : TPlan) (base : Nat) (slow : Bool) (g : Nat) (held : List Nat) (keys : List ((Nat × Nat) × Nat)) :
    Option TPiece :=
  let acts := c.acts g
  let mid := pl.mid.getD g []
  let out := pl.out.getD g []
  let ed := c.edges pl base g
  let snaps := (c.reads g).zipIdx.filterMap fun x => (c.home mid x.1).map fun h => (x.1, h, base + 1 + x.2)
  let suspends := fun (x : TAct) => match x.kind with | .trig u op => isSuspend u op | _ => false
  let mask := ((c.liveOut g).filter isTReg).filterMap fun n => match c.home out n with | some (.x r) => some r | _ => none
  let ctx : TCtx := {
    hin := c.home mid
    hout := c.home out
    snap := if slow then some fun n => (snaps.find? fun x => x.1 = c.lead n).map fun x => x.2.2 else none
    lout := c.f.lout.getD g []
    pw := acts.flatMap fun x => (x.writes.filter isTPred).map (· - 64)
    pr := acts.flatMap fun x => (x.reads.filter isTPred).map (· - 64)
    target := ed.stub.map fun _ => c.f.prog.ng + g
    liveMask := mask.eraseDups.foldl (fun m r => m + 2 ^ r) 0 }
  -- a move into a port that an operation of the group reads comes before that operation (R370); a suspension comes last
  let early := fun (x : TAct) => match x.kind with
    | .copy n => acts.any fun y => [y.a, y.c, y.d, y.e].contains (.post n)
    | _ => false
  let order := acts.filter early ++ (acts.filter fun x => !early x && !suspends x) ++ acts.filter suspends
  let e := order.foldl (fun e x => e.act ctx x) {}
  let sp : Int → Nat → List NOp := fun v ph => if ed.frame = 0 then [] else [{ nAddi 31 (31, true) v with phase := ph, eff := true }]
  let all := e.ops ++ moveOps 1 ed.before ++ sp (-(ed.frame : Int)) 1 ++ sp ed.frame 3 ++ moveOps 3 ed.behind
  let phased := [0, 1, 2, 3].flatMap fun ph => all.filter fun o => o.phase = ph
  -- the write of the transfer's guard comes right before it, or after it where the transfer stands alone
  let tr := phased.find? fun o => o.phase = 2
  let gd := fun o : NOp => o.phase = 1 && (match tr with | some t => t.g ≠ 0 && o.pd.contains t.g | none => false)
  let solo := match tr with | some t => t.isSolo | none => false
  let ops := (phased.filter fun o => o.phase < 1) ++ (phased.filter fun o => o.phase = 1 && !gd o) ++
    (if solo then [] else phased.filter gd) ++ (phased.filter fun o => o.phase = 2) ++
    (if solo then (phased.filter gd).map fun o => { o with phase := 3 } else []) ++ phased.filter fun o => o.phase = 3
  let (bs, e) := scheduleGroup 40 e ops
  let regs := fun (m : TMap) => m.filterMap fun x => match x.2 with | .x r => some r | .slot _ => none
  let busy := regs c.pinned ++ regs out ++ (if slow then [] else regs mid) ++
    bs.flatMap fun b => b.flatMap fun o => (o.srcs ++ o.dests).filter fun r => r < 31 && 16 < r
  let temps := (bs.flatMap fun b => b.flatMap fun o => o.srcs ++ o.dests).filter (64 ≤ ·) |>.eraseDups
  (assignTemps bs (fun t => (e.keys.lookup t).getD (0, t)) busy temps [] held keys).map fun (m, held, keys) => {
    code := bundleOps (moveOps 0 (pl.pre.getD g [])) [] ++ bundleOps (if slow then moveOps 0 (snaps.map fun x => (x.2.1, .slot x.2.2)) else []) [] ++
      bs.map fun b => b.map (renameOp m)
    stub := match ed.stub with
      | some (l, o) => bundleOps (moveOps 0 l ++ [o]) []
      | none => []
    held := held
    keys := keys }

/-- Emits every group in order: the groups' bundles and then those of their guarded transfers, or the first group whose temporaries find no
register. -/
def TBase.emit (c : TBase) (pl : TPlan) (base : Nat) (slow : List Nat) :
    List Nat → List Nat → List ((Nat × Nat) × Nat) → List (List NBundle) → List (List NBundle) → List (List NBundle) ⊕ Nat
  | [], _, _, code, stubs => .inl (code.reverse ++ stubs.reverse)
  | g :: gs, held, keys, code, stubs =>
    match c.emitGroup pl base (slow.contains g) g held keys with
    | some x => c.emit pl base slow gs x.held x.keys (x.code :: code) (x.stub :: stubs)
    | none => .inr g

/-- The bundles of a program. Where a group's temporaries find no register, the held home that the group does not touch and whose next read
lies farthest goes to a slot; then the group reads from slots alone; then any held home goes to a slot (R426). -/
def TFacts.code (f : TFacts) : Nat → List (Nat × Nat) → List Nat → Option (List (List NBundle))
  | 0, _, _ => none
  | fuel + 1, forced, slow =>
    let c := f.base forced
    let pl := c.plan
    match c.emit pl (pl.slots c) slow (List.range f.prog.ng) (c.sticky.map fun x => x.2).eraseDups [] [] [] with
    | .inl bs => some bs
    | .inr g =>
      let w := ((c.acts g).head?.map TAct.word).getD 0
      let heldIn := fun (m : TMap) => m.filterMap fun x => match x.2 with
        | .x r => if portPool.contains r && !forced.contains (g, x.1) then some x.1 else none
        | .slot _ => none
      let all := (heldIn (pl.mid.getD g []) ++ heldIn (pl.out.getD g [])).eraseDups
      let far := fun (l : List Nat) => l.foldl (fun (b : Option Nat) n => match b with
        | none => some n
        | some m => if c.far m w < c.far n w then some n else b) none
      let touched := c.reads g ++ (c.writes g).map fun x => x.1
      match far (all.filter fun n => !touched.contains n), slow.contains g, far all with
      | some n, _, _ => f.code fuel (forced ++ [(g, n)]) slow
      | none, false, _ => f.code fuel forced (slow ++ [g])
      | none, true, some n => f.code fuel (forced ++ [(g, n)]) slow
      | none, true, none => none

/-- Flat bundles and the index at which each group starts. -/
def flatten : List (List NBundle) → Nat → List NBundle × List Nat
  | [], _ => ([], [])
  | b :: r, n => let (bs, st) := flatten r (n + b.length); (b ++ bs, n :: st)

/-- What the choice of homes looks at, of a program's acts: moves that nothing reads are dropped, and triggers fused. -/
def TProg.facts (p : TProg) (acts : TActs) : TFacts :=
  let acts := settle p.dropMoves 8 (fuseAll p (settle p.dropMoves 8 acts))
  let lout := p.liveOuts acts
  ⟨p, acts, lout, (List.range p.ng).map fun g => liveBefore (acts.getD g []) (lout.getD g []), p.roots, p.handlerGroups⟩

/-- Suspension points behind which more than 16 Turis registers are live, or at which one lies in a slot (R375, R377, R431). -/
def TProg.reason6 (p : TProg) (f : TFacts) : List TBad :=
  let plain := p.liveOuts (p.groups.map (actsOf [] []))
  let c := f.base []
  let pl := c.plan
  (List.range p.ng).flatMap fun g =>
    let away := (c.liveOut g).any fun n => isTReg n && match c.home (pl.out.getD g []) n with | some (.slot _) => true | _ => false
    (p.grp g).filterMap fun m => match m.dst with
      | .trig u op => if isSuspend u op && (16 < ((plain.getD g []).filter isTReg).length || away) then some (m.word, 6) else none
      | _ => none

/-- NAT moves whose opcode is not a known immediate or whose tail the opcode map does not accept: reason 5. -/
def natBads (acts : TActs) : List TBad :=
  acts.flatMap fun l => l.filterMap fun x => match x.kind with
    | .trig 11 _ =>
      let op := immNat x.d
      let ok := (match x.d with | .imm _ => true | _ => false) && 0x100 ≤ op && op ≤ 0x1BF &&
        (findRow (rowsFor ⟨false, 0⟩ op) op).isSome && decOk (decodeOp (headWord ⟨false, 0⟩ op (opTail op)) (immNat x.b))
      if ok then none else some (x.word, 5)
    | _ => none

/-- The native lines of a program. -/
def TFacts.translate (f : TFacts) : TurisRes :=
  match f.code (64 * (f.prog.ng + 1)) [] [] with
  | none => .bad 0 0
  | some gs =>
    let (bs, starts) := flatten gs 0
    let (bs, starts) := guardOrder (4 * bs.length) bs starts
    let (bs, starts) := padTimed (bs.length * 4100 + 1) 0 bs starts
    .code (buildLines f.prog.entries bs starts)

/-- The least bad word, and its least reason (R375). -/
def leastBad (l : List TBad) : Option TBad :=
  l.foldl (fun b x => match b with
    | none => some x
    | some y => if x.1 < y.1 || (x.1 = y.1 && x.2 < y.2) then some x else b) none

def rdN (l : List Byte) (i n : Nat) : Nat := leNat (slice l i n)

/-- Catalogue version of this device (the vx field of R367). -/
def deviceVx : Nat := 1

/-- Checks and translates a Turis section (R369 to R377). -/
def translateTuris (sec : List Byte) : TurisRes :=
  let nent := rdN sec 4 2
  let nw := rdN sec 8 4
  if sec.length < 16 || rdN sec 0 2 ≠ 1 || nent < 2 || 256 < nent || rdN sec 6 2 ≠ 0 || rdN sec 12 4 ≠ 0 ||
      sec.length < 16 + 4 * (nent + nw) then .bad 0 0
  else if deviceVx < rdN sec 2 2 then .vxver
  else
    let ents := (List.range nent).map fun i => rdN sec (16 + 4 * i) 4
    let words := (List.range nw).map fun i => rdN sec (16 + 4 * nent + 4 * i) 4
    let (groups, bads) := tGroups words 0 [] 0
    let ng := groups.length
    match (List.range nent).find? fun i => ng ≤ ents.getD i 0 && !(i = 1 && ents.getD i 0 = 2 ^ 32 - 1) with
    | some i => .bad 0 i
    | none =>
      let p : TProg := ⟨groups, ents.map fun e => if e = 2 ^ 32 - 1 then none else some e⟩
      let basic := bads ++ groups.flatMap fun l => groupBads ng l [] false
      let binds := p.bindings
      let acts := (List.range ng).map fun g => actsOf p.constPorts (binds.getD g []) (p.grp g)
      let f := p.facts acts
      match leastBad (basic ++ natBads acts ++ p.reason6 f ++ p.reason7) with
      | some b => .bad b.2 b.1
      | none => f.translate

end Sys2Proof.Machine
end

