-- ==== Sys2Proof/Machine/Loader.lean ====
section
/-! DEFINITION. Code objects, their loading and unloading (R362 to R368, R379, R432). -/

namespace Sys2Proof.Machine

/-! ### The code object (R362, R432) -/

/-- A section: where it lies in the image. -/
structure Sect where
  ty : Nat
  off : Nat
  size : Nat
  deriving DecidableEq, Repr

/-- A relocation entry (R362). -/
structure Reloc where
  off : Nat
  sect : Nat
  kind : Nat
  tsect : Nat
  addend : Int
  deriving DecidableEq, Repr

def allZero (raw : List Byte) (o n : Nat) : Bool := ((raw.drop o).take n).all fun b => b = 0

def tCode : Nat := 1
def tData : Nat := 2
def tLaunch : Nat := 3
def tShape : Nat := 4
def tSymbols : Nat := 5
def tTuris : Nat := 6

def objMagic : Nat := 0x4F435158

/-- One section table entry. -/
def sectAt (raw : List Byte) (o : Nat) : Option Sect :=
  let s : Sect := ⟨rd raw o 4, rd raw (o + 8) 8, rd raw (o + 16) 8⟩
  if 1 ≤ s.ty && s.ty ≤ 6 && allZero raw (o + 4) 4 && allZero raw (o + 24) 8 && s.off + s.size ≤ raw.length &&
      (s.ty ≠ tCode || s.size % 64 = 0) then some s
  else none

def allSome {α : Type} : List (Option α) → Option (List α)
  | [] => some []
  | none :: _ => none
  | some x :: r => (allSome r).map fun l => x :: l

/-- The section table of a valid object. -/
def sectionsOf (raw : List Byte) : Option (List Sect) :=
  let n := rd raw 6 2
  let t := rd raw 8 8
  if raw.length < 128 || rd raw 0 4 ≠ objMagic || rd raw 4 2 ≠ 1 || n = 0 || 6 < n || t % 8 ≠ 0 || raw.length < t + 32 * n ||
      !allZero raw 32 96 then none
  else
    match allSome ((List.range n).map fun i => sectAt raw (t + 32 * i)) with
    | none => none
    | some l =>
      let tys := l.map fun s => s.ty
      if tys.eraseDups.length ≠ n || !(tys.contains tCode || tys.contains tTuris) || (!tys.contains tCode && !allZero raw 16 16) then
        none
      else some l

def findSect (l : List Sect) (ty : Nat) : Option Sect := l.find? fun s => s.ty = ty
def sectBytes (raw : List Byte) (l : List Sect) (ty : Nat) : List Byte :=
  match findSect l ty with
  | some s => (raw.drop s.off).take s.size
  | none => []

/-- One relocation entry of a symbols section. -/
def relocAt (b : List Byte) (o : Nat) : Reloc :=
  ⟨rd b o 8, rd b (o + 8) 1, rd b (o + 9) 1, rd b (o + 10) 1, (BitVec.ofNat 32 (rd b (o + 12) 4)).toInt⟩

/-- The relocations of a valid symbols section (R432). -/
def relocsOf (b : List Byte) : Option (List Reloc) :=
  let nr := rd b 16 4
  let ns := rd b 20 4
  let sz := rd b 24 4
  let names := 32 + 16 * nr + 16 * ns
  let symOk := fun i =>
    let o := 32 + 16 * nr + 16 * i
    rd b (o + 8) 1 ≤ 6 && allZero b (o + 9) 3 && rd b (o + 12) 4 < sz
  let nameBytes := (b.drop names).take sz
  if b.length < 32 || !allZero b 28 4 || b.length < names + sz || !((List.range nr).all fun i => allZero b (32 + 16 * i + 11) 1) ||
      !(List.range ns).all symOk || !nameBytes.all (fun c => c.toNat < 128) || !(sz = 0 || nameBytes.getLast? = some 0) ||
      !allZero b (names + sz) (b.length - names - sz) then none
  else some ((List.range nr).map fun i => relocAt b (32 + 16 * i))

/-! ### Placing and relocating (R363, R364) -/

def roundUp64 (n : Nat) : Nat := (n + 63) / 64 * 64

/-- Where the sections go. -/
structure Places where
  cbase : Nat
  data : Nat
  shapes : Nat
  launches : Nat
  stop : Nat
  deriving DecidableEq, Repr

/-- Sections from DBASE, each on a 64-byte boundary, in the order data, shape, launch; an absent one at 0. -/
def placeSections (l : List Sect) (cbase dbase : Nat) : Places :=
  let step := fun (a : Nat) (ty : Nat) => match findSect l ty with
    | some s => (roundUp64 a, roundUp64 a + s.size)
    | none => (0, a)
  let d := step dbase tData
  let s := step d.2 tShape
  let n := step s.2 tLaunch
  ⟨cbase, d.1, s.1, n.1, n.2⟩

def Places.base (p : Places) (ty : Nat) : Option Nat :=
  if ty = tCode then some p.cbase else if ty = tData then some p.data else if ty = tShape then some p.shapes
  else if ty = tLaunch then some p.launches else none

/-- Replaces bytes of a section. -/
def patch (b : List Byte) (o : Nat) (v : List Byte) : List Byte := b.take o ++ v ++ b.drop (o + v.length)

/-- Kind 2: the MOVI whose head lies at `o` takes the value as its immediate (R74). -/
def patchMovi (code : List Byte) (o : Nat) (v : Nat) : Option (List Byte) :=
  let line := o / 64 * 64
  match decodeLine ((code.drop line).take 64) with
  | .error _ => none
  | .ok ops =>
    let i := o % 64 / 2
    match ops[i]? with
    | none => none
    | some raw =>
      if o % 2 ≠ 0 then none
      else
        match decodeOp raw.1 raw.2 with
        | .ok (.movi h xd _) =>
          (encode (.movi h xd (BitVec.ofNat 59 v))).map fun r => patch code line (lineOf (ops.set i r))
        | _ => none

/-- Indexes of the first word of each two-word immediate of a Turis section (R371). -/
def twoWordImms (sec : List Byte) : Nat → Nat → List Nat
  | 0, _ => []
  | n + 1, i =>
    let w0 := 16 + 4 * rd sec 4 2
    if sec.length < w0 + 4 * i + 4 then []
    else
      let src := rd sec (w0 + 4 * i) 4 / 2 ^ 13 % 2 ^ 13
      if src / 1024 = 4 then
        if src % 2 = 1 then (i + 1) :: twoWordImms sec n (i + 3) else twoWordImms sec n (i + 2)
      else twoWordImms sec n (i + 1)

/-- Sections under relocation: code, data, shape, launch and Turis bytes by type. -/
abbrev Image := List (Nat × List Byte)
def Image.get (im : Image) (ty : Nat) : List Byte := ((im.find? fun x => x.1 = ty).map fun x => x.2).getD []
def Image.put (im : Image) (ty : Nat) (b : List Byte) : Image := im.map fun x => if x.1 = ty then (ty, b) else x

/-- Applies one relocation; none rejects the object. `native` says that the code section is used. -/
def applyReloc (p : Places) (handle : Nat) (native : Bool) (im : Image) (r : Reloc) : Option Image :=
  let b := im.get r.sect
  let v := fun base : Nat => (((base : Int) + r.addend) % 2 ^ 64).toNat
  let inImage := (im.any fun x => x.1 = r.tsect) || r.kind = 3
  if r.sect = tCode && !native && 1 ≤ r.kind && r.kind ≤ 4 then some im
  else if !inImage then none
  else
    match r.kind with
    | 1 =>
      if (r.sect = tData || r.sect = tShape || r.sect = tLaunch) && r.off + 8 ≤ b.length then
        (p.base r.tsect).map fun x => im.put r.sect (patch b r.off (leBytes 8 (v x)))
      else none
    | 2 =>
      if r.sect = tCode && r.off < b.length then
        (p.base r.tsect).bind fun x => (patchMovi b r.off (v x)).map fun c => im.put r.sect c
      else none
    | 3 =>
      if r.sect = tLaunch && r.tsect = 0 && r.addend = 0 && r.off + 4 ≤ b.length then
        some (im.put r.sect (patch b r.off (leBytes 4 handle)))
      else none
    | 4 =>
      let w0 := 16 + 4 * rd b 4 2
      if r.sect = tTuris && (twoWordImms b b.length 0).any (fun i => w0 + 4 * i = r.off) && r.off + 8 ≤ b.length then
        (p.base r.tsect).map fun x => im.put r.sect (patch b r.off (leBytes 8 (v x)))
      else none
    | _ => none

def applyRelocs (p : Places) (handle : Nat) (native : Bool) : List Reloc → Image → Option Image
  | [], im => some im
  | r :: rs, im => (applyReloc p handle native im r).bind fun im => applyRelocs p handle native rs im

/-! ### Instruction addresses (R117, R364) -/

/-- Where the loader keeps code and its page tables in the home die's HBM, and the instruction addresses that it uses. -/
def codePhys (home : DieId) : Nat := (2 * home + 1) * stackSize + 32 * 2 ^ 30
def tablePhys (home : DieId) : Nat := (2 * home + 1) * stackSize + 31 * 2 ^ 30
def page2M : Nat := 2 ^ 21
def cbaseLow : Nat := 0x800000
def cbaseHigh : Nat := 4 * 2 ^ 30

def roundUp2M (n : Nat) : Nat := (n + page2M - 1) / page2M * page2M

/-- The address space that code of `size` bytes takes. -/
def codeSpan (size : Nat) : Nat := max (roundUp2M size) page2M

/-- Loaded objects of a partition. -/
def Part.loaded (p : Part) : List Slot := (p.slots.map fun x => x.2).filter fun k => k.loaded

/-- The lowest free 2 MiB-aligned extent for `size` bytes of code. -/
def Part.freeCbase (p : Part) (size : Nat) : Option Nat :=
  let n := codeSpan size
  let free := fun a : Nat => p.loaded.all fun k => !overlaps a n k.cbase (codeSpan k.size)
  let cands := cbaseLow :: p.loaded.map fun k => k.cbase + codeSpan k.size
  (cands.filter fun a => free a && a + n ≤ cbaseHigh).foldl (fun (m : Option Nat) a => match m with
    | none => some a
    | some b => some (min a b)) none

/-- Page-table entries (R111): to a table, and to 2 MiB of code with X = 1 and R = W = 0. -/
def tableEntry (pa : Nat) : Nat := pa + 1
def codeEntry (pa : Nat) : Nat := pa + 1 + 2 + 16

def State.writeEntry (pa e : Nat) (s : State) : State := s.physWrite pa (leBytes 8 e) false

/-- Maps, or unmaps, the 2 MiB pages of an extent of instruction addresses through IPTROOT. -/
def State.mapCode (p : PartId) (cbase size : Nat) (on : Bool) (s : State) : State :=
  let home := s.homeDie p
  let t := tablePhys home
  let s := (s.writeEntry t (tableEntry (t + 4096))).writeEntry (t + 4096) (tableEntry (t + 8192))
  let s := (List.range (cbaseHigh / 2 ^ 30)).foldl (fun s g =>
    s.writeEntry (t + 8192 + 8 * g) (tableEntry (t + 12288 + 4096 * g))) s
  (List.range ((max size 1 + page2M - 1) / page2M)).foldl (fun s i =>
    let va := cbase + page2M * i
    let pa := codePhys home + (va - cbaseLow)
    s.writeEntry (t + 12288 + 4096 * (va / 2 ^ 30) + 8 * (va / page2M % 512)) (if on then codeEntry pa else 0)) s

/-- The Welkin core writes IPTROOT of the partition's cores, and invalidates their instruction translations (R110, R114). -/
def State.setIptroot (p : PartId) (s : State) : State :=
  let root : Word := BitVec.ofNat 64 (tablePhys (s.homeDie p) + 1)
  ((s.diesOf p).flatMap fun d => (List.range 64).map fun i => 64 * d + i).foldl (fun s c =>
    s.updCoreAt c fun k => { k with iptroot := root, itlb := [] }) s

/-! ### LOAD (R364 to R366) -/

/-- The reply of LOAD. -/
structure LoadReply where
  status : Nat
  detail : Nat
  handle : Nat
  cbase : Nat
  data : Nat
  shapes : Nat
  launches : Nat
  pos : Nat
  xlated : Nat
  deriving DecidableEq, Repr

def LoadReply.fail (status detail pos : Nat) : LoadReply := ⟨status, detail, 0, 0, 0, 0, 0, pos, 0⟩

def LoadReply.bytes (r : LoadReply) : List Byte :=
  leBytes 2 r.status ++ leBytes 2 r.detail ++ leBytes 4 r.handle ++ leBytes 8 r.cbase ++ leBytes 8 r.data ++ leBytes 8 r.shapes ++
    leBytes 8 r.launches ++ leBytes 4 r.pos ++ leBytes 4 r.xlated

/-- The descriptor string in the record in use, without its padding (R367, R401). -/
def Cfg.descriptor (c : Cfg) : List Byte := c.desc.takeWhile fun b => b ≠ 0
/-- The device hash (R368). -/
def State.deviceHash (s : State) : List Byte := shake256 s.pkg.cfg.descriptor 16

/-- Whether a range class lets a launch store (R109). -/
def storable : RClass → Bool
  | .rw | .wo | .nt => true
  | .ro | .snap => false

/-- DPTROOT of a partition's cores: its reserved bits are zero (R110). -/
def dptRootOf (p : PartId) : Word := Config.dptRoot p &&& 0x000FFFFFFFFFF001

/-- The physical address of a G address that the system's translation maps writable and that lies in present memory: the
partition's system ranges first, then its page tables (R109, R112, R364). -/
def State.sysWritable (s : State) (p : PartId) (a : Nat) : Option Nat :=
  match rangeHit (s.partAt p).sysRanges a with
  | some r => if storable r.cls && r.xm.isNone && s.inHbm (r.pa + (a - r.base)) then some (r.pa + (a - r.base)) else none
  | none =>
    match s.walkRoot (s.homeDie p) (dptRootOf p) false .store a with
    | .ok t => if s.inHbm (t.pa a) then some (t.pa a) else none
    | .error _ => none

/-- Whether the whole extent from `a` is mapped writable and present: its ends and every 64-byte line. -/
def State.extentOk (s : State) (p : PartId) (a n : Nat) : Bool :=
  n = 0 || (List.range (n / 64 + 2)).all fun i => (s.sysWritable p (min (a + 64 * i) (a + n - 1))).isSome

/-- Writes bytes in place to committed G through the system's translation. -/
def State.sysWrite (p : PartId) (a : Nat) (bs : List Byte) (s : State) : State :=
  (linePieces a (bs.length / 64 + 2) bs).foldl (fun s x => match s.sysWritable p x.1 with
    | some pa => s.physWrite pa x.2 false
    | none => s) s

/-- Whether a partition's loader slot holds an object. -/
def State.slotTaken (s : State) (p : PartId) (i : Nat) : Bool := (SMap.look Slot.reset (s.partAt p).slots i).loaded

/-- A free slot of a partition (R365): the lowest that no partition holds where there is one, so that handles name one object each; the
choice is the loader's (R364). -/
def State.freeSlot (s : State) (p : PartId) : Option Nat :=
  let free := (List.range 4096).filter fun i => !s.slotTaken p i
  let alone := fun i => i ≠ 0 && (List.range 8).all fun q => !s.slotTaken q i
  match free.find? alone with
  | some i => some i
  | none => free.getLast?

/-- GEN of slot `i` after it has advanced: 20 bits, and never that of handle 0 (R365). -/
def nextGen (i g : Nat) : Nat :=
  let n := (g + 1) % 2 ^ 20
  if i = 0 && n = 0 then 1 else n

/-- Where the code goes, and what relocation and translation give there (R363, R366). -/
structure CodeFit where
  cbase : Nat
  out : Option (Image × TurisRes)
  deriving Repr

/-- An object that is to be placed: its sections, relocations and image, and how it is loaded. -/
structure LoadJob where
  secs : List Sect
  rels : List Reloc
  image : Image
  native : Bool
  handle : Nat
  dbase : Nat
  deriving DecidableEq, Repr

/-- Relocates and translates an object whose code goes to `cbase` (R363, R366); none rejects it. -/
def LoadJob.build (j : LoadJob) (cbase : Nat) : Option (Image × TurisRes) :=
  (applyRelocs (placeSections j.secs cbase j.dbase) j.handle j.native j.rels j.image).map fun im =>
    (im, if j.native then .code (im.get tCode) else translateTuris (im.get tTuris))

/-- Chooses CBASE for code of `size` bytes, and again where the code that results there takes more 2 MiB pages. -/
def LoadJob.fit (j : LoadJob) (part : Part) : Nat → Nat → Option CodeFit
  | n, size =>
    match part.freeCbase size with
    | none => none
    | some cbase =>
      let out := j.build cbase
      match n, out with
      | k + 1, some (_, .code c) => if codeSpan size < codeSpan c.length then j.fit part k c.length else some ⟨cbase, out⟩
      | _, _ => some ⟨cbase, out⟩

/-- The size for which CBASE is chosen first: the code's, or its translation's before the relocations. -/
def LoadJob.size (j : LoadJob) : Nat :=
  if j.native then (j.image.get tCode).length
  else match translateTuris (j.image.get tTuris) with
    | .code b => b.length
    | _ => 64

/-- The rounds that choosing CBASE takes at most: each takes at least one page more. -/
def fitRounds : Nat := cbaseHigh / page2M

/-- Writes the data, shape and launch sections in place (R364). -/
def State.writeSections (p : PartId) (places : Places) (im : Image) (s : State) : State :=
  [(places.data, tData), (places.shapes, tShape), (places.launches, tLaunch)].foldl (fun s x => s.sysWrite p x.1 (im.get x.2)) s

/-- LOAD (R364): the object in the image, placed for a partition. The sections stand in G before the relocations are applied, so they stay
there where a relocation or the translation then rejects the object. -/
def State.loadObject (p : PartId) (raw : List Byte) (dbase flags : Nat) (s : State) : LoadReply × State :=
  match sectionsOf raw with
  | none => (.fail 1 0 0, s)
  | some secs =>
    let syms := sectBytes raw secs tSymbols
    match (if (findSect secs tSymbols).isSome then relocsOf syms else some []) with
    | none => (.fail 1 0 0, s)
    | some rels =>
      let native := (findSect secs tCode).isSome && (raw.drop 16).take 16 = s.deviceHash && flags % 2 = 0
      if !native && (findSect secs tTuris).isNone then (.fail 2 0 0, s)
      else
        match s.freeSlot p with
        | none => (.fail 5 1 0, s)
        | some i =>
          let part := s.partAt p
          let gen := nextGen i (SMap.look Slot.reset part.slots i).gen
          let im0 : Image := [tCode, tData, tLaunch, tShape, tTuris].filterMap fun t =>
            if (findSect secs t).isSome || (t = tCode && !native) then some (t, sectBytes raw secs t) else none
          let job : LoadJob := ⟨secs, rels, im0, native, i + 4096 * gen, dbase⟩
          match job.fit part fitRounds job.size with
          | none => (.fail 5 2 0, s)
          | some fit =>
            let places := placeSections secs fit.cbase dbase
            if !s.extentOk p dbase (places.stop - dbase) then (.fail 5 3 0, s)
            else
              let s := s.writeSections p places im0
              match fit.out with
              | none => (.fail 1 0 0, s)
              | some (_, .bad r pos) => (.fail 3 r pos, s)
              | some (_, .vxver) => (.fail 4 0 0, s)
              | some (im, .code code) =>
                let s := s.writeSections p places im
                let pa := codePhys (s.homeDie p) + (fit.cbase - cbaseLow)
                let s := ((s.hostWrite pa code).mapCode p fit.cbase code.length true).setIptroot p
                let s := (s.updPartAt p fun x =>
                  { x with slots := SMap.put x.slots i ⟨gen, true, fit.cbase, code.length, pa⟩ }).invalidate p 0 0 true
                (⟨0, 0, job.handle, fit.cbase, places.data, places.shapes, places.launches, 0, if native then 0 else 1⟩, s)

/-! ### UNLOAD (R355, R379) -/

/-- The partition in which a handle names a loaded object. -/
def State.handlePart (s : State) (handle : Nat) : Option PartId := (List.range 8).find? fun p => (s.codeSlot p handle).isSome

/-- Launches that reference a code object (R355). -/
def State.references (s : State) (p : PartId) (handle : Nat) : List (Nat × Launch) :=
  (s.launchesOf p).filter fun l => l.2.rc.code = handle && (l.2.st.uncommitted || l.2.st = .taken)

/-- Whether a forced unload has something to do for a launch now. -/
def Launch.forceable (l : Launch) : Bool :=
  l.cause = 0 && (l.st = .taken || l.st = .admitted || l.st = .ready || (l.st = .running && l.pre = .none))

/-- Removes the references of a forced unload, as far as they can be now (R379). -/
def State.forceUnload (p : PartId) (handle : Nat) (s : State) : State :=
  (s.references p handle).foldl (fun s l =>
    if !l.2.forceable then s
    else if l.2.st = .running then (s.requestStop l.1).updLaunchAt l.1 fun l => { l with cut := .none }
    else s.requestAbort l.1 cCodegone.toNat 0 0 0 false) s

/-- Frees a loaded object: GEN advances, the code is unmapped, and the partition's instruction caches are emptied. -/
def State.unloadNow (p : PartId) (handle : Nat) (s : State) : State :=
  let i := slotIndex handle
  let k := SMap.look Slot.reset (s.partAt p).slots i
  let s := (s.mapCode p k.cbase k.size false).setIptroot p
  (s.updPartAt p fun x => { x with slots := SMap.put x.slots i ⟨nextGen i k.gen, false, 0, 0, 0⟩ }).invalidate p 0 0 true

end Sys2Proof.Machine
end

