-- ==== Sys2Proof/Machine/Mailbox.lean ====
section
/-! DEFINITION. The management mailbox, attestation, the configuration record and start-up (R14, R400 to R407). -/

namespace Sys2Proof.Machine

/-! ### The configuration record (R14, R401) -/

def recordSize : Nat := 3076
def asciiBytes (s : String) : List Byte := s.toList.map fun c => BitVec.ofNat 8 c.toNat
/-- The descriptor string of this silicon (R367). -/
def descriptorOf (rev : Nat) : List Byte := asciiBytes ("VOLMAR;XQ-512;isa=1;turis=1;vx=1;rev=" ++ toString rev)

/-- Dies of a set that a step from die `a` reaches. -/
def grow (set : List DieId) : Nat → List DieId → List DieId
  | 0, r => r
  | n + 1, r => grow set n (set.filter fun d => r.contains d || r.any fun e => linked d e)
/-- Whether a set of dies is connected in the mesh. -/
def connected (set : List DieId) : Bool := (grow set 8 (set.take 1)).length = set.length

/-- PARTS meets R14. -/
def partsOk (ps : List Nat) : Bool :=
  ps.all (fun p => p < 8) && (List.range 8).all fun p => connected ((List.range 8).filter fun d => ps.getD d 0 = p)

def within (n lo hi : Nat) : Bool := n = 0 || (lo ≤ n && n ≤ hi)
def orDefault (n d : Nat) : Nat := if n = 0 then d else n

/-- The fields of a record. -/
def cfgOf (b : List Byte) : Cfg :=
  { counter := rd b 8 8, parts := (List.range 8).map fun d => rd b (16 + d) 1, modulePos := rd b 24 1, domsize := rd b 25 1
    domid := rd b 28 4, memto := orDefault (rd b 32 4) 200, cutlim := orDefault (rd b 36 4) 100
    shadow := (List.range 8).map fun p => orDefault (rd b (40 + 4 * p) 4) 16, pclimit := orDefault (rd b 72 2) 1000
    tlimit := orDefault (rd b 74 2) 95, desc := (b.drop 80).take 64 }

/-- Whether a copy is valid (R401). -/
def recordOk (b : List Byte) : Bool :=
  let c := cfgOf b
  recordSize ≤ b.length && rd b 0 4 = 0x46435158 && rd b 4 2 = 1 && allZero b 6 2 && allZero b 26 2 && allZero b 76 4 &&
    allZero b 144 112 && partsOk c.parts && 1 ≤ c.domsize && c.domsize ≤ 8 && c.modulePos < c.domsize &&
    within (rd b 32 4) 10 10000 && within (rd b 36 4) 1 10000 && within (rd b 74 2) 70 105 &&
    c.descriptor = descriptorOf Config.revision && allZero c.desc c.descriptor.length (64 - c.descriptor.length) &&
    Config.ownerVerifies (b.take 256) ((b.drop 256).take 2820)

/-- The copy that a start uses: true for B; none where no copy is valid and current (R401). -/
def Package.choose (k : Package) : Option Bool :=
  let ok := fun b : List Byte => recordOk b && k.greatest ≤ (cfgOf b).counter
  match ok k.flashA, ok k.flashB with
  | true, true => some ((cfgOf k.flashA).counter < (cfgOf k.flashB).counter)
  | true, false => some false
  | false, true => some true
  | false, false => none

def Package.record (k : Package) (b : Bool) : List Byte := if b then k.flashB else k.flashA

/-! ### Measurement and start-up (R402, R403) -/

/-- Measuring an image into a register (R403). -/
def measure (mr : BitVec 512) (image : List Byte) : BitVec 512 :=
  BitVec.ofNat 512 (leNat (shake256 (leBytes 64 mr.toNat ++ shake256 image 64) 64))

/-- What a system range entry of the firmware gives. -/
def sysRangeOf (e : Nat × Nat × Nat) : Option Range :=
  (classOf (e.2.2 / 2 ^ 61 % 8)).map fun c => ⟨e.1, e.2.1, attrPa e.2.2, c, if attrXm e.2.2 then some (attrMod e.2.2) else none⟩

/-- The state after a start that has left HBM as `mem`: nothing runs, and the configuration in use is chosen (R402). -/
def State.startUp (mem : Ram) (s : State) : State :=
  let k := s.pkg
  let pick := k.choose
  let img := k.record (pick.getD false)
  let cfg := if pick.isSome then cfgOf img else Cfg.default
  let mr := [measure 0 Config.stage1, measure 0 Config.stage2, if pick.isSome then measure 0 (img.take recordSize) else 0, 0, 0, 0, 0, 0]
  let pkg : Package :=
    { Package.reset with
      phase := if pick.isSome then .open else .recovery, started := true, flashA := k.flashA, flashB := k.flashB
      useB := pick.getD false, cfg := cfg, greatest := if pick.isSome then max k.greatest cfg.counter else k.greatest, mr := mr
      leaf := k.leaf, salt := k.salt, chain := k.chain, remote := k.remote, dropped := k.dropped, absent := k.absent
      flashLog := k.flashLog, temp := k.temp, power := k.power }
  let s1 : State := { State.reset with mem := mem, pkg := pkg, inputs := s.inputs, outputs := s.outputs, fresh := s.fresh, freeCtr := s.freeCtr }
  let ps := cfg.parts.eraseDups
  let s2 := ps.foldl (fun s p => s.updPartAt p fun x =>
    { x with
      sysRanges := ((Config.systemRanges p).take 16).filterMap sysRangeOf
      queues := (List.range 64).map fun q => (q, LQueue.reset), sweep := ⟨sweepPeriod, s.clustersOf p, []⟩ }) s1
  let s3 := (List.range 512).foldl (fun s c => s.updCoreAt c fun x => { x with dptroot := dptRootOf (s.partOf (dieOfCore c)) }) s2
  k.flashLog.foldl (fun s e => s.updDieAt e.1 fun x =>
    { x with log := x.log ++ [{ e.2 with seq := x.logSeq }], logSeq := x.logSeq + 1 }) s3

/-- COLD_START (R402): HBM is zeroed. -/
def evColdStart (s : State) : State :=
  if s.pkg.phase = .off && !s.pkg.started then s.startUp Ram.empty else s

/-- WARM_START (R402): committed state is kept, unless the stored calibration fails its check. -/
def evWarmStart (s : State) : State :=
  if s.pkg.phase = .off && s.pkg.started then
    (s.startUp (if Config.freeChoice s.freeCtr 0 = 1 then Ram.empty else s.mem)).spendFree
  else s

/-! ### Requests and replies (R405, R406) -/

def slotBase (n : Nat) : Nat := 4096 * n
def State.mailNat (s : State) (slot o n : Nat) : Nat := leNat ((List.range n).map fun i => s.pkg.mailbox.byte (slotBase slot + o + i))
def State.mailBytes (s : State) (slot o n : Nat) : List Byte := (List.range n).map fun i => s.pkg.mailbox.byte (slotBase slot + o + i)
def State.mailWrite (slot o : Nat) (bs : List Byte) (s : State) : State :=
  { s with pkg := { s.pkg with mailbox := s.pkg.mailbox.setBytes (slotBase slot + o) bs } }

/-- Whether a slot holds a request (R406). -/
def State.pending (s : State) (slot : Nat) : Bool := s.mailNat slot 8 2 = 0xFFFF
/-- The request that the device serves next: requests complete in slot order (R405). -/
def State.nextRequest (s : State) : Option Nat :=
  if s.pkg.mailbox.bytes = [] || s.pkg.phase = .off then none else (List.range 256).find? s.pending

def sOk : Nat := 0
def sRefused : Nat := 1
def sBusy : Nat := 2
def sBadarg : Nat := 3
def sBadop : Nat := 4

/-- Greatest payload of a slot. -/
def payloadMax : Nat := 4096 - 64

/-- The number that stands for an agent not known: no queue pair of a port has it. -/
def noAgent : Nat := 15
/-- The agent that has written a slot's request (R405). -/
def State.writerOf (s : State) (slot : Nat) : Nat := SMap.look noAgent s.pkg.writers slot
/-- Whether the agent of a slot's request has answered a challenge with the owner key (R405). -/
def State.owned (s : State) (slot : Nat) : Bool := s.pkg.sessions.contains (s.writerOf slot)
/-- Whether the reserved bytes of a request's header are zero (R405, R406). -/
def State.headerOk (s : State) (slot : Nat) : Bool := (s.mailBytes slot 10 54).all fun b => b = 0

/-- Writes a reply, its header last, and keeps it for a repeated SEQ; a request from the management port is answered with a datagram (R406). -/
def State.answer (slot status : Nat) (payload : List Byte) (s : State) : State :=
  let seq := s.mailNat slot 2 2
  let s := s.mailWrite slot 64 payload
  let s := s.mailWrite slot 4 (leBytes 4 payload.length ++ leBytes 2 status ++ List.replicate 54 0)
  let s := if s.writerOf slot % 16 = mgmtPort then s.output (.datagram (s.writerOf slot / 16) (s.mailBytes slot 0 (64 + payload.length))) else s
  { s with pkg := { s.pkg with stored := SMap.put s.pkg.stored slot (seq, leBytes 2 status ++ payload) } }

/-- What a command gives: a status with a reply, or nothing yet. -/
inductive MailRes where
  | done (status : Nat) (payload : List Byte) (s : State)
  | wait (s : State)
  deriving Repr

def MailRes.bad (s : State) : MailRes := .done sBadarg [] s
def MailRes.ok (payload : List Byte) (s : State) : MailRes := .done sOk payload s

/-- Serves a slot whose request has opcode `op`; `free` marks a command open to any agent, `recov` one accepted in recovery. -/
def State.serve (slot op : Nat) (free recov : Bool) (f : List Byte → State → MailRes) (s : State) : State :=
  if s.nextRequest ≠ some slot || s.mailNat slot 0 2 ≠ op then s
  else
    match (s.pkg.stored.find? fun x => x.1 = slot && x.2.1 = s.mailNat slot 2 2) with
    | some x => s.answer slot (rd x.2.2 0 2) (x.2.2.drop 2)
    | none =>
      if (!recov && s.pkg.phase = .recovery) || (!free && !s.owned slot) then s.answer slot sRefused []
      else if payloadMax < s.mailNat slot 4 4 || !s.headerOk slot then s.answer slot sBadarg []
      else
        match f (s.mailBytes slot 64 (s.mailNat slot 4 4)) s with
        | .done st p s => s.answer slot st p
        | .wait s => s

/-- Whether a request payload holds its fields, of `n` bytes in all, and zero at every other offset (R407). -/
def fieldsOk (b : List Byte) (n : Nat) (fields : List (Nat × Nat)) : Bool :=
  n ≤ b.length && (List.range b.length).all fun i => byteAt b i = 0 || fields.any fun f => f.1 ≤ i && i < f.1 + f.2

/-! ### INFO, QUOTE, LOG, CHAIN (R404, R407) -/

/-- INFO (R407). -/
def evInfo (slot : Fin 256) (s : State) : State :=
  s.serve slot.val 0x01 true true (fun b s =>
    if !fieldsOk b 0 [] then .bad s
    else
      let c := s.pkg.cfg
      let masks := (List.range 16).map fun j => SMap.look (0 : BitVec 64) s.pkg.dropped j
      .ok ((List.range 16).flatMap (fun j => leBytes 8 (s.stackPresent j)) ++ masks.flatMap (fun m => leBytes 8 m.toNat) ++
        (List.range 64).map (fun i => byteAt c.desc i) ++ (List.range 8).map (fun d => BitVec.ofNat 8 (c.parts.getD d 0)) ++
        leBytes 1 c.modulePos ++ leBytes 1 c.domsize ++ leBytes 2 0 ++ leBytes 4 c.domid ++ leBytes 8 c.counter ++
        leBytes 1 (if s.pkg.phase = .recovery then 1 else 0)) s)

/-- The last leaf of a device key: it certifies the successor (R404). -/
def lastLeaf : Nat := 2 ^ 20 - 1
def State.chainLength (s : State) : Nat := s.pkg.chain.length + 1

/-- QUOTE (R404): the leaf is spent before the signature leaves. -/
def evQuote (slot : Fin 256) (s : State) : State :=
  s.serve slot.val 0x02 true true (fun b s =>
    if !fieldsOk b 32 [(0, 32)] then .bad s
    else if lastLeaf ≤ s.pkg.leaf then .wait s
    else
      let body := b.take 32 ++ s.pkg.mr.flatMap (fun m => leBytes 64 m.toNat) ++ s.deviceHash ++ leBytes 8 s.pkg.cfg.counter ++
        leBytes 4 s.pkg.leaf ++ leBytes 4 s.chainLength
      let sig := Config.deviceSign s.pkg.salt s.pkg.leaf body
      .ok (body ++ (List.range 2820).map fun i => byteAt sig i) { s with pkg := { s.pkg with leaf := s.pkg.leaf + 1 } })

/-- KEY_ROLLOVER (R404): the last leaf certifies the successor key, whose certificate joins the chain. -/
def evKeyRollover (s : State) : State :=
  if s.pkg.leaf < lastLeaf then s
  else
    let subject := (List.range 64).map fun i => byteAt (Config.deviceKey (s.pkg.salt + 1)) i
    let body := subject ++ leBytes 4 0 ++ leBytes 4 lastLeaf ++ leBytes 8 0
    let sig := Config.deviceSign s.pkg.salt lastLeaf body
    let cert := subject ++ leBytes 4 lastLeaf ++ (List.range 2820).map fun i => byteAt sig i
    { s with pkg := { s.pkg with chain := cert :: s.pkg.chain, salt := s.pkg.salt + 1, leaf := 0 } }

/-- Certificate `i` of the chain: subject, leaf and signature (R407). -/
def State.certAt (s : State) (i : Nat) : List Byte :=
  match s.pkg.chain[i]? with
  | some c => c
  | none => (List.range 2888).map fun i => byteAt Config.manufacturerCert i

/-- CHAIN (R407). -/
def evChain (slot : Fin 256) (s : State) : State :=
  s.serve slot.val 0x04 true true (fun b s =>
    let i := rd b 0 4
    if !fieldsOk b 4 [(0, 4)] || s.chainLength ≤ i then .bad s
    else
      let c := s.certAt i
      .ok (c.take 64 ++ leBytes 4 i ++ (c.drop 64).take 4 ++ leBytes 8 0 ++ c.drop 68) s)

def LogEnt.bytes (e : LogEnt) : List Byte :=
  leBytes 8 e.seq ++ leBytes 2 e.cls ++ leBytes 2 e.cause ++ leBytes 4 e.unit ++ leBytes 8 e.addr ++ leBytes 8 e.detail

/-- LOG (R407): at most 125 entries, from the oldest kept that is wanted. -/
def evLog (slot : Fin 256) (s : State) : State :=
  s.serve slot.val 0x03 true false (fun b s =>
    let d := rd b 0 1
    if !fieldsOk b 8 [(0, 1), (4, 4)] || 8 ≤ d then .bad s
    else
      let es := ((s.dieAt d).log.filter fun e => rd b 4 4 ≤ e.seq).take 125
      let next := match es.getLast? with | some e => e.seq + 1 | none => rd b 4 4
      .ok (leBytes 4 next ++ leBytes 4 es.length ++ es.flatMap LogEnt.bytes) s)

/-! ### LOAD and UNLOAD -/

/-- The partition whose loader takes an image: that of the die whose HBM holds it. -/
def State.imagePart (s : State) (pa : Nat) : PartId := s.partOf (dieOfPa pa)

/-- The Welkin firmware extends one of MR3 to MR7 for the loader when an object has been loaded (R403): which one is its choice (log 70). -/
def State.measureLoad (image : List Byte) (s : State) : State :=
  let i := 3 + Config.freeChoice s.freeCtr 0 % 5
  ({ s with pkg := { s.pkg with mr := s.pkg.mr.set i (measure (s.pkg.mr.getD i 0) image) } }).spendFree

/-- LOAD (R364, R407). -/
def evLoad (slot : Fin 256) (s : State) : State :=
  if s.mailNat slot.val 64 4 ≠ 0 then s
  else
    s.serve slot.val 0x10 false false (fun b s =>
      let pa := rd b 8 8
      let n := rd b 16 8
      if !fieldsOk b 40 [(0, 4), (8, 32)] || 2 ≤ rd b 32 8 || n = 0 || !s.inHbm pa || !s.inHbm (pa + n - 1) then .bad s
      else
        let r := s.loadObject (s.imagePart pa) (s.physBytes pa n) (rd b 24 8) (rd b 32 8)
        .ok r.1.bytes (if r.1.status = 0 then r.2.measureLoad (s.physBytes pa n) else r.2))

/-- UNLOAD (R379, R407). -/
def evUnload (slot : Fin 256) (s : State) : State :=
  if s.mailNat slot.val 64 4 ≠ 1 then s
  else
    s.serve slot.val 0x10 false false (fun b s =>
      let handle := rd b 8 4
      if !fieldsOk b 16 [(0, 4), (8, 8)] || 2 ≤ rd b 12 4 then .bad s
      else
        match s.handlePart handle with
        | none => .bad s
        | some p =>
          if s.references p handle = [] then .ok [] (s.unloadNow p handle)
          else if rd b 12 4 = 0 then .done sBusy [] s
          else .wait (s.forceUnload p handle))

/-! ### QCONF, PCONF, CGROUP, RDMAEP -/

/-- Whether a partition exists. -/
def State.hasPart (s : State) (p : Nat) : Bool := s.diesOf p ≠ []
def isPow2 (n : Nat) : Bool := (List.range 13).any fun k => n = 2 ^ k

/-- QCONF (R306, R311, R315). -/
def evQconf (slot : Fin 256) (s : State) : State :=
  s.serve slot.val 0x11 false false (fun b s =>
    let p := rd b 0 1
    let q := rd b 1 1
    let base := rd b 8 8
    let n := rd b 16 4
    let period := rd b 20 4
    let budget := rd b 24 4
    if !fieldsOk b 28 [(0, 2), (8, 20)] || !s.hasPart p || 64 ≤ q || base % 64 ≠ 0 || !isPow2 n || !s.inHbm base ||
        !s.inHbm (base + 63 + 512 * n) || (if period = 0 then budget ≠ 0 else budget = 0 || period < budget) then .bad s
    else .ok [] (s.updQueue p q fun _ => ⟨base, n, period, budget, budget, s.now, false⟩))

/-- PCONF (R311). -/
def evPconf (slot : Fin 256) (s : State) : State :=
  s.serve slot.val 0x12 false false (fun b s =>
    let p := rd b 0 1
    let vs := (List.range 8).map fun i => rd b (8 + 8 * i) 8
    if !fieldsOk b 72 [(0, 1), (8, 64)] || !s.hasPart p || !vs.all (fun v => 1 ≤ v && v < 2 ^ 40) then .bad s
    else .ok [] (s.updPartAt p fun x => { x with reldl := Vector.ofFn fun i => vs.getD i.val 0 }))

/-- CGROUP (R391): the round number is 0 and the group's slots are cleared. -/
def evCgroup (slot : Fin 256) (s : State) : State :=
  s.serve slot.val 0x13 false false (fun b s =>
    let g := rd b 0 1
    let op := rd b 16 1
    let ty := rd b 17 1
    let n := rd b 18 1
    if !fieldsOk b 19 [(0, 1), (8, 11)] || 64 ≤ g || 3 ≤ op || 2 ≤ ty || n = 0 || 64 < n ||
        2 ^ (8 * max 1 s.pkg.cfg.domsize) ≤ rd b 8 8 then .bad s
    else
      let k : Group := ⟨BitVec.ofNat 64 (rd b 8 8), op, ty, n, 0, [], 0, none, []⟩
      let s := s.updGroup g fun _ => k
      .ok [] ((k.diesOn s.pkg.cfg.modulePos).foldl (fun s d => s.slotWrite d g 0 (List.replicate slotSize 0)) s))

/-- RDMAEP (R385): queue pair 0 unbinds the window. -/
def evRdmaep (slot : Fin 256) (s : State) : State :=
  s.serve slot.val 0x14 false false (fun b s =>
    let w := rd b 0 1
    let port := rd b 1 1
    let qp := rd b 4 4
    if !fieldsOk b 24 [(0, 2), (4, 8), (16, 8)] || 8 ≤ port then .bad s
    else if qp = 0 then .ok [] { s with pkg := { s.pkg with windows := SMap.del s.pkg.windows w } }
    else if !(s.portAt port).qps.contains qp then .bad s
    else .ok [] { s with pkg := { s.pkg with windows := SMap.put s.pkg.windows w ⟨port, qp, rd b 8 4, rd b 16 8⟩ } })

/-! ### RESET, DROPPC, CONFIG, DEBUG -/

/-- The reset that a RESET request names, none where its target names nothing (R407). -/
def State.resetOf (s : State) (kind target : Nat) : Option (State → State) :=
  match kind with
  | 0 =>
    let n := target % 1024
    if target / 1024 = s.pkg.cfg.modulePos && n % 2 = 0 then some (evResetCore (n / 2)) else none
  | 1 => if target < 32 then some (evResetCopyEngine target) else none
  | 2 => if target < 64 && target / 8 < target % 8 && linked (target / 8) (target % 8) then some (evResetDieLink (target / 8) (target % 8)) else none
  | 3 => if h : target < 8 then some (evResetEthernetPort ⟨target, h⟩) else none
  | 4 => if s.hasPart target then some (evResetPartition target) else none
  | 5 => if target = 0 then some evResetDevice else none
  | _ => none

/-- RESET (R399, R407): a device reset begins after its reply. -/
def State.serveReset (slot : Nat) (s : State) : State :=
  let kind := s.mailNat slot 64 1
  let answered := s.serve slot 0x20 false false (fun b s =>
    if !fieldsOk b 8 [(0, 1), (4, 4)] then .bad s
    else
      match s.resetOf (rd b 0 1) (rd b 4 4) with
      | none => .bad s
      | some f => .ok [] (if rd b 0 1 = 5 then s else f s))
  if kind = 5 && s.nextRequest = some slot && s.mailNat slot 0 2 = 0x20 && answered.mailNat slot 8 2 = 0 &&
      !(s.pkg.stored.any fun x => x.1 = slot && x.2.1 = s.mailNat slot 2 2) then evResetDevice answered
  else answered

/-- Whether a pseudo-channel is dropped, or its stack absent. -/
def State.pcGone (s : State) (j pc : Nat) : Bool :=
  s.pkg.absent.contains j || (SMap.look (0 : BitVec 64) s.pkg.dropped j).getLsbD pc

/-- DROPPC (R400, R407): the reply follows the drop. -/
def evDroppc (slot : Fin 256) (s : State) : State :=
  s.serve slot.val 0x21 false false (fun b s =>
    let j := 2 * rd b 0 1 + rd b 1 1
    let pc := rd b 2 1
    if !fieldsOk b 3 [(0, 3)] || 8 ≤ rd b 0 1 || 2 ≤ rd b 1 1 || 64 ≤ pc then .bad s
    else if s.pkg.drops.any fun d => d.1 = j && d.2.1 = pc && d.2.2 = some slot.val then .wait s
    else if s.pkg.drops.any fun d => d.1 = j && d.2.1 = pc then .done sBusy [] s
    else if s.pcGone j pc then .bad s
    else .wait (s.requestDrop j pc (some slot.val)))

/-- PC_DROP (R400): admission is held and launches are pre-empted; then the stack shrinks, and the requester is answered. -/
def evPcDrop (d : DieId) (stack : Fin 2) (pc : Fin 64) (s : State) : State :=
  let j := 2 * d + stack.val
  match s.pkg.drops.find? fun x => x.1 = j && x.2.1 = pc.val with
  | none => if s.pcGone j pc.val then s else s.requestDrop j pc.val none
  | some e =>
    let p := s.partOfStack j
    if (s.partAt p).held && s.nextDrop = some e then
      let s := (s.dropNow j pc.val).endDrop e
      match e.2.2 with
      | some slot => s.answer slot sOk (leBytes 8 (s.stackPresent j))
      | none => s
    else
      (s.launchesOf p).foldl (fun s l =>
        if l.2.st = .running && l.2.pre = .none then (s.requestStop l.1).updLaunchAt l.1 fun l => { l with cut := .none } else s)
        (s.updPartAt p fun x => { x with held := true })

/-- CONFIG (R405): the record goes into the copy not in use. -/
def evConfig (slot : Fin 256) (s : State) : State :=
  s.serve slot.val 0x22 false true (fun b s =>
    if !fieldsOk b recordSize [(0, recordSize)] then .bad s
    else
      let img := b.take recordSize
      let k := s.pkg
      if k.phase = .recovery || k.useB then .ok (leBytes 1 0) { s with pkg := { k with flashA := img } }
      else .ok (leBytes 1 1) { s with pkg := { k with flashB := img } })

/-- DEBUG (R359, R407). -/
def State.serveDebug (slot : Nat) (s : State) : State :=
  s.serve slot 0x23 false false (fun b s =>
    let id := rd b 0 2
    let n := id % 1024
    let bad := !fieldsOk b 3 [(0, 3)] || 8192 ≤ id || id / 1024 ≠ s.pkg.cfg.modulePos || 2 ≤ rd b 2 1
    match (s.hartAt n).mode with
    | .welkin t =>
      if bad || t.cause ≠ cBreak then .bad s
      else .ok (leBytes 8 t.pc.toNat ++ leBytes 8 t.info.toNat) (if rd b 2 1 = 1 then evDebugHold n s else evDebugResume n s)
    | _ => .bad s)

/-- OWNER_SESSION (R405): the session of a queue pair's agent, or of a sender on the management port, that has answered a challenge with the
owner key. -/
def evOwnerSession (port : Fin 9) (qp : Nat) (challenge sig : List Byte) (s : State) : State :=
  if s.pkg.phase ≠ .off && Config.ownerVerifies challenge sig then
    { s with pkg := { s.pkg with sessions := insertSorted s.pkg.sessions (agentOf port.val qp) } }
  else s

/-- Serves a slot, whatever its command; an opcode outside the table is answered with BADOP. -/
def State.serveMail (n : Fin 256) (s : State) : State :=
  match s.mailNat n.val 0 2 with
  | 0x01 => evInfo n s
  | 0x02 => evQuote n s
  | 0x03 => evLog n s
  | 0x04 => evChain n s
  | 0x10 =>
    if s.mailNat n.val 64 4 = 0 then evLoad n s
    else if s.mailNat n.val 64 4 = 1 then evUnload n s
    else s.serve n.val 0x10 false false fun _ s => .bad s
  | 0x11 => evQconf n s
  | 0x12 => evPconf n s
  | 0x13 => evCgroup n s
  | 0x14 => evRdmaep n s
  | 0x20 => s.serveReset n.val
  | 0x21 => evDroppc n s
  | 0x22 => evConfig n s
  | 0x23 => s.serveDebug n.val
  | _ => s.answer n.val sBadop []

/-- Whether a pending request waits for something else: a drop, a forced unload, or a new device key. -/
def State.mailWaits (s : State) (n : Nat) : Bool :=
  match s.mailNat n 0 2 with
  | 0x02 => lastLeaf ≤ s.pkg.leaf && s.headerOk n
  | 0x10 =>
    s.mailNat n 64 4 = 1 && s.mailNat n 76 4 = 1 && s.owned n && s.headerOk n &&
      (match s.handlePart (s.mailNat n 72 4) with
       | some p => s.references p (s.mailNat n 72 4) ≠ [] && !(s.references p (s.mailNat n 72 4)).any fun l => l.2.forceable
       | none => false)
  | 0x21 => s.pkg.drops.any fun d => d.2.2 = some n
  | _ => false

/-- The slot that the device serves now. -/
def State.mailDue (s : State) : Option Nat := s.nextRequest.bind fun n => if s.mailWaits n then none else some n

end Sys2Proof.Machine
end

