-- ==== Sys2Proof/Machine/Events.lean ====
section
/-! DEFINITION. The meanings of the event rows of the opcode table: each calls its event, and faults where it names a unit that the package does not have (R10). -/

namespace Sys2Proof.Machine

/-- An event of units that exist; one that names others faults. -/
def onUnit (ok : Bool) (f : State → State) (s : State) : Res := if ok then .next (f s) else .fault .noSuchUnit

/-- Whether the unit whose memory reports an error exists. -/
def eccUnit : EccMem → Bool
  | .hbm _ => true
  | .sram d _ _ | .buffer d => d < 8
  | .core c => c < 512
  | .spad c => c < 32

/-- ICACHE_FILL (R117). -/
def execIcacheFill (hart : HartId) (s : State) : Res := onUnit (hart < 1024) (evIcacheFill hart) s

/-- FETCH_WALK_END (R112, R117). -/
def execFetchWalkEnd (hart : HartId) (s : State) : Res := onUnit (hart < 1024) (evFetchWalkEnd hart) s

/-- DATA_WALK_END (R112, R114). -/
def execDataWalkEnd (hart : HartId) (id : Nat) (s : State) : Res := onUnit (hart < 1024) (evDataWalkEnd hart id) s

/-- LANDING (R95, R97). -/
def execLanding (core : CoreId) (s : State) : Res := onUnit (core < 512) (evLanding core) s

/-- DATA_ARRIVAL (R97). -/
def execDataArrival (core : CoreId) (s : State) : Res := onUnit (core < 512) (evDataArrival core) s

/-- MEMORY_TIMEOUT (R101). -/
def execMemoryTimeout (hart : HartId) (id : Nat) (s : State) : Res := onUnit (hart < 1024) (evMemoryTimeout hart id) s

/-- STORE_PERFORM (R433). -/
def execStorePerform (id : Nat) (s : State) : Res := .next (evStorePerform id s)

/-- ATOMIC_PERFORM (R149, R150, R152). -/
def execAtomicPerform (id : Nat) (s : State) : Res := .next (evAtomicPerform id s)

/-- CHECKPOINT_COMPLETE (R333). -/
def execCheckpointComplete (hart : HartId) (s : State) : Res := onUnit (hart < 1024) (evCheckpointComplete hart) s

/-- BUNDLE_LIMIT_CHECKPOINT (R331). -/
def execBundleLimitCheckpoint (hart : HartId) (s : State) : Res := onUnit (hart < 1024) (evBundleLimitCheckpoint hart) s

/-- WELKIN_RESUME (R342). -/
def execWelkinResume (hart : HartId) (s : State) : Res := onUnit (hart < 1024) (evWelkinResume hart) s

/-- ENGINE_FIRE (R261). -/
def execEngineFire (core : CoreId) (id : Nat) (s : State) : Res := onUnit (core < 512) (evEngineFire core id) s

/-- ENGINE_COMPLETE (R262). -/
def execEngineComplete (core : CoreId) (id : Nat) (s : State) : Res := onUnit (core < 512) (evEngineComplete core id) s

/-- QPUSH_FIRE (R225). -/
def execQpushFire (core : CoreId) (id : Nat) (s : State) : Res := onUnit (core < 512) (evQpushFire core id) s

/-- QPOP_FIRE (R226). -/
def execQpopFire (core : CoreId) (id : Nat) (s : State) : Res := onUnit (core < 512) (evQpopFire core id) s

/-- QPOP_GROUP_WRITE (R226). -/
def execQpopGroupWrite (core : CoreId) (id : Nat) (s : State) : Res := onUnit (core < 512) (evQpopGroupWrite core id) s

/-- V_WRITE_COMPLETE (R181, R214). -/
def execVWriteComplete (core : CoreId) (id : Nat) (s : State) : Res := onUnit (core < 512) (evVWriteComplete core id) s

/-- QST_BLOCK_PUSH (R171). -/
def execQstBlockPush (core : CoreId) (id : Nat) (s : State) : Res := onUnit (core < 512) (evQstBlockPush core id) s

/-- RECHECK_EXECUTE (R346). -/
def execRecheckExecute (core : CoreId) (id : Nat) (agree : Bool) (s : State) : Res := onUnit (core < 512) (evRecheckExecute core id agree) s

/-- STREAM_PUSH (R238). -/
def execStreamPush (core : CoreId) (slot : Fin 4) (s : State) : Res := onUnit (core < 512) (evStreamPush core slot) s

/-- STREAM_WRITE (R239). -/
def execStreamWrite (core : CoreId) (slot : Fin 4) (s : State) : Res := onUnit (core < 512) (evStreamWrite core slot) s

/-- COPY_CHUNK_DONE (R247). -/
def execCopyChunkDone (chunk : ChunkReply) (s : State) : Res := onUnit (chunk.cluster < 32) (evCopyChunkDone chunk.cluster chunk.reply) s

/-- COPY_DONE (R247). -/
def execCopyDone (cluster : ClusterId) (s : State) : Res := onUnit (cluster < 32) (evCopyDone cluster) s

/-- PICKUP (R277 to R279). -/
def execPickup (hart : HartId) (s : State) : Res := onUnit (hart < 1024) (evPickup hart) s

/-- STRIP_START (R298). -/
def execStripStart (hart : HartId) (s : State) : Res := onUnit (hart < 1024) (evStripStart hart) s

/-- WRITEBACK_COMPLETE (R280). -/
def execWritebackComplete (hart : HartId) (s : State) : Res := onUnit (hart < 1024) (evWritebackComplete hart) s

/-- FUTURE_WAKE (R288). -/
def execFutureWake (die : DieId) (s : State) : Res := onUnit (die < 8) (evFutureWake die) s

/-- SWEEP (R293). -/
def execSweep (part : PartId) (node : Option ClusterId) (s : State) : Res := onUnit ((part < 8) && (node.all fun c => c < 32)) (evSweep part node) s

/-- LAUNCH_TAKE (R306). -/
def execLaunchTake (part : PartId) (queue : Fin 64) (s : State) : Res := onUnit (part < 8) (evLaunchTake part queue) s

/-- ADMISSION (R309). -/
def execAdmission (part : PartId) (s : State) : Res := onUnit (part < 8) (evAdmission part) s

/-- LAUNCH_READY (R310). -/
def execLaunchReady (id : Nat) (s : State) : Res := .next (evLaunchReady id s)

/-- LAUNCH_START (R312, R314). -/
def execLaunchStart (id : Nat) (s : State) : Res := .next (evLaunchStart id s)

/-- PERIOD_REFILL (R315). -/
def execPeriodRefill (part : PartId) (queue : Fin 64) (s : State) : Res := onUnit (part < 8) (evPeriodRefill part queue) s

/-- BUDGET_EXHAUSTED (R315). -/
def execBudgetExhausted (part : PartId) (queue : Fin 64) (s : State) : Res := onUnit (part < 8) (evBudgetExhausted part queue) s

/-- OVERRUN (R316). -/
def execOverrun (id : Nat) (s : State) : Res := .next (evOverrun id s)

/-- SHADOW_OVERFLOW (R319). -/
def execShadowOverflow (id : Nat) (s : State) : Res := .next (evShadowOverflow id s)

/-- IRREVOCABLE_SWITCH (R319). -/
def execIrrevocableSwitch (id : Nat) (s : State) : Res := .next (evIrrevocableSwitch id s)

/-- LAUNCH_END (R320). -/
def execLaunchEnd (id : Nat) (s : State) : Res := .next (evLaunchEnd id s)

/-- PREPARE (R320). -/
def execPrepare (part : PartId) (s : State) : Res := onUnit (part < 8) (evPrepare part) s

/-- COMMIT (R320, R324). -/
def execCommit (part : PartId) (s : State) : Res := onUnit (part < 8) (evCommit part) s

/-- LINE_SETTLE (R320). -/
def execLineSettle (id : Nat) (s : State) : Res := .next (evLineSettle id s)

/-- LAUNCH_ABORT (R322). -/
def execLaunchAbort (id : Nat) (s : State) : Res := .next (evLaunchAbort id s)

/-- CANCEL (R308). -/
def execCancel (part : PartId) (queue : Fin 64) (s : State) : Res := onUnit (part < 8) (evCancel part queue) s

/-- CONTEXT_SAVE (R352, R353). -/
def execContextSave (id : Nat) (faulted : Bool) (s : State) : Res := .next (evContextSave id faulted s)

/-- RESTORE (R354). -/
def execRestore (id : Nat) (s : State) : Res := .next (evRestore id s)

/-- RESUME (R348, R351). -/
def execResume (id : Nat) (s : State) : Res := .next (evResume id s)

/-- CUT_ROUND (R351). -/
def execCutRound (id : Nat) (s : State) : Res := .next (evCutRound id s)

/-- CUTFAIL (R351). -/
def execCutfail (id : Nat) (s : State) : Res := .next (evCutfail id s)

/-- COLLECTIVE_TRIGGER (R392, R395). -/
def execCollectiveTrigger (die : DieId) (group : Fin 64) (s : State) : Res := onUnit (die < 8) (evCollectiveTrigger die group) s

/-- COLLECTIVE_COMPLETE (R392 to R395). -/
def execCollectiveComplete (group : Fin 64) (s : State) : Res := .next (evCollectiveComplete group s)

/-- COLLECTIVE_TIMEOUT (R395). -/
def execCollectiveTimeout (group : Fin 64) (s : State) : Res := .next (evCollectiveTimeout group s)

/-- STREAM_FAULT (R241). -/
def execStreamFault (core : CoreId) (slot : Fin 4) (f : EngFault) (s : State) : Res := onUnit (core < 512) (evStreamFault core slot f) s

/-- PREEMPT (R347). -/
def execPreempt (id : Nat) (s : State) : Res := .next (evPreempt id s)

/-- SAVE_RESTART (R353). -/
def execSaveRestart (id : Nat) (s : State) : Res := .next (evSaveRestart id s)

/-- STOP_REQUEST (R351). -/
def execStopRequest (id : Nat) (s : State) : Res := .next (evStopRequest id s)

/-- SRAMERR (R345). -/
def execSramerr (hart : HartId) (owner : CoreId) (s : State) : Res := onUnit ((hart < 1024) && (owner < 512)) (evSramerr hart owner) s

/-- RDMA_WRITE (R383). -/
def execRdmaWrite (place : RdmaAt 9) (payload : RdmaPayload) (s : State) : Res :=
  .next (evRdmaWrite place.port place.qp place.pa payload.data payload.imm s)

/-- RDMA_READ (R383). -/
def execRdmaRead (place : RdmaAt 9) (len : Nat) (s : State) : Res := .next (evRdmaRead place.port place.qp place.pa len s)

/-- RDMA_SEND (R383). -/
def execRdmaSend (port : Fin 8) (qp : Nat) (data : List Byte) (s : State) : Res := .next (evRdmaSend port qp data s)

/-- RDMA_FETCH_ADD (R383). -/
def execRdmaFetchAdd (place : RdmaAt 8) (v : Word) (s : State) : Res := .next (evRdmaFetchAdd place.port place.qp place.pa v s)

/-- RDMA_COMPARE_SWAP (R383). -/
def execRdmaCompareSwap (place : RdmaAt 8) (expected new : Word) (s : State) : Res :=
  .next (evRdmaCompareSwap place.port place.qp place.pa expected new s)

/-- LINK_BRINGUP (R384). -/
def execLinkBringup (port : Fin 8) (domid : BitVec 32) (pos : Nat) (s : State) : Res := .next (evLinkBringup port domid pos s)

/-- PEER_FRAME (R386). -/
def execPeerFrame (port : Fin 8) (seq pa : Nat) (act : PeerAct) (len : Nat) (s : State) : Res := .next (evPeerFrame port seq (peerOp pa act len) s)

/-- PEER_RESEND (R386). -/
def execPeerResend (port : Fin 8) (seq : Nat) (s : State) : Res := .next (evPeerResend port seq s)

/-- PEER_PORT_LOST (R386, R395). -/
def execPeerPortLost (port : Fin 8) (s : State) : Res := .next (evPeerPortLost port s)

/-- FLIT_RECEIVE (R388). -/
def execFlitReceive (a b : DieId) (seq : Nat) (flit : Flit) (s : State) : Res :=
  onUnit ((a < 8) && (b < 8)) (evFlitReceive a b seq flit.payload flit.crc) s

/-- FLIT_REPLAY (R388). -/
def execFlitReplay (a b : DieId) (crc : BitVec 32) (s : State) : Res := onUnit ((a < 8) && (b < 8)) (evFlitReplay a b crc) s

/-- DIE_LINK_LOST (R389). -/
def execDieLinkLost (a : DieId) (b : DieId) (s : State) : Res := onUnit ((a < 8) && (b < 8)) (evDieLinkLost a b) s

/-- PATROL_SCRUB (R396, R397, R400). -/
def execPatrolScrub (mem : EccMem) (corrected uncorrectable : Bool) (s : State) : Res := onUnit (eccUnit mem) (evPatrolScrub mem corrected uncorrectable) s

/-- PC_DROP (R400). -/
def execPcDrop (die : DieId) (stack : Fin 2) (pc : Fin 64) (s : State) : Res := onUnit (die < 8) (evPcDrop die stack pc) s

/-- THERMAL_THROTTLE (R408). -/
def execThermalThrottle (temp : Int) (power : Nat) (s : State) : Res := .next (evThermalThrottle temp power s)

/-- COLD_START (R402). -/
def execColdStart (s : State) : Res := .next (evColdStart s)

/-- WARM_START (R402). -/
def execWarmStart (s : State) : Res := .next (evWarmStart s)

/-- KEY_ROLLOVER (R404). -/
def execKeyRollover (s : State) : Res := .next (evKeyRollover s)

/-- INFO (R407). -/
def execInfo (slot : Fin 256) (s : State) : Res := .next (evInfo slot s)

/-- QUOTE (R404). -/
def execQuote (slot : Fin 256) (s : State) : Res := .next (evQuote slot s)

/-- LOG (R407). -/
def execLog (slot : Fin 256) (s : State) : Res := .next (evLog slot s)

/-- CHAIN (R407). -/
def execChain (slot : Fin 256) (s : State) : Res := .next (evChain slot s)

/-- LOAD (R364, R407). -/
def execLoad (slot : Fin 256) (s : State) : Res := .next (evLoad slot s)

/-- UNLOAD (R379, R407). -/
def execUnload (slot : Fin 256) (s : State) : Res := .next (evUnload slot s)

/-- QCONF (R306, R311, R315). -/
def execQconf (slot : Fin 256) (s : State) : Res := .next (evQconf slot s)

/-- PCONF (R311). -/
def execPconf (slot : Fin 256) (s : State) : Res := .next (evPconf slot s)

/-- CGROUP (R391). -/
def execCgroup (slot : Fin 256) (s : State) : Res := .next (evCgroup slot s)

/-- RDMAEP (R385). -/
def execRdmaep (slot : Fin 256) (s : State) : Res := .next (evRdmaep slot s)

/-- RESET_CORE (R399). -/
def execResetCore (core : CoreId) (s : State) : Res := onUnit (core < 512) (evResetCore core) s

/-- RESET_COPY_ENGINE (R399). -/
def execResetCopyEngine (cluster : ClusterId) (s : State) : Res := onUnit (cluster < 32) (evResetCopyEngine cluster) s

/-- RESET_DIE_LINK (R389, R399). -/
def execResetDieLink (a : DieId) (b : DieId) (s : State) : Res := onUnit ((a < 8) && (b < 8)) (evResetDieLink a b) s

/-- RESET_ETHERNET_PORT (R399). -/
def execResetEthernetPort (port : Fin 8) (s : State) : Res := .next (evResetEthernetPort port s)

/-- RESET_PARTITION (R329, R399). -/
def execResetPartition (part : PartId) (s : State) : Res := onUnit (part < 8) (evResetPartition part) s

/-- RESET_DEVICE (R399). -/
def execResetDevice (s : State) : Res := .next (evResetDevice s)

/-- DROPPC (R400, R407). -/
def execDroppc (slot : Fin 256) (s : State) : Res := .next (evDroppc slot s)

/-- CONFIG (R405). -/
def execConfig (slot : Fin 256) (s : State) : Res := .next (evConfig slot s)

/-- DEBUG_RESUME (R359). -/
def execDebugResume (hart : HartId) (s : State) : Res := onUnit (hart < 1024) (evDebugResume hart) s

/-- DEBUG_HOLD (R359). -/
def execDebugHold (hart : HartId) (s : State) : Res := onUnit (hart < 1024) (evDebugHold hart) s

/-- WELKIN_CORE_FAULT (R397). -/
def execWelkinCoreFault (die : DieId) (s : State) : Res := onUnit (die < 8) (evWelkinCoreFault die) s

/-- SHADOW_DIRECTORY_ERROR (R397). -/
def execShadowDirectoryError (die : DieId) (s : State) : Res := onUnit (die < 8) (evShadowDirectoryError die) s

/-- COPY_FAULT (R241, R247). -/
def execCopyFault (cluster : ClusterId) (f : EngFault) (s : State) : Res := onUnit (cluster < 32) (evCopyFault cluster f) s

/-- MAPPING_REPAIRED (R241). -/
def execMappingRepaired (core : CoreId) (s : State) : Res := onUnit (core < 512) (evMappingRepaired core) s

/-- TRANSLATION_INVALIDATE (R114). -/
def execTranslationInvalidate (core : CoreId) (s : State) : Res := onUnit (core < 512) (evTranslationInvalidate core) s

/-- OWNER_SESSION (R405). -/
def execOwnerSession (challenge : SessionChallenge) (sig : List Byte) (s : State) : Res :=
  .next (evOwnerSession challenge.port challenge.qp challenge.bytes sig s)

end Sys2Proof.Machine
end

