-- ==== Sys2Proof/Machine/Scalar.lean ====
section
/-! DEFINITION. Scalar integer operations, compares and predicates: ADD to SEL, CMPEQ to PPUT (R66, R70 to R80). -/

namespace Sys2Proof.Machine

/-- A register operation of two sources with latency `lat` (R66, R70). -/
def alu2 (h : Head) (xd xa xb : XReg) (lat : Nat) (f : Word → Word → Word) (s : State) : Res :=
  guarded h (fun s => s.putX xd (f (s.x xa) (s.x xb)) (s.xPoi xa || s.xPoi xb) lat) s

/-- A register operation of one source with latency 1. -/
def alu1 (h : Head) (xd xa : XReg) (f : Word → Word) (s : State) : Res :=
  guarded h (fun s => s.putX xd (f (s.x xa)) (s.xPoi xa) 1) s

/-- A shift count of R70: xb[5:0]. -/
def count6 (b : Word) : Nat := b.toNat % 64

/-- Bits 127:64 of the signed product (R70). -/
def mulHigh (a b : Word) : Word := BitVec.ofInt 64 (a.toInt * b.toInt / 2 ^ 64)

def minS (a b : Word) : Word := if a.slt b then a else b
def maxS (a b : Word) : Word := if a.slt b then b else a
def minU (a b : Word) : Word := if a.ult b then a else b
def maxU (a b : Word) : Word := if a.ult b then b else a

/-- Leading zeros of a 64-bit value (R73). -/
def clz64 (a : Word) : Nat := if a = 0 then 64 else 63 - Nat.log2 a.toNat
/-- One bits of a 64-bit value (R73). -/
def popc64 (a : Word) : Nat := ((List.range 64).filter fun i => a.getLsbD i).length

/-- ADD (R70). -/
def execAdd (h : Head) (xd xa xb : XReg) (s : State) : Res := alu2 h xd xa xb 1 (fun a b => a + b) s
/-- SUB (R70). -/
def execSub (h : Head) (xd xa xb : XReg) (s : State) : Res := alu2 h xd xa xb 1 (fun a b => a - b) s
/-- MUL (R70), latency 3 (R66). -/
def execMul (h : Head) (xd xa xb : XReg) (s : State) : Res := alu2 h xd xa xb 3 (fun a b => a * b) s
/-- MULH (R70), latency 3 (R66). -/
def execMulh (h : Head) (xd xa xb : XReg) (s : State) : Res := alu2 h xd xa xb 3 mulHigh s
/-- AND (R70). -/
def execAnd (h : Head) (xd xa xb : XReg) (s : State) : Res := alu2 h xd xa xb 1 (fun a b => a &&& b) s
/-- OR (R70). -/
def execOr (h : Head) (xd xa xb : XReg) (s : State) : Res := alu2 h xd xa xb 1 (fun a b => a ||| b) s
/-- XOR (R70). -/
def execXor (h : Head) (xd xa xb : XReg) (s : State) : Res := alu2 h xd xa xb 1 (fun a b => a ^^^ b) s
/-- SLL (R70). -/
def execSll (h : Head) (xd xa xb : XReg) (s : State) : Res := alu2 h xd xa xb 1 (fun a b => a <<< count6 b) s
/-- SRL (R70). -/
def execSrl (h : Head) (xd xa xb : XReg) (s : State) : Res := alu2 h xd xa xb 1 (fun a b => a >>> count6 b) s
/-- SRA (R70). -/
def execSra (h : Head) (xd xa xb : XReg) (s : State) : Res := alu2 h xd xa xb 1 (fun a b => a.sshiftRight (count6 b)) s
/-- MIN (R70). -/
def execMin (h : Head) (xd xa xb : XReg) (s : State) : Res := alu2 h xd xa xb 1 minS s
/-- MAX (R70). -/
def execMax (h : Head) (xd xa xb : XReg) (s : State) : Res := alu2 h xd xa xb 1 maxS s
/-- MINU (R70). -/
def execMinu (h : Head) (xd xa xb : XReg) (s : State) : Res := alu2 h xd xa xb 1 minU s
/-- MAXU (R70). -/
def execMaxu (h : Head) (xd xa xb : XReg) (s : State) : Res := alu2 h xd xa xb 1 maxU s
/-- ADDI (R71). -/
def execAddi (h : Head) (xd xa : XReg) (imm : BitVec 22) (s : State) : Res := alu1 h xd xa (fun a => a + sextTo64 imm) s
/-- ANDI (R71). -/
def execAndi (h : Head) (xd xa : XReg) (imm : BitVec 22) (s : State) : Res := alu1 h xd xa (fun a => a &&& sextTo64 imm) s
/-- ORI (R71). -/
def execOri (h : Head) (xd xa : XReg) (imm : BitVec 22) (s : State) : Res := alu1 h xd xa (fun a => a ||| sextTo64 imm) s
/-- XORI (R71). -/
def execXori (h : Head) (xd xa : XReg) (imm : BitVec 22) (s : State) : Res := alu1 h xd xa (fun a => a ^^^ sextTo64 imm) s
/-- SLLI (R72). -/
def execSlli (h : Head) (xd xa : XReg) (sh : Fin 64) (s : State) : Res := alu1 h xd xa (fun a => a <<< sh.val) s
/-- SRLI (R72). -/
def execSrli (h : Head) (xd xa : XReg) (sh : Fin 64) (s : State) : Res := alu1 h xd xa (fun a => a >>> sh.val) s
/-- SRAI (R72). -/
def execSrai (h : Head) (xd xa : XReg) (sh : Fin 64) (s : State) : Res := alu1 h xd xa (fun a => a.sshiftRight sh.val) s
/-- CLZ (R73). -/
def execClz (h : Head) (xd xa : XReg) (s : State) : Res := alu1 h xd xa (fun a => BitVec.ofNat 64 (clz64 a)) s
/-- POPC (R73). -/
def execPopc (h : Head) (xd xa : XReg) (s : State) : Res := alu1 h xd xa (fun a => BitVec.ofNat 64 (popc64 a)) s
/-- MOVI (R74). -/
def execMovi (h : Head) (xd : XReg) (imm : BitVec 59) (s : State) : Res :=
  guarded h (fun s => s.putX xd (sextTo64 imm) false 1) s

/-- Replaces halfword `k` of a register value (R75). -/
def insertHalf (a : Word) (imm : BitVec 16) (k : Nat) : Word :=
  (a &&& ~~~((0xFFFF : Word) <<< (16 * k))) ||| (imm.setWidth 64 <<< (16 * k))

/-- MOVT (R75). -/
def execMovt (h : Head) (xd xa : XReg) (imm : BitVec 16) (k : Fin 4) (s : State) : Res :=
  alu1 h xd xa (fun a => insertHalf a imm k.val) s
/-- SEL (R76): the mark of a poisoned selector or of the selected source moves to the result (R127). -/
def execSel (h : Head) (xd : XReg) (pa : PReg) (xa xb : XReg) (s : State) : Res :=
  guarded h (fun s =>
    let src := if s.p pa then xa else xb
    s.putX xd (s.x src) (s.pPoi pa || s.xPoi src) 1) s

/-- A register compare (R77, R78). -/
def cmp2 (h : Head) (pd pc : PReg) (xa xb : XReg) (f : Word → Word → Bool) (s : State) : Res :=
  guarded h (fun s => s.putP2 pd pc (f (s.x xa) (s.x xb)) (s.xPoi xa || s.xPoi xb) 1) s

/-- CMPEQ (R78). -/
def execCmpeq (h : Head) (pd pc : PReg) (xa xb : XReg) (s : State) : Res := cmp2 h pd pc xa xb (fun a b => a = b) s
/-- CMPNE (R78). -/
def execCmpne (h : Head) (pd pc : PReg) (xa xb : XReg) (s : State) : Res := cmp2 h pd pc xa xb (fun a b => a ≠ b) s
/-- CMPLT (R78). -/
def execCmplt (h : Head) (pd pc : PReg) (xa xb : XReg) (s : State) : Res := cmp2 h pd pc xa xb (fun a b => a.slt b) s
/-- CMPLTU (R78). -/
def execCmpltu (h : Head) (pd pc : PReg) (xa xb : XReg) (s : State) : Res := cmp2 h pd pc xa xb (fun a b => a.ult b) s
/-- CMPGE (R78). -/
def execCmpge (h : Head) (pd pc : PReg) (xa xb : XReg) (s : State) : Res := cmp2 h pd pc xa xb (fun a b => !a.slt b) s
/-- CMPGEU (R78). -/
def execCmpgeu (h : Head) (pd pc : PReg) (xa xb : XReg) (s : State) : Res := cmp2 h pd pc xa xb (fun a b => !a.ult b) s
/-- CMPEQI (R78). -/
def execCmpeqi (h : Head) (pd pc : PReg) (xa : XReg) (imm : BitVec 14) (s : State) : Res :=
  guarded h (fun s => s.putP2 pd pc (s.x xa = sextTo64 imm) (s.xPoi xa) 1) s
/-- CMPLTI (R78). -/
def execCmplti (h : Head) (pd pc : PReg) (xa : XReg) (imm : BitVec 14) (s : State) : Res :=
  guarded h (fun s => s.putP2 pd pc ((s.x xa).slt (sextTo64 imm)) (s.xPoi xa) 1) s

/-- A predicate operation (R79). -/
def pred2 (h : Head) (pd pa pb : PReg) (f : Bool → Bool → Bool) (s : State) : Res :=
  guarded h (fun s => s.putP pd (f (s.p pa) (s.p pb)) (s.pPoi pa || s.pPoi pb) 1) s

/-- PAND (R79). -/
def execPand (h : Head) (pd pa pb : PReg) (s : State) : Res := pred2 h pd pa pb (fun a b => a && b) s
/-- POR (R79). -/
def execPor (h : Head) (pd pa pb : PReg) (s : State) : Res := pred2 h pd pa pb (fun a b => a || b) s
/-- PXOR (R79). -/
def execPxor (h : Head) (pd pa pb : PReg) (s : State) : Res := pred2 h pd pa pb (fun a b => a ^^ b) s
/-- PNOT (R79). -/
def execPnot (h : Head) (pd pa : PReg) (s : State) : Res :=
  guarded h (fun s => s.putP pd (!s.p pa) (s.pPoi pa) 1) s
/-- PGET (R80): poisoned if any predicate is. -/
def execPget (h : Head) (xd : XReg) (s : State) : Res :=
  guarded h (fun s => s.putX xd s.hart.preds (s.hart.r.pPoi >>> 1 ≠ 0) 1) s
/-- PPUT (R80): writes p1 to p15. -/
def execPput (h : Head) (xa : XReg) (s : State) : Res :=
  guarded h (fun s => s.push .pred ((s.x xa).setWidth 256) 0xFFFE (s.xPoi xa) 1) s

end Sys2Proof.Machine
end

