-- ==== Sys2Proof/Machine/Dispatch.lean ====
section
/-! DEFINITION. One arm for each instruction and event: a direct call of its meaning. -/

namespace Sys2Proof.Machine

open Sys2Proof

def exec (i : Instr) (s : State) : Host.Outcome State Fault Refusal :=
  match i with
  | .add h xd xa xb => Sys2Proof.Machine.execAdd h xd xa xb s
  | .sub h xd xa xb => Sys2Proof.Machine.execSub h xd xa xb s
  | .mul h xd xa xb => Sys2Proof.Machine.execMul h xd xa xb s
  | .mulh h xd xa xb => Sys2Proof.Machine.execMulh h xd xa xb s
  | .and h xd xa xb => Sys2Proof.Machine.execAnd h xd xa xb s
  | .or h xd xa xb => Sys2Proof.Machine.execOr h xd xa xb s
  | .xor h xd xa xb => Sys2Proof.Machine.execXor h xd xa xb s
  | .sll h xd xa xb => Sys2Proof.Machine.execSll h xd xa xb s
  | .srl h xd xa xb => Sys2Proof.Machine.execSrl h xd xa xb s
  | .sra h xd xa xb => Sys2Proof.Machine.execSra h xd xa xb s
  | .min h xd xa xb => Sys2Proof.Machine.execMin h xd xa xb s
  | .max h xd xa xb => Sys2Proof.Machine.execMax h xd xa xb s
  | .minu h xd xa xb => Sys2Proof.Machine.execMinu h xd xa xb s
  | .maxu h xd xa xb => Sys2Proof.Machine.execMaxu h xd xa xb s
  | .addi h xd xa imm => Sys2Proof.Machine.execAddi h xd xa imm s
  | .andi h xd xa imm => Sys2Proof.Machine.execAndi h xd xa imm s
  | .ori h xd xa imm => Sys2Proof.Machine.execOri h xd xa imm s
  | .xori h xd xa imm => Sys2Proof.Machine.execXori h xd xa imm s
  | .slli h xd xa sh => Sys2Proof.Machine.execSlli h xd xa sh s
  | .srli h xd xa sh => Sys2Proof.Machine.execSrli h xd xa sh s
  | .srai h xd xa sh => Sys2Proof.Machine.execSrai h xd xa sh s
  | .clz h xd xa => Sys2Proof.Machine.execClz h xd xa s
  | .popc h xd xa => Sys2Proof.Machine.execPopc h xd xa s
  | .movi h xd imm => Sys2Proof.Machine.execMovi h xd imm s
  | .movt h xd xa imm k => Sys2Proof.Machine.execMovt h xd xa imm k s
  | .sel h xd pa xa xb => Sys2Proof.Machine.execSel h xd pa xa xb s
  | .cmpeq h pd pc xa xb => Sys2Proof.Machine.execCmpeq h pd pc xa xb s
  | .cmpne h pd pc xa xb => Sys2Proof.Machine.execCmpne h pd pc xa xb s
  | .cmplt h pd pc xa xb => Sys2Proof.Machine.execCmplt h pd pc xa xb s
  | .cmpltu h pd pc xa xb => Sys2Proof.Machine.execCmpltu h pd pc xa xb s
  | .cmpge h pd pc xa xb => Sys2Proof.Machine.execCmpge h pd pc xa xb s
  | .cmpgeu h pd pc xa xb => Sys2Proof.Machine.execCmpgeu h pd pc xa xb s
  | .cmpeqi h pd pc xa imm => Sys2Proof.Machine.execCmpeqi h pd pc xa imm s
  | .cmplti h pd pc xa imm => Sys2Proof.Machine.execCmplti h pd pc xa imm s
  | .pand h pd pa pb => Sys2Proof.Machine.execPand h pd pa pb s
  | .por h pd pa pb => Sys2Proof.Machine.execPor h pd pa pb s
  | .pxor h pd pa pb => Sys2Proof.Machine.execPxor h pd pa pb s
  | .pnot h pd pa => Sys2Proof.Machine.execPnot h pd pa s
  | .pget h xd => Sys2Proof.Machine.execPget h xd s
  | .pput h xa => Sys2Proof.Machine.execPput h xa s
  | .fadd h xd xa xb => Sys2Proof.Machine.execFadd h xd xa xb s
  | .fsub h xd xa xb => Sys2Proof.Machine.execFsub h xd xa xb s
  | .fmul h xd xa xb => Sys2Proof.Machine.execFmul h xd xa xb s
  | .fdiv h xd xa xb => Sys2Proof.Machine.execFdiv h xd xa xb s
  | .fsqrt h xd xa => Sys2Proof.Machine.execFsqrt h xd xa s
  | .fma h xd xa xb xc => Sys2Proof.Machine.execFma h xd xa xb xc s
  | .fmin h xd xa xb => Sys2Proof.Machine.execFmin h xd xa xb s
  | .fmax h xd xa xb => Sys2Proof.Machine.execFmax h xd xa xb s
  | .fcmpeq h pd pc xa xb => Sys2Proof.Machine.execFcmpeq h pd pc xa xb s
  | .fcmplt h pd pc xa xb => Sys2Proof.Machine.execFcmplt h pd pc xa xb s
  | .fcmple h pd pc xa xb => Sys2Proof.Machine.execFcmple h pd pc xa xb s
  | .fcvt h xd xa ty wid => Sys2Proof.Machine.execFcvt h xd xa ty wid s
  | .fcvti h xd xa ty tz => Sys2Proof.Machine.execFcvti h xd xa ty tz s
  | .icvtf h xd xa ty => Sys2Proof.Machine.execIcvtf h xd xa ty s
  | .br h disp hidx => Sys2Proof.Machine.execBr h disp hidx s
  | .call h disp hidx => Sys2Proof.Machine.execCall h disp hidx s
  | .callr h xa => Sys2Proof.Machine.execCallr h xa s
  | .ret h => Sys2Proof.Machine.execRet h s
  | .jr h xa => Sys2Proof.Machine.execJr h xa s
  | .loop h xa disp hidx => Sys2Proof.Machine.execLoop h xa disp hidx s
  | .nop h => Sys2Proof.Machine.execNop h s
  | .ld h xd xa disp sp ty dist => Sys2Proof.Machine.execLd h xd xa disp sp ty dist s
  | .st h xc xa disp sp ty => Sys2Proof.Machine.execSt h xc xa disp sp ty s
  | .ldx h xd xa xb ss sp ty dist => Sys2Proof.Machine.execLdx h xd xa xb ss sp ty dist s
  | .stx h xc xa xb ss sp ty => Sys2Proof.Machine.execStx h xc xa xb ss sp ty s
  | .pref h xa disp sp => Sys2Proof.Machine.execPref h xa disp sp s
  | .div h xd xa xb dist => Sys2Proof.Machine.execDiv h xd xa xb dist s
  | .divu h xd xa xb dist => Sys2Proof.Machine.execDivu h xd xa xb dist s
  | .rem h xd xa xb dist => Sys2Proof.Machine.execRem h xd xa xb dist s
  | .remu h xd xa xb dist => Sys2Proof.Machine.execRemu h xd xa xb dist s
  | .fence h k sc => Sys2Proof.Machine.execFence h k sc s
  | .ldaq h xd xa disp sp ty dist sc => Sys2Proof.Machine.execLdaq h xd xa disp sp ty dist sc s
  | .strl h xc xa disp sp ty sc => Sys2Proof.Machine.execStrl h xc xa disp sp ty sc s
  | .amoswp h a => Sys2Proof.Machine.execAmoswp h a s
  | .amoadd h a => Sys2Proof.Machine.execAmoadd h a s
  | .amoand h a => Sys2Proof.Machine.execAmoand h a s
  | .amoor h a => Sys2Proof.Machine.execAmoor h a s
  | .amoxor h a => Sys2Proof.Machine.execAmoxor h a s
  | .amomin h a => Sys2Proof.Machine.execAmomin h a s
  | .amomax h a => Sys2Proof.Machine.execAmomax h a s
  | .amocas h a => Sys2Proof.Machine.execAmocas h a s
  | .amofadd h a => Sys2Proof.Machine.execAmofadd h a s
  | .vamoAdd h a => Sys2Proof.Machine.execVamoAdd h a s
  | .vamoAnd h a => Sys2Proof.Machine.execVamoAnd h a s
  | .vamoOr h a => Sys2Proof.Machine.execVamoOr h a s
  | .vamoXor h a => Sys2Proof.Machine.execVamoXor h a s
  | .vamoMin h a => Sys2Proof.Machine.execVamoMin h a s
  | .vamoMax h a => Sys2Proof.Machine.execVamoMax h a s
  | .vamoFadd h a => Sys2Proof.Machine.execVamoFadd h a s
  | .append h xd xa vb ma sp dist => Sys2Proof.Machine.execAppend h xd xa vb ma sp dist s
  | .qst h vop q w8 ae fb nb => Sys2Proof.Machine.execQst h vop q w8 ae fb nb s
  | .bdec h vop xa disp sp w8 fb nb dist => Sys2Proof.Machine.execBdec h vop xa disp sp w8 fb nb dist s
  | .bhdr h xd xa sp wd dist => Sys2Proof.Machine.execBhdr h xd xa sp wd dist s
  | .cvt h vd va ma f => Sys2Proof.Machine.execCvt h vd va ma f s
  | .vadd h a => Sys2Proof.Machine.execVadd h a s
  | .vsub h a => Sys2Proof.Machine.execVsub h a s
  | .vmul h a => Sys2Proof.Machine.execVmul h a s
  | .vfma h a vc => Sys2Proof.Machine.execVfma h a vc s
  | .vmin h a => Sys2Proof.Machine.execVmin h a s
  | .vmax h a => Sys2Proof.Machine.execVmax h a s
  | .vadds h a => Sys2Proof.Machine.execVadds h a s
  | .vand h a => Sys2Proof.Machine.execVand h a s
  | .vor h a => Sys2Proof.Machine.execVor h a s
  | .vxor h a => Sys2Proof.Machine.execVxor h a s
  | .vshl h a => Sys2Proof.Machine.execVshl h a s
  | .vshr h a => Sys2Proof.Machine.execVshr h a s
  | .vrshr h a n16 => Sys2Proof.Machine.execVrshr h a n16 s
  | .vdot2 h a => Sys2Proof.Machine.execVdot2 h a s
  | .vadd2 h a sat => Sys2Proof.Machine.execVadd2 h a sat s
  | .vrq h a => Sys2Proof.Machine.execVrq h a s
  | .vabs h a => Sys2Proof.Machine.execVabs h a s
  | .vsqrt h a => Sys2Proof.Machine.execVsqrt h a s
  | .vexp h a => Sys2Proof.Machine.execVexp h a s
  | .vrsq h a => Sys2Proof.Machine.execVrsq h a s
  | .vrcp h a => Sys2Proof.Machine.execVrcp h a s
  | .vmov h a => Sys2Proof.Machine.execVmov h a s
  | .vcvti h a q => Sys2Proof.Machine.execVcvti h a q s
  | .vrsum h xd va ty ma => Sys2Proof.Machine.execVrsum h xd va ty ma s
  | .vrmax h xd va ty ma => Sys2Proof.Machine.execVrmax h xd va ty ma s
  | .vrmin h xd va ty ma => Sys2Proof.Machine.execVrmin h xd va ty ma s
  | .vcmpeq h a => Sys2Proof.Machine.execVcmpeq h a s
  | .vcmplt h a => Sys2Proof.Machine.execVcmplt h a s
  | .vcmple h a => Sys2Proof.Machine.execVcmple h a s
  | .vsel h a => Sys2Proof.Machine.execVsel h a s
  | .mand h md ma mb => Sys2Proof.Machine.execMand h md ma mb s
  | .mor h md ma mb => Sys2Proof.Machine.execMor h md ma mb s
  | .mxor h md ma mb => Sys2Proof.Machine.execMxor h md ma mb s
  | .mnot h md ma => Sys2Proof.Machine.execMnot h md ma s
  | .mpop h xd ma => Sys2Proof.Machine.execMpop h xd ma s
  | .msetn h md xa => Sys2Proof.Machine.execMsetn h md xa s
  | .vslideup h a n => Sys2Proof.Machine.execVslideup h a n s
  | .vslidedn h a n => Sys2Proof.Machine.execVslidedn h a n s
  | .vperm h a => Sys2Proof.Machine.execVperm h a s
  | .vbcast h vd xa ma => Sys2Proof.Machine.execVbcast h vd xa ma s
  | .vld h a disp => Sys2Proof.Machine.execVld h a disp s
  | .vst h a disp ord => Sys2Proof.Machine.execVst h a disp ord s
  | .vlds h a xb disp => Sys2Proof.Machine.execVlds h a xb disp s
  | .vsts h a xb disp ord => Sys2Proof.Machine.execVsts h a xb disp ord s
  | .vld6 h a disp bo => Sys2Proof.Machine.execVld6 h a disp bo s
  | .vgath h a idx => Sys2Proof.Machine.execVgath h a idx s
  | .vscat h a idx ord => Sys2Proof.Machine.execVscat h a idx ord s
  | .shape h xd xa sp => Sys2Proof.Machine.execShape h xd xa sp s
  | .sfree h xa => Sys2Proof.Machine.execSfree h xa s
  | .stream h slot q xa xb sp tile => Sys2Proof.Machine.execStream h slot q xa xb sp tile s
  | .swait h xd slot => Sys2Proof.Machine.execSwait h xd slot s
  | .sstop h slot => Sys2Proof.Machine.execSstop h slot s
  | .qcfg h q base sz es => Sys2Proof.Machine.execQcfg h q base sz es s
  | .qpush h q vop f => Sys2Proof.Machine.execQpush h q vop f s
  | .qpop h row q f => Sys2Proof.Machine.execQpop h row q f s
  | .qcnt h xd q => Sys2Proof.Machine.execQcnt h xd q s
  | .qfence h qm => Sys2Proof.Machine.execQfence h qm s
  | .copy h xa xb xc md ds ss tile fut => Sys2Proof.Machine.execCopy h xa xb xc md ds ss tile fut s
  | .tset h pd pc xa xb frm dst => Sys2Proof.Machine.execTset h pd pc xa xb frm dst s
  | .tget h xd xa => Sys2Proof.Machine.execTget h xd xa s
  | .twait h xa st => Sys2Proof.Machine.execTwait h xa st s
  | .opaBf h w qa qb => Sys2Proof.Machine.execOpaBf h w qa qb s
  | .opaH h w qa qb => Sys2Proof.Machine.execOpaH h w qa qb s
  | .opaN6 h w qa qb => Sys2Proof.Machine.execOpaN6 h w qa qb s
  | .stld h q f16 => Sys2Proof.Machine.execStld h q f16 s
  | .vmt h row q seg => Sys2Proof.Machine.execVmt h row q seg s
  | .gzero h w => Sys2Proof.Machine.execGzero h w s
  | .gwait h h0 h1 => Sys2Proof.Machine.execGwait h h0 h1 s
  | .spawn h xa cl => Sys2Proof.Machine.execSpawn h xa cl s
  | .spawnRes h xa cl => Sys2Proof.Machine.execSpawnRes h xa cl s
  | .suspend h xa => Sys2Proof.Machine.execSuspend h xa s
  | .yield h => Sys2Proof.Machine.execYield h s
  | .exit h => Sys2Proof.Machine.execExit h s
  | .fwait h pd pc xa => Sys2Proof.Machine.execFwait h pd pc xa s
  | .fres h xa xb => Sys2Proof.Machine.execFres h xa xb s
  | .ffail h xa xb => Sys2Proof.Machine.execFfail h xa xb s
  | .finopen h xd xa => Sys2Proof.Machine.execFinopen h xd xa s
  | .finend h xa => Sys2Proof.Machine.execFinend h xa s
  | .finwait h xa => Sys2Proof.Machine.execFinwait h xa s
  | .farm h xa xb xc xe disp hidx => Sys2Proof.Machine.execFarm h xa xb xc xe disp hidx s
  | .setvl h xd pd pc xa => Sys2Proof.Machine.execSetvl h xd pd pc xa s
  | .launch h xd xa => Sys2Proof.Machine.execLaunch h xd xa s
  | .txabort h xa rt => Sys2Proof.Machine.execTxabort h xa rt s
  | .txwaitOldest h xd => Sys2Proof.Machine.execTxwaitOldest h xd s
  | .txwaitPoll h xd => Sys2Proof.Machine.execTxwaitPoll h xd s
  | .mfs h xd r => Sys2Proof.Machine.execMfs h xd r s
  | .mts h r xa => Sys2Proof.Machine.execMts h r xa s
  | .mtsGmode h xa => Sys2Proof.Machine.execMtsGmode h xa s
  | .ckpt h => Sys2Proof.Machine.execCkpt h s
  | .step h => Sys2Proof.Machine.execStep h s
  | .trap h code => Sys2Proof.Machine.execTrap h code s
  | .break h code => Sys2Proof.Machine.execBreak h code s
  | .eret h => Sys2Proof.Machine.execEret h s
  | .icinv h xa xb => Sys2Proof.Machine.execIcinv h xa xb s
  | .icinvAll h => Sys2Proof.Machine.execIcinvAll h s
  | .unassignedOpcode h op t => Sys2Proof.Machine.execUnassignedOpcode h op t s
  | .icacheFill hart => Sys2Proof.Machine.execIcacheFill hart s
  | .fetchWalkEnd hart => Sys2Proof.Machine.execFetchWalkEnd hart s
  | .dataWalkEnd hart id => Sys2Proof.Machine.execDataWalkEnd hart id s
  | .landing core => Sys2Proof.Machine.execLanding core s
  | .dataArrival core => Sys2Proof.Machine.execDataArrival core s
  | .memoryTimeout hart id => Sys2Proof.Machine.execMemoryTimeout hart id s
  | .storePerform id => Sys2Proof.Machine.execStorePerform id s
  | .atomicPerform id => Sys2Proof.Machine.execAtomicPerform id s
  | .checkpointComplete hart => Sys2Proof.Machine.execCheckpointComplete hart s
  | .bundleLimitCheckpoint hart => Sys2Proof.Machine.execBundleLimitCheckpoint hart s
  | .welkinResume hart => Sys2Proof.Machine.execWelkinResume hart s
  | .engineFire core id => Sys2Proof.Machine.execEngineFire core id s
  | .engineComplete core id => Sys2Proof.Machine.execEngineComplete core id s
  | .qpushFire core id => Sys2Proof.Machine.execQpushFire core id s
  | .qpopFire core id => Sys2Proof.Machine.execQpopFire core id s
  | .qpopGroupWrite core id => Sys2Proof.Machine.execQpopGroupWrite core id s
  | .vWriteComplete core id => Sys2Proof.Machine.execVWriteComplete core id s
  | .qstBlockPush core id => Sys2Proof.Machine.execQstBlockPush core id s
  | .recheckExecute core id agree => Sys2Proof.Machine.execRecheckExecute core id agree s
  | .streamPush core slot => Sys2Proof.Machine.execStreamPush core slot s
  | .streamWrite core slot => Sys2Proof.Machine.execStreamWrite core slot s
  | .copyChunkDone chunk => Sys2Proof.Machine.execCopyChunkDone chunk s
  | .copyDone cluster => Sys2Proof.Machine.execCopyDone cluster s
  | .pickup hart => Sys2Proof.Machine.execPickup hart s
  | .stripStart hart => Sys2Proof.Machine.execStripStart hart s
  | .writebackComplete hart => Sys2Proof.Machine.execWritebackComplete hart s
  | .futureWake die => Sys2Proof.Machine.execFutureWake die s
  | .sweep part node => Sys2Proof.Machine.execSweep part node s
  | .launchTake part queue => Sys2Proof.Machine.execLaunchTake part queue s
  | .admission part => Sys2Proof.Machine.execAdmission part s
  | .launchReady id => Sys2Proof.Machine.execLaunchReady id s
  | .launchStart id => Sys2Proof.Machine.execLaunchStart id s
  | .periodRefill part queue => Sys2Proof.Machine.execPeriodRefill part queue s
  | .budgetExhausted part queue => Sys2Proof.Machine.execBudgetExhausted part queue s
  | .overrun id => Sys2Proof.Machine.execOverrun id s
  | .shadowOverflow id => Sys2Proof.Machine.execShadowOverflow id s
  | .irrevocableSwitch id => Sys2Proof.Machine.execIrrevocableSwitch id s
  | .launchEnd id => Sys2Proof.Machine.execLaunchEnd id s
  | .prepare part => Sys2Proof.Machine.execPrepare part s
  | .commit part => Sys2Proof.Machine.execCommit part s
  | .lineSettle id => Sys2Proof.Machine.execLineSettle id s
  | .launchAbort id => Sys2Proof.Machine.execLaunchAbort id s
  | .cancel part queue => Sys2Proof.Machine.execCancel part queue s
  | .contextSave id faulted => Sys2Proof.Machine.execContextSave id faulted s
  | .restore id => Sys2Proof.Machine.execRestore id s
  | .resume id => Sys2Proof.Machine.execResume id s
  | .cutRound id => Sys2Proof.Machine.execCutRound id s
  | .cutfail id => Sys2Proof.Machine.execCutfail id s
  | .collectiveTrigger die group => Sys2Proof.Machine.execCollectiveTrigger die group s
  | .collectiveComplete group => Sys2Proof.Machine.execCollectiveComplete group s
  | .collectiveTimeout group => Sys2Proof.Machine.execCollectiveTimeout group s
  | .streamFault core slot f => Sys2Proof.Machine.execStreamFault core slot f s
  | .preempt id => Sys2Proof.Machine.execPreempt id s
  | .saveRestart id => Sys2Proof.Machine.execSaveRestart id s
  | .stopRequest id => Sys2Proof.Machine.execStopRequest id s
  | .sramerr hart owner => Sys2Proof.Machine.execSramerr hart owner s
  | .rdmaWrite place payload => Sys2Proof.Machine.execRdmaWrite place payload s
  | .rdmaRead place len => Sys2Proof.Machine.execRdmaRead place len s
  | .rdmaSend port qp data => Sys2Proof.Machine.execRdmaSend port qp data s
  | .rdmaFetchAdd place v => Sys2Proof.Machine.execRdmaFetchAdd place v s
  | .rdmaCompareSwap place expected new => Sys2Proof.Machine.execRdmaCompareSwap place expected new s
  | .linkBringup port domid pos => Sys2Proof.Machine.execLinkBringup port domid pos s
  | .peerFrame port seq pa act len => Sys2Proof.Machine.execPeerFrame port seq pa act len s
  | .peerResend port seq => Sys2Proof.Machine.execPeerResend port seq s
  | .peerPortLost port => Sys2Proof.Machine.execPeerPortLost port s
  | .flitReceive a b seq flit => Sys2Proof.Machine.execFlitReceive a b seq flit s
  | .flitReplay a b crc => Sys2Proof.Machine.execFlitReplay a b crc s
  | .dieLinkLost a b => Sys2Proof.Machine.execDieLinkLost a b s
  | .patrolScrub mem corrected uncorrectable => Sys2Proof.Machine.execPatrolScrub mem corrected uncorrectable s
  | .pcDrop die stack pc => Sys2Proof.Machine.execPcDrop die stack pc s
  | .thermalThrottle temp power => Sys2Proof.Machine.execThermalThrottle temp power s
  | .coldStart => Sys2Proof.Machine.execColdStart s
  | .warmStart => Sys2Proof.Machine.execWarmStart s
  | .keyRollover => Sys2Proof.Machine.execKeyRollover s
  | .info slot => Sys2Proof.Machine.execInfo slot s
  | .quote slot => Sys2Proof.Machine.execQuote slot s
  | .log slot => Sys2Proof.Machine.execLog slot s
  | .chain slot => Sys2Proof.Machine.execChain slot s
  | .load slot => Sys2Proof.Machine.execLoad slot s
  | .unload slot => Sys2Proof.Machine.execUnload slot s
  | .qconf slot => Sys2Proof.Machine.execQconf slot s
  | .pconf slot => Sys2Proof.Machine.execPconf slot s
  | .cgroup slot => Sys2Proof.Machine.execCgroup slot s
  | .rdmaep slot => Sys2Proof.Machine.execRdmaep slot s
  | .resetCore core => Sys2Proof.Machine.execResetCore core s
  | .resetCopyEngine cluster => Sys2Proof.Machine.execResetCopyEngine cluster s
  | .resetDieLink a b => Sys2Proof.Machine.execResetDieLink a b s
  | .resetEthernetPort port => Sys2Proof.Machine.execResetEthernetPort port s
  | .resetPartition part => Sys2Proof.Machine.execResetPartition part s
  | .resetDevice => Sys2Proof.Machine.execResetDevice s
  | .droppc slot => Sys2Proof.Machine.execDroppc slot s
  | .config slot => Sys2Proof.Machine.execConfig slot s
  | .debugResume hart => Sys2Proof.Machine.execDebugResume hart s
  | .debugHold hart => Sys2Proof.Machine.execDebugHold hart s
  | .welkinCoreFault die => Sys2Proof.Machine.execWelkinCoreFault die s
  | .shadowDirectoryError die => Sys2Proof.Machine.execShadowDirectoryError die s
  | .copyFault cluster f => Sys2Proof.Machine.execCopyFault cluster f s
  | .mappingRepaired core => Sys2Proof.Machine.execMappingRepaired core s
  | .translationInvalidate core => Sys2Proof.Machine.execTranslationInvalidate core s
  | .ownerSession challenge sig => Sys2Proof.Machine.execOwnerSession challenge sig s

end Sys2Proof.Machine
end

