-- ==== Sys2Proof/Machine/Waits.lean ====
section
/-! DEFINITION. What an operation waits for at issue: its sources, the grid, its slot, buffers, fences, and what its own rule names (R66, R96, R125, R144, R180 to R183, R218 to R228, R243 to R252, R269, R280 to R297, R326, R336, R346, R360, R436). -/

namespace Sys2Proof.Machine

/-! ### What an operation names -/

/-- The operands of an operation: scalar, predicate and mask sources under R66, vector sources and V-class destinations under R181 and R182,
destinations of landings under R181 alone, and the halves it names (R19). -/
structure Use where
  xs : List XReg
  ps : List PReg
  ms : List MReg
  rd : List VOp
  wr : List VOp
  dst : List VOp
  halves : List Bool
  deriving DecidableEq, Repr

/-- Scalar sources alone. -/
def useX (xs : List XReg) : Use := ⟨xs, [], [], [], [], [], []⟩
def usePs (ps : List PReg) : Use := ⟨[], ps, [], [], [], [], []⟩
def useMs (xs : List XReg) (ms : List MReg) : Use := ⟨xs, [], ms, [], [], [], []⟩
/-- Vector sources and destinations, with the halves that they name. -/
def useV (xs : List XReg) (ms : List MReg) (rd wr : List VOp) : Use := ⟨xs, [], ms, rd, wr, [], (wr ++ rd).map fun v => v.half⟩
def useLand (xs : List XReg) (ms : List MReg) (rd dst : List VOp) : Use := ⟨xs, [], ms, rd, [], dst, (dst ++ rd).map fun v => v.half⟩
def useHalf (h : List Bool) : Use := ⟨[], [], [], [], [], [], h⟩

def src2X : Src2 → List XReg
  | .scalar x => [x]
  | _ => []
def useVV (a : VV) (more : List VOp) : Use := useV (src2X a.b) [a.ma] (a.va :: src2Ops a.b ++ more) [a.vd]
def useVU (a : VU) : Use := useV [] [a.ma] [a.va] [a.vd]
def useVCmp (a : VCmp) : Use := useV (src2X a.b) [a.ma] (a.va :: src2Ops a.b) []
def useAmo (cas : Bool) (a : Amo) : Use := useX ([a.xa, a.xb] ++ if cas then [a.xc] else [])
def useVamo (a : Vamo) : Use := useLand [a.xa] [a.ma] [a.va, a.vb] a.vd.toList

/-- The predicates that PGET reads. -/
def allPreds : List PReg := List.finRange 16

/-- What each operation names; an event names nothing. -/
def useOf : Instr → Use
  | .add _ _ a b | .sub _ _ a b | .mul _ _ a b | .mulh _ _ a b | .and _ _ a b | .or _ _ a b | .xor _ _ a b
  | .sll _ _ a b | .srl _ _ a b | .sra _ _ a b | .min _ _ a b | .max _ _ a b | .minu _ _ a b | .maxu _ _ a b => useX [a, b]
  | .addi _ _ a _ | .andi _ _ a _ | .ori _ _ a _ | .xori _ _ a _ => useX [a]
  | .slli _ _ a _ | .srli _ _ a _ | .srai _ _ a _ => useX [a]
  | .clz _ _ a | .popc _ _ a => useX [a]
  | .movi _ _ _ => useX []
  | .movt _ _ a _ _ => useX [a]
  | .sel _ _ p a b => ⟨[a, b], [p], [], [], [], [], []⟩
  | .cmpeq _ _ _ a b | .cmpne _ _ _ a b | .cmplt _ _ _ a b | .cmpltu _ _ _ a b | .cmpge _ _ _ a b | .cmpgeu _ _ _ a b => useX [a, b]
  | .cmpeqi _ _ _ a _ | .cmplti _ _ _ a _ => useX [a]
  | .pand _ _ a b | .por _ _ a b | .pxor _ _ a b => usePs [a, b]
  | .pnot _ _ a => usePs [a]
  | .pget _ _ => usePs allPreds
  | .pput _ a => useX [a]
  | .fadd _ _ a b | .fsub _ _ a b | .fmul _ _ a b | .fdiv _ _ a b | .fmin _ _ a b | .fmax _ _ a b => useX [a, b]
  | .fsqrt _ _ a => useX [a]
  | .fma _ _ a b c => useX [a, b, c]
  | .fcmpeq _ _ _ a b | .fcmplt _ _ _ a b | .fcmple _ _ _ a b => useX [a, b]
  | .fcvt _ _ a _ _ | .fcvti _ _ a _ _ => useX [a]
  | .icvtf _ _ a _ => useX [a]
  | .br .. | .call .. | .ret .. | .nop .. => useX []
  | .callr _ a | .jr _ a => useX [a]
  | .loop _ a _ _ => useX [a]
  | .ld _ _ a _ _ _ _ => useX [a]
  | .st _ c a _ _ _ => useX [c, a]
  | .ldx _ _ a b _ _ _ _ => useX [a, b]
  | .stx _ c a b _ _ _ => useX [c, a, b]
  | .pref _ a _ _ => useX [a]
  | .div _ _ a b _ | .divu _ _ a b _ | .rem _ _ a b _ | .remu _ _ a b _ => useX [a, b]
  | .fence .. => useX []
  | .ldaq _ _ a _ _ _ _ _ => useX [a]
  | .strl _ c a _ _ _ _ => useX [c, a]
  | .amoswp _ a | .amoadd _ a | .amoand _ a | .amoor _ a | .amoxor _ a | .amomin _ a | .amomax _ a | .amofadd _ a => useAmo false a
  | .amocas _ a => useAmo true a
  | .vamoAdd _ a | .vamoAnd _ a | .vamoOr _ a | .vamoXor _ a | .vamoMin _ a | .vamoMax _ a | .vamoFadd _ a => useVamo a
  | .append _ _ a v m _ _ => useV [a] [m] [v] []
  | .qst _ v _ _ _ _ _ => useV [] [] [v] []
  | .bdec _ v a _ _ _ _ _ _ => useLand [a] [] [] [v]
  | .bhdr _ _ a _ _ _ => useX [a]
  | .cvt _ d a m _ => useV [] [m] [a] [d]
  | .vadd _ a | .vsub _ a | .vmul _ a | .vmin _ a | .vmax _ a | .vadds _ a | .vand _ a | .vor _ a | .vxor _ a | .vshl _ a
  | .vshr _ a | .vdot2 _ a | .vrq _ a | .vsel _ a | .vperm _ a => useVV a []
  | .vfma _ a c => useVV a [c]
  | .vrshr _ a _ | .vadd2 _ a _ => useVV a []
  | .vslideup _ a _ | .vslidedn _ a _ => useVV a []
  | .vabs _ a | .vsqrt _ a | .vexp _ a | .vrsq _ a | .vrcp _ a | .vmov _ a => useVU a
  | .vcvti _ a _ => useVU a
  | .vrsum _ _ v _ m | .vrmax _ _ v _ m | .vrmin _ _ v _ m => useV [] [m] [v] []
  | .vcmpeq _ a | .vcmplt _ a | .vcmple _ a => useVCmp a
  | .mand _ _ a b | .mor _ _ a b | .mxor _ _ a b => useMs [] [a, b]
  | .mnot _ _ a => useMs [] [a]
  | .mpop _ _ a => useMs [] [a]
  | .msetn _ _ a => useX [a]
  | .vbcast _ d a m => useV [a] [m] [] [d]
  | .vld _ a _ => useLand [a.xa] [a.ma] [] [a.vop]
  | .vst _ a _ _ => useV [a.xa] [a.ma] [a.vop] []
  | .vlds _ a b _ => useLand [a.xa, b] [a.ma] [] [a.vop]
  | .vsts _ a b _ _ => useV [a.xa, b] [a.ma] [a.vop] []
  | .vld6 _ a _ _ => useLand [a.xa] [a.ma] [] [a.vop]
  | .vgath _ a i => useLand [a.xa] [a.ma] [i.vx] [a.vop]
  | .vscat _ a i _ => useV [a.xa] [a.ma] [a.vop, i.vx] []
  | .shape _ _ a _ => useX [a]
  | .sfree _ a => useX [a]
  | .stream _ _ _ a b _ t => useX ([a, b] ++ t.toList)
  | .swait .. | .sstop .. | .qcfg .. => useX []
  | .qpush _ _ v _ => useV [] [] [v] []
  | .qpop _ r _ _ => useHalf [r.half]
  | .qcnt .. | .qfence .. => useX []
  | .copy _ a b c _ _ _ t f => useX ([a, b, c] ++ t.toList ++ f.toList)
  | .tset _ _ _ a b _ _ => useX [a, b]
  | .tget _ _ a => useX [a]
  | .twait _ a _ => useX [a]
  | .opaBf _ w _ _ | .opaH _ w _ _ | .opaN6 _ w _ _ => useHalf [w.half]
  | .stld .. => useX []
  | .vmt _ r _ _ => useHalf [r.half]
  | .gzero _ w => useHalf [w.half]
  | .gwait _ h0 h1 => useHalf ((if h0 then [false] else []) ++ if h1 then [true] else [])
  | .spawn _ a _ | .spawnRes _ a _ => useX [a]
  | .suspend _ a => useX [a]
  | .yield .. | .exit .. => useX []
  | .fwait _ _ _ a => useX [a]
  | .fres _ a b | .ffail _ a b => useX [a, b]
  | .finopen _ _ a => useX [a]
  | .finend _ a | .finwait _ a => useX [a]
  | .farm _ a b c e _ _ => useX [a, b, c, e]
  | .setvl _ _ _ _ a => useX [a]
  | .launch _ _ a => useX [a]
  | .txabort _ a _ => useX [a]
  | .txwaitOldest .. | .txwaitPoll .. | .mfs .. => useX []
  | .mts _ _ a => useX [a]
  | .mtsGmode _ a => useX [a]
  | .ckpt .. | .step .. | .trap .. | .break .. | .eret .. | .icinvAll .. | .unassignedOpcode .. => useX []
  | .icinv _ a b => useX [a, b]
  | _ => useX []

/-! ### Sources and the grid (R66, R181, R182) -/

/-- Whether an ordinary result that the operation reads is still in flight (R66). -/
def Hart.pending (h : Hart) (u : Use) : Bool :=
  h.wq.any fun w => w.sel ≠ 0 && (match w.dst with
    | .x r => u.xs.contains r && r ≠ 0
    | .pred => u.ps.any fun p => p ≠ 0 && w.sel.getLsbD p.val
    | .mask m => u.ms.contains m && m ≠ 0
    | .sys _ => false)

/-- Elements `lo` up to, not including, `hi` that an operation reads or writes of its vector operands. -/
def State.elemSpan (s : State) (i : Instr) : Nat × Nat :=
  match i with
  | .qst _ _ _ _ _ fb nb => (64 * fb.val, min s.vl (64 * (fb.val + nb.val + 1)))
  | .bdec _ _ _ _ _ _ fb nb _ => (64 * fb.val, min s.vl (64 * (fb.val + nb.val + 1)))
  | _ => (0, s.vl)

/-- Elements of its destination that an operation writes: the active ones, but every element below VL for VSEL, whose mask only selects, and
every element of its blocks for BDEC (R179, R181, R202). -/
def State.written (s : State) (i : Instr) : List Nat :=
  let e := s.elemSpan i
  match i with
  | .vsel .. => List.range s.vl
  | .bdec .. => (List.range (e.2 - e.1)).map fun j => e.1 + j
  | _ =>
    match (useOf i).ms with
    | [m] => s.active m
    | _ => []

/-- Whether no V-class write is in flight to these elements of a vector operand (R181). -/
def Core.noPending (k : Core) (v : VOp) (l : List Nat) : Bool := k.vq.isEmpty || l.all fun j => !k.vPending (v.cell j)

/-- Whether the progress indices let a row operand be read or written (R182). -/
def Core.rowsReady (k : Core) (v : VOp) (lo hi : Nat) : Bool :=
  v.kind ≠ .row || ((lo ≥ 128 || hi ≤ lo || k.rowReady v.half v.n.val 0) && (hi ≤ 128 || k.rowReady v.half v.n.val 1))

/-- The region that an X-class operation will write. -/
def State.regionOf (s : State) (i : Instr) : Option (Bool × Nat × Nat × Nat × Nat) :=
  match i with
  | .opaBf _ w a b => (EngKind.opaBf w a b).region
  | .opaH _ w a b => (EngKind.opaH w a b).region
  | .opaN6 _ w a b => (EngKind.opaN6 w a b).region
  | .gzero _ w => (EngKind.gzero w).region
  | .vmt _ r q g => (EngKind.vmt r q g).region
  | .qpop _ r q f => (EngKind.qpop r q f s.vl).region
  | _ => none

/-- Whether the grid holds an operation back (R181, R182). -/
def State.gridWaits (s : State) (i : Instr) : Bool :=
  let u := useOf i
  let k := s.core
  let e := s.elemSpan i
  let read := (List.range (e.2 - e.1)).map fun j => e.1 + j
  (u.rd.any fun v => !k.rowsReady v e.1 e.2 || !k.noPending v read) || (u.wr.any fun v => !k.rowsReady v e.1 e.2) ||
    ((u.wr ++ u.dst).any fun v => !k.noPending v (s.written i)) ||
    (match s.regionOf i with
     | some g => k.vq.any fun w => w.cells.any fun x => inRegion g x.1
     | none => false)

/-! ### Landing buffer, withholding and history (R96, R125, R436) -/

/-- Landing-buffer entries that an operation reserves (R96, R99, R173, R211, R347). -/
def State.landNeed (s : State) (i : Instr) : Nat :=
  let one := fun r : XReg => if r = 0 then 0 else 1
  let vec := fun (a : VM) (n : Nat) => if s.active a.ma = [] then 0 else n
  match i with
  | .ld _ d _ _ _ _ _ => one d
  | .ldx _ d _ _ _ _ _ _ => one d
  | .ldaq _ d _ _ _ _ _ _ => one d
  | .div _ d _ _ _ | .divu _ d _ _ _ | .rem _ d _ _ _ | .remu _ d _ _ _ => one d
  | .amoswp _ a | .amoadd _ a | .amoand _ a | .amoor _ a | .amoxor _ a | .amomin _ a | .amomax _ a | .amocas _ a | .amofadd _ a =>
    one a.xd
  | .vamoAdd _ a | .vamoAnd _ a | .vamoOr _ a | .vamoXor _ a | .vamoMin _ a | .vamoMax _ a | .vamoFadd _ a =>
    if a.vd.isSome then groupsWithActive (s.active a.ma) else 0
  | .append _ d _ _ _ _ _ => one d
  | .bhdr _ d _ _ _ _ => one d
  | .bdec _ _ _ _ _ _ fb nb _ => (blocksRead fb nb s.vl).length
  | .vld _ a _ | .vld6 _ a _ _ => vec a s.vGroups
  | .vlds _ a _ _ => vec a s.vGroups
  | .vgath _ a _ => vec a (max (ceilDiv (s.active a.ma).length 16) (groupsWithActive (s.active a.ma)))
  | _ => 0

/-- Entries of the landing buffer in use. -/
def Hart.landUsed (h : Hart) : Nat := h.land.foldl (fun n l => n + l.slots) 0
def landSize : Nat := 64

/-- Withholding entries that an operation takes (R125, R212, R280). -/
def State.storeNeed (s : State) (i : Instr) : Nat :=
  let vec := fun (a : VM) (n : Nat) => if s.active a.ma = [] then 0 else n
  match i with
  | .st .. | .stx .. | .strl .. => 1
  | .call .. | .callr .. => if rasSize ≤ s.hart.r.ras.length then 1 else 0
  | .vst _ a _ _ => vec a s.vGroups
  | .vsts _ a _ _ _ => vec a s.vGroups
  | .vscat _ a _ _ => vec a (ceilDiv (s.active a.ma).length 16)
  | .suspend .. => 25
  | .yield .. | .fwait .. => 23
  | _ => 0
def withholdSize : Nat := 256

/-- Element groups that a V-class write, or the landing of a timed request, of the operation records (R334, R436). -/
def State.recordNeed (s : State) (i : Instr) : List Nat :=
  match i with
  | .vadd _ a | .vsub _ a | .vmul _ a | .vmin _ a | .vmax _ a | .vadds _ a | .vand _ a | .vor _ a | .vxor _ a | .vshl _ a
  | .vshr _ a | .vdot2 _ a | .vrq _ a | .vperm _ a => activeGroups a.vd (s.active a.ma)
  | .vsel _ a => activeGroups a.vd (List.range s.vl)
  | .vfma _ a _ => activeGroups a.vd (s.active a.ma)
  | .vrshr _ a _ | .vadd2 _ a _ => activeGroups a.vd (s.active a.ma)
  | .vslideup _ a _ | .vslidedn _ a _ => activeGroups a.vd (s.active a.ma)
  | .vabs _ a | .vsqrt _ a | .vexp _ a | .vrsq _ a | .vrcp _ a | .vmov _ a => activeGroups a.vd (s.active a.ma)
  | .vcvti _ a _ => activeGroups a.vd (s.active a.ma)
  | .cvt _ d _ m _ => activeGroups d (s.active m)
  | .vbcast _ d _ m => activeGroups d (s.active m)
  | .vld _ a _ | .vld6 _ a _ _ => activeGroups a.vop (s.active a.ma)
  | .vlds _ a _ _ => activeGroups a.vop (s.active a.ma)
  | .vgath _ a _ => activeGroups a.vop (s.active a.ma)
  | .vamoAdd _ a | .vamoAnd _ a | .vamoOr _ a | .vamoXor _ a | .vamoMin _ a | .vamoMax _ a | .vamoFadd _ a =>
    match a.vd with
    | some v => activeGroups v (s.active a.ma)
    | none => []
  | .bdec _ v _ _ _ _ fb nb _ =>
    ((List.range s.vl).filter fun j => 64 * fb.val ≤ j && j < 64 * (fb.val + nb.val + 1)).map (fun j => groupOf (v.cell j)) |>.eraseDups
  | _ => []

/-- Whether an operation is a V-class writer, which waits at issue for the other hart's entries (R336). -/
def isVOp (op : Nat) : Bool := slotOfOp op = .v

/-- Whether an operation takes an entry of the recheck queue (R346). -/
def rechecks (level op : Nat) : Bool :=
  (1 ≤ level && (op = 0x100 || op = 0x103 || (0x120 ≤ op && op ≤ 0x165))) || (2 ≤ level && ((0x1A0 ≤ op && op ≤ 0x1A2) || op = 0x1A4))
def recheckSize : Nat := 16

/-! ### Fences (R144) -/

/-- Whether an operation reads memory as a load of the hart; atomics count as loads. -/
def isLoad : Instr → Bool
  | .ld .. | .ldx .. | .ldaq .. | .vld .. | .vlds .. | .vld6 .. | .vgath .. | .bdec .. | .bhdr .. | .shape .. | .launch ..
  | .amoswp .. | .amoadd .. | .amoand .. | .amoor .. | .amoxor .. | .amomin .. | .amomax .. | .amocas .. | .amofadd ..
  | .vamoAdd .. | .vamoAnd .. | .vamoOr .. | .vamoXor .. | .vamoMin .. | .vamoMax .. | .vamoFadd .. | .append .. => true
  | _ => false

/-- Whether a load of the hart before a program position has still to return its data. -/
def Hart.loadsOut (h : Hart) (pos : Nat) : Bool := h.land.any fun l => l.pos < pos && !l.arrived && !l.cyc && l.kind ≠ .pref

/-- Whether a store or atomic of the hart before a program position, sent, has still to be acknowledged. -/
def State.acksOut (s : State) (n : HartId) (pos : Nat) : Bool := s.flights.any fun f => f.hart = n && !f.eng && f.pos < pos

/-- Whether a fence in force holds an operation back. -/
def State.fenceWaits (s : State) (i : Instr) : Bool :=
  let h := s.hart
  (isLoad i && (h.loadsOut h.fence.ll || s.acksOut s.cur h.fence.sl)) ||
    (match i with
     | .copy .. | .stream .. => h.loadsOut h.fence.en || s.acksOut s.cur h.fence.en
     | _ => false)

/-! ### An operation's own condition -/

/-- Queues that an engine operation names. -/
def EngKind.queues : EngKind → List QReg
  | .opaBf _ a b | .opaH _ a b | .opaN6 _ a b => [a, b]
  | .vmt _ q _ => [q]
  | .stld q _ => [q]
  | .qpop _ q _ _ => [q]
  | .qpush q _ _ => [q]
  | .gzero _ => []

/-- Whether an earlier operation of either hart that names a queue has not completed (R222). -/
def Core.queueBusy (k : Core) (q : QReg) : Bool := (k.eng.any fun e => e.kind.queues.contains q) || k.qst.any fun b => b.q = q

/-- Whether every timed request of a hart has landed. -/
def Hart.allLanded (h : Hart) : Bool := h.land.all fun l => l.landed || l.silent

/-- The registers that a suspension writes back. -/
def Hart.suspendUse (h : Hart) : Use := ⟨liveRegs h.r.livemask.toNat, allPreds, [], [], [], [], []⟩

/-- GMODE may change: no half has matrix writes in flight, and the V and X slots of both harts are empty (R18). -/
def State.slotsEmpty (s : State) : Bool :=
  let k := s.core
  let c := s.cycle
  !k.busy false && !k.busy true && (k.eng.all fun e => e.fire.isSome) && (k.qst.all fun b => b.fired) &&
    (hartsOf (coreOf s.cur)).all fun n => (s.hartAt n).time.vNext ≤ c && (s.hartAt n).time.xNext ≤ c

/-- Whether a STREAM passes the checks that come before its wait for a tile (R237). -/
def State.streamStarts (s : State) (slot : Fin 4) (q : QReg) (xa : XReg) : Bool :=
  let hd := (s.x xa).toNat % 65536
  let qu := s.core.q q
  !s.xPoi xa && !(s.core.streams.get slot).active && s.cluster.shapeValid s.launchId hd && qu.conf && qu.owner = slotOf s.cur &&
    (s.cluster.shapeAt (hd % 256)).obj.image ≤ qu.esize

/-- What an operation with a true guard waits for beyond its sources, the grid, its slot and the buffers; a poisoned operand names nothing to
wait for, and the operation issues and raises POISON (R127). -/
def State.ownWaits (s : State) (i : Instr) : Bool :=
  let h := s.hart
  let k := s.core
  match i with
  | .fdiv .. | .fsqrt .. => s.cycle < h.time.divNext
  | .stream _ slot q a b _ (some r) => s.streamStarts slot q a && !s.xPoi b && !s.xPoi r && (s.cluster.tileAt ((s.x r).toNat % 256)).state ≠ .ready
  | .copy .. => 16 ≤ s.cluster.copies.length
  | .swait _ _ slot => (k.streams.get slot).active
  | .qcfg _ q _ _ _ => k.queueBusy q || (match h.time.qcfg with | some c => decide (s.cycle < c) | none => false)
  | .qfence _ qm => k.qst.any fun b => b.hart = slotOf s.cur && qm.getLsbD b.q.val
  | .twait _ a st => !s.xPoi a && (s.cluster.tileAt ((s.x a).toNat % 256)).state ≠ st
  | .gwait _ h0 h1 => (h0 && k.busy false) || (h1 && k.busy true)
  | .suspend .. | .yield .. | .fwait .. => !h.allLanded || h.pending h.suspendUse
  | .exit .. => !h.allLanded || k.eng.any fun e => e.hart = slotOf s.cur
  | .eret .. => !h.allLanded
  | .finwait _ a =>
    let id := scopeOperand (s.x a)
    !s.xPoi a && id ≠ scopeOperand h.r.fscope && s.scopeOpen s.part id
  | .farm _ _ b _ _ _ _ => !s.xPoi b && (s.farmClusters (s.x b)).any fun c => farmSize ≤ (s.clusterAt c).farms.length
  | .txwaitOldest .. => !s.earlierOver s.launchId
  | _ => false

/-- What an operation waits for after the checkpoint before its bundle has been taken: an MTS to GMODE, for the slots (R18). -/
def State.lateWaits (s : State) (i : Instr) : Bool :=
  match i with
  | .mtsGmode .. => !s.slotsEmpty
  | _ => false

end Sys2Proof.Machine
end

