-- ==== Sys2Proof/Machine/Issue.lean ====
section
/-! DEFINITION. Issue of a bundle: readiness, the merge rule, the checkpoint before it, its operations in order, the unit operations that follow its checks, and its end (R20, R33, R37 to R42, R66, R86, R148, R215, R281, R331 to R336). -/

namespace Sys2Proof.Machine

/-! ### Guards and classes -/

/-- Whether an operation's guard is true. -/
def State.live (s : State) (b : BOp) : Bool := s.p b.g

/-- The operations of a bundle whose guard is true. -/
def State.liveOps (s : State) (l : List BOp) : List BOp := l.filter s.live

def hasV (l : List BOp) : Bool := l.any fun b => slotOfOp b.op = .v
def hasX (l : List BOp) : Bool := l.any fun b => slotOfOp b.op = .x

/-- The operations that take effect at the counter tree, the shared-SRAM atomic unit or the partition node (R281). -/
def isTaskUnit : Instr → Bool
  | .spawn .. | .spawnRes .. | .fres .. | .ffail .. | .finopen .. | .finend .. | .farm .. => true
  | _ => false

/-- Engine operations, APPEND and LAUNCH, which take effect once their bundle has passed every check (R152, R215, R323). -/
def isEngineUnit : Instr → Bool
  | .shape .. | .sfree .. | .stream .. | .sstop .. | .qcfg .. | .copy .. | .tset .. | .append .. | .launch .. => true
  | _ => false

def isUnitOp (i : Instr) : Bool := isTaskUnit i || isEngineUnit i

/-- The mask of a vector atomic or an APPEND (R148). -/
def atomicMask : Instr → Option MReg
  | .vamoAdd _ a | .vamoAnd _ a | .vamoOr _ a | .vamoXor _ a | .vamoMin _ a | .vamoMax _ a | .vamoFadd _ a => some a.ma
  | .append _ _ _ _ m _ _ => some m
  | _ => none

def isScalarAtomic : Instr → Bool
  | .amoswp .. | .amoadd .. | .amoand .. | .amoor .. | .amoxor .. | .amomin .. | .amomax .. | .amocas .. | .amofadd .. => true
  | _ => false

/-- Whether an operation with a true guard needs a checkpoint before its bundle and one after it (R18, R148, R215, R281, R323). -/
def State.brackets (s : State) (i : Instr) : Bool :=
  match atomicMask i with
  | some m => s.active m ≠ []
  | none => isScalarAtomic i || isUnitOp i || (match i with | .mtsGmode .. => true | _ => false)

/-! ### Readiness (R20, R40, R66) -/

/-- Whether the hart may consider its next bundle. -/
def State.mayIssue (s : State) (n : HartId) : Bool :=
  let h := s.hartAt n
  h.mode = .running && h.ck.isNone && h.rest.isEmpty && !(s.coreAt (coreOf n)).frozen && h.time.nextIssue ≤ s.cycleAt (coreOf n)

/-- Whether sources, guards among them, are still in flight (R66). A false guard waits on nothing else (R40). -/
def State.sourcesWait (s : State) (l : List BOp) : Bool :=
  s.hart.pending (usePs (l.map fun b => b.g)) || (s.liveOps l).any fun b => s.hart.pending (useOf b.ins)

/-- Whether a landing buffer, the withholding buffer or the recheck queue lacks room (R96, R125, R346). -/
def State.buffersWait (s : State) (l : List BOp) : Bool :=
  let live := s.liveOps l
  let h := s.hart
  let level := s.core.rechkLevel
  let land := live.foldl (fun n b => n + s.landNeed b.ins) 0
  let store := live.foldl (fun n b => n + s.storeNeed b.ins) 0
  let re := (live.filter fun b => rechecks level b.op).length
  (land ≠ 0 && landSize < h.landUsed + land) || (store ≠ 0 && withholdSize < h.withheld + store) ||
    (re ≠ 0 && recheckSize < s.core.recheck.length + re)

/-- Whether the history buffer holds a bundle back: room for every group it will record, and, in SHARED mode, no entry of the other
hart in a group that a V-class operation writes (R336, R436). -/
def State.historyWaits (s : State) (l : List BOp) : Bool :=
  let live := s.liveOps l
  let gs := (live.flatMap fun b => s.recordNeed b.ins).eraseDups
  (gs ≠ [] && !s.histRoom (coreOf s.cur) (slotOf s.cur) gs) ||
    s.core.heldByOther (slotOf s.cur) ((live.filter fun b => isVOp b.op).flatMap fun b => s.recordNeed b.ins)

/-- The groups of a bundle that the history buffer holds back. -/
def State.historyGroups (s : State) (l : List BOp) : List Nat := ((s.liveOps l).flatMap fun b => s.recordNeed b.ins).eraseDups

/-- Whether the hart's V or X slot is still taken by an earlier operation (R170, R180, R221, R225). -/
def State.slotWaits (s : State) (l : List BOp) : Bool :=
  let c := s.cycle
  let t := s.hart.time
  let me := slotOf s.cur
  (hasV l && (c < t.vNext || s.core.qst.any fun b => b.hart = me && !b.fired)) ||
    (hasX l && (c < t.xNext || s.core.eng.any fun e => e.hart = me && e.fire.isNone))

/-- The parity of SPLIT mode (R20). -/
def State.parityWaits (s : State) (l : List BOp) : Bool :=
  s.gmode = 1 && (hasV l || hasX l) && (s.cycle % 2 = 1) ≠ slotOf s.cur

/-- A load behind a FENCE of its own bundle waits for the loads of earlier bundles that LL names, and for the acknowledgements of their stores
that SL names (R144). -/
def State.innerFence (s : State) (l : List BOp) : Bool :=
  let live := s.liveOps l
  let names := fun (k : FenceKinds → Bool) (b : BOp) => match b.ins with | .fence _ f sc => k f && sc ≠ .hart | _ => false
  let held := fun k : FenceKinds → Bool => live.any fun b => names k b && live.any fun d => b.idx < d.idx && isLoad d.ins
  let p := posOf (s.hart.ser + 1) 0
  (held FenceKinds.ll && s.hart.loadsOut p) || (held FenceKinds.sl && s.acksOut s.cur p)

/-- Everything that a bundle waits for but the history buffer, the checkpoint before it and the merge with the other hart. -/
def State.bundleWaits (s : State) (l : List BOp) : Bool :=
  s.sourcesWait l || s.parityWaits l || s.slotWaits l || s.buffersWait l || s.innerFence l ||
    (s.liveOps l).any fun b => s.gridWaits b.ins || s.fenceWaits b.ins || s.ownWaits b.ins

/-- Whether the checkpoint before a bundle has still to be taken (R148). -/
def State.needsCkpt (s : State) (l : List BOp) : Bool := s.hart.bundles ≠ 0 && (s.liveOps l).any fun b => s.brackets b.ins

/-! ### What stands before issue -/

/-- What a hart does next with the bundle at its PC. -/
inductive Ready where
  /-- nothing now -/
  | wait
  /-- a step before issue -/
  | act (s : State)
  /-- the bundle may issue; whether its line holds more after it -/
  | go (l : List BOp) (more : Bool)
  deriving Repr

/-- Half ownership, the last check before issue (R19, R42). -/
def State.halfFault (s : State) (l : List BOp) : Bool := l.any fun b => !((useOf b.ins).halves.all s.owns)

/-- Whether the bundle holds a QCFG whose wait ends now: it issues two cycles later (R222). -/
def State.qcfgStarts (s : State) (l : List BOp) : Bool :=
  s.hart.time.qcfg.isNone && (s.liveOps l).any fun b => match b.ins with | .qcfg .. => true | _ => false

/-- The state of hart `n`'s next bundle. What a rollback or a resume has left in flight counts from here on (R100, R348). -/
def State.ready (n : HartId) (s0 : State) : Ready :=
  let s := { s0 with cur := n }
  if !s.mayIssue n then .wait
  else
    match s.front n with
    | .wait => .wait
    | .act t => .act t
    | .ready l more =>
      if s.halfFault l then .act (s.takeTrap n ⟨cHalfown, s.hart.pc, 0, 0, false⟩)
      else if s.hart.rearm then .act (s.armHart n)
      else if s.bundleWaits l then .wait
      else if s.historyWaits l then
        let gs := s.historyGroups l
        if s.hart.histWait = gs then .wait else .act (s.updHart fun h => { h with histWait := gs })
      else if s.qcfgStarts l then
        let c := s.cycle
        .act (s.updHart fun h => { h with time := { h.time with qcfg := some (c + 2) } })
      else if s.needsCkpt l then
        let c := s.cycle
        .act (s.updHart fun h => { h with ck := some ⟨h.pc, h.ser, max c (h.bun.at0 + 1), 0, .go, false⟩ })
      else if (s.liveOps l).any fun b => s.lateWaits b.ins then .wait
      else .go l more

/-! ### Running a bundle's operations (R37, R38) -/

/-- One operation: a trap raised before it stops the bundle; a unit operation with a true guard waits for the others' checks. -/
def State.runOp (s : State) (b : BOp) : Res :=
  if s.hart.bun.trap.isSome then .next s
  else
    let s := s.updHart fun h => { h with bun := { h.bun with head := b.idx } }
    if isUnitOp b.ins && !s.pPoi b.g then
      .next (if s.p b.g then s.updHart fun h => { h with rest := h.rest ++ [(b.idx, b.ins)] } else s)
    else exec b.ins s

/-- The operations of a bundle in ascending head order. -/
def runOps : List BOp → State → Res
  | [], s => .next s
  | b :: r, s =>
    match s.runOp b with
    | .next s' => runOps r s'
    | x => x

/-- The reads of memory that a unit operation makes before it takes effect (R235, R323). -/
def State.unitReads (s : State) (i : Instr) : Option (Space × XReg × List (Word × Nat)) :=
  match i with
  | .shape _ _ xa sp => some (sp, xa, shapeReads (s.x xa))
  | .launch _ _ xa => some (.g, xa, launchReads (s.x xa))
  | _ => none

/-- Whether a trap of a unit operation is raised before the operation is sent: everything but a unit's refusal, and what the reads of a SHAPE
or a LAUNCH find (R148, R281). -/
def State.earlyTrap (s : State) (i : Instr) (t : TrapRec) : Bool :=
  match s.unitReads i with
  | some (_, xa, _) => (16 ≤ t.cause.toNat && t.cause.toNat ≤ 24 && t.cause ≠ cMemerr) || (t.cause = cPoison && s.xPoi xa)
  | none => !isTaskUnit i || (16 ≤ t.cause.toNat && t.cause.toNat ≤ 24) || t.cause = cPoison

/-- The trap that the checks of the unit operations raise, in head order. -/
def dryTrap : List (Nat × Instr) → State → Option TrapRec
  | [], _ => none
  | (i, ins) :: r, s =>
    match exec ins (s.updHart fun h => { h with bun := { h.bun with head := i } }) with
    | .next s1 =>
      match s1.hart.bun.trap with
      | some t => if s.earlyTrap ins t then some t else dryTrap r s
      | none => dryTrap r s1
    | _ => none

/-- Raises a trap found by the checks. -/
def State.raiseRec (t : TrapRec) (s : State) : State := (s.takeTrap s.cur t).updHart fun h => { h with bun := { h.bun with trap := some t } }

/-- Unit operations in the order in which they are sent: those at a task unit first (R281). -/
def sendOrder (l : List (Nat × Instr)) : List (Nat × Instr) :=
  (l.filter fun x => isTaskUnit x.2) ++ l.filter fun x => !isTaskUnit x.2

/-! ### The end of a bundle (R33, R86, R331, R332) -/

/-- The earliest issue of the bundle after one that issued at cycle `t`. -/
def nextIssueAt (t : Nat) (line : Nat) (npc : Option Word) (slow : Nat) : Nat :=
  match npc with
  | none => t + 1
  | some p => (if lineAddr p = line || lineAddr p = line + 64 then t + 2 else t + 4) + slow

/-- The end of the current bundle: flags, the return-address store, GMODE, the PC, and the checkpoint that ends it. -/
def State.finishBundle (s : State) : State :=
  let c := s.cycle
  let b := s.hart.bun
  let s := match b.ngmode with
    | some v => s.updCore fun k => { k with gmode := v }
    | none => s
  s.updHart fun h0 =>
    let h := h0.mergeFlags
    let pc := b.npc.getD b.ft
    { h with
      r := { h.r with ras := b.nras.getD h.r.ras }
      pc := pc
      bundles := h.bundles + 1
      ck := b.ckpt.map fun a => ⟨pc, h.ser, max c (b.at0 + 1), b.reply, a, b.step⟩
      bun := { Bundle.none with at0 := b.at0 }
      time := { h.time with nextIssue := max h.time.nextIssue (nextIssueAt b.at0 (lineAddr b.line) b.npc b.slow) }
      fetch := match b.npc with
        | some _ => { h.fetch with entered := none, xferFrom := some h0.pc, welkinTarget := b.eret }
        | none => h.fetch }

/-- Goes on after the operations of a bundle, or some of its unit operations, have run. -/
def State.afterOps (s : State) : State :=
  if s.hart.bun.trap.isSome then s.updHart fun h => { h with bun := Bundle.none }
  else if s.hart.rest.isEmpty then s.finishBundle
  else s

/-! ### Issue (R20, R21, R95, R100) -/

/-- The hart as its next bundle begins. -/
def Hart.begin (c : Nat) (n : Nat) (more : Bool) (h : Hart) : Hart :=
  let line := lineAddr h.pc
  let ft := if more then pcOf line (headIdx h.pc + n) else pcOf (line + 64) 0
  { h with
    ser := h.ser + 1, rest := [], restRegs := h.r, histWait := []
    bun := { Bundle.none with at0 := c, ft := ft, line := h.pc }
    time := { h.time with qcfg := none, nextIssue := max h.time.nextIssue (c + 1) } }

/-- Issues a bundle of hart `n`. -/
def State.issueBundle (n : HartId) (l : List BOp) (more : Bool) (s0 : State) : Res :=
  let s := { s0 with cur := n }
  let c := s.cycle
  let s := s.updHart (Hart.begin c l.length more)
  let s := if slotOf n && (hasV l || hasX l) then s.updCore fun k => { k with losses := 0 } else s
  match runOps l s with
  | .next s1 =>
    if s1.hart.bun.trap.isSome || s1.hart.rest.isEmpty then .next s1.afterOps
    else
      match dryTrap s1.hart.rest s1 with
      | some t => .next (s1.raiseRec t).afterOps
      | none => .next (s1.updHart fun h => { h with rest := sendOrder h.rest })
  | x => x

/-! ### Unit operations (R140, R144, R148, R215, R281, R433) -/

/-- The fences in force before a program position: `d` are those before the bundle (R144). -/
def FenceSt.upTo (f d : FenceSt) (p : Nat) : FenceSt :=
  let pick := fun a b : Nat => if a < p then a else b
  ⟨pick f.ll d.ll, pick f.la d.la, pick f.sl d.sl, pick f.st d.st, pick f.en d.en⟩

/-- Hart `n` at a unit operation of its bundle, with the registers as they stood before the bundle (R37) and the fences before the operation. -/
def State.atUnit (n : HartId) (idx : Nat) (s0 : State) : State :=
  { s0 with cur := n }.updHart fun h =>
    { h with r := h.restRegs, fence := h.fence.upTo h.dupFence (posOf h.ser idx), bun := { h.bun with head := idx } }

/-- The trap with which a unit operation would end now. -/
def State.unitTrap (s : State) (n : HartId) (idx : Nat) (i : Instr) : Option TrapRec :=
  match exec i (s.atUnit n idx) with
  | .next t => t.hart.bun.trap
  | _ => none

/-- The program positions of the atomics of a hart's bundle that have still to be sent (R281). -/
def Hart.atomsLeft (h : Hart) : List Nat :=
  (h.atoms.map fun a => a.pos) ++ (h.rest.filter fun x => (atomicMask x.2).isSome).map fun x => posOf h.ser x.1

/-- Whether an APPEND acts after a store of its own bundle that is still withheld: one at its location, or one that a FENCE or an atomic
between them orders (R131, R136, R148). -/
def State.appendFollows (s : State) (n : HartId) (idx : Nat) (i : Instr) : Bool :=
  let h := s.hartAt n
  let p := posOf h.ser idx
  let u := s.atUnit n idx
  let sent := match exec i u with
    | .next t => (t.flights.drop s.flights.length).flatMap fun f => f.kind.extents
    | _ => []
  (h.atoms.any fun a => a.pos < p) ||
    h.wh.any fun w => w.pos < p && (u.hart.fence.st ≠ 0 || w.elems.any fun e => anyMeets (e.loc, e.data.length) sent)

/-- The program position before which the hart's withheld stores and atomics are sent ahead of a unit operation: a release's (R136, R140,
R282, R288, R295, R297), for an operation at a task unit no later than the first atomic of the bundle, which follows it (R281); a FENCE with
EN's (R144); that of an APPEND which follows one of them. An operation that its unit refuses now sends nothing of its bundle. -/
def State.unitBar (s : State) (n : HartId) (idx : Nat) (i : Instr) : Nat :=
  let h := s.hartAt n
  let p := posOf h.ser idx
  if isTaskUnit i then
    if (s.unitTrap n idx i).isSome then posOf h.ser 0 else h.atomsLeft.foldl min p
  else
    match i with
    | .tset _ _ _ _ _ frm dst => if frm = .filling && dst = .ready then p else 0
    | .copy .. | .stream .. => (s.atUnit n idx).hart.fence.en
    | .append .. => if s.appendFollows n idx i then p else 0
    | _ => 0

/-- Whether accesses of a hart before a program position are still withheld. -/
def Hart.withholds (h : Hart) (pos : Nat) : Bool := (h.wh.any fun w => w.pos < pos) || h.atoms.any fun a => a.pos < pos

/-- Whether what a unit operation waits for, beyond its reads, is over: what it releases has been performed, what a FENCE with EN names has
been answered, and a FARM finds a free entry in every cluster that it names (R144, R297). -/
def State.unitClear (s : State) (n : HartId) (idx : Nat) (i : Instr) : Bool :=
  let p := s.unitBar n idx i
  match i with
  | .copy .. | .stream .. => !(s.hartAt n).loadsOut p && !s.acksOut n p
  | .append .. => true
  | .farm .. => s.doneBefore n p && !(s.atUnit n idx).ownWaits i
  | _ => s.doneBefore n p

/-- A unit operation's reads as a load of its program position. -/
def State.unitLoad (s : State) (n : HartId) (idx : Nat) : Landing :=
  let u := s.atUnit n idx
  { u.newLanding .pref .g 0 0 [] with bar := u.barNow false false }

/-- The locations of a unit operation's reads, with the cycles of their walks, and the state in which they are translated; none where that
ends in a fault. -/
def State.unitLocs (s : State) (n : HartId) (idx : Nat) (i : Instr) : Option (List (Loc × Nat) × Nat × State) :=
  let u := s.atUnit n idx
  match u.unitReads i with
  | none => none
  | some (sp, _, reqs) =>
    match s.resolveAll n u.launchId sp .load reqs with
    | (.ok (ls, walk), t) => some (ls.zip (reqs.map fun r => r.2), walk, t)
    | (.error _, _) => none

/-- Whether a commit holds the entry reads of a walk that the reads of a unit operation need (R320). -/
def State.unitWalkHeld (s : State) (n : HartId) (idx : Nat) (i : Instr) : Bool :=
  let u := s.atUnit n idx
  (u.unitReads i).any fun x => x.2.2.any fun r => u.translate n u.launchId x.1 .load r.2 r.1 = .walk &&
    u.walkHeld n u.core.dptroot r.1.toNat

/-- Whether one of the reads of a unit operation is performed now (R320, R433). -/
def State.readDue (s : State) (n : HartId) (idx : Nat) (r : UnitRead) (x : Loc × Nat) : Bool :=
  r.took.isNone && r.due ≤ s.now && !s.lineHeld x.1 && !s.elemHeld n (s.unitLoad n idx) x

/-- Sends the reads of a unit operation (R433). -/
def State.sendReads (n : HartId) (xs : List (Loc × Nat)) (walk : Nat) (s : State) : State :=
  let half := fun x : Loc × Nat => halfUp (s.loadLatency n x.1)
  let t0 := s.now + walk
  s.updHartAt n fun h =>
    { h with bun := { h.bun with reads := xs.map fun x => ⟨t0 + half x, none⟩, spent := xs.foldl (fun m x => max m (half x)) 0 } }

/-- Takes the values of the reads that are performed now. -/
def State.takeReads (n : HartId) (idx : Nat) (xs : List (Loc × Nat)) (s : State) : State :=
  let take := fun (y : UnitRead × Loc × Nat) =>
    if s.readDue n idx y.1 y.2 then { y.1 with took := some ((s.atUnit n idx).ownBytes n y.2.1 y.2.2) } else y.1
  s.updHartAt n fun h => { h with bun := { h.bun with reads := (h.bun.reads.zip xs).map take } }

/-- Sends the next unit operation, which then takes effect. -/
def State.sendRest (n : HartId) (s : State) : Res :=
  let h := s.hartAt n
  match h.rest with
  | [] => .next s
  | (idx, i) :: r =>
    match exec i ((s.atUnit n idx).updHart fun h => { h with rest := r }) with
    | .next s1 =>
      let s1 := s1.updHart fun x => { x with fence := h.fence, bun := { x.bun with reads := [], spent := 0 } }
      if s1.hart.bun.trap.isSome then .next s1.afterOps
      else .next (s1.updHart fun x => { x with r := h.r }).afterOps
    | x => x

/-- Whether the unit operations of hart `n` go on: every check and recheck of the bundle is over, and the reply to the operation before has
come. -/
def State.unitsGo (s : State) (n : HartId) : Bool :=
  let h := s.hartAt n
  h.mode = .running && h.bun.reply ≤ s.now && (h.xl.all fun x => !x.walking && x.due ≤ s.now && x.fault.isNone) &&
    (s.coreAt (coreOf n)).recheck.all fun r => r.hart ≠ slotOf n || r.ser < h.ser || (r.matrix && r.ready = 0)

/-- The next step of the reads of a unit operation, `go` once they are over. -/
def State.readStep (n : HartId) (idx : Nat) (i : Instr) (go : Unit → Option Res) (s : State) : Option Res :=
  match s.unitLocs n idx i with
  | none => go ()
  | some (xs, walk, t) =>
    let h := s.hartAt n
    let p := posOf h.ser idx
    let due := (h.bun.reads.zip xs).filter fun y => s.readDue n idx y.1 y.2
    let free := s.updHartAt n fun h => { h with wh := [], atoms := [] }
    if h.bun.reads = [] then
      if (h.land.any fun l => l.gate && l.pos < p && !l.arrived) || s.unitWalkHeld n idx i then none else some (.next (t.sendReads n xs walk))
    else if due ≠ [] then some (.next (s.takeReads n idx xs))
    else if h.bun.reads.all fun r => r.took.isSome then go ()
    else if h.withholds p && (h.bun.reads.zip xs).any fun y => free.readDue n idx y.1 y.2 then some (.next (s.releaseTo n p))
    else none

/-- The next step of the unit operations of hart `n`'s bundle, none where they wait. -/
def State.unitStep (s : State) (n : HartId) : Option Res :=
  let h := s.hartAt n
  match h.rest with
  | [] => none
  | (idx, i) :: _ =>
    let p := s.unitBar n idx i
    if !s.unitsGo n then none
    else if h.withholds p then some (.next (s.releaseTo n p))
    else if !s.unitClear n idx i then none
    else s.readStep n idx i (fun _ => some (s.sendRest n))

/-! ### The merge of the two harts (R20) -/

/-- Whether two bundles collide. -/
def collide (a b : List BOp) : Bool := (hasV a && hasV b) || (hasX a && hasX b)

/-- A hart that loses a collision, or waits for the other, considers its bundle again in the next cycle. -/
def State.defer (n : HartId) (s : State) : State :=
  let c := s.cycleAt (coreOf n)
  s.updHartAt n fun h => { h with time := { h.time with nextIssue := max h.time.nextIssue (c + 1) } }

/-- Issues the bundles of a core's harts whose readiness is known: hart 0 wins a collision unless hart 1 has lost the eight before
it. -/
def State.merge (c : CoreId) (r0 r1 : Ready) (s : State) : Option Res :=
  match r0, r1 with
  | .act t, _ => some (.next t)
  | _, .act t => some (.next t)
  | .go l0 m0, .go l1 m1 =>
    if (s.coreAt c).gmode.toNat % 4 = 1 then some (s.issueBundle (2 * c) l0 m0)
    else if collide l0 l1 then
      if 8 ≤ (s.coreAt c).losses then some ((s.defer (2 * c)).issueBundle (2 * c + 1) l1 m1)
      else some (((s.defer (2 * c + 1)).updCoreAt c fun k => { k with losses := k.losses + 1 }).issueBundle (2 * c) l0 m0)
    else some (s.issueBundle (2 * c) l0 m0)
  | .go l0 m0, .wait => some (s.issueBundle (2 * c) l0 m0)
  | .wait, .go l1 m1 => some (s.issueBundle (2 * c + 1) l1 m1)
  | .wait, .wait => none

/-- The next step of a core's issue, none where both harts wait. -/
def State.issueCore (c : CoreId) (s : State) : Option Res :=
  s.merge c (s.ready (2 * c)) (s.ready (2 * c + 1))

end Sys2Proof.Machine
end

