-- ==== Sys2Proof/Machine/Step.lean ====
section
/-! DEFINITION. One step of the package: what the outside world does, then whatever the machine itself has to do in the present cycle, then the issue of a bundle, and otherwise the next cycle. -/

namespace Sys2Proof.Machine

/-- What happens where a condition holds. -/
def act (b : Bool) (f : State → State) (s : State) : Option Res := if b then some (.next (f s)) else none

/-- What comes first of two things that may have to be done. -/
def orThen (a : Option Res) (b : Unit → Option Res) : Option Res :=
  match a with
  | some r => some r
  | none => b ()

/-! ### Start-up and requests (R402, R404 to R407, R400) -/

/-- Start-up. -/
def State.startEvent (s : State) : Option Res :=
  match s.pkg.phase with
  | .off => some (.next (if s.pkg.started then evWarmStart s else evColdStart s))
  | _ => none

/-- The request that the mailbox serves now. -/
def State.mailEvent (s : State) : Option Res :=
  match s.mailDue with
  | some n => if h : n < 256 then some (.next (s.serveMail ⟨n, h⟩)) else none
  | none => none

/-- A pseudo-channel's drop: what it holds and pre-empts, and its end. -/
def State.dropEvent (s : State) : Option Res :=
  let go := fun d : Nat × Nat × Option Nat =>
    if h : d.2.1 < 64 then some (.next (evPcDrop (d.1 / 2) ⟨d.1 % 2, Nat.mod_lt _ (by decide)⟩ ⟨d.2.1, h⟩ s)) else none
  match s.dropStarts with
  | some p => (s.pkg.drops.find? fun d => s.partOfStack d.1 = p).bind go
  | none => s.nextDrop.bind go

/-! ### The scheduler (R306 to R324, R347 to R354) -/

/-- What the scheduler node of a partition does for one of its queues. -/
def State.queueEvent (s : State) (p : PartId) (q : Nat) : Option Res :=
  if h : q < 64 then
    let x := s.queueAt p q
    orThen (act (s.cancelReady p q) (evCancel p ⟨q, h⟩) s) fun _ =>
    orThen (act (s.takeReady p q) (evLaunchTake p ⟨q, h⟩) s) fun _ =>
    orThen (act (x.period ≠ 0 && x.since + x.period ≤ s.now) (evPeriodRefill p ⟨q, h⟩) s) fun _ =>
    act (x.period ≠ 0 && x.left = 0 && !x.throttled) (evBudgetExhausted p ⟨q, h⟩) s
  else none

/-- What the counter tree of a partition does (R293). -/
def State.sweepEvent (s : State) (p : PartId) : Option Res :=
  let w := (s.partAt p).sweep
  if s.now < w.start then none
  else
    match w.reading with
    | c :: _ => some (.next (evSweep p (some c) s))
    | [] => act (w.start + sweepLength ≤ s.now) (evSweep p none) s

/-- What happens to a partition as a whole. -/
def State.partEvent (s : State) (p : PartId) : Option Res :=
  orThen (((s.partAt p).queues.map fun q => q.1).findSome? (s.queueEvent p)) fun _ =>
  orThen (s.sweepEvent p) fun _ =>
  orThen (act (s.admitReady p) (evAdmission p) s) fun _ =>
  orThen (act (s.commits p).isSome (evCommit p) s) fun _ =>
  orThen (act (s.prepares p).isSome (evPrepare p) s) fun _ =>
  match s.chosen p with
  | some id => some (.next (if (s.launchAt id).pre = .savedOut then evRestore id s else evLaunchStart id s))
  | none => none

/-- Whether a pre-empted launch is saved now. -/
def State.savesNow (s : State) (id : Nat) : Bool :=
  let l := s.launchAt id
  l.st = .running && l.cause = 0 && (match l.pre with | .stopping => s.drained id | .saving _ => true | _ => false)

/-- What happens to a launch. A restored launch resumes at once, and so does one whose cut has failed. -/
def State.launchEvent (s : State) (id : Nat) : Option Res :=
  let l := s.launchAt id
  orThen (act (s.abortDue id) (evLaunchAbort id) s) fun _ =>
  orThen (act (l.st = .admitted && s.waitsOver l) (evLaunchReady id) s) fun _ =>
  orThen (act ((l.st.uncommitted || l.st = .taken) && !l.overran && l.deadline < s.now) (evOverrun id) s) fun _ =>
  orThen (act (s.shadow.any fun e => e.launch = id && e.settleAt.any fun t => t ≤ s.now) (evLineSettle id) s) fun _ =>
  orThen (act (l.overflow && !l.rc.ovf && l.st = .running && l.cause = 0) (evShadowOverflow id) s) fun _ =>
  orThen (act (s.switches id) (evIrrevocableSwitch id) s) fun _ =>
  orThen (act (s.finished id) (evLaunchEnd id) s) fun _ =>
  orThen (act (s.savesNow id) (evContextSave id false) s) fun _ =>
  orThen (act (l.st = .running && l.pre = .none && s.cutGoes id) (evCutRound id) s) fun _ =>
  orThen (act (l.st = .running && l.pre = .none && s.cutLate id) (evCutfail id) s) fun _ =>
  act (l.st = .running && (l.pre = .restored || (l.pre = .none && l.cut = .failed))) (evResume id) s

/-! ### Collectives (R392 to R395) -/

/-- What happens on a die: a trigger that is looked at, or a record that is woken (R288). -/
def State.dieEvent (s : State) (d : DieId) : Option Res :=
  match (s.dieAt d).trig with
  | g :: _ => if h : g < 64 then some (.next (evCollectiveTrigger d ⟨g, h⟩ s)) else none
  | [] =>
    match (s.dieAt d).wakes with
    | w :: _ => act (w.due ≤ s.now) (evFutureWake d) s
    | [] => none

/-- The end of a group's round. -/
def State.groupEvent (s : State) (g : Nat) : Option Res :=
  if h : g < 64 then
    orThen (act ((s.groupAt g).doneAt.any fun t => t ≤ s.now) (evCollectiveComplete ⟨g, h⟩) s) fun _ =>
    act (s.roundLate g) (evCollectiveTimeout ⟨g, h⟩) s
  else none

/-! ### Accesses, copies and streams -/

/-- What happens to an access on its way (R433, R144, R101). One that waits for shadow room is held by the overflow policy and has no
timeout (R319). -/
def State.flightEvent (s : State) (f : Flight) : Option Res :=
  orThen (act (s.performsFlight f) (fun s => match f.kind with | .store _ => evStorePerform f.id s | _ => evAtomicPerform f.id s) s) fun _ =>
  orThen (act (f.performed && f.ackAt ≤ s.now) (State.acknowledge f) s) fun _ =>
  act (!f.wait && f.sentAt + s.memtoCycles ≤ s.now) (evMemoryTimeout f.hart f.id) s

/-- What a cluster's copy engine does (R247, R248). -/
def State.copyEvent (s : State) (cl : ClusterId) : Option Res :=
  orThen (act (s.chunkLate cl || (s.chunkDue cl && !s.chunkHeld cl)) (evCopyChunkDone cl none) s) fun _ =>
  act (s.copyEnds cl) (evCopyDone cl) s

/-- Whether the streams of a launch halt for its pre-emption: its harts have stopped, and its engine operations have completed (R245, R272,
R347, step 4). -/
def State.streamsHalt (s : State) (id : Nat) : Bool :=
  let l := s.launchAt id
  match l.pre with
  | .none => false
  | .stopping =>
    (l.rc.hartList.all fun n => (s.hartAt n).mode = .stopped || (s.hartAt n).mode = .idle) &&
      l.rc.coreList.all fun c => (s.coreAt c).eng.isEmpty
  | _ => true

/-- What a stream slot does. -/
def State.streamEvent (s : State) (c : CoreId) (k : Fin 4) : Option Res :=
  if !((s.coreAt c).streams.get k).active || s.streamsHalt ((s.clusterAt (c / 16)).launch.getD 0) then none
  else orThen (act (s.pushReady c k) (evStreamPush c k) s) fun _ => act (s.writeReady c k) (evStreamWrite c k) s

/-! ### A core -/

/-- Whether data of a request arrives at a core now. -/
def State.arrivesAt (s : State) (c : CoreId) : Bool := (hartsOf c).any fun n => (s.hartAt n).land.any (s.arrivesNow n)

/-- The hart of a core whose results take effect now. -/
def State.settles (s : State) (c : CoreId) : Option HartId :=
  if (s.coreAt c).frozen then none
  else (hartsOf c).find? fun n => (s.hartAt n).drain = .no && (s.hartAt n).wq.any fun w => w.due ≤ s.cycleAt c

/-- What an engine operation does now (R225, R226, R261, R262, R265). -/
def State.engineEvent (s : State) (c : CoreId) (e : EngOp) : Option Res :=
  let k := s.coreAt c
  orThen (act (s.completes c e) (evEngineComplete c e.id) s) fun _ =>
  orThen (act (s.group0Due c e) (evQpopGroupWrite c e.id) s) fun _ =>
  orThen (act (!k.frozen && e.stldDue (s.cycleAt c)) (State.stldPop c e) s) fun _ =>
  act (s.fires c e) (fun s => match e.kind with
    | .qpush .. => evQpushFire c e.id s
    | .qpop .. => evQpopFire c e.id s
    | _ => evEngineFire c e.id s) s

/-- What a core's grid, queues and engines do now. -/
def State.coreEvent (s : State) (c : CoreId) : Option Res :=
  let k := s.coreAt c
  let t := s.cycleAt c
  orThen (act (s.arrivesAt c) (evDataArrival c) s) fun _ =>
  orThen (act (s.landingDue c) (evLanding c) s) fun _ =>
  orThen ((s.settles c).bind fun n => some (.next (s.settleHart n))) fun _ =>
  orThen ((k.vq.find? (s.vWriteDue c)).map fun w => .next (evVWriteComplete c w.id s)) fun _ =>
  orThen (if k.frozen then none else (k.qst.find? fun b => b.fired && b.due ≤ t).map fun b => .next (evQstBlockPush c b.id s)) fun _ =>
  orThen (k.eng.findSome? (s.engineEvent c)) fun _ =>
  orThen (if k.frozen then none else (k.qst.find? fun b => !b.fired && k.qstFires b.grp).map fun b => .next (s.fireQst c b.grp)) fun _ =>
  orThen ((k.recheck.find? (s.recheckReady c)).map fun r => .next (evRecheckExecute c r.id true s)) fun _ =>
  (List.finRange 4).findSome? (s.streamEvent c)

/-! ### A hart -/

/-- Whether a request of a hart has gone without an answer for the memory timeout (R101). -/
def State.timesOut (s : State) (l : Landing) : Bool :=
  !l.cyc && !l.arrived && l.kind ≠ .pref && l.issued + s.memtoCycles ≤ s.now

/-- What happens to a request of a hart. -/
def State.requestEvent (s : State) (n : HartId) (l : Landing) : Option Res :=
  orThen (act (s.walkDue n l) (evDataWalkEnd n l.id) s) fun _ =>
  orThen (act (s.performsLoad n l) (State.performLoad n l) s) fun _ =>
  act (s.timesOut l) (evMemoryTimeout n l.id) s

/-- What happens on the fetch side of a hart (R117). -/
def State.fetchEvent (s : State) (n : HartId) : Option Res :=
  if !s.fetchDue n then none
  else match (s.hartAt n).fetch.st with
    | .walk .. => some (.next (evFetchWalkEnd n s))
    | .fill .. => some (.next (evIcacheFill n s))
    | .idle => none

/-- Whether a load that an acquire held back is sent now (R135). -/
def State.heldDue (s : State) (n : HartId) : Bool :=
  (s.hartAt n).land.any fun l =>
    !l.sent && !l.walking && !l.unitOp && !l.cyc && l.res.isNone && !(s.hartAt n).acquireHolds l.ser

/-- What happens to a hart before its next bundle. -/
def State.hartEvent (s : State) (n : HartId) : Option Res :=
  let h := s.hartAt n
  orThen (h.land.findSome? (s.requestEvent n)) fun _ =>
  orThen (act (s.heldDue n) (State.sendHeld n) s) fun _ =>
  orThen (s.fetchEvent n) fun _ =>
  orThen ((h.faultNow s.now).bind fun t => act (h.mode = .running) (State.takeTrap n t) s) fun _ =>
  orThen (act (s.ckptReady n) (evCheckpointComplete n) s) fun _ =>
  orThen (act (h.mode = .running && h.ck.isNone && h.rest.isEmpty && s.wantsCkpt n) (evBundleLimitCheckpoint n) s) fun _ =>
  orThen (act (s.welkinDue n) (State.welkinActs n) s) fun _ =>
  orThen (act (s.leaveReady n) (evWritebackComplete n) s) fun _ =>
  orThen (act (s.stripReady n) (evStripStart n) s) fun _ =>
  orThen (act (s.pickupReady n) (evPickup n) s) fun _ =>
  s.unitStep n

/-! ### The step -/

/-- Cores with a hart that holds a launch, ascending: the others have nothing to do. -/
def State.liveCores (s : State) : List CoreId :=
  s.harts.foldr (fun h acc =>
    if h.2.mode = .off then acc
    else match acc with
      | c :: _ => if c = coreOf h.1 then acc else coreOf h.1 :: acc
      | [] => [coreOf h.1]) []

/-- What the machine itself has to do in the present cycle before bundles issue. -/
def State.event (s : State) : Option Res :=
  orThen s.startEvent fun _ =>
  orThen s.mailEvent fun _ =>
  orThen (s.hostDue.bind fun i => some (.next (s.hostGoes i))) fun _ =>
  orThen (act (lastLeaf ≤ s.pkg.leaf) evKeyRollover s) fun _ =>
  orThen s.dropEvent fun _ =>
  orThen (s.launches.findSome? fun l => s.launchEvent l.1) fun _ =>
  orThen (s.parts.findSome? fun p => s.partEvent p.1) fun _ =>
  orThen (s.dies.findSome? fun d => s.dieEvent d.1) fun _ =>
  orThen (s.pkg.groups.findSome? fun g => s.groupEvent g.1) fun _ =>
  orThen (s.flights.findSome? s.flightEvent) fun _ =>
  orThen (s.clusters.findSome? fun c => s.copyEvent c.1) fun _ =>
  orThen (s.harts.findSome? fun h => act (s.stopsNow h.1) (State.stopHart h.1) s) fun _ =>
  orThen (s.liveCores.findSome? s.coreEvent) fun _ =>
  s.harts.findSome? fun h => s.hartEvent h.1

/-- The next issue of a bundle in the present cycle. -/
def State.issue (s : State) : Option Res := s.liveCores.findSome? fun c => s.issueCore c

/-- Whether a running launch draws on a queue's budget. -/
def State.drawsOn (s : State) (p : PartId) (q : Nat) : Bool := (s.launchesOf p).any fun l => l.2.rc.queue = q && l.2.runs

/-- A frozen cycle of a hart: its core waits for a division that lands now, so the divider works on that one, and on no other (R97, R128). -/
def Hart.divide (c : Nat) (h : Hart) : Hart :=
  { h with land := h.land.map fun l => if l.cyc && !l.arrived && l.due ≤ c then { l with arriveAt := l.arriveAt - 1 } else l }

/-- The next cycle: the clock of a frozen core stands still (R21), and the budgets of running launches are spent (R315). -/
def State.tick (s : State) : State :=
  { s with
    now := s.now + 1
    harts := s.harts.map fun h =>
      if h.2.mode ≠ .off && (s.coreAt (coreOf h.1)).frozen then (h.1, h.2.divide (s.cycleAt (coreOf h.1))) else h
    cores := s.cores.map fun c => if c.2.frozen then (c.1, { c.2 with t0 := c.2.t0 + 1 }) else c
    parts := s.parts.map fun p => (p.1, p.2.spend (s.drawsOn p.1)) }

/-- One step of the machine. -/
def step (s : State) : Res :=
  match s.inputs with
  | i :: r => exec i { s with inputs := r }
  | [] =>
    match s.event with
    | some r => r
    | none =>
      match s.issue with
      | some r => r
      | none => .next s.tick

/-! ### Running one operation from a given state -/

/-- The line that holds an operation, closed by a NOP where it does not end its bundle. -/
def lineWith (nbits w : Nat) : List Byte :=
  let v := w % 2 ^ nbits
  let op := (v % 65536, v / 65536)
  lineOf (if v % 65536 / 32768 = 1 then [op] else [op, (0x8198, 0)])

/-- The launch to which hart 0 belongs where a program has been placed for it: one hart on cluster 0, its root scope open. -/
def placedLaunch : Launch :=
  { Launch.none with st := .running, tag := 1, place := 1, root := 1, deadline := 2 ^ 40, rc := { Launch.none.rc with clusters := 1, harts := 1 } }

/-- The partition of that launch. -/
def placedPart (p : Part) : Part :=
  { p with scopes := SMap.put p.scopes 1 { ScopeEnt.reset with openNow := true, launch := 1, root := true } }

/-- Hart 0 about to issue the bundle of the line that holds the operation. -/
def placedHart (nbits w : Nat) (h : Hart) : Hart :=
  { h with
    pc := 0, mode := .running, launch := some 1, ck := none, rest := [], time := { h.time with qcfg := some 0 }
    fetch := { h.fetch with entered := some 0, xferFrom := none, st := .idle, icache := SMap.put h.fetch.icache 0 (lineWith nbits w) } }

/-- `s` with a line that holds the operation in the instruction cache of hart 0, which runs a launch and is about to issue from it. -/
def State.withFetchWord (s : State) (nbits w : Nat) : State :=
  { s with
    inputs := []
    pkg := { s.pkg with phase := .open, started := true }
    launches := SMap.put s.launches 1 placedLaunch
    parts := SMap.put s.parts 0 (placedPart (s.partAt 0))
    clusters := SMap.put s.clusters 0 { s.clusterAt 0 with launch := some 1, spawned := SMap.put (s.clusterAt 0).spawned 1 1 }
    cores := SMap.put s.cores 0 { s.coreAt 0 with frozen := false }
    harts := SMap.put s.harts 0 (placedHart nbits w (s.hartAt 0)) }

end Sys2Proof.Machine
end

