-- ==== Sys2Proof/Safety.lean ====
section
/-! DEFINITION. The terms in which claims are stated: registers as a hart reads them at a cycle, what an operation may write and what it leaves, the hard-wired registers, the canonical form of the memories, and a run without a stop. -/

namespace Sys2Proof

open Machine

/-- x0 reads zero, p0 true and m0 all ones (R6, R46). -/
def Machine.Regs.hardwired (r : Regs) : Prop := r.x[0] = 0 ∧ r.p.getLsbD 0 = true ∧ r.m[0] = BitVec.allOnes 256

/-- A hart whose registers, in use and duplicate, hold the hard-wired values. -/
def Machine.Hart.hardwired (h : Hart) : Prop := h.r.hardwired ∧ h.dup.hardwired

/-- HBM is in canonical form: addresses strictly rising, no listed byte equal to zero, poisoned lines rising. -/
def Machine.State.memWf (s : State) : Prop := s.mem.wf = true

/-- A run of `k` steps from `s` that meets no fault and no refusal. -/
def Machine.State.runsSafely (s : State) (k : Nat) : Prop := ∃ t, Sys2Proof.core.run k s = .next t

namespace Spec

/-! ### Registers of the current hart -/

/-- A register that software can name (R7, R356). -/
inductive Reg where
  | x (r : XReg)
  | p (r : PReg)
  | m (r : MReg)
  | sys (r : SysReg)
  deriving DecidableEq, Repr

/-- What the register reads as, widened to 256 bits; a predicate reads as 1 or 0. -/
def Reg.value (s : State) : Reg → BitVec 256
  | .x r => (s.x r).setWidth 256
  | .p r => if s.p r then 1 else 0
  | .m r => s.m r
  | .sys r => (s.sysValue r).setWidth 256

/-- The register's poison mark (R127); a system register carries none. -/
def Reg.mark (s : State) : Reg → Bool
  | .x r => s.xPoi r
  | .p r => s.pPoi r
  | .m r => s.mPoi r
  | .sys _ => false

/-- What the register reads as, with its mark. -/
def Reg.read (s : State) (r : Reg) : BitVec 256 × Bool := (r.value s, r.mark s)

/-- `s` as its current hart sees its registers at core cycle `c`, where only its ordinary results in flight write them (R98). -/
def atCycle (s : State) (c : Nat) : State := s.updHart (Hart.settle c)

/-- Values that registers receive, each with its poison mark. -/
abbrev Writes := List (Reg × BitVec 256 × Bool)

/-- A scalar result; x0 receives nothing (R46). -/
def toX (r : XReg) (v : Word) (poi : Bool) : Writes := if r = 0 then [] else [(.x r, v.setWidth 256, poi)]
/-- A predicate result; p0 receives nothing (R46). -/
def toP (r : PReg) (b poi : Bool) : Writes := if r = 0 then [] else [(.p r, if b then 1 else 0, poi)]
/-- The two results of a compare (R77). -/
def toP2 (pd pc : PReg) (b poi : Bool) : Writes := toP pd b poi ++ toP pc (!b) poi
/-- A mask result; m0 receives nothing (R46). -/
def toM (r : MReg) (v : Mask) (poi : Bool) : Writes := if r = 0 then [] else [(.m r, v, poi)]
/-- A system register result. -/
def toSys (r : SysReg) (v : Word) : Writes := [(.sys r, v.setWidth 256, false)]

/-! ### When an operation executes, and its frame -/

/-- The guard names a true predicate that is not poisoned (R39, R344). -/
def Enabled (s : State) (h : Head) : Prop := s.p h.g = true ∧ s.pPoi h.g = false

/-- The hart owns the half of every vector operand (R19), and no engine operation of an earlier bundle that writes one of these halves makes a
column or a diagonal of it raise ACCBUSY (R37, R183). -/
def Owned (s : State) (ops : List VOp) : Prop :=
  ∀ v ∈ ops, ownsHalf (s.core.gmode.toNat % 4) (s.cur % 2 = 1) v.half = true ∧ (v.kind = .row ∨ s.coreV.busy v.half = false ∨ s.gridchk = false)

/-- None of the registers, and no active element of the vector operands, is poisoned (R344). -/
def Clean (s : State) (regs : List Reg) (ops : List VOp) (ma : MReg) : Prop :=
  (∀ r ∈ regs, r.mark s = false) ∧ ∀ v ∈ ops, ∀ i ∈ s.active ma, (s.vread v i).poi = false

/-- Operations of the bundle under way have run in head order, so that none of its results stands at a higher head index (R37), and no result
of the hart waits in the snapshot buffer (R347, R348): `BundleEnds` says that the beginning of a bundle brings this about and that results at rising heads keep it. -/
def Latest (s : State) : Prop :=
  (∀ w ∈ s.hart.wq, w.ser = s.hart.ser → w.head ≤ s.hart.bun.head) ∧ (∀ w ∈ s.hart.bun.wrote, w.2.2 ≤ s.hart.bun.head) ∧ s.hart.drain = .no

/-- Every register but the listed ones reads, at every cycle, as it would have read. -/
def Keeps (s t : State) (l : List Reg) : Prop := ∀ c r, r ∉ l → r.read (atCycle t c) = r.read (atCycle s c)

/-- The listed registers receive their values `lat` cycles on (R66, R98), and every other register keeps its own. -/
def Lands (s t : State) (lat : Nat) (ws : Writes) : Prop :=
  (∀ w ∈ ws, w.1.read (atCycle t (s.cycle + lat)) = (w.2.1, w.2.2)) ∧ Keeps s t (ws.map fun w => w.1)

/-- Every byte of every memory reads as before. -/
def SameBytes (s t : State) : Prop := ∀ u a, t.unitByte u a = s.unitByte u a

/-- Nothing outside the current hart and its core has changed, but for the model's own counters. -/
def Local (s t : State) : Prop :=
  t = { s with harts := t.harts, cores := t.cores, fresh := t.fresh, freeCtr := t.freeCtr } ∧
    (∀ n, n ≠ s.cur → t.hartAt n = s.hartAt n) ∧ ∀ c, c ≠ coreOf s.cur → t.coreAt c = s.coreAt c

/-- The hart but for its results: those in flight, and what its bundle has written, are as `t` has them. -/
def withResults (t : State) (h : Hart) : Hart := { h with wq := t.hart.wq, bun := { h.bun with wrote := t.hart.bun.wrote } }

/-- The operation answers a next state in which the listed registers receive their values `lat` cycles on; the hart and its core are
as `g` and `k` leave them, but for the results in flight, and nothing else changes. The registers `but` are read-outs of what `g` or
`k` changes: no claim is made about them. -/
def EffectBut (but : List Reg) (i : Instr) (s : State) (lat : Nat) (ws : Writes) (g : Hart → Hart) (k : Core → Core) : Prop :=
  ∃ t, exec i s = .next t ∧ (∀ w ∈ ws, w.1.read (atCycle t (s.cycle + lat)) = (w.2.1, w.2.2)) ∧
    Keeps s t (but ++ ws.map fun w => w.1) ∧ SameBytes s t ∧ Local s t ∧ t.hart = g (withResults t s.hart) ∧ t.core = k s.core

/-- An effect after which every register but the listed ones reads as before. -/
def Effect (i : Instr) (s : State) (lat : Nat) (ws : Writes) (g : Hart → Hart) (k : Core → Core) : Prop := EffectBut [] i s lat ws g k

/-- An operation that writes registers and nothing else. -/
def Computes (i : Instr) (s : State) (lat : Nat) (ws : Writes) : Prop := Effect i s lat ws id id

/-- The bundle raises flags of FPFLAGS (R68). -/
def raisesF (f : FFlags) (h : Hart) : Hart := { h with bun := { h.bun with raisedF := h.bun.raisedF ||| f.word } }
/-- The bundle raises flags of VFLAGS (R165). -/
def raisesV (f : Word) (h : Hart) : Hart := { h with bun := { h.bun with raisedV := h.bun.raisedV ||| f } }
/-- The hart's V slot is taken up to a cycle (R180). -/
def holdsV (c : Nat) (h : Hart) : Hart := { h with time := { h.time with vNext := c } }
/-- The bundle transfers (R86). -/
def transfersTo (t : Word) (h : Hart) : Hart := { h with bun := { h.bun with npc := some t } }
/-- The bundle ends with a checkpoint that is followed by `a` (R331). -/
def endsWith (a : AfterCkpt) (h : Hart) : Hart := { h with bun := { h.bun with ckpt := some a } }

/-- The current operation counts as translated, or reports its fault, at tick `due` (R115, R332); `j` numbers the report. -/
def reports (s : State) (j due : Nat) (walking : Bool) (f : Option TrapRec) (h : Hart) : Hart :=
  { h with xl := h.xl ++ [⟨j, s.hart.ser, s.hart.bun.head, due, walking, f⟩] }
/-- The hart holds one more timed request (R96). -/
def requests (l : Landing) (h : Hart) : Hart := { h with land := h.land ++ [l] }
/-- The hart withholds one more store (R125). -/
def withholds (w : WStore) (h : Hart) : Hart := { h with wh := h.wh ++ [w] }
/-- The trap of a memory fault of the current operation at address `e` (R115). -/
def memoryTrap (s : State) (f : MemFault) (e : Word) (sp : Space) (a : Acc) : TrapRec :=
  { cause := f.cause, pc := s.hart.pc, info := e, aux := auxMem f.reason f.level sp a s.hart.bun.head, welkin := false }
/-- The checks of an access of the current hart, of `size` bytes at `e`, and its location (R104 to R115). -/
def checked (s : State) (sp : Space) (a : Acc) (size : Nat) (e : Word) : Tr := s.translate s.cur s.hart.launchId sp a size e

/-- What a load or store of the current operation waits for (R135, R136, R144): accesses before the latest FENCE with LL or LS, stores before the
latest with SL, and, for a release or a store after a FENCE with SS or LS, every access before it. -/
def waitsFor (s : State) (store release : Bool) : Bar :=
  { la := s.hart.fence.la, st := s.hart.fence.sl
    sa := if release = true ∨ (store = true ∧ s.hart.fence.st ≠ 0) then posOf s.hart.ser s.hart.bun.head else 0 }

/-- The address that a fault of a load reports: that of the element whose request fails (R115, R210). -/
def elemAddress (reqs : List Req) (r : Req) : Word := ((reqs.find? fun q => q.1 = r.1).getD r).2.1

/-- A timed load of the elements `reqs` (number, address, size), in ascending order (R94 to R96, R115, R124, R135, R433): the request with the
bytes of the hart's own withheld stores, each of whose elements is performed half its own latency after the request is sent; a walk of the page
tables; or the first fault. `acq` says that it orders the hart's later accesses, `gate` that loads of later bundles are sent after its data. The
hart changes otherwise as `g` says. -/
def LoadIssues (i : Instr) (s : State) (sp : Space) (kind : LandKind) (reqs : List Req) (dist slots seen : Nat) (acq gate : Bool)
    (g : Hart → Hart) : Prop :=
  let located := fun (r : Req) l => checked s sp .load r.2.2 r.2.1 = .loc l
  let request := fun (l : Landing) =>
    l.kind = kind ∧ l.ser = s.hart.ser ∧ l.head = s.hart.bun.head ∧ l.pc = s.hart.pc ∧ l.issued = s.now ∧ l.space = sp ∧
    l.due = s.hart.bun.at0 + max dist 1 ∧ l.slots = slots ∧ l.acq = acq ∧ l.gate = gate ∧ l.bar = waitsFor s false false ∧
    l.cyc = false ∧ l.res = none ∧ l.arrived = false ∧ l.landed = false ∧ l.unitOp = false ∧ l.rem = none
  (∀ locs, reqs.length = locs.length → (∀ x ∈ reqs.zip locs, located x.1 x.2) →
    ∃ req j, Effect i s 0 [] (fun k => requests req (reports s j seen false none (g k))) id ∧ request req ∧
      req.walking = false ∧
      req.elems.map (fun e => { e with perfAt := 0 }) = (reqs.zip locs).map (fun x => mkElem s.hart x.1 (some x.2)) ∧
      (req.sent = true ↔ ¬ ∃ a ∈ s.hart.land, a.gate = true ∧ a.ser < s.hart.ser ∧ a.arrived = false) ∧
      (req.sent = true → ∀ e ∈ req.elems, ∀ l, e.loc = some l → e.perfAt = s.now + (s.loadLatency s.cur l + 1) / 2) ∧
      (req.failed.isSome = true ↔ ∃ l ∈ locs, l.bad = true)) ∧
  ∀ pre r post, reqs = pre ++ r :: post → (∀ x ∈ pre, ∃ l, located x l) →
    (checked s sp .load r.2.2 r.2.1 = .walk →
      ∃ req j due, Effect i s 0 [] (fun k => reports s j due true none (requests req (g k))) id ∧ request req ∧
        due = s.now + s.walkCycles s.cur s.core.dptroot r.2.1.toNat ∧
        req.walking = true ∧ req.sent = false ∧ req.elems = reqs.map (fun x => mkElem s.hart x none)) ∧
    (∀ f, checked s sp .load r.2.2 r.2.1 = .fault f →
      ∃ j, Effect i s 0 [] (fun k => reports s j seen false (some (memoryTrap s f (elemAddress reqs r) sp .load)) (g k)) id)

/-- A store of the elements `reqs` (address, bytes), in ascending order (R115, R125, R133, R136): the withheld store, whose elements are in
order unless `ordered` is false and two of them share bytes, or the first fault; the hart changes otherwise as `g` says. -/
def StoreIssues (i : Instr) (s : State) (sp : Space) (reqs : List (Word × List Byte)) (slots seen : Nat) (release ordered : Bool)
    (g : Hart → Hart) : Prop :=
  let located := fun (r : Word × List Byte) l => checked s sp .store r.2.length r.1 = .loc l
  (∀ locs, reqs.length = locs.length → (∀ x ∈ reqs.zip locs, located x.1 x.2) →
    ∃ w j, EffectBut [.sys .ckstat] i s 0 [] (fun k => withholds w (reports s j seen false none (g k))) id ∧
      w.ser = s.hart.ser ∧ w.head = s.hart.bun.head ∧ w.slots = slots ∧ w.bar = waitsFor s true release ∧ w.ord = ordered ∧
      let elems := (reqs.zip locs).map fun x => ({ loc := x.2, data := x.1.2, poi := false } : SElem)
      w.elems.Perm elems ∧ (ordered = true ∨ meetsAny elems = false → w.elems = elems)) ∧
  ∀ pre r post, reqs = pre ++ r :: post → (∀ x ∈ pre, ∃ l, located x l) →
    checked s sp .store r.2.length r.1 ≠ .walk ∧
    (∀ f, checked s sp .store r.2.length r.1 = .fault f →
      ∃ j, Effect i s 0 [] (fun k => reports s j seen false (some (memoryTrap s f r.1 sp .store)) (g k)) id)

/-! ### The grid -/

/-- A rechecked operation takes an entry of the recheck queue (R346). -/
def rechecks (s : State) (id : Nat) (k : Core) : Core :=
  if k.rechkLevel = 0 then k
  else { k with recheck := k.recheck ++ [⟨id, decide (s.cur % 2 = 1), s.hart.ser, false, s.cycle + 1, 1⟩] }

/-- The write of a V-class operation on its way to the cells of `vd` (R181): an element of a column or a diagonal that an engine
operation in flight writes is unpredictable (R183). -/
def VWritten (s : State) (w : VWrite) (vd : VOp) (vals : List (Nat × GCell)) (lat : Nat) : Prop :=
  w.op = vd ∧ w.due = s.cycle + lat ∧ w.hart = decide (s.cur % 2 = 1) ∧ w.ser = s.hart.ser ∧
  w.cells.map (fun c => c.1) = vals.map (fun v => vd.cell v.1) ∧
  ∀ x ∈ w.cells.zip vals, vd.kind = .row ∨ s.coreV.inFlight x.1.1 = false → x.1.2 = x.2.2

/-- The history buffer holds the old contents of every element group that is written, and what it held (R334). -/
def Recorded (s t : State) (cells : List Nat) : Prop :=
  let mine := fun e : HistEnt => e.hart = decide (s.cur % 2 = 1)
  (∀ c ∈ cells, ∃ e ∈ t.core.hist, mine e ∧ e.group = c / 128) ∧
  (∀ e ∈ s.core.hist, ∃ e' ∈ t.core.hist, e'.hart = e.hart ∧ e'.group = e.group ∧ e'.old = e.old) ∧
  ∀ e' ∈ t.core.hist, (∃ e ∈ s.core.hist, e'.hart = e.hart ∧ e'.group = e.group ∧ e'.old = e.old) ∨
    (mine e' ∧ (∃ c ∈ cells, e'.group = c / 128) ∧ e'.old = (List.range 128).map fun j => s.core.cell (128 * e'.group + j))

/-- An operation that writes elements of a vector `lat` cycles on, holds the V slot up to `interval` cycles on (R180), is rechecked
(R346), and changes its hart otherwise as `g` says; no cell has changed yet. -/
def GridEffect (i : Instr) (s : State) (lat interval : Nat) (vd : VOp) (vals : List (Nat × GCell)) (g : Hart → Hart) : Prop :=
  ∃ t, exec i s = .next t ∧ Keeps s t [.sys .ckstat] ∧ SameBytes s t ∧ Local s t ∧ t.hart = holdsV (s.cycle + interval) (g s.hart) ∧
    if vals = [] then ∃ id, t.core = rechecks s id s.core
    else ∃ id w hist eng, t.core = rechecks s id { s.core with vq := s.core.vq ++ [w], hist := hist, eng := eng } ∧
      VWritten s w vd vals lat ∧ Recorded s t (vals.map fun v => vd.cell v.1) ∧
      eng.map (fun e => { e with spoil := [] }) = s.core.eng.map (fun e => { e with spoil := [] })

/-- Flags of a list of lanes (R165, R189). -/
def laneFlags (l : List LaneR) (h : Hart) : Hart :=
  raisesF (l.foldl (fun f r => f.or r.f) FFlags.none) (raisesV (if l.any fun r => r.sat then 1 else 0) h)

/-- An element-wise operation: every active element of `vd` receives `fn` of its index, with the poison of the mask and of its sources
(R127, R178, R189). -/
def LaneEffect (i : Instr) (s : State) (lat interval : Nat) (vd : VOp) (ma : MReg) (poi : Nat → Bool) (fn : Nat → LaneR) : Prop :=
  GridEffect i s lat interval vd ((s.active ma).map fun j => (j, ⟨(fn j).v, s.mPoi ma || poi j⟩)) (laneFlags ((s.active ma).map fn))

/-! ### Queues, engines and the cluster -/

/-- The queue is configured, belongs to the hart, and its entries hold `need` bytes (R216, R217, R220). -/
def QueueReady (s : State) (q : QReg) (need : Nat) : Prop :=
  let qu := s.core.queues.get q
  qu.sz ≠ 0 ∧ qu.owner = decide (s.cur % 2 = 1) ∧ need ≤ (qu.es.toNat + 1) * 16

/-- An engine operation joins the engine in program order; one that writes the grid takes the next matrix tag (R221, R261, R264), and a
rechecked one an entry of the recheck queue at level 2 (R271). -/
def EngineEffect (i : Instr) (s : State) (kind : EngKind) (tagged checked : Bool) (g : Hart → Hart) : Prop :=
  ∃ e, EffectBut [.sys .mtag] i s 0 [] g (fun k =>
      { k with
        eng := k.eng ++ [e], mtag := if tagged then k.mtag + 1 else k.mtag
        recheck := if checked && decide (2 ≤ k.rechkLevel) then k.recheck ++ [⟨e.id, decide (s.cur % 2 = 1), s.hart.ser, true, 0, kind.service⟩] else k.recheck }) ∧
    e.kind = kind ∧ e.hart = decide (s.cur % 2 = 1) ∧ e.ser = s.hart.ser ∧ e.pc = s.hart.pc ∧ e.head = s.hart.bun.head ∧
    e.tag = s.core.mtag ∧ e.issue = s.cycle ∧ e.fire = none ∧ e.spoil = [] ∧ e.skip = [] ∧ e.written = false ∧ e.late = []

/-- An effect that also changes the hart's cluster, as `c` says: no byte of the scratchpad, and no other cluster. -/
def SharedEffect (but : List Reg) (i : Instr) (s : State) (lat : Nat) (ws : Writes) (g : Hart → Hart) (k : Core → Core)
    (c : Cluster → Cluster) : Prop :=
  ∃ t, exec i s = .next t ∧ (∀ w ∈ ws, w.1.read (atCycle t (s.cycle + lat)) = (w.2.1, w.2.2)) ∧
    Keeps s t (but ++ ws.map fun w => w.1) ∧ SameBytes s t ∧
    t = { s with harts := t.harts, cores := t.cores, clusters := t.clusters, fresh := t.fresh, freeCtr := t.freeCtr } ∧
    (∀ n, n ≠ s.cur → t.hartAt n = s.hartAt n) ∧ (∀ n, n ≠ s.cur / 2 → t.coreAt n = s.coreAt n) ∧
    (∀ n, n ≠ s.cur / 32 → t.clusterAt n = s.clusterAt n) ∧
    t.hart = g (withResults t s.hart) ∧ t.core = k s.core ∧ t.cluster = c s.cluster

/-- The bundle ends with a checkpoint (R138, R331). -/
def checkpoints (h : Hart) : Hart := endsWith (h.bun.ckpt.getD .go) h
/-- The bundle ends with a checkpoint that waits for a reply at tick `t` (R215, R281). -/
def awaits (t : Nat) (h : Hart) : Hart :=
  { h with bun := { h.bun with ckpt := some (h.bun.ckpt.getD .go), reply := max h.bun.reply t } }
/-- The bundle ends with a checkpoint whose boundary is a step boundary (R331, R350). -/
def stepBoundary (h : Hart) : Hart := { checkpoints h with bun := { (checkpoints h).bun with step := true } }
/-- A change of entry `i` of the shape table. -/
def setShape (i : Nat) (f : ShapeEnt → ShapeEnt) (c : Cluster) : Cluster := { c with shapes := SMap.put c.shapes i (f (c.shapeAt i)) }
/-- A change of entry `i` of the tile table. -/
def setTile (i : Nat) (f : TileEnt → TileEnt) (c : Cluster) : Cluster := { c with tiles := SMap.put c.tiles i (f (c.tileAt i)) }

/-- A step at a unit of the die or of the partition (R281): the listed registers receive their values, the hart changes as `g` says, only
the bytes of `cells` may change, no other hart, core, launch or access does, and `after` holds. -/
def UnitEffect (i : Instr) (s : State) (lat : Nat) (ws : Writes) (g : Hart → Hart) (cells : MemUnit → Nat → Prop) (after : State → Prop) :
    Prop :=
  ∃ t, exec i s = .next t ∧ (∀ w ∈ ws, w.1.read (atCycle t (s.cycle + lat)) = (w.2.1, w.2.2)) ∧ Keeps s t (ws.map fun w => w.1) ∧
    (∀ u a, ¬cells u a → t.unitByte u a = s.unitByte u a) ∧
    t = { s with harts := t.harts, clusters := t.clusters, dies := t.dies, parts := t.parts, fresh := t.fresh, freeCtr := t.freeCtr } ∧
    (∀ n, n ≠ s.cur → t.hartAt n = s.hartAt n) ∧ t.hart = g (withResults t s.hart) ∧ after t

/-- The totals of a scope at a cluster's node: spawned and ended (R292). -/
def totals (s : State) (cl : ClusterId) (id : Nat) : Nat × Nat :=
  (SMap.look 0 (s.clusterAt cl).spawned (id % 256), SMap.look 0 (s.clusterAt cl).ended (id % 256))

/-- The operation whose head, opcode, tail code and tail are these (R28, R29). -/
def Reads (h : Head) (op t tail : Nat) (i : Instr) : Prop := decodeOp (headWord h op t) tail = .ok i

/-- The operation raises a trap at issue: `takeTrap` with its registers, and nothing else of the bundle takes effect (R38). -/
def Traps (i : Instr) (s : State) (cause : BitVec 8) (info aux : Word) : Prop :=
  let t : TrapRec := { cause := cause, pc := s.hart.pc, info := info, aux := aux, welkin := false }
  exec i s = .next ((s.takeTrap s.cur t).updHart fun k => { k with bun := { k.bun with trap := some t } })

/-- TRAPINFO of ILLINE, ILLOP and BUNDLE (R43), and TRAPAUX of R220. -/
def illInfo (detail head : Nat) : Word := BitVec.ofNat 64 (head % 32 + 32 * detail)
def objAux (s : State) (obj reason : Nat) : Word := BitVec.ofNat 64 (s.hart.bun.head % 32 + 2 ^ 12 * reason + 2 ^ 16 * (obj % 256))

/-- An event of one core: nothing outside the core and its harts has changed, but for the model's own counters. -/
def OfCore (s t : State) (c : CoreId) : Prop :=
  t = { s with harts := t.harts, cores := t.cores, fresh := t.fresh, freeCtr := t.freeCtr } ∧
    (∀ m, m / 2 ≠ c → t.hartAt m = s.hartAt m) ∧ ∀ m, m ≠ c → t.coreAt m = s.coreAt m

/-- Entries of a queue that no operation has popped, oldest first, with their bytes (R218, R219). -/
def waiting (k : Core) (q : QReg) : List QEnt := (k.queues.get q).ents.filter fun x => !x.popped
def entry (k : Core) (q : QReg) (x : QEnt) : List Byte :=
  let qu := k.queues.get q
  let size := (qu.es.toNat + 1) * 16
  let slots := if qu.sz = 0 then 0 else 2 ^ (qu.sz.toNat + 9) / size
  (List.range size).map fun i => k.tcm.byte (1024 * qu.base.toNat + x.slot % max slots 1 * size + i)
/-- Container `i` of an entry (R219). -/
def half16 (bs : List Byte) (i : Nat) : BitVec 16 := bs.getD (2 * i + 1) 0 ++ bs.getD (2 * i) 0

/-! ### Rounding (R69) -/

/-- The real value of a finite datum. -/
noncomputable def realOf : FV → ℝ
  | .fin s m e => (if s then -1 else 1) * (m : ℝ) * (2 : ℝ) ^ e
  | _ => 0

/-- The multiples `n 2^q` with at most `p` significant bits and, where `low` gives one, no finer step than `2^low`. -/
def OnGrid (p : Nat) (low : Option Int) (y : ℝ) : Prop :=
  ∃ n q : Int, n.natAbs ≤ 2 ^ p ∧ (∀ l ∈ low, l ≤ q) ∧ y = (n : ℝ) * (2 : ℝ) ^ q

/-- A point of the grid whose last significant bit is 0. -/
def EvenOnGrid (p : Nat) (low : Option Int) (y : ℝ) : Prop :=
  ∃ n q : Int, n % 2 = 0 ∧ n.natAbs < 2 ^ p ∧ (2 ^ (p - 1) ≤ n.natAbs ∨ low = some q) ∧ (∀ l ∈ low, l ≤ q) ∧ y = (n : ℝ) * (2 : ℝ) ^ q

/-- `y` is `x` rounded to the points of `G` under a mode, ties to the points of `E`. -/
def IsRounding (G E : ℝ → Prop) (rm : RM) (x y : ℝ) : Prop :=
  G y ∧
    match rm with
    | .rne => (∀ z, G z → |y - x| ≤ |z - x|) ∧ ((∃ z, G z ∧ z ≠ y ∧ |z - x| = |y - x|) → E y)
    | .rtz => |y| ≤ |x| ∧ 0 ≤ x * y ∧ ∀ z, G z → |z| ≤ |x| → 0 ≤ x * z → |z| ≤ |y|
    | .rup => x ≤ y ∧ ∀ z, G z → x ≤ z → y ≤ z
    | .rdn => y ≤ x ∧ ∀ z, G z → z ≤ x → z ≤ y

/-- `k` is `x` rounded to an integer. -/
def IntRounding (rm : RM) (x : ℝ) (k : Int) : Prop :=
  IsRounding (fun y => ∃ n : Int, y = n) (fun y => ∃ n : Int, n % 2 = 0 ∧ y = n) rm x k

/-- Bits and flags that a format gives a real `x` that is not 0 (R69): with the exponent unbounded above, `y`; an overflow from the
step past the greatest finite number on; underflow where the result is inexact and, rounded without a least exponent, below the
normal numbers. -/
def RoundsTo (f : Fmt) (rm : RM) (x : ℝ) (r : Nat × FFlags) : Prop :=
  let p := f.fb + 1
  let low := some (f.emin - f.fb)
  let neg := decide (r.1 / f.signBit % 2 = 1)
  (neg = true ↔ x < 0) ∧ r.1 < 2 * f.signBit ∧ r.2.nv = false ∧ r.2.dz = false ∧
  ∃ y u, IsRounding (OnGrid p low) (EvenOnGrid p low) rm x y ∧ IsRounding (OnGrid p none) (EvenOnGrid p none) rm x u ∧
    if (2 : ℝ) ^ (f.bias + 1) ≤ |y| then
      r.2.of = true ∧ r.2.nx = true ∧ r.2.uf = false ∧
        r.1 % f.signBit = (if rm = .rtz ∨ rm = .rup ∧ x < 0 ∨ rm = .rdn ∧ 0 < x then f.maxFinite else f.infBits)
    else
      (f.read r.1).isNan = false ∧ (f.read r.1).isInf = false ∧ realOf (f.read r.1) = y ∧ r.2.of = false ∧
        (r.2.nx = true ↔ y ≠ x) ∧ (r.2.uf = true ↔ y ≠ x ∧ |u| < (2 : ℝ) ^ f.emin)

end Spec

end Sys2Proof
end

