-- ==== Sys2Proof/Certificates/Slice0/Obligations.lean ====
section
/-! DEFINITION. The statements about the XQ-512, one definition each. -/

open Sys2Proof Sys2Proof.Machine Sys2Proof.Spec

/-! ### Scalar operations -/

/-- Three-register integer operations (R66, R70): values and latencies; no flag, no trap, nothing else changes. Immediate, shift, count, constant and
select operations (R66, R71 to R76). Compares and predicate operations (R66, R77 to R80). -/
def Obligations.IntegerOperations : Prop :=
  (∀ (s : State) (h : Head) (xd xa xb : XReg), Enabled s h → Latest s →
    let a := s.x xa
    let b := s.x xb
    let n := b.toNat % 64
    let res := fun v => toX xd v (s.xPoi xa || s.xPoi xb)
    Computes (.add h xd xa xb) s 1 (res (BitVec.ofNat 64 (a.toNat + b.toNat))) ∧
    Computes (.sub h xd xa xb) s 1 (res (BitVec.ofInt 64 (a.toNat - b.toNat))) ∧
    Computes (.mul h xd xa xb) s 3 (res (BitVec.ofNat 64 (a.toNat * b.toNat))) ∧
    Computes (.mulh h xd xa xb) s 3 (res ((a.signExtend 128 * b.signExtend 128).extractLsb' 64 64)) ∧
    Computes (.and h xd xa xb) s 1 (res (a &&& b)) ∧
    Computes (.or h xd xa xb) s 1 (res (a ||| b)) ∧
    Computes (.xor h xd xa xb) s 1 (res (a ^^^ b)) ∧
    Computes (.sll h xd xa xb) s 1 (res (BitVec.ofNat 64 (a.toNat * 2 ^ n))) ∧
    Computes (.srl h xd xa xb) s 1 (res (BitVec.ofNat 64 (a.toNat / 2 ^ n))) ∧
    Computes (.sra h xd xa xb) s 1 (res (BitVec.ofInt 64 (a.toInt / 2 ^ n))) ∧
    Computes (.min h xd xa xb) s 1 (res (if a.toInt ≤ b.toInt then a else b)) ∧
    Computes (.max h xd xa xb) s 1 (res (if a.toInt ≤ b.toInt then b else a)) ∧
    Computes (.minu h xd xa xb) s 1 (res (if a.toNat ≤ b.toNat then a else b)) ∧
    Computes (.maxu h xd xa xb) s 1 (res (if a.toNat ≤ b.toNat then b else a))) ∧
  (∀ (s : State) (h : Head) (xd xa xb : XReg) (pa : PReg) (i : BitVec 22) (c : BitVec 59) (w : BitVec 16) (n : Fin 64) (k : Fin 4),
    Enabled s h → Latest s →
    let a := s.x xa
    let res := fun v => toX xd v (s.xPoi xa)
    Computes (.addi h xd xa i) s 1 (res (BitVec.ofInt 64 (a.toInt + i.toInt))) ∧
    Computes (.andi h xd xa i) s 1 (res (a &&& BitVec.ofInt 64 i.toInt)) ∧
    Computes (.ori h xd xa i) s 1 (res (a ||| BitVec.ofInt 64 i.toInt)) ∧
    Computes (.xori h xd xa i) s 1 (res (a ^^^ BitVec.ofInt 64 i.toInt)) ∧
    Computes (.slli h xd xa n) s 1 (res (BitVec.ofNat 64 (a.toNat * 2 ^ n.val))) ∧
    Computes (.srli h xd xa n) s 1 (res (BitVec.ofNat 64 (a.toNat / 2 ^ n.val))) ∧
    Computes (.srai h xd xa n) s 1 (res (BitVec.ofInt 64 (a.toInt / 2 ^ n.val))) ∧
    (∀ z : Nat, (a = 0 → z = 64) → (a ≠ 0 → 2 ^ (63 - z) ≤ a.toNat ∧ a.toNat < 2 ^ (64 - z) ∧ z < 64) →
      Computes (.clz h xd xa) s 1 (res (BitVec.ofNat 64 z))) ∧
    Computes (.popc h xd xa) s 1 (res (BitVec.ofNat 64 ((List.range 64).filter fun j => a.getLsbD j).length)) ∧
    Computes (.movi h xd c) s 1 (toX xd (BitVec.ofInt 64 c.toInt) false) ∧
    (∀ v : Word, (∀ j, v.getLsbD j = if 16 * k.val ≤ j ∧ j < 16 * k.val + 16 then w.getLsbD (j - 16 * k.val) else a.getLsbD j) →
      Computes (.movt h xd xa w k) s 1 (res v)) ∧
    Computes (.sel h xd pa xa xb) s 1
      (if s.p pa then toX xd a (s.pPoi pa || s.xPoi xa) else toX xd (s.x xb) (s.pPoi pa || s.xPoi xb))) ∧
  (∀ (s : State) (h : Head) (xd xa xb : XReg) (pd pc pa pb : PReg) (i : BitVec 14), Enabled s h → Latest s →
    let a := s.x xa
    let b := s.x xb
    let two := fun c => toP2 pd pc c (s.xPoi xa || s.xPoi xb)
    let imm := fun c => toP2 pd pc c (s.xPoi xa)
    let one := fun c => toP pd c (s.pPoi pa || s.pPoi pb)
    (twice pd pc = false →
      Computes (.cmpeq h pd pc xa xb) s 1 (two (a == b)) ∧
      Computes (.cmpne h pd pc xa xb) s 1 (two (a != b)) ∧
      Computes (.cmplt h pd pc xa xb) s 1 (two (a.toInt < b.toInt)) ∧
      Computes (.cmpltu h pd pc xa xb) s 1 (two (a.toNat < b.toNat)) ∧
      Computes (.cmpge h pd pc xa xb) s 1 (two (b.toInt ≤ a.toInt)) ∧
      Computes (.cmpgeu h pd pc xa xb) s 1 (two (b.toNat ≤ a.toNat)) ∧
      Computes (.cmpeqi h pd pc xa i) s 1 (imm (a.toInt = i.toInt)) ∧
      Computes (.cmplti h pd pc xa i) s 1 (imm (a.toInt < i.toInt))) ∧
    Computes (.pand h pd pa pb) s 1 (one (s.p pa && s.p pb)) ∧
    Computes (.por h pd pa pb) s 1 (one (s.p pa || s.p pb)) ∧
    Computes (.pxor h pd pa pb) s 1 (one (s.p pa != s.p pb)) ∧
    Computes (.pnot h pd pa) s 1 (toP pd (!s.p pa) (s.pPoi pa)) ∧
    (∀ v : Word, (∀ j, v.getLsbD j = if k : j < 16 then s.p ⟨j, k⟩ else false) →
      Computes (.pget h xd) s 1 (toX xd v ((List.finRange 16).any fun k => s.pPoi k))) ∧
    Computes (.pput h xa) s 1 ((List.finRange 16).flatMap fun k => toP k (a.getLsbD k.val) (s.xPoi xa)))

/-- Scalar floating point (R66 to R69, R81 to R85): values, flags of FPFLAGS and latencies; nothing else changes. `ExactFloatingPoint` and
`FloatingSpecialCases` say what the functions of `fmtF32` give. -/
def Obligations.ScalarFloatingPoint : Prop :=
  ∀ (s : State) (h : Head) (xd xa xb xc : XReg) (pd pc : PReg), Enabled s h → Latest s →
    let lo := fun r => (s.x r).toNat % 2 ^ 32
    let a := fmtF32.read (lo xa)
    let b := fmtF32.read (lo xb)
    let rm := s.rm
    let res := fun (r : Nat × FFlags) => toX xd (BitVec.ofNat 64 r.1) (s.xPoi xa || s.xPoi xb)
    let two := fun (i : Instr) (r : Nat × FFlags) lat => Effect i s lat (res r) (raisesF r.2) id
    let one := fun (i : Instr) (r : Nat × FFlags) => Effect i s 4 (toX xd (BitVec.ofNat 64 r.1) (s.xPoi xa)) (raisesF r.2) id
    let cmp := fun (i : Instr) (r : Bool × FFlags) => Effect i s 2 (toP2 pd pc r.1 (s.xPoi xa || s.xPoi xb)) (raisesF r.2) id
    let start := max s.cycle s.hart.time.divNext
    let unit := fun (f : FFlags) (g : Hart) => raisesF f { g with time := { g.time with divNext := start + 12 } }
    two (.fadd h xd xa xb) (fmtF32.addV rm a b) 4 ∧
    two (.fsub h xd xa xb) (fmtF32.addV rm a b.neg) 4 ∧
    two (.fmul h xd xa xb) (fmtF32.mulV rm a b) 4 ∧
    (let r := fmtF32.divV rm a b
     Effect (.fdiv h xd xa xb) s (14 + (start - s.cycle)) (res r) (unit r.2) id) ∧
    (let r := fmtF32.sqrtV rm a
     Effect (.fsqrt h xd xa) s (16 + (start - s.cycle)) (toX xd (BitVec.ofNat 64 r.1) (s.xPoi xa)) (unit r.2) id) ∧
    (let r := fmtF32.fmaV rm a b (fmtF32.read (lo xc))
     Effect (.fma h xd xa xb xc) s 4 (toX xd (BitVec.ofNat 64 r.1) (s.xPoi xa || s.xPoi xb || s.xPoi xc)) (raisesF r.2) id) ∧
    two (.fmin h xd xa xb) (fmtF32.minMax false (lo xa) (lo xb)) 2 ∧
    two (.fmax h xd xa xb) (fmtF32.minMax true (lo xa) (lo xb)) 2 ∧
    (twice pd pc = false →
      cmp (.fcmpeq h pd pc xa xb) (fcmpV .eq a b) ∧ cmp (.fcmplt h pd pc xa xb) (fcmpV .lt a b) ∧
      cmp (.fcmple h pd pc xa xb) (fcmpV .le a b)) ∧
    one (.fcvt h xd xa .bf false) (fmtBf.convert rm a) ∧
    one (.fcvt h xd xa .h false) (fmtH.convert rm a) ∧
    one (.fcvt h xd xa .bf true) (fmtF32.convert .rne (fmtBf.read ((s.x xa).toNat % 2 ^ 16))) ∧
    one (.fcvt h xd xa .h true) (fmtF32.convert .rne (fmtH.read ((s.x xa).toNat % 2 ^ 16))) ∧
    (∀ tz : Bool,
      let int := fun (ty : Ty) (low high : Int) =>
        let r := toIntV (if tz then .rtz else rm) low high a
        Effect (.fcvti h xd xa ty tz) s 4 (toX xd (BitVec.ofInt 64 r.1) (s.xPoi xa)) (raisesF r.2) id
      int .w (-2 ^ 63) (2 ^ 63 - 1) ∧ int .s32 (-2 ^ 31) (2 ^ 31 - 1) ∧ int .z32 0 (2 ^ 32 - 1)) ∧
    one (.icvtf h xd xa .w) (fmtF32.ofInt rm (s.x xa).toInt) ∧
    one (.icvtf h xd xa .s32) (fmtF32.ofInt rm ((s.x xa).setWidth 32).toInt) ∧
    one (.icvtf h xd xa .z32) (fmtF32.ofInt rm (lo xa))

/-- Every operation on finite data rounds the exact real result once, under the mode, and raises the flags that IEEE 754 gives, tininess being detected
after rounding (R69, R81, R82, R85, R149). -/
def Obligations.ExactFloatingPoint : Prop :=
  ∀ (rm : RM) (s1 s2 s3 : Bool) (m1 m2 m3 : Nat) (e1 e2 e3 : Int),
    let a := FV.fin s1 m1 e1
    let b := FV.fin s2 m2 e2
    let c := FV.fin s3 m3 e3
    let x := realOf a
    let y := realOf b
    let z := realOf c
    (x + y ≠ 0 → RoundsTo fmtF32 rm (x + y) (fmtF32.addV rm a b)) ∧
    (x * y ≠ 0 → RoundsTo fmtF32 rm (x * y) (fmtF32.mulV rm a b)) ∧
    (x ≠ 0 → y ≠ 0 → RoundsTo fmtF32 rm (x / y) (fmtF32.divV rm a b)) ∧
    (0 < x → RoundsTo fmtF32 rm (Real.sqrt x) (fmtF32.sqrtV rm a)) ∧
    (x * y + z ≠ 0 → RoundsTo fmtF32 rm (x * y + z) (fmtF32.fmaV rm a b c)) ∧
    (∀ f ∈ [fmtF32, fmtBf, fmtH], x ≠ 0 → RoundsTo f rm x (f.convert rm a)) ∧
    (∀ k : Int, k ≠ 0 → RoundsTo fmtF32 rm k (fmtF32.ofInt rm k)) ∧
    (∀ low high : Int, low ≤ high → ∃ k : Int, IntRounding rm x k ∧
      toIntV rm low high a =
        (if k < low then (low, fInvalid) else if high < k then (high, fInvalid)
         else (k, { FFlags.none with nx := (toIntV rm low high a).2.nx })) ∧
      (low ≤ k → k ≤ high → ((toIntV rm low high a).2.nx = true ↔ (k : ℝ) ≠ x))) ∧
    (cmpV a b < 0 ↔ x < y) ∧ (cmpV a b = 0 ↔ x = y) ∧ (0 < cmpV a b ↔ y < x)

/-- The results that no exact real gives: NaNs, infinities, zeros and division by zero (R69, R81 to R85). -/
def Obligations.FloatingSpecialCases : Prop :=
  ∀ (rm : RM) (v w : FV) (s t g : Bool) (m n : Nat) (e k : Int),
    let nan := 0x7FC00000
    let nv := fun b => { FFlags.none with nv := b }
    let inf := fun b : Bool => 0x7F800000 + (if b then 2 ^ 31 else 0)
    let zero := fun b : Bool => if b then 2 ^ 31 else 0
    (v.isNan = true ∨ w.isNan = true →
      fmtF32.addV rm v w = (nan, nv (v.isSnan || w.isSnan)) ∧ fmtF32.mulV rm v w = (nan, nv (v.isSnan || w.isSnan)) ∧
      fmtF32.divV rm v w = (nan, nv (v.isSnan || w.isSnan)) ∧
      fcmpV .eq v w = (false, nv (v.isSnan || w.isSnan)) ∧ fcmpV .lt v w = (false, nv true) ∧ fcmpV .le v w = (false, nv true)) ∧
    fmtF32.sqrtV rm (.nan g) = (nan, nv g) ∧
    fmtF32.addV rm (.inf s) (.inf t) = (if s = t then (inf s, FFlags.none) else (nan, fInvalid)) ∧
    fmtF32.addV rm (.inf s) (.fin t m e) = (inf s, FFlags.none) ∧ fmtF32.addV rm (.fin t m e) (.inf s) = (inf s, FFlags.none) ∧
    fmtF32.addV rm (.fin s 0 e) (.fin t 0 k) = (zero (if s = t then s else rm = .rdn), FFlags.none) ∧
    (0 < m → fmtF32.addV rm (.fin s m e) (.fin (!s) m e) = (zero (rm = .rdn), FFlags.none)) ∧
    fmtF32.mulV rm (.inf s) (.inf t) = (inf (s != t), FFlags.none) ∧
    fmtF32.mulV rm (.inf s) (.fin t m e) = (if m = 0 then (nan, fInvalid) else (inf (s != t), FFlags.none)) ∧
    fmtF32.mulV rm (.fin t m e) (.inf s) = (if m = 0 then (nan, fInvalid) else (inf (s != t), FFlags.none)) ∧
    (m = 0 ∨ n = 0 → fmtF32.mulV rm (.fin s m e) (.fin t n k) = (zero (s != t), FFlags.none)) ∧
    fmtF32.divV rm (.inf s) (.inf t) = (nan, fInvalid) ∧ fmtF32.divV rm (.fin s 0 e) (.fin t 0 k) = (nan, fInvalid) ∧
    fmtF32.divV rm (.inf s) (.fin t m e) = (inf (s != t), FFlags.none) ∧
    fmtF32.divV rm (.fin s m e) (.inf t) = (zero (s != t), FFlags.none) ∧
    (0 < m → fmtF32.divV rm (.fin s m e) (.fin t 0 k) = (inf (s != t), { FFlags.none with dz := true }) ∧
      fmtF32.divV rm (.fin s 0 e) (.fin t m k) = (zero (s != t), FFlags.none) ∧ fmtF32.sqrtV rm (.fin true m e) = (nan, fInvalid)) ∧
    fmtF32.sqrtV rm (.fin s 0 e) = (zero s, FFlags.none) ∧ fmtF32.sqrtV rm (.inf s) = (if s then (nan, fInvalid) else (inf false, FFlags.none)) ∧
    fmtF32.fmaV rm (.inf s) (.fin t 0 e) (.nan g) = (nan, fInvalid) ∧ fmtF32.fmaV rm (.fin t 0 e) (.inf s) w = (nan, fInvalid) ∧
    (∀ x y : Nat, (fmtF32.read x).isNan = true → (fmtF32.read y).isNan = true → ∀ mx,
      fmtF32.minMax mx x y = (nan, nv ((fmtF32.read x).isSnan || (fmtF32.read y).isSnan))) ∧
    (∀ x y : Nat, (fmtF32.read x).isNan = true → (fmtF32.read y).isNan = false → ∀ mx,
      fmtF32.minMax mx x y = (y, nv (fmtF32.read x).isSnan) ∧ fmtF32.minMax mx y x = (y, nv (fmtF32.read x).isSnan)) ∧
    (∀ mx, fmtF32.minMax mx (2 ^ 31) 0 = (if mx then 0 else 2 ^ 31, FFlags.none) ∧
      fmtF32.minMax mx 0 (2 ^ 31) = (if mx then 0 else 2 ^ 31, FFlags.none)) ∧
    fmtBf.convert rm (.nan g) = (0x7FC0, nv g) ∧ fmtH.convert rm (.nan g) = (0x7E00, nv g) ∧ fmtF32.convert rm (.nan g) = (nan, nv g) ∧
    (∀ low high : Int, toIntV rm low high (.nan g) = (0, fInvalid) ∧ toIntV rm low high (.inf s) = (if s then low else high, fInvalid))

/-! ### Control -/

/-- BR, JR, LOOP and NOP (R47, R86, R87, R91 to R93): the target, the counter, and nothing else; that LOOP's counter takes effect after one cycle is
the model's choice (log 59). CALL, CALLR and RET (R88 to R90): the return-address
store, the spill of its oldest entry and the refill. -/
def Obligations.BranchesAndCalls : Prop :=
  (∀ (s : State) (h : Head) (xa : XReg) (disp : BitVec 27) (short : BitVec 22) (hidx : Fin 32), Enabled s h → Latest s →
    let line := fun d : Int => BitVec.ofInt 64 (((s.hart.pc.toNat / 64 : Nat) + d) * 64 + 2 * (hidx.val : Int))
    let v := BitVec.ofInt 64 ((s.x xa).toNat - 1)
    Effect (.br h disp hidx) s 1 [] (transfersTo (line disp.toInt)) id ∧
    (s.xPoi xa = false → Effect (.jr h xa) s 1 [] (transfersTo (s.x xa)) id) ∧
    (s.xPoi xa = false → xa ≠ 0 →
      Effect (.loop h xa short hidx) s 1 (toX xa v false) (if v = 0 then id else transfersTo (line short.toInt)) id) ∧
    Effect (.nop h) s 1 [] id id) ∧
  (∀ (s : State) (h : Head) (xa : XReg) (disp : BitVec 27) (hidx : Fin 32), Enabled s h → Latest s → s.xPoi xa = false →
    let g := s.hart
    let sp := g.r.rspill
    let ptr := sp.toNat % 2 ^ 19
    let target := BitVec.ofInt 64 (((g.pc.toNat / 64 : Nat) + disp.toInt) * 64 + 2 * (hidx.val : Int))
    let store := fun (l : List Word) (k : Hart) => { k with bun := { k.bun with nras := some l } }
    let both := fun (p : Instr → Word → Prop) => p (.call h disp hidx) target ∧ p (.callr h xa) (s.x xa)
    (g.r.ras.length < 16 → both fun i t => Effect i s 1 [] (fun k => transfersTo t (store (g.r.ras ++ [g.bun.ft]) k)) id) ∧
    (∀ old l, g.r.ras = old :: l → 16 ≤ g.r.ras.length → rspillOk sp = true → ptr ≠ sp.toNat / 2 ^ 38 →
      both fun i t => EffectBut [.sys .ckstat] i s 1 (toSys .rspill (sp + 8))
        (fun k => transfersTo t (store (l ++ [g.bun.ft])
          { k with wh := k.wh ++
              [⟨g.ser, g.bun.head, 1, waitsFor s true false, true, [⟨⟨.tcm (s.cur / 2), ptr⟩, leBytes 8 old.toNat, false⟩], TrapRec.zero⟩] })) id) ∧
    (∀ l a, g.r.ras = l ++ [a] → Effect (.ret h) s 1 [] (fun k => transfersTo a (store l k)) id) ∧
    (∀ bs, g.r.ras = [] → rspillOk sp = true → ptr ≠ sp.toNat / 2 ^ 19 % 2 ^ 19 →
      s.ownBytes s.cur ⟨.tcm (s.cur / 2), ptr - 8⟩ 8 = (bs, false) →
      Effect (.ret h) s 1 (toSys .rspill (sp - 8))
        (fun k => transfersTo (BitVec.ofNat 64 (leNat bs)) { k with bun := { k.bun with slow := 4 } }) id))

/-! ### Memory operations -/

/-- LD, LDX and LDAQ (R94 to R96, R103, R115, R119 to R124, R135, R145): the request that a load issues, for every outcome of its checks.
`LoadsReadMemory` and `LoadsLand` say what it brings. ST, STX and STRL (R115, R120 to R123, R125, R136, R138): the withheld store, or the fault; no
byte changes until the store is performed (`AccessesPerform`). PREF (R126): at most a walk of the page tables is started; nothing traps and nothing
else changes. That an acquire or a release at a scope other than `.hart` orders accesses for every agent (log 58), and that a PREF with a poisoned
guard or address does nothing (log 57), are the model's choices. -/
def Obligations.ScalarAccessesIssue : Prop :=
  (∀ (s : State) (h : Head) (xd xa xb : XReg) (disp : BitVec 24) (ss : Fin 4) (sp : Space) (ty : Ty) (dist : Fin 4096) (sc : Scope),
    Enabled s h → Latest s → s.xPoi xa = false → s.xPoi xb = false →
    let near := BitVec.ofInt 64 ((s.x xa).toNat + disp.toInt)
    let far := BitVec.ofNat 64 ((s.x xa).toNat + (s.x xb).toNat * 2 ^ ss.val)
    let seen := s.now + (if sp = .g then 2 else 1)
    let issues := fun (i : Instr) (e : Word) (acq gate : Bool) =>
      LoadIssues i s sp (.scalar xd ty) [(0, e, ty.size)] dist.val (if xd = 0 then 0 else 1) seen acq gate id
    issues (.ld h xd xa disp sp ty dist) near false false ∧
    issues (.ldx h xd xa xb ss sp ty dist) far false false ∧
    issues (.ldaq h xd xa disp sp ty dist sc) near (decide (sc ≠ .hart)) true) ∧
  (∀ (s : State) (h : Head) (xc xa xb : XReg) (disp : BitVec 24) (ss : Fin 4) (sp : Space) (ty : Ty) (sc : Scope),
    Enabled s h → Latest s → s.xPoi xa = false → s.xPoi xb = false → s.xPoi xc = false →
    let near := BitVec.ofInt 64 ((s.x xa).toNat + disp.toInt)
    let far := BitVec.ofNat 64 ((s.x xa).toNat + (s.x xb).toNat * 2 ^ ss.val)
    let seen := s.now + (if sp = .g then 2 else 1)
    let data := (List.range ty.size).map fun i => BitVec.ofNat 8 ((s.x xc).toNat / 2 ^ (8 * i))
    StoreIssues (.st h xc xa disp sp ty) s sp [(near, data)] 1 seen false true id ∧
    StoreIssues (.stx h xc xa xb ss sp ty) s sp [(far, data)] 1 seen false true id ∧
    StoreIssues (.strl h xc xa disp sp ty sc) s sp [(near, data)] 1 seen (decide (sc ≠ .hart)) true checkpoints) ∧
  (∀ (s : State) (h : Head) (xa : XReg) (disp : BitVec 24) (sp : Space), s.pPoi h.g = true ∨ s.xPoi xa = true →
    exec (.pref h xa disp sp) s = .next s) ∧
  (∀ (s : State) (h : Head) (xa : XReg) (disp : BitVec 24) (sp : Space), Enabled s h → Latest s → s.xPoi xa = false →
    let e := BitVec.ofInt 64 ((s.x xa).toNat + disp.toInt)
    let tr := s.trG (s.cur / 2) s.hart.launchId .load e
    (sp ≠ .g ∨ tr ≠ .walk → Effect (.pref h xa disp sp) s 0 [] id id) ∧
    (sp = .g → tr = .walk →
      ∃ l, Effect (.pref h xa disp sp) s 0 [] (requests l) id ∧ l.kind = .pref ∧ l.walking = true ∧ l.slots = 0 ∧ l.acq = false ∧
        l.elems.map (fun x => x.va) = [e]))

/-- DIV, DIVU, REM and REMU (R94 to R96, R128): value, distance, latency by the significant bits of the dividend, and the divider. FENCE (R138,
R144): which accesses later ones wait for, and the checkpoint that ends its bundle. That a FENCE stands at its head index in program order is the
model's reading (log 39), and so is its effect on agents outside the scope (log 58). -/
def Obligations.DivisionsAndFences : Prop :=
  (∀ (s : State) (h : Head) (xd xa xb : XReg) (dist : Fin 4096), Enabled s h → Latest s →
    let a := s.x xa
    let b := s.x xb
    let start := max s.cycle s.hart.time.idivNext
    let divides := fun (i : Instr) (dividend : Nat) (v : Word) =>
      ∀ bits, (dividend = 0 → bits = 0) → (dividend ≠ 0 → 2 ^ (bits - 1) ≤ dividend ∧ dividend < 2 ^ bits ∧ 0 < bits) →
        ∃ l, Effect i s 0 [] (fun k => { requests l k with time := { k.time with idivNext := start + 1 } }) id ∧
          l.kind = .quotient xd ∧ l.due = s.hart.bun.at0 + max dist.val 1 ∧ l.slots = (if xd = 0 then 0 else 1) ∧ l.sent = true ∧
          l.cyc = true ∧ l.arriveAt = start + 4 + (bits + 3) / 4 ∧ l.res = some [⟨some xd, 0, v, s.xPoi xa || s.xPoi xb⟩] ∧
          l.ser = s.hart.ser ∧ l.head = s.hart.bun.head ∧ l.acq = false ∧ l.walking = false ∧ l.arrived = false ∧ l.landed = false
    divides (.div h xd xa xb dist) a.toInt.natAbs
      (if b = 0 then -1 else if a.toInt = -2 ^ 63 ∧ b.toInt = -1 then BitVec.ofInt 64 (-2 ^ 63) else BitVec.ofInt 64 (a.toInt.tdiv b.toInt)) ∧
    divides (.divu h xd xa xb dist) a.toNat (if b = 0 then BitVec.ofNat 64 (2 ^ 64 - 1) else BitVec.ofNat 64 (a.toNat / b.toNat)) ∧
    divides (.rem h xd xa xb dist) a.toInt.natAbs
      (if b = 0 then a else if a.toInt = -2 ^ 63 ∧ b.toInt = -1 then 0
       else BitVec.ofInt 64 (a.toInt - a.toInt.tdiv b.toInt * b.toInt)) ∧
    divides (.remu h xd xa xb dist) a.toNat (if b = 0 then a else BitVec.ofNat 64 (a.toNat % b.toNat))) ∧
  (∀ (s : State) (h : Head) (k : FenceKinds) (sc : Scope), Enabled s h → Latest s →
    let g := s.hart
    let f := g.fence
    let p := posOf g.ser g.bun.head
    let ends := if k.ss || k.ls || k.sl || k.en then checkpoints else id
    Effect (.fence h k .hart) s 0 [] ends id ∧
    (sc ≠ .hart →
      Effect (.fence h k sc) s 0 [] (fun x => ends { x with fence :=
        { ll := if k.ll then p else f.ll, la := if k.ll || k.ls then p else f.la, sl := if k.sl then p else f.sl
          st := if k.ss || k.ls then p else f.st, en := if k.en then p else f.en } }) id))

/-! ### Ordering and atomics -/

/-- The nine scalar atomics (R145 to R149): the operation that waits to be sent, its timed request, its fault; the bundle ends with a checkpoint.
`AtomicValues` and `AccessesPerform` say what it does at its location. The seven vector atomics (R148, R150, R151): lanes, addresses, request and
fault; with no active element nothing happens. APPEND (R148, R152): with no active element nothing happens; otherwise the tail atomic goes out with
the payload, a reply is awaited, and the bundle ends with a checkpoint. The order that agents outside the scope observe is the model's choice (log
58). -/
def Obligations.AtomicsIssue : Prop :=
  (∀ (s : State) (h : Head) (a : Amo), Enabled s h → Latest s → s.xPoi a.xa = false → s.xPoi a.xb = false → s.xPoi a.xc = false →
    let e := BitVec.ofInt 64 ((s.x a.xa).toNat + a.disp.toInt)
    let seen := s.now + (if a.sp = .g then 2 else 1)
    let low := fun r => BitVec.ofNat 64 ((s.x r).toNat % 2 ^ (8 * a.ty.size))
    let atomic := fun (i : Instr) (k : AtomKind) =>
      (∀ l, checked s a.sp .atomic a.ty.size e = .loc l →
        ∃ req p j, Effect i s 0 [] (fun x => checkpoints { requests req (reports s j seen false none x) with atoms := x.atoms ++ [p] }) id ∧
          p.kind = .amo k a.ty.size l (low a.xb) (low a.xc) ∧ p.land = some req.id ∧ p.ser = s.hart.ser ∧ p.head = s.hart.bun.head ∧
          p.bar = waitsFor s true (decide (a.sc ≠ .hart ∧ (a.ord = .rl ∨ a.ord = .aqrl))) ∧
          p.acq = decide (a.sc ≠ .hart ∧ (a.ord = .aq ∨ a.ord = .aqrl)) ∧ req.acq = p.acq ∧ req.gate = p.acq ∧
          req.kind = .scalar a.xd a.ty ∧ req.due = s.hart.bun.at0 + max a.dist.val 1 ∧ req.slots = (if a.xd = 0 then 0 else 1) ∧
          req.unitOp = true ∧ req.sent = false ∧ req.res = none ∧ req.arrived = false ∧ req.landed = false) ∧
      checked s a.sp .atomic a.ty.size e ≠ .walk ∧
      (∀ f, checked s a.sp .atomic a.ty.size e = .fault f →
        ∃ j, Effect i s 0 [] (fun x => checkpoints (reports s j seen false (some (memoryTrap s f e a.sp .atomic)) x)) id)
    let unsigned := a.u || a.ty = .z32
    atomic (.amoswp h a) .swp ∧ atomic (.amoadd h a) .add ∧ atomic (.amoand h a) .and ∧ atomic (.amoor h a) .or ∧
    atomic (.amoxor h a) .xor ∧ atomic (.amomin h a) (if unsigned then .minu else .min) ∧
    atomic (.amomax h a) (if unsigned then .maxu else .max) ∧ atomic (.amocas h a) .cas ∧ atomic (.amofadd h a) .fadd) ∧
  (∀ (s : State) (h : Head) (a : Vamo), Enabled s h → Latest s → Owned s [a.va, a.vb] → (∀ v ∈ a.vd, Owned s [v]) →
    Clean s (.x a.xa :: .m a.ma :: []) [a.va, a.vb] a.ma →
    let act := s.active a.ma
    let index := fun i => let c := (s.vread a.va i).v; match a.iw, a.sg with
      | true, true => c.toInt
      | true, false => c.toNat
      | false, true => (c.setWidth 16).toInt
      | false, false => (c.setWidth 16).toNat
    let addr := fun i => BitVec.ofInt 64 ((s.x a.xa).toNat + index i * 2 ^ a.sc.val)
    let seen := s.now + (if a.sp = .g then 2 + (act.length + 15) / 16 else 1)
    let atomic := fun (i : Instr) (k : AtomKind) =>
      (act = [] → Effect i s 0 [] id id) ∧
      (∀ locs : List Loc, act ≠ [] → locs.length = act.length →
        (∀ (n : Nat) (hn : n < act.length) (hm : n < locs.length), checked s a.sp .atomic 4 (addr act[n]) = .loc locs[n]) →
        ∃ req p j, Effect i s 0 [] (fun x => checkpoints { requests req (reports s j seen false none x) with atoms := x.atoms ++ [p] }) id ∧
          p.kind = .vamo k a.ra ((act.zip locs).map fun x => (x.1, x.2, (s.vread a.vb x.1).v)) ∧ p.land = some req.id ∧
          p.ser = s.hart.ser ∧ p.head = s.hart.bun.head ∧ p.acq = false ∧ p.bar = waitsFor s true false ∧
          (∀ v, a.vd = some v → req.kind = .old v ∧ req.due = s.hart.bun.at0 + max a.dist.val 1 ∧ req.elems.map (fun x => x.idx) = act) ∧
          (a.vd = none → req.kind = .scalar 0 .w ∧ req.slots = 0)) ∧
      (∀ (n : Nat) (hn : n < act.length) (f : MemFault),
        (∀ (j : Nat) (hj : j < n), ∃ l, checked s a.sp .atomic 4 (addr (act[j]'(by omega))) = .loc l) →
        checked s a.sp .atomic 4 (addr act[n]) = .fault f →
        ∃ j, Effect i s 0 [] (fun x => checkpoints (reports s j seen false (some (memoryTrap s f (addr act[n]) a.sp .atomic)) x)) id)
    atomic (.vamoAdd h a) .add ∧ atomic (.vamoAnd h a) .and ∧ atomic (.vamoOr h a) .or ∧ atomic (.vamoXor h a) .xor ∧
    atomic (.vamoMin h a) (if a.u then .minu else .min) ∧ atomic (.vamoMax h a) (if a.u then .maxu else .max) ∧
    atomic (.vamoFadd h a) .fadd) ∧
  (∀ (s : State) (h : Head) (xd xa : XReg) (vb : VOp) (ma : MReg) (sp : Space) (dist : Fin 4096),
    Enabled s h → Latest s → Owned s [vb] → Clean s [.x xa, .m ma] [vb] ma →
    let act := s.active ma
    let i := Instr.append h xd xa vb ma sp dist
    (act = [] → Effect i s 0 [] id id) ∧
    (∀ l, act ≠ [] → checked s sp .atomic 16 (s.x xa) = .loc l →
      ∃ t req f, exec i s = .next t ∧ Keeps s t [] ∧ SameBytes s t ∧ t.flights = s.flights ++ [f] ∧ t.hart.land = s.hart.land ++ [req] ∧
        t.hart.bun.ckpt = some (s.hart.bun.ckpt.getD .go) ∧ t.hart.bun.npc = s.hart.bun.npc ∧ t.hart.bun.trap = s.hart.bun.trap ∧
        t.hart.pc = s.hart.pc ∧ t.core = s.core ∧
        t.hart.bun.reply = max s.hart.bun.reply (s.now + s.atomicLatency s.cur l) ∧
        f.hart = s.cur ∧ f.land = some req.id ∧ f.performed = false ∧ f.bar = waitsFor s true false ∧ f.acq = false ∧ f.needs = none ∧
        f.sentAt = s.now ∧ f.perfAt = s.now + (s.loadLatency s.cur l + 1) / 2 ∧ f.ackAt = s.now + s.loadLatency s.cur l ∧
        f.kind = .append s.hart.ser s.hart.bun.head s.hart.pc l (act.map fun n => (s.vread vb n).v) ∧
        req.kind = .tail xd ∧ req.due = s.hart.bun.at0 + max dist.val 1 ∧ req.slots = (if xd = 0 then 0 else 1) ∧ req.res = none))

/-- What each scalar atomic writes over an old value of `w` bytes (R149). -/
def Obligations.AtomicValues : Prop :=
  (∀ (w : Nat) (old b c : Nat), w = 4 ∨ w = 8 → old < 2 ^ (8 * w) → b < 2 ^ (8 * w) →
    let si := fun n => (BitVec.ofNat (8 * w) n).toInt
    AtomKind.apply .swp w old b c = some b ∧
    AtomKind.apply .add w old b c = some ((old + b) % 2 ^ (8 * w)) ∧
    (∃ v, AtomKind.apply .and w old b c = some v ∧ ∀ i, v.testBit i = (old.testBit i && b.testBit i)) ∧
    (∃ v, AtomKind.apply .or w old b c = some v ∧ ∀ i, v.testBit i = (old.testBit i || b.testBit i)) ∧
    (∃ v, AtomKind.apply .xor w old b c = some v ∧ ∀ i, v.testBit i = (old.testBit i != b.testBit i)) ∧
    AtomKind.apply .min w old b c = some (if si old ≤ si b then old else b) ∧
    AtomKind.apply .max w old b c = some (if si old ≤ si b then b else old) ∧
    AtomKind.apply .minu w old b c = some (Nat.min old b) ∧ AtomKind.apply .maxu w old b c = some (Nat.max old b) ∧
    AtomKind.apply .cas w old b c = (if old = b then some c else none)) ∧
  ∀ old b c : Nat, old < 2 ^ 32 → b < 2 ^ 32 →
    AtomKind.apply .fadd 4 old b c = some (fmtF32.addV .rne (fmtF32.read old) (fmtF32.read b)).1

/-! ### Vector operations -/

/-- The operations of layout VV but compares, selection, slides and permutation (R178 to R183, R188 to R195, R214): lane values, flags, latency, and the V
slot. The unary operations of layout VU and CVT (R176, R196 to R198, R214). -/
def Obligations.VectorLaneOperations : Prop :=
  (∀ (s : State) (h : Head) (a : VV) (vc : VOp), Enabled s h → Latest s → Owned s (a.vd :: a.va :: vc :: src2Ops a.b) →
    let x := fun i => (s.vread a.va i).v
    let y := fun i => (s.vread2 a.b i).v
    let fx := fun i => fmtF32.read (x i).toNat
    let fy := fun i => fmtF32.read (y i).toNat
    let rm := s.rm
    let n := if 128 < s.vl then 2 else 1
    let poi := fun i => (s.vread a.va i).poi || (s.vread2 a.b i).poi
    let op := fun (i : Instr) lat fn => LaneEffect i s lat n a.vd a.ma poi fn
    let float := a.ty = .f32
    let fi := fun k : Nat => if a.ty = .f32 then 4 else k
    let half := fun (c : Cell) (up : Bool) => (c.extractLsb' (if up then 16 else 0) 16).toInt
    let count := fun i => (y i).toNat % 32
    let rounded := fun i => if count i = 0 then (x i).toInt else ((x i).toInt + 2 ^ (count i - 1)) / 2 ^ count i
    let pair := fun (hi lo : Int) => BitVec.ofInt 16 hi ++ BitVec.ofInt 16 lo
    let clamp := fun (z : Int) => max (-32768) (min 32767 z)
    op (.vadd h a) (fi 2) (fun i => if float then laneF (fmtF32.addV rm (fx i) (fy i)) else laneOf (x i + y i)) ∧
    op (.vsub h a) (fi 2) (fun i => if float then laneF (fmtF32.addV rm (fx i) (fy i).neg) else laneOf (x i - y i)) ∧
    op (.vmul h a) (fi 3) (fun i => if float then laneF (fmtF32.mulV rm (fx i) (fy i)) else laneOf (x i * y i)) ∧
    LaneEffect (.vfma h a vc) s 4 n a.vd a.ma (fun i => poi i || (s.vread vc i).poi)
      (fun i => laneF (fmtF32.fmaV rm (fx i) (fy i) (fmtF32.read (s.vread vc i).v.toNat))) ∧
    (∀ mx : Bool, op (if mx then .vmax h a else .vmin h a) (fi 2) (fun i =>
      if float then laneF (fmtF32.minMax mx (x i).toNat (y i).toNat)
      else if a.ty = .z32 then laneOf (if mx then BitVec.ofNat 32 (max (x i).toNat (y i).toNat) else BitVec.ofNat 32 (min (x i).toNat (y i).toNat))
      else laneOf (if mx then BitVec.ofInt 32 (max (x i).toInt (y i).toInt) else BitVec.ofInt 32 (min (x i).toInt (y i).toInt)))) ∧
    op (.vadds h a) 2 (fun i => laneSat (-2 ^ 31) (2 ^ 31 - 1) ((x i).toInt + (y i).toInt)) ∧
    op (.vand h a) 2 (fun i => laneOf (x i &&& y i)) ∧
    op (.vor h a) 2 (fun i => laneOf (x i ||| y i)) ∧
    op (.vxor h a) 2 (fun i => laneOf (x i ^^^ y i)) ∧
    op (.vshl h a) 2 (fun i => laneOf (BitVec.ofNat 32 ((x i).toNat * 2 ^ count i))) ∧
    op (.vshr h a) 2 (fun i => laneOf
      (if a.ty = .s32 then BitVec.ofInt 32 ((x i).toInt / 2 ^ count i) else BitVec.ofNat 32 ((x i).toNat / 2 ^ count i))) ∧
    op (.vrshr h a false) 3 (fun i => laneOf (BitVec.ofInt 32 (rounded i))) ∧
    op (.vrshr h a true) 3 (fun i => laneSat (-32768) 32767 (rounded i)) ∧
    LaneEffect (.vdot2 h a) s 3 n a.vd a.ma (fun i => (s.vread a.vd i).poi || poi i) (fun i =>
      laneSat (-2 ^ 31) (2 ^ 31 - 1)
        ((s.vread a.vd i).v.toInt + half (x i) false * half (y i) false + half (x i) true * half (y i) true)) ∧
    op (.vadd2 h a false) 2 (fun i => laneOf (pair (half (x i) true + half (y i) true) (half (x i) false + half (y i) false))) ∧
    op (.vadd2 h a true) 2 (fun i =>
      let hi := half (x i) true + half (y i) true
      let lo := half (x i) false + half (y i) false
      { v := pair (clamp hi) (clamp lo), f := FFlags.none, sat := decide (clamp hi ≠ hi ∨ clamp lo ≠ lo) }) ∧
    op (.vrq h a) 4 (fun i => requant rm (tyLow a.ty) (tyHigh a.ty) (fx i) (fy i))) ∧
  (∀ (s : State) (h : Head) (a : VU) (f : CFmt), Enabled s h → Latest s → Owned s [a.vd, a.va] →
    let x := fun i => (s.vread a.va i).v
    let fx := fun i => fmtF32.read (x i).toNat
    let rm := s.rm
    let n := if 128 < s.vl then 2 else 1
    let op := fun (i : Instr) lat times fn => LaneEffect i s lat (times * n) a.vd a.ma (fun i => (s.vread a.va i).poi) fn
    op (.vabs h a) 2 1 (fun i =>
      if a.ty = .f32 then laneOf (if (fx i).isNan then x i else x i &&& 0x7FFFFFFF#32) else laneSat (-2 ^ 31) (2 ^ 31 - 1) ((x i).toInt.natAbs : Int)) ∧
    op (.vsqrt h a) 12 4 (fun i => laneF (fmtF32.sqrtV rm (fx i))) ∧
    op (.vexp h a) 12 4 (fun i => laneF (exp2V (fx i))) ∧
    op (.vrsq h a) 12 4 (fun i => laneF (rsqV (fx i))) ∧
    op (.vrcp h a) 12 4 (fun i => laneF (fmtF32.divV .rne (fmtF32.read 0x3F800000) (fx i))) ∧
    op (.vmov h a) 2 1 (fun i => laneOf (x i)) ∧
    (a.ty = .f32 → op (.vcvti h a false) 4 1 (fun i => laneF (fmtF32.ofInt rm (x i).toInt)) ∧
      op (.vcvti h a true) 4 1 (fun i => laneF (fmtF32.ofInt rm ((x i).toNat : Int)))) ∧
    (∀ q : Bool, a.ty = .s32 ∨ a.ty = .z32 → op (.vcvti h a q) 4 1 (fun i =>
      let r := toIntV (if q then .rtz else rm) (if a.ty = .s32 then -2 ^ 31 else 0) (if a.ty = .s32 then 2 ^ 31 - 1 else 2 ^ 32 - 1) (fx i)
      { v := BitVec.ofInt 32 r.1, f := r.2, sat := false })) ∧
    (let rs := (s.active a.ma).map fun i => (i, cvtCell rm f (x i))
     GridEffect (.cvt h a.vd a.va a.ma f) s 4 n a.vd (rs.map fun r => (r.1, ⟨r.2.1, s.mPoi a.ma || (s.vread a.va r.1).poi⟩))
       (fun k => raisesF (rs.foldl (fun fl r => fl.or r.2.2.1) FFlags.none) (if rs.any fun r => r.2.2.2 then raisesV 2 k else k))))

/-- Requantising, the reciprocal square root, the power of two and the value of CVT (R155, R176, R195, R197, R224). The power of two is rounded
once from a value within 2^-200 of it, relative to it, and from itself where the operand is an integer. -/
def Obligations.VectorFunctions : Prop :=
  (∀ (rm : RM) (low high : Int) (s1 s2 : Bool) (m1 m2 : Nat) (e1 e2 : Int), low ≤ high →
    let x := realOf (.fin s1 m1 e1) * realOf (.fin s2 m2 e2)
    let r := requant rm low high (.fin s1 m1 e1) (.fin s2 m2 e2)
    ∃ k : Int, IntRounding rm x k ∧ r.v = BitVec.ofInt 32 (max low (min high k)) ∧ (r.sat = true ↔ k < low ∨ high < k) ∧
      (r.f.nx = true ↔ (k : ℝ) ≠ x) ∧ r.f.nv = false) ∧
  (∀ rm low high a b, a.isNan = true ∨ b.isNan = true ∨ (a.isInf = true ∧ b.isZero = true) ∨ (a.isZero = true ∧ b.isInf = true) →
    requant rm low high a b = { v := 0, f := fInvalid, sat := false }) ∧
  (∀ (x : Cell) (m : Nat) (e : Int), fmtF32.read x.toNat = .fin false m e → 0 < m →
    RoundsTo fmtF32 .rne (1 / Real.sqrt (realOf (.fin false m e))) (rsqV (.fin false m e))) ∧
  (∀ (s g : Bool) (m : Nat) (e : Int), 0 < m →
    rsqV (.nan g) = (0x7FC00000, { FFlags.none with nv := g }) ∧ rsqV (.inf false) = (0, FFlags.none) ∧ rsqV (.inf true) = (0x7FC00000, fInvalid) ∧
    rsqV (.fin true m e) = (0x7FC00000, fInvalid) ∧
    rsqV (.fin s 0 e) = (if s then 0xFF800000 else 0x7F800000, { FFlags.none with dz := true }) ∧
    exp2V (.nan g) = (0x7FC00000, { FFlags.none with nv := g }) ∧ exp2V (.inf false) = (0x7F800000, FFlags.none) ∧
    exp2V (.inf true) = (0, FFlags.none) ∧ exp2V (.fin s 0 e) = (0x3F800000, FFlags.none)) ∧
  (∀ (s : Bool) (m : Nat), RoundsTo fmtF32 .rne ((2 : ℝ) ^ (if s then -(m : Int) else m)) (exp2V (.fin s m 0))) ∧
  (∀ (x : Cell) (s : Bool) (m : Nat) (e : Int), fmtF32.read x.toNat = .fin s m e →
    let p := (2 : ℝ) ^ realOf (.fin s m e)
    ∃ y : ℝ, |y - p| ≤ p / 2 ^ 200 ∧ RoundsTo fmtF32 .rne y (exp2V (.fin s m e))) ∧
  (∀ (rm : RM) (c : Cell) (neg : Bool) (m : Nat) (e : Int), fmtF32.read c.toNat = .fin neg m e →
    let x := realOf (.fin neg m e)
    let sign := if neg then 2 ^ 31 else 0
    (m = 0 → ∀ f, cvtCell rm f c = (BitVec.ofNat 32 sign, FFlags.none, false)) ∧
    (0 < m →
      (∃ r, RoundsTo fmtBf rm x r ∧ cvtCell rm .bf c = (BitVec.ofNat 32 (r.1 * 65536), r.2, false)) ∧
      (∃ r, RoundsTo fmtH rm x r ∧ (cvtCell rm .h c).2 = (r.2, false) ∧
        let w := fmtF32.read (cvtCell rm .h c).1.toNat
        w.isNan = false ∧ w.isInf = (fmtH.read r.1).isInf ∧ realOf w = realOf (fmtH.read r.1) ∧
          ((cvtCell rm .h c).1.getLsbD 31 = true ↔ x < 0)) ∧
      ∀ long : Bool,
        let bits := if long then 8 else 5
        let most := (2 - 2 / 2 ^ bits) * (2 : ℝ) ^ 127
        let r := cvtCell rm (if long then .lf else .sf) c
        ∃ y, IsRounding (OnGrid bits none) (EvenOnGrid bits none) .rne x y ∧ r.2.1 = FFlags.none ∧
          (most < |y| → r.1 = BitVec.ofNat 32 ((if long then 0x7F7F0000 else 0x7F780000) + sign) ∧ r.2.2 = true) ∧
          (|y| < (2 : ℝ) ^ (-126 : Int) → r.1 = BitVec.ofNat 32 sign ∧ r.2.2 = false) ∧
          ((2 : ℝ) ^ (-126 : Int) ≤ |y| → |y| ≤ most →
            (fmtF32.read r.1.toNat).isNan = false ∧ (fmtF32.read r.1.toNat).isInf = false ∧ realOf (fmtF32.read r.1.toNat) = y ∧ r.2.2 = false))) ∧
  (∀ (rm : RM) (c : Cell) (g : Bool),
    (fmtF32.read c.toNat = .nan g → ∀ f, cvtCell rm f c =
      (0x7FC00000, if f = .lf ∨ f = .sf then FFlags.none else { FFlags.none with nv := g }, false)) ∧
    (fmtF32.read c.toNat = .inf g →
      (∀ f, f ≠ .lf → f ≠ .sf → cvtCell rm f c = (c, FFlags.none, false)) ∧
      cvtCell rm .lf c = (BitVec.ofNat 32 (0x7F7F0000 + (if g then 2 ^ 31 else 0)), FFlags.none, true) ∧
      cvtCell rm .sf c = (BitVec.ofNat 32 (0x7F780000 + (if g then 2 ^ 31 else 0)), FFlags.none, true)))

/-- VRSUM, VRMAX and VRMIN (R199, R200, R214): the result and its latency; `Reductions` says what the tree is. The fixed binary tree over 256 leaves
(R200): level by level, an absent child passes the other through, and flags gather. -/
def Obligations.Reductions : Prop :=
  (∀ (s : State) (h : Head) (xd : XReg) (va : VOp) (ma : MReg), Enabled s h → Latest s → Owned s [va] →
    let act := s.active ma
    let cells := act.map fun i => (s.vread va i).v
    let poi := s.mPoi ma || act.any fun i => (s.vread va i).poi
    let n := if 128 < s.vl then 2 else 1
    let res := fun (i : Instr) (v : Word) (f : FFlags) =>
      Effect i s 12 (toX xd v poi) (fun k => holdsV (s.cycle + n) (raisesF f k)) (rechecks s s.fresh)
    let leaves := (List.range 256).map fun i => if i < s.vl ∧ (s.m ma).getLsbD i then some (s.vread va i).v.toNat else none
    let tree := fun (i : Instr) (op : Nat → Nat → Nat × FFlags) (empty : Word) =>
      res i (match (treeReduce op leaves).1 with | some v => BitVec.ofNat 64 v | none => empty) (treeReduce op leaves).2
    let greatest := fun (l : List Int) (empty : Int) => match l with | [] => empty | z :: r => r.foldl max z
    let least := fun (l : List Int) (empty : Int) => match l with | [] => empty | z :: r => r.foldl min z
    let si := cells.map fun c => c.toInt
    let un := cells.map fun c => (c.toNat : Int)
    tree (.vrsum h xd va .f32 ma) (fun u v => fmtF32.addV s.rm (fmtF32.read u) (fmtF32.read v)) 0 ∧
    tree (.vrmax h xd va .f32 ma) (fmtF32.minMax true) 0xFF800000 ∧
    tree (.vrmin h xd va .f32 ma) (fmtF32.minMax false) 0x7F800000 ∧
    res (.vrsum h xd va .s32 ma) (BitVec.ofInt 64 si.sum) FFlags.none ∧
    res (.vrsum h xd va .z32 ma) (BitVec.ofInt 64 un.sum) FFlags.none ∧
    res (.vrmax h xd va .s32 ma) (BitVec.ofInt 64 (greatest si (-2 ^ 31))) FFlags.none ∧
    res (.vrmax h xd va .z32 ma) (BitVec.ofInt 64 (greatest un 0)) FFlags.none ∧
    res (.vrmin h xd va .s32 ma) (BitVec.ofInt 64 (least si (2 ^ 31 - 1))) FFlags.none ∧
    res (.vrmin h xd va .z32 ma) (BitVec.ofInt 64 (least un (2 ^ 32 - 1))) FFlags.none) ∧
  (∀ (op : Nat → Nat → Nat × FFlags) (l : List (Option Nat)), l.length = 256 →
    ∀ (node : Nat → Nat → Option Nat),
      (∀ (i : Nat) (hi : i < l.length), node 0 i = l[i]) →
      (∀ k j, node (k + 1) j = match node k (2 * j), node k (2 * j + 1) with
        | none, v => v
        | u, none => u
        | some u, some v => some (op u v).1) →
      (treeReduce op l).1 = node 8 0 ∧
      ∀ flag ∈ ([FFlags.nv, FFlags.dz, FFlags.of, FFlags.uf, FFlags.nx] : List (FFlags → Bool)),
        flag (treeReduce op l).2 = true ↔ ∃ k j u v, k < 8 ∧ j < 2 ^ (7 - k) ∧ node k (2 * j) = some u ∧ node k (2 * j + 1) = some v ∧
          flag (op u v).2 = true)

/-- VCMPEQ, VCMPLT, VCMPLE and VSEL (R178, R201, R202): bits of inactive elements keep their values; VSEL writes every element below VL. MAND, MOR, MXOR,
MNOT, MPOP and MSETN (R178, R203). -/
def Obligations.MasksAndSelection : Prop :=
  (∀ (s : State) (h : Head) (a : VCmp) (b : VV), Enabled s h → Latest s →
    let x := fun i => (s.vread a.va i).v
    let y := fun i => (s.vread2 a.b i).v
    let act := s.active a.ma
    let n := if 128 < s.vl then 2 else 1
    let poi := s.mPoi a.ma || act.any fun i => (s.vread a.va i).poi || (s.vread2 a.b i).poi
    let old := (Reg.m a.md).read (atCycle s (s.cycle + 2))
    let cmp := fun (i : Instr) (fc : FCmp) (ic : Int → Int → Bool) =>
      let c := fun j => if a.ty = .f32 then fcmpV fc (fmtF32.read (x j).toNat) (fmtF32.read (y j).toNat)
        else if a.ty = .s32 then (ic (x j).toInt (y j).toInt, FFlags.none) else (ic (x j).toNat (y j).toNat, FFlags.none)
      let v := BitVec.ofBoolListLE ((List.range 256).map fun j => if j ∈ act then (c j).1 else old.1.getLsbD j)
      Effect i s 2 (if act = [] then [] else toM a.md (v.setWidth 256) (poi || (decide (act.length < 256) && old.2)))
        (fun k => holdsV (s.cycle + n) (raisesF (act.foldl (fun f j => f.or (c j).2) FFlags.none) k)) (rechecks s s.fresh)
    (Owned s (a.va :: src2Ops a.b) →
      cmp (.vcmpeq h a) .eq (fun u v => u = v) ∧ cmp (.vcmplt h a) .lt (fun u v => u < v) ∧ cmp (.vcmple h a) .le (fun u v => u ≤ v)) ∧
    (Owned s (b.vd :: b.va :: src2Ops b.b) →
      GridEffect (.vsel h b) s 2 n b.vd ((List.range s.vl).map fun i =>
        let c := if (s.m b.ma).getLsbD i then s.vread b.va i else s.vread2 b.b i
        (i, ⟨c.v, c.poi || s.mPoi b.ma⟩)) id)) ∧
  (∀ (s : State) (h : Head) (md ma mb : MReg) (xd xa : XReg), Enabled s h → Latest s →
    let op := fun (i : Instr) (ws : Writes) => Effect i s 1 ws (holdsV (s.cycle + 1)) (rechecks s s.fresh)
    op (.mand h md ma mb) (toM md (s.m ma &&& s.m mb) (s.mPoi ma || s.mPoi mb)) ∧
    op (.mor h md ma mb) (toM md (s.m ma ||| s.m mb) (s.mPoi ma || s.mPoi mb)) ∧
    op (.mxor h md ma mb) (toM md (s.m ma ^^^ s.m mb) (s.mPoi ma || s.mPoi mb)) ∧
    op (.mnot h md ma) (toM md (~~~(s.m ma)) (s.mPoi ma)) ∧
    (s.vl ≤ 256 → op (.mpop h xd ma)
      (toX xd (BitVec.ofNat 64 ((List.range s.vl).filter fun i => (s.m ma).getLsbD i).length) (s.mPoi ma))) ∧
    (∀ v : Mask, (∀ j, j < 256 → (v.getLsbD j = true ↔ j < (s.x xa).toNat)) → op (.msetn h md xa) (toM md v (s.xPoi xa))))

/-- VSLIDEUP, VSLIDEDN, VPERM and VBCAST (R204 to R206). -/
def Obligations.SlidesAndPermutation : Prop :=
  ∀ (s : State) (h : Head) (a : VV) (n : Fin 256) (xa : XReg), Enabled s h → Latest s → Owned s (a.vd :: a.va :: src2Ops a.b) →
    let act := s.active a.ma
    let g := if 128 < s.vl then 2 else 1
    let half := decide (a.ty = .s16)
    let count := if half then 2 * s.vl else s.vl
    let unit := fun (c : Nat → GCell) (j : Nat) =>
      if half then ((c (j / 2)).v.toNat / 65536 ^ (j % 2) % 65536, (c (j / 2)).poi) else ((c j).v.toNat, (c j).poi)
    let fill := fun j => match a.b with
      | .vec v => unit (s.vread v) j
      | b => let c := s.vread2 b 0; (if half then c.v.toNat % 65536 else c.v.toNat, c.poi)
    let joined := fun (p q : Nat → Nat × Bool) (i : Int) =>
      if i < 0 ∨ 2 * (count : Int) ≤ i then (0, false) else if i < count then p i.toNat else q (i.toNat - count)
    let up := fun j : Nat => joined fill (unit (s.vread a.va)) ((count : Int) + j - n.val)
    let down := fun j : Nat => joined (unit (s.vread a.va)) fill ((j : Int) + n.val)
    let cell := fun (u : Nat → Nat × Bool) (i : Nat) =>
      if half then (BitVec.ofNat 32 ((u (2 * i)).1 + 65536 * (u (2 * i + 1)).1), (u (2 * i)).2 || (u (2 * i + 1)).2)
      else (BitVec.ofNat 32 (u i).1, (u i).2)
    let writes := fun (i : Instr) lat (f : Nat → Cell × Bool) =>
      GridEffect i s lat g a.vd (act.map fun j => (j, ⟨(f j).1, (f j).2 || s.mPoi a.ma⟩)) id
    writes (.vslideup h a n) 4 (cell up) ∧
    writes (.vslidedn h a n) 4 (cell down) ∧
    writes (.vperm h a) 4 (fun i =>
      let k := s.vread2 a.b i
      if k.v.toNat < s.vl then ((s.vread a.va k.v.toNat).v, (s.vread a.va k.v.toNat).poi || k.poi) else (0, k.poi)) ∧
    writes (.vbcast h a.vd xa a.ma) 2 (fun _ => ((s.x xa).setWidth 32, s.xPoi xa))

/-- VLD, VLDS, VLD6 and VGATH (R178, R207 to R209, R211, R213): addresses, entries and V slot; with no active element only the slot. VST, VSTS and VSCAT
(R133, R178, R207 to R209, R212, R213): addresses, bytes, flags of the conversion, and V slot. -/
def Obligations.VectorAccessesIssue : Prop :=
  (∀ (s : State) (h : Head) (a : VM) (x : VX) (xb : XReg) (disp : BitVec 20) (bo : Fin 4), Enabled s h → Latest s →
    Owned s [a.vop, x.vx] → Clean s [.x a.xa, .x xb, .m a.ma] [x.vx] a.ma →
    let act := s.active a.ma
    let n := act.length
    let size := if a.ty = .w then 4 else a.ty.size
    let base := (s.x a.xa).toNat + disp.toInt
    let at0 := fun z : Int => BitVec.ofInt 64 z
    let g := if 128 < s.vl then 2 else 1
    let seen := s.now + (if a.sp = .g then 2 + (n + 15) / 16 else 1)
    let index := fun i => let c := (s.vread x.vx i).v; match x.iw, x.sg with
      | true, true => c.toInt
      | true, false => c.toNat
      | false, true => (c.setWidth 16).toInt
      | false, false => (c.setWidth 16).toNat
    let strided := max 1 ((n + 15) / 16)
    let groups := (act.map fun i => i / 128).eraseDups.length
    let bits6 := fun i : Nat =>
      let bit := 2 * bo.val + 6 * i
      if bit % 8 ≤ 2 then [(i, at0 (base + (bit / 8 : Nat)), 1)]
      else [(i, at0 (base + (bit / 8 : Nat)), 1), (i, at0 (base + (bit / 8 : Nat) + 1), 1)]
    let loads := fun (i : Instr) (reqs : Nat → List Req) (b slots interval : Nat) =>
      (act = [] → Effect i s 0 [] (holdsV (s.cycle + interval)) id) ∧
      (act ≠ [] → LoadIssues i s a.sp (.vector a.vop a.ty b) (act.flatMap reqs) a.dist.val slots seen false false (holdsV (s.cycle + interval)))
    loads (.vld h a disp) (fun i => [(i, at0 (base + i * size), size)]) 0 g g ∧
    loads (.vlds h a xb disp) (fun i => [(i, at0 (base + i * ((s.x xb).toNat : Int)), size)]) 0 g strided ∧
    loads (.vld6 h a disp bo) bits6 bo.val g g ∧
    loads (.vgath h a x) (fun i => [(i, at0 ((s.x a.xa).toNat + index i * 2 ^ x.sc.val), size)]) 0 (max ((n + 15) / 16) groups) strided) ∧
  (∀ (s : State) (h : Head) (a : VM) (x : VX) (xb : XReg) (disp : BitVec 20) (ord : Bool), Enabled s h → Latest s →
    Owned s [a.vop, x.vx] → Clean s [.x a.xa, .x xb, .m a.ma] [a.vop, x.vx] a.ma →
    let act := s.active a.ma
    let n := act.length
    let size := if a.ty = .w then 4 else a.ty.size
    let base := (s.x a.xa).toNat + disp.toInt
    let at0 := fun z : Int => BitVec.ofInt 64 z
    let g := if 128 < s.vl then 2 else 1
    let seen := s.now + (if a.sp = .g then 2 + (n + 15) / 16 else 1)
    let index := fun i => let c := (s.vread x.vx i).v; match x.iw, x.sg with
      | true, true => c.toInt
      | true, false => c.toNat
      | false, true => (c.setWidth 16).toInt
      | false, false => (c.setWidth 16).toNat
    let strided := max 1 ((n + 15) / 16)
    let value := fun i => let c := (s.vread a.vop i).v
      if a.ty = .bf then fmtBf.convert s.rm (fmtF32.read c.toNat) else if a.ty = .h then fmtH.convert s.rm (fmtF32.read c.toNat)
      else (c.toNat, FFlags.none)
    let bytes := fun i => (List.range size).map fun k => BitVec.ofNat 8 ((value i).1 / 2 ^ (8 * k))
    let flags := act.foldl (fun f i => f.or (value i).2) FFlags.none
    let stores := fun (i : Instr) (addr : Nat → Word) (slots interval : Nat) =>
      let slot := holdsV (s.cycle + interval)
      (act = [] → Effect i s 0 [] slot id) ∧
      (act ≠ [] → StoreIssues i s a.sp (act.map fun k => (addr k, bytes k)) slots seen false ord (fun k => raisesF flags (slot k)))
    stores (.vst h a disp ord) (fun i => at0 (base + i * size)) g g ∧
    stores (.vsts h a xb disp ord) (fun i => at0 (base + i * ((s.x xb).toNat : Int))) g strided ∧
    stores (.vscat h a x ord) (fun i => at0 ((s.x a.xa).toNat + index i * 2 ^ x.sc.val)) ((n + 15) / 16) strided)

/-! ### Blocks, queues and streams -/

/-- QST, BDEC and BHDR (R169 to R175): the blocks formed, and the requests; with no block read BDEC only holds its slot. That the address fault of a
BDEC reports the address of its block is the model's choice (log 64). -/
def Obligations.BlockOperations : Prop :=
  ∀ (s : State) (h : Head) (v : VOp) (q : QReg) (w8 : Bool) (ae : BitVec 4) (fb nb : Fin 4) (xd xa : XReg) (disp : BitVec 20)
    (sp : Space) (wd : Fin 3) (dist : Fin 4096), Enabled s h → Latest s → Owned s [v] → s.xPoi xa = false →
    let qu := s.core.queues.get q
    let count := nb.val + 1
    let element := fun i => if i < s.vl then s.vread v i else GCell.zero
    let block := fun k =>
      let els := (List.range 64).map fun j => element (64 * (fb.val + k) + j)
      let r := quantise w8 ae (els.map fun c => c.v)
      { id := s.fresh + k, grp := s.fresh, k := k, fired := false, hart := decide (s.cur % 2 = 1), ser := s.hart.ser, due := 0, q := q
        image := r.1, qnan := r.2.1, qclip := r.2.2, poi := els.any fun c => c.poi : QstBlk }
    let k1 := { s.core with qst := s.core.qst ++ (List.range count).map block }
    let fires := !s.core.frozen && k1.qstFires s.fresh
    let k2 := if fires then { k1 with qst := k1.qst.map fun b => if b.grp = s.fresh then { b with fired := true, due := s.cycle + 8 + 2 * b.k } else b } else k1
    (qu.sz ≠ 0 → qu.owner = decide (s.cur % 2 = 1) → (if w8 then 80 else 64) ≤ (qu.es.toNat + 1) * 16 →
      ∃ id, Effect (.qst h v q w8 ae fb nb) s 0 []
        (fun g => if fires then holdsV (max g.time.vNext (s.cycle + 2 * (k1.qst.filter fun b => b.grp = s.fresh).length)) g else g)
        (fun _ => rechecks s id k2)) ∧
    (let blocks := (List.range count).filter fun k => 64 * (fb.val + k) < s.vl
     let size := if w8 then 80 else 64
     let at0 := fun k j : Nat => BitVec.ofInt 64 ((s.x xa).toNat + disp.toInt + (k * size + 16 * j : Nat))
     let reqs : List Req := blocks.flatMap fun k => if w8 then (List.range 5).map fun j => (k, at0 k j, 16) else [(k, at0 k 0, 64)]
     let slot := holdsV (s.cycle + count)
     let i := Instr.bdec h v xa disp sp w8 fb nb dist
     (blocks = [] → Effect i s 0 [] slot id) ∧
     (∀ locs : List Loc, blocks ≠ [] → reqs.length = locs.length →
       (∀ x ∈ reqs.zip locs, checked s sp .load x.1.2.2 x.1.2.1 = .loc x.2) →
       ∃ req, Effect i s 0 [] (fun g => requests req (reports s req.id 0 true none (slot g))) id ∧
         req.kind = .blocks v w8 fb.val count s.vl ∧ req.due = s.hart.bun.at0 + max dist.val 1 ∧ req.slots = blocks.length ∧ req.res = none ∧
         req.extra = 4 ∧ req.elems.map (fun e => { e with perfAt := 0 }) = (reqs.zip locs).map (fun x => mkElem s.hart x.1 (some x.2))) ∧
     ∀ pre r post, reqs = pre ++ r :: post → (∀ x ∈ pre, ∃ l, checked s sp .load x.2.2 x.2.1 = .loc l) →
       (checked s sp .load r.2.2 r.2.1 = .walk →
         ∃ req j due, Effect i s 0 [] (fun g => reports s j due true none (requests req (slot g))) id ∧
           req.kind = .blocks v w8 fb.val count s.vl ∧ req.walking = true ∧ req.elems = reqs.map (fun x => mkElem s.hart x none)) ∧
       (∀ f, checked s sp .load r.2.2 r.2.1 = .fault f →
         let t := some (memoryTrap s f (elemAddress reqs r) sp .load)
         let good := reqs.filter fun x => x.1 < r.1
         (good = [] → ∃ j, Effect i s 0 [] (fun g => reports s j (s.now + (if sp = .g then 2 else 1)) false t (slot g)) id) ∧
         (good ≠ [] → ∃ req, Effect i s 0 [] (fun g => requests req (reports s req.id 0 true t (slot g))) id ∧
           req.elems.map (fun e => (e.idx, e.va, e.size)) = good))) ∧
    LoadIssues (.bhdr h xd xa sp wd dist) s sp (.header xd wd) [(0, s.x xa, 16)] dist.val (if xd = 0 then 0 else 1)
      (s.now + (if sp = .g then 2 else 1)) false false (holdsV (s.cycle + 1))

/-- QCFG, QPUSH, QPOP, QCNT and QFENCE (R216 to R228): where no check of R220 fails. SHAPE and SFREE (R231, R234 to R236): the object sealed in the lowest
free entry and its handle, and its release. -/
def Obligations.QueuesAndShapes : Prop :=
  (∀ (s : State) (h : Head) (q : QReg) (base : Fin 256) (sz : Fin 8) (es : Fin 32) (v : VOp) (row : RowOp) (f : CFmt) (xd : XReg)
    (qm : BitVec 8), Enabled s h → Latest s →
    let own := decide (s.cur % 2 = 1)
    let need := if f = .w then 4 * s.vl else 2 * s.vl
    let new : Queue := { base := BitVec.ofNat 8 base.val, sz := BitVec.ofNat 3 sz.val, es := BitVec.ofNat 5 es.val, owner := own, next := 0, ents := [] }
    let qu := s.core.queues.get q
    ((∀ t ∈ s.core.streams.toList, ¬(t.active = true ∧ t.q = q)) →
      (sz ≠ 0 → (es.val + 1) * 16 ≤ 2 ^ (sz.val + 9) ∧ ∀ r, r ≠ q → (s.core.queues.get r).sz ≠ 0 →
        let o := s.core.queues.get r
        base.val * 1024 + 2 ^ (sz.val + 9) ≤ o.base.toNat * 1024 ∨ o.base.toNat * 1024 + 2 ^ (o.sz.toNat + 9) ≤ base.val * 1024) →
      EffectBut [.sys .qbase, .sys .qsize] (.qcfg h q base sz es) s 0 [] checkpoints (fun k => { k with queues := k.queues.set q.val new })) ∧
    (Owned s [v] → QueueReady s q need →
      EngineEffect (.qpush h q v f) s (.qpush q f ((List.range s.vl).map fun i => s.vread v i)) false false
        (fun g => { g with time := { g.time with xNext := s.cycle + (if 128 < s.vl then 2 else 1) } })) ∧
    (Owned s [row.vop] → QueueReady s q need → EngineEffect (.qpop h row q f) s (.qpop row q f s.vl) true false id) ∧
    (let mine := qu.sz ≠ 0 ∧ qu.owner = own
     let waiting := (qu.ents.filter fun e => !e.popped).length
     Effect (.qcnt h xd q) s 1 (toX xd (BitVec.ofNat 64
       ((if mine then waiting % 65536 + 65536 * (s.core.room q % 65536) + 2 ^ 32 else 0) + (if qu.sz ≠ 0 then 2 ^ 33 else 0))) false) id id) ∧
    ∃ f : QFence, Effect (.qfence h qm) s 0 [] id (fun k => { k with qf := k.qf.filter k.fencePending ++ [f] }) ∧
      f.hart = own ∧ f.ser = s.hart.ser ∧ f.qm = qm ∧
      (∀ grp, grp ∈ f.prior ↔ ∃ b ∈ s.core.qst, b.hart = own ∧ b.ser = s.hart.ser ∧ b.grp = grp) ∧
      ∀ grp, grp ∈ f.grps ↔ ∃ b ∈ s.core.qst, b.hart = own ∧ b.ser = s.hart.ser ∧ b.grp = grp ∧ qm.getLsbD b.q.val = true) ∧
  (∀ (s : State) (h : Head) (xd xa : XReg) (sp : Space), Enabled s h → Latest s → s.xPoi xa = false →
    let e := s.x xa
    (∀ ls walk s1 i, s.resolveAll s.cur s.hart.launchId sp .load [(e, 32), (e + 32, 32), (e + 64, 32)] = (.ok (ls, walk), s1) →
      (∀ l ∈ ls, l.bad = false) → (∀ p ∈ s1.unitParts ls 32, p.2 = false) →
      let bytes := (s1.unitParts ls 32).flatMap fun p => p.1
      shapeFault bytes = none → i < 256 → (s.cluster.shapeAt i).sealed = false → (∀ j < i, (s.cluster.shapeAt j).sealed = true) →
      let gen := (s.cluster.shapeAt i).gen + 1
      let lat := walk + ls.foldl (fun m l => max m (s1.loadLatency s.cur l)) 0 + 8 - s.hart.bun.spent
      SharedEffect [] (.shape h xd xa sp) s lat (toX xd (BitVec.ofNat 64 (gen.toNat * 256 + i)) false) (awaits (s.now + lat))
        (fun _ => s1.core) (setShape i fun _ => ⟨true, s.hart.launchId, gen, 0, shapeOf bytes⟩)) ∧
    (let i := e.toNat % 256
     let ent := s.cluster.shapeAt i
     ent.sealed = true → ent.owner = s.hart.launchId → ent.gen.toNat = e.toNat / 256 % 256 → ent.uses = 0 →
       SharedEffect [] (.sfree h xa) s 0 [] (awaits (s.now + 4)) id (setShape i fun x => { x with sealed := false })))

/-- STREAM, SWAIT and SSTOP (R237 to R244): the stream in its slot with its references, its report, and its end. -/
def Obligations.StreamOperations : Prop :=
  ∀ (s : State) (h : Head) (slot : Fin 4) (q : QReg) (xa xb xd : XReg) (sp : Space) (tile : Option XReg), Enabled s h → Latest s →
    s.xPoi xa = false → s.xPoi xb = false → (∀ r ∈ tile, s.xPoi r = false) →
    let old := s.core.streams.get slot
    let i := (s.x xa).toNat % 256
    let ent := s.cluster.shapeAt i
    let o := ent.obj
    let base := s.x xb
    let acc := if o.layout = 0x30 then Acc.store else Acc.load
    let t := tile.map fun r => (s.x r).toNat % 256
    let held := if o.layout = 0x30 then none else t
    (old.active = false → ent.sealed = true → ent.owner = s.hart.launchId → ent.gen.toNat = (s.x xa).toNat / 256 % 256 →
      QueueReady s q o.image →
      (∀ k ∈ t, let te := s.cluster.tileAt k
        sp = .s ∧ base.toNat / 2 ^ 23 % 32 = s.cur / 32 ∧ te.off ≤ base.toNat % 2 ^ 23 ∧ base.toNat % 2 ^ 23 + o.extent ≤ te.off + 64 * te.len) →
      base.toNat % o.align = 0 → s.checkExtent s.cur s.hart.launchId sp acc base o.extent = none →
      ∃ st, SharedEffect [] (.stream h slot q xa xb sp tile) s 0 [] checkpoints (fun k => { k with streams := k.streams.set slot.val st })
          (fun c => let c1 := setShape i (fun x => { x with uses := x.uses + 1 }) c
            match held with
            | some k => setTile k (fun x => { x with refs := x.refs + 1 }) c1
            | none => c1) ∧
        st.active = true ∧ st.obj = o ∧ st.shapeIdx = i ∧ st.q = q ∧ st.sp = sp ∧ st.base = base ∧ st.hart = decide (s.cur % 2 = 1) ∧
        st.tile = held ∧ st.next = 0 ∧ st.done = 0 ∧ st.total = o.entries ∧ st.stopped = false ∧ st.stopping = false ∧
        st.nextAt = s.now + s.firstEntry o sp base ∧ st.start = posOf s.hart.ser s.hart.bun.head ∧ st.flights = []) ∧
    Effect (.swait h xd slot) s 1 (toX xd (BitVec.ofNat 64 (old.done % 2 ^ 32 + (if old.stopped then 2 ^ 32 else 0))) false) id id ∧
    (old.active = false → Effect (.sstop h slot) s 0 [] checkpoints id) ∧
    (old.active = true → old.flights ≠ [] →
      Effect (.sstop h slot) s 0 [] checkpoints
        (fun k => { k with streams := k.streams.set slot.val { old with stopping := true, stopped := true } })) ∧
    (old.active = true → old.flights = [] →
      SharedEffect [] (.sstop h slot) s 0 [] checkpoints
        (fun k => { k with streams := k.streams.set slot.val { old with stopping := true, stopped := true, active := false } })
        (fun c => let c1 := setShape old.shapeIdx (fun x => { x with uses := x.uses - 1 }) c
          match old.tile with
          | some k => setTile k (fun x => { x with refs := x.refs - 1 }) c1
          | none => c1))

/-! ### Copies, tiles and the matrix engine -/

/-- COPY (R246, R247): where its checks pass, the copy joins the cluster's queue, its mask's chunk bits are cleared, and its tile fills. TSET, TGET and
TWAIT (R249 to R252): the transition and its two predicates, the entry as a word, and a wait that has ended. -/
def Obligations.CopiesAndTiles : Prop :=
  (∀ (s : State) (h : Head) (xa xb xc : XReg) (md : MReg) (ds ss : Space) (tile fut : Option XReg), Enabled s h → Latest s →
    s.xPoi xa = false → s.xPoi xb = false → s.xPoi xc = false → (∀ r ∈ tile, s.xPoi r = false) → (∀ r ∈ fut, s.xPoi r = false) →
    let n := (s.x xc).toNat
    let dst := s.x xa
    let src := s.x xb
    let t := tile.map fun r => (s.x r).toNat % 256
    0 < n → n % 64 = 0 → n < 2 ^ 32 → (md ≠ 0 → n ≤ 262144) → dst.toNat % 64 = 0 → src.toNat % 64 = 0 →
    s.checkExtent s.cur s.hart.launchId ds .store dst n = none → s.checkExtent s.cur s.hart.launchId ss .load src n = none →
    (∀ k ∈ t, ds = .s ∧ dst.toNat / 2 ^ 23 % 32 = s.cur / 32 ∧ (s.cluster.tileAt k).state = .empty ∧
      dst.toNat % 2 ^ 23 + n ≤ 2 ^ s.cluster.spadBits) →
    let chunks := (n + 1023) / 1024
    let old := (Reg.m md).read (atCycle s (s.cycle + 1))
    let cleared := BitVec.ofBoolListLE ((List.range 256).map fun j => old.1.getLsbD j && decide (chunks ≤ j))
    ∃ c, SharedEffect [] (.copy h xa xb xc md ds ss tile fut) s 1 (toM md (cleared.setWidth 256) (decide (chunks < 256) && old.2)) checkpoints id
        (fun k => let k1 := { k with copies := k.copies ++ [c] }
          match t with
          | some j => setTile j (fun _ => ⟨.filling, dst.toNat % 2 ^ 23, n / 64, 0, true⟩) k1
          | none => k1) ∧
      c.hart = s.cur ∧ c.launch = s.hart.launchId ∧ c.dst = dst.toNat ∧ c.src = src.toNat ∧ c.len = n ∧ c.ds = ds ∧ c.ss = ss ∧
      c.mask = md ∧ c.tile = t ∧ c.fut = fut.map (fun r => (s.x r).toNat) ∧ c.chunk = 0 ∧ c.halted = false ∧
      c.start = posOf s.hart.ser s.hart.bun.head ∧ c.io = .none ∧ c.nextAt = s.now + s.copyFirst s.cur s.hart.launchId ds ss dst src) ∧
  (∀ (s : State) (h : Head) (pd pc : PReg) (xd xa xb : XReg) (frm dst : TileState), Enabled s h → Latest s → s.xPoi xa = false →
    s.xPoi xb = false →
    let i := (s.x xa).toNat % 256
    let t := s.cluster.tileAt i
    let off := (s.x xb).toNat / 2 ^ 17 % 2 ^ 23
    let len := (s.x xb).toNat / 2 ^ 40 % 2 ^ 18
    let may := t.state = frm ∧ (frm = .filling → t.cp = false) ∧ (frm = .ready ∧ dst = .draining → t.refs = 0)
    let code := match t.state with | .empty => 0 | .filling => 1 | .ready => 2 | .draining => 3
    (twice pd pc = false → ¬may → Effect (.tset h pd pc xa xb frm dst) s 4 (toP2 pd pc false false) (awaits (s.now + 4)) id) ∧
    (twice pd pc = false → may → (frm = .empty → 0 < len ∧ off + 64 * len ≤ 2 ^ s.cluster.spadBits) →
      SharedEffect [] (.tset h pd pc xa xb frm dst) s 4 (toP2 pd pc true false) (awaits (s.now + 4)) id
        (setTile i fun x => if frm = .empty then { x with state := dst, off := off, len := len } else { x with state := dst })) ∧
    (t.refs < 256 → t.off < 2 ^ 23 → t.len < 2 ^ 18 →
      Effect (.tget h xd xa) s 4 (toX xd (BitVec.ofNat 64 (code + 256 * (if t.cp then 1 else 0) + 2 ^ 9 * t.refs + 2 ^ 17 * t.off + 2 ^ 40 * t.len)) false) id id) ∧
    Effect (.twait h xa frm) s 0 [] id id)

/-- OPA.BF, OPA.H, OPA.N6, GZERO, STLD, VMT and GWAIT (R258, R259, R261, R264 to R269, R271): where no check fails, the operation joins the array order. -/
def Obligations.MatrixOperations : Prop :=
  ∀ (s : State) (h : Head) (w : Window) (qa qb : QReg) (row : RowOp) (seg : Fin 4) (f16 h0 h1 : Bool), Enabled s h → Latest s →
    let own := fun half => ownsHalf (s.core.gmode.toNat % 4) (s.cur % 2 = 1) half = true
    let extent := fun n : Fin 3 => 64 * 2 ^ n.val
    (own w.half → QueueReady s qa (2 * extent w.rs) → QueueReady s qb (2 * extent w.cs) →
      EngineEffect (.opaBf h w qa qb) s (.opaBf w qa qb) true true id ∧ EngineEffect (.opaH h w qa qb) s (.opaH w qa qb) true true id ∧
      EngineEffect (.opaN6 h w qa qb) s (.opaN6 w qa qb) true true id) ∧
    (own w.half → EngineEffect (.gzero h w) s (.gzero w) true false id) ∧
    (let qu := s.core.queues.get qa
     QueueReady s qa 256 → 64 ≤ 2 ^ (qu.sz.toNat + 9) / ((qu.es.toNat + 1) * 16) → EngineEffect (.stld h qa f16) s (.stld qa f16) false false id) ∧
    (own row.half → QueueReady s qa 256 → EngineEffect (.vmt h row qa seg) s (.vmt row qa seg) true true id) ∧
    ((h0 = true → own false) → (h1 = true → own true) → Effect (.gwait h h0 h1) s 0 [] id id)

/-! ### Tasks -/

/-- SPAWN and SPAWN.RES (R281, R282, R292): a record that may be spawned becomes READY at the tail of the target's list, and is counted once unless it was
parked. -/
def Obligations.Spawns : Prop :=
  ∀ (s : State) (h : Head) (xa : XReg) (cl : Option (Fin 4)) (res : Bool), Enabled s h → Latest s → s.xPoi xa = false →
    let off := (s.x xa).toNat
    let d := s.cur / 128
    let own := s.cur / 32
    let l := s.hart.launchId
    let wanted := match cl with | some c => 4 * d + c.val | none => own
    let target := if (s.clusterAt wanted).launch = some l then wanted else own
    let word := fun (t : State) at0 n => t.hNat d l at0 n
    let scope := word s (off + 12) 2
    off % 64 = 0 → off + 192 ≤ (s.halloc d l).size → word s (off + 14) 2 / 16 % 4 = 0 → word s (off + 48) 1 = (if res then 1 else 0) →
    (res = false → s.scopeOpen s.part scope = true) → (∀ r ∈ (s.clusterAt target).ready.getLast?, r % 64 = 0 ∧ r ≠ off) →
    UnitEffect (if res then .spawnRes h xa cl else .spawn h xa cl) s 0 [] (awaits (s.now + 40))
      (fun u a => u = .sram d l ∧ (a ∈ [off + 14, off + 15] ∨ (off + 32 ≤ a ∧ a < off + 40) ∨ (res = true ∧ a = off + 48) ∨
        ∃ r ∈ (s.clusterAt target).ready.getLast?, r + 32 ≤ a ∧ a < r + 40))
      fun t =>
        word t (off + 14) 2 / 16 % 4 = 1 ∧ word t (off + 14) 2 / 4 % 4 = target % 4 ∧ word t (off + 14) 2 % 4 = word s (off + 14) 2 % 4 ∧
        word t (off + 14) 2 / 64 = word s (off + 14) 2 / 64 ∧ word t (off + 32) 8 = 0 ∧ (res = true → word t (off + 48) 1 = 0) ∧
        (∀ r ∈ (s.clusterAt target).ready.getLast?, word t (r + 32) 8 = off + 1) ∧
        (t.clusterAt target).ready = (s.clusterAt target).ready ++ [off] ∧
        (∀ k, k ≠ target → (t.clusterAt k).ready = (s.clusterAt k).ready) ∧ t.parts = s.parts ∧
        ∀ k id, totals t k id = if res = false ∧ k = own ∧ id % 256 = scope % 256 then ((totals s k id).1 + 1, (totals s k id).2) else totals s k id

/-- SUSPEND, YIELD, FWAIT and EXIT (R280, R283 to R287): the record that is written back as withheld stores, and the checkpoint that ends the bundle; with
no record EXIT only ends the task. -/
def Obligations.Suspensions : Prop :=
  ∀ (s : State) (h : Head) (xa : XReg) (pd pc : PReg), Enabled s h → Latest s → s.xPoi xa = false →
    let g := s.hart
    let d := s.cur / 128
    let l := g.launchId
    let link := g.r.crec.toNat
    let off := link / 64 % 2 ^ 20 * 64
    let fut := (s.x xa).toNat
    let inH := fun e n => e + n ≤ (s.halloc d l).size
    let live := (List.finRange 32).filter fun r => r ≠ 0 && g.r.livemask.getLsbD r.val
    let old := leNat (s.ownBytes s.cur ⟨.sram d l, off + 14⟩ 2).1
    let bytes := fun n (v : Nat) => (List.range n).map fun k => BitVec.ofNat 8 (v / 2 ^ (8 * k))
    let preds := (List.finRange 16).foldl (fun v k => if k ≠ 0 && s.p k then v + 2 ^ k.val else v) 0
    let fields := fun (flags : Nat) (aux : List (Nat × List Byte × Bool)) =>
      [(0, bytes 8 g.bun.ft.toNat, false), (8, bytes 4 (s.launchAt l).rc.code, false), (12, bytes 2 g.r.fscope.toNat, false),
       (14, bytes 2 flags, false), (16, bytes 4 g.r.livemask.toNat, false), (20, bytes 4 g.r.sidx.toNat, false)] ++ aux ++
      [(40, bytes 8 preds, decide (g.r.pPoi ≠ 0))] ++
      (List.range 16).map fun j => match live[j]? with
        | some r => (64 + 8 * j, bytes 8 (s.x r).toNat, s.xPoi r)
        | none => (64 + 8 * j, bytes 8 0, false)
    let writes := fun (i : Instr) (a : AfterCkpt) (flags : Nat) (aux : List (Nat × List Byte × Bool)) =>
      ∃ w, EffectBut [.sys .ckstat] i s 0 [] (fun k => endsWith a (withholds w k)) id ∧ w.ser = g.ser ∧ w.bar = waitsFor s true false ∧ w.ord = true ∧
        w.elems = (fields flags aux).map fun f => { loc := ⟨.sram d l, off + f.1⟩, data := f.2.1, poi := f.2.2 }
    let flags := fun state high => g.r.fpmode.toNat % 4 + 4 * (s.cur / 32 % 4) + 16 * state + 64 * high
    (link % 2 = 1 → inH off 192 → g.r.ras = [] → rspPtr g.r.rspill ≤ rspBase g.r.rspill + 7 →
      (∀ e ∈ s.core.eng, e.hart = decide (s.cur % 2 = 1) → e.kind.region = none) →
      writes (.suspend h xa) .suspend (flags 0 (old / 64)) [(24, bytes 8 (s.x xa).toNat, s.xPoi xa), (48, [1], false)] ∧
      writes (.yield h) .yield (flags 2 (old / 64)) [] ∧
      (fut % 16 = 0 → inH fut 16 →
        writes (.fwait h pd pc xa) (.fwait pd pc fut g.bun.head g.pc) (flags 2 (1 + old / 128 % 2 * 2 + 4 * pd.val + 64 * pc.val)) [])) ∧
    (link % 2 = 0 ∨ inH off 192 → Effect (.exit h) s 0 [] (endsWith .exit) id)

/-- FRES and FFAIL (R281, R286, R288): the value, the state, the waking of the waiters, and the reply. FINOPEN, FINEND and FINWAIT (R281, R291 to R296):
the scope opened or its token released, the counts, and the reply. -/
def Obligations.FuturesAndFinishScopes : Prop :=
  (∀ (s : State) (h : Head) (xa xb : XReg) (ok : Bool), Enabled s h → Latest s → s.xPoi xa = false → s.xPoi xb = false →
    let off := (s.x xa).toNat
    let d := s.cur / 128
    let l := s.hart.launchId
    let w := s.hNat d l off 8
    let waiter := w % 2 ^ 48
    off % 16 = 0 → off + 16 ≤ (s.halloc d l).size → w / 2 ^ 62 < 2 → futOk w = true →
    UnitEffect (if ok then .fres h xa xb else .ffail h xa xb) s 0 [] (awaits (s.now + 40))
      (fun u a => u = .sram d l ∧ off ≤ a ∧ a < off + 16)
      fun t =>
        t.hNat d l off 8 = (if ok then 2 else 3) * 2 ^ 62 ∧ t.hNat d l (off + 8) 8 = (s.x xb).toNat ∧ t.clusters = s.clusters ∧
        t.parts = s.parts ∧
        (t.dieAt d).wakes = (s.dieAt d).wakes ++ (if waiter % 2 = 1 then [⟨l, BitVec.ofNat 64 waiter, ok, s.now + 4⟩] else [])) ∧
  (∀ (s : State) (h : Head) (xd xa : XReg), Enabled s h → Latest s → s.xPoi xa = false → s.cur < 1024 →
    let num := (s.x xa).toNat % 65536
    let p := s.part
    let own := s.cur / 32
    let lat := 80 + 52 * s.homeHops
    let ent := fun (t : State) i => SMap.look ScopeEnt.reset (t.partAt p).scopes i
    (∀ i, s.scopeOpen p num = true → i < 256 → (ent s i).openNow = false → (∀ j < i, (ent s j).openNow = true) →
      let new := (ent s i).gen.toNat * 256 + i
      UnitEffect (.finopen h xd xa) s lat (toX xd (BitVec.ofNat 64 new) false) (awaits (s.now + lat)) (fun _ _ => False)
        fun t => t.scopeOpen p new = true ∧ (ent t i).token = true ∧ (ent t i).parent = some (BitVec.ofNat 16 num) ∧
          (ent t i).launch = s.hart.launchId ∧ (ent t i).root = false ∧ (∀ j, j ≠ i → ent t j = ent s j) ∧ totals t own new = (1, 0) ∧
          totals t own num = ((totals s own num).1 + 1, (totals s own num).2) ∧
          ∀ k j, j % 256 ≠ i → k ≠ own ∨ j % 256 ≠ num % 256 → totals t k j = totals s k j) ∧
    (s.scopeOpen p num = true → (ent s (num % 256)).token = true →
      UnitEffect (.finend h xa) s 0 [] (awaits (s.now + lat)) (fun _ _ => False)
        fun t => ent t (num % 256) = { ent s (num % 256) with token := false } ∧ (∀ j, j ≠ num % 256 → ent t j = ent s j) ∧
          ∀ k j, totals t k j = if k = own ∧ j % 256 = num % 256 then ((totals s k j).1, (totals s k j).2 + 1) else totals s k j) ∧
    (num ≠ s.hart.r.fscope.toNat % 65536 → Effect (.finwait h xa) s 0 [] id id))

/-- FARM and SETVL (R297, R299): strips placed on the named clusters that run the launch and counted, and the vector length of a strip. -/
def Obligations.StripFarms : Prop :=
  ∀ (s : State) (h : Head) (xa xb xc xe xd : XReg) (disp : BitVec 27) (hidx : Fin 32) (pd pc : PReg), Enabled s h → Latest s →
    s.xPoi xa = false →
    let n := (s.x xa).toNat % 2 ^ 32
    let named := (List.range 32).filter fun k => (s.x xb).getLsbD k && decide ((s.clusterAt k).launch = some s.hart.launchId)
    let num := (s.x xc).toNat % 65536
    let body := BitVec.ofInt 64 (((s.hart.pc.toNat / 64 : Nat) + disp.toInt) * 64 + 2 * (hidx.val : Int))
    let lat := 80 + 52 * s.homeHops
    (s.xPoi xb = false → s.xPoi xc = false → 0 < n → named ≠ [] → s.scopeOpen s.part num = true →
      ∃ k0, UnitEffect (.farm h xa xb xc xe disp hidx) s 0 [] (awaits (s.now + lat)) (fun _ _ => False)
        fun t => t.parts = s.parts ∧ t.dies = s.dies ∧
          (∀ k j, totals t k j = if k = s.cur / 32 ∧ j % 256 = num % 256 then ((totals s k j).1 + n, (totals s k j).2) else totals s k j) ∧
          (∀ k, k ∉ named → (t.clusterAt k).farms = (s.clusterAt k).farms) ∧
          ∀ (j : Nat) (hj : j < named.length), (t.clusterAt named[j]).farms = (s.clusterAt named[j]).farms ++
            (if j < n then [⟨j, named.length, n, body, s.x xe, s.xPoi xe, BitVec.ofNat 16 num, s.hart.r.fpmode, k0⟩] else [])) ∧
    (twice pd pc = false → (∀ w ∈ s.hart.wq, w.dst ≠ .sys .stepcnt) →
      let v := min (s.x xa).toNat 256
      Effect (.setvl h xd pd pc xa) s 1
        (toSys .vl (BitVec.ofNat 64 (max v 1)) ++ toX xd (BitVec.ofNat 64 ((s.x xa).toNat - v)) false ++
          toP2 pd pc (decide ((s.x xa).toNat ≠ 0)) false ++ toSys .stepcnt (s.hart.r.stepcnt + 1)) stepBoundary id)

/-! ### Launches and system registers -/

/-- LAUNCH, TXABORT and TXWAIT (R323 to R326): the child record that is kept, the refusal of one that fails a check, the abort, and the waits' results. -/
def Obligations.LaunchesAndWaits : Prop :=
  ∀ (s : State) (h : Head) (xd xa : XReg), Enabled s h → Latest s → s.xPoi xa = false →
    let l := s.hart.launchId
    let la := s.launchAt l
    let node := 80 + 52 * s.homeHops
    let e := s.x xa
    (∀ (locs : Fin 8 → Loc) (g : Nat),
      (∀ k, checked s .g .load 64 (e + BitVec.ofNat 64 (64 * k.val)) = .loc (locs k) ∧ (locs k).bad = false) →
      (∀ p ∈ s.unitParts (List.ofFn locs) 64, p.2 = false) → (∀ k, (s.loadLat s.cur (locs k)).ns ≤ g) → (∃ k, (s.loadLat s.cur (locs k)).ns = g) →
      let raw := (s.unitParts (List.ofFn locs) 64).flatMap fun p => p.1
      let lat := (2 * g * 11 + 9) / 10 + node - s.hart.bun.spent
      let ws := toX xd (BitVec.ofNat 64 la.children.length) false
      (∀ reason obj, s.childFault la raw = some (reason, obj) → Traps (.launch h xd xa) s 64 e (objAux s obj reason)) ∧
      (s.childFault la raw = none →
        ∃ t, exec (.launch h xd xa) s = .next t ∧ (∀ w ∈ ws, w.1.read (atCycle t (s.cycle + lat)) = (w.2.1, w.2.2)) ∧
          Keeps s t (ws.map fun w => w.1) ∧ SameBytes s t ∧ t = { s with harts := t.harts, launches := t.launches } ∧
          (∀ n, n ≠ s.cur → t.hartAt n = s.hartAt n) ∧ t.hart = awaits (s.now + lat) (withResults t s.hart) ∧
          ∀ k, t.launchAt k = if k = l then { la with children := la.children ++ [raw] } else s.launchAt k)) ∧
    (∀ rt, ∃ t, exec (.txabort h xa rt) s = .next t ∧ Keeps s t [] ∧ SameBytes s t ∧ t = { s with harts := t.harts, launches := t.launches } ∧
      (∀ n, n ≠ s.cur → t.hartAt n = s.hartAt n) ∧
      t.hart = { s.hart with mode := .stopped, bun := { s.hart.bun with trap := some ⟨65, s.hart.pc, 0, 0, false⟩ } } ∧
      ∀ k, t.launchAt k = if k = l ∧ la.cause = 0
        then { la with cause := 65, abCode := e.toNat % 65536, trapPc := s.hart.pc, trapInfo := 0, retryable := rt } else s.launchAt k) ∧
    Computes (.txwaitOldest h xd) s 1 (toX xd s.hart.sys.txtag false) ∧
    (let past := ∀ x ∈ s.launches, x.2.part = la.part → x.2.st.uncommitted = true → la.place ≤ x.2.place
     (past → Computes (.txwaitPoll h xd) s node (toX xd 1 false)) ∧ (¬past → Computes (.txwaitPoll h xd) s node (toX xd 0 false)))

/-- MFS, MTS and MTS to GMODE (R18, R37, R356, R357): what every register reads as, the values that may be written, and when a written value is in force. -/
def Obligations.SystemRegisters : Prop :=
  ∀ (s : State) (h : Head) (xd xa : XReg), Enabled s h → Latest s →
    let g := s.hart
    let v := s.x xa
    let n := v.toNat
    let reads := fun (r : SysReg) (w : Word) => Computes (.mfs h xd r) s 1 (toX xd w false)
    let writes := fun (r : SysReg) (ok : Prop) =>
      (ok → Computes (.mts h r xa) s 1 (toSys r v)) ∧ (¬ok → Traps (.mts h r xa) s 2 (illInfo 4 g.bun.head) 0)
    (s.cur < 1024 → s.pkg.cfg.modulePos < 8 → reads .hartid (BitVec.ofNat 64 (s.cur + 2 ^ 10 * s.pkg.cfg.modulePos))) ∧
    reads .gmode s.core.gmode ∧ reads .fpmode g.r.fpmode ∧ reads .fpflags g.r.fpflags ∧ reads .vflags g.r.vflags ∧ reads .vl g.r.vl ∧
    reads .cycle (BitVec.ofNat 64 (s.now - s.core.t0)) ∧
    reads .trapcause (BitVec.ofNat 64 (g.sys.tr.cause.toNat + if g.r.inh then 2 ^ 15 else 0)) ∧ reads .trappc g.sys.tr.pc ∧
    reads .trapinfo g.sys.tr.info ∧ reads .trapaux g.sys.tr.aux ∧ reads .epc g.sys.epc ∧ reads .ckptpc g.sys.ckptpc ∧
    reads .tscratch0 g.sys.ts0 ∧ reads .tscratch1 g.sys.ts1 ∧ reads .stepcnt g.r.stepcnt ∧ reads .txtag g.sys.txtag ∧
    reads .rspill g.r.rspill ∧ reads .dptroot s.core.dptroot ∧ reads .iptroot s.core.iptroot ∧
    reads .mtag (BitVec.ofNat 64 s.core.mtag.toNat) ∧ reads .crec g.r.crec ∧ reads .livemask g.r.livemask ∧ reads .fscope g.r.fscope ∧
    reads .sidx g.r.sidx ∧
    (∀ w : Word, (∀ q : Fin 8, w.extractLsb' (8 * q.val) 8 = (s.core.queues.get q).base) → reads .qbase w) ∧
    (∀ w : Word, (∀ q : Fin 8, w.extractLsb' (8 * q.val) 5 = (s.core.queues.get q).es ∧
      w.extractLsb' (8 * q.val + 5) 3 = (s.core.queues.get q).sz) → reads .qsize w) ∧
    (let hist := (s.core.hist.filter fun e => e.hart = decide (s.cur % 2 = 1)).length
     let used := (g.wh.map fun w => w.slots).sum
     hist < 512 → used < 512 → g.bundles < 2 ^ 13 → reads .ckstat (BitVec.ofNat 64 (hist + 2 ^ 9 * used + 2 ^ 18 * g.bundles))) ∧
    (s.xPoi xa = false →
      writes .fpmode (n < 4) ∧ writes .fpflags (n < 32) ∧ writes .vflags (n < 16) ∧ writes .vl (1 ≤ n ∧ n ≤ 256) ∧
      writes .tscratch0 True ∧ writes .tscratch1 True ∧ writes .fscope (n < 2 ^ 16) ∧ writes .sidx (n < 2 ^ 32) ∧
      writes .crec (n = 0 ∨ (n % 64 = 1 ∧ n < 2 ^ 26)) ∧
      writes .livemask (n < 2 ^ 32 ∧ n % 2 = 0 ∧ ((List.range 32).filter fun k => n.testBit k).length ≤ 16) ∧
      (let ptr := n % 2 ^ 19
       let low := n / 2 ^ 19 % 2 ^ 19
       let top := n / 2 ^ 38 % 2 ^ 19
       writes .rspill (n < 2 ^ 57 ∧ ptr % 8 = 0 ∧ low % 8 = 0 ∧ top % 8 = 0 ∧ low ≤ ptr ∧ ptr ≤ top ∧ top ≤ 262144)) ∧
      (g.r.inh = true → Computes (.mts h .epc xa) s 1 (toSys .epc v)) ∧
      (g.r.inh = false → Traps (.mts h .epc xa) s 6 0 (BitVec.ofNat 64 g.bun.head)) ∧
      (n < 8 → n % 4 ≠ 3 →
        Effect (.mtsGmode h xa) s 0 [] (fun k => checkpoints { k with bun := { k.bun with ngmode := some v } }) id) ∧
      (¬(n < 8 ∧ n % 4 ≠ 3) → Traps (.mtsGmode h xa) s 2 (illInfo 4 g.bun.head) 0))

/-- CKPT, STEP, TRAP, BREAK, ERET and ICINV (R358 to R361): the checkpoint that each requests and what follows it. -/
def Obligations.SystemInstructions : Prop :=
  ∀ (s : State) (h : Head) (xa xb : XReg) (code : BitVec 16), Enabled s h → Latest s → s.xPoi xa = false → s.xPoi xb = false →
    let g := s.hart
    let epc := g.sys.epc
    let a := (s.x xa).toNat
    let n := (s.x xb).toNat
    let reply := fun lines => s.now + 200 + 52 * s.maxHops (s.cur / 128) + (lines + 15) / 16
    let trap := fun cause => AfterCkpt.trap ⟨cause, g.pc, code.setWidth 64, BitVec.ofNat 64 g.bun.head, false⟩
    Effect (.ckpt h) s 0 [] checkpoints id ∧
    ((∀ w ∈ g.wq, w.dst ≠ .sys .stepcnt) → Effect (.step h) s 1 (toSys .stepcnt (g.r.stepcnt + 1)) stepBoundary id) ∧
    Effect (.trap h code) s 0 [] (endsWith (trap 96)) id ∧ Effect (.break h code) s 0 [] (endsWith (trap 97)) id ∧
    (g.r.inh = false → Traps (.eret h) s 6 0 (BitVec.ofNat 64 g.bun.head)) ∧
    (g.r.inh = true → s.targetFails s.cur epc = false →
      EffectBut [.sys .trapcause] (.eret h) s 0 []
        (fun k => checkpoints (transfersTo epc { k with r := { k.r with inh := false }, bun := { k.bun with eret := true } })) id) ∧
    (n = 0 → Effect (.icinv h xa xb) s 0 [] checkpoints id) ∧
    (0 < n → Effect (.icinv h xa xb) s 0 []
      (fun k => awaits (reply ((a + n - 1) / 64 - a / 64 + 1)) (endsWith (.icinv a (a + n) false) k)) id) ∧
    Effect (.icinvAll h) s 0 [] (fun k => awaits (reply 512) (endsWith (.icinv 0 0 true) k)) id

/-! ### Traps -/

/-- Traps that operations raise at issue, with their registers (R41, R43, R89, R90, R217, R220, R222, R235 to R237, R246, R250, R280 to R283, R288, R294
to R297). -/
def Obligations.OperationsTrap : Prop :=
  ∀ (s : State) (h : Head) (xd xa xb xc xe : XReg) (md : MReg) (op : BitVec 9) (t4 : Fin 4) (disp : BitVec 27) (hidx : Fin 32) (q : QReg)
      (base : Fin 256) (sz : Fin 8) (es : Fin 32) (row : RowOp) (f : CFmt) (slot : Fin 4) (sp ds ss : Space) (pd pc : PReg) (dst : TileState)
      (cl : Option (Fin 4)) (ok : Bool),
    let g := s.hart
    let trap := fun i cause info obj reason => Traps i s cause info (objAux s obj reason)
    let mine := decide (s.cur % 2 = 1)
    let qu := s.core.queues.get q
    let sp0 := g.r.rspill.toNat
    let ptr := sp0 % 2 ^ 19
    let a := s.x xa
    let hand := a.toNat % 65536
    let shape := s.cluster.shapeAt (hand % 256)
    let valid := shape.sealed = true ∧ shape.owner = g.launchId ∧ shape.gen.toNat = hand / 256
    let n := (s.x xc).toNat
    let num := a.toNat % 65536
    let d := s.cur / 128
    let l := g.launchId
    let word := fun o k => s.hNat d l (a.toNat + o) k
    let fits := fun k => a.toNat + k ≤ (s.halloc d l).size
    Traps (.unassignedOpcode h op t4) s 2 (illInfo 0 g.bun.head) 0 ∧
    (Enabled s h → s.xPoi xa = false → s.xPoi xb = false → s.xPoi xc = false →
      (g.r.ras.length = 16 → ptr = sp0 / 2 ^ 38 % 2 ^ 19 → Traps (.call h disp hidx) s 8 0 0 ∧ Traps (.callr h xa) s 8 0 0) ∧
      (g.r.ras = [] → ptr = sp0 / 2 ^ 19 % 2 ^ 19 → Traps (.ret h) s 9 0 0) ∧
      ((∃ k : Fin 4, (s.core.streams.get k).active = true ∧ (s.core.streams.get k).q = q) → trap (.qcfg h q base sz es) 34 0 q.val 4) ∧
      (ownsHalf (s.core.gmode.toNat % 4) mine row.half = true →
        (qu.sz = 0 → trap (.qpop h row q f) 34 0 q.val 0) ∧
        (qu.sz ≠ 0 → qu.owner ≠ mine → trap (.qpop h row q f) 34 0 q.val 1) ∧
        (qu.sz ≠ 0 → qu.owner = mine → (qu.es.toNat + 1) * 16 < (if f = .w then 4 else 2) * s.vl → trap (.qpop h row q f) 34 0 q.val 2)) ∧
      (¬valid → trap (.sfree h xa) 35 0 (hand % 256) 2) ∧ (valid → shape.uses ≠ 0 → trap (.sfree h xa) 35 0 (hand % 256) 3) ∧
      ((s.core.streams.get slot).active = true → trap (.stream h slot q xa xb sp none) 36 0 slot.val 0) ∧
      ((s.core.streams.get slot).active = false → ¬valid → trap (.stream h slot q xa xb sp none) 35 0 (hand % 256) 2) ∧
      (n = 0 ∨ n % 64 ≠ 0 ∨ 2 ^ 32 ≤ n → trap (.copy h xa xb xc md ds ss none none) 38 0 0 0) ∧
      (n % 64 = 0 → 262144 < n → n < 2 ^ 32 → md ≠ 0 → trap (.copy h xa xb xc md ds ss none none) 38 0 0 1) ∧
      (let i := a.toNat % 256
       let len := (s.x xb).toNat / 2 ^ 40 % 2 ^ 18
       (s.cluster.tileAt i).state = .empty → (len = 0 ∨ 2 ^ s.cluster.spadBits < (s.x xb).toNat / 2 ^ 17 % 2 ^ 23 + 64 * len) →
         trap (.tset h pd pc xa xb .empty dst) 37 0 i 1) ∧
      (g.r.crec.toNat % 2 = 0 → trap (.suspend h xa) 48 0 0 0 ∧ trap (.yield h) 48 0 0 0) ∧
      (g.r.crec.toNat % 2 = 1 → g.r.crec.toNat / 64 % 2 ^ 20 * 64 + 192 ≤ (s.halloc d l).size → g.r.ras ≠ [] → g.r.ras.length < 256 →
        rspPtr g.r.rspill = rspBase g.r.rspill → trap (.suspend h xa) 49 0 g.r.ras.length 0 ∧ trap (.yield h) 49 0 g.r.ras.length 0) ∧
      (a.toNat % 16 ≠ 0 → Traps (.fres h xa xb) s 16 a (auxMem 15 7 .h .atomic g.bun.head)) ∧
      (a.toNat % 16 = 0 → ¬fits 16 → Traps (.fres h xa xb) s 18 a (auxMem 15 7 .h .atomic g.bun.head)) ∧
      (a.toNat % 16 = 0 → fits 16 → 2 ≤ word 0 8 / 2 ^ 62 → trap (.fres h xa xb) 53 a 0 0 ∧ trap (.ffail h xa xb) 53 a 0 0) ∧
      (a.toNat % 16 = 0 → fits 16 → word 0 8 / 2 ^ 62 < 2 → futOk (word 0 8) = false → trap (.fres h xa xb) 52 a 0 0 ∧ trap (.ffail h xa xb) 52 a 0 0) ∧
      (a.toNat % 64 = 0 → fits 192 → (word 14 2 / 16 % 4 ≠ 0 ∨ word 48 1 ≠ (if ok then 1 else 0)) →
        trap (if ok then .spawnRes h xa cl else .spawn h xa cl) 51 a 0 0) ∧
      (a.toNat % 64 = 0 → fits 192 → word 14 2 / 16 % 4 = 0 → word 48 1 = 0 → s.scopeOpen s.part (word 12 2) = false →
        trap (.spawn h xa cl) 51 a (word 12 2) 2) ∧
      (s.scopeOpen s.part num = false →
        trap (.finopen h xd xa) 54 (BitVec.ofNat 64 num) num 0 ∧ trap (.finend h xa) 54 (BitVec.ofNat 64 num) num 0) ∧
      (s.scopeOpen s.part num = true → (∀ i < 256, (SMap.look ScopeEnt.reset (s.partAt s.part).scopes i).openNow = true) →
        trap (.finopen h xd xa) 54 (BitVec.ofNat 64 num) 0 3) ∧
      (s.scopeOpen s.part num = true → (s.scopeAt s.part num).token = false → trap (.finend h xa) 54 (BitVec.ofNat 64 num) num 2) ∧
      (num = g.r.fscope.toNat % 65536 → trap (.finwait h xa) 54 (BitVec.ofNat 64 num) num 1) ∧
      (a.toNat % 2 ^ 32 = 0 → trap (.farm h xa xb xc xe disp hidx) 54 (BitVec.ofNat 64 (n % 65536)) 0 0))

/-- Taking a trap (R337 to R343): the rollback to the last checkpoint, the trap registers, and the handler, the Welkin core or the abort of the launch. -/
def Obligations.TrapEntry : Prop :=
  ∀ (s : State) (n : HartId) (t : TrapRec),
    let c := n / 2
    let mine := decide (n % 2 = 1)
    let h := s.hartAt n
    let k := s.coreAt c
    let l := s.launchAt h.launchId
    let u := s.takeTrap n t
    let v := u.hartAt n
    let cause := t.cause.toNat
    let back := (h.wq.filter fun w => w.ser ≤ h.ckptSer).foldl Regs.put h.dup
    let groups := (k.hist.filter fun e => e.hart = mine).length
    let first := s.cycleAt c + 12 + (groups + 3) / 4
    let handled := cause ∈ [1, 2, 3, 4, 5, 6, 8, 9, 16, 17, 18, 19, 20, 21, 33, 34, 35, 36, 37, 38, 48, 49, 50, 51, 52, 53, 54, 64, 96] ∧ t.welkin = false
    let aborted := fun (cause : BitVec 8) => v.mode = .stopped ∧ v.r = back ∧
      (u.launchAt h.launchId).cause = (if l.cause = 0 then cause.toNat else l.cause) ∧
      (l.cause = 0 → (u.launchAt h.launchId).trapPc = t.pc ∧ (u.launchAt h.launchId).trapInfo = t.info)
    v.dup = back ∧ v.wq = [] ∧ v.wh = [] ∧ v.atoms = [] ∧ v.xl = [] ∧ v.rest = [] ∧ v.bundles = 0 ∧
    v.land = (h.land.filter fun l => l.ser ≤ h.ckptSer).map (fun l => { l with landed := false }) ∧
    (u.coreAt c).hist = k.hist.filter (fun e => e.hart ≠ mine) ∧
    ((∀ e ∈ k.hist, e.hart = mine → e.old.length = 128) →
      (∀ e ∈ k.hist, ∀ e' ∈ k.hist, e.hart = mine → e'.hart = mine → e.group = e'.group → e = e') →
      ∀ g j, j < 128 → (u.coreAt c).cell (128 * g + j) =
        match k.hist.find? fun e => e.hart = mine && e.group = g with
        | some e => e.old.getD j GCell.zero
        | none => k.cell (128 * g + j)) ∧
    (u.coreAt c).eng = k.eng.filter (fun e => e.hart ≠ mine || e.ser ≤ h.ckptSer) ∧
    (u.coreAt c).vq = k.vq.filter (fun w => w.hart ≠ mine || w.ser ≤ h.ckptSer) ∧
    SameBytes s u ∧ (∀ m, m ≠ n → u.hartAt m = s.hartAt m) ∧ (∀ m, m ≠ c → u.coreAt m = s.coreAt m) ∧
    (u.coreAt c).mtag = k.mtag ∧ (∀ m, u.cycleAt m = s.cycleAt m) ∧
    u = { s with harts := u.harts, cores := u.cores, launches := u.launches, dies := u.dies, outputs := u.outputs } ∧
    (∀ i, i ≠ h.launchId → u.launchAt i = s.launchAt i) ∧
    (handled → v.sys.tr = ⟨t.cause, t.pc, t.info, t.aux⟩ ∧ v.sys.ts0 = h.sys.ts0 ∧ v.sys.ts1 = h.sys.ts1 ∧
      (h.r.inh = false → l.rc.trap ≠ 2 ^ 64 - 1 →
        let at0 := BitVec.ofNat 64 (s.codeBase h.launchId + l.rc.trap)
        v.sys.epc = h.sys.ckptpc ∧ v.r = { back with inh := true } ∧ v.pc = at0 ∧ v.mode = .running ∧ v.time.nextIssue = first ∧
        v.ck = some ⟨at0, h.ser, first, 0, .go, false⟩ ∧ u.launches = s.launches ∧ u.outputs = s.outputs) ∧
      (h.r.inh = true ∨ l.rc.trap = 2 ^ 64 - 1 → aborted t.cause)) ∧
    (t.welkin = true ∨ cause ∈ [22, 23, 24, 32, 80, 97] →
      (cause ≠ 80 ∨ h.poisonRetry = false →
        v.sys.tr = ⟨t.cause, t.pc, t.info, t.aux⟩ ∧ v.sys.saved = h.sys.tr ∧ v.mode = .welkin t ∧ v.r = back ∧ u.launches = s.launches ∧
        u.outputs = s.outputs ++ [.welkin n t]) ∧
      (t.welkin = false → cause = 80 → h.poisonRetry = true → v.sys.tr = ⟨81, t.pc, t.info, t.aux⟩ ∧ aborted 81)) ∧
    (t.welkin = false → cause ∈ [65, 66, 67, 68, 69, 70, 81, 83, 84] → v.sys.tr = ⟨t.cause, t.pc, t.info, t.aux⟩ ∧ aborted t.cause)

/-! ### Guards, bundles and encodings -/

/-- What does not depend on the operation (R19, R39, R40, R344): HALFOWN whatever the guard, POISON under a poisoned guard, and nothing at all under a
false one. -/
def Obligations.GuardsAndHalves : Prop :=
  ∀ (s : State) (i : Instr) (op code : Nat) (h : Head) (tail : Nat), encodeOp i = some (op, code, h, tail) →
    (∀ o k, i ≠ .unassignedOpcode h o k) →
    let owns := ∀ half ∈ (useOf i).halves, ownsHalf (s.core.gmode.toNat % 4) (decide (s.cur % 2 = 1)) half = true
    (¬owns → Traps i s 5 0 0) ∧ (owns → s.pPoi h.g = true → Traps i s 80 0 0) ∧
    (owns → s.pPoi h.g = false → s.p h.g = false → exec i s = .next s)

/-- NOP has no effect, and a write to x0, p0 or m0 is discarded (R46, R93). -/
def Obligations.NopAndHardwiredRegisters : Prop :=
  ∀ (s : State) (h : Head), Enabled s h →
    decodeOp (headWord h 0x066 0) 0 = .ok (.nop h) ∧ slotOfOp 0x066 = .as ∧ limitOf .as = 2 ∧ exec (.nop h) s = .next s ∧
    (∀ (v : Word) (m : Mask) (b poi : Bool) (lat : Nat), s.putX 0 v poi lat = s ∧ s.putP 0 b poi lat = s ∧ s.putM 0 m poi lat = s) ∧
    (∀ (n : HartId) (l : Landing), ((s.land n l).hartAt n).r.x[0] = (s.hartAt n).r.x[0]) ∧
    (∀ (pd pc : PReg) (xd xa xb : XReg) (i : BitVec 14), twice pd pc = true → ¬(pd = 0 ∧ pc = 0)) ∧
    (∀ (xd xa xb : XReg), decodeOp (headWord h 0x020 2) (encCR 0 0 xa xb) = .ok (.cmpeq h 0 0 xa xb) ∧
      exec (.cmpeq h 0 0 xa xb) s = .next s ∧
      (Latest s → ∀ pd : PReg, Computes (.cmpeq h pd 0 xa xb) s 1 (toP pd (s.x xa == s.x xb) (s.xPoi xa || s.xPoi xb))))

/-- The end of a bundle (R33, R37, R68, R86, R89, R165, R331): the next PC and when it may issue, the sticky flags, the return-address store, GMODE and
the checkpoint; and of two results of a bundle for one register, the one of the higher head. -/
def Obligations.BundleEnds : Prop :=
  ∀ (s : State),
    let h := s.hart
    let b := h.bun
    let u := s.finishBundle
    let k := u.hart
    let line := b.line.toNat / 64
    let at0 := fun t : Word => (if t.toNat / 64 = line ∨ t.toNat / 64 = line + 1 then b.at0 + 2 else b.at0 + 4) + b.slow
    let flag := fun (r : SysReg) (now : Word) (raised : Word) =>
      ((∀ w ∈ h.wq, w.dst ≠ .sys r) → ∀ c, (Reg.sys r).value (atCycle u c) = (now ||| raised).setWidth 256) ∧
      (∀ v c, h.drain = .no → h.wq = [⟨.sys r, v, BitVec.allOnes 256, false, c, h.ser, b.head⟩] →
        (Reg.sys r).value (atCycle u c) = (v.setWidth 64 ||| raised).setWidth 256)
    (∀ c n, (Hart.begin c n true h).bun.ft = BitVec.ofNat 64 (h.pc.toNat / 64 * 64 + 2 * (h.pc.toNat / 2 % 32 + n)) ∧
      (Hart.begin c n false h).bun.ft = BitVec.ofNat 64 (h.pc.toNat / 64 * 64 + 64)) ∧
    (b.npc = none → k.pc = b.ft ∧ k.time.nextIssue = max h.time.nextIssue (b.at0 + 1) ∧ k.fetch = h.fetch) ∧
    (∀ t, b.npc = some t → k.pc = t ∧ k.time.nextIssue = max h.time.nextIssue (at0 t) ∧ k.fetch.xferFrom = some h.pc) ∧
    flag .fpflags h.r.fpflags b.raisedF ∧ flag .vflags h.r.vflags b.raisedV ∧
    k.r.ras = b.nras.getD h.r.ras ∧ u.core.gmode = b.ngmode.getD s.core.gmode ∧ k.bundles = h.bundles + 1 ∧ k.ser = h.ser ∧
    (b.ckpt = none → k.ck = none) ∧
    (∀ a, b.ckpt = some a → ∃ c, k.ck = some ⟨k.pc, h.ser, c, b.reply, a, b.step⟩ ∧ b.at0 < c) ∧
    (∀ (hd : Head) (xd xa xb : XReg), Enabled s hd → (∃ w ∈ b.wrote, w.1 = .x xd ∧ w.2.1 = BitVec.allOnes 256 ∧ b.head < w.2.2) →
      Computes (.add hd xd xa xb) s 1 []) ∧
    ((∀ w ∈ h.wq, w.ser ≤ h.ser) → h.drain = .no → ∀ c n more, Latest (s.updHart (Hart.begin c n more))) ∧
    (Latest s → ∀ d v sel poi lat head, b.head ≤ head → Latest ((s.updHart fun x => { x with bun := { x.bun with head := head } }).push d v sel poi lat))

/-- Operations and a line that the spec writes out bit by bit (chapters 2, 3, 11, 13 and 16) decode to what they stand for, and the line is packed as it
is printed (R27 to R30, R48). -/
def Obligations.DecodesWrittenWords : Prop :=
  let e : Head := ⟨true, 0⟩
  let col := fun (half : Bool) (n : Fin 256) => (⟨half, .col, n⟩ : VOp)
  let row := fun (half : Bool) (n : Fin 256) => (⟨half, .row, n⟩ : VOp)
  let ops := [(0x000E, 0x00001C05), (0x800E, 0x00000C06), (0x0006, 0x000018A7), (0x8006, 0x000018C5), (0x8182, 0x00000020)]
  let line : List Byte := [0x0E, 0, 0x0E, 0x80, 0x06, 0, 0x06, 0x80, 0x82, 0x81] ++ List.replicate 34 0 ++
    [0x20, 0, 0, 0, 0xC5, 0x18, 0, 0, 0xA7, 0x18, 0, 0, 0x06, 0x0C, 0, 0, 0x05, 0x1C, 0, 0]
  decodeOp 0x000E 0xFFFFFC05 = .ok (.addi ⟨false, 0⟩ 5 0 (BitVec.ofInt 22 (-1))) ∧
  decodeOp 0x100A 0x000014C7 = .ok (.sub ⟨false, 2⟩ 7 6 5) ∧ decodeOp 0x9806 0x000018A7 = .ok (.add ⟨true, 3⟩ 7 5 6) ∧
  decodeOp 0x8182 0x00000005 = .ok (.br e 0 5) ∧ decodeOp 0x8196 0x00000060 = .ok (.loop e 3 0 0) ∧
  decodeOp 0x8063 0x0000080000018004 = .ok (.movi e 4 0x0000004000000C00) ∧ decodeOp 0x87D4 0 = .ok (.eret e) ∧
  decodeOp 0x8712 0x00000644 = .ok (.fwait e 2 3 4) ∧ decodeOp 0x8716 0x000000E6 = .ok (.fres e 6 7) ∧ decodeOp 0x870C 0 = .ok (.exit e) ∧
  decodeOp 0x8696 0 = .ok (.gzero e ⟨false, 0, 0, 0, 0⟩) ∧ decodeOp 0x0682 0x00001000 = .ok (.opaBf ⟨false, 0⟩ ⟨false, 0, 0, 0, 0⟩ 0 1) ∧
  decodeOp 0x8699 1 = .ok (.gwait e true false) ∧ decodeOp 0x8403 0x0007D001 = .ok (.qst e (row false 1) 2 true 0xF 0 0) ∧
  decodeOp 0x8552 0x00100408 = .ok (.vmov e ⟨row true 8, ⟨false, .dia, 0⟩, .w, 0⟩) ∧
  decodeOp 0x8483 0x000C000002880100 = .ok (.vadd e ⟨col false 0, col false 0, .scalar 10, .f32, 0⟩) ∧
  decodeOp 0x848F 0x00040A0240480D01 = .ok (.vfma e ⟨col true 1, col false 1, .vec (col false 1), .f32, 0⟩ (col true 1)) ∧
  decodeOp 0x8563 0x0008800005800C11 = .ok (.vrq e ⟨row true 17, row false 1, .scalar 22, .s8, 0⟩) ∧
  decodeOp 0x85C7 0x0000000000232000 = .ok (.vst e ⟨row false 0, 4, .g, .f32, 0, 0⟩ 0 false) ∧
  lineOf ops = line ∧ (∃ l, decodeLine line = .ok l ∧ l = ops) ∧ decodeTableWord 48 0x18A79806 = some (.add ⟨true, 3⟩ 7 5 6)

/-- Decoding an encoded instruction gives it back, with every operand at every value its encoding admits, and a line gives back the operations it was
packed from (R27 to R30, R41, R48). -/
def Obligations.DecodeEncode : Prop :=
  (∀ (i : Instr) (hw tail : Nat), i.wf = true → encode i = some (hw, tail) →
    hw < 2 ^ 16 ∧ tail < 2 ^ (8 * tailLen (hw % 4)) ∧ decodeOp hw tail = .ok i ∧
      decodeTableWord (16 + 8 * tailLen (hw % 4)) (hw + 2 ^ 16 * tail) = some i) ∧
  ∀ ops : List RawOp, ops ≠ [] → ops.length ≤ 32 → (∀ o ∈ ops, o.1 < 2 ^ 16 ∧ o.1 / 4 % 512 ≠ 0 ∧ o.2 < 2 ^ (8 * tailLen (o.1 % 4))) →
    (ops.map fun o => 2 + tailLen (o.1 % 4)).sum ≤ 64 → (∀ o ∈ ops.getLast?, o.1 / 2 ^ 15 = 1) →
    (lineOf ops).length = 64 ∧ ∃ l, decodeLine (lineOf ops) = .ok l ∧ l = ops

/-- Every head that decodes has the layout of R28, its guard 0 is always true, and its instruction encodes to the same head and tail: no two words of an
operation mean the same, but for the field CL of a SPAWN that names no cluster, and the tail of an unassigned opcode (R28, R41, R282). -/
def Obligations.HeadLayout : Prop :=
  (∀ (hw tail : Nat) (i : Instr), hw < 2 ^ 16 → tail < 2 ^ (8 * tailLen (hw % 4)) → decodeOp hw tail = .ok i →
    i.wf = true ∧ ∃ (op t : Nat) (h : Head) (tail' : Nat), encodeOp i = some (op, t, h, tail') ∧
      h.e = decide (hw / 2 ^ 15 % 2 = 1) ∧ h.g.val = hw / 2 ^ 11 % 2 ^ 4 ∧ op = hw / 2 ^ 2 % 2 ^ 9 ∧ t = hw % 2 ^ 2 ∧
      ((∀ g o k, i ≠ .unassignedOpcode g o k) → (∀ g xa, i ≠ .spawn g xa none ∧ i ≠ .spawnRes g xa none) → tail' = tail)) ∧
  ∀ s : State, s.p 0 = true ∧ s.pPoi 0 = false

/-! ### The step, memory and reset -/

/-- A step runs what the outside world asks for, and otherwise the operation that the bytes at the program counter decode to, with what a bundle adds
around it (R27 to R31, R42): the bundle begins, its operation runs, and the bundle ends. -/
def Obligations.StepRunsTheOperation : Prop :=
  (∀ (s : State) (i : Instr) (r : List Instr), s.inputs = i :: r → step s = exec i { s with inputs := r }) ∧
  ∀ (s : State) (n : HartId) (pre post : List CoreId) (bytes : List Byte) (ops : List RawOp) (hw tail : Nat) (i : Instr),
    s.inputs = [] → s.event = none → s.liveCores = pre ++ n / 2 :: post → (∀ c ∈ pre, s.issueCore c = none) →
    let other := if n % 2 = 1 then n - 1 else n + 1
    let s0 := { s with cur := n }
    let h := s0.hart
    let line := h.pc.toNat / 64 * 64
    let idx := h.pc.toNat / 2 % 32
    let b : BOp := ⟨idx, hw / 4 % 512, Fin.ofNat 16 (hw / 2048), i⟩
    (match s.ready other with | .wait => True | _ => False) → s0.mayIssue n = true →
    h.fetch.st = .idle → h.fetch.xferFrom = none → h.fetch.entered = some line → SMap.has h.fetch.icache line = true →
    SMap.look [] h.fetch.icache line = bytes → decodeLine bytes = .ok ops → ops[idx]? = some (hw, tail) → hw / 2 ^ 15 % 2 = 1 →
    decodeOp hw tail = .ok i → (∀ g o k, i ≠ .unassignedOpcode g o k) → isUnitOp i = false → s0.halfFault [b] = false →
    h.rearm = false → s0.bundleWaits [b] = false → s0.historyWaits [b] = false → s0.needsCkpt [b] = false →
    (s0.liveOps [b]).any (fun x => s0.lateWaits x.ins) = false →
    let s1 := s0.updHart fun k =>
      let k := Hart.begin s0.cycle 1 (decide (idx + 1 < ops.length)) k
      { k with bun := { k.bun with head := idx } }
    let s2 := if n % 2 = 1 ∧ (hasV [b] = true ∨ hasX [b] = true) then s1.updCore fun k => { k with losses := 0 } else s1
    (∀ u, exec i s2 = .next u → u.hart.bun.trap.isSome = true ∨ u.hart.rest = [] → step s = .next u.afterOps) ∧
    (∀ f, exec i s2 = .fault f → step s = .fault f)

/-- A write of bytes within a line is read back, and leaves every other byte of its memory and every other memory alone; a poisoned write marks its line,
a full clean one clears it, and a partial clean one keeps the mark (R129, R317, R381, R398). -/
def Obligations.MemoryReadsWhatWasWritten : Prop :=
  ∀ (s : State) (u : MemUnit) (a : Nat) (bs : List Byte) (poi : Bool), 0 < bs.length → a % 64 + bs.length ≤ 64 →
    let t := s.unitWrite u a bs poi
    let inside := fun b => a ≤ b ∧ b < a + bs.length
    let own := (∃ c, u = .tcm c) ∨ (∃ c, u = .spad c) ∨ (∃ d l, u = .sram d l) ∨ (∃ m, u = .remote m)
    let shadow := ∃ l, u = .shadow l ∧ (s.launchAt l).irrev = false ∧ ∀ e ∈ s.shadow, e.data.length = 64
    let place := (u = .hbm ∨ u = .place) ∧ (a < hbmEnd ∨ isColl a = true ∨ isMail a = true)
    (own ∨ shadow ∨ place → ∀ b, t.unitByte u b = if inside b then bs.getD (b - a) 0 else s.unitByte u b) ∧
    (own ∨ shadow → ∀ v b, v ≠ u → t.unitByte v b = s.unitByte v b) ∧
    (place → ∀ v b, (∃ c, v = .tcm c) ∨ (∃ c, v = .spad c) ∨ (∃ d l, v = .sram d l) ∨ (∃ m, v = .remote m) → t.unitByte v b = s.unitByte v b) ∧
    (own ∨ (place ∧ a < hbmEnd) →
      t.unitPoisoned u a = (poi || (s.unitPoisoned u a && !decide (bs.length = 64))) ∧
      ∀ b, b / 64 ≠ a / 64 → t.unitPoisoned u b = s.unitPoisoned u b)

/-- The machine right after reset (R6, R276, R291, R311, R312, R401, R402): no hart holds a launch, the register file and the tables are at the values the
spec gives, and every memory is empty and in canonical form. The values of registers for which the spec gives none are the model's choice (assumption
1). -/
def Obligations.ResetState : Prop :=
  let s := State.reset
  s.memWf ∧ s.mem.bytes = [] ∧ (∀ u a, s.unitByte u a = 0 ∧ s.unitPoisoned u a = false) ∧
  (∀ n, (s.hartAt n).mode = .off ∧ (s.hartAt n).launch = none ∧ (s.hartAt n).hardwired ∧ (s.hartAt n).r = (s.hartAt n).dup ∧
    (∀ k : Fin 32, (s.hartAt n).r.x[k] = 0) ∧ (∀ k : Fin 16, (s.hartAt n).r.p.getLsbD k.val = decide (k.val = 0)) ∧
    (∀ k : Fin 8, k.val ≠ 0 → (s.hartAt n).r.m[k] = 0) ∧ (s.hartAt n).r.vl = 256 ∧ (s.hartAt n).r.ras = [] ∧ (s.hartAt n).r.inh = false ∧
    (s.hartAt n).sys.txtag = 0) ∧
  (∀ p, (∀ k : Fin 8, (s.partAt p).reldl[k] = 2 ^ 40 - 1) ∧ (∀ q, (s.queueAt p q).period = 0) ∧
    (∀ i, (SMap.look ScopeEnt.reset (s.partAt p).scopes i).gen = 0 ∧ (SMap.look ScopeEnt.reset (s.partAt p).scopes i).openNow = false) ∧
    (∀ i, (SMap.look Slot.reset (s.partAt p).slots i).loaded = false)) ∧
  s.pkg.phase = .off ∧ s.pkg.cfg.domsize = 1 ∧ (∀ d < 8, s.partOf d = 0) ∧ s.launches = [] ∧ s.inputs = []

/-- Every step keeps HBM in its canonical form: addresses strictly rising, no listed byte equal to zero, poisoned lines rising. -/
def Obligations.StepKeepsMemoryCanonical : Prop :=
  ∀ (s t : State), s.memWf → step s = .next t → t.memWf

/-! ### Accesses on their way -/

/-- What a performed load takes (R121, R124, R127, R208, R433): the bytes of its location, or of the hart's own withheld stores, extended as its type
says; nothing else changes. -/
def Obligations.LoadsReadMemory : Prop :=
  ∀ (s : State) (n : HartId) (l : Landing) (e : Elem) (loc : Loc) (ty : Ty),
    l.elems = [e] → e.loc = some loc → l.failed = none → e.own.length = e.size → l ∈ (s.hartAt n).land →
    (∀ x ∈ (s.hartAt n).land, x.id = l.id → x = l) → s.elemDue n l e = true →
    let byte := fun i => match e.own[i]? with | some (some b) => b | _ => s.unitByte loc.unit (loc.addr + i)
    let v := leNat ((List.range e.size).map byte)
    let poi := e.ownPoi || (e.own.any (fun b => b.isNone) && s.locPoisoned loc e.size)
    let t := s.performLoad n l
    let late := s.now + (s.loadLatency n loc - (s.loadLatency n loc + 1) / 2) + l.extra
    let read : Elem := { e with took := some ((List.range e.size).map byte, poi) }
    let takes := fun w => t = { s with harts := t.harts } ∧ (∀ m, m ≠ n → t.hartAt m = s.hartAt m) ∧
      t.hartAt n = { s.hartAt n with
        land := (s.hartAt n).land.map fun x => if x.id = l.id
          then { l with elems := [read], res := some w, drange := false, arriveAt := if e.perfAt < s.now then max l.arriveAt late else l.arriveAt }
          else x }
    (e.idx = 0 → ∀ r, l.kind = .scalar r ty → takes [⟨some r, 0, ty.extend v, poi⟩]) ∧
    (∀ vd bo, l.kind = .vector vd ty bo → ∃ c : Cell, takes [⟨none, vd.cell e.idx, c.setWidth 64, poi⟩] ∧
      (ty ∈ [.w, .f32, .s32, .z32] → c = BitVec.ofNat 32 v) ∧ (ty = .s16 → c = (BitVec.ofNat 16 v).signExtend 32) ∧
      (ty = .z16 → c = BitVec.ofNat 32 (v % 2 ^ 16)) ∧ (ty = .s8 → c = (BitVec.ofNat 8 v).signExtend 32) ∧
      (ty = .z8 → c = BitVec.ofNat 32 (v % 2 ^ 8)) ∧ (ty = .bf → c = BitVec.ofNat 32 (v % 2 ^ 16 * 2 ^ 16)) ∧
      (ty = .s6 → c = (BitVec.ofNat 6 (v / 2 ^ ((2 * bo + 6 * e.idx) % 8))).signExtend 32) ∧
      (ty = .z6 → c = BitVec.ofNat 32 (v / 2 ^ ((2 * bo + 6 * e.idx) % 8) % 64))) ∧
    (ty ∈ [.w] → ty.extend v = BitVec.ofNat 64 v) ∧ (ty = .s8 → ty.extend v = (BitVec.ofNat 8 v).signExtend 64) ∧
    (ty = .s16 → ty.extend v = (BitVec.ofNat 16 v).signExtend 64) ∧ (ty = .s32 → ty.extend v = (BitVec.ofNat 32 v).signExtend 64) ∧
    (ty = .z8 → ty.extend v = BitVec.ofNat 64 (v % 2 ^ 8)) ∧ (ty ∈ [.z16, .bf, .h] → ty.extend v = BitVec.ofNat 64 (v % 2 ^ 16)) ∧
    (ty ∈ [.z32, .f32] → ty.extend v = BitVec.ofNat 64 (v % 2 ^ 32))

/-- DATA_WALK_END (R112, R114, R115, R126) completes for every request whose walk ends: the translation enters the buffer and the located request is
sent, or held back by an acquire (R135, R145); or the walk's fault ends the request, and a PREF is dropped. MEMORY_TIMEOUT (R101) completes for every
request without an answer: the error that it raises. DATA_ARRIVAL and LANDING (R95, R97, R99 to R101, R115, R186) complete for every request that is
answered, or lands, alone on its core: the data that arrives, or the error in which the request ends; the freeze while the data of a landing is
missing, and its write to a register or to the grid. -/
def Obligations.LoadsLand : Prop :=
  (∀ (s : State) (n : HartId) (l : Landing), n < 1024 →
      let c := n / 2
      let h := s.hartAt n
      let k := s.coreAt c
      let drop := { h with land := h.land.filter fun x => x.id ≠ l.id }
      let only := fun (t : State) => t = { s with harts := t.harts, cores := t.cores } ∧ (∀ m, m ≠ n → t.hartAt m = s.hartAt m) ∧
        ∀ m, m ≠ c → t.coreAt m = s.coreAt m
      let placed := fun (ent : TlbEnt) => { k with dtlb := (k.dtlb.filter fun y => y.base ≠ ent.base) ++ [ent] }
      let root := fun (e : Elem) => s.walkRoot (n / 128) k.dptroot false .load e.va.toNat
      (l ∈ h.land → (∀ x ∈ h.land, x.id = l.id → x = l) →
        (∀ e x, l.walking = true → l.elems = [e] → x ∈ h.xl → (∀ y ∈ h.xl, y.id = l.id → y = x) → x.id = l.id → x.walking = true → x.due ≤ s.now →
          (match l.kind with | .blocks .. | .pref => False | _ => True) →
          s.translate n h.launchId .g .load e.size e.va = .walk → s.walkHeld n k.dptroot e.va.toNat = false →
          (∀ reason level, root e = .error (reason, level) →
            ∃ t, exec (.dataWalkEnd n l.id) s = .next t ∧ only t ∧ t.coreAt c = k ∧
              t.hartAt n = { drop with
                xl := h.xl.map fun y => if y.id = l.id
                  then { y with walking := false, due := s.now, fault := some ⟨22, l.pc, e.va, auxMem reason level l.space .load l.head, false⟩ } else y }) ∧
          (∀ ent, root e = .ok ent → k.dtlb.length < 512 →
            ∃ t r, exec (.dataWalkEnd n l.id) s = .next t ∧ only t ∧ t.coreAt c = placed ent ∧
              t.hartAt n = { h with
                land := h.land.map fun y => if y.id = l.id then r else y
                xl := h.xl.map fun y => if y.id = l.id then { y with walking := false, due := s.now } else y } ∧
              r.kind = l.kind ∧ r.due = l.due ∧ r.walking = false ∧
              (∃ d, r.elems = [d] ∧ d.va = e.va ∧ d.loc = some (s.reach n (s.checkMap ⟨.hbm, ent.frame + e.va.toNat % 2 ^ ent.bits⟩))) ∧
              (l.sent = false → (r.sent = true ↔ ¬ ∃ a ∈ h.land, a.gate = true ∧ a.ser < l.ser ∧ a.arrived = false)))) ∧
        (∀ e, l.walking = true → l.elems = [e] → l.kind = .pref → l.arriveAt ≤ s.now →
          s.translate n h.launchId .g .load e.size e.va = .walk → s.walkHeld n k.dptroot e.va.toNat = false →
          (∀ x, root e = .error x → ∃ t, exec (.dataWalkEnd n l.id) s = .next t ∧ only t ∧ t.coreAt c = k ∧ t.hartAt n = drop) ∧
          (∀ ent, root e = .ok ent → k.dtlb.length < 512 →
            ∃ t, exec (.dataWalkEnd n l.id) s = .next t ∧ only t ∧ t.coreAt c = placed ent ∧ t.hartAt n = drop)) ∧
        (∀ e, l.arrived = false → l.cyc = false → l.elems = [e] →
          exec (.memoryTimeout n l.id) s = .next ((s.updHartAt n fun _ => drop).takeTrap n
            ⟨24, l.pc, e.va, auxMem 6 7 l.space (if l.unitOp then .atomic else .load) l.head, false⟩))) ∧
      (∀ f ∈ s.flights, (∀ x ∈ s.flights, x.hart = n → x.id = f.id → x = f) → f.hart = n → f.eng = false → h.launch = some f.launch →
        (∀ x ∈ h.land, x.id = f.id → x.arrived = true ∨ x.cyc = true) →
        exec (.memoryTimeout n f.id) s = .next ({ s with flights := s.flights.filter fun x => x.id ≠ f.id }.takeTrap n
          { f.err with aux := BitVec.ofNat 64 (f.err.aux.toNat % 2 ^ 12 + 6 * 2 ^ 12) })) ∧
      ∀ id, (∀ x ∈ h.land, x.id ≠ id) →
        exec (.dataWalkEnd n id) s = .next s ∧ ((∀ f ∈ s.flights, f.hart = n → f.id ≠ id) → exec (.memoryTimeout n id) s = .next s)) ∧
  ∀ (s : State) (n : HartId) (l : Landing), n < 1024 → l ∈ (s.hartAt n).land → (∀ x ∈ (s.hartAt n).land, x.id = l.id → x = l) →
      let c := n / 2
      let h := s.hartAt n
      let k := s.coreAt c
      let other := if n % 2 = 1 then n - 1 else n + 1
      let left := h.land.filter fun x => x.id ≠ l.id
      let seen := h.xl.map fun y => if y.id = l.id then { y with walking := false, due := s.now } else y
      let only := fun (t : State) => t = { s with harts := t.harts, cores := t.cores, freeCtr := t.freeCtr } ∧ (∀ m, m ≠ n → t.hartAt m = s.hartAt m) ∧
        ∀ m, m ≠ c → t.coreAt m = s.coreAt m
      let landed := if l.rem.isSome then h.land.map fun x => if x.id = l.id then { l with landed := true } else x else left
      (l.sent = true → l.arrived = false → l.walking = false → l.res.isSome = true → l.cyc = false → l.arriveAt ≤ s.now →
        (∀ x ∈ h.land, x ≠ l → s.arrivesNow n x = false) → (∀ x ∈ (s.hartAt other).land, s.arrivesNow other x = false) →
        (l.failed = none → l.silent = false →
          ∃ t, exec (.dataArrival c) s = .next t ∧ only t ∧ t.coreAt c = k ∧
            t.hartAt n = { h with land := h.land.map fun x => if x.id = l.id then { l with arrived := true } else x, xl := seen }) ∧
        (l.failed = none → l.silent = true → l.rem = none →
          ∃ t, exec (.dataArrival c) s = .next t ∧ only t ∧ t.coreAt c = k ∧ t.hartAt n = { h with land := left, xl := seen }) ∧
        (∀ e x, l.failed = some x → l.elems = [e] →
          exec (.dataArrival c) s = .next ((s.updHartAt n fun h => { h with land := left }).takeTrap n
            ⟨24, l.pc, e.va, auxMem (match x with | .timeout => 6 | .linkLost => 7 | .errorResponse => 8) 7 l.space
              (if l.unitOp then .atomic else .load) l.head, false⟩))) ∧
      (s.dueLandings n = [l] → s.dueLandings other = [] →
        (l.arrived = false → ∃ t, exec (.landing c) s = .next t ∧ only t ∧ t.hartAt n = h ∧ t.coreAt c = { k with frozen := true }) ∧
        (∀ r v poi, l.arrived = true → l.res = some [⟨some r, 0, v, poi⟩] → l.drange = false →
          ∃ t, exec (.landing c) s = .next t ∧ only t ∧ t.coreAt c = { k with frozen := false } ∧
            t.hartAt n = { h with r := (t.hartAt n).r, land := landed } ∧
            (t.hartAt n).r = { h.r with x := (t.hartAt n).r.x, xPoi := (t.hartAt n).r.xPoi } ∧
            ∀ i : Fin 32, (t.hartAt n).r.x[i] = (if i = r ∧ r ≠ 0 then v else h.r.x[i]) ∧
              (t.hartAt n).r.xPoi.getLsbD i.val = (if i = r ∧ r ≠ 0 then poi else h.r.xPoi.getLsbD i.val)) ∧
        (∀ ws, l.arrived = true → l.res = some ws → ws ≠ [] → (∀ w ∈ ws, w.reg = none ∧ w.cell < 131072) → (ws.map fun w => w.cell).Nodup →
          (∀ w ∈ ws, k.inFlight w.cell = false ∧ w.cell ∉ l.clash) → l.drange = false →
          ∃ t, exec (.landing c) s = .next t ∧ only t ∧ t.hartAt n = { h with land := landed } ∧
            (∀ w ∈ ws, (t.coreAt c).cell w.cell = ⟨w.val.setWidth 32, w.poi⟩) ∧
            (∀ i, i ∉ ws.map (fun w => w.cell) → (t.coreAt c).cell i = k.cell i) ∧
            (∀ w ∈ ws, ∃ e ∈ (t.coreAt c).hist, e.hart = decide (n % 2 = 1) ∧ e.group = w.cell / 128) ∧
            t.coreAt c = { k with
              frozen := false, grid := (t.coreAt c).grid, dirty := (t.coreAt c).dirty, hist := (t.coreAt c).hist, eng := (t.coreAt c).eng }))

/-- STORE_PERFORM and ATOMIC_PERFORM (R129 to R133, R149, R150, R319, R433): the bytes that are written when an access takes its place at its ordering
point, the old value that it returns, and the access that waits for shadow room. `MemoryReadsWhatWasWritten` and `AtomicValues` say what the write and
the value are. -/
def Obligations.AccessesPerform : Prop :=
  ∀ (s : State) (f : Flight), f ∈ s.flights → (∀ x ∈ s.flights, x.id = f.id → x = f) → s.performsFlight f = true →
    let h := s.hartAt f.hart
    let event := match f.kind with | .store _ => Instr.storePerform f.id | _ => Instr.atomicPerform f.id
    let room := s.noRoom f.launch f.kind.locs
    let marked := fun (t : State) => t.flights = s.flights.map fun x => if x.id = f.id
      then { x with performed := true, wait := false, ackAt := max f.ackAt (s.now + (f.ackAt - f.perfAt)) } else x
    let memory := fun (t u : State) => (∀ v a, t.unitByte v a = u.unitByte v a) ∧ ∀ v a, t.unitPoisoned v a = u.unitPoisoned v a
    let found := fun land kind => ∀ i, f.land = some i → (h.land.find? fun x => x.id = i) = some land ∧ land.kind = kind ∧ land.got = [] ∧ land.parts ≤ 1
    let filled := fun (t : State) w => ∀ i, f.land = some i → t.hartAt f.hart = { h with
      land := h.land.map fun x => if x.id = i
        then { x with got := w, parts := x.parts - 1, res := some w,
                      arriveAt := max x.arriveAt (if f.perfAt < s.now then s.now + (f.ackAt - f.perfAt) else s.now) }
        else x }
    let plain := fun (l : Loc) bytes => ∀ d i, l.unit = .sram d i → (s.halloc d i).waits l.addr bytes = false
    (room = true → ∃ t, exec event s = .next t ∧ (t.launchAt f.launch).overflow = true ∧ memory t s ∧
      t.flights = (s.flights.map fun x => if x.id = f.id then { x with wait := true } else x) ∧
      t = { s with launches := t.launches, flights := t.flights }) ∧
    (room = false →
      (∀ e, f.kind = .store [e] → (∀ c, e.loc.unit ≠ .tcm c) → plain e.loc e.data.length →
        ∃ t, exec event s = .next t ∧ marked t ∧ memory t (s.unitWrite e.loc.unit e.loc.addr e.data e.poi) ∧ t.harts = s.harts ∧
          t.cores = s.cores) ∧
      (∀ e c, f.kind = .store [e] → e.loc.unit = .tcm c → (∀ q : Fin 8, ((s.coreAt c).queues.get q).sz = 0) →
        ∃ t, exec event s = .next t ∧ marked t ∧ memory t (s.unitWrite e.loc.unit e.loc.addr e.data e.poi) ∧ t.harts = s.harts) ∧
      (∀ k w loc b x land r ty, f.kind = .amo k w loc b x → found land (.scalar r ty) → f.land.isSome = true → plain loc w →
        ∃ t, exec event s = .next t ∧ marked t ∧
          filled t [⟨some r, 0, ty.extend (s.locNat loc w), s.locPoisoned loc w⟩] ∧
          (∀ v, AtomKind.apply k w (s.locNat loc w) b.toNat x.toNat = some v → memory t (s.unitWrite loc.unit loc.addr (leBytes w v) false)) ∧
          (AtomKind.apply k w (s.locNat loc w) b.toNat x.toNat = none → ∀ v a, t.unitByte v a = s.unitByte v a)) ∧
      (∀ k i loc v land vd, f.kind = .vamo k false [(i, loc, v)] → found land (.old vd) → f.land.isSome = true →
        ∃ t, exec event s = .next t ∧ marked t ∧
          filled t [⟨none, vd.cell i, BitVec.ofNat 64 (s.locNat loc 4), s.locPoisoned loc 4⟩] ∧
          ∀ w, AtomKind.apply k 4 (s.locNat loc 4) v.toNat 0 = some w → memory t (s.unitWrite loc.unit loc.addr (leBytes 4 w) false)))

/-! ### Events of a hart -/

/-- CHECKPOINT_COMPLETE and BUNDLE_LIMIT_CHECKPOINT (R125, R218, R331 to R333, R361, R434): what a completed checkpoint keeps, releases, clears and frees,
and the thresholds that request one. -/
def Obligations.CheckpointsComplete : Prop :=
  ∀ (s : State) (n : HartId), n < 1024 →
    let c := n / 2
    let mine := decide (n % 2 = 1)
    let h := s.hartAt n
    let k := s.coreAt c
    (∀ ck, s.ckptReady n = true → h.ck = some ck → ck.after = .go ∨ (∃ lo hi all, ck.after = .icinv lo hi all) ∨ ck.after = .stop →
      ck.step = false ∨ h.stopReq = false →
      ∃ t sent, exec (.checkpointComplete n) s = .next t ∧
        (let v := t.hartAt n
         v.r = (Hart.settle (s.cycleAt c) h).r ∧ v.dup = v.r ∧ v.ckptSer = ck.ser ∧ v.sys.ckptpc = ck.pc ∧ v.bundles = 0 ∧ v.ck = none ∧
         v.poisonRetry = false ∧ v.wh = h.wh.filter (fun w => ck.ser < w.ser) ∧ v.atoms = h.atoms.filter (fun a => ck.ser < a.ser) ∧
         v.mode = (if ck.after = .stop then .stopped else h.mode)) ∧
        t.flights = s.flights ++ sent ∧ (∀ f ∈ sent, f.hart = n ∧ f.performed = false ∧ f.sentAt = s.now) ∧
        (∀ w ∈ h.wh, w.ser ≤ ck.ser → ∀ e ∈ w.elems, ∃ f ∈ sent, ∃ es, f.kind = .store es ∧ e ∈ es) ∧
        (∀ a ∈ h.atoms, a.ser ≤ ck.ser → (∀ op ra lanes, a.kind ≠ .vamo op ra lanes) → ∃ f ∈ sent, f.kind = a.kind ∧ f.land = a.land) ∧
        (∀ a ∈ h.atoms, a.ser ≤ ck.ser → ∀ op ra lanes, a.kind = .vamo op ra lanes →
          ∀ x ∈ lanes, ∃ f ∈ sent, ∃ part, f.kind = .vamo op ra part ∧ x ∈ part ∧ f.land = a.land) ∧
        (t.coreAt c).hist = k.hist.filter (fun e => e.hart ≠ mine) ∧
        (∀ q : Fin 8, ((s.coreAt c).queues.get q).owner = mine → ∀ e ∈ ((t.coreAt c).queues.get q).ents, ∀ x, e.tent = some x → ck.ser < x) ∧
        SameBytes s t ∧ t = { s with harts := t.harts, cores := t.cores, flights := t.flights, fresh := t.fresh } ∧
        (∀ m, m ≠ c → t.coreAt m = s.coreAt m) ∧
        ((∀ lo hi all, ck.after ≠ .icinv lo hi all) → ∀ m, m ≠ n → t.hartAt m = s.hartAt m) ∧
        ∀ lo hi all, ck.after = .icinv lo hi all → ∀ m, s.partOf (m / 128) = s.partOf (n / 128) → ∀ x ∈ (t.hartAt m).fetch.icache,
          all = false ∧ ¬(lo < x.1 + 64 ∧ x.1 < hi)) ∧
    (h.mode = .running → h.ck = none → h.rest = [] →
      4096 ≤ h.bundles ∨ 192 ≤ (k.hist.filter fun e => e.hart = mine).length ∨ 192 ≤ (h.wh.map fun w => w.slots).sum →
      exec (.bundleLimitCheckpoint n) s =
        .next (s.updHartAt n fun x => { x with ck := some ⟨h.pc, h.ser, max (s.cycleAt c) (h.bun.at0 + 1), 0, .go, false⟩ }))

/-- FETCH_WALK_END, ICACHE_FILL, WELKIN_RESUME, DEBUG_HOLD, DEBUG_RESUME and SRAMERR (R112, R117, R342, R344, R345, R359). When the Welkin core
resumes a hart and when it aborts the launch is the model's choice (log 36). -/
def Obligations.HartEvents : Prop :=
  ∀ (s : State) (n : HartId), n < 1024 →
    let c := n / 2
    let h := s.hartAt n
    let k := s.coreAt c
    let idle := s.updHartAt n fun x => { x with fetch := { x.fetch with st := .idle } }
    (∀ va due, h.fetch.st = .walk va due → due ≤ s.now → s.walkHeld n k.iptroot (va.toNat % 2 ^ 57) = false →
      (∀ reason level, s.walkRoot (n / 128) k.iptroot true .fetch (va.toNat % 2 ^ 57) = .error (reason, level) →
        exec (.fetchWalkEnd n) s =
          .next (idle.takeTrap n ⟨23, h.pc, h.pc, auxMem reason level .g .fetch (h.pc.toNat / 2 % 32), false⟩)) ∧
      (∀ ent, s.walkRoot (n / 128) k.iptroot true .fetch (va.toNat % 2 ^ 57) = .ok ent → k.itlb.length < 64 →
        exec (.fetchWalkEnd n) s =
          .next (idle.updCoreAt c fun x => { x with itlb := (k.itlb.filter fun y => y.base ≠ ent.base) ++ [ent] }))) ∧
    (∀ line pa due, h.fetch.st = .fill line pa due → due ≤ s.now → s.lineCommits (pa / 64) = false →
      (∀ e, s.fillError n pa = some e → exec (.icacheFill n) s =
        .next (idle.takeTrap n ⟨24, h.pc, h.pc, auxMem (match e with | .timeout => 6 | .linkLost => 7 | .errorResponse => 8) 7 .g .fetch
          (h.pc.toNat / 2 % 32), false⟩)) ∧
      (s.fillError n pa = none → s.physPoisoned pa = true → exec (.icacheFill n) s = .next (idle.takeTrap n ⟨80, h.pc, 0, 0, false⟩)) ∧
      (s.fillError n pa = none → s.physPoisoned pa = false → ∃ t, exec (.icacheFill n) s = .next t ∧ t = { s with harts := t.harts } ∧
        (∀ m, m ≠ n → t.hartAt m = s.hartAt m) ∧ t.hartAt n = { h with fetch := { h.fetch with st := .idle, icache := (t.hartAt n).fetch.icache } } ∧
        SMap.look [] (t.hartAt n).fetch.icache line = (List.range 64).map (fun i => s.physByte (pa + i)) ∧
        (h.fetch.icache.length < 512 → ∀ a, a ≠ line → SMap.look [] (t.hartAt n).fetch.icache a = SMap.look [] h.fetch.icache a))) ∧
    (∀ tr, h.mode = .welkin tr → tr.cause ≠ 32 → tr.cause ≠ 51 →
      ∃ t ck, exec (.welkinResume n) s = .next t ∧ t = { s with harts := t.harts, cores := t.cores } ∧
        (∀ m, m ≠ n → t.hartAt m = s.hartAt m) ∧ (∀ m, m ≠ c → t.coreAt m = s.coreAt m) ∧ t.coreAt c = { k with dtlb := [], itlb := [] } ∧
        (let v := t.hartAt n
         v.sys = { h.sys with tr := h.sys.saved } ∧ v.pc = h.sys.ckptpc ∧ v.mode = .running ∧ v.ck = some ck ∧ ck.pc = h.sys.ckptpc ∧
         ck.ser = h.ser ∧ v.r = h.r ∧ v.dup = h.dup)) ∧
    (∀ tr, h.mode = .welkin tr → tr.cause = 32 ∨ tr.cause = 51 → (s.launchAt h.launchId).cause = 0 →
      ∃ t, exec (.welkinResume n) s = .next t ∧ (t.hartAt n).mode = .stopped ∧ (t.launchAt h.launchId).cause = tr.cause.toNat ∧
        (t.launchAt h.launchId).trapPc = tr.pc ∧ (t.launchAt h.launchId).trapInfo = tr.info) ∧
    (∃ t, exec (.debugHold n) s = .next t ∧ t = { s with pkg := { s.pkg with held := t.pkg.held } } ∧
      ∀ m, m ∈ t.pkg.held ↔ m = n ∨ m ∈ s.pkg.held) ∧
    (∃ t, exec (.debugResume n) s = .next t ∧ t = { s with pkg := { s.pkg with held := t.pkg.held } } ∧
      ∀ m, m ∈ t.pkg.held ↔ m ≠ n ∧ m ∈ s.pkg.held) ∧
    (∀ owner, owner < 512 → h.launch.isSome = true → (s.launchAt h.launchId).cause = 0 →
      ∃ t, exec (.sramerr n owner) s = .next t ∧ (t.coreAt owner).fenced = true ∧ (t.hartAt n).mode = .stopped ∧
        (t.launchAt h.launchId).cause = 84 ∧ (t.launchAt h.launchId).retryable = true ∧ SameBytes s t)

/-! ### Engines at work -/

/-- ENGINE_FIRE, QPUSH_FIRE and QPOP_FIRE (R163, R218, R225, R226, R257, R260 to R262, R265, R334): the entries that the operation pops, its service and
completion cycles, and the groups that the history buffer records. -/
def Obligations.EngineOperationsFire : Prop :=
  ∀ (s : State) (c : CoreId) (e : EngOp), c < 512 → e ∈ (s.coreAt c).eng → (∀ x ∈ (s.coreAt c).eng, x.id = e.id → x = e) →
    s.fires c e = true →
    let n := 2 * c + if e.hart then 1 else 0
    let h := s.hartAt n
    let k := s.coreAt c
    let t := s.cycleAt c
    let split := k.gmode.toNat % 4 = 1
    let cells := fun w : Window => (64 * 2 ^ w.rs.val) * (64 * 2 ^ w.cs.val)
    let sides := fun w : Window => 64 * 2 ^ w.rs.val + 64 * 2 ^ w.cs.val
    let event := match e.kind with | .qpush .. => Instr.qpushFire c e.id | .qpop .. => Instr.qpopFire c e.id | _ => Instr.engineFire c e.id
    let array := match e.kind with | .qpush .. | .qpop .. => false | _ => true
    let service := match e.kind with
      | .opaBf w _ _ => max (cells w / 8192) ((2 * sides w + 255) / 256)
      | .opaH w _ _ => max (cells w / 4096) ((2 * sides w + 255) / 256)
      | .opaN6 w _ _ => max (cells w / 8192) ((4 * sides w + 255) / 256)
      | .gzero w => max (cells w / 8192) 1
      | .stld .. => 64
      | _ => 1
    let last := t + (if split then 2 else 1) * (service - 1)
    let done := match e.kind with
      | .vmt .. => last + 8
      | .stld .. => last + 1
      | .qpop _ _ _ vl => t + if 128 < vl then 3 else 2
      | .qpush .. => t + 2
      | _ => last + 6
    let from_ := fun q i => ((waiting k q)[i]?)
    let pops : List (Option QEnt × QReg) := match e.kind with
      | .opaBf _ a b | .opaH _ a b => [(from_ a 0, a), (from_ b (if a = b then 1 else 0), b)]
      | .opaN6 _ a b => if a = b then [(from_ a 0, a), (from_ a 1, a), (from_ a 2, a), (from_ a 3, a)]
          else [(from_ a 0, a), (from_ a 1, a), (from_ b 0, b), (from_ b 1, b)]
      | .vmt _ q _ | .stld q _ | .qpop _ q _ _ => [(from_ q 0, q)]
      | .qpush .. | .gzero .. => []
    let marked := fun f : Marks → Bool => pops.any fun x => x.1.any fun y => f y.marks
    (marked (fun m => m.sel.isSome) = false →
      ∃ u e', exec event s = .next u ∧ OfCore s u c ∧ u.fresh = s.fresh ∧ u.freeCtr = s.freeCtr ∧
        (∀ m, m ≠ n → u.hartAt m = s.hartAt m) ∧
        (u.coreAt c).eng = k.eng.map (fun x => if x.id = e.id then e' else x) ∧
        e' = { e with fire := some t, last := e'.last, done := done, ops := e'.ops, raw := e'.raw, sums := e'.sums, marks := e'.marks, stride := (if split then 2 else 1) } ∧
        (array = true → e'.last = last) ∧
        e'.marks.poi = (marked (fun m => m.poi) || match e.kind with | .vmt .. => h.r.tile.poi | _ => false) ∧
        e'.ops.length = pops.length ∧
        (∀ j y q, pops[j]? = some (some y, q) → ∀ i, i < 256 → (e'.ops.getD j []).getD i 0 = half16 (entry k q y) i) ∧
        (∀ r q f vl y, e.kind = .qpop r q f vl → from_ q 0 = some y → e'.raw = entry k q y) ∧
        (∀ r q g y, e.kind = .vmt r q g → from_ q 0 = some y → e'.sums = (List.range 64).map fun j =>
          vmtDot ((List.range 128).map fun i => operandOf h.r.tile.f16 (half16 (entry k q y) i))
            ((List.range 128).map fun i => operandOf h.r.tile.f16 (SMap.look 0 h.r.tile.s (64 * i + j)))) ∧
        (∀ q, waiting (u.coreAt c) q = (waiting k q).drop (pops.filter fun x => x.2 = q).length) ∧
        u.coreAt c = { k with
          eng := (u.coreAt c).eng, queues := (u.coreAt c).queues, hist := (u.coreAt c).hist
          recheck := if array then k.recheck.map (fun r => if r.matrix && r.id = e.id then { r with ready := last + 1 } else r) else k.recheck
          arrayNext := if array = false then k.arrayNext
            else if split then (if e.hart then (k.arrayNext.1, last + 1) else (last + 1, k.arrayNext.2)) else (last + 1, last + 1) } ∧
        (let mine := fun x : HistEnt => x.hart = e.hart
         (e.ser ≤ h.ckptSer → ∀ x ∈ (u.coreAt c).hist, ∃ y ∈ k.hist, { x with asked := y.asked } = y) ∧
         (h.ckptSer < e.ser → ∀ i, i < 131072 → e.willWrite i = true → ∃ x ∈ (u.coreAt c).hist, mine x ∧ x.group = i / 128) ∧
         (∀ y ∈ k.hist, ∃ x ∈ (u.coreAt c).hist, { x with asked := y.asked } = y) ∧
         ∀ x ∈ (u.coreAt c).hist, (∃ y ∈ k.hist, { x with asked := y.asked } = y) ∨
           (mine x ∧ x.old = (List.range 128).map fun j => k.cell (128 * x.group + j))) ∧
        (let seen := marked fun m => m.drange
         (∀ w ∈ h.wq, w.dst ≠ .sys .vflags) → u.hartAt n = { h with
           r := if seen then { h.r with vflags := h.r.vflags ||| 2 } else h.r
           dup := if seen ∧ e.ser ≤ h.ckptSer then { h.dup with vflags := h.dup.vflags ||| 2 } else h.dup
           time := match e.kind with | .qpush .. => { h.time with xNext := max h.time.xNext (t + 1) } | _ => h.time })) ∧
    (∀ f, (pops.findSome? fun x => x.1.bind fun y => y.marks.sel) = some f →
      exec event s = .next (s.takeTrap n ⟨32, e.pc, f.1, BitVec.ofNat 64 (e.head + 2 ^ 10 + 2 ^ 12 * f.2), false⟩))

/-- ENGINE_COMPLETE, QPOP_GROUP_WRITE, V_WRITE_COMPLETE and QST_BLOCK_PUSH (R166, R171, R181, R186, R214, R218, R225, R226, R258, R262, R265, R266, R268):
the cells, the tile and the entries that are written. A cell that an earlier operation has still to write follows later (R262), and an operation stays
while an earlier one of its rows does (R182). A cell of which R183 leaves the value open (a member of `spoil`) takes a free value: no claim is made
about it. -/
def Obligations.EngineOperationsComplete : Prop :=
  ∀ (s : State) (c : CoreId), c < 512 →
    let k := s.coreAt c
    let at_ := fun half row col => (if half then 65536 else 0) + 256 * row + col
    let sent := fun n ser => if ser ≤ (s.hartAt n).ckptSer then none else some ser
    let pushed := fun (u : State) q (bytes : List Byte) (x : QEnt) tent poi drange =>
      let qu := k.queues.get q
      let size := (qu.es.toNat + 1) * 16
      let slots := if qu.sz = 0 then 0 else 2 ^ (qu.sz.toNat + 9) / size
      let base := 1024 * qu.base.toNat + x.slot % max slots 1 * size
      x = ⟨qu.freeSlot, tent, s.now, false, none, false, ⟨none, poi, drange⟩⟩ ∧
      ((∀ y ∈ qu.ents, y.slot ≠ qu.next % max slots 1) → x.slot = qu.next % max slots 1) ∧
      (∀ r, (u.coreAt c).queues.get r = if r = q then { qu with next := x.slot + 1, ents := qu.ents ++ [x] } else k.queues.get r) ∧
      ∀ a, (u.coreAt c).tcm.byte a = if base ≤ a ∧ a < base + size then bytes.getD (a - base) 0 else k.tcm.byte a
    (∀ e ∈ k.eng, (∀ x ∈ k.eng, x.id = e.id → x = e) →
      let n := 2 * c + if e.hart then 1 else 0
      let h := s.hartAt n
      let grid := fun (u : State) (dst : List (Nat × GCell)) =>
        OfCore s u c ∧ u.coreAt c = { k with grid := (u.coreAt c).grid, dirty := (u.coreAt c).dirty, hist := (u.coreAt c).hist, eng := (u.coreAt c).eng } ∧
        (∀ m, u.hartAt m = { s.hartAt m with land := (u.hartAt m).land }) ∧
        (∀ m, (u.hartAt m).land.map (fun l => { l with clash := [] }) = (s.hartAt m).land.map fun l => { l with clash := [] }) ∧
        (h.ckptSer < e.ser → (u.coreAt c).hist = k.hist) ∧
        (∀ x ∈ dst, x.1 ∉ e.spoil → (u.coreAt c).cell x.1 = if x.1 ∈ e.skip then k.cell x.1 else x.2) ∧
        ∀ i, i ∉ dst.map (fun x => x.1) → (u.coreAt c).cell i = k.cell i
      let ready := k.frozen = false ∧ e.fire.isSome = true ∧ e.done ≤ s.cycleAt c ∧ e.written = false ∧ e.late = []
      let free := fun (dst : List (Nat × GCell)) => dst.filter fun x => !k.earlierWriter e x.1
      let held := fun (dst : List (Nat × GCell)) => (dst.filter fun x => k.earlierWriter e x.1).map fun x => x.1
      let finishes := fun (dst : List (Nat × GCell)) =>
        ∃ u, exec (.engineComplete c e.id) s = .next u ∧ grid u (free dst) ∧
          (u.coreAt c).eng = if held dst = [] ∧ k.rowBehind e = false then k.eng.filter fun x => x.id ≠ e.id
            else k.eng.map fun x => if x.id = e.id then { x with written := true, late := held dst } else x
      let window := fun (w : Window) (new : Nat → Nat → GCell → GCell) =>
        (List.range (64 * 2 ^ w.rs.val)).flatMap fun i => (List.range (64 * 2 ^ w.cs.val)).map fun j =>
          let key := at_ w.half (64 * w.row0.val + i) (64 * w.col0.val + j)
          (key, new i j (k.cell key))
      let opd := fun f16 j i => operandOf f16 ((e.ops.getD j []).getD i 0)
      let plain := fun (w : Window) f16 =>
        w.wf = true → e.group0 = false → e.ops.length = 2 → (∀ l ∈ e.ops, l.length = 256) →
          finishes (window w fun i j g => ⟨mac g.v [(opd f16 0 i, opd f16 1 j)], g.poi || e.marks.poi⟩)
      (ready →
        (∀ w a b, e.kind = .opaBf w a b → plain w false) ∧ (∀ w a b, e.kind = .opaH w a b → plain w true) ∧
        (∀ w a b, e.kind = .opaN6 w a b → w.wf = true → e.group0 = false → e.ops.length = 4 → (∀ l ∈ e.ops, l.length = 256) →
          finishes (window w fun i j g =>
              ⟨mac g.v (if a = b then [(opd false 0 i, opd false 1 j), (opd false 2 i, opd false 3 j)]
                else [(opd false 0 i, opd false 2 j), (opd false 1 i, opd false 3 j)]), g.poi || e.marks.poi⟩)) ∧
        (∀ w, e.kind = .gzero w → w.wf = true → e.group0 = false →
          finishes (window w fun _ _ _ => GCell.zero)) ∧
        (∀ r q g, e.kind = .vmt r q g → e.group0 = false →
          finishes ((List.range 64).map fun j =>
              let key := at_ r.half r.n.val (64 * g.val + j)
              (key, ⟨sumRne [fmtF32.read (k.cell key).v.toNat, fmtF32.read (e.sums.getD j 0).toNat], (k.cell key).poi || e.marks.poi⟩))) ∧
        (∀ r q f vl, e.kind = .qpop r q f vl → vl ≤ 256 →
          finishes (((List.range vl).filter fun i => e.group0 = false || 128 ≤ i).map fun i => (at_ r.half r.n.val i,
              ⟨if f = .w then BitVec.ofNat 32 (leNat ((e.raw.drop (4 * i)).take 4)) else wideC f (half16 e.raw i), e.marks.poi⟩))) ∧
        (∀ q f16, e.kind = .stld q f16 →
          ∃ u tile, exec (.engineComplete c e.id) s = .next u ∧ OfCore s u c ∧ u.coreAt c = { k with eng := k.eng.filter fun x => x.id ≠ e.id } ∧
            (∀ m, m ≠ n → u.hartAt m = s.hartAt m) ∧ tile.f16 = f16 ∧ tile.poi = e.marks.poi ∧
            (∀ i j, i < 128 → j < 64 → SMap.look 0 tile.s (64 * i + j) = (e.ops.getD j []).getD i 0) ∧
            u.hartAt n = { h with
              r := { h.r with tile := tile }, dup := if e.ser ≤ h.ckptSer then { h.dup with tile := tile } else h.dup }) ∧
        (∀ q f vals, e.kind = .qpush q f vals →
          ∃ u x, exec (.engineComplete c e.id) s = .next u ∧ OfCore s u c ∧
            pushed u q (vals.flatMap fun g => if f = .w then leBytes 4 g.v.toNat else leBytes 2 (convC f (fmtF32.read g.v.toNat)).1.toNat)
              x (sent n e.ser) (vals.any fun g => g.poi) (f ≠ .w && vals.any fun g => (convC f (fmtF32.read g.v.toNat)).2) ∧
            u.coreAt c = { k with
              eng := k.eng.filter fun x => x.id ≠ e.id, queues := (u.coreAt c).queues, tcm := (u.coreAt c).tcm } ∧
            (∀ m, m ≠ n → u.hartAt m = s.hartAt m) ∧
            ((∀ w ∈ h.wq, w.dst ≠ .sys .vflags) → u.hartAt n = if f ≠ .w ∧ ∃ g ∈ vals, (convC f (fmtF32.read g.v.toNat)).2 = true
              then { h with
                r := { h.r with vflags := h.r.vflags ||| 2 }
                dup := if e.ser ≤ h.ckptSer then { h.dup with vflags := h.dup.vflags ||| 2 } else h.dup }
              else h))) ∧
      (∀ r q f vl t, e.kind = .qpop r q f vl → e.fire = some t → k.frozen = false → e.group0 = false → e.written = false → e.late = [] → 128 < vl →
        vl ≤ 256 → t + 2 ≤ s.cycleAt c →
        let dst := (List.range 128).map fun i => (at_ r.half r.n.val i,
          (⟨if f = .w then BitVec.ofNat 32 (leNat ((e.raw.drop (4 * i)).take 4)) else wideC f (half16 e.raw i), e.marks.poi⟩ : GCell))
        ∃ u, exec (.qpopGroupWrite c e.id) s = .next u ∧ grid u (free dst) ∧
          (u.coreAt c).eng = k.eng.map (fun x => if x.id = e.id then { x with group0 := true, late := held dst } else x))) ∧
    (∀ w ∈ k.vq, (∀ x ∈ k.vq, x.id = w.id → x = w) → k.frozen = false → w.due ≤ s.cycleAt c →
      (s.hartAt (2 * c + if w.hart then 1 else 0)).drain = .no → (w.cells.map fun x => x.1).Nodup →
      ∃ u, exec (.vWriteComplete c w.id) s = .next u ∧ OfCore s u c ∧ (∀ m, u.hartAt m = s.hartAt m) ∧
        u.coreAt c = { k with
          grid := (u.coreAt c).grid, dirty := (u.coreAt c).dirty, hist := (u.coreAt c).hist, vq := k.vq.filter fun x => x.id ≠ w.id } ∧
        (∀ x ∈ w.cells, (u.coreAt c).cell x.1 = x.2) ∧ (∀ i, i ∉ w.cells.map (fun x => x.1) → (u.coreAt c).cell i = k.cell i) ∧
        ((s.hartAt (2 * c + if w.hart then 1 else 0)).ckptSer < w.ser → (u.coreAt c).hist = k.hist)) ∧
    ∀ b ∈ k.qst, (∀ x ∈ k.qst, x.id = b.id → x = b) → k.frozen = false → b.fired = true → b.due ≤ s.cycleAt c →
      let n := 2 * c + if b.hart then 1 else 0
      let flags : Word := (if b.qnan then 4 else 0) ||| if b.qclip then 8 else 0
      ∃ u x, exec (.qstBlockPush c b.id) s = .next u ∧ OfCore s u c ∧ pushed u b.q b.image x (sent n b.ser) b.poi false ∧
        u.coreAt c = { k with qst := k.qst.filter fun x => x.id ≠ b.id, queues := (u.coreAt c).queues, tcm := (u.coreAt c).tcm } ∧
        (∀ m, m ≠ n → u.hartAt m = s.hartAt m) ∧
        u.hartAt n = { s.hartAt n with
          wq := (s.hartAt n).wq ++ if flags = 0 then []
            else [⟨.sys .vflags, flags.setWidth 256, flags.setWidth 256, false, s.cycleAt c + 1, b.ser, 0⟩] }

/-- RECHECK_EXECUTE (R271, R346): agreement frees the entry; a mismatch rolls the hart back without a handler, and a second one before a completed
checkpoint fences the core and aborts the launch. -/
def Obligations.Rechecks : Prop :=
  ∀ (s : State) (c : CoreId) (r : Recheck), c < 512 → r ∈ (s.coreAt c).recheck → (∀ x ∈ (s.coreAt c).recheck, x.id = r.id → x = r) →
    s.recheckReady c r = true →
    let n := 2 * c + if r.hart then 1 else 0
    let k := s.coreAt c
    let h := s.hartAt n
    let left := k.recheck.filter fun x => x.id ≠ r.id
    let logged := fun u : State => ∃ x, (u.dieAt (n / 128)).log.getLast? = some x ∧ x.cls = 3 ∧ x.cause = 82 ∧ x.unit = n + 1024 * s.pkg.cfg.modulePos
    let last := s.cycleAt c + r.cycles - 1
    ∃ u, exec (.recheckExecute c r.id true) s = .next u ∧ OfCore s u c ∧ (∀ m, u.hartAt m = s.hartAt m) ∧
      (u.coreAt c = if r.matrix then { k with recheck := left, arrayNext := (last + 1, last + 1), queues := (u.coreAt c).queues }
        else { k with recheck := left }) ∧
      (∀ q, waiting (u.coreAt c) q = waiting k q) ∧
      (h.recheckRetry = false →
        let back := u.rollback n
        let at0 := s.cycleAt c + 12 + ((k.hist.filter fun e => e.hart = r.hart).length + 3) / 4
        ∃ v, exec (.recheckExecute c r.id false) s = .next v ∧ logged v ∧
          v = { s with harts := v.harts, cores := v.cores, dies := v.dies } ∧ (∀ m, m ≠ n → v.hartAt m = s.hartAt m) ∧
          v.hartAt n = { back.hartAt n with
            pc := h.sys.ckptpc, recheckRetry := true, time := { h.time with nextIssue := max h.time.nextIssue at0, qcfg := none } } ∧
          v.coreAt c = back.coreAt c) ∧
      (h.recheckRetry = true → (s.launchAt h.launchId).cause = 0 → ∃ v, exec (.recheckExecute c r.id false) s = .next v ∧ logged v ∧
        (v.coreAt c).fenced = true ∧ (v.hartAt n).mode = .stopped ∧ (v.launchAt h.launchId).cause = 83 ∧
        (v.launchAt h.launchId).retryable = true ∧ SameBytes s v)

/-- Matrix arithmetic (R255, R266): exact products, one rounding of their exact sum with the cell, and the cases that no exact real gives. -/
def Obligations.MatrixArithmetic : Prop :=
  ∀ (g : Cell) (ps : List (FV × FV)),
    let start := fmtF32.read g.toNat
    let finite := fun v : FV => v.isNan = false ∧ v.isInf = false
    let zero := fun v : FV => v.isZero = true
    let bad := fun p : FV × FV => p.1.isNan = true ∨ p.2.isNan = true ∨ (p.1.isInf = true ∧ zero p.2) ∨ (zero p.1 ∧ p.2.isInf = true)
    let terms := (start.isInf, start.sign) :: ps.map fun p => (p.1.isInf || p.2.isInf, p.1.sign != p.2.sign)
    let ok := start.isNan = false ∧ ∀ p ∈ ps, ¬bad p
    (¬ok → mac g ps = 0x7FC00000) ∧
    (ok → (true, false) ∈ terms → (true, true) ∈ terms → mac g ps = 0x7FC00000) ∧
    (ok → (true, false) ∈ terms → (true, true) ∉ terms → mac g ps = 0x7F800000) ∧
    (ok → (true, true) ∈ terms → (true, false) ∉ terms → mac g ps = 0xFF800000) ∧
    (finite start → (∀ p ∈ ps, finite p.1 ∧ finite p.2) →
      let x := realOf start + (ps.map fun p => realOf p.1 * realOf p.2).sum
      (x ≠ 0 → ∃ f, RoundsTo fmtF32 .rne x ((mac g ps).toNat, f)) ∧
      (x = 0 → mac g ps = if start.sign = true ∧ zero start ∧ ∀ p ∈ ps, (zero p.1 ∨ zero p.2) ∧ (p.1.sign != p.2.sign) = true
        then 0x80000000 else 0)) ∧
    ∀ v w : List FV, v.length = 128 → w.length = 128 →
      let round := fun a b : FV => fmtF32.read (sumRne [a, b]).toNat
      let halve := fun (n : Nat) (f : Nat → FV) => fun j => if j < n then round (f (2 * j)) (f (2 * j + 1)) else .fin false 0 0
      let exact := fun j => mulFV (v.getD j (.fin false 0 0)) (w.getD j (.fin false 0 0))
      let seven := halve 1 (halve 2 (halve 4 (halve 8 (halve 16 (halve 32 (halve 64 exact))))))
      vmtDot v w = sumRne [seven 0]

/-! ### Streams and copies at work -/

/-- STREAM_PUSH, STREAM_WRITE and STREAM_FAULT (R162, R164, R230, R232, R233, R238 to R242): the entry that a read stream pushes, from every layout;
the image that a write stream stores; the end of a stream; and late faults. That elements beyond COUNT mark an entry DRANGE is the model's reading
(log 66). -/
def Obligations.StreamEvents : Prop :=
  ∀ (s : State) (c : CoreId) (slot : Fin 4), c < 512 →
    let k := s.coreAt c
    let t := k.streams.get slot
    let n := 2 * c + if t.hart then 1 else 0
    let launch := (s.clusterAt (c / 16)).launch.getD 0
    let o := t.obj
    let qu := k.queues.get t.q
    let size := (qu.es.toNat + 1) * 16
    let slots := if qu.sz = 0 then 0 else 2 ^ (qu.sz.toNat + 9) / size
    let slotBase := 1024 * qu.base.toNat + qu.freeSlot % max slots 1 * size
    let at_ := fun a => t.base + BitVec.ofNat 64 a
    let reads := fun a n1 l => s.translate n launch t.sp .load n1 (at_ a) = .loc l ∧ l.bad = false
    let released := fun (cl : Cluster) =>
      let c1 := setShape t.shapeIdx (fun e => { e with uses := e.uses - 1 }) cl
      match t.tile with | some i => setTile i (fun e => { e with refs := e.refs - 1 }) c1 | none => c1
    let moved := fun (u : State) => u = { s with cores := u.cores, clusters := u.clusters } ∧ (∀ m, m ≠ c → u.coreAt m = s.coreAt m) ∧
      ∀ m, m ≠ c / 16 → u.clusterAt m = s.clusterAt m
    let pushes := fun (bytes : List Byte) (m : Marks) =>
      ∃ u x, exec (.streamPush c slot) s = .next u ∧ moved u ∧ x = ⟨qu.freeSlot, none, s.now, false, none, false, m⟩ ∧
        ((∀ y ∈ qu.ents, y.slot ≠ qu.next % max slots 1) → x.slot = qu.next % max slots 1) ∧
        (∀ q, (u.coreAt c).queues.get q = if q = t.q then { qu with next := x.slot + 1, ents := qu.ents ++ [x] } else k.queues.get q) ∧
        (∀ a, (u.coreAt c).tcm.byte a = if slotBase ≤ a ∧ a < slotBase + size then bytes.getD (a - slotBase) 0 else k.tcm.byte a) ∧
        u.coreAt c = { k with tcm := (u.coreAt c).tcm, queues := (u.coreAt c).queues, streams := (u.coreAt c).streams } ∧
        (∀ i, (u.coreAt c).streams.get i = if i = slot
          then { t with next := t.next + 1, done := t.done + 1, nextAt := s.now + o.rate, active := decide (t.next + 1 ≠ t.total) }
          else k.streams.get i) ∧
        u.clusterAt (c / 16) = if t.next + 1 = t.total then released (s.clusterAt (c / 16)) else s.clusterAt (c / 16)
    let conv := fun v => convC (match o.fmt with | 0 => .bf | 1 => .h | 2 => .lf | _ => .sf) v
    let value := fun v => if o.layout = 5 ∨ o.layout = 6 then fmtF32.read v
      else if o.layout = 3 ∨ o.layout = 4 ∨ o.layout = 0x21 then fmtH.read v else fmtBf.read v
    let es := if o.layout = 5 ∨ o.layout = 6 then 4 else 2
    let bytes16 := fun (l : List (BitVec 16)) => l.flatMap fun (v : BitVec 16) => [v.setWidth 8, (v >>> 8).setWidth 8]
    (s.pushReady c slot = true →
      (∀ (elem : Nat → Option (Nat × Loc)), o.layout ≠ 0x10 →
        (∀ j, j < o.count → (elem j).map (fun x => x.1) = o.elemOff t.next j ∧ ∀ x ∈ elem j, reads x.1 es x.2) →
        let got := fun j => match elem j with | some x => conv (value (s.locNat x.2 es)) | none => conv (.fin false 0 0)
        pushes (bytes16 ((List.range o.count).map fun j => (got j).1))
          ⟨none, (List.range o.count).any (fun j => (elem j).any fun x => s.locPoisoned x.2 es),
            (List.range o.count).any fun j => (elem j).isSome && (got j).2⟩) ∧
      (let w8 := decide (o.width = 8)
       let per := if o.width = 8 then 5 else 1
       let g := if o.width = 8 then 16 else 64
       let bytes := if o.width = 8 then 80 else 64
       let blocks := if o.decode = 1 then (o.count + 63) / 64 else 1
       let num := fun i => if o.decode = 1 then t.next * (o.w / 64) + i else t.next
       ∀ (loc : Nat → Nat → Loc), o.layout = 0x10 → o.decode ≤ 1 →
        (∀ i p, i < blocks → p < per → reads (num i * bytes + g * p) g (loc i p)) →
        let poi := fun i => (List.range per).any fun p => s.locPoisoned (loc i p) g
        let any := fun f : Nat → Bool => (List.range blocks).any f
        let image := fun i => (List.range per).flatMap fun p => s.locBytes (loc i p) g
        let fault := fun i => if poi i then none else headerFault (if w8 then 2 else 1) (image i)
        (o.decode = 0 → fault 0 = none → pushes (image 0) ⟨none, poi 0, false⟩) ∧
        (o.decode = 0 → ∀ r, fault 0 = some r → pushes [] ⟨some (at_ (num 0 * bytes), r), false, false⟩) ∧
        (o.decode = 1 → (∀ i < blocks, fault i = none) →
          pushes (bytes16 (((List.range blocks).flatMap fun i => (decodeBlock w8 (image i)).map fun x => x.1).take o.count))
            ⟨none, any poi, any fun i => !poi i && (decodeBlock w8 (image i)).any fun x => x.2⟩) ∧
        (o.decode = 1 → ∀ i r, i < blocks → (∀ j < i, fault j = none) → fault i = some r →
          ∃ cs drange, pushes (bytes16 cs) ⟨some (at_ (num i * bytes), r), any poi, drange⟩))) ∧
    (∀ j, (o.layout ∈ [1, 3, 5] → o.elemOff t.next j = some ((t.next * o.w + j) * es)) ∧
      (o.layout ∈ [2, 4, 6] → o.elemOff t.next j = some ((j * o.w + t.next) * es)) ∧
      (o.layout ∈ [0x20, 0x21] → 0 < o.kh → 0 < o.kw → 0 < o.c → 0 < o.stride → 0 < o.dil → 1 ≤ o.oh → 1 ≤ o.ow →
        let step := t.next % (o.kh * o.kw * o.c)
        let p := t.next / (o.kh * o.kw * o.c) * o.count + j
        let oh := ((o.h : Int) + 2 * o.pad - o.dil * ((o.kh : Int) - 1) - 1) / o.stride + 1
        let ow := ((o.w : Int) + 2 * o.pad - o.dil * ((o.kw : Int) - 1) - 1) / o.stride + 1
        let ih := (p : Int) / ow * o.stride - o.pad + (step / (o.kw * o.c) : Nat) * o.dil
        let iw := (p : Int) % ow * o.stride - o.pad + (step / o.c % o.kw : Nat) * o.dil
        o.elemOff t.next j = if (p : Int) < oh * ow ∧ 0 ≤ ih ∧ ih < o.h ∧ 0 ≤ iw ∧ iw < o.w
          then some (((ih.toNat * o.w + iw.toNat) * o.c + step % o.c) * 2) else none)) ∧
    (s.writeReady c slot = true → ∀ (x : QEnt) (loc : Nat → Loc), (waiting k t.q).head? = some x →
      let g := if o.width = 6 then 64 else if o.width = 8 then 16 else 2
      let image := if o.width = 0 then 2 * o.count else if o.width = 8 then 80 else 64
      (x.marks.sel = none →
        (∀ i, i < image / g → s.translate n launch t.sp .store g (at_ (image * t.next + g * i)) = .loc (loc i) ∧ (loc i).bad = false) →
        ∃ u sent, exec (.streamWrite c slot) s = .next u ∧
          u = { s with cores := u.cores, flights := s.flights ++ sent, fresh := u.fresh } ∧ (∀ m, m ≠ c → u.coreAt m = s.coreAt m) ∧
          u.coreAt c = { k with queues := (u.coreAt c).queues, streams := (u.coreAt c).streams } ∧
          (∀ q, waiting (u.coreAt c) q = if q = t.q then (waiting k q).tail else waiting k q) ∧
          (∀ i, (u.coreAt c).streams.get i = if i = slot
            then { t with next := t.next + 1, done := t.done + 1, nextAt := s.now + o.rate, flights := t.flights ++ sent.map fun f => f.id }
            else k.streams.get i) ∧
          (∀ f ∈ sent, f.hart = n ∧ f.eng = true ∧ f.sentAt = s.now ∧ f.performed = false ∧ ∃ l, f.kind = .store l) ∧
          (o.width = 6 ∨ o.width = 8 → sent.length = 1) ∧
          ∀ i, i < image / g → ∃ f ∈ sent, ∃ l, f.kind = .store l ∧
            ⟨loc i, ((entry k t.q x).drop (g * i)).take g, x.marks.poi⟩ ∈ l) ∧
      (∀ a r, x.marks.sel = some (a, r) → (s.launchAt launch).cause = 0 →
        ∃ u, exec (.streamWrite c slot) s = .next u ∧ ((u.coreAt c).streams.get slot).stopped = true ∧
          (u.launchAt launch).cause = 32 ∧ (u.launchAt launch).trapInfo = a ∧ SameBytes s u)) ∧
    (t.active = true →
      (∀ r l a, exec (.streamFault c slot (.page r l a)) s =
        .next { s.updCoreAt c (fun k => { k with streams := k.streams.set slot.val { t with halted := true } }) with
          outputs := s.outputs ++ [.streamFault c slot] }) ∧
      ∀ e a, ∃ u, exec (.streamFault c slot (.error e a)) s = .next u ∧
        u = { s with cores := u.cores, clusters := u.clusters, launches := u.launches } ∧
        (u.coreAt c).streams.get slot = { t with active := false } ∧ u.clusterAt (c / 16) = released (s.clusterAt (c / 16)) ∧
        ((s.launchAt launch).cause = 0 → (u.launchAt launch).cause = 24 ∧ (u.launchAt launch).trapInfo = a ∧
          (u.launchAt launch).retryable = true))

/-- COPY_CHUNK_DONE, COPY_DONE, COPY_FAULT, MAPPING_REPAIRED and TRANSLATION_INVALIDATE (R114, R241, R247, R248, R288): the bytes of a chunk and its
bit in the mask, the end of a copy, late faults, and the buffers that are emptied. How a repair that fails shows is the model's reading (log 67). -/
def Obligations.CopyEvents : Prop :=
  ∀ (s : State) (cl : ClusterId) (c : Copy) (rest : List Copy), cl < 32 → (s.clusterAt cl).copies = c :: rest →
    let kl := s.clusterAt cl
    let len := min 1024 (c.len - 1024 * c.chunk)
    let part : MemUnit → Bool := fun u => match u with | .hbm | .place | .shadow _ | .snap _ => true | _ => false
    let meets := fun a b : Loc => (a.unit = b.unit ∨ (part a.unit = true ∧ part b.unit = true)) ∧ a.addr / 64 = b.addr / 64
    let writable := fun l : Loc => l.addr % 64 = 0 ∧
      ((∃ i, l.unit = .tcm i) ∨ (∃ i, l.unit = .spad i) ∨ (∃ d i, l.unit = .sram d i) ∨ (∃ m, l.unit = .remote m) ∨
        (∃ i, l.unit = .shadow i ∧ (s.launchAt i).irrev = false ∧ ∀ e ∈ s.shadow, e.data.length = 64) ∨
        (l.unit = .place ∧ (l.addr < hbmEnd ∨ isColl l.addr = true ∨ isMail l.addr = true)))
    (s.chunkDue cl = true → ∀ (src dst : Nat → Loc), len % 64 = 0 → c.len % 64 = 0 →
      (∀ i, i < c.len / 64 → s.translate c.hart c.launch c.ss .load 64 (BitVec.ofNat 64 (c.src + 64 * i)) = .loc (src i) ∧
        (src i).bad = false) →
      (∀ i, i < len / 64 → s.translate c.hart c.launch c.ds .store 64 (BitVec.ofNat 64 (c.dst + 1024 * c.chunk + 64 * i)) = .loc (dst i) ∧
        writable (dst i)) →
      (∀ i j, i < c.len / 64 → j < len / 64 → ¬meets (src i) (dst j)) → (∀ i j, i < len / 64 → j < len / 64 → i ≠ j → ¬meets (dst i) (dst j)) →
      s.noRoom c.launch ((List.range (len / 64)).map dst) = false →
      ∃ u, exec (.copyChunkDone ⟨cl, none⟩) s = .next u ∧
        (∀ i b, i < len / 64 → b < 64 →
          u.unitByte (dst i).unit ((dst i).addr + b) = s.unitByte (src (16 * c.chunk + i)).unit ((src (16 * c.chunk + i)).addr + b)) ∧
        (u.clusterAt cl).copies = { c with chunk := c.chunk + 1, nextAt := s.now + 4 } :: rest ∧ (u.clusterAt cl).tiles = kl.tiles ∧
        (∀ m, m ≠ c.hart → u.hartAt m = s.hartAt m) ∧
        (let v := u.hartAt c.hart
         v = { s.hartAt c.hart with r := v.r, dup := v.dup, wq := v.wq } ∧ v.r = { (s.hartAt c.hart).r with m := v.r.m } ∧
         v.dup = { (s.hartAt c.hart).dup with m := v.dup.m } ∧
         ∀ (j : Fin 8) (b : Fin 256), v.r.m[j].getLsbD b.val = ((s.hartAt c.hart).r.m[j].getLsbD b.val || (decide (j = c.mask ∧ j ≠ 0 ∧ b.val = c.chunk))) ∧
          v.dup.m[j].getLsbD b.val = ((s.hartAt c.hart).dup.m[j].getLsbD b.val || (decide (j = c.mask ∧ j ≠ 0 ∧ b.val = c.chunk))))) ∧
    (∀ at0 bs, c.io = .writing at0 → ∃ u, exec (.copyChunkDone ⟨cl, some bs⟩) s = .next u ∧ SameBytes s u ∧
      (u.clusterAt cl).copies = { c with chunk := c.chunk + 1, nextAt := s.now + 4, io := .none } :: rest) ∧
    (∀ at0, c.io = .reading at0 ∨ c.io = .writing at0 → at0 + 1100 * s.pkg.cfg.memto ≤ s.now →
      exec (.copyChunkDone ⟨cl, none⟩) s = exec (.copyFault cl (.error .timeout (BitVec.ofNat 64 (c.src + 1024 * c.chunk)))) s) ∧
    (c.chunk = (c.len + 1023) / 1024 →
      let tiled := fun k : Cluster => match c.tile with
        | some t => setTile t (fun x => { x with state := .ready, cp := false }) { k with copies := rest }
        | none => { k with copies := rest }
      (c.fut = none → exec (.copyDone cl) s = .next (s.updClusterAt cl tiled)) ∧
      ∀ f, c.fut = some f → f % 16 = 0 → f + 16 ≤ (s.halloc (cl / 4) c.launch).size →
        let w := s.hNat (cl / 4) c.launch f 8
        let waiter := w % 2 ^ 48
        (w / 2 ^ 62 < 2 → futOk w = true →
          ∃ u, exec (.copyDone cl) s = .next u ∧ u = { s with clusters := u.clusters, dies := u.dies } ∧ u.clusterAt cl = tiled kl ∧
            (∀ m, m ≠ cl → u.clusterAt m = s.clusterAt m) ∧
            (∀ m a, ¬(m = .sram (cl / 4) c.launch ∧ f ≤ a ∧ a < f + 16) → u.unitByte m a = s.unitByte m a) ∧
            u.hNat (cl / 4) c.launch f 8 = 2 * 2 ^ 62 ∧ u.hNat (cl / 4) c.launch (f + 8) 8 = c.len % 2 ^ 64 ∧
            (u.dieAt (cl / 4)).wakes = (s.dieAt (cl / 4)).wakes ++
              (if waiter % 2 = 1 then [⟨c.launch, BitVec.ofNat 64 waiter, true, s.now + 4⟩] else [])) ∧
        (2 ≤ w / 2 ^ 62 → (s.launchAt c.launch).cause = 0 →
          ∃ u, exec (.copyDone cl) s = .next u ∧ (u.launchAt c.launch).cause = 53 ∧ (u.launchAt c.launch).trapInfo = BitVec.ofNat 64 f ∧
            u.clusterAt cl = tiled kl ∧ SameBytes s u)) ∧
    (∀ r l a, exec (.copyFault cl (.page r l a)) s =
      .next { s.updClusterAt cl (fun k => { k with copies := { c with halted := true } :: rest }) with outputs := s.outputs ++ [.copyFault cl] }) ∧
    (∀ e a, ∃ u, exec (.copyFault cl (.error e a)) s = .next u ∧ u = { s with clusters := u.clusters, launches := u.launches } ∧
      (u.clusterAt cl) = { kl with copies := rest } ∧
      ((s.launchAt c.launch).cause = 0 → (u.launchAt c.launch).cause = 24 ∧ (u.launchAt c.launch).trapInfo = a)) ∧
    ∀ j, j < 512 →
      let s0 := s.updCoreAt j fun k => { k with dtlb := [], itlb := [] }
      let launch := (s.clusterAt (j / 16)).launch.getD 0
      ((∀ i : Fin 4, s0.streamUnmapped j ((s.coreAt j).streams.get i) = none) → (∀ x ∈ (s.clusterAt (j / 16)).copies, s0.copyUnmapped x = none) →
       ∃ u, exec (.mappingRepaired j) s = .next u ∧ u = { s with cores := u.cores, clusters := u.clusters } ∧
        (∀ m, m ≠ j → u.coreAt m = s.coreAt m) ∧ (∀ m, m ≠ j / 16 → u.clusterAt m = s.clusterAt m) ∧
        u.coreAt j = { s.coreAt j with dtlb := [], itlb := [], streams := (u.coreAt j).streams } ∧
        (∀ i : Fin 4, (u.coreAt j).streams.get i = { (s.coreAt j).streams.get i with halted := false }) ∧
        u.clusterAt (j / 16) = { s.clusterAt (j / 16) with copies := (s.clusterAt (j / 16)).copies.map fun x => { x with halted := false } }) ∧
      (∀ (i : Fin 4) e, s0.streamUnmapped j ((s.coreAt j).streams.get i) = some e → (s.launchAt launch).cause = 0 →
        ∃ u, exec (.mappingRepaired j) s = .next u ∧ (u.launchAt launch).cause = 22 ∧ (u.coreAt j).streams.get i = (s.coreAt j).streams.get i) ∧
      exec (.translationInvalidate j) s = .next (s.updCoreAt j fun k => { k with dtlb := [], itlb := [] })

/-! ### Events of tasks -/

/-- PICKUP and STRIP_START (R277 to R279, R298): the list that is taken from, the registers with which the task starts, its first cycle, and the record
that is not valid. -/
def Obligations.TasksStart : Prop :=
  ∀ (s : State) (n : HartId), n < 1024 → s.mayTake n = true →
    let h := s.hartAt n
    let l := h.launchId
    let d := n / 128
    let own := n / 32
    let first := s.cycleAt (n / 2) + 48
    let starts := fun (v : Hart) pc => v.pc = pc ∧ v.mode = .running ∧ v.wq = [] ∧ v.ck = some ⟨pc, h.ser, first, 0, .go, false⟩ ∧
      v.time.nextIssue = max h.time.nextIssue first ∧
      v.r.fpflags = h.r.fpflags ∧ v.r.vflags = h.r.vflags ∧ v.r.stepcnt = h.r.stepcnt ∧ v.r.inh = h.r.inh ∧ v.r.tile = h.r.tile ∧
      v.r.vl = 256 ∧ v.r.ras = [] ∧ v.r.rspill = 0 ∧ v.r.hardwired ∧ v.r.mPoi = 0 ∧ (∀ k : Fin 8, k.val ≠ 0 → v.r.m[k] = 0) ∧
      v.land = h.land ∧ v.wh = h.wh ∧ v.launch = h.launch ∧ v.sys = h.sys ∧ v.dup = h.dup
    let others := fun u : State => ∀ m, m ≠ n → u.hartAt m = s.hartAt m
    (∀ (f : Farm) rest, (s.clusterAt own).farms = f :: rest →
      ∃ u, exec (.stripStart n) s = .next u ∧ u = { s with harts := u.harts, clusters := u.clusters } ∧ others u ∧
        (∀ m, m ≠ own → u.clusterAt m = s.clusterAt m) ∧
        u.clusterAt own = { s.clusterAt own with farms := if f.next + f.stride < f.total then { f with next := f.next + f.stride } :: rest else rest } ∧
        (let v := u.hartAt n
         starts v f.body ∧ v.r.fpmode.toNat = h.r.fpmode.toNat / 4 * 4 + f.rm.toNat % 4 ∧
         (∀ k : Fin 32, v.r.x[k] = if k = 1 then BitVec.ofNat 64 f.next else if k = 2 then f.arg else 0) ∧
         (∀ k : Fin 32, v.r.xPoi.getLsbD k.val = decide (k = 2 ∧ f.argPoi = true)) ∧
         (∀ k : Fin 16, v.r.p.getLsbD k.val = decide (k = 0)) ∧ v.r.pPoi = 0 ∧ v.r.crec = 0 ∧ v.r.livemask = 0 ∧
         v.r.fscope = f.scope.setWidth 64 ∧ v.r.sidx = BitVec.ofNat 64 f.next)) ∧
    (∀ (k off : Nat) rest, (s.clusterAt own).farms = [] → k < 4 →
      let from_ := fun j => 4 * d + (own % 4 + j) % 4
      let open_ := fun j => (s.clusterAt (from_ j)).launch = some l
      (∀ j < k, open_ j → (s.clusterAt (from_ j)).ready = []) → open_ k → (s.clusterAt (from_ k)).ready = off :: rest →
      let taken := s.updClusterAt (from_ k) fun c => { c with ready := rest }
      let g := fun o w => s.hNat d l (off + o) w
      let flags := g 14 2
      let live := (List.finRange 32).filter fun r : XReg => r ≠ 0 && (g 16 4).testBit r.val
      let waits := flags / 64 % 2 = 1
      let pd := flags / 256 % 16
      let pc := flags / 4096 % 16
      let valid := g 49 15 = 0 ∧ linkOk (g 32 8) = true ∧ g 40 8 % 2 = 0 ∧ g 40 8 < 65536 ∧ g 8 4 = (s.launchAt l).rc.code ∧ g 16 4 % 2 = 0 ∧
        live.length ≤ 16 ∧ (waits → pd ≠ pc)
      (¬valid → exec (.pickup n) s = .next (taken.takeTrap n ⟨51, h.pc, BitVec.ofNat 64 off, 2 ^ 12, true⟩)) ∧
      (valid → ∃ u, exec (.pickup n) s = .next u ∧ u = { s with harts := u.harts, clusters := u.clusters, dies := u.dies } ∧ others u ∧
        (∀ m, u.clusterAt m = taken.clusterAt m) ∧
        (∀ m a, ¬(m = .sram d l ∧ (a = off + 14 ∨ a = off + 15)) → u.unitByte m a = s.unitByte m a) ∧
        (let f := u.hNat d l (off + 14) 2
         f % 16 = flags % 16 ∧ f / 16 % 4 = 2 ∧ f / 64 % 4 = 0 ∧ f / 256 = flags / 256) ∧
        (let v := u.hartAt n
         starts v (BitVec.ofNat 64 (g 0 8)) ∧ v.r.fpmode.toNat = h.r.fpmode.toNat / 4 * 4 + flags % 4 ∧
         (∀ (j : Nat) (r : XReg), live[j]? = some r → v.r.x[r] = BitVec.ofNat 64 (g (64 + 8 * j) 8) ∧
           v.r.xPoi.getLsbD r.val = s.locPoisoned ⟨.sram d l, off + 64 + 8 * j⟩ 8) ∧
         (∀ r : XReg, r ∉ live → v.r.x[r] = 0 ∧ v.r.xPoi.getLsbD r.val = false) ∧
         (∀ i : Fin 16, v.r.p.getLsbD i.val = (i.val = 0 ∨
           if waits ∧ i.val = pc then flags / 128 % 2 = 0 else if waits ∧ i.val = pd then flags / 128 % 2 = 1 else (g 40 8).testBit i.val)) ∧
         v.r.pPoi = (if s.locPoisoned ⟨.sram d l, off⟩ 64 then 0xFFFE else 0) ∧ v.r.crec = BitVec.ofNat 64 (off + 1) ∧
         v.r.livemask = BitVec.ofNat 64 (g 16 4) ∧ v.r.fscope = BitVec.ofNat 64 (g 12 2) ∧ v.r.sidx = BitVec.ofNat 64 (g 20 4))))

/-- WRITEBACK_COMPLETE, FUTURE_WAKE and SWEEP (R280, R284, R285, R287, R288, R292, R293): the steps at the units that end a suspension, that wake the
records of a resolved future, and that find a scope complete. -/
def Obligations.TasksEndAndWake : Prop :=
  ∀ (s : State),
    let runsOn := fun cl l => (s.clusterAt cl).launch = some l
    let bytes := fun (u : State) m (p : Nat → Prop) => ∀ v a, ¬(v = m ∧ p a) → u.unitByte v a = s.unitByte v a
    (∀ n, n < 1024 → s.leaveReady n = true →
      let h := s.hartAt n
      let l := h.launchId
      let d := n / 128
      let own := n / 32
      let link := h.r.crec.toNat
      let off := link / 64 % 2 ^ 20 * 64
      let flags := s.hNat d l (off + 14) 2
      let others := fun u : State => ∀ m, m ≠ n → u.hartAt m = s.hartAt m
      let idle := fun u : State => others u ∧ u.hartAt n = { h with mode := .idle, idleAt := s.now }
      (h.mode = .leaving .suspend → ∃ u, exec (.writebackComplete n) s = .next u ∧ u = { s with harts := u.harts } ∧ idle u) ∧
      (h.mode = .leaving .yield → runsOn own l → (∀ r ∈ (s.clusterAt own).ready.getLast?, r % 64 = 0 ∧ r ≠ off) →
        ∃ u, exec (.writebackComplete n) s = .next u ∧ u = { s with harts := u.harts, clusters := u.clusters, dies := u.dies } ∧ idle u ∧
          (u.clusterAt own).ready = (s.clusterAt own).ready ++ [off] ∧ u.hNat d l (off + 14) 2 / 16 % 4 = 1 ∧
          u.hNat d l (off + 14) 2 / 4 % 4 = own % 4 ∧ u.hNat d l (off + 32) 8 = 0 ∧
          (∀ r ∈ (s.clusterAt own).ready.getLast?, u.hNat d l (r + 32) 8 = off + 1) ∧
          bytes u (.sram d l) (fun a => a = off + 14 ∨ a = off + 15 ∨ (off + 32 ≤ a ∧ a < off + 40) ∨
            ∃ r ∈ (s.clusterAt own).ready.getLast?, r + 32 ≤ a ∧ a < r + 40)) ∧
      (h.mode = .leaving .exit →
        ∃ u, exec (.writebackComplete n) s = .next u ∧ u = { s with harts := u.harts, clusters := u.clusters, dies := u.dies } ∧ idle u ∧
          (∀ k id, totals u k id = if k = own ∧ id % 256 = h.r.fscope.toNat % 256 then ((totals s k id).1, (totals s k id).2 + 1) else totals s k id) ∧
          (link % 2 = 1 → u.hNat d l (off + 14) 2 / 16 % 4 = 0 ∧ u.hNat d l (off + 14) 2 % 16 = flags % 16 ∧
            u.hNat d l (off + 14) 2 / 64 = flags / 64) ∧
          bytes u (.sram d l) (fun a => link % 2 = 1 ∧ (a = off + 14 ∨ a = off + 15))) ∧
      ∀ pd pc fut head bpc, h.mode = .leaving (.fwait pd pc fut head bpc) →
        let w := s.hNat d l fut 8
        let ok := decide (w / 2 ^ 62 = 2)
        (2 ≤ w / 2 ^ 62 → pd ≠ pc →
          ∃ u, exec (.writebackComplete n) s = .next u ∧ u = { s with harts := u.harts } ∧ others u ∧
            (let v := u.hartAt n
             v = { h with
               r := v.r, dup := v.dup, mode := .running
               time := { h.time with nextIssue := max h.time.nextIssue (s.cycleAt (n / 2) + 42) } } ∧
             v.r = { h.r with p := v.r.p, pPoi := v.r.pPoi } ∧ v.dup = { h.dup with p := v.dup.p, pPoi := v.dup.pPoi } ∧
             ∀ i : Fin 16, ∀ b : Bool, (i = pd ∧ b = ok ∨ i = pc ∧ b = !ok) → i ≠ 0 → v.r.p.getLsbD i.val = b ∧ v.dup.p.getLsbD i.val = b ∧
               v.r.pPoi.getLsbD i.val = false)) ∧
        (w / 2 ^ 62 < 2 → futOk w = false →
          exec (.writebackComplete n) s = .next (s.takeTrap n ⟨52, bpc, BitVec.ofNat 64 fut, BitVec.ofNat 64 head, false⟩)) ∧
        (w / 2 ^ 62 < 2 → futOk w = true → fut % 16 = 0 → (fut < off ∨ off + 192 ≤ fut) →
          ∃ u, exec (.writebackComplete n) s = .next u ∧ u = { s with harts := u.harts, dies := u.dies } ∧ others u ∧
            u.hartAt n = { h with mode := .idle, idleAt := s.now + 40 } ∧ u.hNat d l fut 8 = 2 ^ 62 + off + 1 ∧
            u.hNat d l (off + 32) 8 = w % 2 ^ 48 ∧ u.hNat d l (off + 14) 2 / 16 % 4 = 3 ∧
            bytes u (.sram d l) (fun a => (fut ≤ a ∧ a < fut + 8) ∨ a = off + 14 ∨ a = off + 15 ∨ (off + 32 ≤ a ∧ a < off + 40)))) ∧
    (∀ d w rest, d < 8 → (s.dieAt d).wakes = w :: rest → w.due ≤ s.now →
      let off := w.link.toNat / 64 % 2 ^ 20 * 64
      let flags := s.hNat d w.launch (off + 14) 2
      let next := s.hNat d w.launch (off + 32) 8
      let home := 4 * d + flags / 4 % 4
      runsOn home w.launch → (∀ r ∈ (s.clusterAt home).ready.getLast?, r % 64 = 0 ∧ r ≠ off) →
      ∃ u, exec (.futureWake d) s = .next u ∧ u = { s with clusters := u.clusters, dies := u.dies } ∧
        (u.clusterAt home).ready = (s.clusterAt home).ready ++ [off] ∧ (∀ m, m ≠ home → u.clusterAt m = s.clusterAt m) ∧
        (let f := u.hNat d w.launch (off + 14) 2
         f / 16 % 4 = 1 ∧ f % 16 = flags % 16 ∧ f / 64 % 2 = flags / 64 % 2 ∧ f / 128 % 2 = (if w.ok then 1 else 0) ∧ f / 256 = flags / 256) ∧
        (u.dieAt d).wakes = if next % 2 = 1 then { w with link := BitVec.ofNat 64 next, due := s.now + 4 } :: rest else rest) ∧
    ∀ p, p < 8 → (s.partAt p).sweep.start ≤ s.now → SMap.sorted (s.partAt p).scopes = true →
      let w := (s.partAt p).sweep
      let ent := fun (t : State) i => SMap.look ScopeEnt.reset (t.partAt p).scopes i
      let sum := fun (m : SMap (Nat × Nat)) i => SMap.look (0, 0) m i
      (∀ cl, cl < 32 → cl ∈ w.reading →
        ∃ u sums, exec (.sweep p (some cl)) s = .next u ∧
          u = s.updPartAt p (fun q => { q with sweep := { w with reading := w.reading.filter (fun x => x ≠ cl), sums := sums } }) ∧
          ∀ i, i < 256 → sum sums i = if (ent s i).openNow then ((sum w.sums i).1 + (totals s cl i).1, (sum w.sums i).2 + (totals s cl i).2)
            else sum w.sums i) ∧
      (w.reading = [] → w.start + 200 ≤ s.now →
        let ended := fun i => (sum w.sums i).2 + (ent s i).credits
        let done := fun i => (ent s i).openNow = true ∧ (ent s i).prevValid = true ∧ (sum w.sums i).1 = ended i ∧
          (ent s i).prevS = (sum w.sums i).1 ∧ (ent s i).prevE = ended i
        ∃ u, exec (.sweep p none) s = .next u ∧ u = { s with parts := u.parts, cores := u.cores, clusters := u.clusters } ∧
          (∀ m, m ≠ p → u.partAt m = s.partAt m) ∧ (u.partAt p).sweep = ⟨w.start + 220, s.clustersOf p, []⟩ ∧
          (∀ i, done i → (ent u i).openNow = false ∧ (ent u i).token = false ∧ (ent u i).gen = (ent s i).gen + 1) ∧
          (∀ i, (ent s i).openNow = true → ¬done i →
            (ent u i).openNow = true ∧ (ent u i).gen = (ent s i).gen ∧ (ent u i).token = (ent s i).token ∧ (ent u i).prevS = (sum w.sums i).1 ∧
            (ent u i).prevE = ended i ∧ (ent u i).prevValid = true ∧ (ent s i).credits ≤ (ent u i).credits) ∧
          (∀ i q, done i → (ent s i).parent = some q → (ent s (q.toNat % 256)).openNow = true → (ent s (q.toNat % 256)).gen.toNat = q.toNat / 256 →
            ¬done (q.toNat % 256) → (ent s (q.toNat % 256)).credits < (ent u (q.toNat % 256)).credits) ∧
          (∀ i, (ent s i).openNow = false → ent u i = ent s i) ∧
          ((∀ i, done i → (ent s i).root = false) → u.cores = s.cores ∧ u.clusters = s.clusters) ∧
          ∀ i c slot, done i → (ent s i).root = true → c ∈ (s.launchAt (ent s i).launch).rc.coreList →
            ((s.coreAt c).streams.get slot).active = true → ((u.coreAt c).streams.get slot).stopped = true)

/-! ### Events of launches -/

/-- LAUNCH_TAKE, ADMISSION, LAUNCH_READY, LAUNCH_START, PERIOD_REFILL, BUDGET_EXHAUSTED, OVERRUN and CANCEL (R276, R303, R305 to R316, R321): what
becomes of a record from its queue to its first bundle, and the scheduling of the queues. That a launch start clears FPFLAGS, VFLAGS and the trap
registers is the model's reading (log 23). -/
def Obligations.LaunchesAreScheduled : Prop :=
  ∀ (s : State) (p : PartId) (q : Fin 64) (id : Nat), p < 8 →
    let pt := s.partAt p
    let x := s.queueAt p q.val
    let l := s.launchAt id
    let rc := l.rc
    let queue := fun f => s.updPartAt p fun y => { y with queues := SMap.upd LQueue.reset y.queues q.val f }
    let uncommitted := fun st : LState => st ∈ [.admitted, .ready, .running, .ended, .committing, .aborting]
    let mem := fun (u : State) a n v => (∀ k, k < n → u.physByte (a + k) = BitVec.ofNat 8 (v / 256 ^ k)) ∧
      ∀ b, b < a ∨ a + n ≤ b → u.physByte b = s.physByte b
    let region := x.n ≠ 0 ∧ x.base % 64 = 0 ∧ x.base + 64 + 512 * x.n ≤ hbmEnd ∧ s.snapReaders (x.base / 64) = []
    (let seq := s.physNat x.base 4
     region → pt.held = false → seq ≠ s.physNat (x.base + 4) 4 → (∀ a ∈ pt.order, a.1 = q.val ∨ s.atomicLive p a = false) →
      let raw := s.physBytes (x.base + 64 + seq % x.n * 512) 512
      ∃ u new, exec (.launchTake p q) s = .next u ∧ mem u x.base 4 ((seq + 1) % 2 ^ 32) ∧
        u = { s with launches := SMap.put s.launches s.fresh new, parts := u.parts, mem := u.mem, fresh := s.fresh + 1 } ∧
        (∀ i, u.partAt i = if i = p then { pt with taken := pt.taken ++ [s.fresh] } else s.partAt i) ∧
        new.raw = raw ∧ new.rc = recOf raw ∧ new.part = p ∧ new.st = .taken ∧ new.slot = some (q.val, seq) ∧ new.parent = none ∧
        new.tries = 0 ∧ new.cause = 0 ∧ new.deadline = s.now + pt.reldl.toList.getD ((recOf raw).dclass % 8) 0) ∧
    (∀ rest, pt.held = false → pt.admitting = none → pt.taken = id :: rest →
      let valid := ((List.range 16).filter fun i => rangeIsValid l.raw i).length
      exec (.admission p) s = .next (s.updPartAt p fun y =>
        { y with admitting := some (id, s.now + ((1200 + 50 * valid) * 11 + 9) / 10), taken := rest })) ∧
    (∀ t tag, pt.held = false → pt.admitting = some (id, t) → t ≤ s.now → l.part = p → SMap.sorted s.launches = true →
      let used := fun k => ∃ y ∈ s.launches, y.2.part = p ∧ y.2.tag = k ∧
        (uncommitted y.2.st ∨ ∃ e ∈ s.shadow, e.launch = y.1)
      (1 ≤ tag → tag ≤ 1023 → ¬used tag → (∀ k, 1 ≤ k → k < tag → used k) → s.recordFaults p l.raw = [] → ∃ u waits, exec (.admission p) s = .next u ∧
        u = { s with launches := SMap.put s.launches id { l with st := .admitted, tag := tag, place := pt.nextPlace + 1, waits := waits }, parts := u.parts } ∧
        (∀ i, u.partAt i = if i = p then { pt with admitting := none, nextPlace := pt.nextPlace + 1 } else s.partAt i) ∧
        ∀ i, i ∈ waits ↔ ∃ y ∈ s.launches, y.1 = i ∧ y.2.part = p ∧ uncommitted y.2.st ∧
          ∃ g h, some g ∈ rc.ranges ∧ some h ∈ y.2.rc.ranges ∧ (g.cls = .ro ∨ g.cls = .rw) ∧ g.xm = none ∧ (h.cls = .rw ∨ h.cls = .wo) ∧
            g.pa < h.pa + h.len ∧ h.pa < g.pa + g.len) ∧
      (∀ reason obj more, s.recordFaults p l.raw = (reason, obj) :: more → l.slot = none →
        exec (.admission p) s = .next ({ s.updPartAt p (fun y => { y with admitting := none }) with
          launches := SMap.put s.launches id { l with st := .rejected } }))) ∧
    (l.st = .admitted → (∀ w ∈ l.waits, ¬uncommitted (s.launchAt w).st) →
      exec (.launchReady id) s = .next (s.updLaunchAt id fun l => { l with st := .ready })) ∧
    (∀ i, s.chosen l.part = some id → l.pre ≠ .savedOut → s.freeScope l.part = some i → rc.harts ≤ 32 → SMap.sorted s.launches = true →
      (∀ c, c < 32 → rc.clusters.testBit c = true → s.partOf (c / 4) = l.part) →
      (∀ y ∈ s.launches, y.2.part = l.part → s.startable y.2 = true → l.deadline < y.2.deadline ∨ (l.deadline = y.2.deadline ∧ l.place ≤ y.2.place)) ∧
      ∃ u, exec (.launchStart id) s = .next u ∧
        u = { s with harts := u.harts, cores := u.cores, clusters := u.clusters, dies := u.dies, parts := u.parts, launches := u.launches } ∧
        (let new := (SMap.look ScopeEnt.reset (s.partAt l.part).scopes i).gen.toNat * 256 + i
         (∀ k, u.launchAt k = if k = id then { l with st := .running, root := new, phaseAt := s.now } else s.launchAt k) ∧
         u.scopeOpen l.part new = true ∧
         (let e := SMap.look ScopeEnt.reset (u.partAt l.part).scopes i
          e.root = true ∧ e.launch = id ∧ e.parent = none ∧ e.token = false ∧ e.credits = 0 ∧ e.prevValid = false) ∧
         (∀ c, c < 32 → (totals u c i).1 = (if rc.clusters.testBit c then rc.harts else if s.partOf (c / 4) = l.part then 0 else (totals s c i).1)) ∧
         ∀ n, n < 1024 → if rc.clusters.testBit (n / 32) ∧ n % 32 < rc.harts then
             let v := u.hartAt n
             v.mode = .running ∧ v.launch = some id ∧ v.pc = BitVec.ofNat 64 (s.codeBase id + rc.entry) ∧
             (∀ k : Fin 32, v.r.x[k] = if k = 1 then rc.args else if k = 2 then BitVec.ofNat 64 rc.argsize else 0) ∧
             v.r.fscope = BitVec.ofNat 64 new ∧ v.r.vl = 256 ∧ v.r.hardwired ∧ v.r.crec = 0 ∧ v.r.ras = [] ∧ v.r.inh = false ∧
             v.time.nextIssue = s.cycleAt (n / 2) + 1 ∧ v.ck = some ⟨v.pc, v.ser, s.cycleAt (n / 2) + 1, 0, .go, false⟩ ∧ v.wh = [] ∧ v.land = []
           else u.hartAt n = s.hartAt n) ∧
        (∀ c, c < 512 → if rc.clusters.testBit (c / 16) ∧ c % 16 < (rc.harts + 1) / 2 then
            let k := u.coreAt c
            k.gmode = BitVec.ofNat 64 (rc.mode + 4 * rc.gridchk) ∧ (∀ a, k.tcm.byte a = 0) ∧ (∀ j : Fin 8, k.queues.get j = Queue.reset) ∧ k.eng = [] ∧
            k.hist = [] ∧ k.mtag = 0 ∧ k.rechkLevel = rc.recheck ∧ (∀ g, g ∈ k.ranges ↔ some g ∈ rc.ranges) ∧ (∀ j : Fin 4, (k.streams.get j).active = false) ∧
            k.grid = (s.coreAt c).grid ∧ k.t0 = (s.coreAt c).t0
          else u.coreAt c = s.coreAt c) ∧
        (∀ c, rc.clusters.testBit c = true → c < 32 →
          let k := u.clusterAt c
          k.launch = some id ∧ k.spadBits = rc.spad ∧ (∀ a, k.spad.byte a = 0) ∧ (∀ j, k.tileAt j = TileEnt.reset) ∧ k.ready = [] ∧ k.farms = [] ∧ k.copies = []) ∧
        ∀ c, rc.clusters.testBit c = true → c < 32 → (u.halloc (c / 4) id).size = rc.hbytes ∧ ∀ a, (u.halloc (c / 4) id).ram.byte a = 0) ∧
    (x.period ≠ 0 → x.since + x.period ≤ s.now →
      exec (.periodRefill p q) s = .next (queue fun y => { y with left := y.budget, throttled := false, since := y.since + y.period })) ∧
    (x.period ≠ 0 → x.left = 0 → x.throttled = false →
      ∃ u, exec (.budgetExhausted p q) s = .next u ∧ u = { s with parts := u.parts, launches := u.launches, cores := u.cores } ∧
        (∀ c, u.coreAt c = { s.coreAt c with stopFrom := (u.coreAt c).stopFrom }) ∧
        u.parts = (queue fun y => { y with throttled := true }).parts ∧
        (SMap.sorted s.launches = true → ∀ k, u.launchAt k = if (s.launchAt k).part = p ∧ (s.launchAt k).rc.queue = q.val ∧ (s.launchAt k).st = .running ∧
          (s.launchAt k).pre = .none then { s.launchAt k with pre := .stopping } else s.launchAt k)) ∧
    (uncommitted l.st ∨ l.st = .taken → l.overran = false → l.deadline < s.now →
      exec (.overrun id) s = .next { s.updLaunchAt id (fun l => { l with overran := true }) with outputs := s.outputs ++ [.overrun l.tag] }) ∧
    (let w := s.physNat (x.base + 8) 8
     region → w.testBit 63 = true →
      ∃ u, exec (.cancel p q) s = .next u ∧ u = { s with mem := u.mem, launches := u.launches } ∧ mem u (x.base + 8) 8 (w % 2 ^ 63) ∧
        (SMap.sorted s.launches = true → id ∈ s.launches.map (fun y => y.1) → l.part = p → l.slot = some (q.val, w % 2 ^ 32) → l.st ∈ [.taken, .admitted, .ready, .running, .ended] →
          (∀ y ∈ s.launches, y.2.part = p → y.2.slot = some (q.val, w % 2 ^ 32) → y.1 = id) → l.cause = 0 →
          u.launchAt id = { l with cause := 69, abCode := 0, trapPc := 0, trapInfo := 0, retryable := false }) ∧
        ((∀ y ∈ s.launches, y.2.slot ≠ some (q.val, w % 2 ^ 32)) → u.launches = s.launches))

/-- SHADOW_OVERFLOW, IRREVOCABLE_SWITCH, LAUNCH_END, PREPARE, COMMIT, LINE_SETTLE and LAUNCH_ABORT (R307, R317 to R322, R324, R400): what makes a launch
overflow, end, commit or abort, what becomes visible, and its status. -/
def Obligations.LaunchesEnd : Prop :=
  ∀ (s : State) (p : PartId) (id : Nat), p < 8 → SMap.sorted s.launches = true →
    let l := s.launchAt id
    let rc := l.rc
    let x := s.queueAt l.part rc.queue
    let lines := s.shadow.filter fun e => e.launch = id && e.settleAt.isNone
    let agents := (lines.map fun e => e.line * 64 / (48 * 2 ^ 30)).eraseDups.length
    let uncommitted := fun st : LState => st ∈ [.admitted, .ready, .running, .ended, .committing, .aborting]
    let sound := (lines.map fun e => e.line).Nodup ∧ (∀ e ∈ lines, e.line * 64 + 64 ≤ hbmEnd ∧ e.data.length = 64)
    let shown := fun a => match lines.find? fun e => e.line = a / 64 with
      | some e => if e.mask.getLsbD (a % 64) then e.data.getD (a % 64) 0 else s.physByte a
      | none => s.physByte a
    let settling := fun u : State => (∀ e ∈ u.shadow, e.launch = id → e.settleAt.isSome = true) ∧
      u.shadow.map (fun e => { e with settleAt := none }) = s.shadow.map (fun e => { e with settleAt := none }) ∧
      ∀ e ∈ u.shadow, e.launch ≠ id → e ∈ s.shadow
    let status := fun (u : State) area outcome tag cause code (pc info : Word) =>
      u.physNat area 1 = outcome ∧ u.physNat (area + 1) 1 = l.tries % 256 ∧ u.physNat (area + 2) 2 = tag % 65536 ∧
      u.physNat (area + 4) 2 = cause % 65536 ∧ u.physNat (area + 6) 2 = code % 65536 ∧ u.physNat (area + 8) 8 = pc.toNat ∧
      u.physNat (area + 16) 8 = info.toNat ∧ u.physNat (area + 24) 8 = 0
    let area := fun seq : Nat => x.base + 64 + seq % max x.n 1 * 512 + 96
    let region := x.n ≠ 0 ∧ x.base % 64 = 0 ∧ x.base + 64 + 512 * x.n ≤ hbmEnd ∧ s.queueReached l.part x = true ∧
      ∀ i, i < 8 * x.n + 1 → s.snapReaders (x.base / 64 + i) = []
    let written := fun (seq : Option (Nat × Nat)) a => ∃ y ∈ seq, area y.2 ≤ a ∧ a < area y.2 + 32
    let freed := fun u : State =>
      (∀ n, n < 1024 → rc.clusters.testBit (n / 32) = true → n % 32 < rc.harts → (s.hartAt n).launch = some id →
        (u.hartAt n).mode = .off ∧ (u.hartAt n).launch = none ∧ (u.hartAt n).r = (s.hartAt n).r ∧ (u.hartAt n).land = [] ∧ (u.hartAt n).wh = []) ∧
      (∀ n, (s.hartAt n).launch ≠ some id → u.hartAt n = s.hartAt n) ∧
      (∀ c, c < 32 → rc.clusters.testBit c = true → (s.clusterAt c).launch = some id → (u.clusterAt c).launch = none ∧ (u.clusterAt c).ready = [] ∧
        (u.clusterAt c).copies = [] ∧ (∀ j, ((u.clusterAt c).shapeAt j).sealed = false ∧ ((u.clusterAt c).shapeAt j).gen = ((s.clusterAt c).shapeAt j).gen)) ∧
      (∀ c, c < 32 → rc.clusters.testBit c = true → (u.halloc (c / 4) id).size = 0) ∧
      ∀ sc, s.scopeOpen l.part sc = true → (s.scopeAt l.part sc).launch = id → SMap.sorted (s.partAt l.part).scopes = true → u.scopeOpen l.part sc = false
    (l.overflow = true → rc.ovf = false → l.st = .running → l.cause = 0 →
      exec (.shadowOverflow id) s = .next (s.updLaunchAt id fun l =>
        { l with cause := 66, abCode := 0, trapPc := 0, trapInfo := 0, retryable := true })) ∧
    (s.switches id = true → l.switching = false →
      exec (.irrevocableSwitch id) s = .next (s.updLaunchAt id fun l =>
        { l with switching := true, phaseAt := s.now + ((800 + 3 * agents) * 11 + 9) / 10 })) ∧
    (s.switches id = true → l.switching = true → sound → ∃ u, exec (.irrevocableSwitch id) s = .next u ∧ (u.launchAt id).irrev = true ∧ (u.launchAt id).switching = false ∧
      (u.launchAt id).st = l.st ∧
      (∀ a, u.physByte a = shown a) ∧ settling u ∧
      ∀ n, n < 1024 → if rc.clusters.testBit (n / 32) ∧ n % 32 < rc.harts ∧ (s.hartAt n).launch = some id
        then u.hartAt n = { s.hartAt n with sys := { (s.hartAt n).sys with txtag := (u.hartAt n).sys.txtag } } ∧ (l.tag < 1024 → l.tries < 16 → (u.hartAt n).sys.txtag.getLsbD 14 = true)
        else u.hartAt n = s.hartAt n) ∧
    (s.finished id = true → ∃ u, exec (.launchEnd id) s = .next u ∧ freed u ∧ u.launchAt id = { l with st := .ended } ∧
      (∀ k, k ≠ id → u.launchAt k = s.launchAt k) ∧ u.snaps = s.snaps.filter (fun e => e.launch ≠ id) ∧ u.mem = s.mem ∧ u.shadow = s.shadow) ∧
    (s.prepares p = some id →
      l.part = p ∧ l.st = .ended ∧ (∀ y ∈ s.launches, y.2.part = p → uncommitted y.2.st → l.place ≤ y.2.place) ∧
      exec (.prepare p) s = .next (s.updLaunchAt id fun l => { l with st := .committing, phaseAt := s.now + ((800 + 3 * agents) * 11 + 9) / 10 })) ∧
    (s.commits p = some id → sound → (∀ y ∈ l.slot, y.1 = rc.queue ∧ region) → (∀ y ∈ s.launches, y.1 < s.fresh) →
      ∃ u, exec (.commit p) s = .next u ∧ (u.launchAt id).st = .committed ∧ (u.launchAt id).children = [] ∧ settling u ∧
        (∀ y ∈ l.slot, status u (area y.2) 1 l.tag 0 0 0 0) ∧ (∀ a, ¬written l.slot a → u.physByte a = shown a) ∧
        (u.partAt p).taken = (s.partAt p).taken ++ (List.range l.children.length).map (fun k => s.fresh + k) ∧
        (∀ k raw, l.children[k]? = some raw → let c := u.launchAt (s.fresh + k)
          c.raw = raw ∧ c.parent = some id ∧ c.slot = none ∧ c.st = .taken ∧ c.part = p)) ∧
    (∀ e r, lines = [e] → (s.switches id = true ∧ l.switching = true) ∨ s.commits p = some id → r ∈ s.snapReaders e.line → s.snapFind r e.line = none → s.poolLines l.part < s.poolSize l.part →
      ∃ u, exec (if s.switches id then .irrevocableSwitch id else .commit p) s = .next u ∧
        ⟨r, e.line, s.physBytes (e.line * 64) 64, s.physPoisoned (e.line * 64)⟩ ∈ u.snaps) ∧
    exec (.lineSettle id) s = .next { s with shadow := s.shadow.filter fun e => !(e.launch = id && e.settleAt.any fun t => t ≤ s.now) } ∧
    (l.cause ≠ 0 → l.st ∈ [.taken, .admitted, .ready, .running, .ended] →
      ∃ u, exec (.launchAbort id) s = .next u ∧ (u.launchAt id).st = .aborting ∧ (u.launchAt id).children = [] ∧ (u.launchAt id).cause = l.cause ∧
        u.mem = s.mem ∧ u.shadow = s.shadow ∧ (∀ k, k ≠ id → u.launchAt k = s.launchAt k) ∧
        (u.partAt l.part).taken = (s.partAt l.part).taken.filter (fun t => t ≠ id) ∧ u.flights = s.flights.filter (Flight.survives id l.irrev) ∧
        (∀ n, n < 1024 → rc.clusters.testBit (n / 32) = true → n % 32 < rc.harts → (s.hartAt n).launch = some id →
          (u.hartAt n).mode = .off ∧ (u.hartAt n).r = (s.hartAt n).r ∧ (u.hartAt n).land = [] ∧ (u.hartAt n).wh = []) ∧
        (∀ n, (s.hartAt n).launch ≠ some id → u.hartAt n = s.hartAt n) ∧
        ∀ c, c < 32 → rc.clusters.testBit c = true → (s.clusterAt c).launch = some id →
          (u.clusterAt c).ready = [] ∧ (u.clusterAt c).farms = [] ∧ (u.clusterAt c).copies = ((s.clusterAt c).copies.take 1).map fun y =>
            { y with len := min y.len (1024 * (y.chunk + 1)), tile := none, fut := none }) ∧
    (l.st = .aborting → s.copiesStopped id = true →
      ∃ u, exec (.launchAbort id) s = .next u ∧ freed u ∧ u.shadow = s.shadow.filter (fun e => !(e.launch = id && e.settleAt.isNone)) ∧
        u.snaps = s.snaps.filter (fun e => e.launch ≠ id) ∧
        (∀ k, k ≠ id → u.launchAt k = { s.launchAt k with waits := (s.launchAt k).waits.filter fun w => w ≠ id }) ∧
        (l.retryable = true → l.tries < rc.retry → l.irrev = false →
          u.mem = s.mem ∧ (u.launchAt id).st = .taken ∧ (u.launchAt id).tries = l.tries + 1 ∧ (u.launchAt id).raw = l.raw ∧ (u.launchAt id).cause = 0 ∧
          (u.launchAt id).children = [] ∧ (u.partAt l.part).taken = (s.partAt l.part).taken ++ [id]) ∧
        (l.retryable = false ∨ rc.retry ≤ l.tries ∨ l.irrev = true → (∀ y ∈ l.slot, y.1 = rc.queue ∧ region) →
          (u.launchAt id).st = .aborted ∧ (u.launchAt id).children = [] ∧
          (∀ y ∈ l.slot, status u (area y.2) (if l.cause = 69 then 5 else if l.irrev then 3 else 2) l.tag l.cause l.abCode l.trapPc l.trapInfo) ∧
          ∀ a, ¬written l.slot a → u.physByte a = s.physByte a))

/-! ### Pre-emption, contexts and cuts -/

/-- PREEMPT, CONTEXT_SAVE, SAVE_RESTART, RESTORE, RESUME, STOP_REQUEST, CUT_ROUND and CUTFAIL (R347 to R354, R420, R435): a launch that is stopped,
saved line by line into its save area, restored from it and resumed; a cut levels the step counts of its harts. The places of the sections in
the area are the model's (log 69). -/
def Obligations.ContextsAndCuts : Prop :=
  ∀ (s : State) (id : Nat),
    let l := s.launchAt id
    let rc := l.rc
    let change := fun (f : Launch → Launch) i => exec i s = .next (s.updLaunchAt id f)
    let mine := fun n => rc.clusters.testBit (n / 32) = true ∧ n % 32 < rc.harts
    let core := fun c => rc.clusters.testBit (c / 16) = true ∧ c % 16 < (rc.harts + 1) / 2
    let stop := fun i f => ∃ u, exec i s = .next u ∧ u = { s with launches := u.launches, cores := u.cores } ∧
      (∀ k, u.launchAt k = if k = id then f { l with pre := .stopping } else s.launchAt k) ∧
      ∀ c, c < 512 → u.coreAt c = if core c then { s.coreAt c with
        stopFrom := s.cycleAt c + if (s.coreAt c).frozen then 1 else 0 } else s.coreAt c
    let at_ := fun sec unit off => s.placeAddr id ⟨sec, unit, off⟩
    let rd := fun a => match s.areaPa id .load a with | some pa => s.physByte pa | none => 0
    let field := fun a n => leNat ((List.range n).map fun i => rd (a + i))
    (rc.harts ≤ 32 → l.st = .running → l.pre = .none → stop (.preempt id) fun l => { l with cut := .none }) ∧
    (∀ c, l.st = .running → l.cause = 0 → (l.pre = .stopping ∧ s.drained id = true ∧ c = 0) ∨ l.pre = .saving c →
      let p : Place := ⟨c.toNat / 2 ^ 56, c.toNat / 2 ^ 40 % 2 ^ 16, c.toNat % 2 ^ 40⟩
      let clean := p.sec = 2 ∧ ∃ r, 64 + 1024 * r ≤ p.off ∧ p.off < 64 + 1024 * (r + 1) ∧ r < 512 ∧ (s.coreAt p.unit).dirty.getLsbD r = false
      let store := s.areaPa id .store
      exec (.contextSave id true) s = .next (s.updLaunchAt id fun l => { l with pre := .parked c }) ∧
      (¬clean → (p.sec ≠ 2 ∨ p.off < 524352) → (store (s.placeAddr id p) = none ∨ store (at_ 0 0 24) = none) →
        exec (.contextSave id false) s = .next (s.updLaunchAt id fun l => { l with pre := .parked c })) ∧
      (∀ q, rc.nextPlace p = some q →
        (clean → change (fun l => { l with pre := .saving q.cursor }) (.contextSave id false)) ∧
        (¬clean → (p.sec ≠ 2 ∨ p.off < 524352) → ∀ pa pc, store (s.placeAddr id p) = some pa → store (at_ 0 0 24) = some pc → pa + 64 ≤ hbmEnd →
          pc + 8 ≤ hbmEnd → s.snapReaders (pa / 64) = [] → s.snapReaders (pc / 64) = [] →
          ∃ u line, exec (.contextSave id false) s = .next u ∧ u = { s with mem := u.mem, launches := u.launches, freeCtr := s.freeCtr + 1 } ∧
            (∀ k, u.launchAt k = if k = id then { l with pre := .saving q.cursor } else s.launchAt k) ∧ line.length = 64 ∧
            (∀ a, u.physByte a = if pc ≤ a ∧ a < pc + 8 then byteAt (leBytes 8 q.cursor.toNat) (a - pc)
              else if pa ≤ a ∧ a < pa + 64 then byteAt line (a - pa) else s.physByte a) ∧
            ∀ i, i < 64 →
              let o := p.off + i
              let k := s.coreAt p.unit
              (p.sec = 0 → o < 32 → byteAt line i = byteAt (leBytes 8 1 ++ leBytes 8 l.tag ++ leBytes 8 rc.code ++ leBytes 8 c.toNat) o) ∧
              (∀ j x, p.sec = 1 → ((s.snapshot p.unit).take 96)[j]? = some x → 2048 + 544 * j ≤ o → o < 2048 + 544 * (j + 1) →
                let b := o - (2048 + 544 * j)
                byteAt line i = if b < 32 then
                    byteAt (leBytes 1 x.kind ++ leBytes 1 x.file ++ leBytes 2 x.dest ++ leBytes 2 x.dist ++ leBytes 10 0 ++ leBytes 16 x.poison.toNat) b
                  else byteAt x.data (b - 32)) ∧
              (p.sec = 2 → o < 64 → byteAt line i = BitVec.ofNat 8 (k.dirty.toNat / 2 ^ (8 * o))) ∧
              (∀ r j, p.sec = 2 → r < 512 → o = 64 + 1024 * r + j → j < 1024 →
                byteAt line i = byteAt (leBytes 4 (k.cell (256 * r + j / 4)).v.toNat) (j % 4)) ∧
              (p.sec = 3 → o < 2 ^ 18 → byteAt line i = k.tcm.byte o) ∧
              (p.sec = 4 → byteAt line i = (s.clusterAt p.unit).spad.byte o) ∧
              (p.sec = 5 → byteAt line i = (s.halloc p.unit id).ram.byte o))) ∧
      (rc.nextPlace p = none → (p.sec ≠ 2 ∨ p.off < 524352) → ∀ pa pc, store (s.placeAddr id p) = some pa → store (at_ 0 0 24) = some pc →
        s.snapReaders (pa / 64) = [] → s.snapReaders (pc / 64) = [] → pa < hbmEnd → pc < hbmEnd → ¬clean →
        ∃ u v, exec (.contextSave id false) s = .next u ∧ u.launchAt id = { l with st := .ready, pre := .savedOut, saved := some v } ∧
          (∀ k, k ≠ id → u.launchAt k = s.launchAt k) ∧ u.shadow = s.shadow ∧
          (rc.harts ≤ 32 → (∀ c, c < 512 → core c → ∃ x ∈ v.cores, x.core = c ∧ x.image.queues = (s.coreAt c).queues ∧
              x.image.streams = (s.coreAt c).streams ∧ x.image.ranges = (s.coreAt c).ranges ∧
              (∀ h v, (h = 2 * c ∧ v = x.h0) ∨ (h = 2 * c + 1 ∧ v = x.h1) →
                v.image.r = { (s.hartAt h).r with tile := Tile.zero } ∧ v.image.sys = (s.hartAt h).sys ∧ v.image.pc = (s.hartAt h).pc)) ∧
            ∀ n, n < 1024 → mine n → (s.hartAt n).launch = some id → (u.hartAt n).mode = .off) ∧
          ∀ c, c < 32 → rc.clusters.testBit c = true →
            (u.halloc (c / 4) id).size = 0 ∧ ((s.clusterAt c).launch = some id → (u.clusterAt c).launch = none))) ∧
    (∀ n, n < 1024 →
      let h := s.hartAt n
      let entry := fun e => e ∈ s.snapshot n
      (∀ w ∈ h.wq, ∀ r, w.dst = .x r → w.sel ≠ 0 → ∀ b, h.drain = .since b → ∃ e, entry e ∧ e.kind = 1 ∧ e.file = 0 ∧ e.dest = r.val ∧
        e.dist = w.due - b ∧ e.value 8 = w.val.toNat % 2 ^ 64 ∧ e.poison = if w.poi then 1 else 0) ∧
      (∀ x ∈ h.land, x.landed = false → x.silent = false → ∀ ws, x.res = some ws → ∀ w ∈ ws, ∀ r, x.kind.operand = none → w.reg = some r →
        ∃ e, entry e ∧ e.kind = 0 ∧ e.file = 0 ∧ e.dest = r.val ∧ e.dist = x.rem.getD 0 ∧ e.value 8 = w.val.toNat) ∧
      ∀ w ∈ (s.coreAt (n / 2)).vq, w.hart = (n % 2 = 1) → ∀ b, h.drain = .since b → ∀ g, g < 2 → ∀ j, j < 128 →
        (∀ x ∈ w.cells, ∀ y ∈ w.cells, x.1 = y.1 → x = y) →
        ∀ x ∈ w.cells, x.1 = w.op.cell (128 * g + j) → ∃ e, entry e ∧ e.kind = 1 ∧
          e.file = (match w.op.kind with | .row => 3 | .col => 5 | .dia => 6) ∧ e.dest = 512 * (if w.op.half then 1 else 0) + 2 * w.op.n.val + g ∧
          e.dist = w.due - b ∧ e.poison.getLsbD j = x.2.poi ∧ BitVec.ofNat 32 (leNat ((e.data.drop (4 * j)).take 4)) = x.2.v) ∧
    (∀ c, l.pre = .parked c → change (fun l => { l with pre := .saving c }) (.saveRestart id)) ∧
    (∀ v, l.pre = .savedOut → l.saved = some v → s.chosen l.part = some id →
      let handle := field (at_ 0 0 16) 8
      (s.codeSlot l.part handle = none → l.cause = 0 →
        change (fun l => { l with cause := 68, abCode := 0, trapPc := 0, trapInfo := 0, retryable := false }) (.restore id)) ∧
      (s.codeSlot l.part handle ≠ none → (v.cores.map fun x => x.core).Nodup → (v.clusters.map fun x => x.1).Nodup → (v.allocs.map fun x => x.1).Nodup →
        ∃ u, exec (.restore id) s = .next u ∧
          u = { s with harts := u.harts, cores := u.cores, clusters := u.clusters, dies := u.dies, launches := u.launches, fresh := u.fresh } ∧
          u.launchAt id = { l with st := .running, pre := .restored, saved := none } ∧
          (∀ x ∈ v.cores,
            let k := u.coreAt x.core
            k.queues = x.image.queues ∧ k.gmode = x.image.gmode ∧ k.ranges = x.image.ranges ∧ k.streams = x.image.streams ∧ k.dirty = 0 ∧
            k.t0 = (s.coreAt x.core).t0 ∧
            (∀ r j, r < 512 → j < 256 → k.cell (256 * r + j) = ⟨BitVec.ofNat 32 (field (at_ 2 x.core (64 + 1024 * r) + 4 * j) 4),
              (field (at_ 2 x.core (524352 + 32 * r)) 32).testBit j⟩) ∧
            (∀ a, a < 2 ^ 18 → k.tcm.byte a = rd (at_ 3 x.core 0 + a)) ∧
            ∀ n y, (n = 2 * x.core ∧ y = x.h0) ∨ (n = 2 * x.core + 1 ∧ y = x.h1) →
              let h := u.hartAt n
              let tile := at_ 2 x.core (540736 + 16448 * (n % 2))
              h.r = { y.image.r with tile := h.r.tile } ∧ h.sys = y.image.sys ∧ h.pc = y.image.pc ∧ h.launch = y.image.launch ∧
              (y.image.mode = .stopped → h.mode = .saved) ∧ h.r.tile.f16 = decide (rd (tile + 16384) = 1) ∧
              (∀ i, i < 8192 → SMap.look 0 h.r.tile.s i = BitVec.ofNat 16 (field (tile + 2 * i) 2)) ∧
              ∀ j, j < y.more.length →
                let e := at_ 1 n (2048 + 544 * j)
                let dist := field (e + 4) 2
                let reg := field (e + 2) 2
                (rd e = 0 → rd (e + 1) = 0 → ∃ d ∈ h.land, d.arrived = true ∧ d.landed = false ∧ d.rem = some dist ∧
                  d.kind = .scalar (Fin.ofNat 32 reg) .w ∧ d.res = some [⟨some (Fin.ofNat 32 reg), 0, BitVec.ofNat 64 (field (e + 32) 8), (field (e + 16) 16).testBit 0⟩]) ∧
                (rd e = 1 → rd (e + 1) = 0 → ∃ w ∈ h.wq, w.dst = .x (Fin.ofNat 32 reg) ∧ w.val = BitVec.ofNat 256 (field (e + 32) 8) ∧
                  w.due = dist ∧ w.poi = (field (e + 16) 16).testBit 0)) ∧
          (∀ x ∈ v.clusters, (∀ a, a < 2 ^ rc.spad → (u.clusterAt x.1).spad.byte a = rd (at_ 4 x.1 0 + a)) ∧
            (u.clusterAt x.1).tiles = x.2.tiles ∧ (u.clusterAt x.1).ready = x.2.ready ∧ (u.clusterAt x.1).launch = x.2.launch) ∧
          ∀ x ∈ v.allocs, (u.halloc x.1 id).size = x.2.size ∧ ∀ a, a < rc.hbytes → (u.halloc x.1 id).ram.byte a = rd (at_ 5 x.1 0 + a))) ∧
    (l.st = .running → l.pre = .restored ∨ (l.pre = .none ∧ l.cut = .failed) → rc.harts ≤ 32 → (∀ n, n < 1024 → mine n → (s.hartAt n).held = none) →
      ∃ u, exec (.resume id) s = .next u ∧ u = { s with harts := u.harts, launches := u.launches } ∧ u.launchAt id = { l with pre := .none, cut := .none } ∧
        ∀ n, n < 1024 → mine n →
          ((s.hartAt n).mode = .saved → (u.hartAt n).mode = .running ∧ (u.hartAt n).pc = (s.hartAt n).sys.ckptpc ∧ (u.hartAt n).r = (s.hartAt n).r ∧
            (u.hartAt n).rearm = true ∧ s.cycleAt (n / 2) + 1 ≤ (u.hartAt n).time.nextIssue) ∧
          ((s.hartAt n).mode = .cut → u.hartAt n = { s.hartAt n with mode := .running, stopReq := false }) ∧
          ((s.hartAt n).mode ≠ .saved → (s.hartAt n).mode ≠ .cut → u.hartAt n = { s.hartAt n with stopReq := false })) ∧
    (l.st = .running → l.pre = .none → l.cut = .none → rc.harts ≤ 32 →
      ∃ u, exec (.stopRequest id) s = .next u ∧ u = { s with harts := u.harts, launches := u.launches } ∧
        u.launchAt id = { l with cut := .gathering s.now none } ∧
        ∀ n, n < 1024 → u.hartAt n = if mine n then { s.hartAt n with stopReq := true } else s.hartAt n) ∧
    (∀ since round, l.cut = .gathering since round ∨ (∃ m, l.cut = .levelling m since round) → rc.harts ≤ 32 →
      let takes := fun n => n < 1024 ∧ mine n ∧ (s.hartAt n).mode ≠ .idle ∧ (s.hartAt n).mode ≠ .off
      let count := fun n => (s.hartAt n).r.stepcnt.toNat
      ((∀ n, takes n → (s.hartAt n).mode = .cut) →
        (round = none → ∃ cut, change (fun l => { l with cut := cut }) (.cutRound id) ∧
          (cut = .gathering since (some (s.now + 220)) ∨ ∃ m, cut = .levelling m since (some (s.now + 220)))) ∧
        ∀ t, round = some t → t ≤ s.now →
          ((∀ n m, takes n → takes m → count n = count m) → stop (.cutRound id) fun l => { l with cut := .complete }) ∧
          ∀ top, takes top → (∀ n, takes n → count n ≤ count top) → (∃ n, takes n ∧ count n ≠ count top) → (∀ n, takes n → (s.hartAt n).held = none) →
            ∃ u, exec (.cutRound id) s = .next u ∧ u = { s with harts := u.harts, launches := u.launches } ∧
              u.launchAt id = { l with cut := .levelling (count top) since none } ∧
              ∀ n, n < 1024 → u.hartAt n = if mine n ∧ (s.hartAt n).mode = .cut ∧ count n < count top then { s.hartAt n with mode := .running } else s.hartAt n) ∧
      ((∃ n, takes n ∧ (s.hartAt n).mode ≠ .cut) → since + 1100 * s.pkg.cfg.cutlim < s.now →
        exec (.cutfail id) s = .next { s.updLaunchAt id (fun l => { l with cut := .failed }) with outputs := s.outputs ++ [.cutfail l.tag] }))

/-! ### The fabric -/

/-- RDMA_WRITE, RDMA_READ, RDMA_SEND, RDMA_FETCH_ADD, RDMA_COMPARE_SWAP, LINK_BRINGUP, PEER_FRAME, PEER_RESEND and PEER_PORT_LOST (R143, R320, R382 to
R384, R386, R395, R398): what hosts and other modules read, write and are answered. That a SEND which is too long is answered with a NAK is the
model's (log 70). -/
def Obligations.HostsAndPeers : Prop :=
  ∀ (s : State) (port : Fin 8) (qp pa : Nat),
    let c := s.pkg.cfg
    let pt := SMap.look Port.reset s.pkg.ports port.val
    let io := port.castSucc
    let peer := 1 < c.domsize ∧ port.val < c.domsize ∧ port.val ≠ c.modulePos
    let host := c.domsize ≤ 1 ∨ port.val = c.modulePos
    let tells := fun (t : State) o => ({ t with outputs := t.outputs ++ [o] } : State)
    let ports := fun f => ({ s with pkg := { s.pkg with ports := SMap.put s.pkg.ports port.val (f pt) } } : State)
    let all := fun n => pa + n ≤ hbmEnd ∧ ∀ k, k < n → s.mapped (pa + k) = true
    let free := fun n => ∀ e ∈ s.shadow, s.lineCommits e.line = true → pa + n ≤ 64 * e.line ∨ 64 * e.line + 64 ≤ pa
    let snapless := fun n => ∀ line, pa < 64 * line + 64 → 64 * line < pa + n → s.snapReaders line = []
    let waits := fun i op => exec i s = .next { s with pkg := { s.pkg with waiting := s.pkg.waiting ++ [op] } }
    let taken := pt.up = true ∧ (qp ∈ pt.qps ∨ (s.pkg.ports.map fun p => p.2.qps.length).sum < 4096)
    let sees := fun (u : State) => (∀ k, k ≠ port.val → SMap.look Port.reset u.pkg.ports k = SMap.look Port.reset s.pkg.ports k) ∧
      ∃ qps, SMap.look Port.reset u.pkg.ports port.val = { pt with qps := qps } ∧ ∀ k, k ∈ qps ↔ k = qp ∨ k ∈ pt.qps
    let only := fun i outs => ∃ u, exec i s = .next u ∧ u = { s with outputs := s.outputs ++ outs, pkg := { s.pkg with ports := u.pkg.ports } } ∧ sees u
    let holds := fun (u : State) (bs : List Byte) => ∀ a, u.physByte a = if pa ≤ a ∧ a < pa + bs.length then bs.getD (a - pa) 0 else s.physByte a
    let wrote := fun i (bs : List Byte) outs => ∃ u, exec i s = .next u ∧ sees u ∧ holds u bs ∧
      u = { s with mem := u.mem, parts := u.parts, outputs := s.outputs ++ outs, pkg := { s.pkg with ports := u.pkg.ports } } ∧
      ∀ p, u.partAt p = { s.partAt p with order := (u.partAt p).order }
    let fadd := fun v => Instr.rdmaFetchAdd ⟨port, qp, pa⟩ v
    let cswp := fun v w => Instr.rdmaCompareSwap ⟨port, qp, pa⟩ v w
    (taken →
      (∀ data imm, data.length ≤ 2 ^ 31 → all data.length → snapless data.length → free data.length →
        wrote (.rdmaWrite ⟨io, qp, pa⟩ ⟨data, imm⟩) data ((imm.map fun v => Output.rdmaImm port.val qp v).toList ++ [.rdmaAck pa])) ∧
      (∀ data imm, data ≠ [] → all data.length → data.length ≤ 2 ^ 31 → (∃ e ∈ s.shadow, s.lineCommits e.line = true ∧ pa < 64 * e.line + 64 ∧ 64 * e.line < pa + data.length) →
        waits (.rdmaWrite ⟨io, qp, pa⟩ ⟨data, imm⟩) (.write io qp pa data imm)) ∧
      (∀ data imm, 2 ^ 31 < data.length ∨ (data ≠ [] ∧ s.mapped pa = false) → only (.rdmaWrite ⟨io, qp, pa⟩ ⟨data, imm⟩) [.rdmaNak pa false]) ∧
      (∀ len, len ≤ 2 ^ 31 → all len → free len → (∀ k, k < len → s.physPoisoned (pa + k) = false) →
        only (.rdmaRead ⟨io, qp, pa⟩ len) [.rdmaData pa ((List.range len).map fun k => s.physByte (pa + k))]) ∧
      (∀ len, 2 ^ 31 < len ∨ (0 < len ∧ s.mapped pa = false) → only (.rdmaRead ⟨io, qp, pa⟩ len) [.rdmaNak pa false]) ∧
      (∀ len, 0 < len → len ≤ 2 ^ 31 → all len → free len → s.physPoisoned pa = true → only (.rdmaRead ⟨io, qp, pa⟩ len) [.rdmaNak pa true]) ∧
      (∀ len, 0 < len → all len → len ≤ 2 ^ 31 → (∃ e ∈ s.shadow, s.lineCommits e.line = true ∧ pa < 64 * e.line + 64 ∧ 64 * e.line < pa + len) →
        waits (.rdmaRead ⟨io, qp, pa⟩ len) (.read io qp pa len)) ∧
      (∀ v w : Word,
        let old := s.physNat pa 8
        (pa % 8 ≠ 0 ∨ s.mapped pa = false → only (fadd v) [.rdmaNak pa false] ∧ only (cswp v w) [.rdmaNak pa false]) ∧
        (pa % 8 = 0 → s.mapped pa = true → (∃ e ∈ s.shadow, s.lineCommits e.line = true ∧ pa / 64 = e.line) →
          waits (fadd v) (.fetchAdd port qp pa v) ∧ waits (cswp v w) (.compareSwap port qp pa v w)) ∧
        (pa % 8 = 0 → s.mapped pa = true → free 8 →
          (s.physPoisoned pa = true → only (fadd v) [.rdmaNak pa true] ∧ only (cswp v w) [.rdmaNak pa true]) ∧
          (pa < hbmEnd → s.physPoisoned pa = false → snapless 8 →
            wrote (fadd v) (leBytes 8 ((old + v.toNat) % 2 ^ 64)) [.rdmaOld pa (BitVec.ofNat 64 old)] ∧
            (old = v.toNat → wrote (cswp v w) (leBytes 8 w.toNat) [.rdmaOld pa (BitVec.ofNat 64 old)]) ∧
            (old ≠ v.toNat → only (cswp v w) [.rdmaOld pa (BitVec.ofNat 64 old)])))) ∧
      ∀ data, only (.rdmaSend port qp data) [if data.length ≤ 2 ^ 31 then .sent port.val qp else .rdmaNak 0 false]) ∧
    (¬taken → (∀ data imm, exec (.rdmaWrite ⟨io, qp, pa⟩ ⟨data, imm⟩) s = .next s) ∧ (∀ len, exec (.rdmaRead ⟨io, qp, pa⟩ len) s = .next s) ∧
      (∀ v w, exec (fadd v) s = .next s ∧ exec (cswp v w) s = .next s) ∧ ∀ data, exec (.rdmaSend port qp data) s = .next s) ∧
    (∀ len data imm, 0 < len → data ≠ [] → len ≤ 2 ^ 31 → pa < hbmEnd →
      exec (.rdmaRead ⟨8, qp, pa⟩ len) s = .next (tells s (.rdmaNak pa false)) ∧ exec (.rdmaWrite ⟨8, qp, pa⟩ ⟨data, imm⟩) s = .next (tells s (.rdmaNak pa false))) ∧
    (∀ (domid : BitVec 32) (pos : Nat),
      let up := ports fun p => { p with up := true, lost := false, expect := 0, sentSeq := 0, unacked := 0 }
      (host → exec (.linkBringup port domid pos) s = .next up) ∧
      (peer → domid.toNat = c.domid → pos = port.val → exec (.linkBringup port domid pos) s = .next up) ∧
      (peer → domid.toNat ≠ c.domid ∨ pos ≠ port.val →
        ∃ u e, exec (.linkBringup port domid pos) s = .next u ∧ u.pkg = (ports fun p => { p with up := false }).pkg ∧
          (u.dieAt port.val).log.getLast? = some e ∧ e.cls = 7 ∧ e.unit = port.val)) ∧
    (∀ (seq : Nat) (act : PeerAct) (size : Nat), peer → pt.up = true →
      let op := peerOp pa act size
      let frame := exec (.peerFrame port seq pa act size) s
      let acks := fun (u : State) r => u.outputs = s.outputs ++ [.peerAck port.val seq r] ∧
        SMap.look Port.reset u.pkg.ports port.val = { pt with expect := pt.expect + 1, reply := r }
      let answers := fun r => frame = .next (tells (ports fun p => { p with expect := p.expect + 1, reply := r }) (.peerAck port.val seq r))
      let stored := fun (bs : List Byte) r => ∃ u, frame = .next u ∧ acks u r ∧ holds u bs ∧
        u = { s with mem := u.mem, outputs := u.outputs, pkg := { s.pkg with ports := u.pkg.ports }, freeCtr := u.freeCtr }
      (seq + 1 = pt.expect → frame = .next (tells s (.peerAck port.val seq pt.reply))) ∧
      (seq ≠ pt.expect → seq + 1 ≠ pt.expect → frame = .next s) ∧
      (seq = pt.expect →
        (∀ len, op = .read pa len → free len → 0 < len →
          (all len → ∃ poi, answers ⟨(List.range len).map fun k => s.physByte (pa + k), poi, false⟩ ∧ (s.physPoisoned pa = true → poi = true) ∧
            ((∀ k, k < len → s.physPoisoned (pa + k) = false) → poi = false)) ∧
          (s.mapped pa = false → answers ⟨[], false, true⟩)) ∧
        ((∃ e ∈ s.shadow, s.lineCommits e.line = true ∧ pa / 64 = e.line) → ∀ len, 0 < len → op = .read pa len →
          waits (.peerFrame port seq pa act size) (.peer port seq op)) ∧
        (∀ bs, op = .write pa bs → bs ≠ [] → free bs.length →
          (all bs.length → snapless bs.length → stored bs ⟨[], false, false⟩) ∧ (isColl pa = false → s.mapped pa = false → answers ⟨[], false, true⟩)) ∧
        ∀ k wide b x, op = .atomic pa k wide b x →
          let w := if wide = true then 8 else 4
          let old := s.physNat pa w
          let kind := [AtomKind.swp, .add, .and, .or, .xor, .min, .max, .minu, .maxu, .cas, .fadd].getD k.val .swp
          free w →
            (pa % w ≠ 0 ∨ s.mapped pa = false → answers ⟨[], false, true⟩) ∧
            (pa % w = 0 → s.mapped pa = true → pa < hbmEnd → snapless w → s.physPoisoned pa = false →
              (∀ v, kind.apply w old b.toNat x.toNat = some v → stored (leBytes w v) ⟨leBytes w old, false, false⟩) ∧
              (kind.apply w old b.toNat x.toNat = none → answers ⟨leBytes w old, false, false⟩)))) ∧
    (∀ seq, peer → pt.up = true → (if pt.sentSeq = seq ∧ 0 < pt.unacked then pt.unacked + 1 else 1) < 3 →
      exec (.peerResend port seq) s =
        .next (ports fun p => { p with sentSeq := seq, unacked := if pt.sentSeq = seq ∧ 0 < pt.unacked then pt.unacked + 1 else 1 })) ∧
    (∀ seq, peer → pt.up = true → pt.lost = false → pt.sentSeq = seq → 2 ≤ pt.unacked →
      ∃ u, exec (.peerResend port seq) s = .next u ∧ (SMap.look Port.reset u.pkg.ports port.val).lost = true) ∧
    (peer → pt.lost = false → SMap.sorted s.pkg.groups = true → SMap.sorted s.harts = true →
      ∃ u, exec (.peerPortLost port) s = .next u ∧
        (let p := SMap.look Port.reset u.pkg.ports port.val
         p.lost = true ∧ p.up = false ∧ ∀ k, k ≠ port.val → SMap.look Port.reset u.pkg.ports k = SMap.look Port.reset s.pkg.ports k) ∧
        (∀ g, (s.groupAt g).data ≠ [] → (∃ d, d < 8 ∧ (s.groupAt g).members.getLsbD (8 * port.val + d) = true) →
          (u.groupAt g).round = (s.groupAt g).round + 1 ∧ (u.groupAt g).data = [] ∧
          ∀ d, d < 8 → (s.groupAt g).members.getLsbD (8 * c.modulePos + d) = true → u.slotNat d g 8 8 = 2 ^ 64 - 1) ∧
        ∀ n, (s.hartAt n).mode = .running → (∃ l ∈ (s.hartAt n).land, l.arrived = false ∧ ∃ e ∈ l.elems, e.took = none ∧ ∃ loc, e.loc = some loc ∧ loc.unit = .remote port.val) →
          ∃ t, (u.hartAt n).mode = .welkin t ∧ t.cause = 24)

/-- COLLECTIVE_TRIGGER, COLLECTIVE_COMPLETE and COLLECTIVE_TIMEOUT (R390 to R395): the data that a member contributes, the result that every member of
this module receives, and the rounds that fail. -/
def Obligations.Collectives : Prop :=
  ∀ (s : State) (g : Fin 64) (d : DieId), d < 8 →
    let k := s.groupAt g.val
    let m := 8 * s.pkg.cfg.modulePos + d
    let word := fun (t : State) d o n => leNat ((List.range n).map fun i => (t.dieAt d).coll.byte (512 * g.val + o + i))
    let here := fun d => d < 8 ∧ k.members.getLsbD (8 * s.pkg.cfg.modulePos + d) = true
    let slots := fun (u : State) d' (o n : Nat) => ∀ e a, ¬(d' e ∧ 512 * g.val + o ≤ a ∧ a < 512 * g.val + o + n) → (u.dieAt e).coll.byte a = (s.dieAt e).coll.byte a
    let started := fun (u : State) => (u.groupAt g.val).round = k.round + 1 ∧ (u.groupAt g.val).triggered = [] ∧ (u.groupAt g.val).data = [] ∧
      (u.groupAt g.val).doneAt = none ∧ (u.groupAt g.val).members = k.members ∧ (u.groupAt g.val).op = k.op ∧ (u.groupAt g.val).ty = k.ty ∧
      (u.groupAt g.val).count = k.count
    (g.val ∈ (s.dieAt d).trig →
      let left := (s.dieAt d).trig.filter fun t => t ≠ g.val
      (k.members.getLsbD m = false → exec (.collectiveTrigger d g) s = .next (s.updDieAt d fun x => { x with trig := left })) ∧
      (k.members.getLsbD m = true → word s d 0 8 ≠ (k.round + 1) % 2 ^ 64 →
        ∃ u, exec (.collectiveTrigger d g) s = .next u ∧ u = { s with dies := u.dies } ∧ (u.dieAt d).trig = left ∧ word u d 8 8 = 2 ^ 64 - 1 ∧
          slots u (fun e => e = d) 8 8) ∧
      (k.members.getLsbD m = true → word s d 0 8 = (k.round + 1) % 2 ^ 64 → m ∉ k.triggered →
        ∃ u, exec (.collectiveTrigger d g) s = .next u ∧ (∀ e, (u.dieAt e).coll = (s.dieAt e).coll) ∧ (u.dieAt d).trig = left ∧
          (u.groupAt g.val).round = k.round ∧ (∀ i, i ∈ (u.groupAt g.val).triggered ↔ i = m ∨ i ∈ k.triggered) ∧
          (u.groupAt g.val).data = k.data ++ [(m, (List.range k.count).map fun i => BitVec.ofNat 32 (word s d (64 + 4 * i) 4))] ∧
          (∀ i, i ≠ g.val → u.groupAt i = s.groupAt i) ∧
          (k.doneAt = none → ((u.groupAt g.val).doneAt.isSome = true ↔ ∀ i, i < 64 → k.members.getLsbD i = true → i = m ∨ ∃ v ∈ k.data, v.1 = i)) ∧
          ∀ t, k.doneAt = none → (u.groupAt g.val).doneAt = some t →
            let dies := fun b => ((List.range 8).filter fun e => k.members.getLsbD (8 * b + e)).length
            let mods := ((List.range 8).filter fun b => dies b ≠ 0).length
            ∃ most, (∀ b, b < 8 → dies b ≤ most) ∧ (∃ b, b < 8 ∧ dies b = most) ∧ ∃ p q, most ≤ 2 ^ p ∧ (∀ p', most ≤ 2 ^ p' → p ≤ p') ∧ mods ≤ 2 ^ q ∧
              (∀ q', mods ≤ 2 ^ q' → q ≤ q') ∧ t = s.now + ((600 + 150 * p + 450 * q) * 11 + 9) / 10)) ∧
    (∀ t, k.doneAt = some t → t ≤ s.now → k.count ≤ 64 → s.dataMoved g.val k = false →
      let f := fun x y : Cell => if k.ty = 0
        then (match k.op with
          | 0 => rne32Add x y
          | 1 => BitVec.ofNat 32 (fmtF32.minMax true x.toNat y.toNat).1
          | _ => BitVec.ofNat 32 (fmtF32.minMax false x.toNat y.toNat).1)
        else (match k.op with
          | 0 => x + y
          | 1 => if x.toInt < y.toInt then y else x
          | _ => if x.toInt < y.toInt then x else y)
      let join : Option Cell → Option Cell → Option Cell := fun a b => match a, b with
        | some x, some y => some (f x y)
        | some x, none => some x
        | none, v => v
      let tree := fun l : Nat → Option Cell =>
        join (join (join (l 0) (l 1)) (join (l 2) (l 3))) (join (join (l 4) (l 5)) (join (l 6) (l 7)))
      let value := fun i b => if k.members.getLsbD b then (k.data.find? fun x => x.1 = b).map (fun x => x.2.getD i 0) else none
      ∃ u, exec (.collectiveComplete g) s = .next u ∧ u = { s with dies := u.dies, pkg := u.pkg, freeCtr := u.freeCtr } ∧ started u ∧
        (∀ i, i ≠ g.val → u.groupAt i = s.groupAt i) ∧
        ∀ e, here e → word u e 8 8 = (k.round + 1) % 2 ^ 64 ∧ word u e 0 8 = word s e 0 8 ∧
          ∀ i, i < k.count → word u e (64 + 4 * i) 4 = ((tree fun b => tree fun c => value i (8 * b + c)).getD 0).toNat) ∧
    (k.data ≠ [] → k.firstAt + s.memtoCycles ≤ s.now → (∀ t, k.doneAt = some t → s.now < t) →
      ∃ u, exec (.collectiveTimeout g) s = .next u ∧ u = { s with dies := u.dies, pkg := u.pkg } ∧ started u ∧
        (∀ e, here e → word u e 8 8 = 2 ^ 64 - 1) ∧ slots u here 8 8)

/-- FLIT_RECEIVE, FLIT_REPLAY, DIE_LINK_LOST, RESET_CORE, RESET_COPY_ENGINE, RESET_DIE_LINK, RESET_ETHERNET_PORT, RESET_PARTITION, RESET_DEVICE,
PATROL_SCRUB, PC_DROP, THERMAL_THROTTLE, WELKIN_CORE_FAULT and SHADOW_DIRECTORY_ERROR (R329, R385, R388, R389, R396 to R400, R408): what a reset
clears and keeps, when a link is lost, and what an error does beside its log entry. That a partition reset keeps the loader slots and clears PERIOD
and BUDGET is the model's reading (log 48). -/
def Obligations.ResetsAndErrors : Prop :=
  ∀ (s : State) (a b d : DieId) (p : PartId), a < 8 → b < 8 → d < 8 → p < 8 → SMap.sorted s.launches = true →
    let linked := (a / 4 = b / 4 ∧ (a + 1 = b ∨ b + 1 = a)) ∨ a + 4 = b ∨ b + 4 = a
    let link := fun (t : State) a b => SMap.look Link.reset t.pkg.links (8 * a + b)
    let links := fun f => ({ s with pkg := { s.pkg with links := SMap.put s.pkg.links (8 * a + b) (f (link s a b)) } } : State)
    let logged := fun (u : State) d cls unit => ∃ e, (u.dieAt d).log.getLast? = some e ∧ e.cls = cls ∧ e.unit = unit
    let fresh := fun (u : State) n => (u.hartAt n).mode = .off ∧ (u.hartAt n).launch = none ∧ (u.hartAt n).r = Regs.reset ∧ (u.hartAt n).land = [] ∧
      (u.hartAt n).wh = []
    let wiped := fun (u : State) p =>
      (∀ n, n < 1024 → s.partOf (n / 128) = p → fresh u n) ∧
      (∀ c, c < 512 → s.partOf (c / 64) = p → (∀ i, (u.coreAt c).cell i = GCell.zero) ∧ (∀ i, (u.coreAt c).tcm.byte i = 0) ∧
        (u.coreAt c).queues = Core.reset.queues ∧ (u.coreAt c).gmode = 0 ∧ (u.coreAt c).dptroot = (s.coreAt c).dptroot ∧
        (u.coreAt c).iptroot = (s.coreAt c).iptroot ∧ (u.coreAt c).fenced = false) ∧
      (∀ c, c < 32 → s.partOf (c / 4) = p → u.clusterAt c = Cluster.reset) ∧
      (∀ e, e < 8 → s.partOf e = p → ∀ l, (u.halloc e l).size = 0) ∧
      (∀ q, (s.queueAt p q).n = (u.queueAt p q).n ∧ (s.queueAt p q).base = (u.queueAt p q).base ∧ (u.queueAt p q).period = 0) ∧
      (∀ k : Fin 8, (u.partAt p).reldl[k] = 2 ^ 40 - 1) ∧ (∀ k, u.scopeOpen p k = false) ∧ (u.partAt p).slots = (s.partAt p).slots ∧
      (u.partAt p).taken = [] ∧
      (∀ i, (s.launchAt i).part = p → i ∈ s.launches.map (fun y => y.1) → (s.launchAt i).st ∉ [.committed, .aborted, .rejected] →
        (u.launchAt i).st = .aborted ∧ ((∀ line, s.snapReaders line = []) →
          (u.launchAt i).cause = if (s.launchAt i).cause = 0 then 70 else (s.launchAt i).cause)) ∧
      ((∀ y ∈ s.launches, y.2.slot = none) → u.mem = s.mem) ∧
      ∀ n, s.partOf (n / 128) ≠ p → (∀ y ∈ s.launches, y.2.part = p → (s.hartAt n).launch ≠ some y.1) → u.hartAt n = s.hartAt n
    (linked → (link s a b).lost = false →
      let l := link s a b
      let kept := fun (x : Nat × List Byte) => (l.buf ++ [x]).drop (l.buf.length + 1 - 512)
      (∀ seq payload crc, payload.length = 64 →
        let x := (seq, payload)
        (crc ≠ flitCrc seq payload → exec (.flitReceive a b seq ⟨payload, crc⟩) s = .next (links fun l => { l with buf := kept x, nak := true, crc := l.crc + 1 })) ∧
        (crc = flitCrc seq payload →
          (seq = l.expect → exec (.flitReceive a b seq ⟨payload, crc⟩) s =
            .next (links fun l => { l with buf := kept x, expect := (l.expect + 1) % 4096, nak := false, failed := 0 })) ∧
          (seq ≠ l.expect → exec (.flitReceive a b seq ⟨payload, crc⟩) s = .next (links fun l => { l with buf := kept x })))) ∧
      ∀ payload crc, l.nak = true → (l.buf.find? fun x => x.1 = l.expect) = some (l.expect, payload) →
        (crc = flitCrc l.expect payload →
          exec (.flitReplay a b crc) s = .next (links fun l => { l with nak := false, failed := 0, expect := (l.expect + 1) % 4096 })) ∧
        (crc ≠ flitCrc l.expect payload →
          (l.failed < 7 → exec (.flitReplay a b crc) s = .next (links fun l => { l with failed := l.failed + 1, crc := l.crc + 1 })) ∧
          (7 ≤ l.failed → ∃ u, exec (.flitReplay a b crc) s = .next u ∧ (link u a b).lost = true ∧ (link u b a).lost = true))) ∧
    (∀ payload : List Byte, crc32c payload = leNat (leBytes 4 (crc32c payload)) ∧ crc32c [] = 0 ∧
      ∀ x : Byte, crc32c (payload ++ [x]) = (crc32cByte (crc32c payload ^^^ 0xFFFFFFFF) x) ^^^ 0xFFFFFFFF) ∧
    (linked → ∃ u, exec (.dieLinkLost a b) s = .next u ∧ (link u a b).lost = true ∧ (link u b a).lost = true ∧ logged u a 6 (8 * min a b + max a b) ∧
      ∀ n, n < 1024 → s.partOf (n / 128) = s.partOf a ∨ s.partOf (n / 128) = s.partOf b → fresh u n) ∧
    (linked → ∃ u, exec (.resetDieLink a b) s = .next u ∧ link u a b = Link.reset ∧ link u b a = Link.reset ∧
      ∀ n, n < 1024 → s.partOf (n / 128) = s.partOf a ∨ s.partOf (n / 128) = s.partOf b → fresh u n) ∧
    (∃ u, exec (.resetPartition p) s = .next u ∧ wiped u p) ∧
    (∃ u, exec (.shadowDirectoryError d) s = .next u ∧ wiped u (s.partOf d) ∧ logged u d 8 d) ∧
    (∃ u e, exec (.welkinCoreFault d) s = .next u ∧ u.pkg.phase = .off ∧ logged u d 9 d ∧ u.pkg.flashLog = s.pkg.flashLog ++ [(d, e)] ∧ e.cls = 9 ∧
      e.unit = d) ∧
    exec .resetDevice s = .next { s with pkg := { s.pkg with phase := .off, waiting := [] } } ∧
    (∀ c, c < 512 → ∃ u, exec (.resetCore c) s = .next u ∧ u = { s with harts := u.harts, cores := u.cores, launches := u.launches } ∧
      fresh u (2 * c) ∧ fresh u (2 * c + 1) ∧ (∀ n, n / 2 ≠ c → u.hartAt n = s.hartAt n) ∧ (∀ k, k ≠ c → u.coreAt k = s.coreAt k) ∧
      (∀ i, (u.coreAt c).cell i = GCell.zero) ∧ (∀ i, (u.coreAt c).tcm.byte i = 0) ∧ (u.coreAt c).fenced = false ∧ (u.coreAt c).t0 = s.now ∧
      ∀ i, i ∈ s.launches.map (fun y => y.1) → u.launchAt i =
        if (s.launchAt i).st = .running ∧ (s.launchAt i).pre ≠ .savedOut ∧ c ∈ (s.launchAt i).rc.coreList ∧ (s.launchAt i).cause = 0
        then { s.launchAt i with cause := 70, abCode := 0, trapPc := 0, trapInfo := 0, retryable := true } else s.launchAt i) ∧
    (∀ c, c < 32 → ∃ u, exec (.resetCopyEngine c) s = .next u ∧ u = { s with clusters := u.clusters, launches := u.launches } ∧
      u.clusterAt c = { s.clusterAt c with copies := [] } ∧ (∀ k, k ≠ c → u.clusterAt k = s.clusterAt k) ∧
      ∀ i, u.launchAt i = if (∃ x ∈ (s.clusterAt c).copies, x.launch = i) ∧ (s.launchAt i).cause = 0
        then { s.launchAt i with cause := 70, abCode := 0, trapPc := 0, trapInfo := 0, retryable := true } else s.launchAt i) ∧
    (∀ port : Fin 8, ∃ u, exec (.resetEthernetPort port) s = .next u ∧ SMap.look Port.reset u.pkg.ports port.val = Port.reset ∧
      u.pkg.windows = s.pkg.windows.filter fun w => w.2.port ≠ port.val) ∧
    (∀ line, s.inHbm (line * 64) = true →
      let j := line * 64 / (48 * 2 ^ 30)
      (∃ u, exec (.patrolScrub (.hbm line) false true) s = .next u ∧ u = { s with mem := u.mem, dies := u.dies } ∧ u.mem.bytes = s.mem.bytes ∧
        (∀ i, u.mem.poisoned i = (s.mem.poisoned i || decide (i / 64 = line))) ∧ logged u (j / 2) 1 j) ∧
      (∃ u, exec (.patrolScrub (.hbm line) true false) s = .next u ∧ u.mem = s.mem ∧ logged u (j / 2) 0 j)) ∧
    (∀ id line,
      (∃ u, exec (.patrolScrub (.sram d id line) false true) s = .next u ∧ u = { s with dies := u.dies } ∧ logged u d 1 d ∧
        ∀ e k, (u.halloc e k).ram.bytes = (s.halloc e k).ram.bytes ∧ ∀ i, (u.halloc e k).ram.poisoned i =
          ((s.halloc e k).ram.poisoned i || decide (e = d ∧ k = id ∧ i / 64 = line ∧ 64 * line < (s.halloc d id).size))) ∧
      ∃ u, exec (.patrolScrub (.sram d id line) true false) s = .next u ∧ u = { s with dies := u.dies } ∧ logged u d 0 d ∧ ∀ e, (u.dieAt e).sram = (s.dieAt e).sram) ∧
    (∀ m at_, (∃ c, c < 512 ∧ m = EccMem.core c ∧ at_ = c / 64) ∨ (∃ c, c < 32 ∧ m = EccMem.spad c ∧ at_ = c / 4) ∨ (m = EccMem.buffer d ∧ at_ = d) →
      (∃ u e, exec (.patrolScrub m true false) s = .next u ∧ u = { s with dies := u.dies } ∧ (∀ k, (u.dieAt k).sram = (s.dieAt k).sram) ∧
        (u.dieAt at_).log.getLast? = some e ∧ e.cls = 0)) ∧
    (∀ m, exec (.patrolScrub m false false) s = .next s) ∧
    (∀ (stack : Fin 2) (pc : Fin 64),
      let j := 2 * d + stack.val
      let gone := fun t : State => j ∈ t.pkg.absent ∨ (SMap.look (0 : BitVec 64) t.pkg.dropped j).getLsbD pc.val = true
      let pt := s.partOf (j / 2)
      ((∀ x ∈ s.pkg.drops, x.1 ≠ j ∨ x.2.1 ≠ pc.val) → ¬gone s →
        exec (.pcDrop d stack pc) s = .next { s with pkg := { s.pkg with drops := s.pkg.drops ++ [(j, pc.val, none)] } }) ∧
      (s.pkg.drops = [(j, pc.val, none)] → (s.partAt pt).held = false →
        ∃ u, exec (.pcDrop d stack pc) s = .next u ∧ (u.partAt pt).held = true ∧
          ∀ i, u.launchAt i = if (s.launchAt i).part = pt ∧ (s.launchAt i).st = .running ∧ (s.launchAt i).pre = .none
            then { s.launchAt i with pre := .stopping, cut := .none } else s.launchAt i) ∧
      (s.pkg.drops = [(j, pc.val, none)] → (s.partAt pt).held = true → (∀ y ∈ s.launches, y.2.part = pt → y.2.st ≠ .running ∧ y.2.st ≠ .committing) →
        ((List.range 64).filter fun i => (SMap.look (0 : BitVec 64) s.pkg.dropped j).getLsbD i).length < 8 → ¬gone s →
        ∃ u, exec (.pcDrop d stack pc) s = .next u ∧ gone u ∧ u.pkg.drops = [] ∧ (u.partAt pt).held = false ∧
          u.stackPresent j = s.stackPresent j - 768 * 2 ^ 20 ∧
          ∀ i, i < hbmEnd → u.mem.byte i = if i / (48 * 2 ^ 30) = j ∧ u.stackPresent j ≤ i % (48 * 2 ^ 30) then 0 else s.mem.byte i)) ∧
    ∀ (temp : Int) (power : Nat),
      let limit := (s.pkg.cfg.tlimit : Int)
      let seen := ({ s with pkg := { s.pkg with temp := temp, power := power } } : State)
      (limit + 10 ≤ temp → exec (.thermalThrottle temp power) s = .next { seen with pkg := { seen.pkg with phase := .off, waiting := [] } }) ∧
      (temp < limit → power < 2400 → exec (.thermalThrottle temp power) s = .next seen) ∧
      (temp < limit + 10 → limit ≤ temp ∨ 2400 ≤ power →
        ((∃ t, s.pkg.frozeAt = some t ∧ s.now < t + 2) → exec (.thermalThrottle temp power) s = .next seen) ∧
        ((∀ t, s.pkg.frozeAt = some t → t + 2 ≤ s.now) →
          ∃ u, exec (.thermalThrottle temp power) s = .next u ∧ u = { seen with cores := u.cores, pkg := { seen.pkg with frozeAt := some s.now } } ∧
            ∀ c, c < 512 → u.coreAt c = if s.cycleAt c = 0 then s.coreAt c else { s.coreAt c with t0 := (s.coreAt c).t0 + 1 }))

/-- COLD_START, WARM_START, KEY_ROLLOVER and OWNER_SESSION (R402 to R405): what a start keeps, clears, chooses and measures; the successor key; and
the session of the owner. What a device holds that has never been enrolled is the model's choice (log 12). -/
def Obligations.StartUp : Prop :=
  ∀ (s : State) (port : Fin 9) (qp : Nat) (challenge sig : List Byte),
    let k := s.pkg
    let ok := fun b : List Byte => recordOk b = true ∧ k.greatest ≤ (cfgOf b).counter
    let chosen := fun b : Bool => if b then k.flashB else k.flashA
    let measured := fun (m : Option (BitVec 512)) (image : List Byte) => ∃ v : BitVec 512, m = some v ∧
      leBytes 64 v.toNat = shake256 (List.replicate 64 0 ++ shake256 image 64) 64
    let started := fun (u : State) =>
      u.now = 0 ∧ u.launches = [] ∧ u.flights = [] ∧ u.shadow = [] ∧ u.snaps = [] ∧ u.inputs = s.inputs ∧ u.outputs = s.outputs ∧
      (∀ n, u.hartAt n = Hart.reset) ∧ (∀ c, u.clusterAt c = Cluster.reset) ∧
      (∀ c, c < 512 → ∃ root : Word, u.coreAt c = { Core.reset with dptroot := root } ∧ root.extractLsb' 1 11 = 0 ∧ root.extractLsb' 52 12 = 0 ∧
        ∀ e, e < 512 → u.partOf (e / 64) = u.partOf (c / 64) → (u.coreAt e).dptroot = root) ∧
      (∀ p q, u.queueAt p q = LQueue.reset) ∧
      u.pkg = { Package.reset with
        phase := u.pkg.phase, started := true, flashA := k.flashA, flashB := k.flashB, useB := u.pkg.useB, cfg := u.pkg.cfg
        greatest := u.pkg.greatest, mr := u.pkg.mr, leaf := k.leaf, salt := k.salt, chain := k.chain, remote := k.remote
        dropped := k.dropped, absent := k.absent, flashLog := k.flashLog, temp := k.temp, power := k.power } ∧
      measured u.pkg.mr[0]? Config.stage1 ∧ measured u.pkg.mr[1]? Config.stage2 ∧ (∀ i, 3 ≤ i → i < 8 → u.pkg.mr[i]? = some 0) ∧
      (¬ok k.flashA → ¬ok k.flashB → u.pkg.phase = .recovery ∧ u.pkg.cfg = Cfg.default ∧ u.pkg.greatest = k.greatest ∧ u.pkg.mr[2]? = some 0) ∧
      ∀ b, ok (chosen b) → (ok (chosen !b) → (cfgOf (chosen !b)).counter ≤ (cfgOf (chosen b)).counter ∧
          (b = true → (cfgOf k.flashA).counter < (cfgOf k.flashB).counter)) →
        u.pkg.phase = .open ∧ u.pkg.useB = b ∧ u.pkg.cfg = cfgOf (chosen b) ∧ u.pkg.greatest = (cfgOf (chosen b)).counter ∧
        measured u.pkg.mr[2]? ((chosen b).take 3076)
    (k.phase = .off → k.started = false → ∃ u, exec .coldStart s = .next u ∧ started u ∧ u.mem = Ram.empty) ∧
    (k.phase ≠ .off ∨ k.started = true → exec .coldStart s = .next s) ∧
    (k.phase = .off → k.started = true → ∃ u, exec .warmStart s = .next u ∧ started u ∧ (u.mem = s.mem ∨ u.mem = Ram.empty)) ∧
    (k.phase ≠ .off ∨ k.started = false → exec .warmStart s = .next s) ∧
    (k.leaf < 2 ^ 20 - 1 → exec .keyRollover s = .next s) ∧
    (2 ^ 20 - 1 ≤ k.leaf → ∃ cert, exec .keyRollover s = .next { s with pkg := { k with chain := cert :: k.chain, salt := k.salt + 1, leaf := 0 } } ∧
      cert.length = 2888 ∧ leNat ((cert.drop 64).take 4) = 2 ^ 20 - 1 ∧
      ∀ i, i < 64 → cert.getD i 0 = (Config.deviceKey (k.salt + 1)).getD i 0) ∧
    (k.phase ≠ .off → Config.ownerVerifies challenge sig = true →
      ∃ agents, exec (.ownerSession ⟨port, qp, challenge⟩ sig) s = .next { s with pkg := { k with sessions := agents } } ∧
        ∀ a, a ∈ agents ↔ a = 16 * qp + port.val ∨ a ∈ k.sessions) ∧
    (k.phase = .off ∨ Config.ownerVerifies challenge sig = false → exec (.ownerSession ⟨port, qp, challenge⟩ sig) s = .next s)

/-- INFO, QUOTE, LOG, CHAIN, LOAD, UNLOAD, QCONF, PCONF, CGROUP, RDMAEP, DROPPC and CONFIG (R306, R311, R364 to R368, R379, R385, R391, R400, R401,
R404 to R407): the effect of a mailbox request, the reply that its slot then holds, and when it is refused or repeated. That a LOAD and an UNLOAD
find their partition as they do (logs 15 and 71), the places of slots and code (log 14) and the wait of a QUOTE for the last leaf (log 49) are the
model's choices. -/
def Obligations.MailboxCommands : Prop :=
  ∀ (s : State) (slot : Fin 256),
    let k := s.pkg
    let seq := s.mailNat slot.val 2 2
    let len := s.mailNat slot.val 4 4
    let b := s.mailBytes slot.val 64 len
    let num := fun (p : List Byte) o n => leNat ((p.drop o).take n)
    let writer := SMap.look 15 k.writers slot.val
    let answers := fun (i : Instr) (st : Nat) (p : List Byte) (t : State) =>
      ∃ u, exec i s = .next u ∧
        u = { t with
          outputs := if writer % 16 = 8 then t.outputs ++ [.datagram (writer / 16) (u.mailBytes slot.val 0 (64 + p.length))] else t.outputs
          pkg := { t.pkg with mailbox := u.pkg.mailbox, stored := SMap.put t.pkg.stored slot.val (seq, leBytes 2 st ++ p) } } ∧
        ∀ j, u.pkg.mailbox.byte j =
          let o := j - 4096 * slot.val
          if j < 4096 * slot.val then s.pkg.mailbox.byte j
          else if 4 ≤ o ∧ o < 8 then BitVec.ofNat 8 (p.length / 256 ^ (o - 4))
          else if o = 8 ∨ o = 9 then BitVec.ofNat 8 (st / 256 ^ (o - 8))
          else if 10 ≤ o ∧ o < 64 then 0
          else if 64 ≤ o ∧ o < 64 + p.length then p.getD (o - 64) 0 else s.pkg.mailbox.byte j
    let asked := fun op => s.nextRequest = some slot.val ∧ s.mailNat slot.val 0 2 = op
    let isNew := ∀ x ∈ k.stored, x.1 = slot.val → x.2.1 ≠ seq
    let fields := fun n (fs : List (Nat × Nat)) => n ≤ len ∧ ∀ i, i < len → (∀ f ∈ fs, i < f.1 ∨ f.1 + f.2 ≤ i) → b.getD i 0 = 0
    let zeros := ∀ i, 10 ≤ i → i < 64 → s.mailNat slot.val i 1 = 0
    let owner := isNew ∧ len ≤ 4032 ∧ zeros ∧ k.phase ≠ .recovery ∧ writer ∈ k.sessions
    let anyone := isNew ∧ len ≤ 4032 ∧ zeros
    let snapless := ∀ line, s.snapReaders line = []
    let sub := s.mailNat slot.val 64 4
    let next := fun (i g : Nat) => if i = 0 ∧ (g + 1) % 2 ^ 20 = 0 then 1 else (g + 1) % 2 ^ 20
    let commands : List (Nat × Instr) := [(0x01, .info slot), (0x02, .quote slot), (0x03, .log slot), (0x04, .chain slot), (0x11, .qconf slot),
      (0x12, .pconf slot), (0x13, .cgroup slot), (0x14, .rdmaep slot), (0x21, .droppc slot), (0x22, .config slot)] ++
      (if sub = 0 then [(0x10, .load slot)] else if sub = 1 then [(0x10, .unload slot)] else [])
    (∀ x ∈ commands, asked x.1 →
      (isNew → k.phase = .recovery ∧ x.1 ∉ [1, 2, 4, 0x22] ∨ writer ∉ k.sessions ∧ x.1 ∉ [1, 2, 3, 4] → answers x.2 1 [] s) ∧
      (isNew → (k.phase ≠ .recovery ∨ x.1 ∈ [1, 2, 4, 0x22]) → (writer ∈ k.sessions ∨ x.1 ∈ [1, 2, 3, 4]) → 4032 < len ∨ ¬zeros → answers x.2 3 [] s) ∧
      (∀ st p, st < 2 ^ 16 → (slot.val, seq, leBytes 2 st ++ p) ∈ k.stored → (∀ y ∈ k.stored, y.1 = slot.val → y.2 = (seq, leBytes 2 st ++ p)) →
        answers x.2 st p s)) ∧
    (∀ x ∈ commands, ¬asked x.1 → exec x.2 s = .next s) ∧
    (asked 0x01 → anyone → fields 0 [] → ∃ p, answers (.info slot) 0 p s ∧ p.length = 345 ∧
      (∀ j, j < 16 → num p (8 * j) 8 = s.stackPresent j ∧ num p (128 + 8 * j) 8 = (SMap.look (0 : BitVec 64) k.dropped j).toNat) ∧
      (∀ i, i < 64 → p.getD (256 + i) 0 = k.cfg.desc.getD i 0) ∧
      (∀ d, d < 8 → p.getD (320 + d) 0 = BitVec.ofNat 8 (s.partOf d)) ∧ p.getD 328 0 = BitVec.ofNat 8 k.cfg.modulePos ∧
      p.getD 329 0 = BitVec.ofNat 8 k.cfg.domsize ∧ num p 330 2 = 0 ∧ num p 332 4 = k.cfg.domid % 2 ^ 32 ∧ num p 336 8 = k.cfg.counter % 2 ^ 64 ∧
      p.getD 344 0 = if k.phase = .recovery then 1 else 0) ∧
    (asked 0x02 → anyone → fields 32 [(0, 32)] → k.mr.length = 8 →
      (k.leaf < 2 ^ 20 - 1 → ∃ p, answers (.quote slot) 0 p { s with pkg := { k with leaf := k.leaf + 1 } } ∧ p.length = 3396 ∧
        p.take 32 = b.take 32 ∧ (∀ i v, k.mr[i]? = some v → num p (32 + 64 * i) 64 = v.toNat) ∧ (p.drop 544).take 16 = s.deviceHash ∧
        num p 560 8 = k.cfg.counter % 2 ^ 64 ∧ num p 568 4 = k.leaf ∧ num p 572 4 = (k.chain.length + 1) % 2 ^ 32 ∧
        ∀ i, i < 2820 → p.getD (576 + i) 0 = (Config.deviceSign k.salt k.leaf (p.take 576)).getD i 0) ∧
      (2 ^ 20 - 1 ≤ k.leaf → exec (.quote slot) s = .next s)) ∧
    (asked 0x03 → anyone → k.phase ≠ .recovery → fields 8 [(0, 1), (4, 4)] →
      let want := num b 4 4
      let es := ((s.dieAt (num b 0 1)).log.filter fun e => want ≤ e.seq).take 125
      (8 ≤ num b 0 1 → answers (.log slot) 3 [] s) ∧
      (num b 0 1 < 8 → ∃ p, answers (.log slot) 0 p s ∧ p.length = 8 + 32 * es.length ∧ num p 4 4 = es.length ∧
        (es = [] → num p 0 4 = want) ∧ (∀ e, es.getLast? = some e → num p 0 4 = (e.seq + 1) % 2 ^ 32) ∧
        ∀ i e, es[i]? = some e →
          let o := 8 + 32 * i
          num p o 8 = e.seq % 2 ^ 64 ∧ num p (o + 8) 2 = e.cls % 2 ^ 16 ∧ num p (o + 10) 2 = e.cause % 2 ^ 16 ∧ num p (o + 12) 4 = e.unit % 2 ^ 32 ∧
            num p (o + 16) 8 = e.addr % 2 ^ 64 ∧ num p (o + 24) 8 = e.detail % 2 ^ 64)) ∧
    (asked 0x04 → anyone → fields 4 [(0, 4)] →
      let i := num b 0 4
      (k.chain.length < i → answers (.chain slot) 3 [] s) ∧
      (∀ c : List Byte, c.length = 2888 → k.chain[i]? = some c ∨ (i = k.chain.length ∧ ∀ j, j < 2888 → c.getD j 0 = Config.manufacturerCert.getD j 0) →
        ∃ p, answers (.chain slot) 0 p s ∧ p.length = 2900 ∧ p.take 64 = c.take 64 ∧ num p 64 4 = i ∧ num p 68 4 = num c 64 4 ∧ num p 72 8 = 0 ∧
          p.drop 80 = c.drop 68)) ∧
    (asked 0x10 → sub = 0 → owner → fields 40 [(0, 4), (8, 32)] →
      let pa := num b 8 8
      let n := num b 16 8
      let dbase := num b 24 8
      let flags := num b 32 8
      let raw := s.physBytes pa n
      let part := s.partOf (pa / (96 * 2 ^ 30))
      let fails := fun st detail => ∃ p, answers (.load slot) 0 p s ∧ p.length = 48 ∧ num p 0 2 = st ∧ num p 2 2 = detail ∧ num p 4 44 = 0
      (2 ≤ flags ∨ n = 0 ∨ s.inHbm pa = false ∨ s.inHbm (pa + n - 1) = false → answers (.load slot) 3 [] s) ∧
      (flags < 2 → n ≠ 0 → s.inHbm pa = true → s.inHbm (pa + n - 1) = true →
        (sectionsOf raw = none → fails 1 0) ∧
        ∀ secs, sectionsOf raw = some secs → findSect secs tSymbols = none →
          let native := (findSect secs tCode).isSome = true ∧ (raw.drop 16).take 16 = s.deviceHash ∧ flags = 0
          (¬native → findSect secs tTuris = none → fails 2 0) ∧
          (native → (∀ i, i < 4096 → (SMap.look Slot.reset (s.partAt part).slots i).loaded = true) → fails 5 1) ∧
          (native → ∀ i, s.freeSlot part = some i → i < 4096 ∧ (SMap.look Slot.reset (s.partAt part).slots i).loaded = false) ∧
          (native → ∀ i, s.freeSlot part = some i → (s.partAt part).freeCbase (sectBytes raw secs tCode).length = none → fails 5 2) ∧
          (native → ∀ i cbase, s.freeSlot part = some i → (s.partAt part).freeCbase (sectBytes raw secs tCode).length = some cbase →
            let code := sectBytes raw secs tCode
            let up := fun a => (a + 63) / 64 * 64
            let has := fun ty => (findSect secs ty).isSome = true
            let size := fun ty => (sectBytes raw secs ty).length
            ∀ (data shapes launches e1 e2 e3 : Nat),
              (if has tData then data = up dbase ∧ e1 = data + size tData else data = 0 ∧ e1 = dbase) →
              (if has tShape then shapes = up e1 ∧ e2 = shapes + size tShape else shapes = 0 ∧ e2 = e1) →
              (if has tLaunch then launches = up e2 ∧ e3 = launches + size tLaunch else launches = 0 ∧ e3 = e2) →
              (s.extentOk part dbase (e3 - dbase) = false → fails 5 3) ∧
              (s.extentOk part dbase (e3 - dbase) = true →
                ∃ t p gen, answers (.load slot) 0 p t ∧ p.length = 48 ∧ num p 0 4 = 0 ∧ num p 4 4 = i + 4096 * gen ∧
                  gen = next i (SMap.look Slot.reset (s.partAt part).slots i).gen ∧ num p 8 8 = cbase ∧ num p 16 8 = data % 2 ^ 64 ∧
                  num p 24 8 = shapes % 2 ^ 64 ∧ num p 32 8 = launches % 2 ^ 64 ∧ num p 40 8 = 0 ∧
                  ((∀ x ∈ (s.partAt part).slots, x.2.loaded = true → x.2.cbase % 2 ^ 21 = 0) → cbase % 2 ^ 21 = 0) ∧ (snapless → t.launches = s.launches) ∧
                  (∃ m v, 3 ≤ m ∧ m < 8 ∧ t.pkg.mr = k.mr.set m v ∧
                    leBytes 64 v.toNat = shake256 (leBytes 64 (k.mr.getD m 0).toNat ++ shake256 raw 64) 64) ∧
                  (∃ c, t.codeSlot part (i + 4096 * gen) = some c ∧ c.cbase = cbase ∧ c.size = code.length ∧
                    ∀ j, j < code.length → t.physByte (c.pa + j) = code.getD j 0) ∧
                  (∀ x ∈ (s.partAt part).slots, x.2.loaded = true → cbase + max code.length 1 ≤ x.2.cbase ∨ x.2.cbase + x.2.size ≤ cbase) ∧
                  ∀ h y, (h, y) ∈ t.harts → s.partOf (h / 128) = part → y.fetch.icache.length = 0)))) ∧
    (asked 0x10 → sub = 1 → owner → fields 16 [(0, 4), (8, 8)] →
      let handle := num b 8 4
      (2 ≤ num b 12 4 ∨ (∀ p, p < 8 → s.codeSlot p handle = none) → answers (.unload slot) 3 [] s) ∧
      (num b 12 4 < 2 → ∀ p, p < 8 → s.codeSlot p handle ≠ none → (∀ q, q < p → s.codeSlot q handle = none) →
        let named := fun y : Nat × Launch => y.2.part = p ∧ y.2.rc.code = handle ∧
          y.2.st ∈ ([.taken, .admitted, .ready, .running, .ended, .committing, .aborting] : List LState)
        ((∃ y ∈ s.launches, named y) → num b 12 4 = 0 → answers (.unload slot) 2 [] s) ∧
        ((∀ y ∈ s.launches, ¬named y) → ∃ t, answers (.unload slot) 0 [] t ∧ t.codeSlot p handle = none ∧ (snapless → t.launches = s.launches) ∧
          (SMap.look Slot.reset (t.partAt p).slots (handle % 4096)).gen = next (handle % 4096) (handle / 4096) ∧
          (SMap.look Slot.reset (t.partAt p).slots (handle % 4096)).loaded = false) ∧
        (SMap.sorted s.launches = true → num b 12 4 = 1 → (∃ y ∈ s.launches, named y) → ∃ t, exec (.unload slot) s = .next t ∧
          ∀ y ∈ s.launches, named y → y.2.cause = 0 →
            (y.2.st = .running → y.2.pre = .none → t.launchAt y.1 = { y.2 with pre := .stopping, cut := .none }) ∧
            (y.2.st ∈ ([.taken, .admitted, .ready] : List LState) → (t.launchAt y.1).cause = 68)))) ∧
    (asked 0x11 → owner → fields 28 [(0, 2), (8, 20)] →
      let p := num b 0 1
      let q := num b 1 1
      let base := num b 8 8
      let n := num b 16 4
      let period := num b 20 4
      let budget := num b 24 4
      let good := (∃ d, d < 8 ∧ s.partOf d = p) ∧ q < 64 ∧ base % 64 = 0 ∧ (∃ e, e < 13 ∧ n = 2 ^ e) ∧ s.inHbm base = true ∧
        s.inHbm (base + 63 + 512 * n) = true ∧ (period = 0 → budget = 0) ∧ (period ≠ 0 → 1 ≤ budget ∧ budget ≤ period)
      (¬good → answers (.qconf slot) 3 [] s) ∧
      (good → ∃ t, answers (.qconf slot) 0 [] t ∧ t = { s with parts := t.parts } ∧ t.queueAt p q = ⟨base, n, period, budget, budget, s.now, false⟩ ∧
        (∀ r, r ≠ q → t.queueAt p r = s.queueAt p r) ∧ (t.partAt p = { s.partAt p with queues := (t.partAt p).queues }) ∧
        ∀ r, r ≠ p → t.partAt r = s.partAt r)) ∧
    (asked 0x12 → owner → fields 72 [(0, 1), (8, 64)] →
      let p := num b 0 1
      let v := fun i => num b (8 + 8 * i) 8
      let good := (∃ d, d < 8 ∧ s.partOf d = p) ∧ ∀ i, i < 8 → 1 ≤ v i ∧ v i < 2 ^ 40
      (¬good → answers (.pconf slot) 3 [] s) ∧
      (good → ∃ t, answers (.pconf slot) 0 [] t ∧ t = { s with parts := t.parts } ∧ (∀ i : Fin 8, (t.partAt p).reldl[i] = v i.val) ∧
        (t.partAt p = { s.partAt p with reldl := (t.partAt p).reldl }) ∧ ∀ r, r ≠ p → t.partAt r = s.partAt r)) ∧
    (asked 0x13 → owner → fields 19 [(0, 1), (8, 11)] →
      let g := num b 0 1
      let op := num b 16 1
      let ty := num b 17 1
      let n := num b 18 1
      let members := BitVec.ofNat 64 (num b 8 8)
      let good := g < 64 ∧ op < 3 ∧ ty < 2 ∧ 1 ≤ n ∧ n ≤ 64 ∧ num b 8 8 < 2 ^ (8 * max 1 k.cfg.domsize)
      (¬good → answers (.cgroup slot) 3 [] s) ∧
      (good → ∃ t, answers (.cgroup slot) 0 [] t ∧ t = { s with pkg := { k with groups := t.pkg.groups }, dies := t.dies } ∧
        t.groupAt g = ⟨members, op, ty, n, 0, [], 0, none, []⟩ ∧ (∀ j, j ≠ g → t.groupAt j = s.groupAt j) ∧
        ∀ d, t.dieAt d = { s.dieAt d with coll := (t.dieAt d).coll } ∧ ∀ i, (t.dieAt d).coll.byte i =
          if d < 8 ∧ members.getLsbD (8 * k.cfg.modulePos + d) = true ∧ 512 * g ≤ i ∧ i < 512 * g + 512 then 0 else (s.dieAt d).coll.byte i)) ∧
    (asked 0x14 → owner → fields 24 [(0, 2), (4, 8), (16, 8)] →
      let w := num b 0 1
      let port := num b 1 1
      let qp := num b 4 4
      let held := (SMap.look Port.reset k.ports port).qps.contains qp
      (8 ≤ port ∨ (qp ≠ 0 ∧ held = false) → answers (.rdmaep slot) 3 [] s) ∧
      (port < 8 → qp = 0 → answers (.rdmaep slot) 0 [] { s with pkg := { k with windows := SMap.del k.windows w } }) ∧
      (port < 8 → qp ≠ 0 → held = true →
        answers (.rdmaep slot) 0 [] { s with pkg := { k with windows := SMap.put k.windows w ⟨port, qp, num b 8 4, num b 16 8⟩ } })) ∧
    (asked 0x21 → owner → fields 3 [(0, 3)] →
      let j := 2 * num b 0 1 + num b 1 1
      let pc := num b 2 1
      let outside := 8 ≤ num b 0 1 ∨ 2 ≤ num b 1 1 ∨ 64 ≤ pc
      let gone := j ∈ k.absent ∨ (SMap.look (0 : BitVec 64) k.dropped j).getLsbD pc = true
      (outside → answers (.droppc slot) 3 [] s) ∧
      (¬outside → (∀ x ∈ k.drops, x.1 ≠ j ∨ x.2.1 ≠ pc) →
        (gone → answers (.droppc slot) 3 [] s) ∧
        (¬gone → exec (.droppc slot) s = .next { s with pkg := { k with drops := k.drops ++ [(j, pc, some slot.val)] } })) ∧
      (¬outside → (∃ x ∈ k.drops, x.1 = j ∧ x.2.1 = pc) → (∀ x ∈ k.drops, x.1 = j → x.2.1 = pc → x.2.2 ≠ some slot.val) →
        answers (.droppc slot) 2 [] s)) ∧
    (asked 0x22 → anyone → writer ∈ k.sessions → fields 3076 [(0, 3076)] →
      let image := b.take 3076
      (k.phase = .recovery ∨ k.useB = true → answers (.config slot) 0 [0] { s with pkg := { k with flashA := image } }) ∧
      (k.phase ≠ .recovery → k.useB = false → answers (.config slot) 0 [1] { s with pkg := { k with flashB := image } }))
end

