-- ==== Sys2Proof/Laws/Decode.lean ====
section
/-! SUPPORT. Decoding what was encoded: bit fields, shared fields, one lemma for each layout, and heads. -/

namespace Sys2Proof

/-! ### Bit fields -/

/-- Every field fits its width. -/
def Fits : List (Nat × Nat) → Prop
  | [] => True
  | f :: r => f.2 < 2 ^ f.1 ∧ Fits r

theorem unpack_pack : ∀ {fs : List (Nat × Nat)}, Fits fs → unpack (fs.map Prod.fst) (pack fs) = fs.map Prod.snd
  | [], _ => rfl
  | (w, v) :: r, h => by
    have hw : 0 < 2 ^ w := Nat.two_pow_pos w
    simp [unpack, pack, Nat.mod_eq_of_lt h.1, Nat.div_eq_of_lt h.1, Nat.add_mul_div_left _ _ hw, unpack_pack h.2]

theorem pack_lt : ∀ {fs : List (Nat × Nat)}, Fits fs → pack fs < 2 ^ (fs.map Prod.fst).sum
  | [], _ => by decide
  | (w, v) :: r, h => by
    have ih := pack_lt h.2
    have h1 := h.1
    simp only [pack, List.map_cons, List.sum_cons, Nat.pow_add]
    calc v + 2 ^ w * pack r < 2 ^ w + 2 ^ w * pack r := by simpa using h1
      _ = 2 ^ w * (pack r + 1) := by rw [Nat.mul_add]; omega
      _ ≤ 2 ^ w * 2 ^ (r.map Prod.fst).sum := Nat.mul_le_mul_left _ ih

/-! ### Shared fields -/

@[simp] theorem fin_ofNat_val {n : Nat} [NeZero n] (x : Fin n) : Fin.ofNat n x.val = x := by
  apply Fin.ext; exact Nat.mod_eq_of_lt x.isLt
@[simp] theorem xr_val (x : XReg) : xr x.val = x := fin_ofNat_val x
@[simp] theorem pr_val (x : PReg) : pr x.val = x := fin_ofNat_val x
@[simp] theorem mr_val (x : MReg) : mr x.val = x := fin_ofNat_val x
@[simp] theorem qr_val (x : QReg) : qr x.val = x := fin_ofNat_val x
@[simp] theorem f4_val (x : Fin 4) : f4 x.val = x := fin_ofNat_val x
theorem b01_lt (b : Bool) : b01 b < 2 ^ 1 := by cases b <;> decide
@[simp] theorem bit1_b01 (b : Bool) : bit1 (b01 b) = b := by cases b <;> rfl
@[simp] theorem b01_eq_one (b : Bool) : b01 b = 1 ↔ b = true := by cases b <;> decide
@[simp] theorem b01_eq_zero (b : Bool) : b01 b = 0 ↔ b = false := by cases b <;> decide
@[simp] theorem spaceOf_code (x : Space) : spaceOf x.code = x := by cases x <;> rfl
theorem Space.code_lt (x : Space) : x.code < 2 ^ 2 := by cases x <;> decide
@[simp] theorem scopeOf_code (s : Scope) : scopeOf s.code = some s := by cases s <;> rfl
theorem Scope.code_lt (s : Scope) : s.code < 2 ^ 3 := by cases s <;> decide
@[simp] theorem tyOf_code (t : Ty) : tyOf t.code = some t := by cases t <;> rfl
theorem Ty.code_lt (t : Ty) : t.code < 2 ^ 4 := by cases t <;> decide
@[simp] theorem ordOf_code (o : Ord3) : ordOf o.code = o := by cases o <;> rfl
theorem Ord3.code_lt (o : Ord3) : o.code < 2 ^ 2 := by cases o <;> decide
@[simp] theorem fmtOf_code (k : CFmt) : fmtOf k.code = some k := by cases k <;> rfl
theorem CFmt.code_lt (k : CFmt) : k.code < 2 ^ 3 := by cases k <;> decide
@[simp] theorem tileOf_code (s : TileState) : tileOf s.code = s := by cases s <;> rfl
theorem TileState.code_lt (s : TileState) : s.code < 2 ^ 2 := by cases s <;> decide
theorem VKind.code_lt (k : VKind) : k.code < 2 ^ 2 := by cases k <;> decide
@[simp] theorem sysRegOf_index (r : SysReg) : sysRegOf r.index = some r := by cases r <;> rfl
theorem SysReg.index_lt (r : SysReg) : r.index < 2 ^ 10 := by cases r <;> decide

theorem VOp.fits (v : VOp) : Fits [(8, v.n.val), (2, v.kind.code), (1, b01 v.half)] := ⟨v.n.isLt, v.kind.code_lt, b01_lt _, trivial⟩
theorem VOp.code_lt (v : VOp) : v.code < 2 ^ 11 := pack_lt v.fits
@[simp] theorem vopOf_code (v : VOp) : vopOf v.code = some v := by
  have h : unpack [8, 2, 1] v.code = [v.n.val, v.kind.code, b01 v.half] := unpack_pack v.fits
  rcases v with ⟨e, k, n⟩
  cases k <;> simp [vopOf, h, VKind.code]
theorem RowOp.fits (v : RowOp) : Fits [(8, v.n.val), (2, 0), (1, b01 v.half)] := ⟨v.n.isLt, by decide, b01_lt _, trivial⟩
theorem RowOp.code_lt (v : RowOp) : v.code < 2 ^ 11 := pack_lt v.fits
@[simp] theorem rowOf_code (v : RowOp) : rowOf v.code = some v := by
  have h : unpack [8, 2, 1] v.code = [v.n.val, 0, b01 v.half] := unpack_pack v.fits
  simp [rowOf, h]
theorem optX_lt (o : Option XReg) : optX o < 2 ^ 5 := by
  cases o with
  | none => decide
  | some x => exact x.isLt
theorem Src2.field_lt (s : Src2) : s.field < 2 ^ 11 := by
  cases s with
  | vec v => exact v.code_lt
  | scalar x => exact Nat.lt_of_lt_of_le x.isLt (by decide)
  | imm _ => exact Nat.two_pow_pos 11
theorem Src2.sBit_lt (s : Src2) : s.sBit < 2 ^ 1 := by cases s <;> simp [Src2.sBit]

theorem toNat_ne_zero {w : Nat} {x : BitVec w} (h : x ≠ 0) : x.toNat ≠ 0 := fun e => h (BitVec.eq_of_toNat_eq (by simpa using e))
theorem Space.code_eq (x : Space) (n : Nat) : x.code = n ↔ x = spaceOf n ∧ n < 4 := by
  constructor
  · intro h; subst h; exact ⟨(spaceOf_code x).symm, x.code_lt⟩
  · rintro ⟨rfl, h⟩
    match n, h with
    | 0, _ | 1, _ | 2, _ | 3, _ => rfl
@[simp] theorem optX_of_isSome {c : Option XReg} (h : c.isSome = true) : some (xr (optX c)) = c := by
  cases c with
  | none => cases h
  | some x => simp [optX]

@[simp] theorem vopOf_zero : vopOf 0 = some ⟨false, .row, 0⟩ := rfl

/-- An encoding fits a tail of `n` bytes, and a layout reads the operation back from it. -/
def ReadsBack (n : Nat) (tail : Nat) (d : Nat → Dec) (i : Instr) : Prop := tail < 2 ^ (8 * n) ∧ d tail = .ok i

theorem ReadsBack.of_fits {fs : List (Nat × Nat)} (h : Fits fs) {n : Nat} (hs : (fs.map Prod.fst).sum = 8 * n) {d : Nat → Dec} {i : Instr}
    (hd : unpack (fs.map Prod.fst) (pack fs) = fs.map Prod.snd → d (pack fs) = .ok i) : ReadsBack n (pack fs) d i :=
  ⟨hs ▸ pack_lt h, hd (unpack_pack h)⟩

/-! ### Layouts -/

theorem encA3_reads (f : XReg → XReg → XReg → Instr) (d a b : XReg) :
    ReadsBack 4 (encA3 d a b) (decA3 f) (f d a b) :=
  .of_fits (fs := [(5, d.val), (5, a.val), (5, b.val), (17, 0)]) ⟨d.isLt, a.isLt, b.isLt, by decide, trivial⟩ rfl fun h => by
    simp only [List.map_cons, List.map_nil] at h
    simp [decA3, h, rsv]

theorem encA3s_reads (f : XReg → XReg → Instr) (d a : XReg) :
    ReadsBack 4 (encA3s d a) (decA3s f) (f d a) :=
  .of_fits (fs := [(5, d.val), (5, a.val), (22, 0)]) ⟨d.isLt, a.isLt, by decide, trivial⟩ rfl fun h => by
    simp only [List.map_cons, List.map_nil] at h
    simp [decA3s, h, rsv]

theorem encA2I_reads (f : XReg → XReg → BitVec 22 → Instr) (d a : XReg) (i : BitVec 22) :
    ReadsBack 4 (encA2I d a i) (decA2I f) (f d a i) :=
  .of_fits (fs := [(5, d.val), (5, a.val), (22, i.toNat)]) ⟨d.isLt, a.isLt, i.isLt, trivial⟩ rfl fun h => by
    simp only [List.map_cons, List.map_nil] at h
    simp [decA2I, h]

theorem encSHI_reads (f : XReg → XReg → Fin 64 → Instr) (d a : XReg) (s : Fin 64) :
    ReadsBack 4 (encSHI d a s) (decSHI f) (f d a s) :=
  .of_fits (fs := [(5, d.val), (5, a.val), (6, s.val), (16, 0)]) ⟨d.isLt, a.isLt, s.isLt, by decide, trivial⟩ rfl fun h => by
    simp only [List.map_cons, List.map_nil] at h
    simp [decSHI, h, rsv]

theorem encA1_reads (f : XReg → XReg → Instr) (d a : XReg) :
    ReadsBack 2 (encA1 d a) (decA1 f) (f d a) :=
  .of_fits (fs := [(5, d.val), (5, a.val), (6, 0)]) ⟨d.isLt, a.isLt, by decide, trivial⟩ rfl fun h => by
    simp only [List.map_cons, List.map_nil] at h
    simp [decA1, h, rsv]

theorem encMOVI_reads (f : XReg → BitVec 59 → Instr) (d : XReg) (i : BitVec 59) :
    ReadsBack 8 (encMOVI d i) (decMOVI f) (f d i) :=
  .of_fits (fs := [(5, d.val), (59, i.toNat)]) ⟨d.isLt, i.isLt, trivial⟩ rfl fun h => by
    simp only [List.map_cons, List.map_nil] at h
    simp [decMOVI, h]

theorem encMT_reads (f : XReg → XReg → BitVec 16 → Fin 4 → Instr) (d a : XReg) (i : BitVec 16) (s : Fin 4) :
    ReadsBack 4 (encMT d a i s) (decMT f) (f d a i s) :=
  .of_fits (fs := [(5, d.val), (5, a.val), (16, i.toNat), (2, s.val), (4, 0)]) ⟨d.isLt, a.isLt, i.isLt, s.isLt, by decide, trivial⟩ rfl fun h => by
    simp only [List.map_cons, List.map_nil] at h
    simp [decMT, h, rsv]

theorem encSL_reads (f : XReg → PReg → XReg → XReg → Instr) (d : XReg) (p : PReg) (a b : XReg) :
    ReadsBack 4 (encSL d p a b) (decSL f) (f d p a b) :=
  .of_fits (fs := [(5, d.val), (5, a.val), (5, b.val), (4, p.val), (13, 0)]) ⟨d.isLt, a.isLt, b.isLt, p.isLt, by decide, trivial⟩ rfl fun h => by
    simp only [List.map_cons, List.map_nil] at h
    simp [decSL, h, rsv]

theorem encCR_reads (f : PReg → PReg → XReg → XReg → Instr) (d c : PReg) (a b : XReg) (hw : twice d c = false) :
    ReadsBack 4 (encCR d c a b) (decCR f) (f d c a b) :=
  .of_fits (fs := [(5, a.val), (5, b.val), (4, d.val), (4, c.val), (14, 0)]) ⟨a.isLt, b.isLt, d.isLt, c.isLt, by decide, trivial⟩ rfl fun h => by
    simp only [List.map_cons, List.map_nil] at h
    simp [decCR, h, rsv, val, hw]

theorem encCI_reads (f : PReg → PReg → XReg → BitVec 14 → Instr) (d c : PReg) (a : XReg) (i : BitVec 14) (hw : twice d c = false) :
    ReadsBack 4 (encCI d c a i) (decCI f) (f d c a i) :=
  .of_fits (fs := [(5, a.val), (5, 0), (4, d.val), (4, c.val), (14, i.toNat)]) ⟨a.isLt, by decide, d.isLt, c.isLt, i.isLt, trivial⟩ rfl fun h => by
    simp only [List.map_cons, List.map_nil] at h
    simp [decCI, h, rsv, val, hw]

theorem encP2_reads (f : PReg → PReg → PReg → Instr) (d a b : PReg) :
    ReadsBack 2 (encP2 d a b) (decP2 f) (f d a b) :=
  .of_fits (fs := [(4, d.val), (4, a.val), (4, b.val), (4, 0)]) ⟨d.isLt, a.isLt, b.isLt, by decide, trivial⟩ rfl fun h => by
    simp only [List.map_cons, List.map_nil] at h
    simp [decP2, h, rsv]

theorem encP1_reads (f : PReg → PReg → Instr) (d a : PReg) :
    ReadsBack 2 (encP1 d a) (decP1 f) (f d a) :=
  .of_fits (fs := [(4, d.val), (4, a.val), (8, 0)]) ⟨d.isLt, a.isLt, by decide, trivial⟩ rfl fun h => by
    simp only [List.map_cons, List.map_nil] at h
    simp [decP1, h, rsv]

theorem encX1_reads (f : XReg → Instr) (d : XReg) :
    ReadsBack 2 (encX1 d) (decX1 f) (f d) :=
  .of_fits (fs := [(5, d.val), (11, 0)]) ⟨d.isLt, by decide, trivial⟩ rfl fun h => by
    simp only [List.map_cons, List.map_nil] at h
    simp [decX1, h, rsv]

theorem encF4_reads (f : XReg → XReg → XReg → XReg → Instr) (d a b c : XReg) :
    ReadsBack 8 (encF4 d a b c) (decF4 f) (f d a b c) :=
  .of_fits (fs := [(5, d.val), (5, a.val), (5, b.val), (5, c.val), (44, 0)]) ⟨d.isLt, a.isLt, b.isLt, c.isLt, by decide, trivial⟩ rfl fun h => by
    simp only [List.map_cons, List.map_nil] at h
    simp [decF4, h, rsv]

theorem encCV_reads (qOk : Bool) (tys : List Ty) (f : XReg → XReg → Ty → Bool → Instr) (d a : XReg) (ty : Ty) (q : Bool) (hw : ty.isOneOf tys = true) (hq : qOk = true ∨ q = false) :
    ReadsBack 4 (encCV d a ty q) (decCV qOk tys f) (f d a ty q) :=
  .of_fits (fs := [(5, d.val), (5, a.val), (4, ty.code), (1, b01 q), (17, 0)]) ⟨d.isLt, a.isLt, ty.code_lt, b01_lt _, by decide, trivial⟩ rfl fun h => by
    simp only [List.map_cons, List.map_nil] at h
    simp [decCV, h, rsv, val, hw, hq]

theorem encBD_reads (f : BitVec 27 → Fin 32 → Instr) (d : BitVec 27) (h : Fin 32) :
    ReadsBack 4 (encBD d h) (decBD f) (f d h) :=
  .of_fits (fs := [(5, h.val), (27, d.toNat)]) ⟨h.isLt, d.isLt, trivial⟩ rfl fun h => by
    simp only [List.map_cons, List.map_nil] at h
    simp [decBD, h]

theorem encLP_reads (f : XReg → BitVec 22 → Fin 32 → Instr) (a : XReg) (d : BitVec 22) (h : Fin 32) (hw : a ≠ 0) :
    ReadsBack 4 (encLP a d h) (decLP f) (f a d h) :=
  .of_fits (fs := [(5, h.val), (5, a.val), (22, d.toNat)]) ⟨h.isLt, a.isLt, d.isLt, trivial⟩ rfl fun h => by
    simp only [List.map_cons, List.map_nil] at h
    simp [decLP, h, val, hw]

theorem encLS_reads (f : XReg → XReg → BitVec 24 → Space → Ty → Fin 4096 → Instr) (d a : XReg) (i : BitVec 24) (sp : Space) (ty : Ty) (n : Fin 4096) (hw : ty.scalarMem = true) :
    ReadsBack 8 (encLS d a i sp ty n) (decLS f) (f d a i sp ty n) :=
  .of_fits (fs := [(5, d.val), (5, a.val), (2, sp.code), (4, ty.code), (12, n.val), (24, i.toNat), (12, 0)]) ⟨d.isLt, a.isLt, sp.code_lt, ty.code_lt, n.isLt, i.isLt, by decide, trivial⟩ rfl fun h => by
    simp only [List.map_cons, List.map_nil] at h
    simp [decLS, h, rsv, val, hw]

theorem encLSs_reads (f : XReg → XReg → BitVec 24 → Space → Ty → Instr) (d a : XReg) (i : BitVec 24) (sp : Space) (ty : Ty) (hw : ty.scalarMem = true) :
    ReadsBack 8 (encLSs d a i sp ty) (decLSs f) (f d a i sp ty) :=
  .of_fits (fs := [(5, d.val), (5, a.val), (2, sp.code), (4, ty.code), (12, 0), (24, i.toNat), (12, 0)]) ⟨d.isLt, a.isLt, sp.code_lt, ty.code_lt, by decide, i.isLt, by decide, trivial⟩ rfl fun h => by
    simp only [List.map_cons, List.map_nil] at h
    simp [decLSs, h, rsv, val, hw]

theorem encLSp_reads (f : XReg → BitVec 24 → Space → Instr) (a : XReg) (i : BitVec 24) (sp : Space) :
    ReadsBack 8 (encLSp a i sp) (decLSp f) (f a i sp) :=
  .of_fits (fs := [(5, 0), (5, a.val), (2, sp.code), (16, 0), (24, i.toNat), (12, 0)]) ⟨by decide, a.isLt, sp.code_lt, by decide, i.isLt, by decide, trivial⟩ rfl fun h => by
    simp only [List.map_cons, List.map_nil] at h
    simp [decLSp, h, rsv]

theorem encLX_reads (f : XReg → XReg → XReg → Fin 4 → Space → Ty → Fin 4096 → Instr) (d a b : XReg) (s : Fin 4) (sp : Space) (ty : Ty) (n : Fin 4096) (hw : ty.scalarMem = true) :
    ReadsBack 8 (encLX d a b s sp ty n) (decLX f) (f d a b s sp ty n) :=
  .of_fits (fs := [(5, d.val), (5, a.val), (5, b.val), (2, sp.code), (4, ty.code), (12, n.val), (2, s.val), (29, 0)]) ⟨d.isLt, a.isLt, b.isLt, sp.code_lt, ty.code_lt, n.isLt, s.isLt, by decide, trivial⟩ rfl fun h => by
    simp only [List.map_cons, List.map_nil] at h
    simp [decLX, h, rsv, val, hw]

theorem encLXs_reads (f : XReg → XReg → XReg → Fin 4 → Space → Ty → Instr) (d a b : XReg) (s : Fin 4) (sp : Space) (ty : Ty) (hw : ty.scalarMem = true) :
    ReadsBack 8 (encLXs d a b s sp ty) (decLXs f) (f d a b s sp ty) :=
  .of_fits (fs := [(5, d.val), (5, a.val), (5, b.val), (2, sp.code), (4, ty.code), (12, 0), (2, s.val), (29, 0)]) ⟨d.isLt, a.isLt, b.isLt, sp.code_lt, ty.code_lt, by decide, s.isLt, by decide, trivial⟩ rfl fun h => by
    simp only [List.map_cons, List.map_nil] at h
    simp [decLXs, h, rsv, val, hw]

theorem encDV_reads (f : XReg → XReg → XReg → Fin 4096 → Instr) (d a b : XReg) (n : Fin 4096) :
    ReadsBack 4 (encDV d a b n) (decDV f) (f d a b n) :=
  .of_fits (fs := [(5, d.val), (5, a.val), (5, b.val), (12, n.val), (5, 0)]) ⟨d.isLt, a.isLt, b.isLt, n.isLt, by decide, trivial⟩ rfl fun h => by
    simp only [List.map_cons, List.map_nil] at h
    simp [decDV, h, rsv]

theorem encFN_reads (f : FenceKinds → Scope → Instr) (k : FenceKinds) (s : Scope) (hw : (k.ll || k.ls || k.sl || k.ss || k.en) = true) :
    ReadsBack 2 (encFN k s) (decFN f) (f k s) :=
  .of_fits (fs := [(3, s.code), (1, b01 k.ll), (1, b01 k.ls), (1, b01 k.sl), (1, b01 k.ss), (1, b01 k.en), (8, 0)]) ⟨s.code_lt, b01_lt _, b01_lt _, b01_lt _, b01_lt _, b01_lt _, by decide, trivial⟩ rfl fun h => by
    simp only [List.map_cons, List.map_nil] at h
    rcases k with ⟨ll, ls, sl, ss, en⟩
    cases ll <;> cases ls <;> cases sl <;> cases ss <;> cases en <;> simp_all [decFN, rsv, val, b01, bit1]

theorem encLQ_reads (f : XReg → XReg → BitVec 24 → Space → Ty → Fin 4096 → Scope → Instr) (d a : XReg) (i : BitVec 24) (sp : Space) (ty : Ty) (n : Fin 4096) (s : Scope) (hw : ty.scalarMem = true) :
    ReadsBack 8 (encLQ d a i sp ty n s) (decLQ f) (f d a i sp ty n s) :=
  .of_fits (fs := [(5, d.val), (5, a.val), (2, sp.code), (4, ty.code), (12, n.val), (24, i.toNat), (3, s.code), (9, 0)]) ⟨d.isLt, a.isLt, sp.code_lt, ty.code_lt, n.isLt, i.isLt, s.code_lt, by decide, trivial⟩ rfl fun h => by
    simp only [List.map_cons, List.map_nil] at h
    simp [decLQ, h, rsv, val, hw]

theorem encSQ_reads (f : XReg → XReg → BitVec 24 → Space → Ty → Scope → Instr) (d a : XReg) (i : BitVec 24) (sp : Space) (ty : Ty) (s : Scope) (hw : ty.scalarMem = true) :
    ReadsBack 8 (encSQ d a i sp ty s) (decSQ f) (f d a i sp ty s) :=
  .of_fits (fs := [(5, d.val), (5, a.val), (2, sp.code), (4, ty.code), (12, 0), (24, i.toNat), (3, s.code), (9, 0)]) ⟨d.isLt, a.isLt, sp.code_lt, ty.code_lt, by decide, i.isLt, s.code_lt, by decide, trivial⟩ rfl fun h => by
    simp only [List.map_cons, List.map_nil] at h
    simp [decSQ, h, rsv, val, hw]

theorem encAM_reads (fadd minmax cas : Bool) (f : Amo → Instr) (a : Amo) (hw : a.wf fadd minmax cas = true) :
    ReadsBack 8 (encAM a) (decAM fadd minmax cas f) (f a) :=
  .of_fits (fs := [(5, a.xd.val), (5, a.xa.val), (5, a.xb.val), (5, a.xc.val), (2, a.sp.code), (4, a.ty.code), (12, a.dist.val), (3, a.sc.code), (2, a.ord.code), (1, b01 a.u), (20, a.disp.toNat)]) ⟨a.xd.isLt, a.xa.isLt, a.xb.isLt, a.xc.isLt, a.sp.code_lt, a.ty.code_lt, a.dist.isLt, a.sc.code_lt, a.ord.code_lt, b01_lt _, a.disp.isLt, trivial⟩ rfl fun h => by
    simp only [List.map_cons, List.map_nil] at h
    rcases a with ⟨xd, xa, xb, xc, sp, ty, dist, sc, o, u, disp⟩
    simp only [Amo.wf, Bool.and_eq_true, Bool.or_eq_true, decide_eq_true_eq, Bool.not_eq_true'] at hw
    obtain ⟨⟨⟨hy, hu⟩, hc⟩, ho⟩ := hw
    have e1 : cas = true ∨ xc = 0 := hc
    have e2 : ¬o.code = 0 ∨ sc.code = 0 := by
      rcases ho with ho | ho
      · left; cases o <;> simp_all [Ord3.code]
      · right; rw [ho]; rfl
    have e3 : u = false ∨ minmax = true ∧ ty.code = 0 := by
      rcases hu with hu | hu
      · exact .inl hu
      · right; exact ⟨hu.1, by rw [hu.2]; rfl⟩
    cases fadd <;> simp_all [decAM, rsv, val]

theorem encAP_reads (f : XReg → XReg → VOp → MReg → Space → Fin 4096 → Instr) (d a : XReg) (v : VOp) (m : MReg) (sp : Space) (n : Fin 4096) (hw : (sp = .s || sp = .h) = true) :
    ReadsBack 8 (encAP d a v m sp n) (decAP f) (f d a v m sp n) :=
  .of_fits (fs := [(5, d.val), (5, a.val), (11, v.code), (3, m.val), (2, sp.code), (12, n.val), (26, 0)]) ⟨d.isLt, a.isLt, v.code_lt, m.isLt, sp.code_lt, n.isLt, by decide, trivial⟩ rfl fun h => by
    simp only [List.map_cons, List.map_nil] at h
    rcases sp <;> simp_all [decAP, rsv, val, Space.code, spaceOf]

theorem encQS_reads (f : VOp → QReg → Bool → BitVec 4 → Fin 4 → Fin 4 → Instr) (v : VOp) (q : QReg) (w : Bool) (ae : BitVec 4) (fb nb : Fin 4) (h1 : ae ≠ 0) (h2 : fb.val + nb.val + 1 ≤ 4) :
    ReadsBack 8 (encQS v q w ae fb nb) (decQS f) (f v q w ae fb nb) :=
  .of_fits (fs := [(11, v.code), (3, q.val), (1, b01 w), (4, ae.toNat), (2, fb.val), (2, nb.val), (41, 0)]) ⟨v.code_lt, q.isLt, b01_lt _, ae.isLt, fb.isLt, nb.isLt, by decide, trivial⟩ rfl fun h => by
    simp only [List.map_cons, List.map_nil] at h
    simp [decQS, h, rsv, val, h2, toNat_ne_zero h1]

theorem encBD8_reads (f : VOp → XReg → BitVec 20 → Space → Bool → Fin 4 → Fin 4 → Fin 4096 → Instr) (v : VOp) (a : XReg) (i : BitVec 20) (sp : Space) (w : Bool) (fb nb : Fin 4) (n : Fin 4096) (hw : fb.val + nb.val + 1 ≤ 4) :
    ReadsBack 8 (encBD8 v a i sp w fb nb n) (decBD8 f) (f v a i sp w fb nb n) :=
  .of_fits (fs := [(11, v.code), (5, a.val), (2, sp.code), (1, b01 w), (2, nb.val), (2, fb.val), (12, n.val), (20, i.toNat), (9, 0)]) ⟨v.code_lt, a.isLt, sp.code_lt, b01_lt _, nb.isLt, fb.isLt, n.isLt, i.isLt, by decide, trivial⟩ rfl fun h => by
    simp only [List.map_cons, List.map_nil] at h
    simp [decBD8, h, rsv, val, hw]

theorem encBH_reads (f : XReg → XReg → Space → Fin 3 → Fin 4096 → Instr) (d a : XReg) (sp : Space) (w : Fin 3) (n : Fin 4096) :
    ReadsBack 4 (encBH d a sp w n) (decBH f) (f d a sp w n) :=
  .of_fits (fs := [(5, d.val), (5, a.val), (2, sp.code), (2, w.val), (12, n.val), (6, 0)]) ⟨d.isLt, a.isLt, sp.code_lt, Nat.lt_of_lt_of_le w.isLt (Nat.le_of_ble_eq_true rfl), n.isLt, by decide, trivial⟩ rfl fun h => by
    simp only [List.map_cons, List.map_nil] at h
    simp [decBH, h, rsv, val, show ¬w.val = 3 by omega]

theorem encCT_reads (f : VOp → VOp → MReg → CFmt → Instr) (d a : VOp) (m : MReg) (k : CFmt) (hw : k ≠ .w) :
    ReadsBack 4 (encCT d a m k) (decCT f) (f d a m k) :=
  .of_fits (fs := [(11, d.code), (11, a.code), (3, m.val), (3, k.code), (4, 0)]) ⟨d.code_lt, a.code_lt, m.isLt, k.code_lt, by decide, trivial⟩ rfl fun h => by
    simp only [List.map_cons, List.map_nil] at h
    simp [decCT, h, rsv, val, hw]

theorem encVU_reads (qOk : Bool) (tys : List Ty) (f : VU → Bool → Instr) (a : VU) (q : Bool) (hw : a.ty.isOneOf tys = true) (hq : qOk = true ∨ q = false) :
    ReadsBack 4 (encVU a q) (decVU qOk tys f) (f a q) :=
  .of_fits (fs := [(11, a.vd.code), (11, a.va.code), (3, a.ma.val), (4, a.ty.code), (1, b01 q), (2, 0)]) ⟨a.vd.code_lt, a.va.code_lt, a.ma.isLt, a.ty.code_lt, b01_lt _, by decide, trivial⟩ rfl fun h => by
    simp only [List.map_cons, List.map_nil] at h
    simp [decVU, h, rsv, val, hw, hq]

theorem encVR_reads (f : XReg → VOp → Ty → MReg → Instr) (d : XReg) (a : VOp) (ty : Ty) (m : MReg) (hw : ty.isOneOf [.f32, .s32, .z32] = true) :
    ReadsBack 4 (encVR d a ty m) (decVR f) (f d a ty m) :=
  .of_fits (fs := [(5, d.val), (11, a.code), (3, m.val), (4, ty.code), (9, 0)]) ⟨d.isLt, a.code_lt, m.isLt, ty.code_lt, by decide, trivial⟩ rfl fun h => by
    simp only [List.map_cons, List.map_nil] at h
    simp [decVR, h, rsv, val, hw]

theorem encM3_reads (f : MReg → MReg → MReg → Instr) (d a b : MReg) :
    ReadsBack 2 (encM3 d a b) (decM3 f) (f d a b) :=
  .of_fits (fs := [(3, d.val), (3, a.val), (3, b.val), (7, 0)]) ⟨d.isLt, a.isLt, b.isLt, by decide, trivial⟩ rfl fun h => by
    simp only [List.map_cons, List.map_nil] at h
    simp [decM3, h, rsv]

theorem encM2_reads (f : MReg → MReg → Instr) (d a : MReg) :
    ReadsBack 2 (encM2 d a) (decM2 f) (f d a) :=
  .of_fits (fs := [(3, d.val), (3, a.val), (10, 0)]) ⟨d.isLt, a.isLt, by decide, trivial⟩ rfl fun h => by
    simp only [List.map_cons, List.map_nil] at h
    simp [decM2, h, rsv]

theorem encMP_reads (f : XReg → MReg → Instr) (d : XReg) (a : MReg) :
    ReadsBack 2 (encMP d a) (decMP f) (f d a) :=
  .of_fits (fs := [(5, d.val), (3, a.val), (8, 0)]) ⟨d.isLt, a.isLt, by decide, trivial⟩ rfl fun h => by
    simp only [List.map_cons, List.map_nil] at h
    simp [decMP, h, rsv]

theorem encMS_reads (f : MReg → XReg → Instr) (d : MReg) (a : XReg) :
    ReadsBack 2 (encMS d a) (decMS f) (f d a) :=
  .of_fits (fs := [(3, d.val), (5, a.val), (8, 0)]) ⟨d.isLt, a.isLt, by decide, trivial⟩ rfl fun h => by
    simp only [List.map_cons, List.map_nil] at h
    simp [decMS, h, rsv]

theorem encVBC_reads (f : VOp → XReg → MReg → Instr) (d : VOp) (a : XReg) (m : MReg) :
    ReadsBack 4 (encVBC d a m) (decVBC f) (f d a m) :=
  .of_fits (fs := [(11, d.code), (5, a.val), (3, m.val), (13, 0)]) ⟨d.code_lt, a.isLt, m.isLt, by decide, trivial⟩ rfl fun h => by
    simp only [List.map_cons, List.map_nil] at h
    simp [decVBC, h, rsv]

theorem encSH_reads (f : XReg → XReg → Space → Instr) (d a : XReg) (sp : Space) :
    ReadsBack 4 (encSH d a sp) (decSH f) (f d a sp) :=
  .of_fits (fs := [(5, d.val), (5, a.val), (2, sp.code), (20, 0)]) ⟨d.isLt, a.isLt, sp.code_lt, by decide, trivial⟩ rfl fun h => by
    simp only [List.map_cons, List.map_nil] at h
    simp [decSH, h, rsv]

theorem encST_reads (f : Fin 4 → QReg → XReg → XReg → Space → Option XReg → Instr) (s : Fin 4) (q : QReg) (a b : XReg) (sp : Space) (c : Option XReg) :
    ReadsBack 8 (encST s q a b sp c) (decST f) (f s q a b sp c) :=
  .of_fits (fs := [(2, s.val), (3, q.val), (5, a.val), (5, b.val), (2, sp.code), (5, optX c), (1, b01 c.isSome), (41, 0)]) ⟨s.isLt, q.isLt, a.isLt, b.isLt, sp.code_lt, optX_lt _, b01_lt _, by decide, trivial⟩ rfl fun h => by
    simp only [List.map_cons, List.map_nil] at h
    cases c <;> simp_all [decST, rsv, optX, b01]

theorem encSW_reads (f : XReg → Fin 4 → Instr) (d : XReg) (s : Fin 4) :
    ReadsBack 2 (encSW d s) (decSW f) (f d s) :=
  .of_fits (fs := [(5, d.val), (2, s.val), (9, 0)]) ⟨d.isLt, s.isLt, by decide, trivial⟩ rfl fun h => by
    simp only [List.map_cons, List.map_nil] at h
    simp [decSW, h, rsv]

theorem encSP_reads (f : Fin 4 → Instr) (s : Fin 4) :
    ReadsBack 2 (encSP s) (decSP f) (f s) :=
  .of_fits (fs := [(2, s.val), (14, 0)]) ⟨s.isLt, by decide, trivial⟩ rfl fun h => by
    simp only [List.map_cons, List.map_nil] at h
    simp [decSP, h, rsv]

theorem encQC_reads (f : QReg → Fin 256 → Fin 8 → Fin 32 → Instr) (q : QReg) (b : Fin 256) (sz : Fin 8) (es : Fin 32) (hw : qcfgWf b sz es = true) :
    ReadsBack 8 (encQC q b sz es) (decQC f) (f q b sz es) :=
  .of_fits (fs := [(3, q.val), (5, es.val), (3, sz.val), (8, b.val), (45, 0)]) ⟨q.isLt, es.isLt, sz.isLt, b.isLt, by decide, trivial⟩ rfl fun h => by
    simp only [List.map_cons, List.map_nil] at h
    simp [decQC, h, rsv, val, hw]

theorem encQP_reads (f : QReg → VOp → CFmt → Instr) (q : QReg) (v : VOp) (k : CFmt) :
    ReadsBack 4 (encQP q v k) (decQP f) (f q v k) :=
  .of_fits (fs := [(11, v.code), (3, q.val), (3, k.code), (15, 0)]) ⟨v.code_lt, q.isLt, k.code_lt, by decide, trivial⟩ rfl fun h => by
    simp only [List.map_cons, List.map_nil] at h
    simp [decQP, h, rsv]

theorem encQPr_reads (f : RowOp → QReg → CFmt → Instr) (v : RowOp) (q : QReg) (k : CFmt) :
    ReadsBack 4 (encQPr v q k) (decQPr f) (f v q k) :=
  .of_fits (fs := [(11, v.code), (3, q.val), (3, k.code), (15, 0)]) ⟨v.code_lt, q.isLt, k.code_lt, by decide, trivial⟩ rfl fun h => by
    simp only [List.map_cons, List.map_nil] at h
    simp [decQPr, h, rsv]

theorem encQN_reads (f : XReg → QReg → Instr) (d : XReg) (q : QReg) :
    ReadsBack 2 (encQN d q) (decQN f) (f d q) :=
  .of_fits (fs := [(5, d.val), (3, q.val), (8, 0)]) ⟨d.isLt, q.isLt, by decide, trivial⟩ rfl fun h => by
    simp only [List.map_cons, List.map_nil] at h
    simp [decQN, h, rsv]

theorem encQF_reads (f : BitVec 8 → Instr) (m : BitVec 8) (hw : m ≠ 0) :
    ReadsBack 2 (encQF m) (decQF f) (f m) :=
  .of_fits (fs := [(8, m.toNat), (8, 0)]) ⟨m.isLt, by decide, trivial⟩ rfl fun h => by
    simp only [List.map_cons, List.map_nil] at h
    simp [decQF, h, rsv, val, toNat_ne_zero hw]

theorem encCP_reads (f : XReg → XReg → XReg → MReg → Space → Space → Option XReg → Option XReg → Instr) (a b c : XReg) (m : MReg) (ds ss : Space) (xt xe : Option XReg) (h1 : ds ≠ .t) (h2 : ss ≠ .t) :
    ReadsBack 8 (encCP a b c m ds ss xt xe) (decCP f) (f a b c m ds ss xt xe) :=
  .of_fits (fs := [(5, a.val), (5, b.val), (5, c.val), (2, ds.code), (2, ss.code), (3, m.val), (1, b01 xt.isSome), (5, optX xt), (1, b01 xe.isSome), (5, optX xe), (30, 0)]) ⟨a.isLt, b.isLt, c.isLt, ds.code_lt, ss.code_lt, m.isLt, b01_lt _, optX_lt _, b01_lt _, optX_lt _, by decide, trivial⟩ rfl fun h => by
    simp only [List.map_cons, List.map_nil] at h
    have e1 : ¬ds.code = 0 := by simpa [Space.code_eq, spaceOf] using h1
    have e2 : ¬ss.code = 0 := by simpa [Space.code_eq, spaceOf] using h2
    cases xt <;> cases xe <;> simp_all [decCP, rsv, val, optX, b01]

theorem encTS_reads (f : PReg → PReg → XReg → XReg → TileState → TileState → Instr) (d c : PReg) (a b : XReg) (fr dst : TileState) (h1 : tsetPair fr dst = true) (h2 : twice d c = false) :
    ReadsBack 4 (encTS d c a b fr dst) (decTS f) (f d c a b fr dst) :=
  .of_fits (fs := [(5, a.val), (5, b.val), (4, d.val), (4, c.val), (2, fr.code), (2, dst.code), (10, 0)]) ⟨a.isLt, b.isLt, d.isLt, c.isLt, fr.code_lt, dst.code_lt, by decide, trivial⟩ rfl fun h => by
    simp only [List.map_cons, List.map_nil] at h
    simp [decTS, h, rsv, val, h1, h2]

theorem encRR_reads (f : XReg → XReg → Instr) (d a : XReg) :
    ReadsBack 4 (encRR d a) (decRR f) (f d a) :=
  .of_fits (fs := [(5, d.val), (5, a.val), (22, 0)]) ⟨d.isLt, a.isLt, by decide, trivial⟩ rfl fun h => by
    simp only [List.map_cons, List.map_nil] at h
    simp [decRR, h, rsv]

theorem encTW_reads (f : XReg → TileState → Instr) (a : XReg) (s : TileState) :
    ReadsBack 4 (encTW a s) (decTW f) (f a s) :=
  .of_fits (fs := [(5, a.val), (2, s.code), (25, 0)]) ⟨a.isLt, s.code_lt, by decide, trivial⟩ rfl fun h => by
    simp only [List.map_cons, List.map_nil] at h
    simp [decTW, h, rsv]

theorem encSL4_reads (f : QReg → Bool → Instr) (q : QReg) (k : Bool) :
    ReadsBack 4 (encSL4 q k) (decSL4 f) (f q k) :=
  .of_fits (fs := [(3, q.val), (1, b01 k), (28, 0)]) ⟨q.isLt, b01_lt _, by decide, trivial⟩ rfl fun h => by
    simp only [List.map_cons, List.map_nil] at h
    simp [decSL4, h, rsv]

theorem encVT_reads (f : RowOp → QReg → Fin 4 → Instr) (v : RowOp) (q : QReg) (s : Fin 4) :
    ReadsBack 4 (encVT v q s) (decVT f) (f v q s) :=
  .of_fits (fs := [(11, v.code), (3, q.val), (2, s.val), (16, 0)]) ⟨v.code_lt, q.isLt, s.isLt, by decide, trivial⟩ rfl fun h => by
    simp only [List.map_cons, List.map_nil] at h
    simp [decVT, h, rsv]

theorem encGW_reads (f : Bool → Bool → Instr) (a b : Bool) (hw : (a || b) = true) :
    ReadsBack 2 (encGW a b) (decGW f) (f a b) :=
  .of_fits (fs := [(1, b01 a), (1, b01 b), (14, 0)]) ⟨b01_lt _, b01_lt _, by decide, trivial⟩ rfl fun h => by
    simp only [List.map_cons, List.map_nil] at h
    simp [decGW, h, rsv, val, hw]

theorem encX4_reads (f : XReg → Instr) (a : XReg) :
    ReadsBack 4 (encX4 a) (decX4 f) (f a) :=
  .of_fits (fs := [(5, a.val), (27, 0)]) ⟨a.isLt, by decide, trivial⟩ rfl fun h => by
    simp only [List.map_cons, List.map_nil] at h
    simp [decX4, h, rsv]

theorem encFW_reads (f : PReg → PReg → XReg → Instr) (d c : PReg) (a : XReg) (hw : twice d c = false) :
    ReadsBack 4 (encFW d c a) (decFW f) (f d c a) :=
  .of_fits (fs := [(5, a.val), (4, d.val), (4, c.val), (19, 0)]) ⟨a.isLt, d.isLt, c.isLt, by decide, trivial⟩ rfl fun h => by
    simp only [List.map_cons, List.map_nil] at h
    simp [decFW, h, rsv, val, hw]

theorem encFM_reads (f : XReg → XReg → XReg → XReg → BitVec 27 → Fin 32 → Instr) (a b c e : XReg) (d : BitVec 27) (h : Fin 32) :
    ReadsBack 8 (encFM a b c e d h) (decFM f) (f a b c e d h) :=
  .of_fits (fs := [(5, a.val), (5, b.val), (5, c.val), (5, e.val), (5, h.val), (27, d.toNat), (12, 0)]) ⟨a.isLt, b.isLt, c.isLt, e.isLt, h.isLt, d.isLt, by decide, trivial⟩ rfl fun h => by
    simp only [List.map_cons, List.map_nil] at h
    simp [decFM, h, rsv]

theorem encSV_reads (f : XReg → PReg → PReg → XReg → Instr) (d : XReg) (p c : PReg) (a : XReg) (hw : twice p c = false) :
    ReadsBack 4 (encSV d p c a) (decSV f) (f d p c a) :=
  .of_fits (fs := [(5, d.val), (5, a.val), (4, p.val), (4, c.val), (14, 0)]) ⟨d.isLt, a.isLt, p.isLt, c.isLt, by decide, trivial⟩ rfl fun h => by
    simp only [List.map_cons, List.map_nil] at h
    simp [decSV, h, rsv, val, hw]

theorem encTXA_reads (f : XReg → Bool → Instr) (a : XReg) (r : Bool) :
    ReadsBack 2 (encTXA a r) (decTXA f) (f a r) :=
  .of_fits (fs := [(5, a.val), (1, b01 r), (10, 0)]) ⟨a.isLt, b01_lt _, by decide, trivial⟩ rfl fun h => by
    simp only [List.map_cons, List.map_nil] at h
    simp [decTXA, h, rsv]
theorem vamo_vd_lt (a : Vamo) : (match a.vd with | some v => v.code | none => 0) < 2 ^ 11 := by
  cases a.vd with
  | none => exact Nat.two_pow_pos 11
  | some v => exact v.code_lt

theorem encVA_reads (fadd minmax : Bool) (f : Vamo → Instr) (a : Vamo) (hw : a.wf fadd minmax = true) :
    ReadsBack 8 (encVA a) (decVA fadd minmax f) (f a) :=
  .of_fits (fs := [(11, match a.vd with | some v => v.code | none => 0), (11, a.vb.code), (11, a.va.code), (5, a.xa.val), (3, a.ma.val), (2, a.sp.code),
      (12, a.dist.val), (1, b01 a.iw), (1, b01 a.sg), (3, a.sc.val), (1, b01 a.vd.isSome), (1, b01 a.ra), (1, b01 a.u), (1, 0)])
    ⟨vamo_vd_lt a, a.vb.code_lt, a.va.code_lt, a.xa.isLt, a.ma.isLt, a.sp.code_lt, a.dist.isLt, b01_lt _, b01_lt _, a.sc.isLt, b01_lt _, b01_lt _, b01_lt _,
      by decide, trivial⟩ rfl fun h => by
    simp only [List.map_cons, List.map_nil] at h
    simp only [Vamo.wf, Bool.and_eq_true, Bool.or_eq_true, Bool.not_eq_true', decide_eq_true_eq, Option.isNone_iff_eq_none] at hw
    obtain ⟨⟨hu, hr⟩, hn⟩ := hw
    rcases a with ⟨_ | vd, vb, va, xa, ma, sp, dist, iw, sg, sc, ra, u⟩
    · have hn : dist = 0 := by simpa using hn
      simp only [Option.isSome_none] at h ⊢
      simp only [decVA, h]
      cases ra <;> simp_all [rsv, show b01 false = 0 from rfl, show bit1 0 = false from rfl]
    · have hr : ra = false := by simpa using hr
      simp only [Option.isSome_some] at h ⊢
      simp only [decVA, h]
      have hu : u = false ∨ minmax = true := hu
      rcases hu with e | e <;> simp [rsv, hr, e, show b01 true = 1 from rfl]

theorem encVVg_fits (a : VV) (vc opt imm : Nat) (hc : vc < 2 ^ 11) (ho : opt < 2 ^ 3) (hi : imm < 2 ^ 8) :
    Fits [(11, a.vd.code), (11, a.va.code), (11, a.b.field), (11, vc), (3, a.ma.val), (4, a.ty.code), (1, a.b.sBit), (3, opt), (8, imm), (1, 0)] :=
  ⟨a.vd.code_lt, a.va.code_lt, a.b.field_lt, hc, a.ma.isLt, a.ty.code_lt, a.b.sBit_lt, ho, hi, by decide, trivial⟩

/-- The fields of layout VV are read as they were written. -/
theorem rawVV_enc (a : VV) (vc opt imm : Nat) (hc : vc < 2 ^ 11) (ho : opt < 2 ^ 3) (hi : imm < 2 ^ 8) :
    rawVV (encVVg a vc opt imm) = ⟨a.vd.code, a.va.code, a.b.field, vc, a.ma.val, a.ty.code, a.b.sBit, opt, imm, 0⟩ := by
  have h := unpack_pack (encVVg_fits a vc opt imm hc ho hi)
  simp only [List.map_cons, List.map_nil] at h
  simp only [rawVV, encVVg, h]

theorem encVVg_lt (a : VV) (vc opt imm : Nat) (hc : vc < 2 ^ 11) (ho : opt < 2 ^ 3) (hi : imm < 2 ^ 8) : encVVg a vc opt imm < 2 ^ (8 * 8) :=
  pack_lt (encVVg_fits a vc opt imm hc ho hi)

/-- A second operand that is no immediate is read back. -/
theorem src2Of_field (s : Src2) (hs : s.wf true false = true) (r : VVRaw) (h1 : r.s = s.sBit) (h2 : r.vb = s.field) :
    src2Of r = some s ∧ (r.s = 0 ∨ r.vb < 32) := by
  cases s with
  | vec v => simp [src2Of, h1, h2, Src2.sBit, Src2.field]
  | scalar x => simp [src2Of, h1, h2, Src2.sBit, Src2.field]
  | imm n => cases hs

theorem encVVg_reads (vc immOk : Bool) (optMax : Nat) (tys : List Ty) (f : VV → VOp → Nat → Nat → Instr) (a : VV) (c : VOp) (opt imm : Nat)
    (hw : (a.ty.isOneOf tys && a.b.wf true false) = true) (hc : vc = true ∨ c.code = 0) (ho : opt ≤ optMax) (hm : opt < 2 ^ 3) (hi : imm < 2 ^ 8)
    (hj : immOk = true ∨ imm = 0) : ReadsBack 8 (encVVg a c.code opt imm) (decVVg vc immOk optMax tys f) (f a c opt imm) := by
  refine ⟨encVVg_lt a _ opt imm c.code_lt hm hi, ?_⟩
  rw [Bool.and_eq_true] at hw
  have h := src2Of_field a.b hw.2 ⟨a.vd.code, a.va.code, a.b.field, c.code, a.ma.val, a.ty.code, a.b.sBit, opt, imm, 0⟩ rfl rfl
  simp [decVVg, rawVV_enc a c.code opt imm c.code_lt hm hi, h.1, h.2, hc, ho, hj, rsv, val, hw.1]

/-- The common form: no third vector operand, no option and no immediate. -/
theorem encVVg_plain (tys : List Ty) (f : VV → Instr) (a : VV) (hw : (a.ty.isOneOf tys && a.b.wf true false) = true) :
    ReadsBack 8 (encVVg a 0 0 0) (decVVg false false 0 tys fun a _ _ _ => f a) (f a) :=
  encVVg_reads false false 0 tys (fun a _ _ _ => f a) a ⟨false, .row, 0⟩ 0 0 hw (.inr rfl) (Nat.le_refl 0) (by decide) (by decide) (.inr rfl)

theorem encVVs_reads (optMax : Nat) (tys : List Ty) (f : VV → Bool → Instr) (a : VV) (n16 : Bool)
    (hw : (a.ty.isOneOf tys && a.b.wf true true) = true) (ho : 1 + 2 * b01 n16 ≤ optMax) : ReadsBack 8 (encVVs a n16) (decVVs optMax tys f) (f a n16) := by
  rw [Bool.and_eq_true] at hw
  have hb := b01_lt n16
  rcases a with ⟨vd, va, b, ty, ma⟩
  cases b with
  | imm n =>
    have hn : n.val < 2 ^ 8 := Nat.lt_of_lt_of_le n.isLt (Nat.le_of_ble_eq_true rfl)
    refine ⟨encVVg_lt _ 0 _ _ (by decide) (by omega) hn, ?_⟩
    have e1 : (1 + 2 * b01 n16) % 2 = 1 := by omega
    have e2 : (1 + 2 * b01 n16) / 2 = b01 n16 := by omega
    simp [decVVs, encVVs, rawVV_enc _ 0 _ _ (by decide : 0 < 2 ^ 11) (show 1 + 2 * b01 n16 < 2 ^ 3 by omega) hn, e1, e2, ho, rsv, val, hw.1,
      Src2.field, Src2.sBit]
  | vec v =>
    refine ⟨encVVg_lt _ 0 _ _ (by decide) (by omega) (by decide), ?_⟩
    have e2 : 2 * b01 n16 / 2 = b01 n16 := by omega
    simp [decVVs, encVVs, rawVV_enc _ 0 _ _ (by decide : 0 < 2 ^ 11) (show 2 * b01 n16 < 2 ^ 3 by omega) (by decide : 0 < 2 ^ 8), e2, rsv, val, hw.1,
      show 2 * b01 n16 ≤ optMax by omega, src2Of, Src2.field, Src2.sBit]
  | scalar x =>
    refine ⟨encVVg_lt _ 0 _ _ (by decide) (by omega) (by decide), ?_⟩
    have e2 : 2 * b01 n16 / 2 = b01 n16 := by omega
    simp [decVVs, encVVs, rawVV_enc _ 0 _ _ (by decide : 0 < 2 ^ 11) (show 2 * b01 n16 < 2 ^ 3 by omega) (by decide : 0 < 2 ^ 8), e2, rsv, val, hw.1,
      show 2 * b01 n16 ≤ optMax by omega, src2Of, Src2.field, Src2.sBit]

theorem encVVc_reads (f : VCmp → Instr) (a : VCmp) (hw : (a.ty.isOneOf [.f32, .s32, .z32] && a.b.wf true false) = true) :
    ReadsBack 8 (encVVc a) (decVVc f) (f a) := by
  rw [Bool.and_eq_true] at hw
  have hf : Fits [(11, a.md.val), (11, a.va.code), (11, a.b.field), (11, 0), (3, a.ma.val), (4, a.ty.code), (1, a.b.sBit), (3, 0), (8, 0), (1, 0)] :=
    ⟨Nat.lt_of_lt_of_le a.md.isLt (Nat.le_of_ble_eq_true rfl), a.va.code_lt, a.b.field_lt, by decide, a.ma.isLt, a.ty.code_lt, a.b.sBit_lt, by decide, by decide,
      by decide, trivial⟩
  refine ⟨pack_lt hf, ?_⟩
  have h := unpack_pack hf
  simp only [List.map_cons, List.map_nil] at h
  have hs := src2Of_field a.b hw.2 ⟨a.md.val, a.va.code, a.b.field, 0, a.ma.val, a.ty.code, a.b.sBit, 0, 0, 0⟩ rfl rfl
  have hm : a.md.val < 8 := a.md.isLt
  simp [decVVc, rawVV, encVVc, h, hs.1, hs.2, hm, rsv, val, hw.1]

theorem encVM_reads (dist ord bo : Bool) (tyOk : Ty → Bool) (f : VM → BitVec 20 → Bool → Fin 4 → Instr) (a : VM) (i : BitVec 20) (o : Bool) (b : Fin 4)
    (hw : tyOk a.ty = true) (hd : dist = true ∨ a.dist = 0) (ho : ord = true ∨ o = false) (hb : bo = true ∨ b = 0) :
    ReadsBack 8 (encVM a i o b.val) (decVM dist ord bo tyOk f) (f a i o b) :=
  .of_fits (fs := [(11, a.vop.code), (5, a.xa.val), (2, a.sp.code), (4, a.ty.code), (3, a.ma.val), (12, a.dist.val), (20, i.toNat), (1, b01 o),
      (2, b.val), (4, 0)])
    ⟨a.vop.code_lt, a.xa.isLt, a.sp.code_lt, a.ty.code_lt, a.ma.isLt, a.dist.isLt, i.isLt, b01_lt _, b.isLt, by decide, trivial⟩ rfl fun h => by
    simp only [List.map_cons, List.map_nil] at h
    simp [decVM, h, rsv, val, hw, hd, ho, hb]

theorem encVMS_reads (dist ord : Bool) (f : VM → XReg → BitVec 20 → Bool → Instr) (a : VM) (b : XReg) (i : BitVec 20) (o : Bool)
    (hw : a.ty.vecMem = true) (hd : dist = true ∨ a.dist = 0) (ho : ord = true ∨ o = false) :
    ReadsBack 8 (encVMS a b i o) (decVMS dist ord f) (f a b i o) :=
  .of_fits (fs := [(11, a.vop.code), (5, a.xa.val), (2, a.sp.code), (4, a.ty.code), (3, a.ma.val), (12, a.dist.val), (5, b.val), (20, i.toNat),
      (1, b01 o), (1, 0)])
    ⟨a.vop.code_lt, a.xa.isLt, a.sp.code_lt, a.ty.code_lt, a.ma.isLt, a.dist.isLt, b.isLt, i.isLt, b01_lt _, by decide, trivial⟩ rfl fun h => by
    simp only [List.map_cons, List.map_nil] at h
    simp [decVMS, h, rsv, val, hw, hd, ho]

theorem encVMX_reads (dist ord : Bool) (f : VM → VX → Bool → Instr) (a : VM) (i : VX) (o : Bool) (hw : a.ty.vecMem = true)
    (hd : dist = true ∨ a.dist = 0) (ho : ord = true ∨ o = false) : ReadsBack 8 (encVMX a i o) (decVMX dist ord f) (f a i o) :=
  .of_fits (fs := [(11, a.vop.code), (5, a.xa.val), (2, a.sp.code), (4, a.ty.code), (3, a.ma.val), (12, a.dist.val), (11, i.vx.code), (1, b01 i.iw),
      (1, b01 i.sg), (3, i.sc.val), (1, b01 o), (10, 0)])
    ⟨a.vop.code_lt, a.xa.isLt, a.sp.code_lt, a.ty.code_lt, a.ma.isLt, a.dist.isLt, i.vx.code_lt, b01_lt _, b01_lt _, i.sc.isLt, b01_lt _, by decide,
      trivial⟩ rfl fun h => by
    simp only [List.map_cons, List.map_nil] at h
    simp [decVMX, h, rsv, val, hw, hd, ho]

theorem encMW_reads (qs : Bool) (f : Window → QReg → QReg → Instr) (w : Window) (qa qb : QReg) (hw : w.wf = true) (hq : qs = true ∨ qa = 0 ∧ qb = 0) :
    ReadsBack 4 (encMW w qa.val qb.val) (decMW qs f) (f w qa qb) :=
  .of_fits (fs := [(1, b01 w.half), (2, w.row0.val), (2, w.col0.val), (2, w.rs.val), (2, w.cs.val), (3, qa.val), (3, qb.val), (17, 0)])
    ⟨b01_lt _, w.row0.isLt, w.col0.isLt, Nat.lt_of_lt_of_le w.rs.isLt (Nat.le_of_ble_eq_true rfl), Nat.lt_of_lt_of_le w.cs.isLt (Nat.le_of_ble_eq_true rfl), qa.isLt, qb.isLt, by decide,
      trivial⟩ rfl fun h => by
    simp only [List.map_cons, List.map_nil] at h
    rcases w with ⟨hf, r0, c0, rs, cs⟩
    simp [decMW, h, rsv, val, hw, hq, show ¬rs.val = 3 by omega, show ¬cs.val = 3 by omega]

theorem encSPN_reads (f g : XReg → Option (Fin 4) → Instr) (a : XReg) (c : Option (Fin 4)) (r : Bool) :
    ReadsBack 4 (encSPN a c r) (decSPN f g) (if r then g a c else f a c) := by
  cases c with
  | none =>
    refine .of_fits (fs := [(5, a.val), (2, 0), (1, b01 false), (1, b01 r), (23, 0)]) ⟨a.isLt, by decide, by decide, b01_lt _, by decide, trivial⟩ rfl fun h => ?_
    simp only [List.map_cons, List.map_nil] at h
    cases r <;> simp_all [decSPN, rsv, b01]
  | some k =>
    refine .of_fits (fs := [(5, a.val), (2, k.val), (1, b01 true), (1, b01 r), (23, 0)]) ⟨a.isLt, k.isLt, by decide, b01_lt _, by decide, trivial⟩ rfl fun h => ?_
    simp only [List.map_cons, List.map_nil] at h
    cases r <;> simp_all [decSPN, rsv, b01]

theorem encTXW_reads (f g : XReg → Instr) (d : XReg) (b : Bool) : ReadsBack 4 (encTXW d (b01 b)) (decTXW f g) (if b then g d else f d) :=
  .of_fits (fs := [(5, d.val), (2, b01 b), (25, 0)]) ⟨d.isLt, Nat.lt_of_lt_of_le (b01_lt b) (Nat.le_of_ble_eq_true rfl), by decide, trivial⟩ rfl fun h => by
    simp only [List.map_cons, List.map_nil] at h
    cases b <;> simp_all [decTXW, rsv, b01]

theorem encSR_fits (d : XReg) (r : SysReg) : Fits [(5, d.val), (10, r.index), (17, 0)] := ⟨d.isLt, r.index_lt, by decide, trivial⟩

theorem encSR_readsMFS (f : XReg → SysReg → Instr) (d : XReg) (r : SysReg) : ReadsBack 4 (encSR d r) (decMFS f) (f d r) :=
  .of_fits (encSR_fits d r) rfl fun h => by
    simp only [List.map_cons, List.map_nil] at h
    simp [decMFS, h, rsv]

theorem encSR_readsMTS (f : SysReg → XReg → Instr) (g : XReg → Instr) (a : XReg) (r : SysReg) (hw : r.writable = true) :
    ReadsBack 4 (encSR a r) (decMTS f g) (f r a) :=
  .of_fits (encSR_fits a r) rfl fun h => by
    simp only [List.map_cons, List.map_nil] at h
    have e : ¬r = .gmode := by rintro rfl; cases hw
    simp [decMTS, h, rsv, val, hw, e]

theorem encSR_readsGmode (f : SysReg → XReg → Instr) (g : XReg → Instr) (a : XReg) : ReadsBack 4 (encSR a .gmode) (decMTS f g) (g a) :=
  .of_fits (encSR_fits a .gmode) rfl fun h => by
    simp only [List.map_cons, List.map_nil] at h
    simp [decMTS, h, rsv]

theorem encIC_reads (f : XReg → XReg → Instr) (g : Instr) (a b : XReg) : ReadsBack 8 (encIC a.val b.val false) (decIC f g) (f a b) :=
  .of_fits (fs := [(5, a.val), (5, b.val), (1, b01 false), (53, 0)]) ⟨a.isLt, b.isLt, by decide, by decide, trivial⟩ rfl fun h => by
    simp only [List.map_cons, List.map_nil] at h
    simp_all [decIC, rsv, b01]

theorem encIC_readsAll (f : XReg → XReg → Instr) (g : Instr) : ReadsBack 8 (encIC 0 0 true) (decIC f g) g := ⟨by decide, rfl⟩

theorem toNat_readsTB (f : BitVec 16 → Instr) (c : BitVec 16) : ReadsBack 2 c.toNat (decTB f) (f c) := ⟨c.isLt, by simp [decTB]⟩

theorem dec0_reads (i : Instr) : ReadsBack 0 0 (dec0 i) i := ⟨by decide, rfl⟩

/-! ### Heads (R28) -/

theorem headWord_fits (h : Head) (op t : Nat) (ho : op < 512) (ht : t < 4) : Fits [(2, t), (9, op), (4, h.g.val), (1, b01 h.e)] :=
  ⟨ht, ho, h.g.isLt, b01_lt _, trivial⟩

theorem headWord_lt (h : Head) (op t : Nat) (ho : op < 512) (ht : t < 4) : headWord h op t < 2 ^ 16 := pack_lt (headWord_fits h op t ho ht)

/-- The parts of a head are read as they were written. -/
theorem headWord_parts (h : Head) (op t : Nat) (ho : op < 512) (ht : t < 4) :
    headT (headWord h op t) = t ∧ headOp (headWord h op t) = op ∧ headOf (headWord h op t) = h := by
  have hb := b01_lt h.e
  have hg := h.g.isLt
  have e1 : headWord h op t = t + 4 * (op + 512 * (h.g.val + 16 * b01 h.e)) := by simp [headWord, pack]
  have e2 : headWord h op t / 4 = op + 512 * (h.g.val + 16 * b01 h.e) := by omega
  have e3 : headWord h op t / 2048 = h.g.val + 16 * b01 h.e := by omega
  have e4 : headWord h op t / 32768 = b01 h.e := by omega
  refine ⟨by unfold headT; omega, by unfold headOp; omega, ?_⟩
  have e5 : pr (headWord h op t / 2048) = h.g := by
    rw [e3]; apply Fin.ext; show (h.g.val + 16 * b01 h.e) % 16 = h.g.val; omega
  have e6 : bit1 (headWord h op t / 32768 % 2) = h.e := by
    rw [e4, show b01 h.e % 2 = b01 h.e by omega, bit1_b01]
  simp [headOf, e5, e6]

/-- What the opcode map reads from the parts of an operation. -/
def readAs (h : Head) (op t tail : Nat) : Dec :=
  match findRow (rowsFor h op) op with
  | some r => if r.t = t then r.dec tail else .error .tailLength
  | none => if op = 0 then .error .unassigned else .ok (.unassignedOpcode h (BitVec.ofNat 9 op) (f4 t))

theorem decodeOp_headWord (h : Head) (op t tail : Nat) (ho : op < 512) (ht : t < 4) : decodeOp (headWord h op t) tail = readAs h op t tail := by
  obtain ⟨e1, e2, e3⟩ := headWord_parts h op t ho ht
  simp only [decodeOp, readAs, e1, e2, e3] <;> rfl

/-- A row reads what its layout reads. -/
theorem readAs_row {h : Head} {op t tail n : Nat} {d : Nat → Dec} {i : Instr} (hr : findRow (rowsFor h op) op = some ⟨op, t, d⟩) (hd : ReadsBack n tail d i)
    (hn : tailLen t = n) : tail < 2 ^ (8 * tailLen t) ∧ readAs h op t tail = .ok i := by
  subst hn
  exact ⟨hd.1, by simp [readAs, hr, hd.2]⟩

/-- The map has a row for exactly the assigned opcodes (R48). -/
theorem findRow_assigned (h : Head) (op : BitVec 9) : (findRow (rowsFor h op.toNat) op.toNat).isSome = assigned op.toNat := by
  have key : ∀ rs : List OpRow, ∀ n, (findRow rs n).isSome = (rs.map OpRow.op).contains n := by
    intro rs n
    induction rs with
    | nil => rfl
    | cons r rs ih =>
      simp only [findRow, List.map_cons, List.contains_cons]
      by_cases e : r.op = n
      · simp [e]
      · simp [e, ih, Ne.symm e]
  have same : (rowsFor h op.toNat).map OpRow.op = (rowsFor ⟨false, 0⟩ op.toNat).map OpRow.op := by
    unfold rowsFor
    split
    · rfl
    split
    · rfl
    split
    · rfl
    split
    · rfl
    split
    · rfl
    split <;> rfl
  rw [key, same]
  have all : ∀ n < 512, ((rowsFor ⟨false, 0⟩ n).map OpRow.op).contains n = assigned n := by decide +kernel
  exact all _ op.isLt

end Sys2Proof
end

