-- ==== Sys2Proof/Laws/Dispatch.lean ====
section
/-! SUPPORT. The meaning that each row of the opcode table is given, one equation for each constructor of `Instr`. -/

namespace Sys2Proof.Machine

@[simp] theorem exec_add (h : Head) (xd : XReg) (xa : XReg) (xb : XReg) (s : State) : exec (.add h xd xa xb) s = Sys2Proof.Machine.execAdd h xd xa xb s := rfl
@[simp] theorem exec_sub (h : Head) (xd : XReg) (xa : XReg) (xb : XReg) (s : State) : exec (.sub h xd xa xb) s = Sys2Proof.Machine.execSub h xd xa xb s := rfl
@[simp] theorem exec_mul (h : Head) (xd : XReg) (xa : XReg) (xb : XReg) (s : State) : exec (.mul h xd xa xb) s = Sys2Proof.Machine.execMul h xd xa xb s := rfl
@[simp] theorem exec_mulh (h : Head) (xd : XReg) (xa : XReg) (xb : XReg) (s : State) : exec (.mulh h xd xa xb) s = Sys2Proof.Machine.execMulh h xd xa xb s := rfl
@[simp] theorem exec_and (h : Head) (xd : XReg) (xa : XReg) (xb : XReg) (s : State) : exec (.and h xd xa xb) s = Sys2Proof.Machine.execAnd h xd xa xb s := rfl
@[simp] theorem exec_or (h : Head) (xd : XReg) (xa : XReg) (xb : XReg) (s : State) : exec (.or h xd xa xb) s = Sys2Proof.Machine.execOr h xd xa xb s := rfl
@[simp] theorem exec_xor (h : Head) (xd : XReg) (xa : XReg) (xb : XReg) (s : State) : exec (.xor h xd xa xb) s = Sys2Proof.Machine.execXor h xd xa xb s := rfl
@[simp] theorem exec_sll (h : Head) (xd : XReg) (xa : XReg) (xb : XReg) (s : State) : exec (.sll h xd xa xb) s = Sys2Proof.Machine.execSll h xd xa xb s := rfl
@[simp] theorem exec_srl (h : Head) (xd : XReg) (xa : XReg) (xb : XReg) (s : State) : exec (.srl h xd xa xb) s = Sys2Proof.Machine.execSrl h xd xa xb s := rfl
@[simp] theorem exec_sra (h : Head) (xd : XReg) (xa : XReg) (xb : XReg) (s : State) : exec (.sra h xd xa xb) s = Sys2Proof.Machine.execSra h xd xa xb s := rfl
@[simp] theorem exec_min (h : Head) (xd : XReg) (xa : XReg) (xb : XReg) (s : State) : exec (.min h xd xa xb) s = Sys2Proof.Machine.execMin h xd xa xb s := rfl
@[simp] theorem exec_max (h : Head) (xd : XReg) (xa : XReg) (xb : XReg) (s : State) : exec (.max h xd xa xb) s = Sys2Proof.Machine.execMax h xd xa xb s := rfl
@[simp] theorem exec_minu (h : Head) (xd : XReg) (xa : XReg) (xb : XReg) (s : State) : exec (.minu h xd xa xb) s = Sys2Proof.Machine.execMinu h xd xa xb s := rfl
@[simp] theorem exec_maxu (h : Head) (xd : XReg) (xa : XReg) (xb : XReg) (s : State) : exec (.maxu h xd xa xb) s = Sys2Proof.Machine.execMaxu h xd xa xb s := rfl
@[simp] theorem exec_addi (h : Head) (xd : XReg) (xa : XReg) (imm : BitVec 22) (s : State) : exec (.addi h xd xa imm) s = Sys2Proof.Machine.execAddi h xd xa imm s := rfl
@[simp] theorem exec_andi (h : Head) (xd : XReg) (xa : XReg) (imm : BitVec 22) (s : State) : exec (.andi h xd xa imm) s = Sys2Proof.Machine.execAndi h xd xa imm s := rfl
@[simp] theorem exec_ori (h : Head) (xd : XReg) (xa : XReg) (imm : BitVec 22) (s : State) : exec (.ori h xd xa imm) s = Sys2Proof.Machine.execOri h xd xa imm s := rfl
@[simp] theorem exec_xori (h : Head) (xd : XReg) (xa : XReg) (imm : BitVec 22) (s : State) : exec (.xori h xd xa imm) s = Sys2Proof.Machine.execXori h xd xa imm s := rfl
@[simp] theorem exec_slli (h : Head) (xd : XReg) (xa : XReg) (sh : Fin 64) (s : State) : exec (.slli h xd xa sh) s = Sys2Proof.Machine.execSlli h xd xa sh s := rfl
@[simp] theorem exec_srli (h : Head) (xd : XReg) (xa : XReg) (sh : Fin 64) (s : State) : exec (.srli h xd xa sh) s = Sys2Proof.Machine.execSrli h xd xa sh s := rfl
@[simp] theorem exec_srai (h : Head) (xd : XReg) (xa : XReg) (sh : Fin 64) (s : State) : exec (.srai h xd xa sh) s = Sys2Proof.Machine.execSrai h xd xa sh s := rfl
@[simp] theorem exec_clz (h : Head) (xd : XReg) (xa : XReg) (s : State) : exec (.clz h xd xa) s = Sys2Proof.Machine.execClz h xd xa s := rfl
@[simp] theorem exec_popc (h : Head) (xd : XReg) (xa : XReg) (s : State) : exec (.popc h xd xa) s = Sys2Proof.Machine.execPopc h xd xa s := rfl
@[simp] theorem exec_movi (h : Head) (xd : XReg) (imm : BitVec 59) (s : State) : exec (.movi h xd imm) s = Sys2Proof.Machine.execMovi h xd imm s := rfl
@[simp] theorem exec_movt (h : Head) (xd : XReg) (xa : XReg) (imm : BitVec 16) (k : Fin 4) (s : State) : exec (.movt h xd xa imm k) s = Sys2Proof.Machine.execMovt h xd xa imm k s := rfl
@[simp] theorem exec_sel (h : Head) (xd : XReg) (pa : PReg) (xa : XReg) (xb : XReg) (s : State) : exec (.sel h xd pa xa xb) s = Sys2Proof.Machine.execSel h xd pa xa xb s := rfl
@[simp] theorem exec_cmpeq (h : Head) (pd : PReg) (pc : PReg) (xa : XReg) (xb : XReg) (s : State) : exec (.cmpeq h pd pc xa xb) s = Sys2Proof.Machine.execCmpeq h pd pc xa xb s := rfl
@[simp] theorem exec_cmpne (h : Head) (pd : PReg) (pc : PReg) (xa : XReg) (xb : XReg) (s : State) : exec (.cmpne h pd pc xa xb) s = Sys2Proof.Machine.execCmpne h pd pc xa xb s := rfl
@[simp] theorem exec_cmplt (h : Head) (pd : PReg) (pc : PReg) (xa : XReg) (xb : XReg) (s : State) : exec (.cmplt h pd pc xa xb) s = Sys2Proof.Machine.execCmplt h pd pc xa xb s := rfl
@[simp] theorem exec_cmpltu (h : Head) (pd : PReg) (pc : PReg) (xa : XReg) (xb : XReg) (s : State) : exec (.cmpltu h pd pc xa xb) s = Sys2Proof.Machine.execCmpltu h pd pc xa xb s := rfl
@[simp] theorem exec_cmpge (h : Head) (pd : PReg) (pc : PReg) (xa : XReg) (xb : XReg) (s : State) : exec (.cmpge h pd pc xa xb) s = Sys2Proof.Machine.execCmpge h pd pc xa xb s := rfl
@[simp] theorem exec_cmpgeu (h : Head) (pd : PReg) (pc : PReg) (xa : XReg) (xb : XReg) (s : State) : exec (.cmpgeu h pd pc xa xb) s = Sys2Proof.Machine.execCmpgeu h pd pc xa xb s := rfl
@[simp] theorem exec_cmpeqi (h : Head) (pd : PReg) (pc : PReg) (xa : XReg) (imm : BitVec 14) (s : State) : exec (.cmpeqi h pd pc xa imm) s = Sys2Proof.Machine.execCmpeqi h pd pc xa imm s := rfl
@[simp] theorem exec_cmplti (h : Head) (pd : PReg) (pc : PReg) (xa : XReg) (imm : BitVec 14) (s : State) : exec (.cmplti h pd pc xa imm) s = Sys2Proof.Machine.execCmplti h pd pc xa imm s := rfl
@[simp] theorem exec_pand (h : Head) (pd : PReg) (pa : PReg) (pb : PReg) (s : State) : exec (.pand h pd pa pb) s = Sys2Proof.Machine.execPand h pd pa pb s := rfl
@[simp] theorem exec_por (h : Head) (pd : PReg) (pa : PReg) (pb : PReg) (s : State) : exec (.por h pd pa pb) s = Sys2Proof.Machine.execPor h pd pa pb s := rfl
@[simp] theorem exec_pxor (h : Head) (pd : PReg) (pa : PReg) (pb : PReg) (s : State) : exec (.pxor h pd pa pb) s = Sys2Proof.Machine.execPxor h pd pa pb s := rfl
@[simp] theorem exec_pnot (h : Head) (pd : PReg) (pa : PReg) (s : State) : exec (.pnot h pd pa) s = Sys2Proof.Machine.execPnot h pd pa s := rfl
@[simp] theorem exec_pget (h : Head) (xd : XReg) (s : State) : exec (.pget h xd) s = Sys2Proof.Machine.execPget h xd s := rfl
@[simp] theorem exec_pput (h : Head) (xa : XReg) (s : State) : exec (.pput h xa) s = Sys2Proof.Machine.execPput h xa s := rfl
@[simp] theorem exec_fadd (h : Head) (xd : XReg) (xa : XReg) (xb : XReg) (s : State) : exec (.fadd h xd xa xb) s = Sys2Proof.Machine.execFadd h xd xa xb s := rfl
@[simp] theorem exec_fsub (h : Head) (xd : XReg) (xa : XReg) (xb : XReg) (s : State) : exec (.fsub h xd xa xb) s = Sys2Proof.Machine.execFsub h xd xa xb s := rfl
@[simp] theorem exec_fmul (h : Head) (xd : XReg) (xa : XReg) (xb : XReg) (s : State) : exec (.fmul h xd xa xb) s = Sys2Proof.Machine.execFmul h xd xa xb s := rfl
@[simp] theorem exec_fdiv (h : Head) (xd : XReg) (xa : XReg) (xb : XReg) (s : State) : exec (.fdiv h xd xa xb) s = Sys2Proof.Machine.execFdiv h xd xa xb s := rfl
@[simp] theorem exec_fsqrt (h : Head) (xd : XReg) (xa : XReg) (s : State) : exec (.fsqrt h xd xa) s = Sys2Proof.Machine.execFsqrt h xd xa s := rfl
@[simp] theorem exec_fma (h : Head) (xd : XReg) (xa : XReg) (xb : XReg) (xc : XReg) (s : State) : exec (.fma h xd xa xb xc) s = Sys2Proof.Machine.execFma h xd xa xb xc s := rfl
@[simp] theorem exec_fmin (h : Head) (xd : XReg) (xa : XReg) (xb : XReg) (s : State) : exec (.fmin h xd xa xb) s = Sys2Proof.Machine.execFmin h xd xa xb s := rfl
@[simp] theorem exec_fmax (h : Head) (xd : XReg) (xa : XReg) (xb : XReg) (s : State) : exec (.fmax h xd xa xb) s = Sys2Proof.Machine.execFmax h xd xa xb s := rfl
@[simp] theorem exec_fcmpeq (h : Head) (pd : PReg) (pc : PReg) (xa : XReg) (xb : XReg) (s : State) : exec (.fcmpeq h pd pc xa xb) s = Sys2Proof.Machine.execFcmpeq h pd pc xa xb s := rfl
@[simp] theorem exec_fcmplt (h : Head) (pd : PReg) (pc : PReg) (xa : XReg) (xb : XReg) (s : State) : exec (.fcmplt h pd pc xa xb) s = Sys2Proof.Machine.execFcmplt h pd pc xa xb s := rfl
@[simp] theorem exec_fcmple (h : Head) (pd : PReg) (pc : PReg) (xa : XReg) (xb : XReg) (s : State) : exec (.fcmple h pd pc xa xb) s = Sys2Proof.Machine.execFcmple h pd pc xa xb s := rfl
@[simp] theorem exec_fcvt (h : Head) (xd : XReg) (xa : XReg) (ty : Ty) (wid : Bool) (s : State) : exec (.fcvt h xd xa ty wid) s = Sys2Proof.Machine.execFcvt h xd xa ty wid s := rfl
@[simp] theorem exec_fcvti (h : Head) (xd : XReg) (xa : XReg) (ty : Ty) (tz : Bool) (s : State) : exec (.fcvti h xd xa ty tz) s = Sys2Proof.Machine.execFcvti h xd xa ty tz s := rfl
@[simp] theorem exec_icvtf (h : Head) (xd : XReg) (xa : XReg) (ty : Ty) (s : State) : exec (.icvtf h xd xa ty) s = Sys2Proof.Machine.execIcvtf h xd xa ty s := rfl
@[simp] theorem exec_br (h : Head) (disp : BitVec 27) (hidx : Fin 32) (s : State) : exec (.br h disp hidx) s = Sys2Proof.Machine.execBr h disp hidx s := rfl
@[simp] theorem exec_call (h : Head) (disp : BitVec 27) (hidx : Fin 32) (s : State) : exec (.call h disp hidx) s = Sys2Proof.Machine.execCall h disp hidx s := rfl
@[simp] theorem exec_callr (h : Head) (xa : XReg) (s : State) : exec (.callr h xa) s = Sys2Proof.Machine.execCallr h xa s := rfl
@[simp] theorem exec_ret (h : Head) (s : State) : exec (.ret h) s = Sys2Proof.Machine.execRet h s := rfl
@[simp] theorem exec_jr (h : Head) (xa : XReg) (s : State) : exec (.jr h xa) s = Sys2Proof.Machine.execJr h xa s := rfl
@[simp] theorem exec_loop (h : Head) (xa : XReg) (disp : BitVec 22) (hidx : Fin 32) (s : State) : exec (.loop h xa disp hidx) s = Sys2Proof.Machine.execLoop h xa disp hidx s := rfl
@[simp] theorem exec_nop (h : Head) (s : State) : exec (.nop h) s = Sys2Proof.Machine.execNop h s := rfl
@[simp] theorem exec_ld (h : Head) (xd : XReg) (xa : XReg) (disp : BitVec 24) (sp : Space) (ty : Ty) (dist : Fin 4096) (s : State) : exec (.ld h xd xa disp sp ty dist) s = Sys2Proof.Machine.execLd h xd xa disp sp ty dist s := rfl
@[simp] theorem exec_st (h : Head) (xc : XReg) (xa : XReg) (disp : BitVec 24) (sp : Space) (ty : Ty) (s : State) : exec (.st h xc xa disp sp ty) s = Sys2Proof.Machine.execSt h xc xa disp sp ty s := rfl
@[simp] theorem exec_ldx (h : Head) (xd : XReg) (xa : XReg) (xb : XReg) (ss : Fin 4) (sp : Space) (ty : Ty) (dist : Fin 4096) (s : State) : exec (.ldx h xd xa xb ss sp ty dist) s = Sys2Proof.Machine.execLdx h xd xa xb ss sp ty dist s := rfl
@[simp] theorem exec_stx (h : Head) (xc : XReg) (xa : XReg) (xb : XReg) (ss : Fin 4) (sp : Space) (ty : Ty) (s : State) : exec (.stx h xc xa xb ss sp ty) s = Sys2Proof.Machine.execStx h xc xa xb ss sp ty s := rfl
@[simp] theorem exec_pref (h : Head) (xa : XReg) (disp : BitVec 24) (sp : Space) (s : State) : exec (.pref h xa disp sp) s = Sys2Proof.Machine.execPref h xa disp sp s := rfl
@[simp] theorem exec_div (h : Head) (xd : XReg) (xa : XReg) (xb : XReg) (dist : Fin 4096) (s : State) : exec (.div h xd xa xb dist) s = Sys2Proof.Machine.execDiv h xd xa xb dist s := rfl
@[simp] theorem exec_divu (h : Head) (xd : XReg) (xa : XReg) (xb : XReg) (dist : Fin 4096) (s : State) : exec (.divu h xd xa xb dist) s = Sys2Proof.Machine.execDivu h xd xa xb dist s := rfl
@[simp] theorem exec_rem (h : Head) (xd : XReg) (xa : XReg) (xb : XReg) (dist : Fin 4096) (s : State) : exec (.rem h xd xa xb dist) s = Sys2Proof.Machine.execRem h xd xa xb dist s := rfl
@[simp] theorem exec_remu (h : Head) (xd : XReg) (xa : XReg) (xb : XReg) (dist : Fin 4096) (s : State) : exec (.remu h xd xa xb dist) s = Sys2Proof.Machine.execRemu h xd xa xb dist s := rfl
@[simp] theorem exec_fence (h : Head) (k : FenceKinds) (sc : Scope) (s : State) : exec (.fence h k sc) s = Sys2Proof.Machine.execFence h k sc s := rfl
@[simp] theorem exec_ldaq (h : Head) (xd : XReg) (xa : XReg) (disp : BitVec 24) (sp : Space) (ty : Ty) (dist : Fin 4096) (sc : Scope) (s : State) : exec (.ldaq h xd xa disp sp ty dist sc) s = Sys2Proof.Machine.execLdaq h xd xa disp sp ty dist sc s := rfl
@[simp] theorem exec_strl (h : Head) (xc : XReg) (xa : XReg) (disp : BitVec 24) (sp : Space) (ty : Ty) (sc : Scope) (s : State) : exec (.strl h xc xa disp sp ty sc) s = Sys2Proof.Machine.execStrl h xc xa disp sp ty sc s := rfl
@[simp] theorem exec_amoswp (h : Head) (a : Amo) (s : State) : exec (.amoswp h a) s = Sys2Proof.Machine.execAmoswp h a s := rfl
@[simp] theorem exec_amoadd (h : Head) (a : Amo) (s : State) : exec (.amoadd h a) s = Sys2Proof.Machine.execAmoadd h a s := rfl
@[simp] theorem exec_amoand (h : Head) (a : Amo) (s : State) : exec (.amoand h a) s = Sys2Proof.Machine.execAmoand h a s := rfl
@[simp] theorem exec_amoor (h : Head) (a : Amo) (s : State) : exec (.amoor h a) s = Sys2Proof.Machine.execAmoor h a s := rfl
@[simp] theorem exec_amoxor (h : Head) (a : Amo) (s : State) : exec (.amoxor h a) s = Sys2Proof.Machine.execAmoxor h a s := rfl
@[simp] theorem exec_amomin (h : Head) (a : Amo) (s : State) : exec (.amomin h a) s = Sys2Proof.Machine.execAmomin h a s := rfl
@[simp] theorem exec_amomax (h : Head) (a : Amo) (s : State) : exec (.amomax h a) s = Sys2Proof.Machine.execAmomax h a s := rfl
@[simp] theorem exec_amocas (h : Head) (a : Amo) (s : State) : exec (.amocas h a) s = Sys2Proof.Machine.execAmocas h a s := rfl
@[simp] theorem exec_amofadd (h : Head) (a : Amo) (s : State) : exec (.amofadd h a) s = Sys2Proof.Machine.execAmofadd h a s := rfl
@[simp] theorem exec_vamoAdd (h : Head) (a : Vamo) (s : State) : exec (.vamoAdd h a) s = Sys2Proof.Machine.execVamoAdd h a s := rfl
@[simp] theorem exec_vamoAnd (h : Head) (a : Vamo) (s : State) : exec (.vamoAnd h a) s = Sys2Proof.Machine.execVamoAnd h a s := rfl
@[simp] theorem exec_vamoOr (h : Head) (a : Vamo) (s : State) : exec (.vamoOr h a) s = Sys2Proof.Machine.execVamoOr h a s := rfl
@[simp] theorem exec_vamoXor (h : Head) (a : Vamo) (s : State) : exec (.vamoXor h a) s = Sys2Proof.Machine.execVamoXor h a s := rfl
@[simp] theorem exec_vamoMin (h : Head) (a : Vamo) (s : State) : exec (.vamoMin h a) s = Sys2Proof.Machine.execVamoMin h a s := rfl
@[simp] theorem exec_vamoMax (h : Head) (a : Vamo) (s : State) : exec (.vamoMax h a) s = Sys2Proof.Machine.execVamoMax h a s := rfl
@[simp] theorem exec_vamoFadd (h : Head) (a : Vamo) (s : State) : exec (.vamoFadd h a) s = Sys2Proof.Machine.execVamoFadd h a s := rfl
@[simp] theorem exec_append (h : Head) (xd : XReg) (xa : XReg) (vb : VOp) (ma : MReg) (sp : Space) (dist : Fin 4096) (s : State) : exec (.append h xd xa vb ma sp dist) s = Sys2Proof.Machine.execAppend h xd xa vb ma sp dist s := rfl
@[simp] theorem exec_qst (h : Head) (vop : VOp) (q : QReg) (w8 : Bool) (ae : BitVec 4) (fb : Fin 4) (nb : Fin 4) (s : State) : exec (.qst h vop q w8 ae fb nb) s = Sys2Proof.Machine.execQst h vop q w8 ae fb nb s := rfl
@[simp] theorem exec_bdec (h : Head) (vop : VOp) (xa : XReg) (disp : BitVec 20) (sp : Space) (w8 : Bool) (fb : Fin 4) (nb : Fin 4) (dist : Fin 4096) (s : State) : exec (.bdec h vop xa disp sp w8 fb nb dist) s = Sys2Proof.Machine.execBdec h vop xa disp sp w8 fb nb dist s := rfl
@[simp] theorem exec_bhdr (h : Head) (xd : XReg) (xa : XReg) (sp : Space) (wd : Fin 3) (dist : Fin 4096) (s : State) : exec (.bhdr h xd xa sp wd dist) s = Sys2Proof.Machine.execBhdr h xd xa sp wd dist s := rfl
@[simp] theorem exec_cvt (h : Head) (vd : VOp) (va : VOp) (ma : MReg) (f : CFmt) (s : State) : exec (.cvt h vd va ma f) s = Sys2Proof.Machine.execCvt h vd va ma f s := rfl
@[simp] theorem exec_vadd (h : Head) (a : VV) (s : State) : exec (.vadd h a) s = Sys2Proof.Machine.execVadd h a s := rfl
@[simp] theorem exec_vsub (h : Head) (a : VV) (s : State) : exec (.vsub h a) s = Sys2Proof.Machine.execVsub h a s := rfl
@[simp] theorem exec_vmul (h : Head) (a : VV) (s : State) : exec (.vmul h a) s = Sys2Proof.Machine.execVmul h a s := rfl
@[simp] theorem exec_vfma (h : Head) (a : VV) (vc : VOp) (s : State) : exec (.vfma h a vc) s = Sys2Proof.Machine.execVfma h a vc s := rfl
@[simp] theorem exec_vmin (h : Head) (a : VV) (s : State) : exec (.vmin h a) s = Sys2Proof.Machine.execVmin h a s := rfl
@[simp] theorem exec_vmax (h : Head) (a : VV) (s : State) : exec (.vmax h a) s = Sys2Proof.Machine.execVmax h a s := rfl
@[simp] theorem exec_vadds (h : Head) (a : VV) (s : State) : exec (.vadds h a) s = Sys2Proof.Machine.execVadds h a s := rfl
@[simp] theorem exec_vand (h : Head) (a : VV) (s : State) : exec (.vand h a) s = Sys2Proof.Machine.execVand h a s := rfl
@[simp] theorem exec_vor (h : Head) (a : VV) (s : State) : exec (.vor h a) s = Sys2Proof.Machine.execVor h a s := rfl
@[simp] theorem exec_vxor (h : Head) (a : VV) (s : State) : exec (.vxor h a) s = Sys2Proof.Machine.execVxor h a s := rfl
@[simp] theorem exec_vshl (h : Head) (a : VV) (s : State) : exec (.vshl h a) s = Sys2Proof.Machine.execVshl h a s := rfl
@[simp] theorem exec_vshr (h : Head) (a : VV) (s : State) : exec (.vshr h a) s = Sys2Proof.Machine.execVshr h a s := rfl
@[simp] theorem exec_vrshr (h : Head) (a : VV) (n16 : Bool) (s : State) : exec (.vrshr h a n16) s = Sys2Proof.Machine.execVrshr h a n16 s := rfl
@[simp] theorem exec_vdot2 (h : Head) (a : VV) (s : State) : exec (.vdot2 h a) s = Sys2Proof.Machine.execVdot2 h a s := rfl
@[simp] theorem exec_vadd2 (h : Head) (a : VV) (sat : Bool) (s : State) : exec (.vadd2 h a sat) s = Sys2Proof.Machine.execVadd2 h a sat s := rfl
@[simp] theorem exec_vrq (h : Head) (a : VV) (s : State) : exec (.vrq h a) s = Sys2Proof.Machine.execVrq h a s := rfl
@[simp] theorem exec_vabs (h : Head) (a : VU) (s : State) : exec (.vabs h a) s = Sys2Proof.Machine.execVabs h a s := rfl
@[simp] theorem exec_vsqrt (h : Head) (a : VU) (s : State) : exec (.vsqrt h a) s = Sys2Proof.Machine.execVsqrt h a s := rfl
@[simp] theorem exec_vexp (h : Head) (a : VU) (s : State) : exec (.vexp h a) s = Sys2Proof.Machine.execVexp h a s := rfl
@[simp] theorem exec_vrsq (h : Head) (a : VU) (s : State) : exec (.vrsq h a) s = Sys2Proof.Machine.execVrsq h a s := rfl
@[simp] theorem exec_vrcp (h : Head) (a : VU) (s : State) : exec (.vrcp h a) s = Sys2Proof.Machine.execVrcp h a s := rfl
@[simp] theorem exec_vmov (h : Head) (a : VU) (s : State) : exec (.vmov h a) s = Sys2Proof.Machine.execVmov h a s := rfl
@[simp] theorem exec_vcvti (h : Head) (a : VU) (q : Bool) (s : State) : exec (.vcvti h a q) s = Sys2Proof.Machine.execVcvti h a q s := rfl
@[simp] theorem exec_vrsum (h : Head) (xd : XReg) (va : VOp) (ty : Ty) (ma : MReg) (s : State) : exec (.vrsum h xd va ty ma) s = Sys2Proof.Machine.execVrsum h xd va ty ma s := rfl
@[simp] theorem exec_vrmax (h : Head) (xd : XReg) (va : VOp) (ty : Ty) (ma : MReg) (s : State) : exec (.vrmax h xd va ty ma) s = Sys2Proof.Machine.execVrmax h xd va ty ma s := rfl
@[simp] theorem exec_vrmin (h : Head) (xd : XReg) (va : VOp) (ty : Ty) (ma : MReg) (s : State) : exec (.vrmin h xd va ty ma) s = Sys2Proof.Machine.execVrmin h xd va ty ma s := rfl
@[simp] theorem exec_vcmpeq (h : Head) (a : VCmp) (s : State) : exec (.vcmpeq h a) s = Sys2Proof.Machine.execVcmpeq h a s := rfl
@[simp] theorem exec_vcmplt (h : Head) (a : VCmp) (s : State) : exec (.vcmplt h a) s = Sys2Proof.Machine.execVcmplt h a s := rfl
@[simp] theorem exec_vcmple (h : Head) (a : VCmp) (s : State) : exec (.vcmple h a) s = Sys2Proof.Machine.execVcmple h a s := rfl
@[simp] theorem exec_vsel (h : Head) (a : VV) (s : State) : exec (.vsel h a) s = Sys2Proof.Machine.execVsel h a s := rfl
@[simp] theorem exec_mand (h : Head) (md : MReg) (ma : MReg) (mb : MReg) (s : State) : exec (.mand h md ma mb) s = Sys2Proof.Machine.execMand h md ma mb s := rfl
@[simp] theorem exec_mor (h : Head) (md : MReg) (ma : MReg) (mb : MReg) (s : State) : exec (.mor h md ma mb) s = Sys2Proof.Machine.execMor h md ma mb s := rfl
@[simp] theorem exec_mxor (h : Head) (md : MReg) (ma : MReg) (mb : MReg) (s : State) : exec (.mxor h md ma mb) s = Sys2Proof.Machine.execMxor h md ma mb s := rfl
@[simp] theorem exec_mnot (h : Head) (md : MReg) (ma : MReg) (s : State) : exec (.mnot h md ma) s = Sys2Proof.Machine.execMnot h md ma s := rfl
@[simp] theorem exec_mpop (h : Head) (xd : XReg) (ma : MReg) (s : State) : exec (.mpop h xd ma) s = Sys2Proof.Machine.execMpop h xd ma s := rfl
@[simp] theorem exec_msetn (h : Head) (md : MReg) (xa : XReg) (s : State) : exec (.msetn h md xa) s = Sys2Proof.Machine.execMsetn h md xa s := rfl
@[simp] theorem exec_vslideup (h : Head) (a : VV) (n : Fin 256) (s : State) : exec (.vslideup h a n) s = Sys2Proof.Machine.execVslideup h a n s := rfl
@[simp] theorem exec_vslidedn (h : Head) (a : VV) (n : Fin 256) (s : State) : exec (.vslidedn h a n) s = Sys2Proof.Machine.execVslidedn h a n s := rfl
@[simp] theorem exec_vperm (h : Head) (a : VV) (s : State) : exec (.vperm h a) s = Sys2Proof.Machine.execVperm h a s := rfl
@[simp] theorem exec_vbcast (h : Head) (vd : VOp) (xa : XReg) (ma : MReg) (s : State) : exec (.vbcast h vd xa ma) s = Sys2Proof.Machine.execVbcast h vd xa ma s := rfl
@[simp] theorem exec_vld (h : Head) (a : VM) (disp : BitVec 20) (s : State) : exec (.vld h a disp) s = Sys2Proof.Machine.execVld h a disp s := rfl
@[simp] theorem exec_vst (h : Head) (a : VM) (disp : BitVec 20) (ord : Bool) (s : State) : exec (.vst h a disp ord) s = Sys2Proof.Machine.execVst h a disp ord s := rfl
@[simp] theorem exec_vlds (h : Head) (a : VM) (xb : XReg) (disp : BitVec 20) (s : State) : exec (.vlds h a xb disp) s = Sys2Proof.Machine.execVlds h a xb disp s := rfl
@[simp] theorem exec_vsts (h : Head) (a : VM) (xb : XReg) (disp : BitVec 20) (ord : Bool) (s : State) : exec (.vsts h a xb disp ord) s = Sys2Proof.Machine.execVsts h a xb disp ord s := rfl
@[simp] theorem exec_vld6 (h : Head) (a : VM) (disp : BitVec 20) (bo : Fin 4) (s : State) : exec (.vld6 h a disp bo) s = Sys2Proof.Machine.execVld6 h a disp bo s := rfl
@[simp] theorem exec_vgath (h : Head) (a : VM) (idx : VX) (s : State) : exec (.vgath h a idx) s = Sys2Proof.Machine.execVgath h a idx s := rfl
@[simp] theorem exec_vscat (h : Head) (a : VM) (idx : VX) (ord : Bool) (s : State) : exec (.vscat h a idx ord) s = Sys2Proof.Machine.execVscat h a idx ord s := rfl
@[simp] theorem exec_shape (h : Head) (xd : XReg) (xa : XReg) (sp : Space) (s : State) : exec (.shape h xd xa sp) s = Sys2Proof.Machine.execShape h xd xa sp s := rfl
@[simp] theorem exec_sfree (h : Head) (xa : XReg) (s : State) : exec (.sfree h xa) s = Sys2Proof.Machine.execSfree h xa s := rfl
@[simp] theorem exec_stream (h : Head) (slot : Fin 4) (q : QReg) (xa : XReg) (xb : XReg) (sp : Space) (tile : Option XReg) (s : State) : exec (.stream h slot q xa xb sp tile) s = Sys2Proof.Machine.execStream h slot q xa xb sp tile s := rfl
@[simp] theorem exec_swait (h : Head) (xd : XReg) (slot : Fin 4) (s : State) : exec (.swait h xd slot) s = Sys2Proof.Machine.execSwait h xd slot s := rfl
@[simp] theorem exec_sstop (h : Head) (slot : Fin 4) (s : State) : exec (.sstop h slot) s = Sys2Proof.Machine.execSstop h slot s := rfl
@[simp] theorem exec_qcfg (h : Head) (q : QReg) (base : Fin 256) (sz : Fin 8) (es : Fin 32) (s : State) : exec (.qcfg h q base sz es) s = Sys2Proof.Machine.execQcfg h q base sz es s := rfl
@[simp] theorem exec_qpush (h : Head) (q : QReg) (vop : VOp) (f : CFmt) (s : State) : exec (.qpush h q vop f) s = Sys2Proof.Machine.execQpush h q vop f s := rfl
@[simp] theorem exec_qpop (h : Head) (row : RowOp) (q : QReg) (f : CFmt) (s : State) : exec (.qpop h row q f) s = Sys2Proof.Machine.execQpop h row q f s := rfl
@[simp] theorem exec_qcnt (h : Head) (xd : XReg) (q : QReg) (s : State) : exec (.qcnt h xd q) s = Sys2Proof.Machine.execQcnt h xd q s := rfl
@[simp] theorem exec_qfence (h : Head) (qm : BitVec 8) (s : State) : exec (.qfence h qm) s = Sys2Proof.Machine.execQfence h qm s := rfl
@[simp] theorem exec_copy (h : Head) (xa : XReg) (xb : XReg) (xc : XReg) (md : MReg) (ds : Space) (ss : Space) (tile : Option XReg) (fut : Option XReg) (s : State) : exec (.copy h xa xb xc md ds ss tile fut) s = Sys2Proof.Machine.execCopy h xa xb xc md ds ss tile fut s := rfl
@[simp] theorem exec_tset (h : Head) (pd : PReg) (pc : PReg) (xa : XReg) (xb : XReg) (frm : TileState) (dst : TileState) (s : State) : exec (.tset h pd pc xa xb frm dst) s = Sys2Proof.Machine.execTset h pd pc xa xb frm dst s := rfl
@[simp] theorem exec_tget (h : Head) (xd : XReg) (xa : XReg) (s : State) : exec (.tget h xd xa) s = Sys2Proof.Machine.execTget h xd xa s := rfl
@[simp] theorem exec_twait (h : Head) (xa : XReg) (st : TileState) (s : State) : exec (.twait h xa st) s = Sys2Proof.Machine.execTwait h xa st s := rfl
@[simp] theorem exec_opaBf (h : Head) (w : Window) (qa : QReg) (qb : QReg) (s : State) : exec (.opaBf h w qa qb) s = Sys2Proof.Machine.execOpaBf h w qa qb s := rfl
@[simp] theorem exec_opaH (h : Head) (w : Window) (qa : QReg) (qb : QReg) (s : State) : exec (.opaH h w qa qb) s = Sys2Proof.Machine.execOpaH h w qa qb s := rfl
@[simp] theorem exec_opaN6 (h : Head) (w : Window) (qa : QReg) (qb : QReg) (s : State) : exec (.opaN6 h w qa qb) s = Sys2Proof.Machine.execOpaN6 h w qa qb s := rfl
@[simp] theorem exec_stld (h : Head) (q : QReg) (f16 : Bool) (s : State) : exec (.stld h q f16) s = Sys2Proof.Machine.execStld h q f16 s := rfl
@[simp] theorem exec_vmt (h : Head) (row : RowOp) (q : QReg) (seg : Fin 4) (s : State) : exec (.vmt h row q seg) s = Sys2Proof.Machine.execVmt h row q seg s := rfl
@[simp] theorem exec_gzero (h : Head) (w : Window) (s : State) : exec (.gzero h w) s = Sys2Proof.Machine.execGzero h w s := rfl
@[simp] theorem exec_gwait (h : Head) (h0 : Bool) (h1 : Bool) (s : State) : exec (.gwait h h0 h1) s = Sys2Proof.Machine.execGwait h h0 h1 s := rfl
@[simp] theorem exec_spawn (h : Head) (xa : XReg) (cl : Option (Fin 4)) (s : State) : exec (.spawn h xa cl) s = Sys2Proof.Machine.execSpawn h xa cl s := rfl
@[simp] theorem exec_spawnRes (h : Head) (xa : XReg) (cl : Option (Fin 4)) (s : State) : exec (.spawnRes h xa cl) s = Sys2Proof.Machine.execSpawnRes h xa cl s := rfl
@[simp] theorem exec_suspend (h : Head) (xa : XReg) (s : State) : exec (.suspend h xa) s = Sys2Proof.Machine.execSuspend h xa s := rfl
@[simp] theorem exec_yield (h : Head) (s : State) : exec (.yield h) s = Sys2Proof.Machine.execYield h s := rfl
@[simp] theorem exec_exit (h : Head) (s : State) : exec (.exit h) s = Sys2Proof.Machine.execExit h s := rfl
@[simp] theorem exec_fwait (h : Head) (pd : PReg) (pc : PReg) (xa : XReg) (s : State) : exec (.fwait h pd pc xa) s = Sys2Proof.Machine.execFwait h pd pc xa s := rfl
@[simp] theorem exec_fres (h : Head) (xa : XReg) (xb : XReg) (s : State) : exec (.fres h xa xb) s = Sys2Proof.Machine.execFres h xa xb s := rfl
@[simp] theorem exec_ffail (h : Head) (xa : XReg) (xb : XReg) (s : State) : exec (.ffail h xa xb) s = Sys2Proof.Machine.execFfail h xa xb s := rfl
@[simp] theorem exec_finopen (h : Head) (xd : XReg) (xa : XReg) (s : State) : exec (.finopen h xd xa) s = Sys2Proof.Machine.execFinopen h xd xa s := rfl
@[simp] theorem exec_finend (h : Head) (xa : XReg) (s : State) : exec (.finend h xa) s = Sys2Proof.Machine.execFinend h xa s := rfl
@[simp] theorem exec_finwait (h : Head) (xa : XReg) (s : State) : exec (.finwait h xa) s = Sys2Proof.Machine.execFinwait h xa s := rfl
@[simp] theorem exec_farm (h : Head) (xa : XReg) (xb : XReg) (xc : XReg) (xe : XReg) (disp : BitVec 27) (hidx : Fin 32) (s : State) : exec (.farm h xa xb xc xe disp hidx) s = Sys2Proof.Machine.execFarm h xa xb xc xe disp hidx s := rfl
@[simp] theorem exec_setvl (h : Head) (xd : XReg) (pd : PReg) (pc : PReg) (xa : XReg) (s : State) : exec (.setvl h xd pd pc xa) s = Sys2Proof.Machine.execSetvl h xd pd pc xa s := rfl
@[simp] theorem exec_launch (h : Head) (xd : XReg) (xa : XReg) (s : State) : exec (.launch h xd xa) s = Sys2Proof.Machine.execLaunch h xd xa s := rfl
@[simp] theorem exec_txabort (h : Head) (xa : XReg) (rt : Bool) (s : State) : exec (.txabort h xa rt) s = Sys2Proof.Machine.execTxabort h xa rt s := rfl
@[simp] theorem exec_txwaitOldest (h : Head) (xd : XReg) (s : State) : exec (.txwaitOldest h xd) s = Sys2Proof.Machine.execTxwaitOldest h xd s := rfl
@[simp] theorem exec_txwaitPoll (h : Head) (xd : XReg) (s : State) : exec (.txwaitPoll h xd) s = Sys2Proof.Machine.execTxwaitPoll h xd s := rfl
@[simp] theorem exec_mfs (h : Head) (xd : XReg) (r : SysReg) (s : State) : exec (.mfs h xd r) s = Sys2Proof.Machine.execMfs h xd r s := rfl
@[simp] theorem exec_mts (h : Head) (r : SysReg) (xa : XReg) (s : State) : exec (.mts h r xa) s = Sys2Proof.Machine.execMts h r xa s := rfl
@[simp] theorem exec_mtsGmode (h : Head) (xa : XReg) (s : State) : exec (.mtsGmode h xa) s = Sys2Proof.Machine.execMtsGmode h xa s := rfl
@[simp] theorem exec_ckpt (h : Head) (s : State) : exec (.ckpt h) s = Sys2Proof.Machine.execCkpt h s := rfl
@[simp] theorem exec_step (h : Head) (s : State) : exec (.step h) s = Sys2Proof.Machine.execStep h s := rfl
@[simp] theorem exec_trap (h : Head) (code : BitVec 16) (s : State) : exec (.trap h code) s = Sys2Proof.Machine.execTrap h code s := rfl
@[simp] theorem exec_break (h : Head) (code : BitVec 16) (s : State) : exec (.break h code) s = Sys2Proof.Machine.execBreak h code s := rfl
@[simp] theorem exec_eret (h : Head) (s : State) : exec (.eret h) s = Sys2Proof.Machine.execEret h s := rfl
@[simp] theorem exec_icinv (h : Head) (xa : XReg) (xb : XReg) (s : State) : exec (.icinv h xa xb) s = Sys2Proof.Machine.execIcinv h xa xb s := rfl
@[simp] theorem exec_icinvAll (h : Head) (s : State) : exec (.icinvAll h) s = Sys2Proof.Machine.execIcinvAll h s := rfl
@[simp] theorem exec_unassignedOpcode (h : Head) (op : BitVec 9) (t : Fin 4) (s : State) : exec (.unassignedOpcode h op t) s = Sys2Proof.Machine.execUnassignedOpcode h op t s := rfl
@[simp] theorem exec_icacheFill (hart : HartId) (s : State) : exec (.icacheFill hart) s = Sys2Proof.Machine.execIcacheFill hart s := rfl
@[simp] theorem exec_fetchWalkEnd (hart : HartId) (s : State) : exec (.fetchWalkEnd hart) s = Sys2Proof.Machine.execFetchWalkEnd hart s := rfl
@[simp] theorem exec_dataWalkEnd (hart : HartId) (id : Nat) (s : State) : exec (.dataWalkEnd hart id) s = Sys2Proof.Machine.execDataWalkEnd hart id s := rfl
@[simp] theorem exec_landing (core : CoreId) (s : State) : exec (.landing core) s = Sys2Proof.Machine.execLanding core s := rfl
@[simp] theorem exec_dataArrival (core : CoreId) (s : State) : exec (.dataArrival core) s = Sys2Proof.Machine.execDataArrival core s := rfl
@[simp] theorem exec_memoryTimeout (hart : HartId) (id : Nat) (s : State) : exec (.memoryTimeout hart id) s = Sys2Proof.Machine.execMemoryTimeout hart id s := rfl
@[simp] theorem exec_storePerform (id : Nat) (s : State) : exec (.storePerform id) s = Sys2Proof.Machine.execStorePerform id s := rfl
@[simp] theorem exec_atomicPerform (id : Nat) (s : State) : exec (.atomicPerform id) s = Sys2Proof.Machine.execAtomicPerform id s := rfl
@[simp] theorem exec_checkpointComplete (hart : HartId) (s : State) : exec (.checkpointComplete hart) s = Sys2Proof.Machine.execCheckpointComplete hart s := rfl
@[simp] theorem exec_bundleLimitCheckpoint (hart : HartId) (s : State) : exec (.bundleLimitCheckpoint hart) s = Sys2Proof.Machine.execBundleLimitCheckpoint hart s := rfl
@[simp] theorem exec_welkinResume (hart : HartId) (s : State) : exec (.welkinResume hart) s = Sys2Proof.Machine.execWelkinResume hart s := rfl
@[simp] theorem exec_engineFire (core : CoreId) (id : Nat) (s : State) : exec (.engineFire core id) s = Sys2Proof.Machine.execEngineFire core id s := rfl
@[simp] theorem exec_engineComplete (core : CoreId) (id : Nat) (s : State) : exec (.engineComplete core id) s = Sys2Proof.Machine.execEngineComplete core id s := rfl
@[simp] theorem exec_qpushFire (core : CoreId) (id : Nat) (s : State) : exec (.qpushFire core id) s = Sys2Proof.Machine.execQpushFire core id s := rfl
@[simp] theorem exec_qpopFire (core : CoreId) (id : Nat) (s : State) : exec (.qpopFire core id) s = Sys2Proof.Machine.execQpopFire core id s := rfl
@[simp] theorem exec_qpopGroupWrite (core : CoreId) (id : Nat) (s : State) : exec (.qpopGroupWrite core id) s = Sys2Proof.Machine.execQpopGroupWrite core id s := rfl
@[simp] theorem exec_vWriteComplete (core : CoreId) (id : Nat) (s : State) : exec (.vWriteComplete core id) s = Sys2Proof.Machine.execVWriteComplete core id s := rfl
@[simp] theorem exec_qstBlockPush (core : CoreId) (id : Nat) (s : State) : exec (.qstBlockPush core id) s = Sys2Proof.Machine.execQstBlockPush core id s := rfl
@[simp] theorem exec_recheckExecute (core : CoreId) (id : Nat) (agree : Bool) (s : State) : exec (.recheckExecute core id agree) s = Sys2Proof.Machine.execRecheckExecute core id agree s := rfl
@[simp] theorem exec_streamPush (core : CoreId) (slot : Fin 4) (s : State) : exec (.streamPush core slot) s = Sys2Proof.Machine.execStreamPush core slot s := rfl
@[simp] theorem exec_streamWrite (core : CoreId) (slot : Fin 4) (s : State) : exec (.streamWrite core slot) s = Sys2Proof.Machine.execStreamWrite core slot s := rfl
@[simp] theorem exec_copyChunkDone (chunk : ChunkReply) (s : State) : exec (.copyChunkDone chunk) s = Sys2Proof.Machine.execCopyChunkDone chunk s := rfl
@[simp] theorem exec_copyDone (cluster : ClusterId) (s : State) : exec (.copyDone cluster) s = Sys2Proof.Machine.execCopyDone cluster s := rfl
@[simp] theorem exec_pickup (hart : HartId) (s : State) : exec (.pickup hart) s = Sys2Proof.Machine.execPickup hart s := rfl
@[simp] theorem exec_stripStart (hart : HartId) (s : State) : exec (.stripStart hart) s = Sys2Proof.Machine.execStripStart hart s := rfl
@[simp] theorem exec_writebackComplete (hart : HartId) (s : State) : exec (.writebackComplete hart) s = Sys2Proof.Machine.execWritebackComplete hart s := rfl
@[simp] theorem exec_futureWake (die : DieId) (s : State) : exec (.futureWake die) s = Sys2Proof.Machine.execFutureWake die s := rfl
@[simp] theorem exec_sweep (part : PartId) (node : Option ClusterId) (s : State) : exec (.sweep part node) s = Sys2Proof.Machine.execSweep part node s := rfl
@[simp] theorem exec_launchTake (part : PartId) (queue : Fin 64) (s : State) : exec (.launchTake part queue) s = Sys2Proof.Machine.execLaunchTake part queue s := rfl
@[simp] theorem exec_admission (part : PartId) (s : State) : exec (.admission part) s = Sys2Proof.Machine.execAdmission part s := rfl
@[simp] theorem exec_launchReady (id : Nat) (s : State) : exec (.launchReady id) s = Sys2Proof.Machine.execLaunchReady id s := rfl
@[simp] theorem exec_launchStart (id : Nat) (s : State) : exec (.launchStart id) s = Sys2Proof.Machine.execLaunchStart id s := rfl
@[simp] theorem exec_periodRefill (part : PartId) (queue : Fin 64) (s : State) : exec (.periodRefill part queue) s = Sys2Proof.Machine.execPeriodRefill part queue s := rfl
@[simp] theorem exec_budgetExhausted (part : PartId) (queue : Fin 64) (s : State) : exec (.budgetExhausted part queue) s = Sys2Proof.Machine.execBudgetExhausted part queue s := rfl
@[simp] theorem exec_overrun (id : Nat) (s : State) : exec (.overrun id) s = Sys2Proof.Machine.execOverrun id s := rfl
@[simp] theorem exec_shadowOverflow (id : Nat) (s : State) : exec (.shadowOverflow id) s = Sys2Proof.Machine.execShadowOverflow id s := rfl
@[simp] theorem exec_irrevocableSwitch (id : Nat) (s : State) : exec (.irrevocableSwitch id) s = Sys2Proof.Machine.execIrrevocableSwitch id s := rfl
@[simp] theorem exec_launchEnd (id : Nat) (s : State) : exec (.launchEnd id) s = Sys2Proof.Machine.execLaunchEnd id s := rfl
@[simp] theorem exec_prepare (part : PartId) (s : State) : exec (.prepare part) s = Sys2Proof.Machine.execPrepare part s := rfl
@[simp] theorem exec_commit (part : PartId) (s : State) : exec (.commit part) s = Sys2Proof.Machine.execCommit part s := rfl
@[simp] theorem exec_lineSettle (id : Nat) (s : State) : exec (.lineSettle id) s = Sys2Proof.Machine.execLineSettle id s := rfl
@[simp] theorem exec_launchAbort (id : Nat) (s : State) : exec (.launchAbort id) s = Sys2Proof.Machine.execLaunchAbort id s := rfl
@[simp] theorem exec_cancel (part : PartId) (queue : Fin 64) (s : State) : exec (.cancel part queue) s = Sys2Proof.Machine.execCancel part queue s := rfl
@[simp] theorem exec_contextSave (id : Nat) (faulted : Bool) (s : State) : exec (.contextSave id faulted) s = Sys2Proof.Machine.execContextSave id faulted s := rfl
@[simp] theorem exec_restore (id : Nat) (s : State) : exec (.restore id) s = Sys2Proof.Machine.execRestore id s := rfl
@[simp] theorem exec_resume (id : Nat) (s : State) : exec (.resume id) s = Sys2Proof.Machine.execResume id s := rfl
@[simp] theorem exec_cutRound (id : Nat) (s : State) : exec (.cutRound id) s = Sys2Proof.Machine.execCutRound id s := rfl
@[simp] theorem exec_cutfail (id : Nat) (s : State) : exec (.cutfail id) s = Sys2Proof.Machine.execCutfail id s := rfl
@[simp] theorem exec_collectiveTrigger (die : DieId) (group : Fin 64) (s : State) : exec (.collectiveTrigger die group) s = Sys2Proof.Machine.execCollectiveTrigger die group s := rfl
@[simp] theorem exec_collectiveComplete (group : Fin 64) (s : State) : exec (.collectiveComplete group) s = Sys2Proof.Machine.execCollectiveComplete group s := rfl
@[simp] theorem exec_collectiveTimeout (group : Fin 64) (s : State) : exec (.collectiveTimeout group) s = Sys2Proof.Machine.execCollectiveTimeout group s := rfl
@[simp] theorem exec_streamFault (core : CoreId) (slot : Fin 4) (f : EngFault) (s : State) : exec (.streamFault core slot f) s = Sys2Proof.Machine.execStreamFault core slot f s := rfl
@[simp] theorem exec_preempt (id : Nat) (s : State) : exec (.preempt id) s = Sys2Proof.Machine.execPreempt id s := rfl
@[simp] theorem exec_saveRestart (id : Nat) (s : State) : exec (.saveRestart id) s = Sys2Proof.Machine.execSaveRestart id s := rfl
@[simp] theorem exec_stopRequest (id : Nat) (s : State) : exec (.stopRequest id) s = Sys2Proof.Machine.execStopRequest id s := rfl
@[simp] theorem exec_sramerr (hart : HartId) (owner : CoreId) (s : State) : exec (.sramerr hart owner) s = Sys2Proof.Machine.execSramerr hart owner s := rfl
@[simp] theorem exec_rdmaWrite (place : RdmaAt 9) (payload : RdmaPayload) (s : State) : exec (.rdmaWrite place payload) s = Sys2Proof.Machine.execRdmaWrite place payload s := rfl
@[simp] theorem exec_rdmaRead (place : RdmaAt 9) (len : Nat) (s : State) : exec (.rdmaRead place len) s = Sys2Proof.Machine.execRdmaRead place len s := rfl
@[simp] theorem exec_rdmaSend (port : Fin 8) (qp : Nat) (data : List Byte) (s : State) : exec (.rdmaSend port qp data) s = Sys2Proof.Machine.execRdmaSend port qp data s := rfl
@[simp] theorem exec_rdmaFetchAdd (place : RdmaAt 8) (v : Word) (s : State) : exec (.rdmaFetchAdd place v) s = Sys2Proof.Machine.execRdmaFetchAdd place v s := rfl
@[simp] theorem exec_rdmaCompareSwap (place : RdmaAt 8) (expected new : Word) (s : State) : exec (.rdmaCompareSwap place expected new) s = Sys2Proof.Machine.execRdmaCompareSwap place expected new s := rfl
@[simp] theorem exec_linkBringup (port : Fin 8) (domid : BitVec 32) (pos : Nat) (s : State) : exec (.linkBringup port domid pos) s = Sys2Proof.Machine.execLinkBringup port domid pos s := rfl
@[simp] theorem exec_peerFrame (port : Fin 8) (seq pa : Nat) (act : PeerAct) (len : Nat) (s : State) : exec (.peerFrame port seq pa act len) s = Sys2Proof.Machine.execPeerFrame port seq pa act len s := rfl
@[simp] theorem exec_peerResend (port : Fin 8) (seq : Nat) (s : State) : exec (.peerResend port seq) s = Sys2Proof.Machine.execPeerResend port seq s := rfl
@[simp] theorem exec_peerPortLost (port : Fin 8) (s : State) : exec (.peerPortLost port) s = Sys2Proof.Machine.execPeerPortLost port s := rfl
@[simp] theorem exec_flitReceive (a b : DieId) (seq : Nat) (flit : Flit) (s : State) : exec (.flitReceive a b seq flit) s = Sys2Proof.Machine.execFlitReceive a b seq flit s := rfl
@[simp] theorem exec_flitReplay (a b : DieId) (crc : BitVec 32) (s : State) : exec (.flitReplay a b crc) s = Sys2Proof.Machine.execFlitReplay a b crc s := rfl
@[simp] theorem exec_dieLinkLost (a : DieId) (b : DieId) (s : State) : exec (.dieLinkLost a b) s = Sys2Proof.Machine.execDieLinkLost a b s := rfl
@[simp] theorem exec_patrolScrub (mem : EccMem) (corrected uncorrectable : Bool) (s : State) : exec (.patrolScrub mem corrected uncorrectable) s = Sys2Proof.Machine.execPatrolScrub mem corrected uncorrectable s := rfl
@[simp] theorem exec_pcDrop (die : DieId) (stack : Fin 2) (pc : Fin 64) (s : State) : exec (.pcDrop die stack pc) s = Sys2Proof.Machine.execPcDrop die stack pc s := rfl
@[simp] theorem exec_thermalThrottle (temp : Int) (power : Nat) (s : State) : exec (.thermalThrottle temp power) s = Sys2Proof.Machine.execThermalThrottle temp power s := rfl
@[simp] theorem exec_coldStart  (s : State) : exec (.coldStart) s = Sys2Proof.Machine.execColdStart s := rfl
@[simp] theorem exec_warmStart  (s : State) : exec (.warmStart) s = Sys2Proof.Machine.execWarmStart s := rfl
@[simp] theorem exec_keyRollover  (s : State) : exec (.keyRollover) s = Sys2Proof.Machine.execKeyRollover s := rfl
@[simp] theorem exec_info (slot : Fin 256) (s : State) : exec (.info slot) s = Sys2Proof.Machine.execInfo slot s := rfl
@[simp] theorem exec_quote (slot : Fin 256) (s : State) : exec (.quote slot) s = Sys2Proof.Machine.execQuote slot s := rfl
@[simp] theorem exec_log (slot : Fin 256) (s : State) : exec (.log slot) s = Sys2Proof.Machine.execLog slot s := rfl
@[simp] theorem exec_chain (slot : Fin 256) (s : State) : exec (.chain slot) s = Sys2Proof.Machine.execChain slot s := rfl
@[simp] theorem exec_load (slot : Fin 256) (s : State) : exec (.load slot) s = Sys2Proof.Machine.execLoad slot s := rfl
@[simp] theorem exec_unload (slot : Fin 256) (s : State) : exec (.unload slot) s = Sys2Proof.Machine.execUnload slot s := rfl
@[simp] theorem exec_qconf (slot : Fin 256) (s : State) : exec (.qconf slot) s = Sys2Proof.Machine.execQconf slot s := rfl
@[simp] theorem exec_pconf (slot : Fin 256) (s : State) : exec (.pconf slot) s = Sys2Proof.Machine.execPconf slot s := rfl
@[simp] theorem exec_cgroup (slot : Fin 256) (s : State) : exec (.cgroup slot) s = Sys2Proof.Machine.execCgroup slot s := rfl
@[simp] theorem exec_rdmaep (slot : Fin 256) (s : State) : exec (.rdmaep slot) s = Sys2Proof.Machine.execRdmaep slot s := rfl
@[simp] theorem exec_resetCore (core : CoreId) (s : State) : exec (.resetCore core) s = Sys2Proof.Machine.execResetCore core s := rfl
@[simp] theorem exec_resetCopyEngine (cluster : ClusterId) (s : State) : exec (.resetCopyEngine cluster) s = Sys2Proof.Machine.execResetCopyEngine cluster s := rfl
@[simp] theorem exec_resetDieLink (a : DieId) (b : DieId) (s : State) : exec (.resetDieLink a b) s = Sys2Proof.Machine.execResetDieLink a b s := rfl
@[simp] theorem exec_resetEthernetPort (port : Fin 8) (s : State) : exec (.resetEthernetPort port) s = Sys2Proof.Machine.execResetEthernetPort port s := rfl
@[simp] theorem exec_resetPartition (part : PartId) (s : State) : exec (.resetPartition part) s = Sys2Proof.Machine.execResetPartition part s := rfl
@[simp] theorem exec_resetDevice  (s : State) : exec (.resetDevice) s = Sys2Proof.Machine.execResetDevice s := rfl
@[simp] theorem exec_droppc (slot : Fin 256) (s : State) : exec (.droppc slot) s = Sys2Proof.Machine.execDroppc slot s := rfl
@[simp] theorem exec_config (slot : Fin 256) (s : State) : exec (.config slot) s = Sys2Proof.Machine.execConfig slot s := rfl
@[simp] theorem exec_debugResume (hart : HartId) (s : State) : exec (.debugResume hart) s = Sys2Proof.Machine.execDebugResume hart s := rfl
@[simp] theorem exec_debugHold (hart : HartId) (s : State) : exec (.debugHold hart) s = Sys2Proof.Machine.execDebugHold hart s := rfl
@[simp] theorem exec_welkinCoreFault (die : DieId) (s : State) : exec (.welkinCoreFault die) s = Sys2Proof.Machine.execWelkinCoreFault die s := rfl
@[simp] theorem exec_shadowDirectoryError (die : DieId) (s : State) : exec (.shadowDirectoryError die) s = Sys2Proof.Machine.execShadowDirectoryError die s := rfl
@[simp] theorem exec_copyFault (cluster : ClusterId) (f : EngFault) (s : State) : exec (.copyFault cluster f) s = Sys2Proof.Machine.execCopyFault cluster f s := rfl
@[simp] theorem exec_mappingRepaired (core : CoreId) (s : State) : exec (.mappingRepaired core) s = Sys2Proof.Machine.execMappingRepaired core s := rfl
@[simp] theorem exec_translationInvalidate (core : CoreId) (s : State) : exec (.translationInvalidate core) s = Sys2Proof.Machine.execTranslationInvalidate core s := rfl
@[simp] theorem exec_ownerSession (challenge : SessionChallenge) (sig : List Byte) (s : State) : exec (.ownerSession challenge sig) s = Sys2Proof.Machine.execOwnerSession challenge sig s := rfl

end Sys2Proof.Machine
end

