-- ==== Sys2Proof/Laws/SMap.lean ====
section
/-! SUPPORT. Sparse maps: reading after a write, and the canonical form. -/

namespace Sys2Proof.Machine

namespace SMapLaw

/-- The least key of a map lies above `n`. -/
def above {α : Type} (n : Nat) : SMap α → Prop
  | [] => True
  | (k, _) :: _ => n < k

end SMapLaw

theorem SMap.look_put_same {α : Type} (d : α) (m : SMap α) (n : Nat) (v : α) : SMap.look d (SMap.put m n v) n = v := by
  induction m with
  | nil => simp [SMap.put, SMap.look]
  | cons kv r ih =>
    obtain ⟨k, w⟩ := kv
    simp only [SMap.put]
    split
    · subst_vars; simp [SMap.look]
    · split <;> simp [SMap.look, *]

theorem SMap.look_put_ne {α : Type} (d : α) (m : SMap α) (n k : Nat) (v : α) (h : k ≠ n) :
    SMap.look d (SMap.put m n v) k = SMap.look d m k := by
  induction m with
  | nil => simp [SMap.put, SMap.look, h]
  | cons kv r ih =>
    obtain ⟨j, w⟩ := kv
    simp only [SMap.put]
    split
    · subst_vars; simp [SMap.look, h]
    · split <;> simp [SMap.look, h, ih]

theorem SMap.put_put {α : Type} (m : SMap α) (n : Nat) (v w : α) : SMap.put (SMap.put m n v) n w = SMap.put m n w := by
  induction m with
  | nil => simp [SMap.put]
  | cons kv r ih =>
    obtain ⟨j, u⟩ := kv
    simp only [SMap.put]
    split
    · subst_vars; simp [SMap.put]
    · split
      · simp [SMap.put]
      · simp [SMap.put, *]

/-- A map is rising exactly where its tail is and its head lies below the tail's least key. -/
theorem SMap.sorted_cons {α : Type} (k : Nat) (v : α) (r : SMap α) :
    SMap.sorted ((k, v) :: r) = true ↔ SMapLaw.above k r ∧ SMap.sorted r = true := by
  cases r with
  | nil => simp [SMap.sorted, SMapLaw.above]
  | cons kv r => obtain ⟨j, w⟩ := kv; simp [SMap.sorted, SMapLaw.above]

theorem SMap.above_put {α : Type} (b n : Nat) (v : α) (m : SMap α) (hm : SMapLaw.above b m) (hn : b < n) :
    SMapLaw.above b (SMap.put m n v) := by
  cases m with
  | nil => simpa [SMap.put, SMapLaw.above] using hn
  | cons kv r =>
    obtain ⟨k, w⟩ := kv
    simp only [SMap.put]
    split
    · exact hm
    · split
      · exact hn
      · exact hm

theorem SMap.above_trans {α : Type} (a b : Nat) (m : SMap α) (h : a < b) (hm : SMapLaw.above b m) : SMapLaw.above a m := by
  cases m with
  | nil => trivial
  | cons kv r => obtain ⟨k, w⟩ := kv; exact Nat.lt_trans h hm

theorem SMap.sorted_put {α : Type} (m : SMap α) (n : Nat) (v : α) (h : SMap.sorted m = true) : SMap.sorted (SMap.put m n v) = true := by
  induction m with
  | nil => rfl
  | cons kv r ih =>
    obtain ⟨k, w⟩ := kv
    rw [SMap.sorted_cons] at h
    simp only [SMap.put]
    split
    · rw [SMap.sorted_cons]; exact h
    · split
      · rw [SMap.sorted_cons, SMap.sorted_cons]; exact ⟨by simpa [SMapLaw.above], h⟩
      · rw [SMap.sorted_cons]; exact ⟨SMap.above_put _ _ _ _ h.1 (by omega), ih h.2⟩

theorem SMap.del_above {α : Type} (n b : Nat) (m : SMap α) (h : SMap.sorted m = true) (hm : SMapLaw.above b m) (hn : n ≤ b) :
    SMap.del m n = m := by
  induction m generalizing b with
  | nil => rfl
  | cons kv r ih =>
    obtain ⟨k, w⟩ := kv
    rw [SMap.sorted_cons] at h
    simp only [SMapLaw.above] at hm
    simp only [SMap.del]
    rw [if_neg (by omega), ih k h.2 h.1 (by omega)]

theorem SMap.above_del {α : Type} (b n : Nat) (m : SMap α) (h : SMap.sorted m = true) (hm : SMapLaw.above b m) :
    SMapLaw.above b (SMap.del m n) := by
  cases m with
  | nil => trivial
  | cons kv r =>
    obtain ⟨k, w⟩ := kv
    rw [SMap.sorted_cons] at h
    simp only [SMap.del]
    split
    · subst_vars
      rw [SMap.del_above k k r h.2 h.1 (Nat.le_refl _)]
      exact SMap.above_trans b k r hm h.1
    · exact hm

theorem SMap.sorted_del {α : Type} (m : SMap α) (n : Nat) (h : SMap.sorted m = true) : SMap.sorted (SMap.del m n) = true := by
  induction m with
  | nil => rfl
  | cons kv r ih =>
    obtain ⟨k, w⟩ := kv
    have h' := (SMap.sorted_cons k w r).1 h
    simp only [SMap.del]
    split
    · exact ih h'.2
    · rw [SMap.sorted_cons]; exact ⟨SMap.above_del _ _ _ h'.2 h'.1, ih h'.2⟩

theorem SMap.look_del_same {α : Type} (d : α) (m : SMap α) (n : Nat) : SMap.look d (SMap.del m n) n = d := by
  induction m with
  | nil => rfl
  | cons kv r ih =>
    obtain ⟨k, w⟩ := kv
    simp only [SMap.del]
    split
    · exact ih
    · simp [SMap.look, *]

theorem SMap.look_del_ne {α : Type} (d : α) (m : SMap α) (n k : Nat) (hk : k ≠ n) :
    SMap.look d (SMap.del m n) k = SMap.look d m k := by
  induction m with
  | nil => rfl
  | cons kv r ih =>
    obtain ⟨j, w⟩ := kv
    simp only [SMap.del]
    split
    · subst_vars; simp [SMap.look, hk, ih]
    · simp [SMap.look, ih]

theorem SMap.mem_put {α : Type} (m : SMap α) (n : Nat) (v : α) (x : Nat × α) (h : x ∈ SMap.put m n v) : x = (n, v) ∨ x ∈ m := by
  induction m with
  | nil => simp [SMap.put] at h; exact .inl h
  | cons kv r ih =>
    obtain ⟨k, w⟩ := kv
    simp only [SMap.put] at h
    split at h
    · subst_vars; rcases List.mem_cons.1 h with h | h <;> simp [h]
    · split at h
      · rcases List.mem_cons.1 h with h | h <;> simp [h]
      · rcases List.mem_cons.1 h with h | h
        · simp [h]
        · rcases ih h with h | h <;> simp [h]

theorem SMap.mem_del {α : Type} (m : SMap α) (n : Nat) (x : Nat × α) (h : x ∈ SMap.del m n) : x ∈ m := by
  induction m with
  | nil => exact h
  | cons kv r ih =>
    obtain ⟨k, w⟩ := kv
    simp only [SMap.del] at h
    split at h
    · exact List.mem_cons_of_mem _ (ih h)
    · rcases List.mem_cons.1 h with h | h
      · simp [h]
      · exact List.mem_cons_of_mem _ (ih h)

theorem SMap.wf_iff {α : Type} [DecidableEq α] (d : α) (m : SMap α) :
    SMap.wf d m = true ↔ SMap.sorted m = true ∧ ∀ x ∈ m, x.2 ≠ d := by
  simp [SMap.wf]

/-- `SMap.set` keeps the canonical form. -/
theorem SMap.wf_set {α : Type} [DecidableEq α] (d : α) (m : SMap α) (n : Nat) (v : α) (h : SMap.wf d m = true) :
    SMap.wf d (SMap.set d m n v) = true := by
  rw [SMap.wf_iff] at *
  simp only [SMap.set]
  split
  · exact ⟨SMap.sorted_del _ _ h.1, fun x hx => h.2 x (SMap.mem_del _ _ _ hx)⟩
  · refine ⟨SMap.sorted_put _ _ _ h.1, fun x hx => ?_⟩
    rcases SMap.mem_put _ _ _ _ hx with hx | hx
    · subst hx; assumption
    · exact h.2 x hx

theorem SMap.look_set {α : Type} [DecidableEq α] (d : α) (m : SMap α) (n k : Nat) (v : α) :
    SMap.look d (SMap.set d m n v) k = if k = n then v else SMap.look d m k := by
  simp only [SMap.set]
  split
  · subst_vars
    split
    · subst_vars; exact SMap.look_del_same _ _ _
    · exact SMap.look_del_ne _ _ _ _ ‹_›
  · split
    · subst_vars; exact SMap.look_put_same _ _ _ _
    · exact SMap.look_put_ne _ _ _ _ _ ‹_›

theorem SMap.wf_setList {α : Type} [DecidableEq α] (d : α) (vs : List α) : ∀ (m : SMap α) (n : Nat), SMap.wf d m = true →
    SMap.wf d (SMap.setList d m n vs) = true := by
  induction vs with
  | nil => intro m n h; exact h
  | cons v vs ih => intro m n h; exact ih _ _ (SMap.wf_set _ _ _ _ h)

/-- What a run of values written from `n` upward reads as. -/
theorem SMap.look_setList {α : Type} [DecidableEq α] (d : α) (vs : List α) : ∀ (m : SMap α) (n k : Nat),
    SMap.look d (SMap.setList d m n vs) k = if n ≤ k ∧ k < n + vs.length then vs.getD (k - n) d else SMap.look d m k := by
  induction vs with
  | nil => intro m n k; simp only [SMap.setList, List.length_nil, Nat.add_zero]; rw [if_neg (by omega)]
  | cons v vs ih =>
    intro m n k
    simp only [SMap.setList]
    rw [ih, SMap.look_set d m n k v]
    by_cases h1 : k = n
    · subst h1; rw [if_neg (by omega), if_pos rfl, if_pos ⟨Nat.le_refl _, by simp⟩]; simp
    · by_cases h2 : n + 1 ≤ k ∧ k < n + 1 + vs.length
      · rw [if_pos h2, if_pos ⟨by omega, by simp; omega⟩]
        obtain ⟨j, hj⟩ : ∃ j, k = n + 1 + j := ⟨k - (n + 1), by omega⟩
        subst hj
        rw [show n + 1 + j - (n + 1) = j by omega, show n + 1 + j - n = j + 1 by omega]
        simp
      · rw [if_neg h2, if_neg h1, if_neg (by simp; omega)]

end Sys2Proof.Machine
end

