-- ==== Sys2Proof/Laws/Memory.lean ====
section
/-! SUPPORT. Memory: every operation keeps the canonical form, and reads give what was written. -/

namespace Sys2Proof.Machine

theorem Ram.wf_iff (m : Ram) :
    m.wf = true ↔ SMap.wf 0 m.bytes = true ∧ SMap.sorted (m.poison.map fun l => (l, ())) = true := by
  simp [Ram.wf]

theorem Ram.empty_wf : Ram.empty.wf = true := by decide

theorem insertSorted_eq_put (l : List Nat) (n : Nat) :
    (insertSorted l n).map (fun l => (l, ())) = SMap.put (l.map fun l => (l, ())) n () := by
  induction l with
  | nil => rfl
  | cons k r ih =>
    rcases Nat.lt_trichotomy n k with h | h | h
    · simp [insertSorted, SMap.put, h, Nat.ne_of_lt h]
    · subst h; simp [insertSorted, SMap.put]
    · simp [insertSorted, SMap.put, ih, Nat.not_lt.2 (Nat.le_of_lt h), Nat.ne_of_gt h]

theorem insertSorted_sorted (l : List Nat) (n : Nat) (h : SMap.sorted (l.map fun l => (l, ())) = true) :
    SMap.sorted ((insertSorted l n).map fun l => (l, ())) = true := by
  rw [insertSorted_eq_put]; exact SMap.sorted_put _ _ _ h

theorem filter_sorted (l : List Nat) (f : Nat → Bool) (h : SMap.sorted (l.map fun l => (l, ())) = true) :
    SMap.sorted ((l.filter f).map fun l => (l, ())) = true ∧
      ∀ b, SMapLaw.above b (l.map fun l => (l, ())) → SMapLaw.above b ((l.filter f).map fun l => (l, ())) := by
  induction l with
  | nil => exact ⟨h, fun _ h => h⟩
  | cons k r ih =>
    rw [List.map_cons, SMap.sorted_cons] at h
    obtain ⟨i1, i2⟩ := ih h.2
    simp only [List.filter_cons]
    split
    · refine ⟨?_, fun b hb => hb⟩
      rw [List.map_cons, SMap.sorted_cons]; exact ⟨i2 k h.1, i1⟩
    · exact ⟨i1, fun b hb => i2 b (SMap.above_trans b k _ hb h.1)⟩

theorem Ram.setBytes_wf (m : Ram) (a : Nat) (bs : List Byte) (h : m.wf = true) : (m.setBytes a bs).wf = true := by
  rw [Ram.wf_iff] at *; exact ⟨SMap.wf_setList _ _ _ _ h.1, h.2⟩

theorem Ram.setByte_wf (m : Ram) (a : Nat) (b : Byte) (h : m.wf = true) : (m.setByte a b).wf = true := by
  rw [Ram.wf_iff] at *; exact ⟨SMap.wf_set _ _ _ _ h.1, h.2⟩

theorem Ram.mark_wf (m : Ram) (line : Nat) (h : m.wf = true) : (m.mark line).wf = true := by
  rw [Ram.wf_iff] at *; exact ⟨h.1, insertSorted_sorted _ _ h.2⟩

theorem Ram.unmark_wf (m : Ram) (line : Nat) (h : m.wf = true) : (m.unmark line).wf = true := by
  rw [Ram.wf_iff] at *; exact ⟨h.1, (filter_sorted _ _ h.2).1⟩

theorem Ram.settlePoison_wf (m : Ram) (a n : Nat) (poi : Bool) (h : m.wf = true) : (m.settlePoison a n poi).wf = true := by
  unfold Ram.settlePoison
  split
  · exact Ram.mark_wf _ _ h
  · split
    · exact Ram.unmark_wf _ _ h
    · exact h

/-- A write keeps the canonical form. -/
theorem Ram.write_wf (m : Ram) (a : Nat) (bs : List Byte) (poi : Bool) (h : m.wf = true) : (m.write a bs poi).wf = true :=
  Ram.settlePoison_wf _ _ _ _ (Ram.setBytes_wf _ _ _ h)

@[simp] theorem Ram.settlePoison_bytes (m : Ram) (a n : Nat) (poi : Bool) : (m.settlePoison a n poi).bytes = m.bytes := by
  unfold Ram.settlePoison; split <;> try rfl
  split <;> rfl

/-- What a byte reads as after a write. -/
theorem Ram.write_byte (m : Ram) (a k : Nat) (bs : List Byte) (poi : Bool) :
    (m.write a bs poi).byte k = if a ≤ k ∧ k < a + bs.length then bs.getD (k - a) 0 else m.byte k := by
  simp only [Ram.write, Ram.byte, Ram.settlePoison_bytes, Ram.setBytes]
  exact SMap.look_setList 0 bs m.bytes a k

end Sys2Proof.Machine
end

