-- ==== Sys2Proof/Laws/PerInstr.lean ====
section
/-! SUPPORT. One lemma for each instruction: its encoding fits its tail and reads back as the instruction. -/

namespace Sys2Proof

/-- A well-formed instruction has an opcode of the map, and its encoding fits its tail and reads back as the instruction. -/
def Laws.RoundTrip.Statement (i : Instr) : Prop :=
  i.wf = true → ∀ (op t : Nat) (h : Head) (tail : Nat), encodeOp i = some (op, t, h, tail) →
    0 < op ∧ op < 512 ∧ t < 4 ∧ tail < 2 ^ (8 * tailLen t) ∧ readAs h op t tail = .ok i

theorem not_true {b : Bool} (w : (!b) = true) : b = false := by simpa using w
theorem and_left {a b : Bool} (w : (a && b) = true) : a = true := (Bool.and_eq_true_iff.mp w).1
theorem and_right {a b : Bool} (w : (a && b) = true) : b = true := (Bool.and_eq_true_iff.mp w).2
theorem is_single {t y : Ty} (w : decide (t = y) = true) : t.isOneOf [y] = true := by
  rw [of_decide_eq_true w]; cases y <;> rfl
theorem one_of_single {t y : Ty} {b : Bool} (w : (decide (t = y) && b) = true) : (t.isOneOf [y] && b) = true := by
  rw [is_single (and_left w), and_right w]; rfl

/-- What a row of the map reads back settles the statement. -/
theorem Laws.RoundTrip.of_row {i : Instr} {op t tail : Nat} {h : Head} (he : encodeOp i = some (op, t, h, tail)) (hop : 0 < op ∧ op < 512 ∧ t < 4)
    (hr : i.wf = true → tail < 2 ^ (8 * tailLen t) ∧ readAs h op t tail = .ok i) : Laws.RoundTrip.Statement i := by
  intro w op' t' h' tail' e
  rw [he] at e
  cases e
  exact ⟨hop.1, hop.2.1, hop.2.2, hr w⟩

/-- An event has no encoding. -/
theorem Laws.RoundTrip.of_none {i : Instr} (he : encodeOp i = none) : Laws.RoundTrip.Statement i := by
  intro _ _ _ _ _ e
  rw [he] at e
  cases e

theorem Laws.RoundTrip.add (h : Head) (d : XReg) (a : XReg) (b : XReg) : Laws.RoundTrip.Statement (.add h d a b) :=
  Laws.RoundTrip.of_row rfl (by decide) fun w => readAs_row (n := 4) rfl (encA3_reads _ _ _ _) rfl
theorem Laws.RoundTrip.sub (h : Head) (d : XReg) (a : XReg) (b : XReg) : Laws.RoundTrip.Statement (.sub h d a b) :=
  Laws.RoundTrip.of_row rfl (by decide) fun w => readAs_row (n := 4) rfl (encA3_reads _ _ _ _) rfl
theorem Laws.RoundTrip.mul (h : Head) (d : XReg) (a : XReg) (b : XReg) : Laws.RoundTrip.Statement (.mul h d a b) :=
  Laws.RoundTrip.of_row rfl (by decide) fun w => readAs_row (n := 4) rfl (encA3_reads _ _ _ _) rfl
theorem Laws.RoundTrip.mulh (h : Head) (d : XReg) (a : XReg) (b : XReg) : Laws.RoundTrip.Statement (.mulh h d a b) :=
  Laws.RoundTrip.of_row rfl (by decide) fun w => readAs_row (n := 4) rfl (encA3_reads _ _ _ _) rfl
theorem Laws.RoundTrip.and (h : Head) (d : XReg) (a : XReg) (b : XReg) : Laws.RoundTrip.Statement (.and h d a b) :=
  Laws.RoundTrip.of_row rfl (by decide) fun w => readAs_row (n := 4) rfl (encA3_reads _ _ _ _) rfl
theorem Laws.RoundTrip.or (h : Head) (d : XReg) (a : XReg) (b : XReg) : Laws.RoundTrip.Statement (.or h d a b) :=
  Laws.RoundTrip.of_row rfl (by decide) fun w => readAs_row (n := 4) rfl (encA3_reads _ _ _ _) rfl
theorem Laws.RoundTrip.xor (h : Head) (d : XReg) (a : XReg) (b : XReg) : Laws.RoundTrip.Statement (.xor h d a b) :=
  Laws.RoundTrip.of_row rfl (by decide) fun w => readAs_row (n := 4) rfl (encA3_reads _ _ _ _) rfl
theorem Laws.RoundTrip.sll (h : Head) (d : XReg) (a : XReg) (b : XReg) : Laws.RoundTrip.Statement (.sll h d a b) :=
  Laws.RoundTrip.of_row rfl (by decide) fun w => readAs_row (n := 4) rfl (encA3_reads _ _ _ _) rfl
theorem Laws.RoundTrip.srl (h : Head) (d : XReg) (a : XReg) (b : XReg) : Laws.RoundTrip.Statement (.srl h d a b) :=
  Laws.RoundTrip.of_row rfl (by decide) fun w => readAs_row (n := 4) rfl (encA3_reads _ _ _ _) rfl
theorem Laws.RoundTrip.sra (h : Head) (d : XReg) (a : XReg) (b : XReg) : Laws.RoundTrip.Statement (.sra h d a b) :=
  Laws.RoundTrip.of_row rfl (by decide) fun w => readAs_row (n := 4) rfl (encA3_reads _ _ _ _) rfl
theorem Laws.RoundTrip.min (h : Head) (d : XReg) (a : XReg) (b : XReg) : Laws.RoundTrip.Statement (.min h d a b) :=
  Laws.RoundTrip.of_row rfl (by decide) fun w => readAs_row (n := 4) rfl (encA3_reads _ _ _ _) rfl
theorem Laws.RoundTrip.max (h : Head) (d : XReg) (a : XReg) (b : XReg) : Laws.RoundTrip.Statement (.max h d a b) :=
  Laws.RoundTrip.of_row rfl (by decide) fun w => readAs_row (n := 4) rfl (encA3_reads _ _ _ _) rfl
theorem Laws.RoundTrip.minu (h : Head) (d : XReg) (a : XReg) (b : XReg) : Laws.RoundTrip.Statement (.minu h d a b) :=
  Laws.RoundTrip.of_row rfl (by decide) fun w => readAs_row (n := 4) rfl (encA3_reads _ _ _ _) rfl
theorem Laws.RoundTrip.maxu (h : Head) (d : XReg) (a : XReg) (b : XReg) : Laws.RoundTrip.Statement (.maxu h d a b) :=
  Laws.RoundTrip.of_row rfl (by decide) fun w => readAs_row (n := 4) rfl (encA3_reads _ _ _ _) rfl
theorem Laws.RoundTrip.addi (h : Head) (d : XReg) (a : XReg) (i : BitVec 22) : Laws.RoundTrip.Statement (.addi h d a i) :=
  Laws.RoundTrip.of_row rfl (by decide) fun w => readAs_row (n := 4) rfl (encA2I_reads _ _ _ _) rfl
theorem Laws.RoundTrip.andi (h : Head) (d : XReg) (a : XReg) (i : BitVec 22) : Laws.RoundTrip.Statement (.andi h d a i) :=
  Laws.RoundTrip.of_row rfl (by decide) fun w => readAs_row (n := 4) rfl (encA2I_reads _ _ _ _) rfl
theorem Laws.RoundTrip.ori (h : Head) (d : XReg) (a : XReg) (i : BitVec 22) : Laws.RoundTrip.Statement (.ori h d a i) :=
  Laws.RoundTrip.of_row rfl (by decide) fun w => readAs_row (n := 4) rfl (encA2I_reads _ _ _ _) rfl
theorem Laws.RoundTrip.xori (h : Head) (d : XReg) (a : XReg) (i : BitVec 22) : Laws.RoundTrip.Statement (.xori h d a i) :=
  Laws.RoundTrip.of_row rfl (by decide) fun w => readAs_row (n := 4) rfl (encA2I_reads _ _ _ _) rfl
theorem Laws.RoundTrip.slli (h : Head) (d : XReg) (a : XReg) (s : Fin 64) : Laws.RoundTrip.Statement (.slli h d a s) :=
  Laws.RoundTrip.of_row rfl (by decide) fun w => readAs_row (n := 4) rfl (encSHI_reads _ _ _ _) rfl
theorem Laws.RoundTrip.srli (h : Head) (d : XReg) (a : XReg) (s : Fin 64) : Laws.RoundTrip.Statement (.srli h d a s) :=
  Laws.RoundTrip.of_row rfl (by decide) fun w => readAs_row (n := 4) rfl (encSHI_reads _ _ _ _) rfl
theorem Laws.RoundTrip.srai (h : Head) (d : XReg) (a : XReg) (s : Fin 64) : Laws.RoundTrip.Statement (.srai h d a s) :=
  Laws.RoundTrip.of_row rfl (by decide) fun w => readAs_row (n := 4) rfl (encSHI_reads _ _ _ _) rfl
theorem Laws.RoundTrip.clz (h : Head) (d : XReg) (a : XReg) : Laws.RoundTrip.Statement (.clz h d a) :=
  Laws.RoundTrip.of_row rfl (by decide) fun w => readAs_row (n := 2) rfl (encA1_reads _ _ _) rfl
theorem Laws.RoundTrip.popc (h : Head) (d : XReg) (a : XReg) : Laws.RoundTrip.Statement (.popc h d a) :=
  Laws.RoundTrip.of_row rfl (by decide) fun w => readAs_row (n := 2) rfl (encA1_reads _ _ _) rfl
theorem Laws.RoundTrip.movi (h : Head) (d : XReg) (i : BitVec 59) : Laws.RoundTrip.Statement (.movi h d i) :=
  Laws.RoundTrip.of_row rfl (by decide) fun w => readAs_row (n := 8) rfl (encMOVI_reads _ _ _) rfl
theorem Laws.RoundTrip.movt (h : Head) (d : XReg) (a : XReg) (i : BitVec 16) (s : Fin 4) : Laws.RoundTrip.Statement (.movt h d a i s) :=
  Laws.RoundTrip.of_row rfl (by decide) fun w => readAs_row (n := 4) rfl (encMT_reads _ _ _ _ _) rfl
theorem Laws.RoundTrip.sel (h : Head) (d : XReg) (p : PReg) (a : XReg) (b : XReg) : Laws.RoundTrip.Statement (.sel h d p a b) :=
  Laws.RoundTrip.of_row rfl (by decide) fun w => readAs_row (n := 4) rfl (encSL_reads _ _ _ _ _) rfl
theorem Laws.RoundTrip.cmpeq (h : Head) (d : PReg) (c : PReg) (a : XReg) (b : XReg) : Laws.RoundTrip.Statement (.cmpeq h d c a b) :=
  Laws.RoundTrip.of_row rfl (by decide) fun w => readAs_row (n := 4) rfl (encCR_reads _ _ _ _ _ (not_true w)) rfl
theorem Laws.RoundTrip.cmpne (h : Head) (d : PReg) (c : PReg) (a : XReg) (b : XReg) : Laws.RoundTrip.Statement (.cmpne h d c a b) :=
  Laws.RoundTrip.of_row rfl (by decide) fun w => readAs_row (n := 4) rfl (encCR_reads _ _ _ _ _ (not_true w)) rfl
theorem Laws.RoundTrip.cmplt (h : Head) (d : PReg) (c : PReg) (a : XReg) (b : XReg) : Laws.RoundTrip.Statement (.cmplt h d c a b) :=
  Laws.RoundTrip.of_row rfl (by decide) fun w => readAs_row (n := 4) rfl (encCR_reads _ _ _ _ _ (not_true w)) rfl
theorem Laws.RoundTrip.cmpltu (h : Head) (d : PReg) (c : PReg) (a : XReg) (b : XReg) : Laws.RoundTrip.Statement (.cmpltu h d c a b) :=
  Laws.RoundTrip.of_row rfl (by decide) fun w => readAs_row (n := 4) rfl (encCR_reads _ _ _ _ _ (not_true w)) rfl
theorem Laws.RoundTrip.cmpge (h : Head) (d : PReg) (c : PReg) (a : XReg) (b : XReg) : Laws.RoundTrip.Statement (.cmpge h d c a b) :=
  Laws.RoundTrip.of_row rfl (by decide) fun w => readAs_row (n := 4) rfl (encCR_reads _ _ _ _ _ (not_true w)) rfl
theorem Laws.RoundTrip.cmpgeu (h : Head) (d : PReg) (c : PReg) (a : XReg) (b : XReg) : Laws.RoundTrip.Statement (.cmpgeu h d c a b) :=
  Laws.RoundTrip.of_row rfl (by decide) fun w => readAs_row (n := 4) rfl (encCR_reads _ _ _ _ _ (not_true w)) rfl
theorem Laws.RoundTrip.cmpeqi (h : Head) (d : PReg) (c : PReg) (a : XReg) (i : BitVec 14) : Laws.RoundTrip.Statement (.cmpeqi h d c a i) :=
  Laws.RoundTrip.of_row rfl (by decide) fun w => readAs_row (n := 4) rfl (encCI_reads _ _ _ _ _ (not_true w)) rfl
theorem Laws.RoundTrip.cmplti (h : Head) (d : PReg) (c : PReg) (a : XReg) (i : BitVec 14) : Laws.RoundTrip.Statement (.cmplti h d c a i) :=
  Laws.RoundTrip.of_row rfl (by decide) fun w => readAs_row (n := 4) rfl (encCI_reads _ _ _ _ _ (not_true w)) rfl
theorem Laws.RoundTrip.pand (h : Head) (d : PReg) (a : PReg) (b : PReg) : Laws.RoundTrip.Statement (.pand h d a b) :=
  Laws.RoundTrip.of_row rfl (by decide) fun w => readAs_row (n := 2) rfl (encP2_reads _ _ _ _) rfl
theorem Laws.RoundTrip.por (h : Head) (d : PReg) (a : PReg) (b : PReg) : Laws.RoundTrip.Statement (.por h d a b) :=
  Laws.RoundTrip.of_row rfl (by decide) fun w => readAs_row (n := 2) rfl (encP2_reads _ _ _ _) rfl
theorem Laws.RoundTrip.pxor (h : Head) (d : PReg) (a : PReg) (b : PReg) : Laws.RoundTrip.Statement (.pxor h d a b) :=
  Laws.RoundTrip.of_row rfl (by decide) fun w => readAs_row (n := 2) rfl (encP2_reads _ _ _ _) rfl
theorem Laws.RoundTrip.pnot (h : Head) (d : PReg) (a : PReg) : Laws.RoundTrip.Statement (.pnot h d a) :=
  Laws.RoundTrip.of_row rfl (by decide) fun w => readAs_row (n := 2) rfl (encP1_reads _ _ _) rfl
theorem Laws.RoundTrip.pget (h : Head) (d : XReg) : Laws.RoundTrip.Statement (.pget h d) :=
  Laws.RoundTrip.of_row rfl (by decide) fun w => readAs_row (n := 2) rfl (encX1_reads _ _) rfl
theorem Laws.RoundTrip.pput (h : Head) (a : XReg) : Laws.RoundTrip.Statement (.pput h a) :=
  Laws.RoundTrip.of_row rfl (by decide) fun w => readAs_row (n := 2) rfl (encX1_reads _ _) rfl
theorem Laws.RoundTrip.fadd (h : Head) (d : XReg) (a : XReg) (b : XReg) : Laws.RoundTrip.Statement (.fadd h d a b) :=
  Laws.RoundTrip.of_row rfl (by decide) fun w => readAs_row (n := 4) rfl (encA3_reads _ _ _ _) rfl
theorem Laws.RoundTrip.fsub (h : Head) (d : XReg) (a : XReg) (b : XReg) : Laws.RoundTrip.Statement (.fsub h d a b) :=
  Laws.RoundTrip.of_row rfl (by decide) fun w => readAs_row (n := 4) rfl (encA3_reads _ _ _ _) rfl
theorem Laws.RoundTrip.fmul (h : Head) (d : XReg) (a : XReg) (b : XReg) : Laws.RoundTrip.Statement (.fmul h d a b) :=
  Laws.RoundTrip.of_row rfl (by decide) fun w => readAs_row (n := 4) rfl (encA3_reads _ _ _ _) rfl
theorem Laws.RoundTrip.fdiv (h : Head) (d : XReg) (a : XReg) (b : XReg) : Laws.RoundTrip.Statement (.fdiv h d a b) :=
  Laws.RoundTrip.of_row rfl (by decide) fun w => readAs_row (n := 4) rfl (encA3_reads _ _ _ _) rfl
theorem Laws.RoundTrip.fsqrt (h : Head) (d : XReg) (a : XReg) : Laws.RoundTrip.Statement (.fsqrt h d a) :=
  Laws.RoundTrip.of_row rfl (by decide) fun w => readAs_row (n := 4) rfl (encA3s_reads _ _ _) rfl
theorem Laws.RoundTrip.fma (h : Head) (d : XReg) (a : XReg) (b : XReg) (c : XReg) : Laws.RoundTrip.Statement (.fma h d a b c) :=
  Laws.RoundTrip.of_row rfl (by decide) fun w => readAs_row (n := 8) rfl (encF4_reads _ _ _ _ _) rfl
theorem Laws.RoundTrip.fmin (h : Head) (d : XReg) (a : XReg) (b : XReg) : Laws.RoundTrip.Statement (.fmin h d a b) :=
  Laws.RoundTrip.of_row rfl (by decide) fun w => readAs_row (n := 4) rfl (encA3_reads _ _ _ _) rfl
theorem Laws.RoundTrip.fmax (h : Head) (d : XReg) (a : XReg) (b : XReg) : Laws.RoundTrip.Statement (.fmax h d a b) :=
  Laws.RoundTrip.of_row rfl (by decide) fun w => readAs_row (n := 4) rfl (encA3_reads _ _ _ _) rfl
theorem Laws.RoundTrip.fcmpeq (h : Head) (d : PReg) (c : PReg) (a : XReg) (b : XReg) : Laws.RoundTrip.Statement (.fcmpeq h d c a b) :=
  Laws.RoundTrip.of_row rfl (by decide) fun w => readAs_row (n := 4) rfl (encCR_reads _ _ _ _ _ (not_true w)) rfl
theorem Laws.RoundTrip.fcmplt (h : Head) (d : PReg) (c : PReg) (a : XReg) (b : XReg) : Laws.RoundTrip.Statement (.fcmplt h d c a b) :=
  Laws.RoundTrip.of_row rfl (by decide) fun w => readAs_row (n := 4) rfl (encCR_reads _ _ _ _ _ (not_true w)) rfl
theorem Laws.RoundTrip.fcmple (h : Head) (d : PReg) (c : PReg) (a : XReg) (b : XReg) : Laws.RoundTrip.Statement (.fcmple h d c a b) :=
  Laws.RoundTrip.of_row rfl (by decide) fun w => readAs_row (n := 4) rfl (encCR_reads _ _ _ _ _ (not_true w)) rfl
theorem Laws.RoundTrip.fcvt (h : Head) (d : XReg) (a : XReg) (ty : Ty) (q : Bool) : Laws.RoundTrip.Statement (.fcvt h d a ty q) :=
  Laws.RoundTrip.of_row rfl (by decide) fun w => readAs_row (n := 4) rfl (encCV_reads _ _ _ _ _ _ _ w (.inl rfl)) rfl
theorem Laws.RoundTrip.fcvti (h : Head) (d : XReg) (a : XReg) (ty : Ty) (q : Bool) : Laws.RoundTrip.Statement (.fcvti h d a ty q) :=
  Laws.RoundTrip.of_row rfl (by decide) fun w => readAs_row (n := 4) rfl (encCV_reads _ _ _ _ _ _ _ w (.inl rfl)) rfl
theorem Laws.RoundTrip.icvtf (h : Head) (d : XReg) (a : XReg) (ty : Ty) : Laws.RoundTrip.Statement (.icvtf h d a ty) :=
  Laws.RoundTrip.of_row rfl (by decide) fun w => readAs_row (n := 4) rfl (encCV_reads _ _ _ _ _ _ _ w (.inr rfl)) rfl
theorem Laws.RoundTrip.br (h : Head) (d : BitVec 27) (i : Fin 32) : Laws.RoundTrip.Statement (.br h d i) :=
  Laws.RoundTrip.of_row rfl (by decide) fun w => readAs_row (n := 4) rfl (encBD_reads _ _ _) rfl
theorem Laws.RoundTrip.call (h : Head) (d : BitVec 27) (i : Fin 32) : Laws.RoundTrip.Statement (.call h d i) :=
  Laws.RoundTrip.of_row rfl (by decide) fun w => readAs_row (n := 4) rfl (encBD_reads _ _ _) rfl
theorem Laws.RoundTrip.callr (h : Head) (a : XReg) : Laws.RoundTrip.Statement (.callr h a) :=
  Laws.RoundTrip.of_row rfl (by decide) fun w => readAs_row (n := 2) rfl (encX1_reads _ _) rfl
theorem Laws.RoundTrip.ret (h : Head) : Laws.RoundTrip.Statement (.ret h) :=
  Laws.RoundTrip.of_row rfl (by decide) fun w => readAs_row (n := 0) rfl (dec0_reads _) rfl
theorem Laws.RoundTrip.jr (h : Head) (a : XReg) : Laws.RoundTrip.Statement (.jr h a) :=
  Laws.RoundTrip.of_row rfl (by decide) fun w => readAs_row (n := 2) rfl (encX1_reads _ _) rfl
theorem Laws.RoundTrip.loop (h : Head) (a : XReg) (d : BitVec 22) (i : Fin 32) : Laws.RoundTrip.Statement (.loop h a d i) :=
  Laws.RoundTrip.of_row rfl (by decide) fun w => readAs_row (n := 4) rfl (encLP_reads _ _ _ _ (of_decide_eq_true w)) rfl
theorem Laws.RoundTrip.nop (h : Head) : Laws.RoundTrip.Statement (.nop h) :=
  Laws.RoundTrip.of_row rfl (by decide) fun w => readAs_row (n := 0) rfl (dec0_reads _) rfl
theorem Laws.RoundTrip.ld (h : Head) (d : XReg) (a : XReg) (i : BitVec 24) (sp : Space) (ty : Ty) (n : Fin 4096) : Laws.RoundTrip.Statement (.ld h d a i sp ty n) :=
  Laws.RoundTrip.of_row rfl (by decide) fun w => readAs_row (n := 8) rfl (encLS_reads _ _ _ _ _ _ _ w) rfl
theorem Laws.RoundTrip.st (h : Head) (c : XReg) (a : XReg) (i : BitVec 24) (sp : Space) (ty : Ty) : Laws.RoundTrip.Statement (.st h c a i sp ty) :=
  Laws.RoundTrip.of_row rfl (by decide) fun w => readAs_row (n := 8) rfl (encLSs_reads _ _ _ _ _ _ w) rfl
theorem Laws.RoundTrip.ldx (h : Head) (d : XReg) (a : XReg) (b : XReg) (s : Fin 4) (sp : Space) (ty : Ty) (n : Fin 4096) : Laws.RoundTrip.Statement (.ldx h d a b s sp ty n) :=
  Laws.RoundTrip.of_row rfl (by decide) fun w => readAs_row (n := 8) rfl (encLX_reads _ _ _ _ _ _ _ _ w) rfl
theorem Laws.RoundTrip.stx (h : Head) (c : XReg) (a : XReg) (b : XReg) (s : Fin 4) (sp : Space) (ty : Ty) : Laws.RoundTrip.Statement (.stx h c a b s sp ty) :=
  Laws.RoundTrip.of_row rfl (by decide) fun w => readAs_row (n := 8) rfl (encLXs_reads _ _ _ _ _ _ _ w) rfl
theorem Laws.RoundTrip.pref (h : Head) (a : XReg) (i : BitVec 24) (sp : Space) : Laws.RoundTrip.Statement (.pref h a i sp) :=
  Laws.RoundTrip.of_row rfl (by decide) fun w => readAs_row (n := 8) rfl (encLSp_reads _ _ _ _) rfl
theorem Laws.RoundTrip.div (h : Head) (d : XReg) (a : XReg) (b : XReg) (n : Fin 4096) : Laws.RoundTrip.Statement (.div h d a b n) :=
  Laws.RoundTrip.of_row rfl (by decide) fun w => readAs_row (n := 4) rfl (encDV_reads _ _ _ _ _) rfl
theorem Laws.RoundTrip.divu (h : Head) (d : XReg) (a : XReg) (b : XReg) (n : Fin 4096) : Laws.RoundTrip.Statement (.divu h d a b n) :=
  Laws.RoundTrip.of_row rfl (by decide) fun w => readAs_row (n := 4) rfl (encDV_reads _ _ _ _ _) rfl
theorem Laws.RoundTrip.rem (h : Head) (d : XReg) (a : XReg) (b : XReg) (n : Fin 4096) : Laws.RoundTrip.Statement (.rem h d a b n) :=
  Laws.RoundTrip.of_row rfl (by decide) fun w => readAs_row (n := 4) rfl (encDV_reads _ _ _ _ _) rfl
theorem Laws.RoundTrip.remu (h : Head) (d : XReg) (a : XReg) (b : XReg) (n : Fin 4096) : Laws.RoundTrip.Statement (.remu h d a b n) :=
  Laws.RoundTrip.of_row rfl (by decide) fun w => readAs_row (n := 4) rfl (encDV_reads _ _ _ _ _) rfl
theorem Laws.RoundTrip.fence (h : Head) (k : FenceKinds) (s : Scope) : Laws.RoundTrip.Statement (.fence h k s) :=
  Laws.RoundTrip.of_row rfl (by decide) fun w => readAs_row (n := 2) rfl (encFN_reads _ _ _ w) rfl
theorem Laws.RoundTrip.ldaq (h : Head) (d : XReg) (a : XReg) (i : BitVec 24) (sp : Space) (ty : Ty) (n : Fin 4096) (s : Scope) : Laws.RoundTrip.Statement (.ldaq h d a i sp ty n s) :=
  Laws.RoundTrip.of_row rfl (by decide) fun w => readAs_row (n := 8) rfl (encLQ_reads _ _ _ _ _ _ _ _ w) rfl
theorem Laws.RoundTrip.strl (h : Head) (c : XReg) (a : XReg) (i : BitVec 24) (sp : Space) (ty : Ty) (s : Scope) : Laws.RoundTrip.Statement (.strl h c a i sp ty s) :=
  Laws.RoundTrip.of_row rfl (by decide) fun w => readAs_row (n := 8) rfl (encSQ_reads _ _ _ _ _ _ _ w) rfl
theorem Laws.RoundTrip.amoswp (h : Head) (a : Amo) : Laws.RoundTrip.Statement (.amoswp h a) :=
  Laws.RoundTrip.of_row rfl (by decide) fun w => readAs_row (n := 8) rfl (encAM_reads false false false _ _ w) rfl
theorem Laws.RoundTrip.amoadd (h : Head) (a : Amo) : Laws.RoundTrip.Statement (.amoadd h a) :=
  Laws.RoundTrip.of_row rfl (by decide) fun w => readAs_row (n := 8) rfl (encAM_reads false false false _ _ w) rfl
theorem Laws.RoundTrip.amoand (h : Head) (a : Amo) : Laws.RoundTrip.Statement (.amoand h a) :=
  Laws.RoundTrip.of_row rfl (by decide) fun w => readAs_row (n := 8) rfl (encAM_reads false false false _ _ w) rfl
theorem Laws.RoundTrip.amoor (h : Head) (a : Amo) : Laws.RoundTrip.Statement (.amoor h a) :=
  Laws.RoundTrip.of_row rfl (by decide) fun w => readAs_row (n := 8) rfl (encAM_reads false false false _ _ w) rfl
theorem Laws.RoundTrip.amoxor (h : Head) (a : Amo) : Laws.RoundTrip.Statement (.amoxor h a) :=
  Laws.RoundTrip.of_row rfl (by decide) fun w => readAs_row (n := 8) rfl (encAM_reads false false false _ _ w) rfl
theorem Laws.RoundTrip.amomin (h : Head) (a : Amo) : Laws.RoundTrip.Statement (.amomin h a) :=
  Laws.RoundTrip.of_row rfl (by decide) fun w => readAs_row (n := 8) rfl (encAM_reads false true false _ _ w) rfl
theorem Laws.RoundTrip.amomax (h : Head) (a : Amo) : Laws.RoundTrip.Statement (.amomax h a) :=
  Laws.RoundTrip.of_row rfl (by decide) fun w => readAs_row (n := 8) rfl (encAM_reads false true false _ _ w) rfl
theorem Laws.RoundTrip.amocas (h : Head) (a : Amo) : Laws.RoundTrip.Statement (.amocas h a) :=
  Laws.RoundTrip.of_row rfl (by decide) fun w => readAs_row (n := 8) rfl (encAM_reads false false true _ _ w) rfl
theorem Laws.RoundTrip.amofadd (h : Head) (a : Amo) : Laws.RoundTrip.Statement (.amofadd h a) :=
  Laws.RoundTrip.of_row rfl (by decide) fun w => readAs_row (n := 8) rfl (encAM_reads true false false _ _ w) rfl
theorem Laws.RoundTrip.vamoAdd (h : Head) (a : Vamo) : Laws.RoundTrip.Statement (.vamoAdd h a) :=
  Laws.RoundTrip.of_row rfl (by decide) fun w => readAs_row (n := 8) rfl (encVA_reads false false _ _ w) rfl
theorem Laws.RoundTrip.vamoAnd (h : Head) (a : Vamo) : Laws.RoundTrip.Statement (.vamoAnd h a) :=
  Laws.RoundTrip.of_row rfl (by decide) fun w => readAs_row (n := 8) rfl (encVA_reads false false _ _ w) rfl
theorem Laws.RoundTrip.vamoOr (h : Head) (a : Vamo) : Laws.RoundTrip.Statement (.vamoOr h a) :=
  Laws.RoundTrip.of_row rfl (by decide) fun w => readAs_row (n := 8) rfl (encVA_reads false false _ _ w) rfl
theorem Laws.RoundTrip.vamoXor (h : Head) (a : Vamo) : Laws.RoundTrip.Statement (.vamoXor h a) :=
  Laws.RoundTrip.of_row rfl (by decide) fun w => readAs_row (n := 8) rfl (encVA_reads false false _ _ w) rfl
theorem Laws.RoundTrip.vamoMin (h : Head) (a : Vamo) : Laws.RoundTrip.Statement (.vamoMin h a) :=
  Laws.RoundTrip.of_row rfl (by decide) fun w => readAs_row (n := 8) rfl (encVA_reads false true _ _ w) rfl
theorem Laws.RoundTrip.vamoMax (h : Head) (a : Vamo) : Laws.RoundTrip.Statement (.vamoMax h a) :=
  Laws.RoundTrip.of_row rfl (by decide) fun w => readAs_row (n := 8) rfl (encVA_reads false true _ _ w) rfl
theorem Laws.RoundTrip.vamoFadd (h : Head) (a : Vamo) : Laws.RoundTrip.Statement (.vamoFadd h a) :=
  Laws.RoundTrip.of_row rfl (by decide) fun w => readAs_row (n := 8) rfl (encVA_reads true false _ _ w) rfl
theorem Laws.RoundTrip.append (h : Head) (d : XReg) (a : XReg) (v : VOp) (m : MReg) (sp : Space) (n : Fin 4096) : Laws.RoundTrip.Statement (.append h d a v m sp n) :=
  Laws.RoundTrip.of_row rfl (by decide) fun w => readAs_row (n := 8) rfl (encAP_reads _ _ _ _ _ _ _ w) rfl
theorem Laws.RoundTrip.qst (h : Head) (v : VOp) (q : QReg) (w : Bool) (ae : BitVec 4) (fb : Fin 4) (nb : Fin 4) : Laws.RoundTrip.Statement (.qst h v q w ae fb nb) :=
  Laws.RoundTrip.of_row rfl (by decide) fun w => readAs_row (n := 8) rfl (encQS_reads _ _ _ _ _ _ _ (of_decide_eq_true (and_left w)) (of_decide_eq_true (and_right w))) rfl
theorem Laws.RoundTrip.bdec (h : Head) (v : VOp) (a : XReg) (i : BitVec 20) (sp : Space) (w : Bool) (fb : Fin 4) (nb : Fin 4) (n : Fin 4096) : Laws.RoundTrip.Statement (.bdec h v a i sp w fb nb n) :=
  Laws.RoundTrip.of_row rfl (by decide) fun w => readAs_row (n := 8) rfl (encBD8_reads _ _ _ _ _ _ _ _ _ (of_decide_eq_true w)) rfl
theorem Laws.RoundTrip.bhdr (h : Head) (d : XReg) (a : XReg) (sp : Space) (w : Fin 3) (n : Fin 4096) : Laws.RoundTrip.Statement (.bhdr h d a sp w n) :=
  Laws.RoundTrip.of_row rfl (by decide) fun w => readAs_row (n := 4) rfl (encBH_reads _ _ _ _ _ _) rfl
theorem Laws.RoundTrip.cvt (h : Head) (d : VOp) (a : VOp) (m : MReg) (k : CFmt) : Laws.RoundTrip.Statement (.cvt h d a m k) :=
  Laws.RoundTrip.of_row rfl (by decide) fun w => readAs_row (n := 4) rfl (encCT_reads _ _ _ _ _ (of_decide_eq_true w)) rfl
theorem Laws.RoundTrip.vadd (h : Head) (a : VV) : Laws.RoundTrip.Statement (.vadd h a) :=
  Laws.RoundTrip.of_row rfl (by decide) fun w => readAs_row (n := 8) rfl (encVVg_plain _ _ _ w) rfl
theorem Laws.RoundTrip.vsub (h : Head) (a : VV) : Laws.RoundTrip.Statement (.vsub h a) :=
  Laws.RoundTrip.of_row rfl (by decide) fun w => readAs_row (n := 8) rfl (encVVg_plain _ _ _ w) rfl
theorem Laws.RoundTrip.vmul (h : Head) (a : VV) : Laws.RoundTrip.Statement (.vmul h a) :=
  Laws.RoundTrip.of_row rfl (by decide) fun w => readAs_row (n := 8) rfl (encVVg_plain _ _ _ w) rfl
theorem Laws.RoundTrip.vfma (h : Head) (a : VV) (c : VOp) : Laws.RoundTrip.Statement (.vfma h a c) :=
  Laws.RoundTrip.of_row rfl (by decide) fun w => readAs_row (n := 8) rfl (encVVg_reads true false 0 [.f32] _ _ _ 0 0 (one_of_single w) (.inl rfl) (Nat.le_refl 0) (by decide) (by decide) (.inr rfl)) rfl
theorem Laws.RoundTrip.vmin (h : Head) (a : VV) : Laws.RoundTrip.Statement (.vmin h a) :=
  Laws.RoundTrip.of_row rfl (by decide) fun w => readAs_row (n := 8) rfl (encVVg_plain _ _ _ w) rfl
theorem Laws.RoundTrip.vmax (h : Head) (a : VV) : Laws.RoundTrip.Statement (.vmax h a) :=
  Laws.RoundTrip.of_row rfl (by decide) fun w => readAs_row (n := 8) rfl (encVVg_plain _ _ _ w) rfl
theorem Laws.RoundTrip.vadds (h : Head) (a : VV) : Laws.RoundTrip.Statement (.vadds h a) :=
  Laws.RoundTrip.of_row rfl (by decide) fun w => readAs_row (n := 8) rfl (encVVg_plain _ _ _ (one_of_single w)) rfl
theorem Laws.RoundTrip.vand (h : Head) (a : VV) : Laws.RoundTrip.Statement (.vand h a) :=
  Laws.RoundTrip.of_row rfl (by decide) fun w => readAs_row (n := 8) rfl (encVVg_plain _ _ _ (one_of_single w)) rfl
theorem Laws.RoundTrip.vor (h : Head) (a : VV) : Laws.RoundTrip.Statement (.vor h a) :=
  Laws.RoundTrip.of_row rfl (by decide) fun w => readAs_row (n := 8) rfl (encVVg_plain _ _ _ (one_of_single w)) rfl
theorem Laws.RoundTrip.vxor (h : Head) (a : VV) : Laws.RoundTrip.Statement (.vxor h a) :=
  Laws.RoundTrip.of_row rfl (by decide) fun w => readAs_row (n := 8) rfl (encVVg_plain _ _ _ (one_of_single w)) rfl
theorem Laws.RoundTrip.vshl (h : Head) (a : VV) : Laws.RoundTrip.Statement (.vshl h a) :=
  Laws.RoundTrip.of_row rfl (by decide) fun w => readAs_row (n := 8) rfl (encVVs_reads 1 _ (fun a _ => .vshl h a) _ false (one_of_single w) (by decide)) rfl
theorem Laws.RoundTrip.vshr (h : Head) (a : VV) : Laws.RoundTrip.Statement (.vshr h a) :=
  Laws.RoundTrip.of_row rfl (by decide) fun w => readAs_row (n := 8) rfl (encVVs_reads 1 _ (fun a _ => .vshr h a) _ false w (by decide)) rfl
theorem Laws.RoundTrip.vrshr (h : Head) (a : VV) (n : Bool) : Laws.RoundTrip.Statement (.vrshr h a n) :=
  Laws.RoundTrip.of_row rfl (by decide) fun w => readAs_row (n := 8) rfl (encVVs_reads 3 _ _ _ _ (one_of_single w) (by have := b01_lt n; omega)) rfl
theorem Laws.RoundTrip.vdot2 (h : Head) (a : VV) : Laws.RoundTrip.Statement (.vdot2 h a) :=
  Laws.RoundTrip.of_row rfl (by decide) fun w => readAs_row (n := 8) rfl (encVVg_plain _ _ _ (one_of_single w)) rfl
theorem Laws.RoundTrip.vadd2 (h : Head) (a : VV) (s : Bool) : Laws.RoundTrip.Statement (.vadd2 h a s) :=
  Laws.RoundTrip.of_row rfl (by decide) fun w => readAs_row (n := 8) rfl (by have k := encVVg_reads false false 1 [.s16] (fun a _ o _ => .vadd2 h a (bit1 o)) _ ⟨false, .row, 0⟩ (b01 s) 0 (one_of_single w) (.inr rfl) (Nat.le_of_lt_succ (b01_lt s)) (Nat.lt_of_lt_of_le (b01_lt s) (by decide)) (by decide) (.inr rfl); simp only [bit1_b01] at k; exact k) rfl
theorem Laws.RoundTrip.vrq (h : Head) (a : VV) : Laws.RoundTrip.Statement (.vrq h a) :=
  Laws.RoundTrip.of_row rfl (by decide) fun w => readAs_row (n := 8) rfl (encVVg_plain _ _ _ w) rfl
theorem Laws.RoundTrip.vabs (h : Head) (a : VU) : Laws.RoundTrip.Statement (.vabs h a) :=
  Laws.RoundTrip.of_row rfl (by decide) fun w => readAs_row (n := 4) rfl (encVU_reads false _ (fun a _ => .vabs h a) _ false w (.inr rfl)) rfl
theorem Laws.RoundTrip.vsqrt (h : Head) (a : VU) : Laws.RoundTrip.Statement (.vsqrt h a) :=
  Laws.RoundTrip.of_row rfl (by decide) fun w => readAs_row (n := 4) rfl (encVU_reads false _ (fun a _ => .vsqrt h a) _ false (is_single w) (.inr rfl)) rfl
theorem Laws.RoundTrip.vexp (h : Head) (a : VU) : Laws.RoundTrip.Statement (.vexp h a) :=
  Laws.RoundTrip.of_row rfl (by decide) fun w => readAs_row (n := 4) rfl (encVU_reads false _ (fun a _ => .vexp h a) _ false (is_single w) (.inr rfl)) rfl
theorem Laws.RoundTrip.vrsq (h : Head) (a : VU) : Laws.RoundTrip.Statement (.vrsq h a) :=
  Laws.RoundTrip.of_row rfl (by decide) fun w => readAs_row (n := 4) rfl (encVU_reads false _ (fun a _ => .vrsq h a) _ false (is_single w) (.inr rfl)) rfl
theorem Laws.RoundTrip.vrcp (h : Head) (a : VU) : Laws.RoundTrip.Statement (.vrcp h a) :=
  Laws.RoundTrip.of_row rfl (by decide) fun w => readAs_row (n := 4) rfl (encVU_reads false _ (fun a _ => .vrcp h a) _ false (is_single w) (.inr rfl)) rfl
theorem Laws.RoundTrip.vmov (h : Head) (a : VU) : Laws.RoundTrip.Statement (.vmov h a) :=
  Laws.RoundTrip.of_row rfl (by decide) fun w => readAs_row (n := 4) rfl (encVU_reads false _ (fun a _ => .vmov h a) _ false (is_single w) (.inr rfl)) rfl
theorem Laws.RoundTrip.vcvti (h : Head) (a : VU) (q : Bool) : Laws.RoundTrip.Statement (.vcvti h a q) :=
  Laws.RoundTrip.of_row rfl (by decide) fun w => readAs_row (n := 4) rfl (encVU_reads _ _ _ _ _ w (.inl rfl)) rfl
theorem Laws.RoundTrip.vrsum (h : Head) (d : XReg) (a : VOp) (ty : Ty) (m : MReg) : Laws.RoundTrip.Statement (.vrsum h d a ty m) :=
  Laws.RoundTrip.of_row rfl (by decide) fun w => readAs_row (n := 4) rfl (encVR_reads _ _ _ _ _ w) rfl
theorem Laws.RoundTrip.vrmax (h : Head) (d : XReg) (a : VOp) (ty : Ty) (m : MReg) : Laws.RoundTrip.Statement (.vrmax h d a ty m) :=
  Laws.RoundTrip.of_row rfl (by decide) fun w => readAs_row (n := 4) rfl (encVR_reads _ _ _ _ _ w) rfl
theorem Laws.RoundTrip.vrmin (h : Head) (d : XReg) (a : VOp) (ty : Ty) (m : MReg) : Laws.RoundTrip.Statement (.vrmin h d a ty m) :=
  Laws.RoundTrip.of_row rfl (by decide) fun w => readAs_row (n := 4) rfl (encVR_reads _ _ _ _ _ w) rfl
theorem Laws.RoundTrip.vcmpeq (h : Head) (a : VCmp) : Laws.RoundTrip.Statement (.vcmpeq h a) :=
  Laws.RoundTrip.of_row rfl (by decide) fun w => readAs_row (n := 8) rfl (encVVc_reads _ _ w) rfl
theorem Laws.RoundTrip.vcmplt (h : Head) (a : VCmp) : Laws.RoundTrip.Statement (.vcmplt h a) :=
  Laws.RoundTrip.of_row rfl (by decide) fun w => readAs_row (n := 8) rfl (encVVc_reads _ _ w) rfl
theorem Laws.RoundTrip.vcmple (h : Head) (a : VCmp) : Laws.RoundTrip.Statement (.vcmple h a) :=
  Laws.RoundTrip.of_row rfl (by decide) fun w => readAs_row (n := 8) rfl (encVVc_reads _ _ w) rfl
theorem Laws.RoundTrip.vsel (h : Head) (a : VV) : Laws.RoundTrip.Statement (.vsel h a) :=
  Laws.RoundTrip.of_row rfl (by decide) fun w => readAs_row (n := 8) rfl (encVVg_plain _ _ _ (one_of_single w)) rfl
theorem Laws.RoundTrip.mand (h : Head) (d : MReg) (a : MReg) (b : MReg) : Laws.RoundTrip.Statement (.mand h d a b) :=
  Laws.RoundTrip.of_row rfl (by decide) fun w => readAs_row (n := 2) rfl (encM3_reads _ _ _ _) rfl
theorem Laws.RoundTrip.mor (h : Head) (d : MReg) (a : MReg) (b : MReg) : Laws.RoundTrip.Statement (.mor h d a b) :=
  Laws.RoundTrip.of_row rfl (by decide) fun w => readAs_row (n := 2) rfl (encM3_reads _ _ _ _) rfl
theorem Laws.RoundTrip.mxor (h : Head) (d : MReg) (a : MReg) (b : MReg) : Laws.RoundTrip.Statement (.mxor h d a b) :=
  Laws.RoundTrip.of_row rfl (by decide) fun w => readAs_row (n := 2) rfl (encM3_reads _ _ _ _) rfl
theorem Laws.RoundTrip.mnot (h : Head) (d : MReg) (a : MReg) : Laws.RoundTrip.Statement (.mnot h d a) :=
  Laws.RoundTrip.of_row rfl (by decide) fun w => readAs_row (n := 2) rfl (encM2_reads _ _ _) rfl
theorem Laws.RoundTrip.mpop (h : Head) (d : XReg) (a : MReg) : Laws.RoundTrip.Statement (.mpop h d a) :=
  Laws.RoundTrip.of_row rfl (by decide) fun w => readAs_row (n := 2) rfl (encMP_reads _ _ _) rfl
theorem Laws.RoundTrip.msetn (h : Head) (d : MReg) (a : XReg) : Laws.RoundTrip.Statement (.msetn h d a) :=
  Laws.RoundTrip.of_row rfl (by decide) fun w => readAs_row (n := 2) rfl (encMS_reads _ _ _) rfl
theorem Laws.RoundTrip.vslideup (h : Head) (a : VV) (n : Fin 256) : Laws.RoundTrip.Statement (.vslideup h a n) :=
  Laws.RoundTrip.of_row rfl (by decide) fun w => readAs_row (n := 8) rfl (by have k := encVVg_reads false true 0 [.w, .s16] (fun a _ _ n => .vslideup h a (Fin.ofNat 256 n)) _ ⟨false, .row, 0⟩ 0 n.val w (.inr rfl) (Nat.le_refl 0) (by decide) n.isLt (.inl rfl); simp only [fin_ofNat_val] at k; exact k) rfl
theorem Laws.RoundTrip.vslidedn (h : Head) (a : VV) (n : Fin 256) : Laws.RoundTrip.Statement (.vslidedn h a n) :=
  Laws.RoundTrip.of_row rfl (by decide) fun w => readAs_row (n := 8) rfl (by have k := encVVg_reads false true 0 [.w, .s16] (fun a _ _ n => .vslidedn h a (Fin.ofNat 256 n)) _ ⟨false, .row, 0⟩ 0 n.val w (.inr rfl) (Nat.le_refl 0) (by decide) n.isLt (.inl rfl); simp only [fin_ofNat_val] at k; exact k) rfl
theorem Laws.RoundTrip.vperm (h : Head) (a : VV) : Laws.RoundTrip.Statement (.vperm h a) :=
  Laws.RoundTrip.of_row rfl (by decide) fun w => readAs_row (n := 8) rfl (encVVg_plain _ _ _ (one_of_single w)) rfl
theorem Laws.RoundTrip.vbcast (h : Head) (d : VOp) (a : XReg) (m : MReg) : Laws.RoundTrip.Statement (.vbcast h d a m) :=
  Laws.RoundTrip.of_row rfl (by decide) fun w => readAs_row (n := 4) rfl (encVBC_reads _ _ _ _) rfl
theorem Laws.RoundTrip.vld (h : Head) (a : VM) (i : BitVec 20) : Laws.RoundTrip.Statement (.vld h a i) :=
  Laws.RoundTrip.of_row rfl (by decide) fun w => readAs_row (n := 8) rfl (encVM_reads true false false _ (fun a d _ _ => .vld h a d) _ _ false 0 w (.inl rfl) (.inr rfl) (.inr rfl)) rfl
theorem Laws.RoundTrip.vst (h : Head) (a : VM) (i : BitVec 20) (o : Bool) : Laws.RoundTrip.Statement (.vst h a i o) :=
  Laws.RoundTrip.of_row rfl (by decide) fun w => readAs_row (n := 8) rfl (encVM_reads false true false _ (fun a d o _ => .vst h a d o) _ _ _ 0 (and_left w) (.inr (of_decide_eq_true (and_right w))) (.inl rfl) (.inr rfl)) rfl
theorem Laws.RoundTrip.vlds (h : Head) (a : VM) (b : XReg) (i : BitVec 20) : Laws.RoundTrip.Statement (.vlds h a b i) :=
  Laws.RoundTrip.of_row rfl (by decide) fun w => readAs_row (n := 8) rfl (encVMS_reads true false (fun a b d _ => .vlds h a b d) _ _ _ false w (.inl rfl) (.inr rfl)) rfl
theorem Laws.RoundTrip.vsts (h : Head) (a : VM) (b : XReg) (i : BitVec 20) (o : Bool) : Laws.RoundTrip.Statement (.vsts h a b i o) :=
  Laws.RoundTrip.of_row rfl (by decide) fun w => readAs_row (n := 8) rfl (encVMS_reads false true _ _ _ _ _ (and_left w) (.inr (of_decide_eq_true (and_right w))) (.inl rfl)) rfl
theorem Laws.RoundTrip.vld6 (h : Head) (a : VM) (i : BitVec 20) (b : Fin 4) : Laws.RoundTrip.Statement (.vld6 h a i b) :=
  Laws.RoundTrip.of_row rfl (by decide) fun w => readAs_row (n := 8) rfl (encVM_reads true false true _ (fun a d _ b => .vld6 h a d b) _ _ false _ w (.inl rfl) (.inr rfl) (.inl rfl)) rfl
theorem Laws.RoundTrip.vgath (h : Head) (a : VM) (i : VX) : Laws.RoundTrip.Statement (.vgath h a i) :=
  Laws.RoundTrip.of_row rfl (by decide) fun w => readAs_row (n := 8) rfl (encVMX_reads true false (fun a i _ => .vgath h a i) _ _ false w (.inl rfl) (.inr rfl)) rfl
theorem Laws.RoundTrip.vscat (h : Head) (a : VM) (i : VX) (o : Bool) : Laws.RoundTrip.Statement (.vscat h a i o) :=
  Laws.RoundTrip.of_row rfl (by decide) fun w => readAs_row (n := 8) rfl (encVMX_reads false true _ _ _ _ (and_left w) (.inr (of_decide_eq_true (and_right w))) (.inl rfl)) rfl
theorem Laws.RoundTrip.shape (h : Head) (d : XReg) (a : XReg) (sp : Space) : Laws.RoundTrip.Statement (.shape h d a sp) :=
  Laws.RoundTrip.of_row rfl (by decide) fun w => readAs_row (n := 4) rfl (encSH_reads _ _ _ _) rfl
theorem Laws.RoundTrip.sfree (h : Head) (a : XReg) : Laws.RoundTrip.Statement (.sfree h a) :=
  Laws.RoundTrip.of_row rfl (by decide) fun w => readAs_row (n := 2) rfl (encX1_reads _ _) rfl
theorem Laws.RoundTrip.stream (h : Head) (s : Fin 4) (q : QReg) (a : XReg) (b : XReg) (sp : Space) (c : Option XReg) : Laws.RoundTrip.Statement (.stream h s q a b sp c) :=
  Laws.RoundTrip.of_row rfl (by decide) fun w => readAs_row (n := 8) rfl (encST_reads _ _ _ _ _ _ _) rfl
theorem Laws.RoundTrip.swait (h : Head) (d : XReg) (s : Fin 4) : Laws.RoundTrip.Statement (.swait h d s) :=
  Laws.RoundTrip.of_row rfl (by decide) fun w => readAs_row (n := 2) rfl (encSW_reads _ _ _) rfl
theorem Laws.RoundTrip.sstop (h : Head) (s : Fin 4) : Laws.RoundTrip.Statement (.sstop h s) :=
  Laws.RoundTrip.of_row rfl (by decide) fun w => readAs_row (n := 2) rfl (encSP_reads _ _) rfl
theorem Laws.RoundTrip.qcfg (h : Head) (q : QReg) (b : Fin 256) (sz : Fin 8) (es : Fin 32) : Laws.RoundTrip.Statement (.qcfg h q b sz es) :=
  Laws.RoundTrip.of_row rfl (by decide) fun w => readAs_row (n := 8) rfl (encQC_reads _ _ _ _ _ w) rfl
theorem Laws.RoundTrip.qpush (h : Head) (q : QReg) (v : VOp) (k : CFmt) : Laws.RoundTrip.Statement (.qpush h q v k) :=
  Laws.RoundTrip.of_row rfl (by decide) fun w => readAs_row (n := 4) rfl (encQP_reads _ _ _ _) rfl
theorem Laws.RoundTrip.qpop (h : Head) (v : RowOp) (q : QReg) (k : CFmt) : Laws.RoundTrip.Statement (.qpop h v q k) :=
  Laws.RoundTrip.of_row rfl (by decide) fun w => readAs_row (n := 4) rfl (encQPr_reads _ _ _ _) rfl
theorem Laws.RoundTrip.qcnt (h : Head) (d : XReg) (q : QReg) : Laws.RoundTrip.Statement (.qcnt h d q) :=
  Laws.RoundTrip.of_row rfl (by decide) fun w => readAs_row (n := 2) rfl (encQN_reads _ _ _) rfl
theorem Laws.RoundTrip.qfence (h : Head) (m : BitVec 8) : Laws.RoundTrip.Statement (.qfence h m) :=
  Laws.RoundTrip.of_row rfl (by decide) fun w => readAs_row (n := 2) rfl (encQF_reads _ _ (of_decide_eq_true w)) rfl
theorem Laws.RoundTrip.copy (h : Head) (a : XReg) (b : XReg) (c : XReg) (m : MReg) (ds : Space) (ss : Space) (xt : Option XReg) (xe : Option XReg) : Laws.RoundTrip.Statement (.copy h a b c m ds ss xt xe) :=
  Laws.RoundTrip.of_row rfl (by decide) fun w => readAs_row (n := 8) rfl (encCP_reads _ _ _ _ _ _ _ _ _ (of_decide_eq_true (and_left w)) (of_decide_eq_true (and_right w))) rfl
theorem Laws.RoundTrip.tset (h : Head) (d : PReg) (c : PReg) (a : XReg) (b : XReg) (fr : TileState) (dst : TileState) : Laws.RoundTrip.Statement (.tset h d c a b fr dst) :=
  Laws.RoundTrip.of_row rfl (by decide) fun w => readAs_row (n := 4) rfl (encTS_reads _ _ _ _ _ _ _ (and_left w) (not_true (and_right w))) rfl
theorem Laws.RoundTrip.tget (h : Head) (d : XReg) (a : XReg) : Laws.RoundTrip.Statement (.tget h d a) :=
  Laws.RoundTrip.of_row rfl (by decide) fun w => readAs_row (n := 4) rfl (encRR_reads _ _ _) rfl
theorem Laws.RoundTrip.twait (h : Head) (a : XReg) (s : TileState) : Laws.RoundTrip.Statement (.twait h a s) :=
  Laws.RoundTrip.of_row rfl (by decide) fun w => readAs_row (n := 4) rfl (encTW_reads _ _ _) rfl
theorem Laws.RoundTrip.opaBf (h : Head) (w : Window) (qa : QReg) (qb : QReg) : Laws.RoundTrip.Statement (.opaBf h w qa qb) :=
  Laws.RoundTrip.of_row rfl (by decide) fun w => readAs_row (n := 4) rfl (encMW_reads true _ _ _ _ w (.inl rfl)) rfl
theorem Laws.RoundTrip.opaH (h : Head) (w : Window) (qa : QReg) (qb : QReg) : Laws.RoundTrip.Statement (.opaH h w qa qb) :=
  Laws.RoundTrip.of_row rfl (by decide) fun w => readAs_row (n := 4) rfl (encMW_reads true _ _ _ _ w (.inl rfl)) rfl
theorem Laws.RoundTrip.opaN6 (h : Head) (w : Window) (qa : QReg) (qb : QReg) : Laws.RoundTrip.Statement (.opaN6 h w qa qb) :=
  Laws.RoundTrip.of_row rfl (by decide) fun w => readAs_row (n := 4) rfl (encMW_reads true _ _ _ _ w (.inl rfl)) rfl
theorem Laws.RoundTrip.stld (h : Head) (q : QReg) (k : Bool) : Laws.RoundTrip.Statement (.stld h q k) :=
  Laws.RoundTrip.of_row rfl (by decide) fun w => readAs_row (n := 4) rfl (encSL4_reads _ _ _) rfl
theorem Laws.RoundTrip.vmt (h : Head) (v : RowOp) (q : QReg) (s : Fin 4) : Laws.RoundTrip.Statement (.vmt h v q s) :=
  Laws.RoundTrip.of_row rfl (by decide) fun w => readAs_row (n := 4) rfl (encVT_reads _ _ _ _) rfl
theorem Laws.RoundTrip.gzero (h : Head) (w : Window) : Laws.RoundTrip.Statement (.gzero h w) :=
  Laws.RoundTrip.of_row rfl (by decide) fun w => readAs_row (n := 4) rfl (encMW_reads false (fun w _ _ => .gzero h w) _ 0 0 w (.inr ⟨rfl, rfl⟩)) rfl
theorem Laws.RoundTrip.gwait (h : Head) (a : Bool) (b : Bool) : Laws.RoundTrip.Statement (.gwait h a b) :=
  Laws.RoundTrip.of_row rfl (by decide) fun w => readAs_row (n := 2) rfl (encGW_reads _ _ _ w) rfl
theorem Laws.RoundTrip.spawn (h : Head) (a : XReg) (c : Option (Fin 4)) : Laws.RoundTrip.Statement (.spawn h a c) :=
  Laws.RoundTrip.of_row rfl (by decide) fun w => readAs_row (n := 4) rfl (encSPN_reads (.spawn h) (.spawnRes h) _ _ false) rfl
theorem Laws.RoundTrip.spawnRes (h : Head) (a : XReg) (c : Option (Fin 4)) : Laws.RoundTrip.Statement (.spawnRes h a c) :=
  Laws.RoundTrip.of_row rfl (by decide) fun w => readAs_row (n := 4) rfl (encSPN_reads (.spawn h) (.spawnRes h) _ _ true) rfl
theorem Laws.RoundTrip.suspend (h : Head) (a : XReg) : Laws.RoundTrip.Statement (.suspend h a) :=
  Laws.RoundTrip.of_row rfl (by decide) fun w => readAs_row (n := 4) rfl (encX4_reads _ _) rfl
theorem Laws.RoundTrip.yield (h : Head) : Laws.RoundTrip.Statement (.yield h) :=
  Laws.RoundTrip.of_row rfl (by decide) fun w => readAs_row (n := 0) rfl (dec0_reads _) rfl
theorem Laws.RoundTrip.exit (h : Head) : Laws.RoundTrip.Statement (.exit h) :=
  Laws.RoundTrip.of_row rfl (by decide) fun w => readAs_row (n := 0) rfl (dec0_reads _) rfl
theorem Laws.RoundTrip.fwait (h : Head) (d : PReg) (c : PReg) (a : XReg) : Laws.RoundTrip.Statement (.fwait h d c a) :=
  Laws.RoundTrip.of_row rfl (by decide) fun w => readAs_row (n := 4) rfl (encFW_reads _ _ _ _ (not_true w)) rfl
theorem Laws.RoundTrip.fres (h : Head) (a : XReg) (b : XReg) : Laws.RoundTrip.Statement (.fres h a b) :=
  Laws.RoundTrip.of_row rfl (by decide) fun w => readAs_row (n := 4) rfl (encRR_reads _ _ _) rfl
theorem Laws.RoundTrip.ffail (h : Head) (a : XReg) (b : XReg) : Laws.RoundTrip.Statement (.ffail h a b) :=
  Laws.RoundTrip.of_row rfl (by decide) fun w => readAs_row (n := 4) rfl (encRR_reads _ _ _) rfl
theorem Laws.RoundTrip.finopen (h : Head) (d : XReg) (a : XReg) : Laws.RoundTrip.Statement (.finopen h d a) :=
  Laws.RoundTrip.of_row rfl (by decide) fun w => readAs_row (n := 4) rfl (encRR_reads _ _ _) rfl
theorem Laws.RoundTrip.finend (h : Head) (a : XReg) : Laws.RoundTrip.Statement (.finend h a) :=
  Laws.RoundTrip.of_row rfl (by decide) fun w => readAs_row (n := 2) rfl (encX1_reads _ _) rfl
theorem Laws.RoundTrip.finwait (h : Head) (a : XReg) : Laws.RoundTrip.Statement (.finwait h a) :=
  Laws.RoundTrip.of_row rfl (by decide) fun w => readAs_row (n := 2) rfl (encX1_reads _ _) rfl
theorem Laws.RoundTrip.farm (h : Head) (a : XReg) (b : XReg) (c : XReg) (e : XReg) (d : BitVec 27) (i : Fin 32) : Laws.RoundTrip.Statement (.farm h a b c e d i) :=
  Laws.RoundTrip.of_row rfl (by decide) fun w => readAs_row (n := 8) rfl (encFM_reads _ _ _ _ _ _ _) rfl
theorem Laws.RoundTrip.setvl (h : Head) (d : XReg) (p : PReg) (c : PReg) (a : XReg) : Laws.RoundTrip.Statement (.setvl h d p c a) :=
  Laws.RoundTrip.of_row rfl (by decide) fun w => readAs_row (n := 4) rfl (encSV_reads _ _ _ _ _ (not_true w)) rfl
theorem Laws.RoundTrip.launch (h : Head) (d : XReg) (a : XReg) : Laws.RoundTrip.Statement (.launch h d a) :=
  Laws.RoundTrip.of_row rfl (by decide) fun w => readAs_row (n := 4) rfl (encRR_reads _ _ _) rfl
theorem Laws.RoundTrip.txabort (h : Head) (a : XReg) (r : Bool) : Laws.RoundTrip.Statement (.txabort h a r) :=
  Laws.RoundTrip.of_row rfl (by decide) fun w => readAs_row (n := 2) rfl (encTXA_reads _ _ _) rfl
theorem Laws.RoundTrip.txwaitOldest (h : Head) (d : XReg) : Laws.RoundTrip.Statement (.txwaitOldest h d) :=
  Laws.RoundTrip.of_row rfl (by decide) fun w => readAs_row (n := 4) rfl (encTXW_reads (.txwaitOldest h) (.txwaitPoll h) _ false) rfl
theorem Laws.RoundTrip.txwaitPoll (h : Head) (d : XReg) : Laws.RoundTrip.Statement (.txwaitPoll h d) :=
  Laws.RoundTrip.of_row rfl (by decide) fun w => readAs_row (n := 4) rfl (encTXW_reads (.txwaitOldest h) (.txwaitPoll h) _ true) rfl
theorem Laws.RoundTrip.mfs (h : Head) (d : XReg) (r : SysReg) : Laws.RoundTrip.Statement (.mfs h d r) :=
  Laws.RoundTrip.of_row rfl (by decide) fun w => readAs_row (n := 4) rfl (encSR_readsMFS _ _ _) rfl
theorem Laws.RoundTrip.mts (h : Head) (r : SysReg) (a : XReg) : Laws.RoundTrip.Statement (.mts h r a) :=
  Laws.RoundTrip.of_row rfl (by decide) fun w => readAs_row (n := 4) rfl (encSR_readsMTS _ _ _ _ w) rfl
theorem Laws.RoundTrip.mtsGmode (h : Head) (a : XReg) : Laws.RoundTrip.Statement (.mtsGmode h a) :=
  Laws.RoundTrip.of_row rfl (by decide) fun w => readAs_row (n := 4) rfl (encSR_readsGmode _ _ _) rfl
theorem Laws.RoundTrip.ckpt (h : Head) : Laws.RoundTrip.Statement (.ckpt h) :=
  Laws.RoundTrip.of_row rfl (by decide) fun w => readAs_row (n := 0) rfl (dec0_reads _) rfl
theorem Laws.RoundTrip.step (h : Head) : Laws.RoundTrip.Statement (.step h) :=
  Laws.RoundTrip.of_row rfl (by decide) fun w => readAs_row (n := 0) rfl (dec0_reads _) rfl
theorem Laws.RoundTrip.trap (h : Head) (c : BitVec 16) : Laws.RoundTrip.Statement (.trap h c) :=
  Laws.RoundTrip.of_row rfl (by decide) fun w => readAs_row (n := 2) rfl (toNat_readsTB _ _) rfl
theorem Laws.RoundTrip.break (h : Head) (c : BitVec 16) : Laws.RoundTrip.Statement (.break h c) :=
  Laws.RoundTrip.of_row rfl (by decide) fun w => readAs_row (n := 2) rfl (toNat_readsTB _ _) rfl
theorem Laws.RoundTrip.eret (h : Head) : Laws.RoundTrip.Statement (.eret h) :=
  Laws.RoundTrip.of_row rfl (by decide) fun w => readAs_row (n := 0) rfl (dec0_reads _) rfl
theorem Laws.RoundTrip.icinv (h : Head) (a : XReg) (b : XReg) : Laws.RoundTrip.Statement (.icinv h a b) :=
  Laws.RoundTrip.of_row rfl (by decide) fun w => readAs_row (n := 8) rfl (encIC_reads _ _ _ _) rfl
theorem Laws.RoundTrip.icinvAll (h : Head) : Laws.RoundTrip.Statement (.icinvAll h) :=
  Laws.RoundTrip.of_row rfl (by decide) fun w => readAs_row (n := 8) rfl (encIC_readsAll _ _) rfl
theorem Laws.RoundTrip.unassignedOpcode (h : Head) (op : BitVec 9) (t : Fin 4) : Laws.RoundTrip.Statement (.unassignedOpcode h op t) := by
  intro w op' t' h' tail' e
  cases e
  have w2 : (!assigned op.toNat) = true ∧ decide (op ≠ 0) = true := Bool.and_eq_true_iff.mp w
  have h0 : op.toNat ≠ 0 := toNat_ne_zero (of_decide_eq_true w2.2)
  have hf := findRow_assigned h op
  rw [not_true w2.1] at hf
  have hn : findRow (rowsFor h op.toNat) op.toNat = none := by simpa using hf
  refine ⟨Nat.pos_of_ne_zero h0, op.isLt, t.isLt, Nat.two_pow_pos _, ?_⟩
  simp [readAs, hn, h0]
theorem Laws.RoundTrip.icacheFill (hart : HartId) : Laws.RoundTrip.Statement (.icacheFill hart) := Laws.RoundTrip.of_none rfl
theorem Laws.RoundTrip.fetchWalkEnd (hart : HartId) : Laws.RoundTrip.Statement (.fetchWalkEnd hart) := Laws.RoundTrip.of_none rfl
theorem Laws.RoundTrip.dataWalkEnd (hart : HartId) (id : Nat) : Laws.RoundTrip.Statement (.dataWalkEnd hart id) := Laws.RoundTrip.of_none rfl
theorem Laws.RoundTrip.landing (core : CoreId) : Laws.RoundTrip.Statement (.landing core) := Laws.RoundTrip.of_none rfl
theorem Laws.RoundTrip.dataArrival (core : CoreId) : Laws.RoundTrip.Statement (.dataArrival core) := Laws.RoundTrip.of_none rfl
theorem Laws.RoundTrip.memoryTimeout (hart : HartId) (id : Nat) : Laws.RoundTrip.Statement (.memoryTimeout hart id) := Laws.RoundTrip.of_none rfl
theorem Laws.RoundTrip.storePerform (id : Nat) : Laws.RoundTrip.Statement (.storePerform id) := Laws.RoundTrip.of_none rfl
theorem Laws.RoundTrip.atomicPerform (id : Nat) : Laws.RoundTrip.Statement (.atomicPerform id) := Laws.RoundTrip.of_none rfl
theorem Laws.RoundTrip.checkpointComplete (hart : HartId) : Laws.RoundTrip.Statement (.checkpointComplete hart) := Laws.RoundTrip.of_none rfl
theorem Laws.RoundTrip.bundleLimitCheckpoint (hart : HartId) : Laws.RoundTrip.Statement (.bundleLimitCheckpoint hart) := Laws.RoundTrip.of_none rfl
theorem Laws.RoundTrip.welkinResume (hart : HartId) : Laws.RoundTrip.Statement (.welkinResume hart) := Laws.RoundTrip.of_none rfl
theorem Laws.RoundTrip.engineFire (core : CoreId) (id : Nat) : Laws.RoundTrip.Statement (.engineFire core id) := Laws.RoundTrip.of_none rfl
theorem Laws.RoundTrip.engineComplete (core : CoreId) (id : Nat) : Laws.RoundTrip.Statement (.engineComplete core id) := Laws.RoundTrip.of_none rfl
theorem Laws.RoundTrip.qpushFire (core : CoreId) (id : Nat) : Laws.RoundTrip.Statement (.qpushFire core id) := Laws.RoundTrip.of_none rfl
theorem Laws.RoundTrip.qpopFire (core : CoreId) (id : Nat) : Laws.RoundTrip.Statement (.qpopFire core id) := Laws.RoundTrip.of_none rfl
theorem Laws.RoundTrip.qpopGroupWrite (core : CoreId) (id : Nat) : Laws.RoundTrip.Statement (.qpopGroupWrite core id) := Laws.RoundTrip.of_none rfl
theorem Laws.RoundTrip.vWriteComplete (core : CoreId) (id : Nat) : Laws.RoundTrip.Statement (.vWriteComplete core id) := Laws.RoundTrip.of_none rfl
theorem Laws.RoundTrip.qstBlockPush (core : CoreId) (id : Nat) : Laws.RoundTrip.Statement (.qstBlockPush core id) := Laws.RoundTrip.of_none rfl
theorem Laws.RoundTrip.recheckExecute (core : CoreId) (id : Nat) (agree : Bool) : Laws.RoundTrip.Statement (.recheckExecute core id agree) := Laws.RoundTrip.of_none rfl
theorem Laws.RoundTrip.streamPush (core : CoreId) (slot : Fin 4) : Laws.RoundTrip.Statement (.streamPush core slot) := Laws.RoundTrip.of_none rfl
theorem Laws.RoundTrip.streamWrite (core : CoreId) (slot : Fin 4) : Laws.RoundTrip.Statement (.streamWrite core slot) := Laws.RoundTrip.of_none rfl
theorem Laws.RoundTrip.copyChunkDone (chunk : ChunkReply) : Laws.RoundTrip.Statement (.copyChunkDone chunk) := Laws.RoundTrip.of_none rfl
theorem Laws.RoundTrip.copyDone (cluster : ClusterId) : Laws.RoundTrip.Statement (.copyDone cluster) := Laws.RoundTrip.of_none rfl
theorem Laws.RoundTrip.pickup (hart : HartId) : Laws.RoundTrip.Statement (.pickup hart) := Laws.RoundTrip.of_none rfl
theorem Laws.RoundTrip.stripStart (hart : HartId) : Laws.RoundTrip.Statement (.stripStart hart) := Laws.RoundTrip.of_none rfl
theorem Laws.RoundTrip.writebackComplete (hart : HartId) : Laws.RoundTrip.Statement (.writebackComplete hart) := Laws.RoundTrip.of_none rfl
theorem Laws.RoundTrip.futureWake (die : DieId) : Laws.RoundTrip.Statement (.futureWake die) := Laws.RoundTrip.of_none rfl
theorem Laws.RoundTrip.sweep (part : PartId) (node : Option ClusterId) : Laws.RoundTrip.Statement (.sweep part node) := Laws.RoundTrip.of_none rfl
theorem Laws.RoundTrip.launchTake (part : PartId) (queue : Fin 64) : Laws.RoundTrip.Statement (.launchTake part queue) := Laws.RoundTrip.of_none rfl
theorem Laws.RoundTrip.admission (part : PartId) : Laws.RoundTrip.Statement (.admission part) := Laws.RoundTrip.of_none rfl
theorem Laws.RoundTrip.launchReady (id : Nat) : Laws.RoundTrip.Statement (.launchReady id) := Laws.RoundTrip.of_none rfl
theorem Laws.RoundTrip.launchStart (id : Nat) : Laws.RoundTrip.Statement (.launchStart id) := Laws.RoundTrip.of_none rfl
theorem Laws.RoundTrip.periodRefill (part : PartId) (queue : Fin 64) : Laws.RoundTrip.Statement (.periodRefill part queue) := Laws.RoundTrip.of_none rfl
theorem Laws.RoundTrip.budgetExhausted (part : PartId) (queue : Fin 64) : Laws.RoundTrip.Statement (.budgetExhausted part queue) := Laws.RoundTrip.of_none rfl
theorem Laws.RoundTrip.overrun (id : Nat) : Laws.RoundTrip.Statement (.overrun id) := Laws.RoundTrip.of_none rfl
theorem Laws.RoundTrip.shadowOverflow (id : Nat) : Laws.RoundTrip.Statement (.shadowOverflow id) := Laws.RoundTrip.of_none rfl
theorem Laws.RoundTrip.irrevocableSwitch (id : Nat) : Laws.RoundTrip.Statement (.irrevocableSwitch id) := Laws.RoundTrip.of_none rfl
theorem Laws.RoundTrip.launchEnd (id : Nat) : Laws.RoundTrip.Statement (.launchEnd id) := Laws.RoundTrip.of_none rfl
theorem Laws.RoundTrip.prepare (part : PartId) : Laws.RoundTrip.Statement (.prepare part) := Laws.RoundTrip.of_none rfl
theorem Laws.RoundTrip.commit (part : PartId) : Laws.RoundTrip.Statement (.commit part) := Laws.RoundTrip.of_none rfl
theorem Laws.RoundTrip.lineSettle (id : Nat) : Laws.RoundTrip.Statement (.lineSettle id) := Laws.RoundTrip.of_none rfl
theorem Laws.RoundTrip.launchAbort (id : Nat) : Laws.RoundTrip.Statement (.launchAbort id) := Laws.RoundTrip.of_none rfl
theorem Laws.RoundTrip.cancel (part : PartId) (queue : Fin 64) : Laws.RoundTrip.Statement (.cancel part queue) := Laws.RoundTrip.of_none rfl
theorem Laws.RoundTrip.contextSave (id : Nat) (faulted : Bool) : Laws.RoundTrip.Statement (.contextSave id faulted) := Laws.RoundTrip.of_none rfl
theorem Laws.RoundTrip.restore (id : Nat) : Laws.RoundTrip.Statement (.restore id) := Laws.RoundTrip.of_none rfl
theorem Laws.RoundTrip.resume (id : Nat) : Laws.RoundTrip.Statement (.resume id) := Laws.RoundTrip.of_none rfl
theorem Laws.RoundTrip.cutRound (id : Nat) : Laws.RoundTrip.Statement (.cutRound id) := Laws.RoundTrip.of_none rfl
theorem Laws.RoundTrip.cutfail (id : Nat) : Laws.RoundTrip.Statement (.cutfail id) := Laws.RoundTrip.of_none rfl
theorem Laws.RoundTrip.collectiveTrigger (die : DieId) (group : Fin 64) : Laws.RoundTrip.Statement (.collectiveTrigger die group) := Laws.RoundTrip.of_none rfl
theorem Laws.RoundTrip.collectiveComplete (group : Fin 64) : Laws.RoundTrip.Statement (.collectiveComplete group) := Laws.RoundTrip.of_none rfl
theorem Laws.RoundTrip.collectiveTimeout (group : Fin 64) : Laws.RoundTrip.Statement (.collectiveTimeout group) := Laws.RoundTrip.of_none rfl
theorem Laws.RoundTrip.streamFault (core : CoreId) (slot : Fin 4) (f : EngFault) : Laws.RoundTrip.Statement (.streamFault core slot f) := Laws.RoundTrip.of_none rfl
theorem Laws.RoundTrip.preempt (id : Nat) : Laws.RoundTrip.Statement (.preempt id) := Laws.RoundTrip.of_none rfl
theorem Laws.RoundTrip.saveRestart (id : Nat) : Laws.RoundTrip.Statement (.saveRestart id) := Laws.RoundTrip.of_none rfl
theorem Laws.RoundTrip.stopRequest (id : Nat) : Laws.RoundTrip.Statement (.stopRequest id) := Laws.RoundTrip.of_none rfl
theorem Laws.RoundTrip.sramerr (hart : HartId) (owner : CoreId) : Laws.RoundTrip.Statement (.sramerr hart owner) := Laws.RoundTrip.of_none rfl
theorem Laws.RoundTrip.rdmaWrite (place : RdmaAt 9) (payload : RdmaPayload) : Laws.RoundTrip.Statement (.rdmaWrite place payload) := Laws.RoundTrip.of_none rfl
theorem Laws.RoundTrip.rdmaRead (place : RdmaAt 9) (len : Nat) : Laws.RoundTrip.Statement (.rdmaRead place len) := Laws.RoundTrip.of_none rfl
theorem Laws.RoundTrip.rdmaSend (port : Fin 8) (qp : Nat) (data : List Byte) : Laws.RoundTrip.Statement (.rdmaSend port qp data) := Laws.RoundTrip.of_none rfl
theorem Laws.RoundTrip.rdmaFetchAdd (place : RdmaAt 8) (v : Word) : Laws.RoundTrip.Statement (.rdmaFetchAdd place v) := Laws.RoundTrip.of_none rfl
theorem Laws.RoundTrip.rdmaCompareSwap (place : RdmaAt 8) (expected new : Word) : Laws.RoundTrip.Statement (.rdmaCompareSwap place expected new) := Laws.RoundTrip.of_none rfl
theorem Laws.RoundTrip.linkBringup (port : Fin 8) (domid : BitVec 32) (pos : Nat) : Laws.RoundTrip.Statement (.linkBringup port domid pos) := Laws.RoundTrip.of_none rfl
theorem Laws.RoundTrip.peerFrame (port : Fin 8) (seq pa : Nat) (act : PeerAct) (len : Nat) : Laws.RoundTrip.Statement (.peerFrame port seq pa act len) := Laws.RoundTrip.of_none rfl
theorem Laws.RoundTrip.peerResend (port : Fin 8) (seq : Nat) : Laws.RoundTrip.Statement (.peerResend port seq) := Laws.RoundTrip.of_none rfl
theorem Laws.RoundTrip.peerPortLost (port : Fin 8) : Laws.RoundTrip.Statement (.peerPortLost port) := Laws.RoundTrip.of_none rfl
theorem Laws.RoundTrip.flitReceive (a b : DieId) (seq : Nat) (flit : Flit) : Laws.RoundTrip.Statement (.flitReceive a b seq flit) := Laws.RoundTrip.of_none rfl
theorem Laws.RoundTrip.flitReplay (a b : DieId) (crc : BitVec 32) : Laws.RoundTrip.Statement (.flitReplay a b crc) := Laws.RoundTrip.of_none rfl
theorem Laws.RoundTrip.dieLinkLost (a b : DieId) : Laws.RoundTrip.Statement (.dieLinkLost a b) := Laws.RoundTrip.of_none rfl
theorem Laws.RoundTrip.patrolScrub (mem : EccMem) (corrected uncorrectable : Bool) : Laws.RoundTrip.Statement (.patrolScrub mem corrected uncorrectable) := Laws.RoundTrip.of_none rfl
theorem Laws.RoundTrip.pcDrop (die : DieId) (stack : Fin 2) (pc : Fin 64) : Laws.RoundTrip.Statement (.pcDrop die stack pc) := Laws.RoundTrip.of_none rfl
theorem Laws.RoundTrip.thermalThrottle (temp : Int) (power : Nat) : Laws.RoundTrip.Statement (.thermalThrottle temp power) := Laws.RoundTrip.of_none rfl
theorem Laws.RoundTrip.coldStart : Laws.RoundTrip.Statement (.coldStart) := Laws.RoundTrip.of_none rfl
theorem Laws.RoundTrip.warmStart : Laws.RoundTrip.Statement (.warmStart) := Laws.RoundTrip.of_none rfl
theorem Laws.RoundTrip.keyRollover : Laws.RoundTrip.Statement (.keyRollover) := Laws.RoundTrip.of_none rfl
theorem Laws.RoundTrip.info (slot : Fin 256) : Laws.RoundTrip.Statement (.info slot) := Laws.RoundTrip.of_none rfl
theorem Laws.RoundTrip.quote (slot : Fin 256) : Laws.RoundTrip.Statement (.quote slot) := Laws.RoundTrip.of_none rfl
theorem Laws.RoundTrip.log (slot : Fin 256) : Laws.RoundTrip.Statement (.log slot) := Laws.RoundTrip.of_none rfl
theorem Laws.RoundTrip.chain (slot : Fin 256) : Laws.RoundTrip.Statement (.chain slot) := Laws.RoundTrip.of_none rfl
theorem Laws.RoundTrip.load (slot : Fin 256) : Laws.RoundTrip.Statement (.load slot) := Laws.RoundTrip.of_none rfl
theorem Laws.RoundTrip.unload (slot : Fin 256) : Laws.RoundTrip.Statement (.unload slot) := Laws.RoundTrip.of_none rfl
theorem Laws.RoundTrip.qconf (slot : Fin 256) : Laws.RoundTrip.Statement (.qconf slot) := Laws.RoundTrip.of_none rfl
theorem Laws.RoundTrip.pconf (slot : Fin 256) : Laws.RoundTrip.Statement (.pconf slot) := Laws.RoundTrip.of_none rfl
theorem Laws.RoundTrip.cgroup (slot : Fin 256) : Laws.RoundTrip.Statement (.cgroup slot) := Laws.RoundTrip.of_none rfl
theorem Laws.RoundTrip.rdmaep (slot : Fin 256) : Laws.RoundTrip.Statement (.rdmaep slot) := Laws.RoundTrip.of_none rfl
theorem Laws.RoundTrip.resetCore (core : CoreId) : Laws.RoundTrip.Statement (.resetCore core) := Laws.RoundTrip.of_none rfl
theorem Laws.RoundTrip.resetCopyEngine (cluster : ClusterId) : Laws.RoundTrip.Statement (.resetCopyEngine cluster) := Laws.RoundTrip.of_none rfl
theorem Laws.RoundTrip.resetDieLink (a b : DieId) : Laws.RoundTrip.Statement (.resetDieLink a b) := Laws.RoundTrip.of_none rfl
theorem Laws.RoundTrip.resetEthernetPort (port : Fin 8) : Laws.RoundTrip.Statement (.resetEthernetPort port) := Laws.RoundTrip.of_none rfl
theorem Laws.RoundTrip.resetPartition (part : PartId) : Laws.RoundTrip.Statement (.resetPartition part) := Laws.RoundTrip.of_none rfl
theorem Laws.RoundTrip.resetDevice : Laws.RoundTrip.Statement (.resetDevice) := Laws.RoundTrip.of_none rfl
theorem Laws.RoundTrip.droppc (slot : Fin 256) : Laws.RoundTrip.Statement (.droppc slot) := Laws.RoundTrip.of_none rfl
theorem Laws.RoundTrip.config (slot : Fin 256) : Laws.RoundTrip.Statement (.config slot) := Laws.RoundTrip.of_none rfl
theorem Laws.RoundTrip.debugResume (hart : HartId) : Laws.RoundTrip.Statement (.debugResume hart) := Laws.RoundTrip.of_none rfl
theorem Laws.RoundTrip.debugHold (hart : HartId) : Laws.RoundTrip.Statement (.debugHold hart) := Laws.RoundTrip.of_none rfl
theorem Laws.RoundTrip.welkinCoreFault (die : DieId) : Laws.RoundTrip.Statement (.welkinCoreFault die) := Laws.RoundTrip.of_none rfl
theorem Laws.RoundTrip.shadowDirectoryError (die : DieId) : Laws.RoundTrip.Statement (.shadowDirectoryError die) := Laws.RoundTrip.of_none rfl
theorem Laws.RoundTrip.copyFault (cluster : ClusterId) (f : EngFault) : Laws.RoundTrip.Statement (.copyFault cluster f) := Laws.RoundTrip.of_none rfl
theorem Laws.RoundTrip.mappingRepaired (core : CoreId) : Laws.RoundTrip.Statement (.mappingRepaired core) := Laws.RoundTrip.of_none rfl
theorem Laws.RoundTrip.translationInvalidate (core : CoreId) : Laws.RoundTrip.Statement (.translationInvalidate core) := Laws.RoundTrip.of_none rfl
theorem Laws.RoundTrip.ownerSession (challenge : SessionChallenge) (sig : List Byte) : Laws.RoundTrip.Statement (.ownerSession challenge sig) := Laws.RoundTrip.of_none rfl

end Sys2Proof
end

