-- ==== Sys2Proof/Laws/State.lean ====
section
/-! SUPPORT. What each update of the state changes and what it leaves: one lemma per field per update, and one per accessor. -/

namespace Sys2Proof.Machine

@[simp] theorem State.updHartAt_now (s : State) (n : HartId) (f : Hart → Hart) : (s.updHartAt n f).now = s.now := rfl
@[simp] theorem State.updHartAt_cur (s : State) (n : HartId) (f : Hart → Hart) : (s.updHartAt n f).cur = s.cur := rfl
@[simp] theorem State.updHartAt_cores (s : State) (n : HartId) (f : Hart → Hart) : (s.updHartAt n f).cores = s.cores := rfl
@[simp] theorem State.updHartAt_clusters (s : State) (n : HartId) (f : Hart → Hart) : (s.updHartAt n f).clusters = s.clusters := rfl
@[simp] theorem State.updHartAt_dies (s : State) (n : HartId) (f : Hart → Hart) : (s.updHartAt n f).dies = s.dies := rfl
@[simp] theorem State.updHartAt_parts (s : State) (n : HartId) (f : Hart → Hart) : (s.updHartAt n f).parts = s.parts := rfl
@[simp] theorem State.updHartAt_launches (s : State) (n : HartId) (f : Hart → Hart) : (s.updHartAt n f).launches = s.launches := rfl
@[simp] theorem State.updHartAt_mem (s : State) (n : HartId) (f : Hart → Hart) : (s.updHartAt n f).mem = s.mem := rfl
@[simp] theorem State.updHartAt_shadow (s : State) (n : HartId) (f : Hart → Hart) : (s.updHartAt n f).shadow = s.shadow := rfl
@[simp] theorem State.updHartAt_snaps (s : State) (n : HartId) (f : Hart → Hart) : (s.updHartAt n f).snaps = s.snaps := rfl
@[simp] theorem State.updHartAt_flights (s : State) (n : HartId) (f : Hart → Hart) : (s.updHartAt n f).flights = s.flights := rfl
@[simp] theorem State.updHartAt_pkg (s : State) (n : HartId) (f : Hart → Hart) : (s.updHartAt n f).pkg = s.pkg := rfl
@[simp] theorem State.updHartAt_inputs (s : State) (n : HartId) (f : Hart → Hart) : (s.updHartAt n f).inputs = s.inputs := rfl
@[simp] theorem State.updHartAt_outputs (s : State) (n : HartId) (f : Hart → Hart) : (s.updHartAt n f).outputs = s.outputs := rfl
@[simp] theorem State.updHartAt_fresh (s : State) (n : HartId) (f : Hart → Hart) : (s.updHartAt n f).fresh = s.fresh := rfl
@[simp] theorem State.updHartAt_freeCtr (s : State) (n : HartId) (f : Hart → Hart) : (s.updHartAt n f).freeCtr = s.freeCtr := rfl

@[simp] theorem State.updHart_now (s : State) (f : Hart → Hart) : (s.updHart f).now = s.now := rfl
@[simp] theorem State.updHart_cur (s : State) (f : Hart → Hart) : (s.updHart f).cur = s.cur := rfl
@[simp] theorem State.updHart_cores (s : State) (f : Hart → Hart) : (s.updHart f).cores = s.cores := rfl
@[simp] theorem State.updHart_clusters (s : State) (f : Hart → Hart) : (s.updHart f).clusters = s.clusters := rfl
@[simp] theorem State.updHart_dies (s : State) (f : Hart → Hart) : (s.updHart f).dies = s.dies := rfl
@[simp] theorem State.updHart_parts (s : State) (f : Hart → Hart) : (s.updHart f).parts = s.parts := rfl
@[simp] theorem State.updHart_launches (s : State) (f : Hart → Hart) : (s.updHart f).launches = s.launches := rfl
@[simp] theorem State.updHart_mem (s : State) (f : Hart → Hart) : (s.updHart f).mem = s.mem := rfl
@[simp] theorem State.updHart_shadow (s : State) (f : Hart → Hart) : (s.updHart f).shadow = s.shadow := rfl
@[simp] theorem State.updHart_snaps (s : State) (f : Hart → Hart) : (s.updHart f).snaps = s.snaps := rfl
@[simp] theorem State.updHart_flights (s : State) (f : Hart → Hart) : (s.updHart f).flights = s.flights := rfl
@[simp] theorem State.updHart_pkg (s : State) (f : Hart → Hart) : (s.updHart f).pkg = s.pkg := rfl
@[simp] theorem State.updHart_inputs (s : State) (f : Hart → Hart) : (s.updHart f).inputs = s.inputs := rfl
@[simp] theorem State.updHart_outputs (s : State) (f : Hart → Hart) : (s.updHart f).outputs = s.outputs := rfl
@[simp] theorem State.updHart_fresh (s : State) (f : Hart → Hart) : (s.updHart f).fresh = s.fresh := rfl
@[simp] theorem State.updHart_freeCtr (s : State) (f : Hart → Hart) : (s.updHart f).freeCtr = s.freeCtr := rfl

@[simp] theorem State.updCoreAt_now (s : State) (c : CoreId) (f : Core → Core) : (s.updCoreAt c f).now = s.now := rfl
@[simp] theorem State.updCoreAt_cur (s : State) (c : CoreId) (f : Core → Core) : (s.updCoreAt c f).cur = s.cur := rfl
@[simp] theorem State.updCoreAt_harts (s : State) (c : CoreId) (f : Core → Core) : (s.updCoreAt c f).harts = s.harts := rfl
@[simp] theorem State.updCoreAt_clusters (s : State) (c : CoreId) (f : Core → Core) : (s.updCoreAt c f).clusters = s.clusters := rfl
@[simp] theorem State.updCoreAt_dies (s : State) (c : CoreId) (f : Core → Core) : (s.updCoreAt c f).dies = s.dies := rfl
@[simp] theorem State.updCoreAt_parts (s : State) (c : CoreId) (f : Core → Core) : (s.updCoreAt c f).parts = s.parts := rfl
@[simp] theorem State.updCoreAt_launches (s : State) (c : CoreId) (f : Core → Core) : (s.updCoreAt c f).launches = s.launches := rfl
@[simp] theorem State.updCoreAt_mem (s : State) (c : CoreId) (f : Core → Core) : (s.updCoreAt c f).mem = s.mem := rfl
@[simp] theorem State.updCoreAt_shadow (s : State) (c : CoreId) (f : Core → Core) : (s.updCoreAt c f).shadow = s.shadow := rfl
@[simp] theorem State.updCoreAt_snaps (s : State) (c : CoreId) (f : Core → Core) : (s.updCoreAt c f).snaps = s.snaps := rfl
@[simp] theorem State.updCoreAt_flights (s : State) (c : CoreId) (f : Core → Core) : (s.updCoreAt c f).flights = s.flights := rfl
@[simp] theorem State.updCoreAt_pkg (s : State) (c : CoreId) (f : Core → Core) : (s.updCoreAt c f).pkg = s.pkg := rfl
@[simp] theorem State.updCoreAt_inputs (s : State) (c : CoreId) (f : Core → Core) : (s.updCoreAt c f).inputs = s.inputs := rfl
@[simp] theorem State.updCoreAt_outputs (s : State) (c : CoreId) (f : Core → Core) : (s.updCoreAt c f).outputs = s.outputs := rfl
@[simp] theorem State.updCoreAt_fresh (s : State) (c : CoreId) (f : Core → Core) : (s.updCoreAt c f).fresh = s.fresh := rfl
@[simp] theorem State.updCoreAt_freeCtr (s : State) (c : CoreId) (f : Core → Core) : (s.updCoreAt c f).freeCtr = s.freeCtr := rfl

@[simp] theorem State.updCore_now (s : State) (f : Core → Core) : (s.updCore f).now = s.now := rfl
@[simp] theorem State.updCore_cur (s : State) (f : Core → Core) : (s.updCore f).cur = s.cur := rfl
@[simp] theorem State.updCore_harts (s : State) (f : Core → Core) : (s.updCore f).harts = s.harts := rfl
@[simp] theorem State.updCore_clusters (s : State) (f : Core → Core) : (s.updCore f).clusters = s.clusters := rfl
@[simp] theorem State.updCore_dies (s : State) (f : Core → Core) : (s.updCore f).dies = s.dies := rfl
@[simp] theorem State.updCore_parts (s : State) (f : Core → Core) : (s.updCore f).parts = s.parts := rfl
@[simp] theorem State.updCore_launches (s : State) (f : Core → Core) : (s.updCore f).launches = s.launches := rfl
@[simp] theorem State.updCore_mem (s : State) (f : Core → Core) : (s.updCore f).mem = s.mem := rfl
@[simp] theorem State.updCore_shadow (s : State) (f : Core → Core) : (s.updCore f).shadow = s.shadow := rfl
@[simp] theorem State.updCore_snaps (s : State) (f : Core → Core) : (s.updCore f).snaps = s.snaps := rfl
@[simp] theorem State.updCore_flights (s : State) (f : Core → Core) : (s.updCore f).flights = s.flights := rfl
@[simp] theorem State.updCore_pkg (s : State) (f : Core → Core) : (s.updCore f).pkg = s.pkg := rfl
@[simp] theorem State.updCore_inputs (s : State) (f : Core → Core) : (s.updCore f).inputs = s.inputs := rfl
@[simp] theorem State.updCore_outputs (s : State) (f : Core → Core) : (s.updCore f).outputs = s.outputs := rfl
@[simp] theorem State.updCore_fresh (s : State) (f : Core → Core) : (s.updCore f).fresh = s.fresh := rfl
@[simp] theorem State.updCore_freeCtr (s : State) (f : Core → Core) : (s.updCore f).freeCtr = s.freeCtr := rfl

@[simp] theorem State.updClusterAt_now (s : State) (c : ClusterId) (f : Cluster → Cluster) : (s.updClusterAt c f).now = s.now := rfl
@[simp] theorem State.updClusterAt_cur (s : State) (c : ClusterId) (f : Cluster → Cluster) : (s.updClusterAt c f).cur = s.cur := rfl
@[simp] theorem State.updClusterAt_harts (s : State) (c : ClusterId) (f : Cluster → Cluster) : (s.updClusterAt c f).harts = s.harts := rfl
@[simp] theorem State.updClusterAt_cores (s : State) (c : ClusterId) (f : Cluster → Cluster) : (s.updClusterAt c f).cores = s.cores := rfl
@[simp] theorem State.updClusterAt_dies (s : State) (c : ClusterId) (f : Cluster → Cluster) : (s.updClusterAt c f).dies = s.dies := rfl
@[simp] theorem State.updClusterAt_parts (s : State) (c : ClusterId) (f : Cluster → Cluster) : (s.updClusterAt c f).parts = s.parts := rfl
@[simp] theorem State.updClusterAt_launches (s : State) (c : ClusterId) (f : Cluster → Cluster) : (s.updClusterAt c f).launches = s.launches := rfl
@[simp] theorem State.updClusterAt_mem (s : State) (c : ClusterId) (f : Cluster → Cluster) : (s.updClusterAt c f).mem = s.mem := rfl
@[simp] theorem State.updClusterAt_shadow (s : State) (c : ClusterId) (f : Cluster → Cluster) : (s.updClusterAt c f).shadow = s.shadow := rfl
@[simp] theorem State.updClusterAt_snaps (s : State) (c : ClusterId) (f : Cluster → Cluster) : (s.updClusterAt c f).snaps = s.snaps := rfl
@[simp] theorem State.updClusterAt_flights (s : State) (c : ClusterId) (f : Cluster → Cluster) : (s.updClusterAt c f).flights = s.flights := rfl
@[simp] theorem State.updClusterAt_pkg (s : State) (c : ClusterId) (f : Cluster → Cluster) : (s.updClusterAt c f).pkg = s.pkg := rfl
@[simp] theorem State.updClusterAt_inputs (s : State) (c : ClusterId) (f : Cluster → Cluster) : (s.updClusterAt c f).inputs = s.inputs := rfl
@[simp] theorem State.updClusterAt_outputs (s : State) (c : ClusterId) (f : Cluster → Cluster) : (s.updClusterAt c f).outputs = s.outputs := rfl
@[simp] theorem State.updClusterAt_fresh (s : State) (c : ClusterId) (f : Cluster → Cluster) : (s.updClusterAt c f).fresh = s.fresh := rfl
@[simp] theorem State.updClusterAt_freeCtr (s : State) (c : ClusterId) (f : Cluster → Cluster) : (s.updClusterAt c f).freeCtr = s.freeCtr := rfl

@[simp] theorem State.updCluster_now (s : State) (f : Cluster → Cluster) : (s.updCluster f).now = s.now := rfl
@[simp] theorem State.updCluster_cur (s : State) (f : Cluster → Cluster) : (s.updCluster f).cur = s.cur := rfl
@[simp] theorem State.updCluster_harts (s : State) (f : Cluster → Cluster) : (s.updCluster f).harts = s.harts := rfl
@[simp] theorem State.updCluster_cores (s : State) (f : Cluster → Cluster) : (s.updCluster f).cores = s.cores := rfl
@[simp] theorem State.updCluster_dies (s : State) (f : Cluster → Cluster) : (s.updCluster f).dies = s.dies := rfl
@[simp] theorem State.updCluster_parts (s : State) (f : Cluster → Cluster) : (s.updCluster f).parts = s.parts := rfl
@[simp] theorem State.updCluster_launches (s : State) (f : Cluster → Cluster) : (s.updCluster f).launches = s.launches := rfl
@[simp] theorem State.updCluster_mem (s : State) (f : Cluster → Cluster) : (s.updCluster f).mem = s.mem := rfl
@[simp] theorem State.updCluster_shadow (s : State) (f : Cluster → Cluster) : (s.updCluster f).shadow = s.shadow := rfl
@[simp] theorem State.updCluster_snaps (s : State) (f : Cluster → Cluster) : (s.updCluster f).snaps = s.snaps := rfl
@[simp] theorem State.updCluster_flights (s : State) (f : Cluster → Cluster) : (s.updCluster f).flights = s.flights := rfl
@[simp] theorem State.updCluster_pkg (s : State) (f : Cluster → Cluster) : (s.updCluster f).pkg = s.pkg := rfl
@[simp] theorem State.updCluster_inputs (s : State) (f : Cluster → Cluster) : (s.updCluster f).inputs = s.inputs := rfl
@[simp] theorem State.updCluster_outputs (s : State) (f : Cluster → Cluster) : (s.updCluster f).outputs = s.outputs := rfl
@[simp] theorem State.updCluster_fresh (s : State) (f : Cluster → Cluster) : (s.updCluster f).fresh = s.fresh := rfl
@[simp] theorem State.updCluster_freeCtr (s : State) (f : Cluster → Cluster) : (s.updCluster f).freeCtr = s.freeCtr := rfl

@[simp] theorem State.updDieAt_now (s : State) (d : DieId) (f : Die → Die) : (s.updDieAt d f).now = s.now := rfl
@[simp] theorem State.updDieAt_cur (s : State) (d : DieId) (f : Die → Die) : (s.updDieAt d f).cur = s.cur := rfl
@[simp] theorem State.updDieAt_harts (s : State) (d : DieId) (f : Die → Die) : (s.updDieAt d f).harts = s.harts := rfl
@[simp] theorem State.updDieAt_cores (s : State) (d : DieId) (f : Die → Die) : (s.updDieAt d f).cores = s.cores := rfl
@[simp] theorem State.updDieAt_clusters (s : State) (d : DieId) (f : Die → Die) : (s.updDieAt d f).clusters = s.clusters := rfl
@[simp] theorem State.updDieAt_parts (s : State) (d : DieId) (f : Die → Die) : (s.updDieAt d f).parts = s.parts := rfl
@[simp] theorem State.updDieAt_launches (s : State) (d : DieId) (f : Die → Die) : (s.updDieAt d f).launches = s.launches := rfl
@[simp] theorem State.updDieAt_mem (s : State) (d : DieId) (f : Die → Die) : (s.updDieAt d f).mem = s.mem := rfl
@[simp] theorem State.updDieAt_shadow (s : State) (d : DieId) (f : Die → Die) : (s.updDieAt d f).shadow = s.shadow := rfl
@[simp] theorem State.updDieAt_snaps (s : State) (d : DieId) (f : Die → Die) : (s.updDieAt d f).snaps = s.snaps := rfl
@[simp] theorem State.updDieAt_flights (s : State) (d : DieId) (f : Die → Die) : (s.updDieAt d f).flights = s.flights := rfl
@[simp] theorem State.updDieAt_pkg (s : State) (d : DieId) (f : Die → Die) : (s.updDieAt d f).pkg = s.pkg := rfl
@[simp] theorem State.updDieAt_inputs (s : State) (d : DieId) (f : Die → Die) : (s.updDieAt d f).inputs = s.inputs := rfl
@[simp] theorem State.updDieAt_outputs (s : State) (d : DieId) (f : Die → Die) : (s.updDieAt d f).outputs = s.outputs := rfl
@[simp] theorem State.updDieAt_fresh (s : State) (d : DieId) (f : Die → Die) : (s.updDieAt d f).fresh = s.fresh := rfl
@[simp] theorem State.updDieAt_freeCtr (s : State) (d : DieId) (f : Die → Die) : (s.updDieAt d f).freeCtr = s.freeCtr := rfl

@[simp] theorem State.updPartAt_now (s : State) (p : PartId) (f : Part → Part) : (s.updPartAt p f).now = s.now := rfl
@[simp] theorem State.updPartAt_cur (s : State) (p : PartId) (f : Part → Part) : (s.updPartAt p f).cur = s.cur := rfl
@[simp] theorem State.updPartAt_harts (s : State) (p : PartId) (f : Part → Part) : (s.updPartAt p f).harts = s.harts := rfl
@[simp] theorem State.updPartAt_cores (s : State) (p : PartId) (f : Part → Part) : (s.updPartAt p f).cores = s.cores := rfl
@[simp] theorem State.updPartAt_clusters (s : State) (p : PartId) (f : Part → Part) : (s.updPartAt p f).clusters = s.clusters := rfl
@[simp] theorem State.updPartAt_dies (s : State) (p : PartId) (f : Part → Part) : (s.updPartAt p f).dies = s.dies := rfl
@[simp] theorem State.updPartAt_launches (s : State) (p : PartId) (f : Part → Part) : (s.updPartAt p f).launches = s.launches := rfl
@[simp] theorem State.updPartAt_mem (s : State) (p : PartId) (f : Part → Part) : (s.updPartAt p f).mem = s.mem := rfl
@[simp] theorem State.updPartAt_shadow (s : State) (p : PartId) (f : Part → Part) : (s.updPartAt p f).shadow = s.shadow := rfl
@[simp] theorem State.updPartAt_snaps (s : State) (p : PartId) (f : Part → Part) : (s.updPartAt p f).snaps = s.snaps := rfl
@[simp] theorem State.updPartAt_flights (s : State) (p : PartId) (f : Part → Part) : (s.updPartAt p f).flights = s.flights := rfl
@[simp] theorem State.updPartAt_pkg (s : State) (p : PartId) (f : Part → Part) : (s.updPartAt p f).pkg = s.pkg := rfl
@[simp] theorem State.updPartAt_inputs (s : State) (p : PartId) (f : Part → Part) : (s.updPartAt p f).inputs = s.inputs := rfl
@[simp] theorem State.updPartAt_outputs (s : State) (p : PartId) (f : Part → Part) : (s.updPartAt p f).outputs = s.outputs := rfl
@[simp] theorem State.updPartAt_fresh (s : State) (p : PartId) (f : Part → Part) : (s.updPartAt p f).fresh = s.fresh := rfl
@[simp] theorem State.updPartAt_freeCtr (s : State) (p : PartId) (f : Part → Part) : (s.updPartAt p f).freeCtr = s.freeCtr := rfl

@[simp] theorem State.updLaunchAt_now (s : State) (i : Nat) (f : Launch → Launch) : (s.updLaunchAt i f).now = s.now := rfl
@[simp] theorem State.updLaunchAt_cur (s : State) (i : Nat) (f : Launch → Launch) : (s.updLaunchAt i f).cur = s.cur := rfl
@[simp] theorem State.updLaunchAt_harts (s : State) (i : Nat) (f : Launch → Launch) : (s.updLaunchAt i f).harts = s.harts := rfl
@[simp] theorem State.updLaunchAt_cores (s : State) (i : Nat) (f : Launch → Launch) : (s.updLaunchAt i f).cores = s.cores := rfl
@[simp] theorem State.updLaunchAt_clusters (s : State) (i : Nat) (f : Launch → Launch) : (s.updLaunchAt i f).clusters = s.clusters := rfl
@[simp] theorem State.updLaunchAt_dies (s : State) (i : Nat) (f : Launch → Launch) : (s.updLaunchAt i f).dies = s.dies := rfl
@[simp] theorem State.updLaunchAt_parts (s : State) (i : Nat) (f : Launch → Launch) : (s.updLaunchAt i f).parts = s.parts := rfl
@[simp] theorem State.updLaunchAt_mem (s : State) (i : Nat) (f : Launch → Launch) : (s.updLaunchAt i f).mem = s.mem := rfl
@[simp] theorem State.updLaunchAt_shadow (s : State) (i : Nat) (f : Launch → Launch) : (s.updLaunchAt i f).shadow = s.shadow := rfl
@[simp] theorem State.updLaunchAt_snaps (s : State) (i : Nat) (f : Launch → Launch) : (s.updLaunchAt i f).snaps = s.snaps := rfl
@[simp] theorem State.updLaunchAt_flights (s : State) (i : Nat) (f : Launch → Launch) : (s.updLaunchAt i f).flights = s.flights := rfl
@[simp] theorem State.updLaunchAt_pkg (s : State) (i : Nat) (f : Launch → Launch) : (s.updLaunchAt i f).pkg = s.pkg := rfl
@[simp] theorem State.updLaunchAt_inputs (s : State) (i : Nat) (f : Launch → Launch) : (s.updLaunchAt i f).inputs = s.inputs := rfl
@[simp] theorem State.updLaunchAt_outputs (s : State) (i : Nat) (f : Launch → Launch) : (s.updLaunchAt i f).outputs = s.outputs := rfl
@[simp] theorem State.updLaunchAt_fresh (s : State) (i : Nat) (f : Launch → Launch) : (s.updLaunchAt i f).fresh = s.fresh := rfl
@[simp] theorem State.updLaunchAt_freeCtr (s : State) (i : Nat) (f : Launch → Launch) : (s.updLaunchAt i f).freeCtr = s.freeCtr := rfl

@[simp] theorem State.spendFree_now (s : State)  : (s.spendFree).now = s.now := rfl
@[simp] theorem State.spendFree_cur (s : State)  : (s.spendFree).cur = s.cur := rfl
@[simp] theorem State.spendFree_harts (s : State)  : (s.spendFree).harts = s.harts := rfl
@[simp] theorem State.spendFree_cores (s : State)  : (s.spendFree).cores = s.cores := rfl
@[simp] theorem State.spendFree_clusters (s : State)  : (s.spendFree).clusters = s.clusters := rfl
@[simp] theorem State.spendFree_dies (s : State)  : (s.spendFree).dies = s.dies := rfl
@[simp] theorem State.spendFree_parts (s : State)  : (s.spendFree).parts = s.parts := rfl
@[simp] theorem State.spendFree_launches (s : State)  : (s.spendFree).launches = s.launches := rfl
@[simp] theorem State.spendFree_mem (s : State)  : (s.spendFree).mem = s.mem := rfl
@[simp] theorem State.spendFree_shadow (s : State)  : (s.spendFree).shadow = s.shadow := rfl
@[simp] theorem State.spendFree_snaps (s : State)  : (s.spendFree).snaps = s.snaps := rfl
@[simp] theorem State.spendFree_flights (s : State)  : (s.spendFree).flights = s.flights := rfl
@[simp] theorem State.spendFree_pkg (s : State)  : (s.spendFree).pkg = s.pkg := rfl
@[simp] theorem State.spendFree_inputs (s : State)  : (s.spendFree).inputs = s.inputs := rfl
@[simp] theorem State.spendFree_outputs (s : State)  : (s.spendFree).outputs = s.outputs := rfl
@[simp] theorem State.spendFree_fresh (s : State)  : (s.spendFree).fresh = s.fresh := rfl

@[simp] theorem State.updHartAt_coreAt (s : State) (n : HartId) (f : Hart → Hart) (m : CoreId) : (s.updHartAt n f).coreAt m = s.coreAt m := rfl
@[simp] theorem State.updHartAt_clusterAt (s : State) (n : HartId) (f : Hart → Hart) (m : ClusterId) : (s.updHartAt n f).clusterAt m = s.clusterAt m := rfl
@[simp] theorem State.updHartAt_dieAt (s : State) (n : HartId) (f : Hart → Hart) (m : DieId) : (s.updHartAt n f).dieAt m = s.dieAt m := rfl
@[simp] theorem State.updHartAt_partAt (s : State) (n : HartId) (f : Hart → Hart) (m : PartId) : (s.updHartAt n f).partAt m = s.partAt m := rfl
@[simp] theorem State.updHartAt_launchAt (s : State) (n : HartId) (f : Hart → Hart) (m : Nat) : (s.updHartAt n f).launchAt m = s.launchAt m := rfl
@[simp] theorem State.updHartAt_core (s : State) (n : HartId) (f : Hart → Hart) : (s.updHartAt n f).core = s.core := rfl
@[simp] theorem State.updHartAt_cluster (s : State) (n : HartId) (f : Hart → Hart) : (s.updHartAt n f).cluster = s.cluster := rfl
@[simp] theorem State.updHartAt_cycle (s : State) (n : HartId) (f : Hart → Hart) : (s.updHartAt n f).cycle = s.cycle := rfl
@[simp] theorem State.updHartAt_cycleAt (s : State) (n : HartId) (f : Hart → Hart) (c : CoreId) : (s.updHartAt n f).cycleAt c = s.cycleAt c := rfl

@[simp] theorem State.updHart_coreAt (s : State) (f : Hart → Hart) (m : CoreId) : (s.updHart f).coreAt m = s.coreAt m := rfl
@[simp] theorem State.updHart_clusterAt (s : State) (f : Hart → Hart) (m : ClusterId) : (s.updHart f).clusterAt m = s.clusterAt m := rfl
@[simp] theorem State.updHart_dieAt (s : State) (f : Hart → Hart) (m : DieId) : (s.updHart f).dieAt m = s.dieAt m := rfl
@[simp] theorem State.updHart_partAt (s : State) (f : Hart → Hart) (m : PartId) : (s.updHart f).partAt m = s.partAt m := rfl
@[simp] theorem State.updHart_launchAt (s : State) (f : Hart → Hart) (m : Nat) : (s.updHart f).launchAt m = s.launchAt m := rfl
@[simp] theorem State.updHart_core (s : State) (f : Hart → Hart) : (s.updHart f).core = s.core := rfl
@[simp] theorem State.updHart_cluster (s : State) (f : Hart → Hart) : (s.updHart f).cluster = s.cluster := rfl
@[simp] theorem State.updHart_cycle (s : State) (f : Hart → Hart) : (s.updHart f).cycle = s.cycle := rfl
@[simp] theorem State.updHart_cycleAt (s : State) (f : Hart → Hart) (c : CoreId) : (s.updHart f).cycleAt c = s.cycleAt c := rfl

@[simp] theorem State.updCoreAt_hartAt (s : State) (c : CoreId) (f : Core → Core) (m : HartId) : (s.updCoreAt c f).hartAt m = s.hartAt m := rfl
@[simp] theorem State.updCoreAt_clusterAt (s : State) (c : CoreId) (f : Core → Core) (m : ClusterId) : (s.updCoreAt c f).clusterAt m = s.clusterAt m := rfl
@[simp] theorem State.updCoreAt_dieAt (s : State) (c : CoreId) (f : Core → Core) (m : DieId) : (s.updCoreAt c f).dieAt m = s.dieAt m := rfl
@[simp] theorem State.updCoreAt_partAt (s : State) (c : CoreId) (f : Core → Core) (m : PartId) : (s.updCoreAt c f).partAt m = s.partAt m := rfl
@[simp] theorem State.updCoreAt_launchAt (s : State) (c : CoreId) (f : Core → Core) (m : Nat) : (s.updCoreAt c f).launchAt m = s.launchAt m := rfl
@[simp] theorem State.updCoreAt_hart (s : State) (c : CoreId) (f : Core → Core) : (s.updCoreAt c f).hart = s.hart := rfl
@[simp] theorem State.updCoreAt_cluster (s : State) (c : CoreId) (f : Core → Core) : (s.updCoreAt c f).cluster = s.cluster := rfl
@[simp] theorem State.updCoreAt_launchId (s : State) (c : CoreId) (f : Core → Core) : (s.updCoreAt c f).launchId = s.launchId := rfl

@[simp] theorem State.updCore_hartAt (s : State) (f : Core → Core) (m : HartId) : (s.updCore f).hartAt m = s.hartAt m := rfl
@[simp] theorem State.updCore_clusterAt (s : State) (f : Core → Core) (m : ClusterId) : (s.updCore f).clusterAt m = s.clusterAt m := rfl
@[simp] theorem State.updCore_dieAt (s : State) (f : Core → Core) (m : DieId) : (s.updCore f).dieAt m = s.dieAt m := rfl
@[simp] theorem State.updCore_partAt (s : State) (f : Core → Core) (m : PartId) : (s.updCore f).partAt m = s.partAt m := rfl
@[simp] theorem State.updCore_launchAt (s : State) (f : Core → Core) (m : Nat) : (s.updCore f).launchAt m = s.launchAt m := rfl
@[simp] theorem State.updCore_hart (s : State) (f : Core → Core) : (s.updCore f).hart = s.hart := rfl
@[simp] theorem State.updCore_cluster (s : State) (f : Core → Core) : (s.updCore f).cluster = s.cluster := rfl
@[simp] theorem State.updCore_launchId (s : State) (f : Core → Core) : (s.updCore f).launchId = s.launchId := rfl

@[simp] theorem State.updClusterAt_hartAt (s : State) (c : ClusterId) (f : Cluster → Cluster) (m : HartId) : (s.updClusterAt c f).hartAt m = s.hartAt m := rfl
@[simp] theorem State.updClusterAt_coreAt (s : State) (c : ClusterId) (f : Cluster → Cluster) (m : CoreId) : (s.updClusterAt c f).coreAt m = s.coreAt m := rfl
@[simp] theorem State.updClusterAt_dieAt (s : State) (c : ClusterId) (f : Cluster → Cluster) (m : DieId) : (s.updClusterAt c f).dieAt m = s.dieAt m := rfl
@[simp] theorem State.updClusterAt_partAt (s : State) (c : ClusterId) (f : Cluster → Cluster) (m : PartId) : (s.updClusterAt c f).partAt m = s.partAt m := rfl
@[simp] theorem State.updClusterAt_launchAt (s : State) (c : ClusterId) (f : Cluster → Cluster) (m : Nat) : (s.updClusterAt c f).launchAt m = s.launchAt m := rfl
@[simp] theorem State.updClusterAt_hart (s : State) (c : ClusterId) (f : Cluster → Cluster) : (s.updClusterAt c f).hart = s.hart := rfl
@[simp] theorem State.updClusterAt_core (s : State) (c : ClusterId) (f : Cluster → Cluster) : (s.updClusterAt c f).core = s.core := rfl
@[simp] theorem State.updClusterAt_cycle (s : State) (c : ClusterId) (f : Cluster → Cluster) : (s.updClusterAt c f).cycle = s.cycle := rfl
@[simp] theorem State.updClusterAt_launchId (s : State) (c : ClusterId) (f : Cluster → Cluster) : (s.updClusterAt c f).launchId = s.launchId := rfl
@[simp] theorem State.updClusterAt_cycleAt (s : State) (c : ClusterId) (f : Cluster → Cluster) (c : CoreId) : (s.updClusterAt c f).cycleAt c = s.cycleAt c := rfl

@[simp] theorem State.updCluster_hartAt (s : State) (f : Cluster → Cluster) (m : HartId) : (s.updCluster f).hartAt m = s.hartAt m := rfl
@[simp] theorem State.updCluster_coreAt (s : State) (f : Cluster → Cluster) (m : CoreId) : (s.updCluster f).coreAt m = s.coreAt m := rfl
@[simp] theorem State.updCluster_dieAt (s : State) (f : Cluster → Cluster) (m : DieId) : (s.updCluster f).dieAt m = s.dieAt m := rfl
@[simp] theorem State.updCluster_partAt (s : State) (f : Cluster → Cluster) (m : PartId) : (s.updCluster f).partAt m = s.partAt m := rfl
@[simp] theorem State.updCluster_launchAt (s : State) (f : Cluster → Cluster) (m : Nat) : (s.updCluster f).launchAt m = s.launchAt m := rfl
@[simp] theorem State.updCluster_hart (s : State) (f : Cluster → Cluster) : (s.updCluster f).hart = s.hart := rfl
@[simp] theorem State.updCluster_core (s : State) (f : Cluster → Cluster) : (s.updCluster f).core = s.core := rfl
@[simp] theorem State.updCluster_cycle (s : State) (f : Cluster → Cluster) : (s.updCluster f).cycle = s.cycle := rfl
@[simp] theorem State.updCluster_launchId (s : State) (f : Cluster → Cluster) : (s.updCluster f).launchId = s.launchId := rfl
@[simp] theorem State.updCluster_cycleAt (s : State) (f : Cluster → Cluster) (c : CoreId) : (s.updCluster f).cycleAt c = s.cycleAt c := rfl

@[simp] theorem State.updDieAt_hartAt (s : State) (d : DieId) (f : Die → Die) (m : HartId) : (s.updDieAt d f).hartAt m = s.hartAt m := rfl
@[simp] theorem State.updDieAt_coreAt (s : State) (d : DieId) (f : Die → Die) (m : CoreId) : (s.updDieAt d f).coreAt m = s.coreAt m := rfl
@[simp] theorem State.updDieAt_clusterAt (s : State) (d : DieId) (f : Die → Die) (m : ClusterId) : (s.updDieAt d f).clusterAt m = s.clusterAt m := rfl
@[simp] theorem State.updDieAt_partAt (s : State) (d : DieId) (f : Die → Die) (m : PartId) : (s.updDieAt d f).partAt m = s.partAt m := rfl
@[simp] theorem State.updDieAt_launchAt (s : State) (d : DieId) (f : Die → Die) (m : Nat) : (s.updDieAt d f).launchAt m = s.launchAt m := rfl
@[simp] theorem State.updDieAt_hart (s : State) (d : DieId) (f : Die → Die) : (s.updDieAt d f).hart = s.hart := rfl
@[simp] theorem State.updDieAt_core (s : State) (d : DieId) (f : Die → Die) : (s.updDieAt d f).core = s.core := rfl
@[simp] theorem State.updDieAt_cluster (s : State) (d : DieId) (f : Die → Die) : (s.updDieAt d f).cluster = s.cluster := rfl
@[simp] theorem State.updDieAt_cycle (s : State) (d : DieId) (f : Die → Die) : (s.updDieAt d f).cycle = s.cycle := rfl
@[simp] theorem State.updDieAt_launchId (s : State) (d : DieId) (f : Die → Die) : (s.updDieAt d f).launchId = s.launchId := rfl
@[simp] theorem State.updDieAt_cycleAt (s : State) (d : DieId) (f : Die → Die) (c : CoreId) : (s.updDieAt d f).cycleAt c = s.cycleAt c := rfl

@[simp] theorem State.updPartAt_hartAt (s : State) (p : PartId) (f : Part → Part) (m : HartId) : (s.updPartAt p f).hartAt m = s.hartAt m := rfl
@[simp] theorem State.updPartAt_coreAt (s : State) (p : PartId) (f : Part → Part) (m : CoreId) : (s.updPartAt p f).coreAt m = s.coreAt m := rfl
@[simp] theorem State.updPartAt_clusterAt (s : State) (p : PartId) (f : Part → Part) (m : ClusterId) : (s.updPartAt p f).clusterAt m = s.clusterAt m := rfl
@[simp] theorem State.updPartAt_dieAt (s : State) (p : PartId) (f : Part → Part) (m : DieId) : (s.updPartAt p f).dieAt m = s.dieAt m := rfl
@[simp] theorem State.updPartAt_launchAt (s : State) (p : PartId) (f : Part → Part) (m : Nat) : (s.updPartAt p f).launchAt m = s.launchAt m := rfl
@[simp] theorem State.updPartAt_hart (s : State) (p : PartId) (f : Part → Part) : (s.updPartAt p f).hart = s.hart := rfl
@[simp] theorem State.updPartAt_core (s : State) (p : PartId) (f : Part → Part) : (s.updPartAt p f).core = s.core := rfl
@[simp] theorem State.updPartAt_cluster (s : State) (p : PartId) (f : Part → Part) : (s.updPartAt p f).cluster = s.cluster := rfl
@[simp] theorem State.updPartAt_cycle (s : State) (p : PartId) (f : Part → Part) : (s.updPartAt p f).cycle = s.cycle := rfl
@[simp] theorem State.updPartAt_launchId (s : State) (p : PartId) (f : Part → Part) : (s.updPartAt p f).launchId = s.launchId := rfl
@[simp] theorem State.updPartAt_cycleAt (s : State) (p : PartId) (f : Part → Part) (c : CoreId) : (s.updPartAt p f).cycleAt c = s.cycleAt c := rfl

@[simp] theorem State.updLaunchAt_hartAt (s : State) (i : Nat) (f : Launch → Launch) (m : HartId) : (s.updLaunchAt i f).hartAt m = s.hartAt m := rfl
@[simp] theorem State.updLaunchAt_coreAt (s : State) (i : Nat) (f : Launch → Launch) (m : CoreId) : (s.updLaunchAt i f).coreAt m = s.coreAt m := rfl
@[simp] theorem State.updLaunchAt_clusterAt (s : State) (i : Nat) (f : Launch → Launch) (m : ClusterId) : (s.updLaunchAt i f).clusterAt m = s.clusterAt m := rfl
@[simp] theorem State.updLaunchAt_dieAt (s : State) (i : Nat) (f : Launch → Launch) (m : DieId) : (s.updLaunchAt i f).dieAt m = s.dieAt m := rfl
@[simp] theorem State.updLaunchAt_partAt (s : State) (i : Nat) (f : Launch → Launch) (m : PartId) : (s.updLaunchAt i f).partAt m = s.partAt m := rfl
@[simp] theorem State.updLaunchAt_hart (s : State) (i : Nat) (f : Launch → Launch) : (s.updLaunchAt i f).hart = s.hart := rfl
@[simp] theorem State.updLaunchAt_core (s : State) (i : Nat) (f : Launch → Launch) : (s.updLaunchAt i f).core = s.core := rfl
@[simp] theorem State.updLaunchAt_cluster (s : State) (i : Nat) (f : Launch → Launch) : (s.updLaunchAt i f).cluster = s.cluster := rfl
@[simp] theorem State.updLaunchAt_cycle (s : State) (i : Nat) (f : Launch → Launch) : (s.updLaunchAt i f).cycle = s.cycle := rfl
@[simp] theorem State.updLaunchAt_launchId (s : State) (i : Nat) (f : Launch → Launch) : (s.updLaunchAt i f).launchId = s.launchId := rfl
@[simp] theorem State.updLaunchAt_cycleAt (s : State) (i : Nat) (f : Launch → Launch) (c : CoreId) : (s.updLaunchAt i f).cycleAt c = s.cycleAt c := rfl

@[simp] theorem State.spendFree_hartAt (s : State)  (m : HartId) : (s.spendFree).hartAt m = s.hartAt m := rfl
@[simp] theorem State.spendFree_coreAt (s : State)  (m : CoreId) : (s.spendFree).coreAt m = s.coreAt m := rfl
@[simp] theorem State.spendFree_clusterAt (s : State)  (m : ClusterId) : (s.spendFree).clusterAt m = s.clusterAt m := rfl
@[simp] theorem State.spendFree_dieAt (s : State)  (m : DieId) : (s.spendFree).dieAt m = s.dieAt m := rfl
@[simp] theorem State.spendFree_partAt (s : State)  (m : PartId) : (s.spendFree).partAt m = s.partAt m := rfl
@[simp] theorem State.spendFree_launchAt (s : State)  (m : Nat) : (s.spendFree).launchAt m = s.launchAt m := rfl
@[simp] theorem State.spendFree_hart (s : State)  : (s.spendFree).hart = s.hart := rfl
@[simp] theorem State.spendFree_core (s : State)  : (s.spendFree).core = s.core := rfl
@[simp] theorem State.spendFree_cluster (s : State)  : (s.spendFree).cluster = s.cluster := rfl
@[simp] theorem State.spendFree_cycle (s : State)  : (s.spendFree).cycle = s.cycle := rfl
@[simp] theorem State.spendFree_launchId (s : State)  : (s.spendFree).launchId = s.launchId := rfl
@[simp] theorem State.spendFree_cycleAt (s : State)  (c : CoreId) : (s.spendFree).cycleAt c = s.cycleAt c := rfl

@[simp] theorem State.updHartAt_hartAt_same (s : State) (n : HartId) (f : Hart → Hart) : (s.updHartAt n f).hartAt n = f (s.hartAt n) :=
  SMap.look_put_same _ _ _ _
theorem State.updHartAt_hartAt_ne (s : State) (n m : HartId) (f : Hart → Hart) (h : m ≠ n) : (s.updHartAt n f).hartAt m = s.hartAt m :=
  SMap.look_put_ne _ _ _ _ _ h
@[simp] theorem State.updCoreAt_coreAt_same (s : State) (n : CoreId) (f : Core → Core) : (s.updCoreAt n f).coreAt n = f (s.coreAt n) :=
  SMap.look_put_same _ _ _ _
theorem State.updCoreAt_coreAt_ne (s : State) (n m : CoreId) (f : Core → Core) (h : m ≠ n) : (s.updCoreAt n f).coreAt m = s.coreAt m :=
  SMap.look_put_ne _ _ _ _ _ h
@[simp] theorem State.updClusterAt_clusterAt_same (s : State) (n : ClusterId) (f : Cluster → Cluster) : (s.updClusterAt n f).clusterAt n = f (s.clusterAt n) :=
  SMap.look_put_same _ _ _ _
theorem State.updClusterAt_clusterAt_ne (s : State) (n m : ClusterId) (f : Cluster → Cluster) (h : m ≠ n) : (s.updClusterAt n f).clusterAt m = s.clusterAt m :=
  SMap.look_put_ne _ _ _ _ _ h
@[simp] theorem State.updDieAt_dieAt_same (s : State) (n : DieId) (f : Die → Die) : (s.updDieAt n f).dieAt n = f (s.dieAt n) :=
  SMap.look_put_same _ _ _ _
theorem State.updDieAt_dieAt_ne (s : State) (n m : DieId) (f : Die → Die) (h : m ≠ n) : (s.updDieAt n f).dieAt m = s.dieAt m :=
  SMap.look_put_ne _ _ _ _ _ h
@[simp] theorem State.updPartAt_partAt_same (s : State) (n : PartId) (f : Part → Part) : (s.updPartAt n f).partAt n = f (s.partAt n) :=
  SMap.look_put_same _ _ _ _
theorem State.updPartAt_partAt_ne (s : State) (n m : PartId) (f : Part → Part) (h : m ≠ n) : (s.updPartAt n f).partAt m = s.partAt m :=
  SMap.look_put_ne _ _ _ _ _ h
@[simp] theorem State.updLaunchAt_launchAt_same (s : State) (n : Nat) (f : Launch → Launch) : (s.updLaunchAt n f).launchAt n = f (s.launchAt n) :=
  SMap.look_put_same _ _ _ _
theorem State.updLaunchAt_launchAt_ne (s : State) (n m : Nat) (f : Launch → Launch) (h : m ≠ n) : (s.updLaunchAt n f).launchAt m = s.launchAt m :=
  SMap.look_put_ne _ _ _ _ _ h

@[simp] theorem State.updHart_hart (s : State) (f : Hart → Hart) : (s.updHart f).hart = f s.hart := State.updHartAt_hartAt_same s s.cur f
@[simp] theorem State.updCore_core (s : State) (f : Core → Core) : (s.updCore f).core = f s.core :=
  State.updCoreAt_coreAt_same s (coreOf s.cur) f
@[simp] theorem State.updCluster_cluster (s : State) (f : Cluster → Cluster) : (s.updCluster f).cluster = f s.cluster :=
  State.updClusterAt_clusterAt_same s (clusterOf s.cur) f
theorem State.updHart_hartAt_ne (s : State) (f : Hart → Hart) (m : HartId) (h : m ≠ s.cur) : (s.updHart f).hartAt m = s.hartAt m :=
  State.updHartAt_hartAt_ne s s.cur m f h
@[simp] theorem State.updHart_hartAt_cur (s : State) (f : Hart → Hart) : (s.updHart f).hartAt s.cur = f (s.hartAt s.cur) :=
  State.updHartAt_hartAt_same s s.cur f
@[simp] theorem State.updHart_updHart (s : State) (f g : Hart → Hart) : (s.updHart f).updHart g = s.updHart fun h => g (f h) := by
  simp only [State.updHart, State.setHart, State.setHartAt, State.hart, State.hartAt, SMap.look_put_same, SMap.put_put]
@[simp] theorem State.updCore_updCore (s : State) (f g : Core → Core) : (s.updCore f).updCore g = s.updCore fun k => g (f k) := by
  simp only [State.updCore, State.updCoreAt, State.setCoreAt, State.coreAt, SMap.look_put_same, SMap.put_put]

end Sys2Proof.Machine
end

