-- ==== Sys2Proof/Laws/Results.lean ====
section
/-! SUPPORT. Ordinary results in flight: what pushing one changes, when its register receives it, and what every other register reads. -/

namespace Sys2Proof.Machine

open Sys2Proof.Spec

/-! ### What a register read sees of the stored registers -/

/-- The stored part of a system register that a result may write. -/
def sysSeen (a : Regs × HartSys) : SysReg → Word
  | .fpmode => a.1.fpmode
  | .fpflags => a.1.fpflags
  | .vflags => a.1.vflags
  | .vl => a.1.vl
  | .rspill => a.1.rspill
  | .crec => a.1.crec
  | .livemask => a.1.livemask
  | .fscope => a.1.fscope
  | .sidx => a.1.sidx
  | .stepcnt => a.1.stepcnt
  | .epc => a.2.epc
  | .tscratch0 => a.2.ts0
  | .tscratch1 => a.2.ts1
  | _ => 0

/-- What a read of a register sees of the stored registers. -/
def seen (a : Regs × HartSys) : Reg → BitVec 256 × Bool
  | .x k => ((a.1.x.get k).setWidth 256, a.1.xPoi.getLsbD k.val)
  | .p k => (if a.1.p.getLsbD k.val then 1 else 0, a.1.pPoi.getLsbD k.val)
  | .m k => (a.1.m.get k, a.1.mPoi.getLsbD k.val)
  | .sys k => ((sysSeen a k).setWidth 256, false)

/-- One result written into both register sets that it may name. -/
def putBoth (a : Regs × HartSys) (w : PendW) : Regs × HartSys := (a.1.put w, a.2.put w)

/-- The registers that a destination names where `sel` selects bits. -/
def Dst.named (d : Dst) (sel : BitVec 256) : Reg → Bool
  | .x k => d = .x k
  | .p k => d = .pred && sel.getLsbD k.val
  | .m k => d = .mask k
  | .sys k => d = .sys k

theorem markBit_get {n : Nat} (m : BitVec n) (i j : Nat) (b : Bool) (hi : i < n) :
    (markBit m i b).getLsbD j = if j = i then b else m.getLsbD j := by
  unfold markBit
  by_cases h : j = i
  · subst h; cases b <;> simp [hi]
  · by_cases hj : j < n
    · cases b <;> simp [h, Ne.symm h, hj]
    · cases b <;> simp [h, hj, BitVec.getLsbD_of_ge _ j (Nat.le_of_not_lt hj)] <;> omega

/-- What a register reads as after a result is written, given what it read as before. -/
def seenPut (w : PendW) (r : Reg) (v : BitVec 256 × Bool) : BitVec 256 × Bool :=
  if w.dst.named w.sel r then
    match r with
    | .x _ => if w.sel = 0 then v else ((w.val.setWidth 64).setWidth 256, w.poi)
    | .p k => (if w.val.getLsbD k.val then 1 else 0, w.poi)
    | .m _ => if w.sel = 0 then v else ((v.1 &&& ~~~w.sel) ||| (w.val &&& w.sel), w.poi || (w.sel ≠ allBits && v.2))
    | .sys .vflags =>
      if w.sel = 0 then v
      else ((((v.1.setWidth 64) &&& ~~~(w.sel.setWidth 64)) ||| (w.val.setWidth 64 &&& w.sel.setWidth 64)).setWidth 256, false)
    | .sys k => if w.sel = 0 then v else if (sysStored k) then ((w.val.setWidth 64).setWidth 256, false) else v
  else v
where
  sysStored : SysReg → Bool
  | .fpmode | .fpflags | .vl | .rspill | .crec | .livemask | .fscope | .sidx | .stepcnt | .epc | .tscratch0 | .tscratch1 => true
  | _ => false

theorem getx_set (x : Vector Word 32) (d k : XReg) (v : Word) : (x.set d.val v).get k = if d = k then v else x.get k := by
  change (x.set d.val v)[k.val] = if d = k then v else x[k.val]
  rw [Vector.getElem_set]
  simp only [Fin.ext_iff]

theorem getm_set (x : Vector Mask 8) (d k : MReg) (v : Mask) : (x.set d.val v).get k = if d = k then v else x.get k := by
  change (x.set d.val v)[k.val] = if d = k then v else x[k.val]
  rw [Vector.getElem_set]
  simp only [Fin.ext_iff]

theorem markBit_elem {n : Nat} (m : BitVec n) (i j : Nat) (b : Bool) (hi : i < n) (hj : j < n) :
    (markBit m i b)[j] = if j = i then b else m[j] := by
  simpa [BitVec.getLsbD_eq_getElem hj] using markBit_get m i j b hi

theorem seen_put_x (a : Regs × HartSys) (w : PendW) (r : Reg) (d : XReg) (hd : w.dst = .x d) :
    seen (putBoth a w) r = seenPut w r (seen a r) := by
  obtain ⟨d', v, sel, poi, due, ser, head⟩ := w
  simp only at hd; subst hd
  by_cases hs : sel = 0#256
  · cases r with
    | sys k => cases k <;> simp [seen, putBoth, Regs.put, HartSys.put, seenPut, Dst.named, hs, sysSeen]
    | _ => simp [seen, putBoth, Regs.put, HartSys.put, seenPut, Dst.named, hs, sysSeen]
  · cases r with
    | x k =>
      by_cases h : d = k
      · subst h; simp [seen, putBoth, Regs.put, seenPut, Dst.named, hs, getx_set, markBit_elem, d.isLt]
      · have h2 : k.val ≠ d.val := fun e => h (Fin.ext e.symm)
        simp [seen, putBoth, Regs.put, seenPut, Dst.named, hs, getx_set, markBit_elem, d.isLt, h, h2]
    | sys k => cases k <;> simp [seen, putBoth, Regs.put, HartSys.put, seenPut, Dst.named, hs, sysSeen]
    | _ => simp [seen, putBoth, Regs.put, seenPut, Dst.named, hs]

theorem seen_put_pred (a : Regs × HartSys) (w : PendW) (r : Reg) (hd : w.dst = .pred) :
    seen (putBoth a w) r = seenPut w r (seen a r) := by
  obtain ⟨d', v, sel, poi, due, ser, head⟩ := w
  simp only at hd; subst hd
  cases r with
  | p k =>
    have hk := k.isLt
    by_cases hp : sel.getLsbD k.val <;> cases poi <;> simp [seen, putBoth, Regs.put, seenPut, Dst.named, hp, hk]
  | sys k => cases k <;> by_cases hs : sel = 0#256 <;> simp [seen, putBoth, Regs.put, HartSys.put, seenPut, Dst.named, hs, sysSeen]
  | _ => simp [seen, putBoth, Regs.put, seenPut, Dst.named]

theorem seen_put_mask (a : Regs × HartSys) (w : PendW) (r : Reg) (d : MReg) (hd : w.dst = .mask d) :
    seen (putBoth a w) r = seenPut w r (seen a r) := by
  obtain ⟨d', v, sel, poi, due, ser, head⟩ := w
  simp only at hd; subst hd
  by_cases hs : sel = 0#256
  · cases r with
    | sys k => cases k <;> simp [seen, putBoth, Regs.put, HartSys.put, seenPut, Dst.named, hs, sysSeen]
    | _ => simp [seen, putBoth, Regs.put, HartSys.put, seenPut, Dst.named, hs, sysSeen]
  · cases r with
    | m k =>
      by_cases h : d = k
      · subst h; simp [seen, putBoth, Regs.put, seenPut, Dst.named, hs, getm_set, markBit_elem, d.isLt]
      · have h2 : k.val ≠ d.val := fun e => h (Fin.ext e.symm)
        simp [seen, putBoth, Regs.put, seenPut, Dst.named, hs, getm_set, markBit_elem, d.isLt, h, h2]
    | sys k => cases k <;> simp [seen, putBoth, Regs.put, HartSys.put, seenPut, Dst.named, hs, sysSeen]
    | _ => simp [seen, putBoth, Regs.put, seenPut, Dst.named, hs]

theorem seen_put_sys_same (a : Regs × HartSys) (w : PendW) (d : SysReg) (hd : w.dst = .sys d) :
    seen (putBoth a w) (.sys d) = seenPut w (.sys d) (seen a (.sys d)) := by
  obtain ⟨d', v, sel, poi, due, ser, head⟩ := w
  simp only at hd; subst hd
  by_cases hs : sel = 0#256 <;>
    cases d <;> simp [seen, putBoth, Regs.put, HartSys.put, seenPut, Dst.named, hs, sysSeen, seenPut.sysStored]

theorem seen_put_sys_ne (a : Regs × HartSys) (w : PendW) (d k : SysReg) (hd : w.dst = .sys d) (h : d ≠ k) :
    seen (putBoth a w) (.sys k) = seen a (.sys k) := by
  obtain ⟨d', v, sel, poi, due, ser, head⟩ := w
  simp only at hd; subst hd
  by_cases hs : sel = 0#256
  · have h0 : sel = 0 := hs
    cases d <;> simp only [seen, putBoth, Regs.put, HartSys.put, h0, if_true]
  · have h0 : ¬ sel = 0 := hs
    cases d <;> simp only [seen, putBoth, Regs.put, HartSys.put, h0, if_false] <;> cases k <;> first | rfl | exact absurd rfl h

theorem seen_put_sys (a : Regs × HartSys) (w : PendW) (r : Reg) (d : SysReg) (hd : w.dst = .sys d) :
    seen (putBoth a w) r = seenPut w r (seen a r) := by
  cases r with
  | sys k =>
    by_cases h : d = k
    · subst h; exact seen_put_sys_same a w d hd
    · rw [seen_put_sys_ne a w d k hd h]
      have : w.dst.named w.sel (.sys k) = false := by simp [Dst.named, hd, h]
      simp [seenPut, this]
  | _ =>
    obtain ⟨d', v, sel, poi, due, ser, head⟩ := w
    simp only at hd; subst hd
    by_cases hs : sel = 0#256 <;> cases d <;> simp [seen, putBoth, Regs.put, seenPut, Dst.named, hs]

/-- Writing a result changes what is seen of the registers it names, and of no other. -/
theorem seen_put (a : Regs × HartSys) (w : PendW) (r : Reg) : seen (putBoth a w) r = seenPut w r (seen a r) := by
  cases h : w.dst with
  | x d => exact seen_put_x a w r d h
  | pred => exact seen_put_pred a w r h
  | mask d => exact seen_put_mask a w r d h
  | sys d => exact seen_put_sys a w r d h

/-! ### Settling -/

/-- Both register sets of a hart. -/
def Hart.both (h : Hart) : Regs × HartSys := (h.r, h.sys)

/-- Both register sets after the results whose cycle has come by `c`. -/
def settled (c : Nat) (l : List PendW) (a : Regs × HartSys) : Regs × HartSys := (l.filter fun w => decide (w.due ≤ c)).foldl putBoth a

theorem both_foldl (l : List PendW) : ∀ h : Hart, (l.foldl Hart.write h).both = l.foldl putBoth h.both := by
  induction l with
  | nil => intro h; rfl
  | cons w l ih => intro h; exact ih _

/-- Both register sets as a hart holds them at cycle `c`: results that wait in the snapshot buffer are not written (R347). -/
def view (c : Nat) (h : Hart) : Regs × HartSys := if h.drain = .no then settled c h.wq h.both else h.both

theorem settle_both (c : Nat) (h : Hart) : (h.settle c).both = view c h := by
  have := both_foldl (h.wq.filter fun w => decide (w.due ≤ c)) h
  unfold Hart.settle view
  by_cases hd : h.drain = .no
  · simpa [hd, Hart.both, settled] using this
  · simp [hd]

theorem settled_append (c : Nat) (l l' : List PendW) (a : Regs × HartSys) : settled c (l ++ l') a = settled c l' (settled c l a) := by
  simp [settled]

/-- Two lists of results that differ only in what register `r` does not see. -/
theorem settled_seen (c : Nat) (r : Reg) (f : PendW → PendW) (hdue : ∀ w, (f w).due = w.due)
    (hf : ∀ w v, seenPut (f w) r v = seenPut w r v) : ∀ (l : List PendW) (a b : Regs × HartSys), seen a r = seen b r →
      seen (settled c (l.map f) a) r = seen (settled c l b) r := by
  intro l
  induction l with
  | nil => intro a b h; exact h
  | cons w l ih =>
    intro a b h
    by_cases hd : w.due ≤ c
    · have := ih (putBoth a (f w)) (putBoth b w) (by rw [seen_put, seen_put, hf, h])
      simpa [settled, hdue, hd] using this
    · have := ih a b h
      simpa [settled, hdue, hd] using this

/-! ### Reading a register at a cycle -/

/-- What no ordinary result writes, and a read of a system register sees. -/
structure SysFixed (s t : State) : Prop where
  cur : t.cur = s.cur
  now : t.now = s.now
  pkg : t.pkg = s.pkg
  gmode : t.core.gmode = s.core.gmode
  t0 : t.core.t0 = s.core.t0
  dpt : t.core.dptroot = s.core.dptroot
  ipt : t.core.iptroot = s.core.iptroot
  queues : t.core.queues = s.core.queues
  mtag : t.core.mtag = s.core.mtag
  hist : t.core.hist = s.core.hist
  wh : t.hart.wh = s.hart.wh
  bundles : t.hart.bundles = s.hart.bundles
  inh : t.hart.r.inh = s.hart.r.inh
  tr : t.hart.sys.tr = s.hart.sys.tr
  ckptpc : t.hart.sys.ckptpc = s.hart.sys.ckptpc
  txtag : t.hart.sys.txtag = s.hart.sys.txtag

theorem Regs.put_inh (a : Regs) (w : PendW) : (a.put w).inh = a.inh := by
  unfold Regs.put
  split <;> try rfl
  · split <;> rfl
  · split <;> rfl
  · split
    · rfl
    · simp only []; split <;> rfl

theorem HartSys.put_fixed (a : HartSys) (w : PendW) :
    (a.put w).tr = a.tr ∧ (a.put w).ckptpc = a.ckptpc ∧ (a.put w).txtag = a.txtag := by
  unfold HartSys.put
  split
  · exact ⟨rfl, rfl, rfl⟩
  · split <;> exact ⟨rfl, rfl, rfl⟩

theorem putBoth_fixed (l : List PendW) : ∀ a : Regs × HartSys, (l.foldl putBoth a).1.inh = a.1.inh ∧ (l.foldl putBoth a).2.tr = a.2.tr ∧
    (l.foldl putBoth a).2.ckptpc = a.2.ckptpc ∧ (l.foldl putBoth a).2.txtag = a.2.txtag := by
  induction l with
  | nil => intro a; exact ⟨rfl, rfl, rfl, rfl⟩
  | cons w l ih =>
    intro a
    obtain ⟨h1, h2, h3, h4⟩ := ih (putBoth a w)
    obtain ⟨g1, g2, g3⟩ := HartSys.put_fixed a.2 w
    exact ⟨h1.trans (Regs.put_inh _ _), h2.trans g1, h3.trans g2, h4.trans g3⟩

theorem write_rest (l : List PendW) : ∀ h : Hart, (l.foldl Hart.write h).wh = h.wh ∧ (l.foldl Hart.write h).bundles = h.bundles := by
  induction l with
  | nil => intro h; exact ⟨rfl, rfl⟩
  | cons w l ih => intro h; exact ih _

/-- What settling leaves as it is. -/
theorem settle_fixed (c : Nat) (h : Hart) : (h.settle c).r.inh = h.r.inh ∧ (h.settle c).sys.tr = h.sys.tr ∧
    (h.settle c).sys.ckptpc = h.sys.ckptpc ∧ (h.settle c).sys.txtag = h.sys.txtag ∧ (h.settle c).wh = h.wh ∧ (h.settle c).bundles = h.bundles := by
  have f := putBoth_fixed (h.wq.filter fun w => decide (w.due ≤ c)) h.both
  rw [← both_foldl] at f
  have w := write_rest (h.wq.filter fun w => decide (w.due ≤ c)) h
  unfold Hart.settle
  by_cases hd : h.drain = .no
  · simp only [hd, ne_eq, not_true_eq_false, if_false]
    exact ⟨f.1, f.2.1, f.2.2.1, f.2.2.2, w.1, w.2⟩
  · simp [hd]

theorem atCycle_hart (s : State) (c : Nat) : (atCycle s c).hart = s.hart.settle c := by simp [atCycle]

theorem setWidth_inj {a b : Word} (h : a.setWidth 256 = b.setWidth 256) : a = b := by
  have := congrArg (BitVec.setWidth 64) h
  simpa using this

/-- Reads at a cycle agree where the register sees the same. -/
theorem read_congr (s t : State) (c : Nat) (r : Reg) (hf : SysFixed s t)
    (h : seen (view c t.hart) r = seen (view c s.hart) r) : r.read (atCycle t c) = r.read (atCycle s c) := by
  rw [← settle_both, ← settle_both] at h
  obtain ⟨ft1, ft2, ft3, ft4, wt1, wt2⟩ := settle_fixed c t.hart
  obtain ⟨fs1, fs2, fs3, fs4, ws1, ws2⟩ := settle_fixed c s.hart
  simp only [Hart.both] at h
  cases r with
  | x k =>
    simp only [seen, Prod.mk.injEq] at h
    have hx := setWidth_inj h.1
    simp only [Reg.read, Reg.value, Reg.mark, State.x, State.xPoi, Hart.x, Hart.xPoi, atCycle_hart, hx, h.2]
  | p k =>
    simp only [seen, Prod.mk.injEq] at h
    have hp : (t.hart.settle c).r.p.getLsbD k.val = (s.hart.settle c).r.p.getLsbD k.val := by
      have := h.1
      cases h1 : (t.hart.settle c).r.p.getLsbD k.val <;> cases h2 : (s.hart.settle c).r.p.getLsbD k.val <;>
        first | rfl | (rw [h1, h2] at this; exact absurd this (by decide))
    simp only [Reg.read, Reg.value, Reg.mark, State.p, State.pPoi, Hart.p, Hart.pPoi, atCycle_hart, hp, h.2]
  | m k =>
    simp only [seen, Prod.mk.injEq] at h
    simp only [Reg.read, Reg.value, Reg.mark, State.m, State.mPoi, Hart.m, Hart.mPoi, atCycle_hart, h.1, h.2]
  | sys k =>
    have hc : ∀ u : State, (atCycle u c).core = u.core := fun u => rfl
    have hcy : (atCycle t c).cycle = (atCycle s c).cycle := by
      have a1 : ∀ u : State, (atCycle u c).cycle = u.now - u.core.t0 := fun u => rfl
      rw [a1, a1, hf.now, hf.t0]
    have hcur : ∀ u : State, (atCycle u c).cur = u.cur := fun u => rfl
    have hpkg : ∀ u : State, (atCycle u c).pkg = u.pkg := fun u => rfl
    simp only [seen, Prod.mk.injEq, and_true] at h
    have h' := setWidth_inj h
    simp only [Reg.read, Reg.mark, Reg.value, Prod.mk.injEq, and_true]
    congr 1
    cases k <;> simp only [State.sysValue, atCycle_hart, hc, hcur, hpkg, hcy, hf.cur, hf.pkg, hf.gmode, hf.dpt, hf.ipt, hf.mtag,
      Hart.trapcause, State.ckstat, Core.histOf, Hart.withheld, wt1, wt2, ws1, ws2, hf.hist, hf.wh, hf.bundles, ft1, ft2, ft3, ft4,
      fs1, fs2, fs3, fs4, hf.inh, hf.tr, hf.ckptpc, hf.txtag, Core.qbaseWord, Core.qsizeWord, hf.queues] <;> exact h'

/-! ### Pushing a result -/

/-- The bits of `sel` that no result of a higher head index of the same bundle holds. -/
def Hart.freeSel (h : Hart) (d : Dst) (sel : BitVec 256) : BitVec 256 :=
  sel &&& ~~~(h.bun.above d)

/-- The earlier results of the bundle for the same destination, without the bits that the new one takes. -/
def Hart.trimmed (h : Hart) (d : Dst) (sel : BitVec 256) (w : PendW) : PendW :=
  if (w.ser = h.ser && w.dst = d) && w.head < h.bun.head then { w with sel := w.sel &&& ~~~sel } else w

def Hart.pushed (h : Hart) (due : Nat) (d : Dst) (v sel : BitVec 256) (poi : Bool) : Hart :=
  { h with
    wq := h.wq.map (h.trimmed d (h.freeSel d sel)) ++ [⟨d, v, h.freeSel d sel, poi, due, h.ser, h.bun.head⟩]
    bun := { h.bun with wrote := h.bun.wrote ++ [(d, h.freeSel d sel, h.bun.head)] } }

theorem push_eq (s : State) (d : Dst) (v sel : BitVec 256) (poi : Bool) (lat : Nat) :
    s.push d v sel poi lat = s.updHart fun h => h.pushed (s.cycle + lat) d v sel poi := rfl

theorem freeSel_latest (s : State) (h : Latest s) (d : Dst) (sel : BitVec 256) : s.hart.freeSel d sel = sel := by
  have : ∀ (l : List (Dst × BitVec 256 × Nat)) (m : BitVec 256), (∀ w ∈ l, w.2.2 ≤ s.hart.bun.head) →
      l.foldl (fun m w => if w.1 = d && s.hart.bun.head < w.2.2 then m ||| w.2.1 else m) m = m := by
    intro l
    induction l with
    | nil => intro m _; rfl
    | cons w l ih =>
      intro m hl
      have hw := hl w (by simp)
      rw [List.foldl_cons, if_neg, ih m fun x hx => hl x (by simp [hx])]
      simp only [Bool.and_eq_true, decide_eq_true_eq, not_and, Nat.not_lt]
      exact fun _ => hw
  unfold Hart.freeSel Bundle.above
  rw [this s.hart.bun.wrote 0 h.2.1]
  show sel &&& ~~~(0#256) = sel
  rw [BitVec.not_zero, BitVec.and_allOnes]

theorem freeSel_le (h : Hart) (d : Dst) (sel : BitVec 256) (r : Reg) (hn : d.named sel r = false) : d.named (h.freeSel d sel) r = false := by
  cases r with
  | p k =>
    simp only [Dst.named, Bool.and_eq_false_iff, decide_eq_false_iff_not] at *
    rcases hn with hn | hn
    · exact .inl hn
    · right; rw [Hart.freeSel, BitVec.getLsbD_and, hn, Bool.false_and]
  | _ => exact hn

theorem trimmed_due (h : Hart) (d : Dst) (sel : BitVec 256) (w : PendW) : (h.trimmed d sel w).due = w.due := by
  unfold Hart.trimmed; split <;> rfl

theorem trimmed_seen (h : Hart) (d : Dst) (sel : BitVec 256) (w : PendW) (r : Reg) (hn : d.named sel r = false) (v : BitVec 256 × Bool) :
    seenPut (h.trimmed d sel w) r v = seenPut w r v := by
  unfold Hart.trimmed
  split
  · rename_i hc
    simp only [Bool.and_eq_true, decide_eq_true_eq] at hc
    obtain ⟨⟨-, hd⟩, -⟩ := hc
    have e : w.dst.named (w.sel &&& ~~~sel) r = w.dst.named w.sel r := by
      cases r with
      | p k =>
        rw [hd]
        simp only [Dst.named, Bool.and_eq_false_iff, decide_eq_false_iff_not] at *
        by_cases hp : d = .pred
        · have hs : sel.getLsbD k.val = false := hn.resolve_left (fun h => h hp)
          have hk : k.val < 256 := by omega
          simp only [hp, BitVec.getLsbD_and, BitVec.getLsbD_not, hs, hk, decide_true, Bool.not_false, Bool.and_true]
        · simp [hp]
      | _ => rfl
    unfold seenPut
    rw [e]
    split
    · rename_i hnm
      cases r with
      | p k => rfl
      | x k => simp only [Dst.named, decide_eq_true_eq, decide_eq_false_iff_not] at hnm hn; exact absurd (hd ▸ hnm) hn
      | m k => simp only [Dst.named, decide_eq_true_eq, decide_eq_false_iff_not] at hnm hn; exact absurd (hd ▸ hnm) hn
      | sys k => simp only [Dst.named, decide_eq_true_eq, decide_eq_false_iff_not] at hnm hn; exact absurd (hd ▸ hnm) hn
    · rfl
  · rfl

theorem SysFixed.updHart (s : State) (f : Hart → Hart) (h1 : (f s.hart).wh = s.hart.wh) (h2 : (f s.hart).bundles = s.hart.bundles)
    (h3 : (f s.hart).r.inh = s.hart.r.inh) (h4 : (f s.hart).sys.tr = s.hart.sys.tr) (h5 : (f s.hart).sys.ckptpc = s.hart.sys.ckptpc)
    (h6 : (f s.hart).sys.txtag = s.hart.sys.txtag) : SysFixed s (s.updHart f) := by
  constructor <;> simp [*]

theorem SysFixed.push (s : State) (d : Dst) (v sel : BitVec 256) (poi : Bool) (lat : Nat) : SysFixed s (s.push d v sel poi lat) := by
  rw [push_eq]; exact SysFixed.updHart s (fun h => h.pushed (s.cycle + lat) d v sel poi) rfl rfl rfl rfl rfl rfl

theorem push_hart (s : State) (d : Dst) (v sel : BitVec 256) (poi : Bool) (lat : Nat) :
    (s.push d v sel poi lat).hart = s.hart.pushed (s.cycle + lat) d v sel poi := by rw [push_eq]; simp

/-- A result changes what no register but those it names reads as. -/
theorem push_keeps (s : State) (d : Dst) (v sel : BitVec 256) (poi : Bool) (lat : Nat) (l : List Reg)
    (hl : ∀ r, d.named sel r = true → r ∈ l) : Keeps s (s.push d v sel poi lat) l := by
  intro c r hr
  have hn : d.named sel r = false := by
    cases h : d.named sel r with
    | false => rfl
    | true => exact absurd (hl r h) hr
  have hf := freeSel_le s.hart d sel r hn
  refine read_congr _ _ c r (SysFixed.push ..) ?_
  rw [push_hart]
  by_cases hdr : s.hart.drain = .no
  case neg => simp [view, Hart.pushed, Hart.both, hdr]
  have e : view c (s.hart.pushed (s.cycle + lat) d v sel poi) = settled c (s.hart.wq.map (s.hart.trimmed d (s.hart.freeSel d sel)) ++
      [⟨d, v, s.hart.freeSel d sel, poi, s.cycle + lat, s.hart.ser, s.hart.bun.head⟩]) s.hart.both := by
    simp [view, Hart.pushed, Hart.both, hdr]
  rw [e, settled_append]
  have es : view c s.hart = settled c s.hart.wq s.hart.both := by simp [view, hdr]
  rw [es]
  have key := settled_seen c r (s.hart.trimmed d (s.hart.freeSel d sel)) (trimmed_due _ _ _)
    (fun w v => trimmed_seen _ _ _ w r hf v) s.hart.wq s.hart.both s.hart.both rfl
  rw [← key]
  by_cases hd : s.cycle + lat ≤ c
  · simp [settled, hd, seen_put, seenPut, hf]
  · simp [settled, hd]

/-- What the named registers see of a result at its cycle. -/
theorem push_seen (s : State) (d : Dst) (v sel : BitVec 256) (poi : Bool) (lat : Nat) (hl : Latest s) (r : Reg) :
    ∃ o, seen ((s.push d v sel poi lat).hart.settle (s.cycle + lat)).both r =
      seenPut ⟨d, v, sel, poi, s.cycle + lat, s.hart.ser, s.hart.bun.head⟩ r o := by
  rw [settle_both, push_hart]
  refine ⟨seen (settled (s.cycle + lat) (s.hart.wq.map (s.hart.trimmed d (s.hart.freeSel d sel))) s.hart.both) r, ?_⟩
  have hdr := hl.2.2
  have e : view (s.cycle + lat) (s.hart.pushed (s.cycle + lat) d v sel poi) = settled (s.cycle + lat)
      (s.hart.wq.map (s.hart.trimmed d (s.hart.freeSel d sel)) ++ [⟨d, v, s.hart.freeSel d sel, poi, s.cycle + lat, s.hart.ser, s.hart.bun.head⟩])
      s.hart.both := by simp [view, Hart.pushed, Hart.both, hdr]
  rw [e, settled_append, freeSel_latest s hl]
  simp [settled, seen_put]

theorem push_latest (s : State) (d : Dst) (v sel : BitVec 256) (poi : Bool) (lat : Nat) (hl : Latest s) :
    Latest (s.push d v sel poi lat) := by
  unfold Latest
  rw [push_hart]
  refine ⟨?_, ?_, hl.2.2⟩
  case refine_2 =>
    intro w hw
    simp only [Hart.pushed, List.mem_append, List.mem_singleton] at hw
    rcases hw with hw | rfl
    · exact hl.2.1 w hw
    · exact Nat.le_refl _
  intro w hw
  simp only [Hart.pushed, List.mem_append, List.mem_map, List.mem_singleton] at hw
  rcases hw with ⟨x, hx, rfl⟩ | rfl
  · intro hs
    have e1 : (s.hart.trimmed d (s.hart.freeSel d sel) x).ser = x.ser := by unfold Hart.trimmed; split <;> rfl
    have e2 : (s.hart.trimmed d (s.hart.freeSel d sel) x).head = x.head := by unfold Hart.trimmed; split <;> rfl
    rw [e1] at hs; rw [e2]; exact hl.1 x hx hs
  · intro _; exact Nat.le_refl _

theorem Keeps.trans {s t u : State} {a b : List Reg} (h1 : Keeps s t a) (h2 : Keeps t u b) : Keeps s u (a ++ b) := by
  intro c r hr
  simp only [List.mem_append, not_or] at hr
  rw [h2 c r hr.2, h1 c r hr.1]

theorem Keeps.refl (s : State) (l : List Reg) : Keeps s s l := fun _ _ _ => rfl

theorem Lands.nil (s : State) (lat : Nat) : Lands s s lat [] := ⟨by simp, Keeps.refl s _⟩

/-- Results for different registers, one after the other. -/
theorem Lands.append {s t u : State} {lat : Nat} {a b : Writes} (h1 : Lands s t lat a) (h2 : Lands t u lat b) (hc : t.cycle = s.cycle)
    (hd : ∀ w ∈ a, w.1 ∉ b.map fun w => w.1) : Lands s u lat (a ++ b) := by
  refine ⟨fun w hw => ?_, ?_⟩
  · rcases List.mem_append.1 hw with hw | hw
    · rw [h2.2 _ _ (hd w hw)]; exact h1.1 w hw
    · rw [← hc]; exact h2.1 w hw
  · simpa using Keeps.trans h1.2 h2.2

/-! ### The results of operations -/

theorem setWidth_64_256 (v : Word) : (v.setWidth 256).setWidth 64 = v := by simp

theorem push_cycle (s : State) (d : Dst) (v sel : BitVec 256) (poi : Bool) (lat : Nat) : (s.push d v sel poi lat).cycle = s.cycle := rfl

/-- A scalar result lands in its register and in no other (R46, R98). -/
theorem putX_lands (s : State) (r : XReg) (v : Word) (poi : Bool) (lat : Nat) (hl : Latest s) :
    Lands s (s.putX r v poi lat) lat (toX r v poi) := by
  unfold State.putX toX
  by_cases h : r = 0
  · simp only [h, if_true]; exact Lands.nil s lat
  · simp only [h, if_false]
    refine ⟨?_, push_keeps s _ _ _ _ _ _ ?_⟩
    · intro w hw
      rw [List.mem_singleton] at hw; subst hw
      obtain ⟨o, ho⟩ := push_seen s (.x r) (v.setWidth 256) allBits poi lat hl (.x r)
      have hn : (allBits : BitVec 256) ≠ 0 := by decide
      simp only [seenPut, Dst.named, decide_true, if_true, hn, if_false, setWidth_64_256, seen, Prod.mk.injEq, Hart.both] at ho
      have hx := setWidth_inj ho.1
      simp only [Reg.read, Reg.value, Reg.mark, State.x, State.xPoi, Hart.x, Hart.xPoi, atCycle_hart, h, if_false, hx, ho.2, ne_eq,
        not_false_eq_true, decide_true, Bool.true_and]
    · intro q hq
      cases q <;> simp_all [Dst.named]

theorem bit_inj {a b : Bool} (h : (if a then (1 : BitVec 256) else 0) = if b then 1 else 0) : a = b := by
  cases a <;> cases b <;> first | rfl | exact absurd h (by decide)

/-- A predicate result (R46, R98). -/
theorem putP_lands (s : State) (r : PReg) (b poi : Bool) (lat : Nat) (hl : Latest s) :
    Lands s (s.putP r b poi lat) lat (toP r b poi) := by
  unfold State.putP toP
  by_cases h : r = 0
  · simp only [h, if_true]; exact Lands.nil s lat
  · have hr : r.val < 256 := by omega
    simp only [h, if_false]
    refine ⟨?_, push_keeps s _ _ _ _ _ _ ?_⟩
    · intro w hw
      rw [List.mem_singleton] at hw; subst hw
      obtain ⟨o, ho⟩ := push_seen s .pred (if b then BitVec.twoPow 256 r.val else 0) (BitVec.twoPow 256 r.val) poi lat hl (.p r)
      have hn : (BitVec.twoPow 256 r.val).getLsbD r.val = true := by simp [hr]
      simp only [seenPut, Dst.named, hn, decide_true, Bool.and_self, if_true, seen, Prod.mk.injEq, Hart.both] at ho
      have hp : ((s.push .pred (if b then BitVec.twoPow 256 r.val else 0) (BitVec.twoPow 256 r.val) poi lat).hart.settle
          (s.cycle + lat)).r.p.getLsbD r.val = b := by
        refine (bit_inj ho.1).trans ?_
        cases b <;> simp [hr]
      simp only [Reg.read, Reg.value, Reg.mark, State.p, State.pPoi, Hart.p, Hart.pPoi, atCycle_hart, h, hp, ho.2, ne_eq,
        not_false_eq_true, decide_true, decide_false, Bool.true_and, Bool.false_or]
    · intro q hq
      cases q with
      | p k =>
        simp only [Dst.named, decide_true, Bool.true_and, BitVec.getLsbD_twoPow, Bool.and_eq_true, decide_eq_true_eq] at hq
        have : k = r := Fin.ext hq.2.symm
        simp [this]
      | _ => simp [Dst.named] at hq

theorem putP_latest (s : State) (r : PReg) (b poi : Bool) (lat : Nat) (hl : Latest s) : Latest (s.putP r b poi lat) := by
  unfold State.putP; split
  · exact hl
  · exact push_latest _ _ _ _ _ _ hl

theorem putX_latest (s : State) (r : XReg) (v : Word) (poi : Bool) (lat : Nat) (hl : Latest s) : Latest (s.putX r v poi lat) := by
  unfold State.putX; split
  · exact hl
  · exact push_latest _ _ _ _ _ _ hl

theorem putSys_latest (s : State) (r : SysReg) (v : Word) (hl : Latest s) : Latest (s.putSys r v) := push_latest _ _ _ _ _ _ hl

theorem putP_cycle (s : State) (r : PReg) (b poi : Bool) (lat : Nat) : (s.putP r b poi lat).cycle = s.cycle := by
  unfold State.putP; split <;> rfl

theorem putX_cycle (s : State) (r : XReg) (v : Word) (poi : Bool) (lat : Nat) : (s.putX r v poi lat).cycle = s.cycle := by
  unfold State.putX; split <;> rfl

/-- The two results of a compare (R77). -/
theorem putP2_lands (s : State) (pd pc : PReg) (b poi : Bool) (lat : Nat) (hl : Latest s) (ht : twice pd pc = false) :
    Lands s (s.putP2 pd pc b poi lat) lat (toP2 pd pc b poi) := by
  unfold State.putP2 toP2
  refine Lands.append (putP_lands s pd b poi lat hl) (putP_lands _ pc (!b) poi lat (putP_latest _ _ _ _ _ hl)) (putP_cycle ..) ?_
  intro w hw
  simp only [toP] at *
  by_cases h1 : pd = 0
  · simp [h1] at hw
  · by_cases h2 : pc = 0
    · simp [h2]
    · simp only [h1, if_false, List.mem_singleton] at hw
      subst hw
      simp only [h2, if_false, List.map_cons, List.map_nil, List.mem_singleton, Reg.p.injEq]
      intro e; subst e; simp [twice, h1] at ht

/-- A mask result (R46, R98). -/
theorem putM_lands (s : State) (r : MReg) (v : Mask) (poi : Bool) (lat : Nat) (hl : Latest s) :
    Lands s (s.putM r v poi lat) lat (toM r v poi) := by
  unfold State.putM toM
  by_cases h : r = 0
  · simp only [h, if_true]; exact Lands.nil s lat
  · simp only [h, if_false]
    refine ⟨?_, push_keeps s _ _ _ _ _ _ ?_⟩
    · intro w hw
      rw [List.mem_singleton] at hw; subst hw
      obtain ⟨o, ho⟩ := push_seen s (.mask r) v allBits poi lat hl (.m r)
      have hn : (allBits : BitVec 256) ≠ 0 := by decide
      simp only [seenPut, Dst.named, decide_true, if_true, hn, if_false, seen, Prod.mk.injEq, Hart.both] at ho
      have h1 : (o.1 &&& ~~~allBits ||| v &&& allBits) = v := by
        rw [allBits, BitVec.and_allOnes, BitVec.not_allOnes, BitVec.and_zero, BitVec.zero_or]
      rw [h1] at ho
      simp only [Reg.read, Reg.value, Reg.mark, State.m, State.mPoi, Hart.m, Hart.mPoi, atCycle_hart, h, if_false, ho, ne_eq,
        not_false_eq_true, not_true_eq_false, decide_true, decide_false, Bool.true_and, Bool.false_and, Bool.or_false]
    · intro q hq
      cases q <;> simp_all [Dst.named]

/-- A system register result, in force for the next bundle (R37, R357). -/
theorem putSys_lands (s : State) (r : SysReg) (v : Word) (hl : Latest s) (hw : r.writable = true) :
    Lands s (s.putSys r v) 1 (toSys r v) := by
  unfold State.putSys toSys
  refine ⟨?_, push_keeps s _ _ _ _ _ _ ?_⟩
  · intro w hw'
    rw [List.mem_singleton] at hw'; subst hw'
    obtain ⟨o, ho⟩ := push_seen s (.sys r) (v.setWidth 256) allBits false 1 hl (.sys r)
    have hn : (allBits : BitVec 256) ≠ 0 := by decide
    have hv : ((o.1.setWidth 64) &&& ~~~(allBits.setWidth 64) ||| v &&& allBits.setWidth 64) = v := by
      have : (allBits.setWidth 64 : Word) = BitVec.allOnes 64 := by decide
      rw [this, BitVec.and_allOnes, BitVec.not_allOnes, BitVec.and_zero, BitVec.zero_or]
    simp only [Reg.read, Reg.mark, Reg.value, Prod.mk.injEq, and_true]
    congr 1
    cases r <;> simp [SysReg.writable] at hw <;>
      simp only [seenPut, Dst.named, decide_true, if_true, hn, if_false, seenPut.sysStored, setWidth_64_256, seen, sysSeen, Hart.both,
        Prod.mk.injEq, and_true, hv] at ho <;>
      simp only [State.sysValue, atCycle_hart] <;> exact setWidth_inj ho
  · intro q hq
    cases q <;> simp_all [Dst.named]

/-! ### Frames -/

theorem SameBytes.updHart (s : State) (f : Hart → Hart) : SameBytes s (s.updHart f) := fun u _ => by cases u <;> rfl

theorem Local.updHart (s : State) (f : Hart → Hart) : Local s (s.updHart f) :=
  ⟨rfl, fun n hn => State.updHart_hartAt_ne s f n hn, fun _ _ => rfl⟩

theorem Local.refl (s : State) : Local s s := ⟨rfl, fun _ _ => rfl, fun _ _ => rfl⟩

/-- Results in flight apart, nothing has changed. -/
structure WqOnly (s t : State) : Prop where
  bytes : SameBytes s t
  loc : Local s t
  hart : t.hart = withResults t s.hart
  core : t.core = s.core

theorem WqOnly.refl (s : State) : WqOnly s s := ⟨fun _ _ => rfl, Local.refl s, rfl, rfl⟩

theorem Local.trans {s t u : State} (h1 : Local s t) (h2 : Local t u) : Local s u := by
  have hc : t.cur = s.cur := by rw [h1.1]
  refine ⟨?_, fun n hn => ?_, fun c hn => ?_⟩
  · rw [h2.1, h1.1]
  · rw [h2.2.1 n (by rw [hc]; exact hn), h1.2.1 n hn]
  · rw [h2.2.2 c (by rw [hc]; exact hn), h1.2.2 c hn]

theorem WqOnly.trans {s t u : State} (h1 : WqOnly s t) (h2 : WqOnly t u) : WqOnly s u :=
  ⟨fun a b => (h2.bytes a b).trans (h1.bytes a b), Local.trans h1.loc h2.loc, by rw [h2.hart, h1.hart]; rfl, h2.core.trans h1.core⟩

theorem push_wqOnly (s : State) (d : Dst) (v sel : BitVec 256) (poi : Bool) (lat : Nat) : WqOnly s (s.push d v sel poi lat) := by
  rw [push_eq]
  exact ⟨SameBytes.updHart _ _, Local.updHart _ _, by simp [Hart.pushed, withResults], rfl⟩

theorem putX_wqOnly (s : State) (r : XReg) (v : Word) (poi : Bool) (lat : Nat) : WqOnly s (s.putX r v poi lat) := by
  unfold State.putX; split
  · exact WqOnly.refl s
  · exact push_wqOnly ..

theorem putP_wqOnly (s : State) (r : PReg) (b poi : Bool) (lat : Nat) : WqOnly s (s.putP r b poi lat) := by
  unfold State.putP; split
  · exact WqOnly.refl s
  · exact push_wqOnly ..

theorem putP2_wqOnly (s : State) (pd pc : PReg) (b poi : Bool) (lat : Nat) : WqOnly s (s.putP2 pd pc b poi lat) :=
  (putP_wqOnly ..).trans (putP_wqOnly ..)

theorem putM_wqOnly (s : State) (r : MReg) (v : Mask) (poi : Bool) (lat : Nat) : WqOnly s (s.putM r v poi lat) := by
  unfold State.putM; split
  · exact WqOnly.refl s
  · exact push_wqOnly ..

theorem putSys_wqOnly (s : State) (r : SysReg) (v : Word) : WqOnly s (s.putSys r v) := push_wqOnly ..

/-- An operation that leaves results in flight and nothing else. -/
theorem computes_of {i : Instr} {s t : State} {lat : Nat} {ws : Writes} (he : exec i s = .next t) (hl : Lands s t lat ws)
    (hw : WqOnly s t) : Computes i s lat ws :=
  ⟨t, he, hl.1, hl.2, hw.bytes, hw.loc, hw.hart, hw.core⟩

/-- What an operation with a true guard answers. -/
theorem guarded_enabled {s : State} {h : Head} (he : Enabled s h) (f : State → State) : guarded h f s = .next (f s) := by
  simp [guarded, he.1, he.2]

end Sys2Proof.Machine
end

