-- ==== Sys2Proof/Tests/Slice0.lean ====
section
/-! SUPPORT. Tests: ill-formed terms that the checks refuse, words that the spec writes out, single steps on small states, and states that meet
the hypotheses of the statements. -/

namespace Sys2Proof.Tests

open Sys2Proof Sys2Proof.Machine Sys2Proof.Spec


set_option maxRecDepth 20000
/-! ### Small states -/

/-- The head of an unguarded operation that ends its bundle. -/
def hd : Head := ⟨true, 0⟩
/-- Hart 0 runs launch 1 on cluster 0, right after reset otherwise. -/
def small : State := State.reset.withFetchWord 16 0x8198
/-- The same with changes to the hart, its core and its launch. -/
def withHart (f : Hart → Hart) : State := small.updHart f
def withRegs (f : Regs → Regs) : State := small.updHart fun h => { h with r := f h.r }
def withCore (f : Core → Core) : State := small.updCore f
/-- x1 to x3 hold values. -/
def withX (a b c : Word) : State := withRegs fun r => { r with x := ((r.x.set 1 a).set 2 b).set 3 c }
/-- A vector operand in row `n` of half 0. -/
def row (n : Fin 256) : VOp := ⟨false, .row, n⟩
/-- A queue of hart 0 with entries of 256 bytes from TCM offset 0. -/
def queue0 : Queue := ⟨0, 5, 15, false, 0, []⟩
def withQueues : State := withCore fun k => { k with queues := (k.queues.set 0 queue0).set 1 { queue0 with base := 32 } }

theorem enabled_hd (s : State) : Enabled s hd := ⟨rfl, rfl⟩
theorem latest_of (s : State) (h : s.hart.wq = [] ∧ s.hart.bun.wrote = [] ∧ s.hart.drain = .no) : Latest s :=
  ⟨fun w hw => absurd hw (by rw [h.1]; exact List.not_mem_nil), fun w hw => absurd hw (by rw [h.2.1]; exact List.not_mem_nil), h.2.2⟩

/-- A reduction tree as R200 builds it. -/
def nodeOf (op : Nat → Nat → Nat × FFlags) (l : List (Option Nat)) : Nat → Nat → Option Nat
  | 0, j => l.getD j none
  | k + 1, j => match nodeOf op l k (2 * j), nodeOf op l k (2 * j + 1) with
    | none, v => v
    | u, none => u
    | some u, some v => some (op u v).1

/-! ### What meets the hypotheses of the statements -/

theorem witness_scalar : Enabled small hd ∧ Latest small ∧ small.xPoi 1 = false ∧ (∀ w ∈ small.hart.wq, w.dst ≠ .sys .stepcnt) :=
  ⟨enabled_hd _, latest_of _ (by decide), by decide, by decide⟩

/-- A PREF under a poisoned guard, and one with a poisoned address. -/
theorem witness_pref : (withRegs fun r => { r with pPoi := 2 }).pPoi 1 = true ∧ (withRegs fun r => { r with xPoi := 2 }).xPoi 1 = true := by decide

theorem witness_clz : (withX 0 0 0).x 1 = 0 ∧
    ((withX (2 ^ 63) 0 0).x 1 ≠ 0 ∧ 2 ^ (63 - 0) ≤ ((withX (2 ^ 63) 0 0).x 1).toNat ∧ ((withX (2 ^ 63) 0 0).x 1).toNat < 2 ^ (64 - 0)) ∧
    ((withX 1 0 0).x 1 ≠ 0 ∧ 2 ^ (63 - 63) ≤ ((withX 1 0 0).x 1).toNat ∧ ((withX 1 0 0).x 1).toNat < 2 ^ (64 - 63)) := by decide

theorem witness_movt : ∃ v : Word, ∀ j, v.getLsbD j =
    if 16 * 3 ≤ j ∧ j < 16 * 3 + 16 then (0xFFFF#16).getLsbD (j - 16 * 3) else (small.x 1).getLsbD j := by
  refine ⟨0xFFFF000000000000#64, fun j => ?_⟩
  by_cases h : j < 64
  · revert h; revert j; decide
  · rw [BitVec.getLsbD_of_ge _ j (by omega), if_neg (by omega), BitVec.getLsbD_of_ge _ j (by omega)]

theorem witness_pget : ∃ v : Word, ∀ j, v.getLsbD j = if k : j < 16 then small.p ⟨j, k⟩ else false := by
  refine ⟨1#64, fun j => ?_⟩
  by_cases h : j < 16
  · revert h; revert j; decide
  · rw [dif_neg h]
    by_cases k : j < 64
    · have all : ∀ i, i < 64 → ¬i < 16 → (1#64).getLsbD i = false := by decide
      exact all j k h
    · exact BitVec.getLsbD_of_ge _ j (by omega)

theorem witness_twice : twice 1 2 = false ∧ twice 1 0 = false ∧ twice 0 0 = false := by decide

theorem witness_reals : realOf (.fin false 1 0) ≠ 0 ∧ 0 < realOf (.fin false 1 0) ∧ realOf (.fin false 1 0) + realOf (.fin true 3 (-1)) ≠ 0 ∧
    realOf (.fin false 1 0) * realOf (.fin true 3 (-1)) ≠ 0 ∧
    realOf (.fin false 1 0) * realOf (.fin true 3 (-1)) + realOf (.fin false 1 1) ≠ 0 := by
  refine ⟨?_, ?_, ?_, ?_, ?_⟩ <;> norm_num [realOf]

theorem witness_nan : (FV.nan true).isNan = true ∧ (fmtF32.read 0x7FC00000).isNan = true ∧ (fmtF32.read 0x3F800000).isNan = false := by decide

/-- Depths 15 and 16, an empty store, and PTR one entry below LIMIT and above BASE. -/
theorem witness_calls :
    let sp : Word := 0x3F000 + 2 ^ 19 * 0x3F000 + 2 ^ 38 * 0x3F008
    let full := withRegs fun r => { r with ras := List.replicate 16 5, rspill := sp }
    let empty := withRegs fun r => { r with rspill := sp + 8 }
    (withRegs fun r => { r with ras := List.replicate 15 5 }).hart.r.ras.length < 16 ∧
    full.hart.r.ras = 5 :: List.replicate 15 5 ∧ 16 ≤ full.hart.r.ras.length ∧ rspillOk sp = true ∧ sp.toNat % 2 ^ 19 ≠ sp.toNat / 2 ^ 38 ∧
    full.hart.r.ras = List.replicate 15 5 ++ [5] ∧
    empty.hart.r.ras = [] ∧ rspillOk (sp + 8) = true ∧ (sp + 8).toNat % 2 ^ 19 ≠ (sp + 8).toNat / 2 ^ 19 % 2 ^ 19 ∧
    empty.ownBytes 0 ⟨.tcm 0, 0x3F000⟩ 8 = (List.replicate 8 0, false) := by decide

theorem witness_loop : (withX 1 0 0).xPoi 1 = false ∧ (1 : XReg) ≠ 0 ∧ BitVec.ofInt 64 (((withX 1 0 0).x 1).toNat - 1) = 0 := by decide

def isFault : Tr → Bool
  | .fault _ => true
  | _ => false

/-- An access that is located, one that faults, and one that walks the page tables. -/
theorem witness_checks :
    checked small .t .load 8 8 = .loc ⟨.tcm 0, 8⟩ ∧ isFault (checked small .t .load 8 1) = true ∧
    checked small .t .store 8 8 = .loc ⟨.tcm 0, 8⟩ ∧ isFault (checked small .t .store 8 1) = true ∧
    checked small .t .atomic 8 8 = .loc ⟨.tcm 0, 8⟩ ∧ isFault (checked small .t .atomic 8 1) = true ∧
    checked small .g .load 8 0 = .walk ∧ small.trG 0 1 .load 0 = .walk := by decide

/-! ### Divisions, fences and atomics -/

/-- Dividends of 0, 1 and 2^63, and every kind of divisor; a fence of hart scope and of a wider one. -/
theorem witness_divisions :
    ((withX 0 0 0).x 1).toNat = 0 ∧
    ((withX 1 0 0).x 1).toNat ≠ 0 ∧ 2 ^ (1 - 1) ≤ ((withX 1 0 0).x 1).toNat ∧ ((withX 1 0 0).x 1).toNat < 2 ^ 1 ∧
    2 ^ (64 - 1) ≤ ((withX (2 ^ 63) 0 0).x 1).toInt.natAbs ∧ ((withX (2 ^ 63) 0 0).x 1).toInt.natAbs < 2 ^ 64 ∧
    ((withX (2 ^ 63) (-1) 0).x 2).toInt = -1 ∧ Scope.core ≠ .hart := by decide

/-- Two active elements whose index values are 1 and 2, and the masks that make none or both active. -/
def vecs : State :=
  (withX 8 0 0).updHart (fun h => { h with r := { h.r with vl := 2 } }) |>.updCore fun k => k.setCells [(0, ⟨8, false⟩), (1, ⟨9, false⟩)]
def vecsOdd : State := vecs.updHart fun h => { h with r := { h.r with x := h.r.x.set 1 9 } }

/-- No active element under m1, two under m0; every access located, or the first or the second at fault. -/
theorem witness_vamo :
    vecs.active 1 = [] ∧ vecs.active 0 = [0, 1] ∧ Enabled vecs hd ∧ Latest vecs ∧ Owned vecs [row 0, row 1] ∧
    Clean vecs [.x 1, .m 0] [row 0, row 1] 0 ∧ Clean vecs [.x 1, .m 1] [row 0, row 1] 1 ∧
    (vecs.vread (row 0) 0).v = 8 ∧ (vecs.vread (row 0) 1).v = 9 ∧
    checked vecs .t .atomic 4 (8 + 8 * 4) = .loc ⟨.tcm 0, 40⟩ ∧ checked vecs .t .atomic 4 (8 + 9 * 4) = .loc ⟨.tcm 0, 44⟩ ∧
    checked vecs .t .atomic 4 (8 + 8 * 1) = .loc ⟨.tcm 0, 16⟩ ∧ isFault (checked vecs .t .atomic 4 (8 + 9 * 1)) = true ∧
    isFault (checked vecsOdd .t .atomic 4 (9 + 8 * 4)) = true := by
  refine ⟨by decide, by decide, enabled_hd _, latest_of _ (by decide), ?_, ?_, ?_, by decide, by decide, by decide, by decide, by decide, by decide, by decide⟩
  · unfold Owned; decide
  · unfold Clean; decide
  · unfold Clean; decide

/-- A descriptor of 16 bytes that is located, or misaligned. -/
theorem witness_append : (withX 16 0 0).x 1 = 16 ∧ checked (withX 16 0 0) .t .atomic 16 16 = .loc ⟨.tcm 0, 16⟩ ∧
    isFault (checked (withX 16 0 0) .t .atomic 16 8) = true := by decide

theorem witness_atomicValues : (4 = 4 ∨ 4 = 8) ∧ 2 ^ 32 - 1 < 2 ^ (8 * 4) ∧ 2 ^ 64 - 1 < 2 ^ (8 * 8) ∧
    AtomKind.apply .and 8 (2 ^ 64 - 1) (2 ^ 63) 0 = some (2 ^ 63) ∧ AtomKind.apply .or 4 0 1 0 = some 1 ∧
    AtomKind.apply .xor 4 1 1 0 = some 0 := by decide

/-! ### Vectors -/

/-- Operands of both kinds of half in a SHARED core, and an engine that writes nothing. -/
theorem witness_vectors :
    Owned vecs [row 0, row 1, row 2] ∧ Owned (withCore fun k => { k with gmode := 2 }) [⟨true, .col, 255⟩, ⟨false, .dia, 255⟩] ∧
    (Ty.f32 = .f32) ∧ (Ty.z32 = .s32 ∨ Ty.z32 = .z32) ∧ small.vl ≤ 256 := by
  refine ⟨?_, ?_, rfl, .inr rfl, by decide⟩
  · unfold Owned; decide
  · unfold Owned; decide

theorem witness_functions : (-128 : Int) ≤ 127 ∧ (FV.nan true).isNan = true ∧ (FV.inf false).isInf = true ∧ (FV.fin true 0 5).isZero = true ∧
    fmtF32.read (0x3F800001 : Cell).toNat = .fin false 0x800001 (-23) ∧ 0 < 0x800001 ∧ fmtF32.read (0x80000000 : Cell).toNat = .fin true 0 (-149) ∧
    fmtF32.read (0x7FC00000 : Cell).toNat = .nan false ∧ fmtF32.read (0xFF800000 : Cell).toNat = .inf true := by decide

/-- Data of CVT beyond LF and SF, below their normal numbers, and within. -/
theorem witness_cvt :
    (2 - 2 / 2 ^ 8) * (2 : ℝ) ^ 127 < |realOf (.fin false 0xFFFFFF 104)| ∧ |realOf (.fin false 1 (-149))| < (2 : ℝ) ^ (-126 : Int) ∧
    (2 : ℝ) ^ (-126 : Int) ≤ |realOf (.fin false 1 0)| ∧ |realOf (.fin false 1 0)| ≤ (2 - 2 / 2 ^ 5) * (2 : ℝ) ^ 127 := by
  refine ⟨?_, ?_, ?_, ?_⟩ <;> norm_num [realOf, abs_of_pos]

/-- R200's tree over 256 leaves, one of them absent. -/
theorem witness_tree : let l := none :: List.replicate 255 (some 1)
    l.length = 256 ∧ (∀ (i : Nat) (hi : i < l.length), nodeOf (fun u _ => (u, FFlags.none)) l 0 i = l[i]) ∧
    ∀ k j, nodeOf (fun u _ => (u, FFlags.none)) l (k + 1) j =
      match nodeOf (fun u _ => (u, FFlags.none)) l k (2 * j), nodeOf (fun u _ => (u, FFlags.none)) l k (2 * j + 1) with
      | none, v => v
      | u, none => u
      | some u, some _ => some u := by
  refine ⟨by decide, fun i hi => ?_, fun k j => rfl⟩
  show _ = _
  rw [nodeOf, List.getD_eq_getElem?_getD, List.getElem?_eq_getElem hi]; rfl

/-- A mask of the first 2 bits, for x1 = 2. -/
theorem witness_msetn : ∃ v : Mask, ∀ j, j < 256 → (v.getLsbD j = true ↔ j < ((withX 2 0 0).x 1).toNat) := ⟨3#256, by decide⟩

/-! ### Vector accesses, blocks, queues and shapes -/

/-- Two elements at a stride of 4 (both located), of 1 (the second at fault), and no element; in G the first access walks. -/
theorem witness_vectorAccesses :
    let s := vecs.updHart fun h => { h with r := { h.r with x := h.r.x.set 2 1 } }
    s.active 0 = [0, 1] ∧ s.active 1 = [] ∧ Owned s [row 2, row 0] ∧ Clean s [.x 1, .x 2, .m 0] [row 2, row 0] 0 ∧
    checked s .t .load 4 8 = .loc ⟨.tcm 0, 8⟩ ∧ checked s .t .load 4 12 = .loc ⟨.tcm 0, 12⟩ ∧ isFault (checked s .t .load 4 9) = true ∧
    checked s .t .store 4 8 = .loc ⟨.tcm 0, 8⟩ ∧ checked s .t .store 4 12 = .loc ⟨.tcm 0, 12⟩ ∧ isFault (checked s .t .store 4 9) = true ∧
    checked s .g .load 4 8 = .walk ∧ isFault (checked s .g .store 4 8) = true := by
  refine ⟨by decide, by decide, ?_, ?_, by decide, by decide, by decide, by decide, by decide, by decide, by decide, by decide⟩
  · unfold Owned; decide
  · unfold Clean; decide

/-- The launch holds 64 bytes of H on die 0. -/
def withH (n : Nat) (bytes : List (Nat × Byte)) : State := small.updDieAt 0 fun d => { d with sram := [(1, ⟨n, ⟨bytes, []⟩, []⟩)] }

/-- QST's queue holds entries of exactly 80 bytes; BDEC of two blocks of 64 bytes in H: both located, the first at fault, and the second at
fault with 64 bytes of H; in G a walk; and no block where VL is 64 and the first block is block 1. -/
theorem witness_blocks :
    let q : Queue := ⟨0, 1, 4, false, 0, []⟩
    let t := small.updHart fun h => { h with r := { h.r with vl := 64 } }
    (q.sz ≠ 0 ∧ q.owner = decide (small.cur % 2 = 1) ∧ 80 ≤ (q.es.toNat + 1) * 16) ∧
    (List.range 2).filter (fun k => 64 * (0 + k) < small.vl) = [0, 1] ∧ (List.range 1).filter (fun k => 64 * (1 + k) < t.vl) = [] ∧
    checked (withH 128 []) .h .load 64 0 = .loc ⟨.sram 0 1, 0⟩ ∧ checked (withH 128 []) .h .load 64 64 = .loc ⟨.sram 0 1, 64⟩ ∧
    isFault (checked (withH 128 []) .h .load 64 1) = true ∧ checked (withH 64 []) .h .load 64 0 = .loc ⟨.sram 0 1, 0⟩ ∧
    isFault (checked (withH 64 []) .h .load 64 64) = true ∧ checked small .g .load 64 64 = .walk := by decide

/-- QCFG between two queues that it touches and of the largest entry; the entry and its boundary in a ready queue. -/
theorem witness_queues :
    (∀ t ∈ withQueues.core.streams.toList, ¬(t.active = true ∧ t.q = 2)) ∧ ((5 : Fin 8) ≠ 0) ∧ (31 + 1) * 16 ≤ 2 ^ (0 + 9) ∧
    (∀ r : QReg, r ≠ 2 → (withQueues.core.queues.get r).sz ≠ 0 →
      let o := withQueues.core.queues.get r
      16 * 1024 + 2 ^ (5 + 9) ≤ o.base.toNat * 1024 ∨ o.base.toNat * 1024 + 2 ^ (o.sz.toNat + 9) ≤ 16 * 1024) ∧
    QueueReady withQueues 0 256 ∧ QueueReady withQueues 1 (2 * 128) ∧ Owned withQueues [row 255] := by
  refine ⟨by decide, by decide, by decide, by decide, ?_, ?_, ?_⟩
  · unfold QueueReady; decide
  · unfold QueueReady; decide
  · unfold Owned; decide

/-- Dense rows of BF16, two rows of four values, in T from 0 (R229). -/
def shapeBytes : List Byte := [1, 1, 0, 0, 0, 0, 4, 0, 2, 0, 4, 0]
/-- Its sealed entry at index `i` of cluster 0. -/
def sealedAt (uses : Nat) : ShapeEnt := ⟨true, 1, 1, uses, shapeOf (shapeBytes ++ List.replicate 84 0)⟩
def withShape (uses : Nat) (f : Core → Core) : State :=
  ((withX 0x100 0 0).updCore fun k => f { k with queues := k.queues.set 0 queue0 }).updCluster fun c => { c with shapes := [(0, sealedAt uses)] }

theorem witness_shape :
    let s := (withX 0 0 0).updCore fun k => { k with tcm := k.tcm.setBytes 0 shapeBytes }
    let ls := [⟨.tcm 0, 0⟩, ⟨.tcm 0, 32⟩, ⟨.tcm 0, 64⟩]
    let full := { s with clusters := [(0, { s.cluster with shapes := (List.range 255).map fun i => (i, sealedAt 0) })] }
    s.resolveAll s.cur s.hart.launchId .t .load [(0, 32), (32, 32), (64, 32)] = (.ok (ls, 0), s) ∧
    (∀ l ∈ ls, l.bad = false) ∧ (∀ p ∈ s.unitParts ls 32, p.2 = false) ∧
    shapeFault ((s.unitParts ls 32).flatMap fun p => p.1) = none ∧ (s.cluster.shapeAt 0).sealed = false ∧
    (full.cluster.shapeAt 255).sealed = false ∧ ∀ j < 255, (full.cluster.shapeAt j).sealed = true := by
  refine ⟨?_, by decide, by decide, by decide, by decide, by decide, by decide⟩
  decide

theorem witness_sfree :
    let s := withShape 0 id
    let i := (s.x 1).toNat % 256
    (s.cluster.shapeAt i).sealed = true ∧ (s.cluster.shapeAt i).owner = s.hart.launchId ∧
    (s.cluster.shapeAt i).gen.toNat = (s.x 1).toNat / 256 % 256 ∧ (s.cluster.shapeAt i).uses = 0 := by decide

/-! ### Streams, copies, tiles and the matrix engine -/

def stream0 (fl : List Nat) : Stream := { Stream.reset with active := true, flights := fl, tile := some 3, shapeIdx := 0 }

/-- A stream from T, one from the scratchpad inside a tile that ends where it ends; SSTOP of an idle slot and of two active ones. -/
theorem witness_streams :
    let s := withShape 0 id
    let te : TileEnt := ⟨.ready, 64, 1, 0, false⟩
    let t := s.updCluster fun c => { c with tiles := [(3, te)] }
    let ent := s.cluster.shapeAt 0
    (s.core.streams.get 0).active = false ∧ ent.sealed = true ∧ ent.owner = s.hart.launchId ∧
    ent.gen.toNat = (s.x 1).toNat / 256 % 256 ∧ QueueReady s 0 ent.obj.image ∧ (s.x 2).toNat % ent.obj.align = 0 ∧
    s.checkExtent s.cur s.hart.launchId .t .load (s.x 2) ent.obj.extent = none ∧ ent.obj.extent = 16 ∧
    ((112 : Word).toNat / 2 ^ 23 % 32 = t.cur / 32 ∧ (t.cluster.tileAt 3).off ≤ 112 ∧
      112 + ent.obj.extent ≤ (t.cluster.tileAt 3).off + 64 * (t.cluster.tileAt 3).len) ∧
    t.checkExtent t.cur t.hart.launchId .s .load 112 ent.obj.extent = none ∧
    ((withCore fun k => { k with streams := k.streams.set 0 (stream0 []) }).core.streams.get 0).active = true ∧
    ((withCore fun k => { k with streams := k.streams.set 0 (stream0 [7]) }).core.streams.get 0).flights ≠ [] := by
  unfold QueueReady; decide

/-- A copy of 64 bytes from H to the scratchpad, one of 262144 bytes with a mask, and a tile that it fills to the end of the allocation. -/
theorem witness_copy :
    let s := ((withH 128 []).updHart fun h => { h with r := { h.r with x := ((h.r.x.set 1 (65536 - 64)).set 2 64).set 3 64 } })
    let large := (withH 262144 []).updCluster fun c => { c with spadBits := 18 }
    let d := s.x 1
    0 < (s.x 3).toNat ∧ (s.x 3).toNat % 64 = 0 ∧ (s.x 3).toNat < 2 ^ 32 ∧ d.toNat % 64 = 0 ∧ (s.x 2).toNat % 64 = 0 ∧
    s.checkExtent s.cur s.hart.launchId .s .store d 64 = none ∧ s.checkExtent s.cur s.hart.launchId .h .load (s.x 2) 64 = none ∧
    large.checkExtent s.cur s.hart.launchId .s .store 0 262144 = none ∧ large.checkExtent s.cur s.hart.launchId .h .load 0 262144 = none ∧
    (Space.s = .s ∧ d.toNat / 2 ^ 23 % 32 = s.cur / 32 ∧ (s.cluster.tileAt 5).state = .empty ∧
      d.toNat % 2 ^ 23 + 64 ≤ 2 ^ s.cluster.spadBits) := by decide

/-- The four transitions that may be made, one that may not, and an extent that ends where the allocation ends. -/
theorem witness_tiles :
    let may := fun (t : TileEnt) (frm dst : TileState) => t.state = frm ∧ (frm = .filling → t.cp = false) ∧ (frm = .ready ∧ dst = .draining → t.refs = 0)
    may ⟨.empty, 0, 0, 0, false⟩ .empty .filling ∧ may ⟨.filling, 0, 1, 0, false⟩ .filling .ready ∧
    may ⟨.ready, 0, 1, 0, false⟩ .ready .draining ∧ may ⟨.draining, 0, 1, 0, false⟩ .draining .empty ∧
    ¬may ⟨.ready, 0, 1, 1, false⟩ .ready .draining ∧ ¬may ⟨.filling, 0, 1, 0, true⟩ .filling .ready ∧
    (let b : Word := (65536 - 64) * 2 ^ 17 + 2 ^ 40
     0 < b.toNat / 2 ^ 40 % 2 ^ 18 ∧ b.toNat / 2 ^ 17 % 2 ^ 23 + 64 * (b.toNat / 2 ^ 40 % 2 ^ 18) ≤ 2 ^ small.cluster.spadBits) ∧
    (255 < 256 ∧ 2 ^ 23 - 1 < 2 ^ 23 ∧ 2 ^ 18 - 1 < 2 ^ 18) := by decide

theorem witness_matrix :
    ownsHalf (withQueues.core.gmode.toNat % 4) (withQueues.cur % 2 = 1) false = true ∧ QueueReady withQueues 0 (2 * 64) ∧
    QueueReady withQueues 1 256 ∧ 64 ≤ 2 ^ ((withQueues.core.queues.get 0).sz.toNat + 9) / (((withQueues.core.queues.get 0).es.toNat + 1) * 16) := by
  refine ⟨by decide, ?_, ?_, by decide⟩
  · unfold QueueReady; decide
  · unfold QueueReady; decide

/-! ### Tasks, launches and traps -/

/-- Two records of scope 1 in 384 bytes of H: at 0 one that SPAWN may take, at 192 a parked one (R273, R274). -/
def withRecords (a : Word) (ready : List Nat) : State :=
  ((withH 384 [(12, 1), (204, 1), (240, 1)]).updHart fun h => { h with r := { h.r with x := h.r.x.set 1 a } }).updCluster fun c => { c with ready := ready }

theorem witness_spawns :
    (let s := withRecords 0 [192]
     let off := (s.x 1).toNat
     off % 64 = 0 ∧ off + 192 ≤ (s.halloc 0 1).size ∧ s.hNat 0 1 (off + 14) 2 / 16 % 4 = 0 ∧ s.hNat 0 1 (off + 48) 1 = 0 ∧
      s.scopeOpen s.part (s.hNat 0 1 (off + 12) 2) = true ∧ ∀ r ∈ (s.clusterAt 0).ready.getLast?, r % 64 = 0 ∧ r ≠ off) ∧
    (let s := withRecords 192 []
     let off := (s.x 1).toNat
     off % 64 = 0 ∧ off + 192 ≤ (s.halloc 0 1).size ∧ s.hNat 0 1 (off + 14) 2 / 16 % 4 = 0 ∧ s.hNat 0 1 (off + 48) 1 = 1 ∧
      ∀ r ∈ (s.clusterAt 0).ready.getLast?, r % 64 = 0 ∧ r ≠ off) := by decide

/-- A hart with record 192, a future at 16, and no record. -/
def withRecord (crec : Word) : State := (withRecords 16 []).updHart fun h => { h with r := { h.r with crec := crec } }

theorem witness_suspensions :
    (let s := withRecord 193
     let off := s.hart.r.crec.toNat / 64 % 2 ^ 20 * 64
     s.hart.r.crec.toNat % 2 = 1 ∧ off + 192 ≤ (s.halloc (s.cur / 128) s.hart.launchId).size ∧ s.hart.r.ras = [] ∧
      rspPtr s.hart.r.rspill ≤ rspBase s.hart.r.rspill + 7 ∧ (∀ e ∈ s.core.eng, e.hart = decide (s.cur % 2 = 1) → e.kind.region = none) ∧
      (s.x 1).toNat % 16 = 0 ∧ (s.x 1).toNat + 16 ≤ (s.halloc 0 1).size) ∧
    (withRecord 0).hart.r.crec.toNat % 2 = 0 := by decide

/-- An unresolved future at 16; scope 1 with a token, a free index 0, and index 255 as the only free one. -/
theorem witness_futures :
    (let s := withRecord 0
     let off := (s.x 1).toNat
     off % 16 = 0 ∧ off + 16 ≤ (s.halloc (s.cur / 128) s.hart.launchId).size ∧ s.hNat 0 1 off 8 / 2 ^ 62 < 2 ∧ futOk (s.hNat 0 1 off 8) = true) ∧
    (let s := (withX 1 0 0).updPartAt 0 fun q => { q with scopes := [(1, { ScopeEnt.reset with openNow := true, token := true, launch := 1 })] }
     let full := (withX 1 0 0).updPartAt 0 fun q =>
       { q with scopes := (List.range 255).map fun i => (i, { ScopeEnt.reset with openNow := true, launch := 1 }) }
     let ent := fun (t : State) i => SMap.look ScopeEnt.reset (t.partAt 0).scopes i
     s.cur < 1024 ∧ s.scopeOpen s.part 1 = true ∧ (ent s 0).openNow = false ∧ (ent s 1).token = true ∧ 1 ≠ s.hart.r.fscope.toNat % 65536 ∧
      full.scopeOpen full.part 1 = true ∧ (ent full 255).openNow = false ∧ ∀ j < 255, (ent full j).openNow = true) := by decide

theorem witness_farms :
    let s := withX 1 1 1
    0 < (s.x 1).toNat % 2 ^ 32 ∧
    (List.range 32).filter (fun k => (s.x 2).getLsbD k && decide ((s.clusterAt k).launch = some s.hart.launchId)) = [0] ∧
    s.scopeOpen s.part ((s.x 3).toNat % 65536) = true ∧ ∀ w ∈ s.hart.wq, w.dst ≠ .sys .stepcnt := by decide

/-- A record of R302 for code handle 1, on cluster 0 with one hart, that no check of R303 refuses. -/
def record0 : List Byte :=
  ((((((((List.replicate 512 0).set 0 1).set 8 1).set 24 255).set 25 255).set 26 255).set 27 255).set 28 255 |>.set 29 255 |>.set 30 255 |>.set 31 255)
    |>.set 48 1 |>.set 52 16 |>.set 53 1
/-- Code of 64 bytes is loaded, and a range maps 4096 bytes at 4096. -/
def withCode (f : State → State) : State :=
  f (((withX 4096 0 0).updPartAt 0 fun q => { q with slots := [(1, ⟨0, true, 0, 64, 0⟩)] }).updCore fun k =>
    { k with ranges := [⟨4096, 4096, 4096, .ro, none⟩] })
def withRecordAt (raw : List Byte) : State := withCode fun s => { s with mem := s.mem.setBytes 4096 raw }

/-- A record that a LAUNCH keeps, one that it refuses, and the polls of TXWAIT before and after an earlier launch. -/
theorem witness_launches :
    (let s := withRecordAt record0
     let locs := fun k : Fin 8 => (⟨.hbm, 4096 + 64 * k.val⟩ : Loc)
     (∀ k, checked s .g .load 64 (4096 + BitVec.ofNat 64 (64 * k.val)) = .loc (locs k) ∧ (locs k).bad = false) ∧
      (∀ p ∈ s.unitParts (List.ofFn locs) 64, p.2 = false) ∧ ∀ k, (s.loadLat s.cur (locs k)).ns = (s.loadLat s.cur (locs 0)).ns) ∧
    (withCode id).childFault placedLaunch record0 = none ∧ (withCode id).childFault placedLaunch (record0.set 0 2) = some (0, 0) ∧
    (∀ x ∈ small.launches, x.2.part = placedLaunch.part → x.2.st.uncommitted = true → placedLaunch.place ≤ x.2.place) ∧
    ¬(∀ x ∈ ({ small with launches := [(1, { placedLaunch with place := 2 }), (2, placedLaunch)] } : State).launches,
      x.2.part = placedLaunch.part → x.2.st.uncommitted = true → 2 ≤ x.2.place) := by decide

/-- Values that MTS may and may not write; harts in and out of their handler. -/
theorem witness_system :
    small.pkg.cfg.modulePos < 8 ∧ (small.core.hist.filter fun e => e.hart = decide (small.cur % 2 = 1)).length < 512 ∧
    (small.hart.wh.map fun w => w.slots).sum < 512 ∧ small.hart.bundles < 2 ^ 13 ∧
    (∀ q : Fin 8, (0 : Word).extractLsb' (8 * q.val) 8 = (small.core.queues.get q).base) ∧
    (∀ q : Fin 8, (0 : Word).extractLsb' (8 * q.val) 5 = (small.core.queues.get q).es ∧
      (0 : Word).extractLsb' (8 * q.val + 5) 3 = (small.core.queues.get q).sz) ∧
    (65 % 64 = 1 ∧ 2 ^ 26 - 63 < 2 ^ 26 ∧ (2 ^ 26 - 63) % 64 = 1) ∧
    ((List.range 32).filter fun k => (0x1FFFE : Nat).testBit k).length ≤ 16 ∧ 16 < ((List.range 32).filter fun k => (0x3FFFE : Nat).testBit k).length ∧
    (7 < 8 ∧ 6 % 4 ≠ 3 ∧ ¬(7 < 8 ∧ 7 % 4 ≠ 3)) ∧ (withRegs fun r => { r with inh := true }).hart.r.inh = true ∧ small.hart.r.inh = false := by decide

theorem witness_eret : let s := (withRegs fun r => { r with inh := true }).updPartAt 0 fun q => { q with slots := [(0, ⟨0, true, 0, 64, 0⟩)] }
    s.hart.r.inh = true ∧ s.targetFails s.cur s.hart.sys.epc = false := by decide

/-- The operands and states in which the traps of `OperationsTrap` are raised, clause by clause. -/
theorem witness_traps :
    let sp : Word := 2 ^ 38 * 64 + 64
    let full := withRegs fun r => { r with ras := List.replicate 16 5, rspill := sp }
    let streaming := withCore fun k => { k with streams := k.streams.set 0 { stream0 [] with q := 3 } }
    let q1 := withCore fun k => { k with queues := k.queues.set 0 { queue0 with owner := true } }
    let q2 := withCore fun k => { k with queues := k.queues.set 0 { queue0 with es := 30 } }
    let valid := fun s : State =>
      let e := s.cluster.shapeAt 0
      e.sealed = true ∧ e.owner = s.hart.launchId ∧ e.gen.toNat = (s.x 1).toNat % 65536 / 256
    let susp := (withRecord 193).updHart fun h => { h with r := { h.r with ras := [5] } }
    (full.hart.r.ras.length = 16 ∧ full.hart.r.rspill.toNat % 2 ^ 19 = full.hart.r.rspill.toNat / 2 ^ 38 % 2 ^ 19) ∧
    (small.hart.r.ras = [] ∧ small.hart.r.rspill.toNat % 2 ^ 19 = small.hart.r.rspill.toNat / 2 ^ 19 % 2 ^ 19) ∧
    (∃ k : Fin 4, (streaming.core.streams.get k).active = true ∧ (streaming.core.streams.get k).q = 3) ∧
    (small.core.queues.get 0).sz = 0 ∧ ((q1.core.queues.get 0).sz ≠ 0 ∧ (q1.core.queues.get 0).owner ≠ decide (q1.cur % 2 = 1)) ∧
    ((q2.core.queues.get 0).owner = decide (q2.cur % 2 = 1) ∧ ((q2.core.queues.get 0).es.toNat + 1) * 16 < 2 * q2.vl) ∧
    ¬valid (withX 0x200 0 0) ∧ (valid (withShape 1 id) ∧ ((withShape 1 id).cluster.shapeAt 0).uses ≠ 0) ∧
    (streaming.core.streams.get 0).active = true ∧ (small.core.streams.get 0).active = false ∧
    (63 % 64 ≠ 0 ∧ 2 ^ 32 ≤ 2 ^ 32 ∧ (262144 + 64) % 64 = 0 ∧ 262144 < 262144 + 64 ∧ 262144 + 64 < 2 ^ 32) ∧
    ((small.cluster.tileAt 0).state = .empty ∧ 2 ^ small.cluster.spadBits < 65536 - 64 + 64 * 2) ∧
    small.hart.r.crec.toNat % 2 = 0 ∧
    (susp.hart.r.crec.toNat % 2 = 1 ∧ susp.hart.r.crec.toNat / 64 % 2 ^ 20 * 64 + 192 ≤ (susp.halloc 0 1).size ∧ susp.hart.r.ras ≠ [] ∧
      susp.hart.r.ras.length < 256 ∧ rspPtr susp.hart.r.rspill = rspBase susp.hart.r.rspill) ∧
    8 % 16 ≠ 0 ∧ ¬(16 + 16 ≤ (small.halloc 0 1).size) ∧
    (2 ≤ ((withH 384 [(7, 0x80)]).hNat 0 1 0 8) / 2 ^ 62) ∧
    (((withH 384 [(0, 2)]).hNat 0 1 0 8) / 2 ^ 62 < 2 ∧ futOk ((withH 384 [(0, 2)]).hNat 0 1 0 8) = false) ∧
    ((withH 384 [(14, 16)]).hNat 0 1 14 2 / 16 % 4 ≠ 0 ∧ (withRecords 192 []).hNat 0 1 (192 + 48) 1 ≠ 0 ∧
      (withRecords 0 []).hNat 0 1 48 1 ≠ 1) ∧
    (withH 384 [(12, 9)]).scopeOpen 0 ((withH 384 [(12, 9)]).hNat 0 1 12 2) = false ∧
    small.scopeOpen small.part 9 = false ∧
    (let s := small.updPartAt 0 fun q => { q with scopes := (List.range 256).map fun i => (i, { ScopeEnt.reset with openNow := true }) }
     s.scopeOpen s.part 255 = true ∧ ∀ i < 256, (SMap.look ScopeEnt.reset (s.partAt s.part).scopes i).openNow = true) ∧
    (small.scopeOpen small.part 1 = true ∧ (small.scopeAt small.part 1).token = false) ∧ 0 = small.hart.r.fscope.toNat % 65536 ∧
    (2 ^ 32 : Nat) % 2 ^ 32 = 0 := by decide

/-- Traps that the handler takes, that it does not, that the Welkin core takes, and that abort; the cells of a group restored. -/
theorem witness_trapEntry :
    let old := List.replicate 128 (⟨7, false⟩ : GCell)
    let s := withCore fun k => { k with hist := [⟨false, 5, old, false⟩, ⟨true, 5, old, false⟩] }
    let rec0 := small.updLaunchAt 1 fun l => { l with rc := { l.rc with trap := 2 ^ 64 - 1 } }
    (∀ e ∈ s.core.hist, e.hart = false → e.old.length = 128) ∧
    (∀ e ∈ s.core.hist, ∀ e' ∈ s.core.hist, e.hart = false → e'.hart = false → e.group = e'.group → e = e') ∧
    (small.hart.r.inh = false ∧ (small.launchAt 1).rc.trap ≠ 2 ^ 64 - 1) ∧ (rec0.launchAt 1).rc.trap = 2 ^ 64 - 1 ∧
    (1 ∈ [1, 2, 3] ∧ 97 ∈ [22, 23, 24, 32, 80, 97]) ∧ (80 ≠ 80 ∨ small.hart.poisonRetry = false) ∧
    (small.updHart fun h => { h with poisonRetry := true }).hart.poisonRetry = true ∧ 84 ∈ [65, 66, 67, 68, 69, 70, 81, 83, 84] := by decide

/-! ### Guards, bundles, encodings and the step -/

/-- A half that the hart does not own, a poisoned guard, and a false one. -/
theorem witness_guards :
    let g := withRegs fun r => { r with p := 1, pPoi := 2 }
    let split := withCore fun k => { k with gmode := 1 }
    (encodeOp (.gzero ⟨true, 1⟩ ⟨true, 0, 0, 0, 0⟩)).isSome = true ∧
    ¬(∀ half ∈ (useOf (.gzero ⟨true, 1⟩ ⟨true, 0, 0, 0, 0⟩)).halves, ownsHalf (split.core.gmode.toNat % 4) (decide (split.cur % 2 = 1)) half = true) ∧
    (∀ half ∈ (useOf (.nop ⟨true, 1⟩)).halves, ownsHalf (small.core.gmode.toNat % 4) (decide (small.cur % 2 = 1)) half = true) ∧
    g.pPoi 1 = true ∧ small.pPoi 1 = false ∧ small.p 1 = false ∧ twice 5 5 = true := by decide

/-- Bundles that fall through and transfer, that wrote FPFLAGS and did not, with a checkpoint and without. -/
theorem witness_bundleEnds :
    let w : PendW := ⟨.sys .fpflags, 3, BitVec.allOnes 256, false, 1, 0, 0⟩
    small.hart.bun.npc = none ∧ (∃ t, (small.updHart fun h => { h with bun := { h.bun with npc := some t } }).hart.bun.npc = some t) ∧
    (∀ w ∈ small.hart.wq, w.dst ≠ .sys .fpflags) ∧
    (small.updHart fun h => { h with wq := [w] }).hart.wq = [⟨.sys .fpflags, 3, BitVec.allOnes 256, false, 1, small.hart.ser, small.hart.bun.head⟩] ∧
    small.hart.bun.ckpt = none ∧ (small.updHart fun h => { h with bun := { h.bun with ckpt := some .go } }).hart.bun.ckpt = some .go ∧
    (let s := small.updHart fun h => { h with bun := { h.bun with wrote := [(.x 5, BitVec.allOnes 256, 1)] } }
     ∃ w ∈ s.hart.bun.wrote, w.1 = .x 5 ∧ w.2.1 = BitVec.allOnes 256 ∧ s.hart.bun.head < w.2.2) ∧
    (small.updHart fun h => { h with wq := [w] }).hart.drain = .no ∧ ∀ x ∈ (small.updHart fun h => { h with wq := [w] }).hart.wq, x.ser ≤ small.hart.ser := by
  refine ⟨by decide, ⟨0, by decide⟩, by decide, by decide, by decide, by decide, by decide, by decide, by decide⟩

theorem witness_encodings : (Instr.nop hd).wf = true ∧ encode (.nop hd) = some (0x8198, 0) ∧ 0x8198 < 2 ^ 16 ∧ 0 < 2 ^ (8 * tailLen (0x8198 % 4)) ∧
    decodeOp 0x8198 0 = .ok (.nop hd) ∧
    (let ops := List.replicate 31 ((0x0198, 0) : RawOp) ++ [(0x8198, 0)]
     ops ≠ [] ∧ ops.length ≤ 32 ∧ (∀ o ∈ ops, o.1 < 2 ^ 16 ∧ o.1 / 4 % 512 ≠ 0 ∧ o.2 < 2 ^ (8 * tailLen (o.1 % 4))) ∧
      (ops.map fun o => 2 + tailLen (o.1 % 4)).sum ≤ 64 ∧ ∀ o ∈ ops.getLast?, o.1 / 2 ^ 15 = 1) := by decide

def waits : Ready → Bool
  | .wait => true
  | _ => false

theorem witness_step :
    let s := small
    let b : BOp := ⟨0, 0x8198 / 4 % 512, 0, .nop hd⟩
    let line := (0x98 : Byte) :: 0x81 :: List.replicate 62 0
    s.inputs = [] ∧ s.event.isNone = true ∧ s.liveCores = [0] ∧ waits (s.ready 1) = true ∧ s.mayIssue 0 = true ∧ s.hart.fetch.st = .idle ∧
    s.hart.fetch.xferFrom = none ∧ s.hart.fetch.entered = some 0 ∧ SMap.has s.hart.fetch.icache 0 = true ∧
    SMap.look [] s.hart.fetch.icache 0 = line ∧ decodeLine line = .ok [(0x8198, 0)] ∧ 0x8198 / 2 ^ 15 % 2 = 1 ∧ decodeOp 0x8198 0 = .ok (.nop hd) ∧
    isUnitOp (.nop hd) = false ∧ s.halfFault [b] = false ∧ s.hart.rearm = false ∧ (s.liveOps [b]).any (fun x => s.lateWaits x.ins) = false ∧ s.bundleWaits [b] = false ∧ s.historyWaits [b] = false ∧ s.needsCkpt [b] = false ∧
    ({ s with inputs := [.nop hd] } : State).inputs = .nop hd :: [] := by decide

/-- Lines at both ends of HBM, in a shadow and in a mailbox; the machine right after reset takes a step. -/
theorem witness_memory : 0 < [(1 : Byte)].length ∧ 63 % 64 + 1 ≤ 64 ∧ (hbmEnd - 64) % 64 + 64 ≤ 64 ∧ hbmEnd - 64 < hbmEnd ∧ isMail mailBase = true ∧
    isColl collBase = true ∧ (small.launchAt 1).irrev = false ∧ (∀ e ∈ small.shadow, e.data.length = 64) ∧ small.memWf := by
  refine ⟨by decide, by decide, by decide, by decide, by decide, by decide, by decide, by decide, ?_⟩
  unfold State.memWf; decide

/-! ### Accesses on their way -/

/-- A request of hart 0 for 8 bytes at address 8 of T, or of G, with the given kind. -/
def land0 (k : LandKind) : Landing :=
  { id := 1, ser := 0, pc := 0, head := 0, kind := k, issued := 0, space := .t
    elems := [⟨0, 8, 8, some ⟨.tcm 0, 8⟩, List.replicate 8 none, false, 0, none⟩], due := 0, slots := 1, extra := 0, sent := true, acq := false
    gate := false, bar := Bar.none, walking := false, unitOp := false, parts := 0, got := [], arriveAt := 0, cyc := false, res := none
    drange := false, arrived := false, rem := none, landed := false, failed := none, groups := [], clash := [] }
def withLand (l : Landing) : State := small.updHart fun h => { h with land := [l], xl := [⟨1, 0, 0, 0, true, none⟩] }
/-- The only element of that request. -/
def elem0 : Elem := ⟨0, 8, 8, some ⟨.tcm 0, 8⟩, List.replicate 8 none, false, 0, none⟩

theorem witness_loads :
    let l := land0 (.scalar 5 .w)
    let v := land0 (.vector (row 0) .s6 3)
    l.elems = [elem0] ∧ elem0.own.length = elem0.size ∧ l.failed = none ∧ l ∈ ((withLand l).hartAt 0).land ∧
    (∀ x ∈ ((withLand l).hartAt 0).land, x.id = l.id → x = l) ∧ (withLand l).elemDue 0 l elem0 = true ∧
    v ∈ ((withLand v).hartAt 0).land ∧ (withLand v).elemDue 0 v elem0 = true ∧ Ty.s16 ∈ [Ty.z16, .bf, .h, .s16] := by decide

/-- Page tables from 0x1000 that map the page at 0. -/
def tables (s : State) : State :=
  { s with mem := ⟨[(0x1000, 1), (0x1001, 0x20), (0x2000, 1), (0x2001, 0x30), (0x3000, 0x17)], []⟩ }

/-- A walk that ends in a fault and in a translation, a PREF, an access that stays without an answer, and one that is not there. -/
theorem witness_walks :
    let walk := { land0 (.scalar 5 .w) with walking := true, sent := false, space := .g }
    let pref := { land0 .pref with walking := true, space := .g }
    let s := withLand walk
    let t := tables (s.updCore fun k => { k with dptroot := 0x1001 })
    let p := withLand pref
    let q := tables (p.updCore fun k => { k with dptroot := 0x1001 })
    (walk ∈ (s.hartAt 0).land ∧ (∀ x ∈ (s.hartAt 0).land, x.id = walk.id → x = walk) ∧ walk.elems = [elem0]) ∧
    ((⟨1, 0, 0, 0, true, none⟩ : Xlat) ∈ (s.hartAt 0).xl ∧ ∀ y ∈ (s.hartAt 0).xl, y.id = 1 → y = ⟨1, 0, 0, 0, true, none⟩) ∧
    (s.translate 0 1 .g .load 8 8 = .walk ∧ s.walkHeld 0 s.core.dptroot 8 = false ∧ s.walkRoot 0 s.core.dptroot false .load 8 = .error (0, 4)) ∧
    (t.translate 0 1 .g .load 8 8 = .walk ∧ t.walkHeld 0 t.core.dptroot 8 = false ∧ (t.walkRoot 0 t.core.dptroot false .load 8).isOk = true ∧
      t.core.dtlb.length < 512) ∧
    (pref.arriveAt ≤ p.now ∧ p.translate 0 1 .g .load 8 8 = .walk ∧ (p.walkRoot 0 p.core.dptroot false .load 8).isOk = false ∧
      (q.walkRoot 0 q.core.dptroot false .load 8).isOk = true) ∧
    (walk.arrived = false ∧ walk.cyc = false ∧ ∀ x ∈ (s.hartAt 0).land, x.id ≠ 2) := by decide

/-- An arrival, one that says nothing, a failed one, and landings without data, in a register and in the grid. -/
theorem witness_landings :
    let done := { land0 (.scalar 5 .w) with res := some [⟨some 5, 0, 9, false⟩] }
    let grid := { land0 (.old (row 1)) with res := some [⟨none, 256, 9, false⟩], arrived := true }
    let quiet := { done with res := some [] }
    (done ∈ ((withLand done).hartAt 0).land ∧ (∀ x ∈ ((withLand done).hartAt 0).land, x ≠ done → (withLand done).arrivesNow 0 x = false)) ∧
    ((∀ x ∈ ((withLand done).hartAt 1).land, (withLand done).arrivesNow 1 x = false) ∧ done.res.isSome = true ∧ done.silent = false) ∧
    ((land0 .pref).silent = true ∧ (land0 .pref).rem = none ∧ { quiet with failed := some .timeout }.elems = [elem0]) ∧
    ((withLand (land0 (.scalar 5 .w))).dueLandings 0 = [land0 (.scalar 5 .w)] ∧ (withLand done).dueLandings 1 = []) ∧
    (withLand { done with arrived := true }).dueLandings 0 = [{ done with arrived := true }] ∧
    ((withLand grid).dueLandings 0 = [grid] ∧ (withLand grid).core.inFlight 256 = false ∧ 256 < 131072 ∧ grid.drange = false) := by decide

/-- Accesses of hart 0 at their ordering points: stores to H and to T, a scalar and a vector atomic, and one without shadow room. -/
def flight0 (k : FlightKind) (land : Option Nat) : Flight :=
  { id := 7, hart := 0, launch := 1, ser := 0, head := 0, eng := false, kind := k, land := land, sentAt := 0, perfAt := 0, ackAt := 0, acq := false
    bar := Bar.none, needs := none, wait := false, performed := false, err := TrapRec.zero }
/-- The landing of such an access. -/
def landing0 (k : LandKind) : Landing := { land0 k with unitOp := true, parts := 1, elems := [] }
def withFlight (f : Flight) (k : LandKind) : State := { withLand (landing0 k) with flights := [f] }

theorem witness_performs :
    let h : SElem := ⟨⟨.sram 0 1, 0⟩, [1], false⟩
    let t : SElem := ⟨⟨.tcm 0, 0⟩, [1], false⟩
    let g : SElem := ⟨⟨.shadow 1, 0⟩, [1], false⟩
    let amo := flight0 (.amo .add 4 ⟨.tcm 0, 0⟩ 1 0) (some 1)
    let vamo := flight0 (.vamo .add false [(0, ⟨.tcm 0, 0⟩, 1)]) (some 1)
    (∀ k ∈ [FlightKind.store [h], .store [t], .store [g], amo.kind, vamo.kind],
      let f := flight0 k (some 1)
      f ∈ (withFlight f (.scalar 5 .w)).flights ∧ (withFlight f (.scalar 5 .w)).performsFlight f = true) ∧
    (withFlight (flight0 (.store [g]) none) (.scalar 5 .w)).noRoom 1 [g.loc] = true ∧
    (withFlight (flight0 (.store [h]) none) (.scalar 5 .w)).noRoom 1 [h.loc] = false ∧ (∀ c, h.loc.unit ≠ .tcm c) ∧
    (∀ q : Fin 8, (small.core.queues.get q).sz = 0) ∧ (small.halloc 0 1).waits 0 1 = false ∧
    (((withFlight amo (.scalar 5 .w)).hartAt 0).land.find? fun x => x.id = 1) = some (landing0 (.scalar 5 .w)) ∧
    (((withFlight vamo (.old (row 0))).hartAt 0).land.find? fun x => x.id = 1) = some (landing0 (.old (row 0))) ∧
    (landing0 (.scalar 5 .w)).got = [] ∧ (landing0 (.scalar 5 .w)).parts ≤ 1 ∧
    (let f := flight0 (.store [h]) none
     let s := { small with flights := [f] }
     f ∈ s.flights ∧ f.eng = false ∧ (s.hartAt 0).launch = some 1 ∧ (s.hartAt 0).land = []) := by
  refine ⟨by decide, by decide, by decide, by simp, by decide, by decide, by decide, by decide, by decide, by decide, by decide⟩

/-! ### Events of a hart -/

theorem witness_checkpoints :
    let ck : Ckpt := ⟨0, 0, 0, 0, .go, false⟩
    let s := small.updHart fun h => { h with ck := some ck, xl := [] }
    0 < 1024 ∧ s.ckptReady 0 = true ∧ (s.hartAt 0).ck = some ck ∧ ck.after = .go ∧ ck.step = false ∧
    (small.updHart fun h => { h with ck := some { ck with after := .icinv 0 64 false } }).ckptReady 0 = true ∧
    (small.hart.mode = .running ∧ small.hart.ck = none ∧ small.hart.rest = []) ∧ 4096 ≤ (small.updHart fun h => { h with bundles := 4096 }).hart.bundles ∧
    192 ≤ ((small.updHart fun h => { h with wh := [⟨0, 0, 192, Bar.none, false, [], TrapRec.zero⟩] }).hart.wh.map fun w => w.slots).sum := by decide

theorem witness_hartEvents :
    let walk := small.updHart fun h => { h with fetch := { h.fetch with st := .walk 0 0 } }
    let fill := small.updHart fun h => { h with fetch := { h.fetch with st := .fill 0 0 0 } }
    let poisoned := { fill with mem := ⟨[], [0]⟩ }
    let outside := small.updHart fun h => { h with fetch := { h.fetch with st := .fill 0 hbmEnd 0 } }
    let root := (walk.updCore fun k => { k with iptroot := 0x1001 })
    let mapped := { root with mem := ⟨[(0x1000, 1), (0x1001, 0x20), (0x2000, 1), (0x2001, 0x30), (0x3000, 0x13)], []⟩ }
    let welkin := fun c : BitVec 8 => small.updHart fun h => { h with mode := .welkin ⟨c, 0, 0, 0, false⟩ }
    walk.hart.fetch.st = .walk 0 0 ∧ walk.walkHeld 0 walk.core.iptroot 0 = false ∧ walk.walkRoot 0 walk.core.iptroot true .fetch 0 = .error (0, 4) ∧
    (mapped.walkRoot 0 mapped.core.iptroot true .fetch 0).isOk = true ∧ mapped.walkHeld 0 mapped.core.iptroot 0 = false ∧
    mapped.core.itlb.length < 64 ∧ fill.hart.fetch.st = .fill 0 0 0 ∧ fill.lineCommits 0 = false ∧ fill.fillError 0 0 = none ∧
    (outside.fillError 0 hbmEnd).isSome = true ∧ outside.lineCommits (hbmEnd / 64) = false ∧
    poisoned.physPoisoned 0 = true ∧ poisoned.fillError 0 0 = none ∧ fill.physPoisoned 0 = false ∧ fill.hart.fetch.icache.length < 512 ∧
    ((welkin 80).hart.mode = .welkin ⟨80, 0, 0, 0, false⟩ ∧ (80 : BitVec 8) ≠ 32 ∧ (80 : BitVec 8) ≠ 51) ∧
    ((welkin 32).hart.mode = .welkin ⟨32, 0, 0, 0, false⟩ ∧ ((welkin 32).launchAt 1).cause = 0) ∧ 511 < 512 ∧ small.hart.launch.isSome = true := by decide

/-! ### Engines, streams and copies at work -/

/-- An engine operation of hart 0, issued in cycle 0. -/
def eng0 (k : EngKind) : EngOp :=
  { id := 9, kind := k, hart := false, ser := 1, pc := 0, head := 0, tag := 0, issue := 0, fire := none, last := 0, done := 0, ops := [], raw := [], sums := [],
    marks := ⟨none, false, false⟩, stride := 1, group0 := false, written := false, late := [], spoil := [], skip := [] }
def ent0 (slot : Nat) (m : Marks) : QEnt := ⟨slot, none, 0, false, none, false, m⟩
/-- Cycle 1, with 64 entries in queue 0 and one in queue 1. -/
def withEng (e : EngOp) (m : Marks) : State :=
  { (withCore fun k => { k with
      eng := [e]
      queues := (k.queues.set 0 { queue0 with ents := (List.range 64).map fun i => ent0 i m }).set 1 { queue0 with base := 32, ents := [ent0 0 m] } }) with
    now := 1 }
def win0 : Window := ⟨false, 0, 0, 0, 0⟩

theorem witness_fires : ∀ k ∈ [EngKind.opaBf win0 0 1, .opaH win0 0 0, .opaN6 win0 0 0, .gzero win0, .vmt ⟨false, 1⟩ 1 0, .stld 0 false,
      .qpop ⟨false, 1⟩ 1 .bf 128],
    let s := withEng (eng0 k) ⟨none, false, false⟩
    0 < 512 ∧ eng0 k ∈ (s.coreAt 0).eng ∧ (∀ x ∈ (s.coreAt 0).eng, x.id = (eng0 k).id → x = eng0 k) ∧ s.fires 0 (eng0 k) = true := by decide

theorem witness_firesPush : let k := EngKind.qpush 2 .w []
    let s := (withEng (eng0 k) ⟨none, false, false⟩).updCore fun c => { c with queues := c.queues.set 2 { queue0 with base := 64 } }
    s.fires 0 (eng0 k) = true ∧ (withEng (eng0 (.qpop ⟨false, 1⟩ 1 .bf 128)) ⟨some (8, 1), false, false⟩).fires 0 (eng0 (.qpop ⟨false, 1⟩ 1 .bf 128)) = true ∧
    (waiting (withEng (eng0 k) ⟨some (8, 1), false, false⟩).core 1).map (fun x => x.marks.sel) = [some (8, 1)] := by decide

theorem witness_completes :
    let e := fun k n => { eng0 k with fire := some 0, ops := List.replicate n (List.replicate 256 0) }
    let ready := fun (s : State) (e : EngOp) => s.core.frozen = false ∧ e.fire.isSome = true ∧ e.done ≤ s.cycleAt 0 ∧ e.written = false ∧ e.late = []
    (∀ x ∈ [(EngKind.opaBf win0 0 1, 2), (.opaH win0 0 1, 2), (.opaN6 win0 0 1, 4), (.gzero win0, 0), (.vmt ⟨false, 1⟩ 1 0, 1), (.stld 0 false, 64),
        (.qpop ⟨false, 1⟩ 1 .bf 256, 1), (.qpush 1 .bf [⟨0, false⟩], 0)],
      ready (withEng (e x.1 x.2) ⟨none, false, false⟩) (e x.1 x.2)) ∧ win0.wf = true ∧
    (∀ l ∈ (e (.opaBf win0 0 1) 2).ops, l.length = 256) ∧
    (let q := e (.qpop ⟨false, 1⟩ 1 .bf 129) 1
     q.late = [] ∧ q.written = false ∧ 0 + 2 ≤ ({ withEng q ⟨none, false, false⟩ with now := 2 } : State).cycleAt 0) ∧
    (let w : VWrite := ⟨3, false, 1, row 0, 1, [(0, ⟨1, false⟩), (1, ⟨2, false⟩)]⟩
     let s := { withCore fun k => { k with vq := [w] } with now := 1 }
     w ∈ (s.coreAt 0).vq ∧ w.due ≤ s.cycleAt 0 ∧ (w.cells.map fun x => x.1).Nodup ∧ (s.hartAt 0).drain = .no) ∧
    (let b : QstBlk := ⟨4, 4, 0, true, false, 1, 1, 1, List.replicate 80 0, true, false, false⟩
     let s := { withCore fun k => { k with qst := [b] } with now := 1 }
     b ∈ (s.coreAt 0).qst ∧ b.fired = true ∧ b.due ≤ s.cycleAt 0) := by decide

theorem witness_rechecks :
    let r : Recheck := ⟨3, false, 1, false, 1, 1⟩
    let s := { withCore fun k => { k with recheck := [r] } with now := 1 }
    r ∈ (s.coreAt 0).recheck ∧ s.recheckReady 0 r = true ∧ (s.hartAt 0).recheckRetry = false ∧
    ((s.updHart fun h => { h with recheckRetry := true }).hartAt 0).recheckRetry = true ∧ (s.launchAt 1).cause = 0 := by decide

/-- Each case of R266: a NaN product, infinities of both signs and of one, and finite products whose sum is and is not 0. -/
theorem witness_matrixArithmetic :
    let one := FV.fin false 1 0
    let terms := fun (g : FV) (ps : List (FV × FV)) => (g.isInf, g.sign) :: ps.map fun p => (p.1.isInf || p.2.isInf, p.1.sign != p.2.sign)
    ((FV.inf false).isInf = true ∧ (FV.fin false 0 0).isZero = true) ∧
    ((true, false) ∈ terms (.inf false) [(.inf true, one)] ∧ (true, true) ∈ terms (.inf false) [(.inf true, one)]) ∧
    ((true, false) ∈ terms (.inf false) [(one, one)] ∧ (true, true) ∉ terms (.inf false) [(one, one)]) ∧
    ((true, true) ∈ terms (.inf true) [(one, one)] ∧ (true, false) ∉ terms (.inf true) [(one, one)]) ∧
    (one.isNan = false ∧ one.isInf = false) ∧ (List.replicate 128 one).length = 128 := by decide

theorem witness_matrixReals : realOf (.fin false 1 0) + ([(FV.fin false 1 0, FV.fin true 1 0)].map fun p => realOf p.1 * realOf p.2).sum = 0 ∧
    realOf (.fin false 1 0) + ([(FV.fin false 1 0, FV.fin false 1 0)].map fun p => realOf p.1 * realOf p.2).sum ≠ 0 := by norm_num [realOf]

/-- A stream in slot 0 with the object's layout, width and decode, over T, and its shape entry. -/
def withStream (o : Shape) (f : Stream → Stream) : State :=
  withShape 1 fun k => { k with
    streams := k.streams.set 0 (f { Stream.reset with active := true, obj := o, total := 2 }), queues := k.queues.set 0 { queue0 with ents := [ent0 0 ⟨none, false, false⟩] } }

theorem witness_streamEvents :
    let rows : Shape := ⟨1, 0, 0, 0, 4, 2, 4, 0, 0, 0, 0, 0, 0⟩
    let unf : Shape := ⟨0x20, 0, 0, 0, 4, 3, 3, 1, 2, 2, 1, 0, 1⟩
    let images : Shape := ⟨0x10, 8, 0, 0, 0, 2, 0, 0, 0, 0, 0, 0, 0⟩
    let blocks : Shape := ⟨0x10, 8, 1, 2, 4, 2, 64, 0, 0, 0, 0, 0, 0⟩
    let out : Shape := ⟨0x30, 0, 0, 0, 4, 2, 0, 0, 0, 0, 0, 0, 0⟩
    (∀ o ∈ [rows, unf, images, blocks], (withStream o id).pushReady 0 0 = true) ∧
    (∀ j, j < 4 → (some ((0 * 4 + j) * 2)) = rows.elemOff 0 j ∧
      (withStream rows id).translate 0 1 .t .load 2 (0 + BitVec.ofNat 64 (2 * j)) = .loc ⟨.tcm 0, 2 * j⟩) ∧
    ((unf.elemOff 0 3).isSome = true ∧ 1 ≤ unf.oh ∧ 1 ≤ unf.ow) ∧
    (∀ p, p < 5 → (withStream images id).translate 0 1 .t .load 16 (0 + BitVec.ofNat 64 (16 * p)) = .loc ⟨.tcm 0, 16 * p⟩) ∧
    headerFault 2 (List.replicate 80 0) ≠ none ∧ headerFault 2 (quantise true 0xF (List.replicate 64 0)).1 = none ∧
    ({ withStream out id with now := 4 } : State).writeReady 0 0 = true ∧ ((withStream out id).coreAt 0).streams.toList.length = 4 ∧
    (∀ i, i < 4 → (withStream out id).translate 0 1 .t .store 2 (0 + BitVec.ofNat 64 (2 * i)) = .loc ⟨.tcm 0, 2 * i⟩) ∧
    (((withStream out id).coreAt 0).streams.get 0).active = true ∧ ((withStream out id).launchAt ((small.clusterAt 0).launch.getD 0)).cause = 0 := by decide

def copy0 (n chunk : Nat) : Copy :=
  { id := 1, hart := 0, launch := 1, dst := 4096, src := 0, len := n, ds := .s, ss := .h, mask := 1, tile := some 2, fut := some 0, chunk := chunk,
    nextAt := 0, start := 0, halted := false, io := .none }
def withCopies (c : Copy) : State :=
  { (withH 128 []) with clusters := [(0, { small.cluster with copies := [c] })] }

/-- A chunk of 128 bytes from H to the scratchpad, the end of the copy, and a future that is waiting, resolved and malformed. -/
theorem witness_copyEvents :
    let s := withCopies (copy0 128 0)
    (s.clusterAt 0).copies = copy0 128 0 :: [] ∧ s.chunkDue 0 = true ∧
    (∀ i, i < 2 → s.translate 0 1 .h .load 64 (BitVec.ofNat 64 (0 + 64 * i)) = .loc ⟨.sram 0 1, 64 * i⟩ ∧
      s.translate 0 1 .s .store 64 (BitVec.ofNat 64 (4096 + 1024 * 0 + 64 * i)) = .loc ⟨.spad 0, 4096 + 64 * i⟩) ∧
    (∀ i < 2, ∀ j < 2, MemUnit.sram 0 1 ≠ .spad 0 ∧ (i ≠ j → (4096 + 64 * i) / 64 ≠ (4096 + 64 * j) / 64)) ∧
    s.noRoom 1 ((List.range 2).map fun i => (⟨.spad 0, 4096 + 64 * i⟩ : Loc)) = false ∧
    ((copy0 128 1).chunk = ((copy0 128 1).len + 1023) / 1024) ∧ (0 % 16 = 0 ∧ 0 + 16 ≤ (s.halloc 0 1).size) ∧
    (s.hNat 0 1 0 8 / 2 ^ 62 < 2 ∧ futOk (s.hNat 0 1 0 8) = true) ∧ 2 ≤ (withH 64 [(7, 0x80)]).hNat 0 1 0 8 / 2 ^ 62 ∧ 511 < 512 := by decide

theorem witness_silent : ({ land0 (.scalar 0 .w) with res := some [] } : Landing).silent = true ∧ (land0 (.scalar 0 .w)).rem = none := by decide

/-- A stream whose first entry is marked, and one that writes from such an entry; the locations that a stream reads and writes. -/
theorem witness_marked :
    let s := withEng (eng0 (.gzero win0)) ⟨some (8, 1), false, false⟩
    ((waiting s.core 0).head?.map fun x => x.marks.sel) = some (some (8, 1)) ∧ (⟨.tcm 0, 0⟩ : Loc).bad = false := by decide

/-- A copy to another module under way and out of time; mappings that are repaired, and that are not. -/
theorem witness_repairs :
    let c := { copy0 128 0 with io := .writing 0 }
    let s := { withCopies c with now := 1100 * small.pkg.cfg.memto }
    let st := { stream0 [] with halted := true, sp := .g, obj := ⟨1, 0, 0, 0, 4, 2, 4, 0, 0, 0, 0, 0, 0⟩, total := 2 }
    let t := withCore fun k => { k with streams := k.streams.set 0 st }
    (s.clusterAt 0).copies = c :: [] ∧ c.io = .writing 0 ∧ 0 + 1100 * s.pkg.cfg.memto ≤ s.now ∧
    (∀ i : Fin 4, small.streamUnmapped 0 ((small.coreAt 0).streams.get i) = none) ∧ (small.clusterAt 0).copies = [] ∧
    (t.streamUnmapped 0 ((t.coreAt 0).streams.get 0)).isSome = true ∧ (t.launchAt ((t.clusterAt 0).launch.getD 0)).cause = 0 := by decide

/-! ### Events of tasks -/

/-- Hart 0 is idle, in a cluster with a farm or a ready record at 0. -/
def idle0 (f : Cluster → Cluster) (bytes : List (Nat × Byte)) : State :=
  ((withH 384 bytes).updHart fun h => { h with mode := .idle }).updCluster f
def farm0 : Farm := ⟨0, 1, 2, 64, 5, false, 1, 0, 0⟩

theorem witness_tasksStart :
    let farms := idle0 (fun c => { c with farms := [farm0] }) []
    let good := idle0 (fun c => { c with ready := [0] }) [(16, 6)]
    let bad := idle0 (fun c => { c with ready := [0] }) [(16, 1)]
    let valid := fun (s : State) =>
      let g := fun o w => s.hNat 0 1 o w
      let live := (List.finRange 32).filter fun r : XReg => r ≠ 0 && (g 16 4).testBit r.val
      let flags := g 14 2
      g 49 15 = 0 ∧ linkOk (g 32 8) = true ∧ g 40 8 % 2 = 0 ∧ g 40 8 < 65536 ∧ g 8 4 = (s.launchAt 1).rc.code ∧ g 16 4 % 2 = 0 ∧ live.length ≤ 16 ∧
        (flags / 64 % 2 = 1 → flags / 256 % 16 ≠ flags / 4096 % 16)
    farms.mayTake 0 = true ∧ (farms.clusterAt 0).farms = farm0 :: [] ∧ (good.clusterAt 0).farms = [] ∧ good.mayTake 0 = true ∧
    (good.clusterAt 0).launch = some 1 ∧ (good.clusterAt 0).ready = 0 :: [] ∧ valid good ∧ ¬valid bad := by decide

theorem witness_tasksEnd :
    let leaving := fun a => (withRecord 193).updHart fun h => { h with mode := .leaving a }
    let resolved := { leaving (.fwait 1 2 16 0 0) with dies := [(0, { Die.reset with sram := [(1, ⟨384, ⟨[(23, 0x80)], []⟩, []⟩)] })] }
    let malformed := { leaving (.fwait 1 2 16 0 0) with dies := [(0, { Die.reset with sram := [(1, ⟨384, ⟨[(16, 2)], []⟩, []⟩)] })] }
    let woken := (withRecords 0 []).updDieAt 0 fun d => { d with wakes := [⟨1, 193, true, 0⟩] }
    let swept := { small with now := 200 }
    let sweep := fun (r : List ClusterId) => swept.updPartAt 0 fun q => { q with sweep := ⟨0, r, []⟩ }
    (∀ a ∈ [AfterCkpt.suspend, .yield, .exit, .fwait 1 2 16 0 0], (leaving a).leaveReady 0 = true ∧ (leaving a).hart.mode = .leaving a) ∧
    ((leaving .yield).clusterAt 0).launch = some 1 ∧ (∀ r ∈ ((leaving .yield).clusterAt 0).ready.getLast?, r % 64 = 0 ∧ r ≠ 192) ∧
    2 ≤ resolved.hNat 0 1 16 8 / 2 ^ 62 ∧ ((1 : PReg) ≠ 2) ∧ (malformed.hNat 0 1 16 8 / 2 ^ 62 < 2 ∧ futOk (malformed.hNat 0 1 16 8) = false) ∧
    ((leaving .yield).hNat 0 1 16 8 / 2 ^ 62 < 2 ∧ futOk ((leaving .yield).hNat 0 1 16 8) = true ∧ 16 < 192) ∧
    ((woken.dieAt 0).wakes = ⟨1, 193, true, 0⟩ :: [] ∧ 193 / 64 % 2 ^ 20 * 64 = 192 ∧ (woken.clusterAt 0).launch = some 1) ∧
    (((sweep [3]).partAt 0).sweep.start ≤ (sweep [3]).now ∧ SMap.sorted ((sweep [3]).partAt 0).scopes = true ∧ 3 ∈ ((sweep [3]).partAt 0).sweep.reading) ∧
    (((sweep []).partAt 0).sweep.reading = [] ∧ ((sweep []).partAt 0).sweep.start + 200 ≤ (sweep []).now) ∧
    (let closing := swept.updPartAt 0 fun q => { q with
        sweep := ⟨0, [], [(1, (4, 4))]⟩
        scopes := [(1, { ScopeEnt.reset with openNow := true, launch := 1, root := true, prevS := 4, prevE := 4, prevValid := true }),
          (2, { ScopeEnt.reset with openNow := true, launch := 1, parent := some 1, prevValid := true })] }
     let ent := fun i => SMap.look ScopeEnt.reset (closing.partAt 0).scopes i
     (ent 1).openNow = true ∧ (ent 1).prevValid = true ∧ (ent 1).prevS = 4 ∧ (ent 1).root = true ∧ (ent 2).parent = some 1) := by decide

/-! ### Launches -/

def withLaunch (f : Launch → Launch) : State := small.updLaunchAt 1 f
/-- A queue of two slots at HBM address 0, with one record to take. -/
def lq0 : LQueue := ⟨0, 2, 5, 3, 3, 0, false⟩
def withQueue (f : LQueue → LQueue) (bytes : List (Nat × Byte)) : State :=
  { (small.updPartAt 0 fun q => { q with queues := [(0, f lq0)] }) with mem := ⟨bytes, []⟩, now := 5 }

theorem witness_scheduled :
    let region := fun x : LQueue => x.n ≠ 0 ∧ x.base % 64 = 0 ∧ x.base + 64 + 512 * x.n ≤ hbmEnd
    let take := withQueue id [(4, 1)]
    let cancel := withQueue id [(15, 0x80)]
    let taking := (withCode id).updLaunchAt 2 fun l => { l with st := .taken, raw := record0, rc := recOf record0 }
    let admission := fun a => taking.updPartAt 0 fun q => { q with admitting := a, taken := [2] }
    let ready := withCode fun s => { s with
      launches := [(2, { Launch.none with st := .ready, rc := recOf record0, deadline := 2 ^ 40 })], clusters := [], harts := [] }
    (region (take.queueAt 0 0) ∧ (take.partAt 0).held = false ∧ take.physNat 0 4 ≠ take.physNat 4 4) ∧
    ((admission none).partAt 0).admitting = none ∧ ((admission none).partAt 0).taken = 2 :: [] ∧
    (((admission (some (2, 0))).partAt 0).admitting = some (2, 0) ∧ SMap.sorted (admission (some (2, 0))).launches = true ∧
      (∃ y ∈ (admission (some (2, 0))).launches, y.2.part = 0 ∧ y.2.tag = 1 ∧ y.2.st = .running) ∧
      ¬(∃ y ∈ (admission (some (2, 0))).launches, y.2.part = 0 ∧ y.2.tag = 2) ∧ taking.recordFaults 0 record0 = []) ∧
    (taking.recordFaults 0 (record0.set 0 2) = [(0, 0)] ∧ (taking.launchAt 2).slot = none) ∧
    ((withLaunch fun l => { l with st := .admitted }).launchAt 1).waits = [] ∧
    (ready.chosen 0 = some 2 ∧ ready.freeScope 0 = some 0 ∧ (ready.launchAt 2).rc.harts ≤ 32 ∧ (ready.launchAt 2).pre ≠ .savedOut ∧
      (∀ c < 32, (ready.launchAt 2).rc.clusters.testBit c = true → ready.partOf (c / 4) = 0)) ∧
    (let x := (withQueue id []).queueAt 0 0
     x.period ≠ 0 ∧ x.since + x.period ≤ (withQueue id []).now) ∧
    (let x := (withQueue (fun x => { x with left := 0 }) []).queueAt 0 0
     x.period ≠ 0 ∧ x.left = 0 ∧ x.throttled = false) ∧
    (let s := { withLaunch id with now := 2 ^ 40 + 1 }
     (s.launchAt 1).overran = false ∧ (s.launchAt 1).deadline < s.now) ∧
    ((cancel.physNat (0 + 8) 8).testBit 63 = true ∧
      (let s := cancel.updLaunchAt 1 fun l => { l with slot := some (0, 0) }
       (s.launchAt 1).slot = some (0, (cancel.physNat 8 8) % 2 ^ 32) ∧ SMap.sorted s.launches = true ∧ (s.launchAt 1).cause = 0) ∧
      ∀ y ∈ cancel.launches, y.2.slot ≠ some (0, (cancel.physNat 8 8) % 2 ^ 32)) := by decide

/-- One shadow line of launch 1 and a SNAP reader of it. -/
def line0 : ShadowLine := ⟨1, 4, 1, 9 :: List.replicate 63 0, false, none⟩
def withLine (f : Launch → Launch) : State := { withLaunch f with shadow := [line0], fresh := 9 }

theorem witness_launchesEnd :
    let sound := fun s : State => (s.shadow.map fun e => e.line).Nodup ∧ ∀ e ∈ s.shadow, e.line * 64 + 64 ≤ hbmEnd ∧ e.data.length = 64
    let switch := withLine fun l => { l with overflow := true, rc := { l.rc with ovf := true } }
    let closed := (withLaunch id).updPartAt 0 fun q => { q with scopes := [] }
    let ended := withLine fun l => { l with st := .ended }
    let flip := withLine fun l => { l with st := .committing, children := [record0] }
    let reader : Launch := { Launch.none with st := .running, rc := { Launch.none.rc with ranges := [some ⟨0, 4096, 0, .snap, none⟩] }, place := 3 }
    let snapped := { flip with launches := flip.launches ++ [(2, reader)] }
    let aborting := fun r => withLine fun l => { l with cause := 24, retryable := r, rc := { l.rc with retry := 1 } }
    ((withLaunch fun l => { l with overflow := true }).launchAt 1).rc.ovf = false ∧ (switch.switches 1 = true ∧ sound switch) ∧
    closed.finished 1 = true ∧ ended.prepares 0 = some 1 ∧
    (flip.commits 0 = some 1 ∧ sound flip ∧ (flip.launchAt 1).slot = none ∧ ∀ y ∈ flip.launches, y.1 < flip.fresh) ∧
    (snapped.commits 0 = some 1 ∧ 2 ∈ snapped.snapReaders 4 ∧ snapped.snapFind 2 4 = none ∧ snapped.poolLines 0 < snapped.poolSize 0) ∧
    (((aborting true).launchAt 1).cause ≠ 0 ∧ ((aborting true).launchAt 1).tries < ((aborting true).launchAt 1).rc.retry ∧
      ((aborting true).launchAt 1).irrev = false) ∧
    (((aborting false).launchAt 1).retryable = false ∧ ((aborting false).launchAt 1).slot = none) := by decide

/-- The scheduler with no ADMIT atomic that stands for another queue's record, and with one; a region that no SNAP range holds. -/
theorem witness_order :
    let s := withQueue id [(4, 1)]
    let t := s.updPartAt 0 fun q => { q with order := [(5, 1), (0, 1)] }
    let x := s.queueAt 0 0
    (s.partAt 0).order = [] ∧ (∀ a ∈ (t.partAt 0).order, a.1 = 0 ∨ t.atomicLive 0 a = false) ∧ s.snapReaders (x.base / 64) = [] ∧
    (let w := ({ s with mem := ⟨[(15, 0x80)], []⟩ } : State).updLaunchAt 1 fun l => { l with slot := some (0, 0) }
     (w.launchAt 1).st ∈ [LState.taken, .admitted, .ready, .running, .ended] ∧ (w.launchAt 1).part = 0 ∧ 1 ∈ w.launches.map (fun y => y.1)) := by decide

/-- The two steps of the switch and of an abort, and a queue region whose slots can be written. -/
theorem witness_phases :
    let flow := fun b => withLine fun l => { l with overflow := true, rc := { l.rc with ovf := true }, switching := b }
    let abort := fun st r => withLine fun l => { l with cause := 24, retryable := r, st := st, rc := { l.rc with retry := 1 } }
    let slot := fun (s : State) => (s.updLaunchAt 1 fun l => { l with slot := some (l.rc.queue, 0) }).updPartAt 0 fun q => { q with queues := [(0, lq0)] }
    let region := fun (s : State) =>
      let x := s.queueAt 0 0
      x.n ≠ 0 ∧ x.base % 64 = 0 ∧ x.base + 64 + 512 * x.n ≤ hbmEnd ∧ s.queueReached 0 x = true ∧ ∀ i, i < 8 * x.n + 1 → s.snapReaders (x.base / 64 + i) = []
    (flow false).switches 1 = true ∧ ((flow false).launchAt 1).switching = false ∧ (flow true).switches 1 = true ∧ ((flow true).launchAt 1).switching = true ∧
    ((abort .running true).launchAt 1).st ∈ [LState.taken, .admitted, .ready, .running, .ended] ∧ ((abort .running true).launchAt 1).cause ≠ 0 ∧
    ((abort .aborting true).launchAt 1).st = .aborting ∧ (abort .aborting true).copiesStopped 1 = true ∧
    ((slot (abort .aborting false)).launchAt 1).slot = some (((slot (abort .aborting false)).launchAt 1).rc.queue, 0) ∧ region (slot (abort .aborting false)) ∧
    ((small.launchAt 1).rc.queue = 0 ∧ (small.launchAt 1).part = 0) := by decide

theorem witness_contexts :
    let core : SavedCore := ⟨0, Core.reset, ⟨Hart.reset, [(0, false)]⟩, ⟨Hart.reset, []⟩, 0⟩
    let v : Saved := ⟨[core], [(0, Cluster.reset)], [(0, ⟨64, Ram.empty, []⟩)]⟩
    let stopping := (withLaunch fun l => { l with pre := .stopping }).updHart fun h => { h with mode := .stopped }
    let out := withCode fun s => { s with
      launches := [(2, { Launch.none with st := .ready, pre := .savedOut, saved := some v, rc := recOf record0 })], clusters := [], harts := [] }
    let gone := out.updPartAt 0 fun q => { q with slots := [] }
    let cut := fun (m : RunMode) (n : Nat) (r : Option Nat) => { (withLaunch fun l => { l with cut := .gathering 0 r, rc := { l.rc with harts := 2 } }) with
      harts := [(0, { small.hart with mode := .cut }), (1, { small.hart with mode := m, r := { small.hart.r with stepcnt := BitVec.ofNat 64 n } })]
      now := 1100 * 100 + 1 }
    let w : PendW := ⟨.x 5, 7, allBits, false, 3, 0, 0⟩
    let g : VWrite := ⟨3, false, 1, row 0, 4, [(0, ⟨1, false⟩), (1, ⟨2, true⟩)]⟩
    let stopped := (small.updHart fun h => { h with
      wq := [w], drain := .since 1, land := [{ land0 (.scalar 6 .w) with res := some [⟨some 6, 0, 9, false⟩] }] }).updCore fun k => { k with vq := [g] }
    ((small.launchAt 1).st = .running ∧ (small.launchAt 1).pre = .none ∧ (small.launchAt 1).cut = .none ∧ (small.launchAt 1).rc.harts ≤ 32) ∧
    (stopping.drained 1 = true ∧ (stopping.launchAt 1).cause = 0 ∧ stopping.areaPa 1 .store (stopping.placeAddr 1 ⟨0, 0, 0⟩) = none) ∧
    (w ∈ (stopped.hartAt 0).wq ∧ w.sel ≠ 0 ∧ (stopped.hartAt 0).drain = .since 1 ∧ g ∈ (stopped.coreAt 0).vq ∧
      (∀ x ∈ g.cells, ∀ y ∈ g.cells, x.1 = y.1 → x = y) ∧ (0, (⟨1, false⟩ : GCell)) ∈ g.cells ∧ 0 = g.op.cell (128 * 0 + 0) ∧
      ∀ x ∈ (stopped.hartAt 0).land, x.landed = false ∧ x.silent = false ∧ x.kind.operand = none) ∧
    (gone.chosen 0 = some 2 ∧ gone.codeSlot 0 (leNat (gone.areaBytes 2 ⟨0, 0, 16⟩ 8)) = none ∧ (gone.launchAt 2).cause = 0) ∧
    (let s := withLaunch fun l => { l with pre := .restored, rc := { l.rc with harts := 1 } }
     (s.launchAt 1).pre = .restored ∧ (s.launchAt 1).rc.harts ≤ 32 ∧ (s.hartAt 0).held = none) ∧
    (((cut .cut 0 none).hartAt 1).mode = .cut ∧ ((cut .cut 5 (some 7)).launchAt 1).cut = .gathering 0 (some 7) ∧ 7 ≤ (cut .cut 5 (some 7)).now ∧
      ((cut .cut 5 (some 7)).hartAt 0).r.stepcnt.toNat ≠ ((cut .cut 5 (some 7)).hartAt 1).r.stepcnt.toNat ∧
      ((cut .cut 0 (some 7)).hartAt 0).r.stepcnt.toNat = ((cut .cut 0 (some 7)).hartAt 1).r.stepcnt.toNat ∧ ((cut .cut 5 (some 7)).hartAt 1).held = none) ∧
    (((cut .running 0 none).hartAt 1).mode ≠ .cut ∧ 0 + 1100 * (cut .running 0 none).pkg.cfg.cutlim < (cut .running 0 none).now) := by decide

/-! A save area behind page tables that map every address to the first GiB of HBM. -/

/-- A table of 512 equal entries. -/
def table (e : Nat) : List Byte := (List.replicate 512 (leBytes 8 e)).flatten

theorem table_length (e : Nat) : (table e).length = 4096 := by simp [table, leBytes]

theorem getD_flatten_replicate (l : List Byte) (n i j : Nat) (hi : i < n) (hj : j < l.length) :
    ((List.replicate n l).flatten).getD (l.length * i + j) 0 = l.getD j 0 := by
  induction n generalizing i with
  | zero => omega
  | succ n ih =>
    rw [List.replicate_succ, List.flatten_cons]
    cases i with
    | zero => rw [Nat.mul_zero, Nat.zero_add, List.getD_append _ _ _ _ hj]
    | succ i =>
      rw [List.getD_append_right _ _ _ _ (by rw [Nat.mul_succ]; omega),
        show l.length * (i + 1) + j - l.length = l.length * i + j by rw [Nat.mul_succ]; omega]
      exact ih i (by omega)

theorem leBytes_8_length (e : Nat) : (leBytes 8 e).length = 8 := rfl

theorem table_getD (e i j : Nat) (hi : i < 512) (hj : j < 8) : (table e).getD (8 * i + j) 0 = (leBytes 8 e).getD j 0 :=
  getD_flatten_replicate (leBytes 8 e) 512 i j hi hj

/-- A state whose core 0 translates every system address to the second GiB of HBM, where `bs` stand from offset `o` on. -/
def areas (s : State) (o : Nat) (bs : List Byte) : State :=
  { s.updCoreAt 0 (fun k => { k with dptroot := 0x1001 }) with
    mem := (((Ram.empty.setBytes 0x1000 (table 0x2001)).setBytes 0x2000 (table 0x3001)).setBytes 0x3000 (table 0x4000000F)).setBytes (2 ^ 30 + o) bs
    pkg := small.pkg }

theorem areas_byte (s : State) (o : Nat) (bs : List Byte) (k : Nat) : (areas s o bs).mem.byte k =
    if 2 ^ 30 + o ≤ k ∧ k < 2 ^ 30 + o + bs.length then bs.getD (k - (2 ^ 30 + o)) 0
    else if 0x3000 ≤ k ∧ k < 0x4000 then (table 0x4000000F).getD (k - 0x3000) 0 else if 0x2000 ≤ k ∧ k < 0x3000 then (table 0x3001).getD (k - 0x2000) 0
    else if 0x1000 ≤ k ∧ k < 0x2000 then (table 0x2001).getD (k - 0x1000) 0 else 0 := by
  simp only [areas, Ram.byte, Ram.setBytes, SMap.look_setList, table_length]
  rfl

theorem areas_entry (s : State) (o : Nat) (bs : List Byte) (t e i : Nat) (ht : (t = 0x1000 ∧ e = 0x2001) ∨ (t = 0x2000 ∧ e = 0x3001) ∨ (t = 0x3000 ∧ e = 0x4000000F)) (hi : i < 512) :
    (areas s o bs).physNat (t + 8 * i) 8 = e := by
  have byte : ∀ j, j < 8 → (areas s o bs).physByte (t + 8 * i + j) = (leBytes 8 e).getD j 0 := by
    intro j hj
    have low : t + 8 * i + j < hbmEnd := by unfold hbmEnd; omega
    rw [State.physByte, if_pos low, areas_byte]
    rcases ht with ⟨rfl, rfl⟩ | ⟨rfl, rfl⟩ | ⟨rfl, rfl⟩
    · rw [if_neg (by omega), if_neg (by omega), if_neg (by omega), if_pos (by omega), show 0x1000 + 8 * i + j - 0x1000 = 8 * i + j by omega, table_getD _ _ _ hi hj]
    · rw [if_neg (by omega), if_neg (by omega), if_pos (by omega), show 0x2000 + 8 * i + j - 0x2000 = 8 * i + j by omega, table_getD _ _ _ hi hj]
    · rw [if_neg (by omega), if_pos (by omega), show 0x3000 + 8 * i + j - 0x3000 = 8 * i + j by omega, table_getD _ _ _ hi hj]
  have all : (areas s o bs).physBytes (t + 8 * i) 8 = (List.range 8).map fun j => (leBytes 8 e).getD j 0 :=
    List.map_congr_left fun j hj => byte j (List.mem_range.1 hj)
  rw [State.physNat, all]
  rcases ht with ⟨rfl, rfl⟩ | ⟨rfl, rfl⟩ | ⟨rfl, rfl⟩ <;> decide

theorem areas_mapped (s : State) (o : Nat) (bs : List Byte) (a : Nat) (h : a < 2 ^ 31) : (areas s o bs).mapped a = true := by
  have stack : a / stackSize = 0 := Nat.div_eq_of_lt (by unfold stackSize; omega)
  have present : (areas s o bs).stackPresent 0 = stackSize := by
    show small.stackPresent 0 = stackSize; decide
  have low : a % stackSize < stackSize := Nat.mod_lt _ (by decide)
  have hbm : a < hbmEnd := by unfold hbmEnd; omega
  simp [State.mapped, State.inHbm, stack, present, low, hbm]

theorem areas_route (s : State) (o : Nat) (bs : List Byte) (a : Nat) (h : a < 2 ^ 31) : (areas s o bs).routeLost 4 0 (dieOfPa a) = false := by
  have die : dieOfPa a = 0 := by
    rw [dieOfPa, if_pos (by unfold hbmEnd; omega)]
    exact Nat.div_eq_of_lt (Nat.div_lt_of_lt_mul (by unfold stackSize; omega))
  rw [die]; rfl

/-- A walk goes down through an entry that names a table, and ends in a leaf of 1 GiB. -/
theorem walk_down (s : State) (d : DieId) (acc : Acc) (va tbl k e : Nat) (hr : s.entryReads d (pteAddr tbl (k + 1) va) = true)
    (he : s.pte tbl (k + 1) va = e) (h : pteBit e 0 = true ∧ e / 2 ^ 52 = 0 ∧ e / 64 % 64 = 0 ∧ pteBit e 1 = false)
    (hz : (pteBit e 2 || pteBit e 3 || pteBit e 4 || pteBit e 5) = false) :
    s.walk d false acc va tbl (k + 1) = s.walk d false acc va (ptePpn e * 4096) k := by
  obtain ⟨h0, h52, h6, h1⟩ := h
  rw [State.walk]
  simp [hr, he, h0, h6, h1, hz, show e < 4503599627370496 from by omega]

theorem walk_leaf (s : State) (d : DieId) (acc : Acc) (hacc : acc = .load ∨ acc = .store) (va tbl : Nat)
    (hr : s.entryReads d (pteAddr tbl 2 va) = true) (he : s.pte tbl 2 va = 0x4000000F) :
    s.walk d false acc va tbl 2 = .ok ⟨va / 2 ^ 30 * 2 ^ 30, 30, 2 ^ 30, true, true, false⟩ := by
  rw [State.walk]
  rcases hacc with rfl | rfl <;> simp [hr, he, pteBit, ptePpn]

/-- Every address of the system's translation reads and writes the byte of its low 30 bits. -/
theorem areas_area (s : State) (o : Nat) (bs : List Byte) (acc : Acc) (hacc : acc = .load ∨ acc = .store) (id a : Nat)
    (hc : (s.launchAt id).rc.coreList.headD 0 = 0) : (areas s o bs).areaPa id acc a = some (2 ^ 30 + a % 2 ^ 30) := by
  have reads : ∀ t i, t ≤ 0x3000 → i < 512 → (areas s o bs).entryReads 0 (t + 8 * i) = true := by
    intro t i ht hi
    have hp : (areas s o bs).physPoisoned (t + 8 * i) = false := by
      simp only [State.physPoisoned, Bool.and_eq_false_iff]; right; rfl
    rw [State.entryReads, areas_mapped s o bs _ (by omega), hp, areas_route s o bs _ (by omega)]; rfl
  have small : ∀ k, a / 2 ^ (12 + 9 * k) % 512 < 512 := fun k => Nat.mod_lt _ (by decide)
  have r4 := reads 0x1000 _ (by omega) (small 4)
  have r3 := reads 0x2000 _ (by omega) (small 3)
  have r2 := reads 0x3000 _ (by omega) (small 2)
  have e4 := areas_entry s o bs 0x1000 0x2001 _ (by omega) (small 4)
  have e3 := areas_entry s o bs 0x2000 0x3001 _ (by omega) (small 3)
  have e2 := areas_entry s o bs 0x3000 0x4000000F _ (by omega) (small 2)
  have walk : (areas s o bs).walk 0 false acc a 0x1000 4 = .ok ⟨a / 2 ^ 30 * 2 ^ 30, 30, 2 ^ 30, true, true, false⟩ := by
    rw [walk_down _ _ _ _ _ 3 0x2001 r4 e4 (by decide) (by decide)]
    show (areas s o bs).walk 0 false acc a 0x2000 3 = _
    rw [walk_down _ _ _ _ _ 2 0x3001 r3 e3 (by decide) (by decide)]
    exact walk_leaf _ _ _ hacc _ _ r2 e2
  have low : 2 ^ 30 + a % 2 ^ 30 < 2 ^ 31 := by
    have := Nat.mod_lt a (show 0 < 2 ^ 30 by decide); omega
  have root : (areas s o bs).walkRoot 0 0x1001 false acc a = .ok ⟨a / 2 ^ 30 * 2 ^ 30, 30, 2 ^ 30, true, true, false⟩ := walk
  have where_ : ((areas s o bs).launchAt id).rc.coreList.headD 0 = 0 ∧ ((areas s o bs).coreAt 0).dptroot = 0x1001 := by
    refine ⟨hc, ?_⟩
    show ((s.updCoreAt 0 fun k => { k with dptroot := 0x1001 }).coreAt 0).dptroot = 0x1001
    rw [State.updCoreAt_coreAt_same]
  have pa : (⟨a / 2 ^ 30 * 2 ^ 30, 30, 2 ^ 30, true, true, false⟩ : TlbEnt).pa a = 2 ^ 30 + a % 2 ^ 30 := by simp [TlbEnt.pa]
  have die : dieOfCore 0 = 0 := rfl
  unfold State.areaPa
  simp only [where_, die, root, pa, areas_mapped s o bs _ low, areas_route s o bs _ low]
  rfl

/-- Launch 1 is being saved and stands at CURSOR `c`. -/
def saving (c : Word) : State := areas (withLaunch fun l => { l with pre := .saving c, rc := { l.rc with harts := 1 } }) 0 []

/-- The first line of the area, the header's, is written with CURSOR; later the last line, and a line of rows that are not dirty. -/
theorem witness_saveLine :
    let last : Word := (⟨6, 0, 65536 - 64⟩ : Place).cursor
    (∀ c, ((saving c).launchAt 1).st = .running ∧ ((saving c).launchAt 1).cause = 0 ∧ ((saving c).launchAt 1).pre = .saving c ∧
      ∀ a, ∃ pa, (saving c).areaPa 1 .store a = some pa ∧ (saving c).snapReaders (pa / 64) = [] ∧ pa + 64 ≤ hbmEnd) ∧
    (placeOf 0 = ⟨0, 0, 0⟩ ∧ (((saving 0).launchAt 1).rc.nextPlace ⟨0, 0, 0⟩).isSome = true) ∧
    (placeOf last = ⟨6, 0, 65536 - 64⟩ ∧ ((saving last).launchAt 1).rc.nextPlace ⟨6, 0, 65536 - 64⟩ = none) ∧
    (placeOf (⟨2, 0, 64⟩ : Place).cursor = ⟨2, 0, 64⟩ ∧ ((saving 0).coreAt 0).dirty.getLsbD 0 = false) := by
  refine ⟨fun c => ⟨rfl, rfl, rfl, fun a => ⟨_, areas_area _ _ _ _ (.inr rfl) 1 a ?_, rfl, ?_⟩⟩, ?_, ?_, ?_⟩
  · have rc : ((withLaunch fun l => { l with pre := .saving c, rc := { l.rc with harts := 1 } }).launchAt 1).rc =
        ((withLaunch fun l => { l with rc := { l.rc with harts := 1 } }).launchAt 1).rc := rfl
    rw [rc]; decide
  · have := Nat.mod_lt a (show 0 < 2 ^ 30 by decide); unfold hbmEnd; omega
  · refine ⟨by decide, ?_⟩
    show (((withLaunch fun l => { l with pre := .saving 0, rc := { l.rc with harts := 1 } }).launchAt 1).rc.nextPlace ⟨0, 0, 0⟩).isSome = true
    decide
  · refine ⟨by decide, ?_⟩
    show ((withLaunch fun l => { l with pre := .saving 0, rc := { l.rc with harts := 1 } }).launchAt 1).rc.nextPlace ⟨6, 0, 65536 - 64⟩ = none
    decide
  · refine ⟨by decide, ?_⟩
    show ((small.updCoreAt 0 fun k => { k with dptroot := 0x1001 }).coreAt 0).dirty.getLsbD 0 = false
    decide

/-- A launch whose context is saved and whose area names the code handle 1. -/
def savedOut (v : Saved) : State :=
  areas (withCode fun s => { s with
    launches := [(2, { Launch.none with st := .ready, pre := .savedOut, saved := some v, rc := recOf record0 })], clusters := [], harts := [] })
    ((Config.saveArea 2 / 64 * 64 + 16) % 2 ^ 30) (leBytes 8 1)

theorem witness_restore :
    let core : SavedCore := ⟨0, Core.reset, ⟨Hart.reset, [(0, false)]⟩, ⟨Hart.reset, []⟩, 0⟩
    let v : Saved := ⟨[core], [(0, Cluster.reset)], [(0, ⟨64, Ram.empty, []⟩)]⟩
    let s := savedOut v
    (s.launchAt 2).pre = .savedOut ∧ (s.launchAt 2).saved = some v ∧ s.chosen (s.launchAt 2).part = some 2 ∧
    s.codeSlot 0 (leNat ((List.range 8).map fun i =>
      match s.areaPa 2 .load (s.placeAddr 2 ⟨0, 0, 16⟩ + i) with | some pa => s.physByte pa | none => 0)) ≠ none ∧
    (v.cores.map fun x => x.core).Nodup ∧ (v.clusters.map fun x => x.1).Nodup ∧ (v.allocs.map fun x => x.1).Nodup := by
  intro core v s
  refine ⟨rfl, rfl, ?_, ?_, by decide, by decide, by decide⟩
  · decide
  · have place : s.placeAddr 2 ⟨0, 0, 16⟩ = Config.saveArea 2 / 64 * 64 + 16 := by
      simp [State.placeAddr, LRec.saveUnits]
    have byte : ∀ i, i < 8 → (match s.areaPa 2 .load (s.placeAddr 2 ⟨0, 0, 16⟩ + i) with | some pa => s.physByte pa | none => 0) =
        (leBytes 8 1).getD i 0 := by
      intro i hi
      have area : s.areaPa 2 .load (s.placeAddr 2 ⟨0, 0, 16⟩ + i) = _ := areas_area _ _ _ _ (.inl rfl) 2 _ (by decide)
      have step : (Config.saveArea 2 / 64 * 64 + 16 + i) % 2 ^ 30 = (Config.saveArea 2 / 64 * 64 + 16) % 2 ^ 30 + i := by omega
      have low : (Config.saveArea 2 / 64 * 64 + 16) % 2 ^ 30 + i < 2 ^ 30 := by omega
      rw [area, place, step]
      show s.physByte _ = _
      rw [State.physByte, if_pos (by unfold hbmEnd; omega)]
      show (areas _ _ _).mem.byte _ = _
      rw [areas_byte, leBytes_8_length, if_pos (by omega)]
      congr 1; omega
    have all : ((List.range 8).map fun i => match s.areaPa 2 .load (s.placeAddr 2 ⟨0, 0, 16⟩ + i) with | some pa => s.physByte pa | none => 0) =
        (List.range 8).map fun i => (leBytes 8 1).getD i 0 := List.map_congr_left fun i hi => byte i (List.mem_range.1 hi)
    rw [all]
    decide

/-! ### The fabric -/

/-- The package with changes; a domain of two modules whose port 1 is up. -/
def withPkg (f : Package → Package) : State := { small with pkg := f small.pkg }
def domain (f : Port → Port) : State := withPkg fun k => { k with cfg := { k.cfg with domsize := 2 }, ports := [(1, f { Port.reset with up := true })] }

theorem witness_hosts :
    (∀ k < 2, small.mapped (hbmEnd - 2 + k) = true) ∧ hbmEnd - 2 + 2 ≤ hbmEnd ∧ small.mapped hbmEnd = false ∧
    (∀ k < 2, small.physPoisoned (0 + k) = false) ∧ ({ small with mem := ⟨[], [0]⟩ } : State).physPoisoned 5 = true ∧
    (4 % 8 ≠ 0 ∧ 8 % 8 = 0 ∧ small.mapped 8 = true) ∧
    (let p := SMap.look Port.reset (domain fun p => { p with qps := [7], expect := 3, sentSeq := 4, unacked := 2 }).pkg.ports 1
     p.up = true ∧ 7 ∈ p.qps ∧ 8 ∉ p.qps ∧ 2 + 1 = p.expect ∧ p.sentSeq = 4 ∧ 2 ≤ p.unacked ∧ p.lost = false) ∧
    ((domain id).pkg.ports.map fun p => p.2.qps.length).sum < 4096 ∧
    (let c := (domain id).pkg.cfg
     1 < c.domsize ∧ 1 < c.domsize ∧ 1 ≠ c.modulePos ∧ (0 : BitVec 32).toNat = c.domid) ∧ small.pkg.cfg.domsize ≤ 1 ∧ isColl 0 = false ∧
    (let s := { domain id with
       harts := [(0, { small.hart with land := [{ land0 (.scalar 5 .w) with elems := [⟨0, 8, 8, some ⟨.remote 1, 8⟩, [], false, 0, none⟩] }] })] }
     let t := { s with pkg := { s.pkg with groups := [(0, ⟨3 + 2 ^ 8, 0, 0, 1, 0, [], 0, none, [(0, [1])]⟩)] } }
     SMap.sorted t.pkg.groups = true ∧ SMap.sorted t.harts = true ∧ (t.groupAt 0).data ≠ [] ∧
      (∃ d < 8, (t.groupAt 0).members.getLsbD (8 * 1 + d) = true) ∧ (t.hartAt 0).mode = .running) := by decide

/-- A group of dies 0 and 1 in which die 0 triggers: as no member, in a wrong round, and in the right one; its end and its timeout. -/
theorem witness_collectives :
    let g : Group := ⟨3, 0, 0, 1, 0, [], 0, none, []⟩
    let s := fun (g : Group) (round : Byte) => { withPkg (fun k => { k with groups := [(0, g)] }) with
      dies := [(0, { Die.reset with coll := ⟨if round = 0 then [] else [(0, round)], []⟩, trig := [0] })] }
    let word := fun (s : State) => leNat ((List.range 8).map fun i => (s.dieAt 0).coll.byte (512 * 0 + 0 + i))
    0 ∈ ((s g 1).dieAt 0).trig ∧ ((s { g with members := 2 } 1).groupAt 0).members.getLsbD 0 = false ∧
    (((s g 1).groupAt 0).members.getLsbD 0 = true ∧ word (s g 2) ≠ (0 + 1) % 2 ^ 64 ∧ word (s g 1) = (0 + 1) % 2 ^ 64 ∧ 0 ∉ ((s g 1).groupAt 0).triggered) ∧
    (let d := { g with triggered := [0, 1], doneAt := some 0, data := [(0, [0]), (1, [0])] }
     ((s d 1).groupAt 0).doneAt = some 0 ∧ d.count ≤ 64 ∧ (s d 1).dataMoved 0 d = false) ∧
    (let d := { g with triggered := [0], data := [(0, [0])] }
     let t := { s d 1 with now := small.memtoCycles }
     (t.groupAt 0).data ≠ [] ∧ (t.groupAt 0).firstAt + t.memtoCycles ≤ t.now ∧ (t.groupAt 0).doneAt = none) := by decide

theorem witness_resets :
    let linked := fun a b : DieId => (a / 4 = b / 4 ∧ (a + 1 = b ∨ b + 1 = a)) ∨ a + 4 = b ∨ b + 4 = a
    let l := fun (f : Link) => withPkg fun k => { k with links := [(1, f)] }
    let nak := fun n => SMap.look Link.reset (l { Link.reset with nak := true, failed := n }).pkg.links (8 * 0 + 1)
    let dropping := fun h => (withPkg fun k => { k with drops := [(0, 63, none)] }).updPartAt 0 fun q => { q with held := h }
    SMap.sorted small.launches = true ∧ (linked 0 1 ∧ linked 3 7 ∧ ¬linked 3 4) ∧
    ((SMap.look Link.reset small.pkg.links 1).lost = false ∧ 0 = (SMap.look Link.reset small.pkg.links 1).expect) ∧
    ((nak 6).nak = true ∧ (nak 6).failed < 7 ∧ 7 ≤ (nak 7).failed) ∧ (63 * 64 < hbmEnd ∧ small.mapped (63 * 64) = true) ∧
    (∀ x ∈ small.pkg.drops, x.1 ≠ 0 ∨ x.2.1 ≠ 63) ∧ (0 ∉ small.pkg.absent ∧ (SMap.look (0 : BitVec 64) small.pkg.dropped 0).getLsbD 63 = false) ∧
    ((dropping false).pkg.drops = [(0, 63, none)] ∧ ((dropping false).partAt 0).held = false) ∧
    (((dropping true).partAt 0).held = true ∧
      (let s := { dropping true with launches := [] }
       (∀ y ∈ s.launches, y.2.part = 0 → y.2.st ≠ .running ∧ y.2.st ≠ .committing) ∧ s.pkg.drops = [(0, 63, none)]) ∧
      ((List.range 64).filter fun i => (SMap.look (0 : BitVec 64) (dropping true).pkg.dropped 0).getLsbD i).length < 8) ∧
    ((95 : Int) + 10 < 106 ∧ (94 : Int) < 95 ∧ 2399 < 2400 ∧ (105 : Int) ≤ 95 + 10 ∧ (small.pkg.cfg.tlimit : Int) = 95) := by decide

/-- A queue pair that is taken, and one that the 4,096 pairs leave no room for; a line that a commit holds, and one that no commit and no SNAP range does;
frames of a peer, with its atomics. -/
theorem witness_frames :
    let s := domain fun p => { p with qps := [7] }
    let full := domain fun p => { p with qps := List.replicate 4096 7 }
    let taken := fun (s : State) qp =>
      let pt := SMap.look Port.reset s.pkg.ports 1
      pt.up = true ∧ (qp ∈ pt.qps ∨ (s.pkg.ports.map fun p => p.2.qps.length).sum < 4096)
    let held := { withLine (fun l => { l with st := .committing }) with pkg := s.pkg }
    taken s 7 ∧ taken s 8 ∧ ¬taken full 8 ∧
    (∃ e ∈ held.shadow, held.lineCommits e.line = true ∧ 256 < 64 * e.line + 64 ∧ 64 * e.line < 256 + 1 ∧ 256 / 64 = e.line) ∧
    (∀ e ∈ held.shadow, held.lineCommits e.line = true → 0 + 64 ≤ 64 * e.line ∨ 64 * e.line + 64 ≤ 0) ∧
    (0 + 64 ≤ hbmEnd ∧ ∀ k, k < 64 → s.mapped (0 + k) = true) ∧ (∀ line < 2, s.snapReaders line = []) ∧ s.mapped hbmEnd = false ∧
    (let p := SMap.look Port.reset (domain fun p => { p with expect := 3 }).pkg.ports 1
     p.up = true ∧ 3 = p.expect ∧ 2 + 1 = p.expect ∧ (7 ≠ p.expect ∧ 7 + 1 ≠ p.expect)) ∧
    (isColl hbmEnd = false ∧ AtomKind.apply .add 8 0 1 0 = some 1 ∧ AtomKind.apply .cas 8 0 1 0 = none) ∧
    (Output.rdmaNak 0 false ≠ .rdmaNak 0 true) ∧ (let u := domain id; SMap.sorted u.pkg.groups = true ∧ SMap.sorted u.harts = true) := by decide

/-- A flit to replay, an uncorrectable error in every kind of memory, and a package that has frozen one cycle, or two, before. -/
theorem witness_faults :
    let l := fun (f : Link) => withPkg fun k => { k with links := [(1, f)] }
    let nak := SMap.look Link.reset (l { Link.reset with nak := true, expect := 4, buf := [(3, [1]), (4, [2])] }).pkg.links (8 * 0 + 1)
    let froze := fun t => { (withPkg fun k => { k with frozeAt := some t }) with now := 9 }
    nak.nak = true ∧ (nak.buf.find? fun x => x.1 = nak.expect) = some (nak.expect, [2]) ∧
    (List.replicate 64 (0 : Byte)).length = 64 ∧ small.inHbm (3 * 64) = true ∧ 64 * 1 < ((withH 128 []).halloc 0 1).size ∧
    (∃ t, (froze 8).pkg.frozeAt = some t ∧ (froze 8).now < t + 2) ∧ (∀ t, (froze 7).pkg.frozeAt = some t → t + 2 ≤ (froze 7).now) ∧
    ((105 : Int) ≥ 95 + 10 ∧ (104 : Int) < 95 + 10 ∧ (95 : Int) ≤ 104) ∧ (511 < 512 ∧ 511 / 64 = 7) ∧
    (let s := { small with pkg := { small.pkg with drops := [(0, 63, none)] } }
     s.pkg.drops = [(0, 63, none)] ∧ (s.partAt (s.partOf (0 / 2))).held = false ∧ 0 ∉ s.pkg.absent) := by
  refine ⟨by decide, by decide, by decide, by decide, by decide, ⟨8, by decide⟩, by decide, by decide, by decide, by decide⟩

/-- Starts from a cold and from a warm package. Whether a copy is valid, and what the owner's key verifies, rest on constants without a body. -/
theorem witness_startUp :
    (State.reset.pkg.phase = .off ∧ State.reset.pkg.started = false) ∧
    (let k := { State.reset.pkg with started := true }
     k.phase = .off ∧ k.started = true) ∧ (small.pkg.phase ≠ .off ∧ small.pkg.leaf < 2 ^ 20 - 1) ∧
    2 ^ 20 - 1 ≤ (withPkg fun k => { k with leaf := 2 ^ 20 - 1 }).pkg.leaf ∧
    (Config.ownerVerifies [] [] = true ∨ Config.ownerVerifies [] [] = false) := by
  refine ⟨by decide, by decide, by decide, by decide, ?_⟩
  cases Config.ownerVerifies [] [] <;> simp

/-! ### The mailbox -/

/-- A request in slot 0: operation, SEQ 1 and payload (R406). -/
def asks (op : Byte) (payload : List Byte) (f : Package → Package) : State :=
  withPkg fun k => { f k with
    sessions := [noAgent]
    mailbox := ((k.mailbox.setBytes 0 [op, 0, 1, 0]).setBytes 4 (leBytes 4 payload.length ++ [0xFF, 0xFF])).setBytes 64 payload }

theorem witness_mailbox :
    let asked := fun (s : State) op => s.nextRequest = some 0 ∧ s.mailNat 0 0 2 = op
    let isNew := fun s : State => ∀ x ∈ s.pkg.stored, x.1 = 0 → x.2.1 ≠ s.mailNat 0 2 2
    let payload := fun (s : State) n => s.mailNat 0 4 4 = n ∧ n ≤ 4032
    let kept := asks 1 [] fun k => { k with stored := [(0, (1, [0, 0]))] }
    let data := fun n => (List.range n).map fun _ => (0 : Byte)
    (∀ x ∈ [((1 : Byte), 0), (2, 32), (3, 8), (4, 4), (0x10, 40), (0x11, 28), (0x12, 72), (0x13, 19), (0x14, 24), (0x21, 3)],
      let s := asks x.1 (data x.2) id
      asked s x.1.toNat ∧ isNew s ∧ payload s x.2 ∧ s.pkg.phase ≠ .recovery ∧ s.writerOf 0 ∈ s.pkg.sessions ∧ s.headerOk 0 = true) ∧
    (asked (asks 0x10 ([1] ++ data 15) id) 16 ∧ (asks 0x10 ([1] ++ data 15) id).mailNat 0 64 4 = 1) ∧
    (asked kept 1 ∧ (0, 1, leBytes 2 0 ++ ([] : List Byte)) ∈ kept.pkg.stored) ∧
    (asks 2 (data 32) fun k => { k with phase := .recovery }).pkg.phase = .recovery ∧
    ¬asked small 1 ∧ small.pkg.mr.length = 8 ∧ small.pkg.chain.length < 1 ∧ 8 ≤ 8 := by decide

/-- Arguments of the owner's commands that are good, and that are not. -/
theorem witness_arguments :
    (∃ d < 8, small.partOf d = 0) ∧ ¬(∃ d < 8, small.partOf d = 1) ∧ (∃ e < 13, 4096 = 2 ^ e) ∧ small.inHbm 0 = true ∧
    small.inHbm (0 + 63 + 512 * 4096) = true ∧ (1 ≤ 5 ∧ 5 ≤ 5) ∧ (1 ≤ 2 ^ 40 - 1 ∧ 2 ^ 40 - 1 < 2 ^ 40) ∧ (63 < 64 ∧ 2 < 3 ∧ 1 < 2 ∧ 64 ≤ 64) ∧
    (8 ≤ 8 ∧ ¬(8 ≤ 7)) ∧ ((SMap.look Port.reset (domain fun p => { p with qps := [7] }).pkg.ports 1).qps.contains 7 = true) ∧
    ((∀ x ∈ small.pkg.drops, x.1 ≠ 15 ∨ x.2.1 ≠ 63) ∧ 0 ∈ (withPkg fun k => { k with absent := [0] }).pkg.absent) ∧
    (∃ x ∈ (withPkg fun k => { k with drops := [(15, 63, some 1)] }).pkg.drops, x.1 = 15 ∧ x.2.1 = 63 ∧ x.2.2 ≠ some 0) ∧
    small.pkg.useB = false ∧ (withPkg fun k => { k with useB := true }).pkg.useB = true ∧ 95 * 2 ^ 30 < 96 * 2 ^ 30 ∧
    (withCode id).codeSlot 0 1 ≠ none ∧ (withCode id).codeSlot 1 1 = none := by decide

/-- A code object of one code section of 64 bytes for a device, and one that no device loads as native code (R53, R432). -/
def object0 (hash : List Byte) : List Byte :=
  leBytes 4 objMagic ++ [1, 0, 1, 0] ++ leBytes 8 128 ++ hash ++ List.replicate 96 0 ++
    (leBytes 4 tCode ++ leBytes 4 0 ++ leBytes 8 192 ++ leBytes 8 64 ++ leBytes 8 0) ++ List.replicate 32 0 ++ List.replicate 64 0
def withObject (hash : List Byte) : State :=
  { asks 0x10 (List.replicate 16 0 ++ leBytes 8 256 ++ List.replicate 16 0) id with mem := Ram.empty.setBytes 0 (object0 hash) }

theorem witness_objects :
    let hash := small.deviceHash
    let s := withObject hash
    let b := s.mailBytes 0 64 40
    let num := fun o n => leNat ((b.drop o).take n)
    let raw := s.physBytes (num 8 8) (num 16 8)
    let secs := [(⟨tCode, 192, 64⟩ : Sect)]
    s.mailNat 0 64 4 = 0 ∧ num 16 8 = 256 ∧ s.inHbm (num 8 8) = true ∧ s.inHbm (num 8 8 + num 16 8 - 1) = true ∧ num 32 8 < 2 ∧
    sectionsOf [] = none ∧ sectionsOf raw = some secs ∧ findSect secs tSymbols = none ∧
    ((findSect secs tCode).isSome = true ∧ (raw.drop 16).take 16 = s.deviceHash ∧ num 32 8 = 0) ∧
    (let other := object0 (List.replicate 16 0)
     sectionsOf other = some secs ∧ (other.drop 16).take 16 ≠ s.deviceHash ∧ findSect secs tTuris = none) ∧
    s.freeSlot 0 = some 1 ∧ ((s.partAt 0).freeCbase (sectBytes raw secs tCode).length).isSome = true ∧ s.extentOk 0 0 0 = true ∧
    (s.updPartAt 0 fun q => { q with sysRanges := [⟨0, 4096, 0, .ro, none⟩] }).extentOk 0 0 64 = false := by decide +kernel

/-- A request's reserved header bytes are zero, or not; what it asks for, its payload beyond the fields. -/
theorem witness_headers :
    let s := asks 0x11 (List.replicate 28 0) id
    let bad := { s with pkg := { s.pkg with mailbox := s.pkg.mailbox.setBytes 63 [1] } }
    (∀ i, 10 ≤ i → i < 64 → s.mailNat 0 i 1 = 0) ∧ ¬(∀ i, 10 ≤ i → i < 64 → bad.mailNat 0 i 1 = 0) ∧
    SMap.look 15 s.pkg.writers 0 ∈ s.pkg.sessions ∧ SMap.look 15 small.pkg.writers 0 ∉ small.pkg.sessions ∧ small.pkg.stored = [] := by decide

/-- Every slot of the loader is taken, and slots that leave no room for code. -/
theorem witness_fullLoader :
    let s := small.updPartAt 0 fun q => { q with slots := (List.range 4096).map fun i => (i, (⟨0, true, 0, 64, 0⟩ : Slot)) }
    ∀ i, i < 4096 → (SMap.look Slot.reset (s.partAt 0).slots i).loaded = true := by
  intro s i hi
  have look : ∀ n k, k ≤ i → i < k + n → SMap.look Slot.reset ((List.range' k n).map fun i => (i, (⟨0, true, 0, 64, 0⟩ : Slot))) i = ⟨0, true, 0, 64, 0⟩ := by
    intro n
    induction n with
    | zero => intro k h1 h2; omega
    | succ n ih =>
      intro k h1 h2
      rw [List.range'_succ, List.map_cons, SMap.look]
      split
      · rfl
      · exact ih (k + 1) (by omega) (by omega)
  have slots : (s.partAt 0).slots = (List.range' 0 4096).map fun i => (i, (⟨0, true, 0, 64, 0⟩ : Slot)) := by
    rw [← List.range_eq_range']; rfl
  rw [slots, look 4096 0 (by omega) (by omega)]

theorem witness_noCode :
    let s := (withObject small.deviceHash).updPartAt 0 fun q => { q with slots := [(5, ⟨0, true, cbaseLow, cbaseHigh - cbaseLow, 0⟩)] }
    s.freeSlot 0 = some 1 ∧ (s.partAt 0).freeCbase 64 = none := by decide +kernel

/-! ### Ill-formed terms -/

def vv0 (ty : Ty) (b : Src2) : VV := ⟨row 0, row 1, b, ty, 0⟩
def vu0 (ty : Ty) : VU := ⟨row 0, row 1, ty, 0⟩
def vm0 (ty : Ty) (dist : Fin 4096) : VM := ⟨row 0, 1, .t, ty, 0, dist⟩
def amo0 (ty : Ty) : Amo := ⟨1, 2, 3, 0, .t, ty, 0, .hart, .none, false, 0⟩
def vamo0 : Vamo := ⟨none, row 0, row 1, 1, 0, .t, 0, false, false, 0, false, false⟩

/-- Every check on an operation refuses a term. -/
theorem test_ill_formed_operations : ([
    .cmpeq hd 5 5 1 2, .fcmplt hd 5 5 1 2, .fcvt hd 1 2 .s32 false, .fcvti hd 1 2 .bf false, .icvtf hd 1 2 .h, .loop hd 0 0 0,
    .ld hd 1 2 0 .t .s6 4, .st hd 1 2 0 .t .z6, .ldx hd 1 2 3 0 .t .s6 4, .stx hd 1 2 3 0 .t .s6, .ldaq hd 1 2 0 .t .z6 4 .core, .strl hd 1 2 0 .t .z6 .core,
    .fence hd ⟨false, false, false, false, false⟩ .core, .amoadd hd (amo0 .f32), .amomin hd { amo0 .s32 with u := true }, .amoswp hd { amo0 .w with xc := 1 },
    .amocas hd { amo0 .w with sc := .core }, .amofadd hd (amo0 .w), .vamoAdd hd { vamo0 with u := true }, .vamoFadd hd { vamo0 with ra := true, vd := some (row 2) },
    .vamoMin hd { vamo0 with dist := 1 }, .append hd 1 2 (row 0) 0 .g 4, .qst hd (row 0) 0 true 0 0 0, .qst hd (row 0) 0 true 1 3 1,
    .bdec hd (row 0) 1 0 .s true 2 2 4, .cvt hd (row 0) (row 1) 0 .w, .vadd hd (vv0 .z32 (.scalar 1)), .vadd hd (vv0 .f32 (.imm 1)), .vfma hd (vv0 .s32 (.scalar 1)) (row 2),
    .vmin hd (vv0 .w (.scalar 1)), .vadds hd (vv0 .z32 (.scalar 1)), .vand hd (vv0 .s32 (.scalar 1)), .vshl hd (vv0 .s32 (.imm 1)), .vshr hd (vv0 .w (.imm 1)),
    .vrshr hd (vv0 .z32 (.imm 1)) false, .vdot2 hd (vv0 .s32 (.scalar 1)), .vadd2 hd (vv0 .w (.scalar 1)) false, .vrq hd (vv0 .f32 (.scalar 1)), .vabs hd (vu0 .z32),
    .vsqrt hd (vu0 .s32), .vmov hd (vu0 .f32), .vcvti hd (vu0 .w) false, .vrsum hd 1 (row 0) .w 0, .vcmpeq hd ⟨1, row 0, .scalar 1, .w, 0⟩, .vsel hd (vv0 .f32 (.scalar 1)),
    .vslideup hd (vv0 .s32 (.scalar 1)) 1, .vperm hd (vv0 .s32 (.scalar 1)), .vld hd (vm0 .s6 4) 0, .vst hd (vm0 .f32 4) 0 false, .vlds hd (vm0 .z6 4) 1 0,
    .vsts hd (vm0 .f32 1) 1 0 false, .vld6 hd (vm0 .s8 4) 0 0, .vgath hd (vm0 .s6 4) ⟨row 1, false, false, 0⟩, .vscat hd (vm0 .f32 4) ⟨row 1, false, false, 0⟩ false,
    .qcfg hd 0 1 0 0, .qcfg hd 0 1 2 0, .qfence hd 0, .copy hd 1 2 3 0 .t .g none none, .copy hd 1 2 3 0 .s .t none none, .tset hd 1 2 3 4 .empty .ready,
    .tset hd 5 5 3 4 .empty .filling, .opaBf hd ⟨false, 3, 0, 1, 0⟩ 0 1, .gzero hd ⟨false, 0, 1, 0, 2⟩, .gwait hd false false, .fwait hd 5 5 1, .setvl hd 1 5 5 2,
    .mts hd .cycle 1, .unassignedOpcode hd 0 0, .unassignedOpcode hd 1 0] : List Instr).all (fun i => !i.wf) = true := by decide

/-- Events that name a unit beyond the quantities of R10. -/
theorem test_ill_formed_events : ([.icacheFill 1024, .dataWalkEnd 1024 0, .memoryTimeout 1024 0, .landing 512, .engineFire 512 0, .streamPush 512 0,
    .resetCore 512, .mappingRepaired 512, .copyDone 32, .resetCopyEngine 32, .futureWake 8, .collectiveTrigger 8 0, .sweep 8 none, .sweep 0 (some 32),
    .admission 8, .launchTake 8 0, .cancel 8 0, .resetPartition 8, .sramerr 0 512, .flitReceive 0 8 0 ⟨[], 0⟩, .resetDieLink 8 0] : List Instr).all
      (fun i => !i.wf) = true := by decide

/-! ### Words written out from the encoding tables -/

/-- An operation that ends its bundle: opcode, tail code (R28) and tail. -/
def word (op t tail : Nat) (i : Instr) : Bool := decide (decodeOp (2 ^ 15 + 4 * op + t) tail = .ok i)

/-- Lines of chapters 3 and 4, as they are printed. -/
theorem test_line_of_chapter_3 :
    lineOf [(0x000E, 0xFFFFFC05), (0x800E, 0x00019006), (0x100A, 0x000014C7), (0x9806, 0x000018A7), (0x8182, 5), (0x870C, 0)] =
      [0x0E, 0, 0x0E, 0x80, 0x0A, 0x10, 0x06, 0x98, 0x82, 0x81, 0x0C, 0x87] ++ List.replicate 32 0 ++
        [5, 0, 0, 0, 0xA7, 0x18, 0, 0, 0xC7, 0x14, 0, 0, 0x06, 0x90, 1, 0, 5, 0xFC, 0xFF, 0xFF] := by decide

theorem test_line_of_chapter_4 :
    decodeLine ([0x0E, 0, 0x0E, 0x80, 6, 0, 0x96, 0x81, 0x0C, 0x87] ++ List.replicate 38 0 ++
      [0x42, 0, 0, 0, 0x63, 8, 0, 0, 3, 0, 0, 0, 2, 0x14, 0, 0]) = .ok [(0x000E, 0x1402), (0x800E, 3), (6, 0x0863), (0x8196, 0x42), (0x870C, 0)] ∧
    decodeOp 0x8196 0x42 = .ok (.loop hd 2 0 2) ∧ decodeOp 6 0x863 = .ok (.add ⟨false, 0⟩ 3 3 2) := by decide

theorem test_words_scalar :
    word 0x012 2 (7 + 5 * 2 ^ 5 + 6 * 2 ^ 10) (.min hd 7 5 6) = true ∧ word 0x00F 2 (7 + 5 * 2 ^ 5 + 63 * 2 ^ 10) (.slli hd 7 5 63) = true ∧
    word 0x016 1 (7 + 5 * 2 ^ 5) (.clz hd 7 5) = true ∧ word 0x019 2 (7 + 5 * 2 ^ 5 + 0xFFFF * 2 ^ 10 + 3 * 2 ^ 26) (.movt hd 7 5 0xFFFF 3) = true ∧
    word 0x01A 2 (7 + 5 * 2 ^ 5 + 6 * 2 ^ 10 + 15 * 2 ^ 15) (.sel hd 7 15 5 6) = true ∧
    word 0x022 2 (5 + 6 * 2 ^ 5 + 1 * 2 ^ 10 + 2 * 2 ^ 14) (.cmplt hd 1 2 5 6) = true ∧
    word 0x027 2 (5 + 1 * 2 ^ 10 + 2 * 2 ^ 14 + 0x3FFF * 2 ^ 18) (.cmplti hd 1 2 5 (-1)) = true ∧
    word 0x029 1 (1 + 2 * 2 ^ 4 + 3 * 2 ^ 8) (.por hd 1 2 3) = true ∧ word 0x02C 1 31 (.pget hd 31) = true ∧
    word 0x034 3 (1 + 2 * 2 ^ 5 + 3 * 2 ^ 10 + 4 * 2 ^ 15) (.fma hd 1 2 3 4) = true ∧
    word 0x03B 2 (1 + 2 * 2 ^ 5 + 10 * 2 ^ 10 + 2 ^ 14) (.fcvt hd 1 2 .h true) = true ∧ word 0x063 1 9 (.jr hd 9) = true := by decide

theorem test_words_memory :
    decodeOp 0x0207 0x0000001000000002 = .ok (.st ⟨false, 0⟩ 2 0 256 .t .w) ∧ decodeOp 0x8203 0x0000002000060806 = .ok (.ld hd 6 0 512 .h .w 6) ∧
    word 0x082 3 (1 + 2 * 2 ^ 5 + 3 * 2 ^ 10 + 1 * 2 ^ 15 + 7 * 2 ^ 17 + 6 * 2 ^ 21 + 3 * 2 ^ 33) (.ldx hd 1 2 3 3 .s .z32 6) = true ∧
    word 0x088 2 (1 + 2 * 2 ^ 5 + 3 * 2 ^ 10 + 20 * 2 ^ 15) (.div hd 1 2 3 20) = true ∧
    word 0x0C0 1 (2 + 2 ^ 3 + 2 ^ 7) (.fence hd ⟨true, false, false, false, true⟩ .clu) = true ∧
    word 0x0CB 3 (1 + 2 * 2 ^ 5 + 3 * 2 ^ 10 + 4 * 2 ^ 15 + 2 * 2 ^ 20 + 7 * 2 ^ 22 + 36 * 2 ^ 26 + 3 * 2 ^ 38 + 3 * 2 ^ 41 + (2 ^ 20 - 8) * 2 ^ 44)
      (.amocas hd ⟨1, 2, 3, 4, .h, .z32, 36, .die, .aqrl, false, -8⟩) = true ∧
    word 0x0E6 3 (1 * 2 ^ 11 + 2 * 2 ^ 22 + 9 * 2 ^ 33 + 1 * 2 ^ 38 + 1 * 2 ^ 41 + 2 ^ 55 + 2 * 2 ^ 57 + 2 ^ 61)
      (.vamoFadd hd ⟨none, row 1, row 2, 9, 1, .s, 0, true, false, 2, true, false⟩) = true ∧
    word 0x0E7 3 (1 + 2 * 2 ^ 5 + 3 * 2 ^ 10 + 4 * 2 ^ 21 + 2 * 2 ^ 24 + 36 * 2 ^ 26) (.append hd 1 2 (row 3) 4 .h 36) = true := by decide

theorem test_words_grid :
    word 0x101 3 (5 + 3 * 2 ^ 11 + 1 * 2 ^ 16 + 2 ^ 18 + 1 * 2 ^ 19 + 2 * 2 ^ 21 + 6 * 2 ^ 23 + 64 * 2 ^ 35) (.bdec hd (row 5) 3 64 .s true 2 1 6) = true ∧
    word 0x102 2 (5 + 3 * 2 ^ 5 + 2 * 2 ^ 12 + 4 * 2 ^ 14) (.bhdr hd 5 3 .t 2 4) = true ∧
    word 0x103 2 (5 + 3 * 2 ^ 11 + 1 * 2 ^ 22 + 3 * 2 ^ 25) (.cvt hd (row 5) (row 3) 1 .sf) = true ∧
    word 0x140 2 (5 + 3 * 2 ^ 5 + 1 * 2 ^ 16 + 8 * 2 ^ 19) (.vrsum hd 5 (row 3) .f32 1) = true ∧
    word 0x149 3 (2 + 3 * 2 ^ 11 + 4 * 2 ^ 22 + 1 * 2 ^ 44 + 3 * 2 ^ 47) (.vcmplt hd ⟨2, row 3, .vec (row 4), .s32, 1⟩) = true ∧
    word 0x133 3 (2 + 3 * 2 ^ 11 + 1 * 2 ^ 44 + 1 * 2 ^ 52 + 31 * 2 ^ 55) (.vshl hd ⟨row 2, row 3, .imm 31, .w, 1⟩) = true ∧
    word 0x160 1 (1 + 2 * 2 ^ 3 + 3 * 2 ^ 6) (.mand hd 1 2 3) = true ∧ decodeOp 0x8591 0x25 = .ok (.mpop hd 5 1) ∧
    word 0x165 1 (1 + 9 * 2 ^ 3) (.msetn hd 1 9) = true ∧ word 0x153 2 (5 + 9 * 2 ^ 11 + 1 * 2 ^ 16) (.vbcast hd (row 5) 9 1) = true ∧
    decodeOp 0x05C3 0x0000000008030800 = .ok (.vld ⟨false, 0⟩ ⟨row 0, 1, .g, .w, 0, 4⟩ 0) ∧
    word 0x175 3 (5 + 9 * 2 ^ 11 + 3 * 2 ^ 16 + 8 * 2 ^ 18 + 187 * 2 ^ 25 + 6 * 2 ^ 37 + 2 ^ 48 + 2 * 2 ^ 50)
      (.vgath hd ⟨row 5, 9, .g, .f32, 0, 187⟩ ⟨row 6, true, false, 2⟩) = true := by decide

theorem test_words_engines :
    word 0x188 3 (3 + 15 * 2 ^ 3 + 5 * 2 ^ 8 + 16 * 2 ^ 11) (.qcfg hd 3 16 5 15) = true ∧ word 0x189 2 (5 + 3 * 2 ^ 11 + 4 * 2 ^ 14) (.qpush hd 3 (row 5) .w) = true ∧
    word 0x18B 1 (5 + 3 * 2 ^ 5) (.qcnt hd 5 3) = true ∧ word 0x18C 1 0x81 (.qfence hd 0x81) = true ∧
    word 0x180 2 (5 + 3 * 2 ^ 5 + 1 * 2 ^ 10) (.shape hd 5 3 .s) = true ∧
    word 0x182 3 (2 + 3 * 2 ^ 2 + 5 * 2 ^ 5 + 6 * 2 ^ 10 + 1 * 2 ^ 15 + 7 * 2 ^ 17 + 2 ^ 22) (.stream hd 2 3 5 6 .s (some 7)) = true ∧
    word 0x190 3 (1 + 2 * 2 ^ 5 + 3 * 2 ^ 10 + 1 * 2 ^ 15 + 3 * 2 ^ 17 + 1 * 2 ^ 19 + 2 ^ 28 + 4 * 2 ^ 29) (.copy hd 1 2 3 1 .s .g none (some 4)) = true ∧
    word 0x191 2 (3 + 4 * 2 ^ 5 + 1 * 2 ^ 10 + 2 * 2 ^ 14 + 2 * 2 ^ 18 + 3 * 2 ^ 20) (.tset hd 1 2 3 4 .ready .draining) = true ∧
    word 0x1A3 2 (3 + 2 ^ 3) (.stld hd 3 true) = true ∧ word 0x1A4 2 (5 + 3 * 2 ^ 11 + 2 * 2 ^ 14) (.vmt hd ⟨false, 5⟩ 3 2) = true := by decide

theorem test_words_tasks :
    word 0x1C0 2 (9 + 3 * 2 ^ 5 + 2 ^ 7) (.spawn hd 9 (some 3)) = true ∧ word 0x1C0 2 (9 + 2 ^ 8) (.spawnRes hd 9 none) = true ∧
    word 0x1C8 2 (5 + 9 * 2 ^ 5) (.finopen hd 5 9) = true ∧ decodeOp 0x8729 5 = .ok (.finwait hd 5) ∧
    word 0x1CB 3 (1 + 2 * 2 ^ 5 + 3 * 2 ^ 10 + 4 * 2 ^ 15 + 31 * 2 ^ 20 + 1 * 2 ^ 25) (.farm hd 1 2 3 4 1 31) = true ∧
    decodeOp 0x0732 0x8465 = .ok (.setvl ⟨false, 0⟩ 5 1 2 3) ∧ word 0x1E0 2 (5 + 9 * 2 ^ 5) (.launch hd 5 9) = true ∧
    word 0x1E1 1 (9 + 2 ^ 5) (.txabort hd 9 true) = true ∧ word 0x1E2 2 (5 + 1 * 2 ^ 5) (.txwaitPoll hd 5) = true ∧
    word 0x1F0 2 (5 + 0x01C * 2 ^ 5) (.mfs hd 5 .ckstat) = true ∧ word 0x1F1 2 (5 + 1 * 2 ^ 5) (.mtsGmode hd 5) = true ∧
    word 0x1F4 1 0xABCD (.trap hd 0xABCD) = true ∧ word 0x1F6 3 (1 + 2 * 2 ^ 5) (.icinv hd 1 2) = true ∧ word 0x1F6 3 (2 ^ 10) (.icinvAll hd) = true ∧
    word 0x0FF 2 5 (.unassignedOpcode hd 0x0FF 2) = true := by decide

/-! ### Single operations and steps -/

/-- What a register reads as `lat` cycles after the operation. -/
def after (i : Instr) (s : State) (lat : Nat) (r : Reg) : Option (BitVec 256 × Bool) :=
  match exec i s with
  | .next t => some (r.read (atCycle t (s.cycle + lat)))
  | _ => none
/-- A field of the state after the operation. -/
def then_ {α : Type} (i : Instr) (s : State) (f : State → α) : Option α :=
  match exec i s with
  | .next t => some (f t)
  | _ => none

theorem test_add_wraps : after (.add hd 4 1 2) (withX (-1) 2 0) 1 (.x 4) = some (1, false) := by decide
theorem test_sub_source_is_destination : after (.sub hd 1 1 2) (withX 5 7 0) 1 (.x 1) = some (0xFFFFFFFFFFFFFFFE, false) := by decide
theorem test_mulh_signed : after (.mulh hd 4 1 2) (withX (2 ^ 63) (2 ^ 63) 0) 3 (.x 4) = some (0x4000000000000000, false) := by decide
theorem test_mul_not_before_latency : after (.mul hd 4 1 2) (withX 3 5 0) 2 (.x 4) = some (0, false) := by decide
theorem test_sra_sign : after (.sra hd 4 1 2) (withX (2 ^ 63) 127 0) 1 (.x 4) = some (0xFFFFFFFFFFFFFFFF, false) := by decide
theorem test_min_signed : after (.min hd 4 1 2) (withX (-1) 1 0) 1 (.x 4) = some (0xFFFFFFFFFFFFFFFF, false) := by decide
theorem test_maxu_unsigned : after (.maxu hd 4 1 2) (withX (-1) 1 0) 1 (.x 4) = some (0xFFFFFFFFFFFFFFFF, false) := by decide
theorem test_addi_sign_extends : after (.addi hd 5 0 (-1)) small 1 (.x 5) = some (0xFFFFFFFFFFFFFFFF, false) := by decide
theorem test_x0_discards : after (.addi hd 0 0 7) small 1 (.x 0) = some (0, false) := by decide
theorem test_clz_of_zero : after (.clz hd 4 1) (withX 0 0 0) 1 (.x 4) = some (64, false) := by decide
theorem test_popc : after (.popc hd 4 1) (withX (-1) 0 0) 1 (.x 4) = some (64, false) := by decide
theorem test_movt_top : after (.movt hd 4 1 0xABCD 3) (withX (-1) 0 0) 1 (.x 4) = some (0xABCDFFFFFFFFFFFF, false) := by decide
theorem test_cmplt_signed : after (.cmplt hd 1 2 1 2) (withX (-1) 0 0) 1 (.p 1) = some (1, false) ∧
    after (.cmplt hd 1 2 1 2) (withX (-1) 0 0) 1 (.p 2) = some (0, false) := by decide
theorem test_cmpltu_unsigned : after (.cmpltu hd 1 2 1 2) (withX (-1) 0 0) 1 (.p 1) = some (0, false) := by decide
theorem test_pget_reads_p0 : after (.pget hd 4) small 1 (.x 4) = some (1, false) := by decide
theorem test_poison_propagates : after (.add hd 4 1 2) (withRegs fun r => { r with xPoi := 2 }) 1 (.x 4) = some (0, true) := by decide
theorem test_false_guard : then_ (.add ⟨true, 1⟩ 4 1 2) (withX 1 2 0) (fun t => t.hart.wq.length) = some 0 := by decide

/-- Chapter 4's table: 0x3F80_1000 to BF16 under each mode. -/
theorem test_fcvt_modes :
    let s := fun m : Word => (withX 0x3F801000 0 0).updHart fun h => { h with r := { h.r with fpmode := m } }
    after (.fcvt hd 4 1 .bf false) (s 0) 4 (.x 4) = some (0x3F80, false) ∧ after (.fcvt hd 4 1 .bf false) (s 2) 4 (.x 4) = some (0x3F81, false) ∧
    then_ (.fcvt hd 4 1 .bf false) (s 1) (fun t => t.hart.bun.raisedF) = some 1 := by decide
theorem test_fadd_signed_zero : after (.fadd hd 4 1 2) (withX 0x3F800000 0xBF800000 0) 4 (.x 4) = some (0, false) := by decide
theorem test_fdiv_by_zero : after (.fdiv hd 4 1 2) (withX 0xBF800000 0 0) 14 (.x 4) = some (0xFF800000, false) ∧
    then_ (.fdiv hd 4 1 2) (withX 0xBF800000 0 0) (fun t => t.hart.bun.raisedF) = some 8 := by decide
theorem test_fmax_nan : after (.fmax hd 4 1 2) (withX 0x7FC00000 0x3F800000 0) 2 (.x 4) = some (0x3F800000, false) := by decide
theorem test_fcvti_out_of_range : after (.fcvti hd 4 1 .s32 false) (withX 0x4F000000 0 0) 4 (.x 4) = some (0x7FFFFFFF, false) ∧
    then_ (.fcvti hd 4 1 .s32 false) (withX 0x4F000000 0 0) (fun t => t.hart.bun.raisedF) = some 16 := by decide

/-- Chapter 4's LOOP: its counter falls to 1 and the loop is taken; at 0 it falls through. -/
theorem test_loop : then_ (.loop hd 2 0 2) (withX 0 2 0) (fun t => t.hart.bun.npc) = some (some 4) ∧
    then_ (.loop hd 2 0 2) (withX 0 1 0) (fun t => t.hart.bun.npc) = some none := by decide
theorem test_br_target : then_ (.br hd (-1) 5) (small.updHart fun h => { h with pc := 0x1004 }) (fun t => t.hart.bun.npc) = some (some 0xFCA) := by decide
theorem test_retempty : then_ (.ret hd) small (fun t => t.hart.sys.tr.cause) = some 9 := by decide

theorem test_load_misaligned : then_ (.ld hd 4 1 1 .t .w 4) small (fun t => t.hart.xl.map fun x => x.fault.map fun f => (f.cause, f.info)) =
    some [some (16, 1)] := by decide
theorem test_load_due : then_ (.ld hd 4 1 8 .t .w 6) small (fun t => t.hart.land.map fun l => (l.due, l.slots)) = some [(6, 1)] := by decide
theorem test_store_withheld : then_ (.st hd 1 0 256 .t .s16) (withX 0x12345 0 0) (fun t => t.hart.wh.map fun w => w.elems.map fun e => (e.loc.addr, e.data)) =
    some [[(256, [0x45, 0x23])]] := by decide
theorem test_store_not_in_range : then_ (.st hd 1 0 0 .g .w) small (fun t => t.hart.xl.map fun x => x.fault.map fun f => f.cause) = some [some 20] := by decide
theorem test_div_by_zero : then_ (.div hd 4 1 0 20) (withX 7 0 0) (fun t => t.hart.land.map fun l => l.res.map fun r => r.map fun w => w.val) =
    some [some [0xFFFFFFFFFFFFFFFF]] := by decide
theorem test_amo_unaligned : then_ (.amoadd hd { amo0 .w with disp := 4 }) small (fun t => t.hart.xl.map fun x => x.fault.map fun f => f.cause) =
    some [some 16] := by decide

/-- Chapter 7's block 1, 2^-10, 0.5 and -0.25: its codes in LVB8 at scale 0x7F and its image. -/
theorem test_block_of_chapter_7 :
    ([0x3F800000, 0x3A800000, 0x3F000000, 0xBE800000].map fun c => nearestCode true (candidates 3 true 0x7F 0) (fmtF32.read c)) = [0x7F, 0x2F, 0x77, 0xEF] ∧
    makeImage true 3 0x7F 0xFFFFFFFFFFFFFFF0 [0x7F, 0x2F, 0x77, 0xEF] =
      [0xB0, 0x7F, 0xF0, 0xFF, 0xFF, 0xFF, 0xFF, 0xFF, 0xFF, 0xFF, 0, 0, 0, 0, 0x7F, 0x4C, 0x7F, 0x2F, 0x77, 0xEF] := by decide +kernel

theorem test_vadd_saturates : then_ (.vadds hd (vv0 .s32 (.scalar 1))) ((withX 1 0 0).updCore fun k => k.setCells [(256, ⟨0x7FFFFFFF, false⟩)])
    (fun t => (t.core.vq.map fun w => (w.cells.take 2).map fun c => c.2.v, t.hart.bun.raisedV)) = some ([[0x7FFFFFFF, 1]], 1) := by decide +kernel
theorem test_msetn : after (.msetn hd 1 1) (withX 300 0 0) 1 (.m 1) = some (BitVec.allOnes 256, false) := by decide
theorem test_mpop_of_m0 : after (.mpop hd 4 0) small 1 (.x 4) = some (256, false) := by decide
theorem test_halfown : then_ (.gzero hd ⟨true, 0, 0, 0, 0⟩) (withCore fun k => { k with gmode := 1 }) (fun t => t.hart.sys.tr.cause) = some 5 := by decide

theorem test_qcnt_unconfigured : after (.qcnt hd 4 0) small 1 (.x 4) = some (0, false) := by decide
theorem test_qcfg_overlap : then_ (.qcfg hd 2 0 5 15) withQueues (fun t => (t.hart.sys.tr.cause, t.hart.sys.tr.aux)) = some (34, 0x23000) := by decide
theorem test_copylen : then_ (.copy hd 1 2 3 0 .s .h none none) (withX 0 0 32) (fun t => t.hart.sys.tr.cause) = some 38 := by decide
theorem test_norec : then_ (.yield hd) small (fun t => t.hart.sys.tr.cause) = some 48 := by decide
theorem test_setvl : after (.setvl hd 5 1 2 3) (withX 0 0 300) 1 (.x 5) = some (44, false) ∧
    after (.setvl hd 5 1 2 3) (withX 0 0 300) 1 (.sys .vl) = some (256, false) := by decide
theorem test_mts_vl_zero : then_ (.mts hd .vl 0) small (fun t => (t.hart.sys.tr.cause, t.hart.sys.tr.info)) = some (2, 0x80) := by decide
theorem test_eret_outside_handler : then_ (.eret hd) small (fun t => t.hart.sys.tr.cause) = some 6 := by decide
theorem test_unassigned : then_ (.unassignedOpcode hd 0xFF 0) small (fun t => t.hart.sys.tr.cause) = some 2 := by decide

/-- A step issues the operation of the line and ends its bundle. -/
theorem test_step_runs : (match Sys2Proof.Machine.step (State.reset.withFetchWord 48 0x1C05800E) with
    | .next t => some ((Reg.x 5).read (atCycle t 1), t.hart.bundles, t.hart.time.nextIssue)
    | _ => none) = some ((7, false), 1, 1) := by decide

theorem test_shake256_of_nothing : shake256 [] 16 = [0x46, 0xB9, 0xDD, 0x2B, 0x0B, 0xA8, 0x8D, 0x13, 0x23, 0x3B, 0x3F, 0xEB, 0x74, 0x3E, 0xEB, 0x24] := by
  decide +kernel

end Sys2Proof.Tests
end

namespace Sys2Proof

/-! ## What a layout accepts (R28, R41)

The lemmas of `Laws.Decode` say that a layout reads back what was encoded. Here is the other direction: a tail that a layout accepts is the encoding
of the operation that it reads. A tail is taken apart into its fields once and for all (`ForFields`); each layout then has one lemma `dec…_readsOnly`
that names the operands, and each row of the opcode map follows from the lemma of its layout. -/

/-- Whatever the layout `d` reads from a tail of `n` bytes satisfies `P`, together with the tail. -/
def ReadsOnly (n : Nat) (d : Nat → Dec) (P : Nat → Instr → Prop) : Prop := ∀ t i, t < 2 ^ (8 * n) → d t = .ok i → P t i

/-- `k` holds of every list of fields of the widths `ws` in which each value fits. -/
def ForFields : List Nat → (List (Nat × Nat) → Prop) → Prop
  | [], k => k []
  | w :: ws, k => ∀ x, x < 2 ^ w → ForFields ws fun fs => k ((w, x) :: fs)

/-! ### One field at a time: each value that fits is the code of an operand -/

section
variable {w : Nat} {ws : List Nat} {k : List (Nat × Nat) → Prop}

theorem ForFields.last (h : k []) : ForFields [] k := h

theorem ForFields.raw
    (h : ∀ x, x < 2 ^ w → ForFields ws fun fs => k ((w, x) :: fs)) : ForFields (w :: ws) k := h

theorem ForFields.bits
    (h : ∀ x : BitVec w, ForFields ws fun fs => k ((w, x.toNat) :: fs)) : ForFields (w :: ws) k := fun x hx => h ⟨x, hx⟩

theorem ForFields.fin {n : Nat} (hn : 2 ^ w = n)
    (h : ∀ x : Fin n, ForFields ws fun fs => k ((w, x.val) :: fs)) : ForFields (w :: ws) k := fun x hx => h ⟨x, hn ▸ hx⟩

theorem ForFields.bool
    (h : ∀ b : Bool, ForFields ws fun fs => k ((1, b01 b) :: fs)) : ForFields (1 :: ws) k := fun x hx => by
  match x, hx with
  | 0, _ => exact h false
  | 1, _ => exact h true

theorem ForFields.space
    (h : ∀ sp : Space, ForFields ws fun fs => k ((2, sp.code) :: fs)) : ForFields (2 :: ws) k := fun x hx => by
  match x, hx with
  | 0, _ => exact h .t
  | 1, _ => exact h .s
  | 2, _ => exact h .h
  | 3, _ => exact h .g

theorem ForFields.ord
    (h : ∀ o : Ord3, ForFields ws fun fs => k ((2, o.code) :: fs)) : ForFields (2 :: ws) k := fun x hx => by
  match x, hx with
  | 0, _ => exact h .none
  | 1, _ => exact h .aq
  | 2, _ => exact h .rl
  | 3, _ => exact h .aqrl

theorem ForFields.tile
    (h : ∀ c : TileState, ForFields ws fun fs => k ((2, c.code) :: fs)) : ForFields (2 :: ws) k := fun x hx => by
  match x, hx with
  | 0, _ => exact h .empty
  | 1, _ => exact h .filling
  | 2, _ => exact h .ready
  | 3, _ => exact h .draining

end

/-- The fields into which a tail is split fit their widths, and joined they give the tail. -/
theorem ForFields.of_unpack : ∀ {ws : List Nat} {k : List (Nat × Nat) → Prop} {t : Nat}, ForFields ws k → t < 2 ^ ws.sum →
    ∃ fs, k fs ∧ Fits fs ∧ fs.map Prod.fst = ws ∧ pack fs = t
  | [], _, t, h, ht => ⟨[], h, trivial, rfl, by simp at ht; simp [pack, ht]⟩
  | w :: ws, _, t, h, ht => by
    rw [List.sum_cons, Nat.pow_add] at ht
    obtain ⟨fs, hk, hf, hw, hp⟩ := (h (t % 2 ^ w) (Nat.mod_lt _ (Nat.two_pow_pos w))).of_unpack (Nat.div_lt_of_lt_mul ht)
    exact ⟨_, hk, ⟨Nat.mod_lt _ (Nat.two_pow_pos w), hf⟩, by simp [hw], by simp [pack, hp, Nat.mod_add_div]⟩

/-- A layout may be checked on tails that are joined from fields that fit. -/
theorem ReadsOnly.of_fields {ws : List Nat} {n : Nat} {d : Nat → Dec} {P : Nat → Instr → Prop} (hs : ws.sum = 8 * n)
    (h : ForFields ws fun fs => unpack ws (pack fs) = fs.map Prod.snd → ∀ i, d (pack fs) = .ok i → P (pack fs) i) : ReadsOnly n d P := by
  intro t i ht hd
  obtain ⟨fs, hk, hf, rfl, rfl⟩ := h.of_unpack (hs ▸ ht)
  exact hk (unpack_pack hf) i hd

/-! ### Fields that not every value fits, and options -/

@[simp] theorem rsv_eq_ok {c : Bool} {k : Dec} {i : Instr} : rsv c k = .ok i ↔ c = true ∧ k = .ok i := by
  cases c <;> simp [rsv]
@[simp] theorem val_eq_ok {c : Bool} {k : Dec} {i : Instr} : val c k = .ok i ↔ c = true ∧ k = .ok i := by
  cases c <;> simp [val]

@[simp] theorem Ord3.code_eq_zero (o : Ord3) : o.code = 0 ↔ o = .none := by cases o <;> decide
@[simp] theorem Scope.code_eq_zero (s : Scope) : s.code = 0 ↔ s = .hart := by cases s <;> decide
@[simp] theorem Ty.code_eq_zero (t : Ty) : t.code = 0 ↔ t = .w := by cases t <;> decide

theorem exists_ty (n : Nat) (h : tyOf n ≠ none) : ∃ y : Ty, y.code = n := by
  obtain ⟨y, hy⟩ := Option.ne_none_iff_exists'.1 h
  refine ⟨y, ?_⟩
  unfold tyOf at hy
  split at hy <;> cases hy <;> rfl

theorem exists_scope (n : Nat) (h : scopeOf n ≠ none) : ∃ s : Scope, s.code = n := by
  obtain ⟨s, hs⟩ := Option.ne_none_iff_exists'.1 h
  refine ⟨s, ?_⟩
  unfold scopeOf at hs
  split at hs <;> cases hs <;> rfl

theorem exists_fmt (n : Nat) (h : fmtOf n ≠ none) : ∃ k : CFmt, k.code = n := by
  obtain ⟨k, hk⟩ := Option.ne_none_iff_exists'.1 h
  refine ⟨k, ?_⟩
  unfold fmtOf at hk
  split at hk <;> cases hk <;> rfl

theorem exists_sysReg (n : Nat) (h : sysRegOf n ≠ none) : ∃ r : SysReg, r.index = n := by
  obtain ⟨r, hr⟩ := Option.ne_none_iff_exists'.1 h
  refine ⟨r, ?_⟩
  unfold sysRegOf at hr
  split at hr <;> cases hr <;> rfl

theorem exists_vop {n : Nat} (hn : n < 2 ^ 11) (h : vopOf n ≠ none) : ∃ v : VOp, v.code = n := by
  have hf : ForFields [8, 2, 1] fun fs => unpack [8, 2, 1] (pack fs) = fs.map Prod.snd → vopOf (pack fs) ≠ none → ∃ v : VOp, v.code = pack fs :=
    .fin rfl fun i => .raw fun k hk => .bool fun b => .last fun e h => by
      match k, hk with
      | 0, _ => exact ⟨⟨b, .row, i⟩, rfl⟩
      | 1, _ => exact ⟨⟨b, .col, i⟩, rfl⟩
      | 2, _ => exact ⟨⟨b, .dia, i⟩, rfl⟩
      | 3, _ => simp [vopOf, e] at h
  obtain ⟨fs, hk, hfits, hw, rfl⟩ := hf.of_unpack hn
  exact hk (hw ▸ unpack_pack hfits) h

theorem exists_rowOp {n : Nat} (hn : n < 2 ^ 11) (h : rowOf n ≠ none) : ∃ v : RowOp, v.code = n := by
  have hf : ForFields [8, 2, 1] fun fs => unpack [8, 2, 1] (pack fs) = fs.map Prod.snd → rowOf (pack fs) ≠ none → ∃ v : RowOp, v.code = pack fs :=
    .fin rfl fun i => .raw fun k _ => .bool fun b => .last fun e h => by
      obtain rfl : k = 0 := by simpa [rowOf, e] using h
      exact ⟨⟨b, i⟩, rfl⟩
  obtain ⟨fs, hk, hfits, hw, rfl⟩ := hf.of_unpack hn
  exact hk (hw ▸ unpack_pack hfits) h

theorem exists_fin3 {n : Nat} (hn : n < 2 ^ 2) (h : n ≠ 3) : ∃ x : Fin 3, x.val = n := ⟨⟨n, by omega⟩, rfl⟩

theorem exists_b01_of_le_one {n : Nat} (h : n ≤ 1) : ∃ b, b01 b = n := by
  match n, h with
  | 0, _ => exact ⟨false, rfl⟩
  | 1, _ => exact ⟨true, rfl⟩

theorem exists_b01_of_le_three {n : Nat} (h : n ≤ 3) : ∃ b : Bool, n = 1 + 2 * b01 b ∨ n = 2 * b01 b := by
  match n, h with
  | 0, _ => exact ⟨false, .inr rfl⟩
  | 1, _ => exact ⟨false, .inl rfl⟩
  | 2, _ => exact ⟨true, .inr rfl⟩
  | 3, _ => exact ⟨true, .inl rfl⟩

/-- What a layout says of an option that it does not have. -/
theorem of_absent {p : Prop} (h : false = true ∨ p) : p := h.resolve_left nofun

theorem optX_ite {b : Bool} {x : XReg} (h : b = true ∨ x = 0) : optX (if b = true then some x else none) = x.val := by
  cases b with
  | true => rfl
  | false => simpa [optX, eq_comm] using h

theorem isSome_ite {α : Type} (b : Bool) (x : α) : (if b = true then some x else none).isSome = b := by cases b <;> rfl

/-- A second operand of layout VV that is read is the code of one that is no immediate (R190). -/
theorem exists_src2 (r : VVRaw) (hb : r.vb < 2 ^ 11) (hs : r.s < 2 ^ 1) (hr : r.s = 0 ∨ r.vb < 32) (h : src2Of r ≠ none) :
    ∃ b : Src2, b.wf true false = true ∧ r.vb = b.field ∧ r.s = b.sBit := by
  by_cases h1 : r.s = 1
  · exact ⟨.scalar ⟨r.vb, hr.resolve_left (by omega)⟩, rfl, rfl, h1⟩
  · obtain ⟨v, hv⟩ := exists_vop hb fun hn => h (by simp [src2Of, h1, hn])
    have h0 : r.s < 2 := hs
    exact ⟨.vec v, rfl, hv.symm, by simp only [Src2.sBit]; omega⟩

theorem Src2.wf_imm {b : Src2} (h : b.wf true false = true) : b.wf true true = true := by
  cases b <;> rfl

theorem encVVs_of_wf {a : VV} {n16 : Bool} (h : a.b.wf true false = true) : encVVs a n16 = encVVg a 0 (2 * b01 n16) 0 := by
  rcases a with ⟨vd, va, b, ty, ma⟩
  cases b with
  | imm n => cases h
  | vec v => rfl
  | scalar x => rfl

/-! ### The layouts -/

section
variable {P : Nat → Instr → Prop}

theorem decA3_readsOnly {f : XReg → XReg → XReg → Instr}
    (h : ∀ d a b, P (encA3 d a b) (f d a b)) : ReadsOnly 4 (decA3 f) P :=
  .of_fields (ws := [5, 5, 5, 17]) rfl <| .fin rfl fun d => .fin rfl fun a => .fin rfl fun b => .raw fun z _ => .last fun e ins hi => by
    obtain ⟨rfl, rfl⟩ : z = 0 ∧ f d a b = ins := by simpa [decA3, e] using hi
    exact h _ _ _

theorem decA3s_readsOnly {f : XReg → XReg → Instr}
    (h : ∀ d a, P (encA3s d a) (f d a)) : ReadsOnly 4 (decA3s f) P :=
  .of_fields (ws := [5, 5, 22]) rfl <| .fin rfl fun d => .fin rfl fun a => .raw fun z _ => .last fun e ins hi => by
    obtain ⟨rfl, rfl⟩ : z = 0 ∧ f d a = ins := by simpa [decA3s, e] using hi
    exact h _ _

theorem decA2I_readsOnly {f : XReg → XReg → BitVec 22 → Instr}
    (h : ∀ d a i, P (encA2I d a i) (f d a i)) : ReadsOnly 4 (decA2I f) P :=
  .of_fields (ws := [5, 5, 22]) rfl <| .fin rfl fun d => .fin rfl fun a => .bits fun i => .last fun e ins hi => by
    obtain rfl : f d a i = ins := by simpa [decA2I, e] using hi
    exact h _ _ _

theorem decSHI_readsOnly {f : XReg → XReg → Fin 64 → Instr}
    (h : ∀ d a s, P (encSHI d a s) (f d a s)) : ReadsOnly 4 (decSHI f) P :=
  .of_fields (ws := [5, 5, 6, 16]) rfl <| .fin rfl fun d => .fin rfl fun a => .fin rfl fun s => .raw fun z _ => .last fun e ins hi => by
    obtain ⟨rfl, rfl⟩ : z = 0 ∧ f d a s = ins := by simpa [decSHI, e] using hi
    exact h _ _ _

theorem decA1_readsOnly {f : XReg → XReg → Instr}
    (h : ∀ d a, P (encA1 d a) (f d a)) : ReadsOnly 2 (decA1 f) P :=
  .of_fields (ws := [5, 5, 6]) rfl <| .fin rfl fun d => .fin rfl fun a => .raw fun z _ => .last fun e ins hi => by
    obtain ⟨rfl, rfl⟩ : z = 0 ∧ f d a = ins := by simpa [decA1, e] using hi
    exact h _ _

theorem decMOVI_readsOnly {f : XReg → BitVec 59 → Instr}
    (h : ∀ d i, P (encMOVI d i) (f d i)) : ReadsOnly 8 (decMOVI f) P :=
  .of_fields (ws := [5, 59]) rfl <| .fin rfl fun d => .bits fun i => .last fun e ins hi => by
    obtain rfl : f d i = ins := by simpa [decMOVI, e] using hi
    exact h _ _

theorem decMT_readsOnly {f : XReg → XReg → BitVec 16 → Fin 4 → Instr}
    (h : ∀ d a i s, P (encMT d a i s) (f d a i s)) : ReadsOnly 4 (decMT f) P :=
  .of_fields (ws := [5, 5, 16, 2, 4]) rfl <| .fin rfl fun d => .fin rfl fun a => .bits fun i => .fin rfl fun s => .raw fun z _ => .last fun e ins hi => by
    obtain ⟨rfl, rfl⟩ : z = 0 ∧ f d a i s = ins := by simpa [decMT, e] using hi
    exact h _ _ _ _

theorem decSL_readsOnly {f : XReg → PReg → XReg → XReg → Instr}
    (h : ∀ d p a b, P (encSL d p a b) (f d p a b)) : ReadsOnly 4 (decSL f) P :=
  .of_fields (ws := [5, 5, 5, 4, 13]) rfl <| .fin rfl fun d => .fin rfl fun a => .fin rfl fun b => .fin rfl fun p => .raw fun z _ => .last fun e ins hi => by
    obtain ⟨rfl, rfl⟩ : z = 0 ∧ f d p a b = ins := by simpa [decSL, e] using hi
    exact h _ _ _ _

theorem decCR_readsOnly {f : PReg → PReg → XReg → XReg → Instr}
    (h : ∀ d c a b, (!twice d c) = true → P (encCR d c a b) (f d c a b)) : ReadsOnly 4 (decCR f) P :=
  .of_fields (ws := [5, 5, 4, 4, 14]) rfl <| .fin rfl fun a => .fin rfl fun b => .fin rfl fun d => .fin rfl fun c => .raw fun z _ => .last fun e ins hi => by
    obtain ⟨rfl, hw, rfl⟩ : z = 0 ∧ (!twice d c) = true ∧ f d c a b = ins := by simpa [decCR, e] using hi
    exact h _ _ _ _ hw

theorem decCI_readsOnly {f : PReg → PReg → XReg → BitVec 14 → Instr}
    (h : ∀ d c a i, (!twice d c) = true → P (encCI d c a i) (f d c a i)) : ReadsOnly 4 (decCI f) P :=
  .of_fields (ws := [5, 5, 4, 4, 14]) rfl <| .fin rfl fun a => .raw fun z _ => .fin rfl fun d => .fin rfl fun c => .bits fun i => .last fun e ins hi => by
    obtain ⟨rfl, hw, rfl⟩ : z = 0 ∧ (!twice d c) = true ∧ f d c a i = ins := by simpa [decCI, e] using hi
    exact h _ _ _ _ hw

theorem decP2_readsOnly {f : PReg → PReg → PReg → Instr}
    (h : ∀ d a b, P (encP2 d a b) (f d a b)) : ReadsOnly 2 (decP2 f) P :=
  .of_fields (ws := [4, 4, 4, 4]) rfl <| .fin rfl fun d => .fin rfl fun a => .fin rfl fun b => .raw fun z _ => .last fun e ins hi => by
    obtain ⟨rfl, rfl⟩ : z = 0 ∧ f d a b = ins := by simpa [decP2, e] using hi
    exact h _ _ _

theorem decP1_readsOnly {f : PReg → PReg → Instr}
    (h : ∀ d a, P (encP1 d a) (f d a)) : ReadsOnly 2 (decP1 f) P :=
  .of_fields (ws := [4, 4, 8]) rfl <| .fin rfl fun d => .fin rfl fun a => .raw fun z _ => .last fun e ins hi => by
    obtain ⟨rfl, rfl⟩ : z = 0 ∧ f d a = ins := by simpa [decP1, e] using hi
    exact h _ _

theorem decX1_readsOnly {f : XReg → Instr}
    (h : ∀ d, P (encX1 d) (f d)) : ReadsOnly 2 (decX1 f) P :=
  .of_fields (ws := [5, 11]) rfl <| .fin rfl fun d => .raw fun z _ => .last fun e ins hi => by
    obtain ⟨rfl, rfl⟩ : z = 0 ∧ f d = ins := by simpa [decX1, e] using hi
    exact h _

theorem decF4_readsOnly {f : XReg → XReg → XReg → XReg → Instr}
    (h : ∀ d a b c, P (encF4 d a b c) (f d a b c)) : ReadsOnly 8 (decF4 f) P :=
  .of_fields (ws := [5, 5, 5, 5, 44]) rfl <| .fin rfl fun d => .fin rfl fun a => .fin rfl fun b => .fin rfl fun c => .raw fun z _ => .last fun e ins hi => by
    obtain ⟨rfl, rfl⟩ : z = 0 ∧ f d a b c = ins := by simpa [decF4, e] using hi
    exact h _ _ _ _

theorem decCV_readsOnly {qOk : Bool} {tys : List Ty} {f : XReg → XReg → Ty → Bool → Instr}
    (h : ∀ d a ty q, ty.isOneOf tys = true → (qOk = true ∨ q = false) → P (encCV d a ty q) (f d a ty q)) : ReadsOnly 4 (decCV qOk tys f) P :=
  .of_fields (ws := [5, 5, 4, 1, 17]) rfl <| .fin rfl fun d => .fin rfl fun a => .raw fun nty _ => .bool fun q => .raw fun z _ => .last fun e ins hi => by
    obtain ⟨ty, rfl⟩ := exists_ty nty fun hn => by simp [decCV, e, hn] at hi
    obtain ⟨⟨rfl, hq⟩, hw, rfl⟩ : (z = 0 ∧ (qOk = true ∨ q = false)) ∧ ty.isOneOf tys = true ∧ f d a ty q = ins := by simpa [decCV, e] using hi
    exact h _ _ _ _ hw hq

theorem decBD_readsOnly {f : BitVec 27 → Fin 32 → Instr}
    (h : ∀ d k, P (encBD d k) (f d k)) : ReadsOnly 4 (decBD f) P :=
  .of_fields (ws := [5, 27]) rfl <| .fin rfl fun k => .bits fun d => .last fun e ins hi => by
    obtain rfl : f d k = ins := by simpa [decBD, e] using hi
    exact h _ _

theorem decLP_readsOnly {f : XReg → BitVec 22 → Fin 32 → Instr}
    (h : ∀ a d k, decide (a ≠ 0) = true → P (encLP a d k) (f a d k)) : ReadsOnly 4 (decLP f) P :=
  .of_fields (ws := [5, 5, 22]) rfl <| .fin rfl fun k => .fin rfl fun a => .bits fun d => .last fun e ins hi => by
    obtain ⟨hw, rfl⟩ : decide (a ≠ 0) = true ∧ f a d k = ins := by simpa [decLP, e] using hi
    exact h _ _ _ hw

theorem decLS_readsOnly {f : XReg → XReg → BitVec 24 → Space → Ty → Fin 4096 → Instr}
    (h : ∀ d a i sp ty n, ty.scalarMem = true → P (encLS d a i sp ty n) (f d a i sp ty n)) : ReadsOnly 8 (decLS f) P :=
  .of_fields (ws := [5, 5, 2, 4, 12, 24, 12]) rfl <| .fin rfl fun d => .fin rfl fun a => .space fun sp => .raw fun nty _ => .fin rfl fun n => .bits fun i =>
    .raw fun z _ => .last fun e ins hi => by
    obtain ⟨ty, rfl⟩ := exists_ty nty fun hn => by simp [decLS, e, hn] at hi
    obtain ⟨rfl, hw, rfl⟩ : z = 0 ∧ ty.scalarMem = true ∧ f d a i sp ty n = ins := by simpa [decLS, e] using hi
    exact h _ _ _ _ _ _ hw

theorem decLSs_readsOnly {f : XReg → XReg → BitVec 24 → Space → Ty → Instr}
    (h : ∀ d a i sp ty, ty.scalarMem = true → P (encLSs d a i sp ty) (f d a i sp ty)) : ReadsOnly 8 (decLSs f) P :=
  .of_fields (ws := [5, 5, 2, 4, 12, 24, 12]) rfl <| .fin rfl fun d => .fin rfl fun a => .space fun sp => .raw fun nty _ => .raw fun n _ => .bits fun i =>
    .raw fun z _ => .last fun e ins hi => by
    obtain ⟨ty, rfl⟩ := exists_ty nty fun hn => by simp [decLSs, e, hn] at hi
    obtain ⟨⟨rfl, rfl⟩, hw, rfl⟩ : (z = 0 ∧ n = 0) ∧ ty.scalarMem = true ∧ f d a i sp ty = ins := by simpa [decLSs, e] using hi
    exact h _ _ _ _ _ hw

theorem decLSp_readsOnly {f : XReg → BitVec 24 → Space → Instr}
    (h : ∀ a i sp, P (encLSp a i sp) (f a i sp)) : ReadsOnly 8 (decLSp f) P :=
  .of_fields (ws := [5, 5, 2, 16, 24, 12]) rfl <| .raw fun d _ => .fin rfl fun a => .space fun sp => .raw fun n _ => .bits fun i => .raw fun z _ =>
    .last fun e ins hi => by
    obtain ⟨⟨⟨rfl, rfl⟩, rfl⟩, rfl⟩ : ((z = 0 ∧ n = 0) ∧ d = 0) ∧ f a i sp = ins := by simpa [decLSp, e] using hi
    exact h _ _ _

theorem decLX_readsOnly {f : XReg → XReg → XReg → Fin 4 → Space → Ty → Fin 4096 → Instr}
    (h : ∀ d a b s sp ty n, ty.scalarMem = true → P (encLX d a b s sp ty n) (f d a b s sp ty n)) : ReadsOnly 8 (decLX f) P :=
  .of_fields (ws := [5, 5, 5, 2, 4, 12, 2, 29]) rfl <| .fin rfl fun d => .fin rfl fun a => .fin rfl fun b => .space fun sp => .raw fun nty _ =>
    .fin rfl fun n => .fin rfl fun s => .raw fun z _ => .last fun e ins hi => by
    obtain ⟨ty, rfl⟩ := exists_ty nty fun hn => by simp [decLX, e, hn] at hi
    obtain ⟨rfl, hw, rfl⟩ : z = 0 ∧ ty.scalarMem = true ∧ f d a b s sp ty n = ins := by simpa [decLX, e] using hi
    exact h _ _ _ _ _ _ _ hw

theorem decLXs_readsOnly {f : XReg → XReg → XReg → Fin 4 → Space → Ty → Instr}
    (h : ∀ d a b s sp ty, ty.scalarMem = true → P (encLXs d a b s sp ty) (f d a b s sp ty)) : ReadsOnly 8 (decLXs f) P :=
  .of_fields (ws := [5, 5, 5, 2, 4, 12, 2, 29]) rfl <| .fin rfl fun d => .fin rfl fun a => .fin rfl fun b => .space fun sp => .raw fun nty _ =>
    .raw fun n _ => .fin rfl fun s => .raw fun z _ => .last fun e ins hi => by
    obtain ⟨ty, rfl⟩ := exists_ty nty fun hn => by simp [decLXs, e, hn] at hi
    obtain ⟨⟨rfl, rfl⟩, hw, rfl⟩ : (z = 0 ∧ n = 0) ∧ ty.scalarMem = true ∧ f d a b s sp ty = ins := by simpa [decLXs, e] using hi
    exact h _ _ _ _ _ _ hw

theorem decDV_readsOnly {f : XReg → XReg → XReg → Fin 4096 → Instr}
    (h : ∀ d a b n, P (encDV d a b n) (f d a b n)) : ReadsOnly 4 (decDV f) P :=
  .of_fields (ws := [5, 5, 5, 12, 5]) rfl <| .fin rfl fun d => .fin rfl fun a => .fin rfl fun b => .fin rfl fun n => .raw fun z _ => .last fun e ins hi => by
    obtain ⟨rfl, rfl⟩ : z = 0 ∧ f d a b n = ins := by simpa [decDV, e] using hi
    exact h _ _ _ _

theorem decFN_readsOnly {f : FenceKinds → Scope → Instr}
    (h : ∀ k s, (k.ll || k.ls || k.sl || k.ss || k.en) = true → P (encFN k s) (f k s)) : ReadsOnly 2 (decFN f) P :=
  .of_fields (ws := [3, 1, 1, 1, 1, 1, 8]) rfl <| .raw fun nsc _ => .bool fun ll => .bool fun ls => .bool fun sl => .bool fun ss => .bool fun en =>
    .raw fun z _ => .last fun e ins hi => by
    obtain ⟨sc, rfl⟩ := exists_scope nsc fun hn => by simp [decFN, e, hn] at hi
    obtain ⟨rfl, hw, rfl⟩ : z = 0 ∧ (ll = true ∨ ls = true ∨ sl = true ∨ ss = true ∨ en = true) ∧ f ⟨ll, ls, sl, ss, en⟩ sc = ins := by
      simpa [decFN, e] using hi
    exact h ⟨ll, ls, sl, ss, en⟩ _ (by simpa [or_assoc] using hw)

theorem decLQ_readsOnly {f : XReg → XReg → BitVec 24 → Space → Ty → Fin 4096 → Scope → Instr}
    (h : ∀ d a i sp ty n sc, ty.scalarMem = true → P (encLQ d a i sp ty n sc) (f d a i sp ty n sc)) : ReadsOnly 8 (decLQ f) P :=
  .of_fields (ws := [5, 5, 2, 4, 12, 24, 3, 9]) rfl <| .fin rfl fun d => .fin rfl fun a => .space fun sp => .raw fun nty _ => .fin rfl fun n =>
    .bits fun i => .raw fun nsc _ => .raw fun z _ => .last fun e ins hi => by
    obtain ⟨ty, rfl⟩ := exists_ty nty fun hn => by simp [decLQ, e, hn] at hi
    obtain ⟨sc, rfl⟩ := exists_scope nsc fun hn => by simp [decLQ, e, hn] at hi
    obtain ⟨rfl, hw, rfl⟩ : z = 0 ∧ ty.scalarMem = true ∧ f d a i sp ty n sc = ins := by simpa [decLQ, e] using hi
    exact h _ _ _ _ _ _ _ hw

theorem decSQ_readsOnly {f : XReg → XReg → BitVec 24 → Space → Ty → Scope → Instr}
    (h : ∀ d a i sp ty sc, ty.scalarMem = true → P (encSQ d a i sp ty sc) (f d a i sp ty sc)) : ReadsOnly 8 (decSQ f) P :=
  .of_fields (ws := [5, 5, 2, 4, 12, 24, 3, 9]) rfl <| .fin rfl fun d => .fin rfl fun a => .space fun sp => .raw fun nty _ => .raw fun n _ => .bits fun i =>
    .raw fun nsc _ => .raw fun z _ => .last fun e ins hi => by
    obtain ⟨ty, rfl⟩ := exists_ty nty fun hn => by simp [decSQ, e, hn] at hi
    obtain ⟨sc, rfl⟩ := exists_scope nsc fun hn => by simp [decSQ, e, hn] at hi
    obtain ⟨⟨rfl, rfl⟩, hw, rfl⟩ : (z = 0 ∧ n = 0) ∧ ty.scalarMem = true ∧ f d a i sp ty sc = ins := by simpa [decSQ, e] using hi
    exact h _ _ _ _ _ _ hw

theorem decAM_readsOnly {fadd minmax cas : Bool} {f : Amo → Instr}
    (h : ∀ a, a.wf fadd minmax cas = true → P (encAM a) (f a)) : ReadsOnly 8 (decAM fadd minmax cas f) P :=
  .of_fields (ws := [5, 5, 5, 5, 2, 4, 12, 3, 2, 1, 20]) rfl <| .fin rfl fun d => .fin rfl fun a => .fin rfl fun b => .fin rfl fun c => .space fun sp =>
    .raw fun nty _ => .fin rfl fun n => .raw fun nsc _ => .ord fun o => .bool fun u => .bits fun i => .last fun e ins hi => by
    obtain ⟨ty, rfl⟩ := exists_ty nty fun hn => by simp [decAM, e, hn] at hi
    obtain ⟨sc, rfl⟩ := exists_scope nsc fun hn => by simp [decAM, e, hn] at hi
    obtain ⟨⟨⟨hc, ho⟩, hu⟩, hy, rfl⟩ : (((cas = true ∨ c = 0) ∧ (o ≠ .none ∨ sc = .hart)) ∧ (u = false ∨ minmax = true ∧ ty = .w)) ∧
        (if fadd = true then ty = .f32 else (ty = .w ∨ ty = .s32) ∨ ty = .z32) ∧ f ⟨d, a, b, c, sp, ty, n, sc, o, u, i⟩ = ins := by
      simpa [decAM, e] using hi
    exact h ⟨d, a, b, c, sp, ty, n, sc, o, u, i⟩ (by simp [Amo.wf, hc, ho, hu, hy])

theorem decVA_readsOnly {fadd minmax : Bool} {f : Vamo → Instr}
    (h : ∀ a, a.wf fadd minmax = true → P (encVA a) (f a)) : ReadsOnly 8 (decVA fadd minmax f) P :=
  .of_fields (ws := [11, 11, 11, 5, 3, 2, 12, 1, 1, 3, 1, 1, 1, 1]) rfl <| .raw fun nvd hvd => .raw fun nvb hvb => .raw fun nva hva => .fin rfl fun xa =>
    .fin rfl fun ma => .space fun sp => .fin rfl fun n => .bool fun iw => .bool fun sg => .fin rfl fun sc => .bool fun d => .bool fun ra => .bool fun u =>
    .raw fun z _ => .last fun e ins hi => by
    obtain ⟨vd, rfl⟩ := exists_vop hvd fun hn => by simp [decVA, e, hn] at hi
    obtain ⟨vb, rfl⟩ := exists_vop hvb fun hn => by simp [decVA, e, hn] at hi
    obtain ⟨va, rfl⟩ := exists_vop hva fun hn => by simp [decVA, e, hn] at hi
    obtain ⟨⟨⟨⟨rfl, hu⟩, hr⟩, hd⟩, rfl⟩ : (((z = 0 ∧ (u = false ∨ minmax = true)) ∧ (ra = false ∨ fadd = true ∧ d = false)) ∧
        (d = true ∨ vd.code = 0 ∧ n = 0)) ∧ f ⟨if d = true then some vd else none, vb, va, xa, ma, sp, n, iw, sg, sc, ra, u⟩ = ins := by
      simpa [decVA, e] using hi
    cases d with
    | true => simpa [encVA] using h ⟨some vd, vb, va, xa, ma, sp, n, iw, sg, sc, ra, u⟩ (by simpa [Vamo.wf, hu] using hr)
    | false =>
      obtain ⟨hv, rfl⟩ : vd.code = 0 ∧ n = 0 := by simpa using hd
      simpa [encVA, hv] using h ⟨none, vb, va, xa, ma, sp, 0, iw, sg, sc, ra, u⟩ (by simpa [Vamo.wf, hu] using hr)

theorem decAP_readsOnly {f : XReg → XReg → VOp → MReg → Space → Fin 4096 → Instr}
    (h : ∀ d a v m sp n, (sp = .s || sp = .h) = true → P (encAP d a v m sp n) (f d a v m sp n)) : ReadsOnly 8 (decAP f) P :=
  .of_fields (ws := [5, 5, 11, 3, 2, 12, 26]) rfl <| .fin rfl fun d => .fin rfl fun a => .raw fun nv hv => .fin rfl fun m => .space fun sp =>
    .fin rfl fun n => .raw fun z _ => .last fun e ins hi => by
    obtain ⟨v, rfl⟩ := exists_vop hv fun hn => by simp [decAP, e, hn] at hi
    obtain ⟨rfl, hw, rfl⟩ : z = 0 ∧ (sp = .s || sp = .h) = true ∧ f d a v m sp n = ins := by
      simpa [decAP, e, Space.code_eq, show spaceOf 1 = .s from rfl, show spaceOf 2 = .h from rfl] using hi
    exact h _ _ _ _ _ _ hw

theorem decQS_readsOnly {f : VOp → QReg → Bool → BitVec 4 → Fin 4 → Fin 4 → Instr}
    (h : ∀ v q w ae fb nb, (ae ≠ 0 && fb.val + nb.val + 1 ≤ 4) = true → P (encQS v q w ae fb nb) (f v q w ae fb nb)) : ReadsOnly 8 (decQS f) P :=
  .of_fields (ws := [11, 3, 1, 4, 2, 2, 41]) rfl <| .raw fun nv hv => .fin rfl fun q => .bool fun w => .bits fun ae => .fin rfl fun fb => .fin rfl fun nb =>
    .raw fun z _ => .last fun e ins hi => by
    obtain ⟨v, rfl⟩ := exists_vop hv fun hn => by simp [decQS, e, hn] at hi
    obtain ⟨rfl, hw, rfl⟩ : z = 0 ∧ (ae ≠ 0 && fb.val + nb.val + 1 ≤ 4) = true ∧ f v q w ae fb nb = ins := by simpa [decQS, e, ← BitVec.toNat_inj] using hi
    exact h _ _ _ _ _ _ hw

theorem decBD8_readsOnly {f : VOp → XReg → BitVec 20 → Space → Bool → Fin 4 → Fin 4 → Fin 4096 → Instr}
    (h : ∀ v a i sp w fb nb n, decide (fb.val + nb.val + 1 ≤ 4) = true → P (encBD8 v a i sp w fb nb n) (f v a i sp w fb nb n)) : ReadsOnly 8 (decBD8 f) P :=
  .of_fields (ws := [11, 5, 2, 1, 2, 2, 12, 20, 9]) rfl <| .raw fun nv hv => .fin rfl fun a => .space fun sp => .bool fun w => .fin rfl fun nb =>
    .fin rfl fun fb => .fin rfl fun n => .bits fun i => .raw fun z _ => .last fun e ins hi => by
    obtain ⟨v, rfl⟩ := exists_vop hv fun hn => by simp [decBD8, e, hn] at hi
    obtain ⟨rfl, hw, rfl⟩ : z = 0 ∧ decide (fb.val + nb.val + 1 ≤ 4) = true ∧ f v a i sp w fb nb n = ins := by simpa [decBD8, e] using hi
    exact h _ _ _ _ _ _ _ _ hw

theorem decBH_readsOnly {f : XReg → XReg → Space → Fin 3 → Fin 4096 → Instr}
    (h : ∀ d a sp w n, P (encBH d a sp w n) (f d a sp w n)) : ReadsOnly 4 (decBH f) P :=
  .of_fields (ws := [5, 5, 2, 2, 12, 6]) rfl <| .fin rfl fun d => .fin rfl fun a => .space fun sp => .raw fun nw hw => .fin rfl fun n =>
    .raw fun z _ => .last fun e ins hi => by
    obtain ⟨w, rfl⟩ := exists_fin3 hw fun hn => by subst hn; simp [decBH, e] at hi
    obtain ⟨rfl, _, rfl⟩ : z = 0 ∧ ¬w.val = 3 ∧ f d a sp w n = ins := by simpa [decBH, e] using hi
    exact h _ _ _ _ _

theorem decCT_readsOnly {f : VOp → VOp → MReg → CFmt → Instr}
    (h : ∀ d a m k, decide (k ≠ .w) = true → P (encCT d a m k) (f d a m k)) : ReadsOnly 4 (decCT f) P :=
  .of_fields (ws := [11, 11, 3, 3, 4]) rfl <| .raw fun nd hd => .raw fun na ha => .fin rfl fun m => .raw fun nk _ => .raw fun z _ => .last fun e ins hi => by
    obtain ⟨d, rfl⟩ := exists_vop hd fun hn => by simp [decCT, e, hn] at hi
    obtain ⟨a, rfl⟩ := exists_vop ha fun hn => by simp [decCT, e, hn] at hi
    obtain ⟨k, rfl⟩ := exists_fmt nk fun hn => by simp [decCT, e, hn] at hi
    obtain ⟨rfl, hw, rfl⟩ : z = 0 ∧ decide (k ≠ .w) = true ∧ f d a m k = ins := by simpa [decCT, e] using hi
    exact h _ _ _ _ hw

theorem decVVg_readsOnly {vc immOk : Bool} {optMax : Nat} {tys : List Ty} {f : VV → VOp → Nat → Nat → Instr}
    (h : ∀ a c opt imm, (a.ty.isOneOf tys && a.b.wf true false) = true → (vc = true ∨ c.code = 0) → opt ≤ optMax → imm < 2 ^ 8 →
      (immOk = true ∨ imm = 0) → P (encVVg a c.code opt imm) (f a c opt imm)) : ReadsOnly 8 (decVVg vc immOk optMax tys f) P :=
  .of_fields (ws := [11, 11, 11, 11, 3, 4, 1, 3, 8, 1]) rfl <| .raw fun nd hd => .raw fun na ha => .raw fun nb hb => .raw fun nc hc => .fin rfl fun m =>
    .raw fun nty _ => .raw fun s hs => .raw fun opt _ => .raw fun imm hi8 => .raw fun z _ => .last fun e ins hi => by
    simp only [decVVg, rawVV, e, List.map_cons, List.map_nil, rsv_eq_ok, Bool.and_eq_true, Bool.or_eq_true, decide_eq_true_eq] at hi
    obtain ⟨⟨⟨⟨⟨rfl, hvc⟩, himm⟩, hopt⟩, hsb⟩, hi⟩ := hi
    obtain ⟨d, rfl⟩ := exists_vop hd fun hn => by simp [hn] at hi
    obtain ⟨a, rfl⟩ := exists_vop ha fun hn => by simp [hn] at hi
    obtain ⟨c, rfl⟩ := exists_vop hc fun hn => by simp [hn] at hi
    obtain ⟨ty, rfl⟩ := exists_ty nty fun hn => by simp [hn] at hi
    obtain ⟨b, hbw, rfl, rfl⟩ := exists_src2 ⟨d.code, a.code, nb, c.code, m.val, ty.code, s, opt, imm, 0⟩ hb hs hsb fun hn => by simp [hn] at hi
    rw [(src2Of_field b hbw _ rfl rfl).1] at hi
    obtain ⟨hty, rfl⟩ : ty.isOneOf tys = true ∧ f ⟨d, a, b, ty, m⟩ c opt imm = ins := by simpa using hi
    exact h ⟨d, a, b, ty, m⟩ c opt imm (by simp [hty, hbw]) hvc hopt hi8 himm

/-- The common form of layout VV: no third vector operand, no option and no immediate. -/
theorem decVVg_plain_readsOnly {tys : List Ty} {f : VV → Instr}
    (h : ∀ a, (a.ty.isOneOf tys && a.b.wf true false) = true → P (encVVg a 0 0 0) (f a)) :
    ReadsOnly 8 (decVVg false false 0 tys fun a _ _ _ => f a) P :=
  decVVg_readsOnly fun a c opt imm hw hc ho _ hi => by
    obtain rfl := Nat.le_zero.1 ho
    obtain rfl := of_absent hi
    rw [of_absent hc]
    exact h a hw

/-- Layout VV with the third vector operand of VFMA (R191). -/
theorem decVVg_third_readsOnly {tys : List Ty} {f : VV → VOp → Instr}
    (h : ∀ a c, (a.ty.isOneOf tys && a.b.wf true false) = true → P (encVVg a c.code 0 0) (f a c)) :
    ReadsOnly 8 (decVVg true false 0 tys fun a c _ _ => f a c) P :=
  decVVg_readsOnly fun a c opt imm hw _ ho _ hi => by
    obtain rfl := Nat.le_zero.1 ho
    obtain rfl := of_absent hi
    exact h a c hw

/-- Layout VV with the option of VADD2 in OPT bit 0. -/
theorem decVVg_option_readsOnly {tys : List Ty} {f : VV → Bool → Instr}
    (h : ∀ a s, (a.ty.isOneOf tys && a.b.wf true false) = true → P (encVVg a 0 (b01 s) 0) (f a s)) :
    ReadsOnly 8 (decVVg false false 1 tys fun a _ o _ => f a (bit1 o)) P :=
  decVVg_readsOnly fun a c opt imm hw hc ho _ hi => by
    obtain rfl := of_absent hi
    obtain ⟨s, rfl⟩ : ∃ s, b01 s = opt := exists_b01_of_le_one ho
    rw [of_absent hc, bit1_b01]
    exact h a s hw

/-- Layout VV with the count of a slide in IMM (R204). -/
theorem decVVg_count_readsOnly {tys : List Ty} {f : VV → Fin 256 → Instr}
    (h : ∀ a n, (a.ty.isOneOf tys && a.b.wf true false) = true → P (encVVg a 0 0 n.val) (f a n)) :
    ReadsOnly 8 (decVVg false true 0 tys fun a _ _ n => f a (Fin.ofNat 256 n)) P :=
  decVVg_readsOnly fun a c opt imm hw hc ho hi _ => by
    obtain rfl := Nat.le_zero.1 ho
    obtain ⟨n, rfl⟩ : ∃ n : Fin 256, n.val = imm := ⟨⟨imm, hi⟩, rfl⟩
    rw [of_absent hc, fin_ofNat_val]
    exact h a n hw

theorem decVVs_readsOnly {optMax : Nat} {tys : List Ty} {f : VV → Bool → Instr}
    (h : ∀ a n16, (a.ty.isOneOf tys && a.b.wf true true) = true → 2 * b01 n16 ≤ optMax → P (encVVs a n16) (f a n16)) (ho : optMax ≤ 3) :
    ReadsOnly 8 (decVVs optMax tys f) P :=
  .of_fields (ws := [11, 11, 11, 11, 3, 4, 1, 3, 8, 1]) rfl <| .raw fun nd hd => .raw fun na ha => .raw fun nb hb => .raw fun nc _ => .fin rfl fun m =>
    .raw fun nty _ => .raw fun s hs => .raw fun opt _ => .raw fun imm _ => .raw fun z _ => .last fun e ins hi => by
    simp only [decVVs, rawVV, e, List.map_cons, List.map_nil, rsv_eq_ok, Bool.and_eq_true, decide_eq_true_eq] at hi
    obtain ⟨⟨⟨⟨rfl, rfl⟩, hopt⟩, hcase⟩, hi⟩ := hi
    obtain ⟨d, rfl⟩ := exists_vop hd fun hn => by simp [hn] at hi
    obtain ⟨a, rfl⟩ := exists_vop ha fun hn => by simp [hn] at hi
    obtain ⟨ty, rfl⟩ := exists_ty nty fun hn => by simp [hn] at hi
    obtain ⟨n16, rfl | rfl⟩ := exists_b01_of_le_three (hopt.trans ho)
    · have e1 : (1 + 2 * b01 n16) % 2 = 1 := by omega
      have e2 : (1 + 2 * b01 n16) / 2 = b01 n16 := by omega
      obtain ⟨⟨rfl, rfl⟩, himm⟩ : (nb = 0 ∧ s = 0) ∧ imm < 32 := by simpa [e1] using hcase
      obtain ⟨n, rfl⟩ : ∃ n : XReg, n.val = imm := ⟨⟨imm, himm⟩, rfl⟩
      obtain ⟨hty, rfl⟩ : ty.isOneOf tys = true ∧ f ⟨d, a, .imm n, ty, m⟩ n16 = ins := by simpa [e1, e2] using hi
      exact h ⟨d, a, .imm n, ty, m⟩ n16 (by simp [hty, Src2.wf]) (by omega)
    · have e1 : ¬2 * b01 n16 % 2 = 1 := by omega
      have e2 : 2 * b01 n16 / 2 = b01 n16 := by omega
      obtain ⟨rfl, hsb⟩ : imm = 0 ∧ (s = 0 ∨ nb < 32) := by simpa [e1] using hcase
      rw [if_neg e1] at hi
      obtain ⟨b, hbw, rfl, rfl⟩ := exists_src2 ⟨d.code, a.code, nb, 0, m.val, ty.code, s, 2 * b01 n16, 0, 0⟩ hb hs hsb fun hn => by simp [hn] at hi
      rw [(src2Of_field b hbw _ rfl rfl).1] at hi
      obtain ⟨hty, rfl⟩ : ty.isOneOf tys = true ∧ f ⟨d, a, b, ty, m⟩ n16 = ins := by simpa [e2] using hi
      have := h ⟨d, a, b, ty, m⟩ n16 (by simp [hty, Src2.wf_imm hbw]) hopt
      rwa [encVVs_of_wf hbw] at this

theorem decVVc_readsOnly {f : VCmp → Instr}
    (h : ∀ a, (a.ty.isOneOf [.f32, .s32, .z32] && a.b.wf true false) = true → P (encVVc a) (f a)) : ReadsOnly 8 (decVVc f) P :=
  .of_fields (ws := [11, 11, 11, 11, 3, 4, 1, 3, 8, 1]) rfl <| .raw fun nd _ => .raw fun na ha => .raw fun nb hb => .raw fun nc _ => .fin rfl fun m =>
    .raw fun nty _ => .raw fun s hs => .raw fun opt _ => .raw fun imm _ => .raw fun z _ => .last fun e ins hi => by
    simp only [decVVc, rawVV, e, List.map_cons, List.map_nil, rsv_eq_ok, Bool.and_eq_true, Bool.or_eq_true, decide_eq_true_eq] at hi
    obtain ⟨⟨⟨⟨⟨⟨rfl, rfl⟩, rfl⟩, rfl⟩, hd⟩, hsb⟩, hi⟩ := hi
    obtain ⟨d, rfl⟩ : ∃ d : MReg, d.val = nd := ⟨⟨nd, hd⟩, rfl⟩
    obtain ⟨a, rfl⟩ := exists_vop ha fun hn => by simp [hn] at hi
    obtain ⟨ty, rfl⟩ := exists_ty nty fun hn => by simp [hn] at hi
    obtain ⟨b, hbw, rfl, rfl⟩ := exists_src2 ⟨d.val, a.code, nb, 0, m.val, ty.code, s, 0, 0, 0⟩ hb hs hsb fun hn => by simp [hn] at hi
    rw [(src2Of_field b hbw _ rfl rfl).1] at hi
    obtain ⟨hty, rfl⟩ : ty.isOneOf [.f32, .s32, .z32] = true ∧ f ⟨d, a, b, ty, m⟩ = ins := by simpa using hi
    exact h ⟨d, a, b, ty, m⟩ (by simp [hty, hbw])

theorem decVU_readsOnly {qOk : Bool} {tys : List Ty} {f : VU → Bool → Instr}
    (h : ∀ a q, a.ty.isOneOf tys = true → (qOk = true ∨ q = false) → P (encVU a q) (f a q)) : ReadsOnly 4 (decVU qOk tys f) P :=
  .of_fields (ws := [11, 11, 3, 4, 1, 2]) rfl <| .raw fun nd hd => .raw fun na ha => .fin rfl fun m => .raw fun nty _ => .bool fun q =>
    .raw fun z _ => .last fun e ins hi => by
    obtain ⟨d, rfl⟩ := exists_vop hd fun hn => by simp [decVU, e, hn] at hi
    obtain ⟨a, rfl⟩ := exists_vop ha fun hn => by simp [decVU, e, hn] at hi
    obtain ⟨ty, rfl⟩ := exists_ty nty fun hn => by simp [decVU, e, hn] at hi
    obtain ⟨⟨rfl, hq⟩, hw, rfl⟩ : (z = 0 ∧ (qOk = true ∨ q = false)) ∧ ty.isOneOf tys = true ∧ f ⟨d, a, ty, m⟩ q = ins := by
      simpa [decVU, e] using hi
    exact h ⟨d, a, ty, m⟩ _ hw hq

theorem decVR_readsOnly {f : XReg → VOp → Ty → MReg → Instr}
    (h : ∀ d a ty m, ty.isOneOf [.f32, .s32, .z32] = true → P (encVR d a ty m) (f d a ty m)) : ReadsOnly 4 (decVR f) P :=
  .of_fields (ws := [5, 11, 3, 4, 9]) rfl <| .fin rfl fun d => .raw fun na ha => .fin rfl fun m => .raw fun nty _ => .raw fun z _ => .last fun e ins hi => by
    obtain ⟨a, rfl⟩ := exists_vop ha fun hn => by simp [decVR, e, hn] at hi
    obtain ⟨ty, rfl⟩ := exists_ty nty fun hn => by simp [decVR, e, hn] at hi
    obtain ⟨rfl, hw, rfl⟩ : z = 0 ∧ ty.isOneOf [.f32, .s32, .z32] = true ∧ f d a ty m = ins := by simpa [decVR, e] using hi
    exact h _ _ _ _ hw

theorem decM3_readsOnly {f : MReg → MReg → MReg → Instr}
    (h : ∀ d a b, P (encM3 d a b) (f d a b)) : ReadsOnly 2 (decM3 f) P :=
  .of_fields (ws := [3, 3, 3, 7]) rfl <| .fin rfl fun d => .fin rfl fun a => .fin rfl fun b => .raw fun z _ => .last fun e ins hi => by
    obtain ⟨rfl, rfl⟩ : z = 0 ∧ f d a b = ins := by simpa [decM3, e] using hi
    exact h _ _ _

theorem decM2_readsOnly {f : MReg → MReg → Instr}
    (h : ∀ d a, P (encM2 d a) (f d a)) : ReadsOnly 2 (decM2 f) P :=
  .of_fields (ws := [3, 3, 10]) rfl <| .fin rfl fun d => .fin rfl fun a => .raw fun z _ => .last fun e ins hi => by
    obtain ⟨rfl, rfl⟩ : z = 0 ∧ f d a = ins := by simpa [decM2, e] using hi
    exact h _ _

theorem decMP_readsOnly {f : XReg → MReg → Instr}
    (h : ∀ d a, P (encMP d a) (f d a)) : ReadsOnly 2 (decMP f) P :=
  .of_fields (ws := [5, 3, 8]) rfl <| .fin rfl fun d => .fin rfl fun a => .raw fun z _ => .last fun e ins hi => by
    obtain ⟨rfl, rfl⟩ : z = 0 ∧ f d a = ins := by simpa [decMP, e] using hi
    exact h _ _

theorem decMS_readsOnly {f : MReg → XReg → Instr}
    (h : ∀ d a, P (encMS d a) (f d a)) : ReadsOnly 2 (decMS f) P :=
  .of_fields (ws := [3, 5, 8]) rfl <| .fin rfl fun d => .fin rfl fun a => .raw fun z _ => .last fun e ins hi => by
    obtain ⟨rfl, rfl⟩ : z = 0 ∧ f d a = ins := by simpa [decMS, e] using hi
    exact h _ _

theorem decVBC_readsOnly {f : VOp → XReg → MReg → Instr}
    (h : ∀ d a m, P (encVBC d a m) (f d a m)) : ReadsOnly 4 (decVBC f) P :=
  .of_fields (ws := [11, 5, 3, 13]) rfl <| .raw fun nd hd => .fin rfl fun a => .fin rfl fun m => .raw fun z _ => .last fun e ins hi => by
    obtain ⟨d, rfl⟩ := exists_vop hd fun hn => by simp [decVBC, e, hn] at hi
    obtain ⟨rfl, rfl⟩ : z = 0 ∧ f d a m = ins := by simpa [decVBC, e] using hi
    exact h _ _ _

theorem decVM_readsOnly {dist ord bo : Bool} {tyOk : Ty → Bool} {f : VM → BitVec 20 → Bool → Fin 4 → Instr}
    (h : ∀ a i o b, tyOk a.ty = true → (dist = true ∨ a.dist = 0) → (ord = true ∨ o = false) → (bo = true ∨ b = 0) →
      P (encVM a i o b.val) (f a i o b)) : ReadsOnly 8 (decVM dist ord bo tyOk f) P :=
  .of_fields (ws := [11, 5, 2, 4, 3, 12, 20, 1, 2, 4]) rfl <| .raw fun nv hv => .fin rfl fun a => .space fun sp => .raw fun nty _ => .fin rfl fun m =>
    .fin rfl fun n => .bits fun i => .bool fun o => .fin rfl fun b => .raw fun z _ => .last fun e ins hi => by
    obtain ⟨v, rfl⟩ := exists_vop hv fun hn => by simp [decVM, e, hn] at hi
    obtain ⟨ty, rfl⟩ := exists_ty nty fun hn => by simp [decVM, e, hn] at hi
    obtain ⟨⟨⟨⟨rfl, hd⟩, ho⟩, hb⟩, hw, rfl⟩ : (((z = 0 ∧ (dist = true ∨ n = 0)) ∧ (ord = true ∨ o = false)) ∧ (bo = true ∨ b = 0)) ∧
        tyOk ty = true ∧ f ⟨v, a, sp, ty, m, n⟩ i o b = ins := by simpa [decVM, e] using hi
    exact h ⟨v, a, sp, ty, m, n⟩ _ _ _ hw hd ho hb

theorem decVMS_readsOnly {dist ord : Bool} {f : VM → XReg → BitVec 20 → Bool → Instr}
    (h : ∀ a b i o, a.ty.vecMem = true → (dist = true ∨ a.dist = 0) → (ord = true ∨ o = false) → P (encVMS a b i o) (f a b i o)) :
    ReadsOnly 8 (decVMS dist ord f) P :=
  .of_fields (ws := [11, 5, 2, 4, 3, 12, 5, 20, 1, 1]) rfl <| .raw fun nv hv => .fin rfl fun a => .space fun sp => .raw fun nty _ => .fin rfl fun m =>
    .fin rfl fun n => .fin rfl fun b => .bits fun i => .bool fun o => .raw fun z _ => .last fun e ins hi => by
    obtain ⟨v, rfl⟩ := exists_vop hv fun hn => by simp [decVMS, e, hn] at hi
    obtain ⟨ty, rfl⟩ := exists_ty nty fun hn => by simp [decVMS, e, hn] at hi
    obtain ⟨⟨⟨rfl, hd⟩, ho⟩, hw, rfl⟩ : ((z = 0 ∧ (dist = true ∨ n = 0)) ∧ (ord = true ∨ o = false)) ∧
        ty.vecMem = true ∧ f ⟨v, a, sp, ty, m, n⟩ b i o = ins := by simpa [decVMS, e] using hi
    exact h ⟨v, a, sp, ty, m, n⟩ _ _ _ hw hd ho

theorem decVMX_readsOnly {dist ord : Bool} {f : VM → VX → Bool → Instr}
    (h : ∀ a i o, a.ty.vecMem = true → (dist = true ∨ a.dist = 0) → (ord = true ∨ o = false) → P (encVMX a i o) (f a i o)) :
    ReadsOnly 8 (decVMX dist ord f) P :=
  .of_fields (ws := [11, 5, 2, 4, 3, 12, 11, 1, 1, 3, 1, 10]) rfl <| .raw fun nv hv => .fin rfl fun a => .space fun sp => .raw fun nty _ =>
    .fin rfl fun m => .fin rfl fun n => .raw fun nx hx => .bool fun iw => .bool fun sg => .fin rfl fun sc => .bool fun o => .raw fun z _ =>
    .last fun e ins hi => by
    obtain ⟨v, rfl⟩ := exists_vop hv fun hn => by simp [decVMX, e, hn] at hi
    obtain ⟨x, rfl⟩ := exists_vop hx fun hn => by simp [decVMX, e, hn] at hi
    obtain ⟨ty, rfl⟩ := exists_ty nty fun hn => by simp [decVMX, e, hn] at hi
    obtain ⟨⟨⟨rfl, hd⟩, ho⟩, hw, rfl⟩ : ((z = 0 ∧ (dist = true ∨ n = 0)) ∧ (ord = true ∨ o = false)) ∧
        ty.vecMem = true ∧ f ⟨v, a, sp, ty, m, n⟩ ⟨x, iw, sg, sc⟩ o = ins := by simpa [decVMX, e] using hi
    exact h ⟨v, a, sp, ty, m, n⟩ ⟨x, iw, sg, sc⟩ _ hw hd ho

theorem decSH_readsOnly {f : XReg → XReg → Space → Instr}
    (h : ∀ d a sp, P (encSH d a sp) (f d a sp)) : ReadsOnly 4 (decSH f) P :=
  .of_fields (ws := [5, 5, 2, 20]) rfl <| .fin rfl fun d => .fin rfl fun a => .space fun sp => .raw fun z _ => .last fun e ins hi => by
    obtain ⟨rfl, rfl⟩ : z = 0 ∧ f d a sp = ins := by simpa [decSH, e] using hi
    exact h _ _ _

theorem decST_readsOnly {f : Fin 4 → QReg → XReg → XReg → Space → Option XReg → Instr}
    (h : ∀ s q a b sp c, P (encST s q a b sp c) (f s q a b sp c)) : ReadsOnly 8 (decST f) P :=
  .of_fields (ws := [2, 3, 5, 5, 2, 5, 1, 41]) rfl <| .fin rfl fun s => .fin rfl fun q => .fin rfl fun a => .fin rfl fun b => .space fun sp =>
    .fin rfl fun c => .bool fun te => .raw fun z _ => .last fun e ins hi => by
    obtain ⟨⟨rfl, hc⟩, rfl⟩ : (z = 0 ∧ (te = true ∨ c = 0)) ∧ f s q a b sp (if te = true then some c else none) = ins := by simpa [decST, e] using hi
    have := h s q a b sp (if te = true then some c else none)
    rwa [encST, optX_ite hc, isSome_ite] at this

theorem decSW_readsOnly {f : XReg → Fin 4 → Instr}
    (h : ∀ d s, P (encSW d s) (f d s)) : ReadsOnly 2 (decSW f) P :=
  .of_fields (ws := [5, 2, 9]) rfl <| .fin rfl fun d => .fin rfl fun s => .raw fun z _ => .last fun e ins hi => by
    obtain ⟨rfl, rfl⟩ : z = 0 ∧ f d s = ins := by simpa [decSW, e] using hi
    exact h _ _

theorem decSP_readsOnly {f : Fin 4 → Instr}
    (h : ∀ s, P (encSP s) (f s)) : ReadsOnly 2 (decSP f) P :=
  .of_fields (ws := [2, 14]) rfl <| .fin rfl fun s => .raw fun z _ => .last fun e ins hi => by
    obtain ⟨rfl, rfl⟩ : z = 0 ∧ f s = ins := by simpa [decSP, e] using hi
    exact h _

theorem decQC_readsOnly {f : QReg → Fin 256 → Fin 8 → Fin 32 → Instr}
    (h : ∀ q b sz es, qcfgWf b sz es = true → P (encQC q b sz es) (f q b sz es)) : ReadsOnly 8 (decQC f) P :=
  .of_fields (ws := [3, 5, 3, 8, 45]) rfl <| .fin rfl fun q => .fin rfl fun es => .fin rfl fun sz => .fin rfl fun b => .raw fun z _ =>
    .last fun e ins hi => by
    obtain ⟨rfl, hw, rfl⟩ : z = 0 ∧ qcfgWf b sz es = true ∧ f q b sz es = ins := by simpa [decQC, e] using hi
    exact h _ _ _ _ hw

theorem decQP_readsOnly {f : QReg → VOp → CFmt → Instr}
    (h : ∀ q v k, P (encQP q v k) (f q v k)) : ReadsOnly 4 (decQP f) P :=
  .of_fields (ws := [11, 3, 3, 15]) rfl <| .raw fun nv hv => .fin rfl fun q => .raw fun nk _ => .raw fun z _ => .last fun e ins hi => by
    obtain ⟨v, rfl⟩ := exists_vop hv fun hn => by simp [decQP, e, hn] at hi
    obtain ⟨k, rfl⟩ := exists_fmt nk fun hn => by simp [decQP, e, hn] at hi
    obtain ⟨rfl, rfl⟩ : z = 0 ∧ f q v k = ins := by simpa [decQP, e] using hi
    exact h _ _ _

theorem decQPr_readsOnly {f : RowOp → QReg → CFmt → Instr}
    (h : ∀ v q k, P (encQPr v q k) (f v q k)) : ReadsOnly 4 (decQPr f) P :=
  .of_fields (ws := [11, 3, 3, 15]) rfl <| .raw fun nv hv => .fin rfl fun q => .raw fun nk _ => .raw fun z _ => .last fun e ins hi => by
    obtain ⟨v, rfl⟩ := exists_rowOp hv fun hn => by simp [decQPr, e, hn] at hi
    obtain ⟨k, rfl⟩ := exists_fmt nk fun hn => by simp [decQPr, e, hn] at hi
    obtain ⟨rfl, rfl⟩ : z = 0 ∧ f v q k = ins := by simpa [decQPr, e] using hi
    exact h _ _ _

theorem decQN_readsOnly {f : XReg → QReg → Instr}
    (h : ∀ d q, P (encQN d q) (f d q)) : ReadsOnly 2 (decQN f) P :=
  .of_fields (ws := [5, 3, 8]) rfl <| .fin rfl fun d => .fin rfl fun q => .raw fun z _ => .last fun e ins hi => by
    obtain ⟨rfl, rfl⟩ : z = 0 ∧ f d q = ins := by simpa [decQN, e] using hi
    exact h _ _

theorem decQF_readsOnly {f : BitVec 8 → Instr}
    (h : ∀ m, decide (m ≠ 0) = true → P (encQF m) (f m)) : ReadsOnly 2 (decQF f) P :=
  .of_fields (ws := [8, 8]) rfl <| .bits fun m => .raw fun z _ => .last fun e ins hi => by
    obtain ⟨rfl, hw, rfl⟩ : z = 0 ∧ decide (m ≠ 0) = true ∧ f m = ins := by simpa [decQF, e, ← BitVec.toNat_inj] using hi
    exact h _ hw

theorem decCP_readsOnly {f : XReg → XReg → XReg → MReg → Space → Space → Option XReg → Option XReg → Instr}
    (h : ∀ a b c m ds ss xt xe, (ds ≠ .t && ss ≠ .t) = true → P (encCP a b c m ds ss xt xe) (f a b c m ds ss xt xe)) : ReadsOnly 8 (decCP f) P :=
  .of_fields (ws := [5, 5, 5, 2, 2, 3, 1, 5, 1, 5, 30]) rfl <| .fin rfl fun a => .fin rfl fun b => .fin rfl fun c => .space fun ds => .space fun ss =>
    .fin rfl fun m => .bool fun te => .fin rfl fun xt => .bool fun fe => .fin rfl fun xe => .raw fun z _ => .last fun e ins hi => by
    obtain ⟨⟨⟨rfl, ht⟩, hf⟩, hw, rfl⟩ : ((z = 0 ∧ (te = true ∨ xt = 0)) ∧ (fe = true ∨ xe = 0)) ∧ (ds ≠ .t && ss ≠ .t) = true ∧
        f a b c m ds ss (if te = true then some xt else none) (if fe = true then some xe else none) = ins := by
      simpa [decCP, e, Space.code_eq, show spaceOf 0 = .t from rfl] using hi
    have := h a b c m ds ss (if te = true then some xt else none) (if fe = true then some xe else none) hw
    rwa [encCP, optX_ite ht, isSome_ite, optX_ite hf, isSome_ite] at this

theorem decTS_readsOnly {f : PReg → PReg → XReg → XReg → TileState → TileState → Instr}
    (h : ∀ d c a b fr dst, (tsetPair fr dst && !twice d c) = true → P (encTS d c a b fr dst) (f d c a b fr dst)) : ReadsOnly 4 (decTS f) P :=
  .of_fields (ws := [5, 5, 4, 4, 2, 2, 10]) rfl <| .fin rfl fun a => .fin rfl fun b => .fin rfl fun d => .fin rfl fun c => .tile fun fr => .tile fun dst =>
    .raw fun z _ => .last fun e ins hi => by
    obtain ⟨rfl, hw, rfl⟩ : z = 0 ∧ (tsetPair fr dst && !twice d c) = true ∧ f d c a b fr dst = ins := by simpa [decTS, e] using hi
    exact h _ _ _ _ _ _ hw

theorem decRR_readsOnly {f : XReg → XReg → Instr}
    (h : ∀ d a, P (encRR d a) (f d a)) : ReadsOnly 4 (decRR f) P :=
  .of_fields (ws := [5, 5, 22]) rfl <| .fin rfl fun d => .fin rfl fun a => .raw fun z _ => .last fun e ins hi => by
    obtain ⟨rfl, rfl⟩ : z = 0 ∧ f d a = ins := by simpa [decRR, e] using hi
    exact h _ _

theorem decTW_readsOnly {f : XReg → TileState → Instr}
    (h : ∀ a s, P (encTW a s) (f a s)) : ReadsOnly 4 (decTW f) P :=
  .of_fields (ws := [5, 2, 25]) rfl <| .fin rfl fun a => .tile fun s => .raw fun z _ => .last fun e ins hi => by
    obtain ⟨rfl, rfl⟩ : z = 0 ∧ f a s = ins := by simpa [decTW, e] using hi
    exact h _ _

theorem decMW_readsOnly {qs : Bool} {f : Window → QReg → QReg → Instr}
    (h : ∀ w qa qb, w.wf = true → (qs = true ∨ qa = 0 ∧ qb = 0) → P (encMW w qa.val qb.val) (f w qa qb)) : ReadsOnly 4 (decMW qs f) P :=
  .of_fields (ws := [1, 2, 2, 2, 2, 3, 3, 17]) rfl <| .bool fun hf => .fin rfl fun r => .fin rfl fun c => .raw fun nrs hrs => .raw fun ncs hcs =>
    .fin rfl fun qa => .fin rfl fun qb => .raw fun z _ => .last fun e ins hi => by
    obtain ⟨rs, rfl⟩ := exists_fin3 hrs fun hn => by subst hn; simp [decMW, e] at hi
    obtain ⟨cs, rfl⟩ := exists_fin3 hcs fun hn => by subst hn; simp [decMW, e] at hi
    obtain ⟨⟨rfl, hq⟩, ⟨_, hw⟩, rfl⟩ : (z = 0 ∧ (qs = true ∨ qa = 0 ∧ qb = 0)) ∧ ((¬rs.val = 3 ∧ ¬cs.val = 3) ∧ Window.wf ⟨hf, r, c, rs, cs⟩ = true) ∧
        f ⟨hf, r, c, rs, cs⟩ qa qb = ins := by simpa [decMW, e] using hi
    exact h ⟨hf, r, c, rs, cs⟩ _ _ hw hq

theorem decSL4_readsOnly {f : QReg → Bool → Instr}
    (h : ∀ q k, P (encSL4 q k) (f q k)) : ReadsOnly 4 (decSL4 f) P :=
  .of_fields (ws := [3, 1, 28]) rfl <| .fin rfl fun q => .bool fun k => .raw fun z _ => .last fun e ins hi => by
    obtain ⟨rfl, rfl⟩ : z = 0 ∧ f q k = ins := by simpa [decSL4, e] using hi
    exact h _ _

theorem decVT_readsOnly {f : RowOp → QReg → Fin 4 → Instr}
    (h : ∀ v q s, P (encVT v q s) (f v q s)) : ReadsOnly 4 (decVT f) P :=
  .of_fields (ws := [11, 3, 2, 16]) rfl <| .raw fun nv hv => .fin rfl fun q => .fin rfl fun s => .raw fun z _ => .last fun e ins hi => by
    obtain ⟨v, rfl⟩ := exists_rowOp hv fun hn => by simp [decVT, e, hn] at hi
    obtain ⟨rfl, rfl⟩ : z = 0 ∧ f v q s = ins := by simpa [decVT, e] using hi
    exact h _ _ _

theorem decGW_readsOnly {f : Bool → Bool → Instr}
    (h : ∀ a b, (a || b) = true → P (encGW a b) (f a b)) : ReadsOnly 2 (decGW f) P :=
  .of_fields (ws := [1, 1, 14]) rfl <| .bool fun a => .bool fun b => .raw fun z _ => .last fun e ins hi => by
    obtain ⟨rfl, hw, rfl⟩ : z = 0 ∧ (a || b) = true ∧ f a b = ins := by simpa [decGW, e, or_iff_not_imp_left] using hi
    exact h _ _ hw

theorem decSPN_readsOnly {f g : XReg → Option (Fin 4) → Instr}
    (h : ∀ a c r, P (encSPN a (some c) r) (if r = true then g a (some c) else f a (some c)))
    (hn : ∀ a r t, P t (if r = true then g a none else f a none)) : ReadsOnly 4 (decSPN f g) P :=
  .of_fields (ws := [5, 2, 1, 1, 23]) rfl <| .fin rfl fun a => .fin rfl fun cl => .bool fun ca => .bool fun r => .raw fun z _ => .last fun e ins hi => by
    obtain ⟨rfl, rfl⟩ : z = 0 ∧ (if r = true then g a (if ca = true then some cl else none) else f a (if ca = true then some cl else none)) = ins := by
      simpa [decSPN, e] using hi
    cases ca with
    | true => exact h a cl r
    | false => exact hn a r _

theorem decX4_readsOnly {f : XReg → Instr}
    (h : ∀ a, P (encX4 a) (f a)) : ReadsOnly 4 (decX4 f) P :=
  .of_fields (ws := [5, 27]) rfl <| .fin rfl fun a => .raw fun z _ => .last fun e ins hi => by
    obtain ⟨rfl, rfl⟩ : z = 0 ∧ f a = ins := by simpa [decX4, e] using hi
    exact h _

theorem decFW_readsOnly {f : PReg → PReg → XReg → Instr}
    (h : ∀ d c a, (!twice d c) = true → P (encFW d c a) (f d c a)) : ReadsOnly 4 (decFW f) P :=
  .of_fields (ws := [5, 4, 4, 19]) rfl <| .fin rfl fun a => .fin rfl fun d => .fin rfl fun c => .raw fun z _ => .last fun e ins hi => by
    obtain ⟨rfl, hw, rfl⟩ : z = 0 ∧ (!twice d c) = true ∧ f d c a = ins := by simpa [decFW, e] using hi
    exact h _ _ _ hw

theorem decFM_readsOnly {f : XReg → XReg → XReg → XReg → BitVec 27 → Fin 32 → Instr}
    (h : ∀ a b c x d k, P (encFM a b c x d k) (f a b c x d k)) : ReadsOnly 8 (decFM f) P :=
  .of_fields (ws := [5, 5, 5, 5, 5, 27, 12]) rfl <| .fin rfl fun a => .fin rfl fun b => .fin rfl fun c => .fin rfl fun x => .fin rfl fun k => .bits fun d =>
    .raw fun z _ => .last fun e ins hi => by
    obtain ⟨rfl, rfl⟩ : z = 0 ∧ f a b c x d k = ins := by simpa [decFM, e] using hi
    exact h _ _ _ _ _ _

theorem decSV_readsOnly {f : XReg → PReg → PReg → XReg → Instr}
    (h : ∀ d p c a, (!twice p c) = true → P (encSV d p c a) (f d p c a)) : ReadsOnly 4 (decSV f) P :=
  .of_fields (ws := [5, 5, 4, 4, 14]) rfl <| .fin rfl fun d => .fin rfl fun a => .fin rfl fun p => .fin rfl fun c => .raw fun z _ => .last fun e ins hi => by
    obtain ⟨rfl, hw, rfl⟩ : z = 0 ∧ (!twice p c) = true ∧ f d p c a = ins := by simpa [decSV, e] using hi
    exact h _ _ _ _ hw

theorem decTXA_readsOnly {f : XReg → Bool → Instr}
    (h : ∀ a r, P (encTXA a r) (f a r)) : ReadsOnly 2 (decTXA f) P :=
  .of_fields (ws := [5, 1, 10]) rfl <| .fin rfl fun a => .bool fun r => .raw fun z _ => .last fun e ins hi => by
    obtain ⟨rfl, rfl⟩ : z = 0 ∧ f a r = ins := by simpa [decTXA, e] using hi
    exact h _ _

theorem decTXW_readsOnly {f g : XReg → Instr}
    (hf : ∀ d, P (encTXW d 0) (f d)) (hg : ∀ d, P (encTXW d 1) (g d)) : ReadsOnly 4 (decTXW f g) P :=
  .of_fields (ws := [5, 2, 25]) rfl <| .fin rfl fun d => .raw fun m _ => .raw fun z _ => .last fun e ins hi => by
    by_cases h0 : m = 0
    · subst h0
      obtain ⟨rfl, rfl⟩ : z = 0 ∧ f d = ins := by simpa [decTXW, e] using hi
      exact hf d
    · by_cases h1 : m = 1
      · subst h1
        obtain ⟨rfl, rfl⟩ : z = 0 ∧ g d = ins := by simpa [decTXW, e] using hi
        exact hg d
      · simp [decTXW, e, h0, h1] at hi

theorem decMFS_readsOnly {f : XReg → SysReg → Instr}
    (h : ∀ d r, P (encSR d r) (f d r)) : ReadsOnly 4 (decMFS f) P :=
  .of_fields (ws := [5, 10, 17]) rfl <| .fin rfl fun d => .raw fun nr _ => .raw fun z _ => .last fun e ins hi => by
    obtain ⟨r, rfl⟩ := exists_sysReg nr fun hn => by simp [decMFS, e, hn] at hi
    obtain ⟨rfl, rfl⟩ : z = 0 ∧ f d r = ins := by simpa [decMFS, e] using hi
    exact h d r

theorem decMTS_readsOnly {f : SysReg → XReg → Instr} {g : XReg → Instr}
    (hf : ∀ r a, r.writable = true → P (encSR a r) (f r a)) (hg : ∀ a, P (encSR a .gmode) (g a)) : ReadsOnly 4 (decMTS f g) P :=
  .of_fields (ws := [5, 10, 17]) rfl <| .fin rfl fun a => .raw fun nr _ => .raw fun z _ => .last fun e ins hi => by
    obtain ⟨r, rfl⟩ := exists_sysReg nr fun hn => by simp [decMTS, e, hn] at hi
    by_cases hr : r = .gmode
    · subst hr
      obtain ⟨rfl, rfl⟩ : z = 0 ∧ g a = ins := by simpa [decMTS, e] using hi
      exact hg a
    · obtain ⟨rfl, hw, rfl⟩ : z = 0 ∧ r.writable = true ∧ f r a = ins := by simpa [decMTS, e, hr] using hi
      exact hf r a hw

theorem decTB_readsOnly {f : BitVec 16 → Instr} (h : ∀ c, P c.toNat (f c)) : ReadsOnly 2 (decTB f) P := by
  intro t i ht hi
  obtain rfl : f (BitVec.ofNat 16 t) = i := by simpa [decTB] using hi
  have := h (BitVec.ofNat 16 t)
  rwa [BitVec.toNat_ofNat, Nat.mod_eq_of_lt (show t < 2 ^ 16 from ht)] at this

theorem decIC_readsOnly {f : XReg → XReg → Instr} {g : Instr}
    (hf : ∀ a b : XReg, P (encIC a.val b.val false) (f a b)) (hg : P (encIC 0 0 true) g) : ReadsOnly 8 (decIC f g) P :=
  .of_fields (ws := [5, 5, 1, 53]) rfl <| .fin rfl fun a => .fin rfl fun b => .bool fun al => .raw fun z _ => .last fun e ins hi => by
    cases al with
    | false =>
      obtain ⟨rfl, rfl⟩ : z = 0 ∧ f a b = ins := by simpa [decIC, e] using hi
      exact hf a b
    | true =>
      obtain ⟨⟨rfl, rfl, rfl⟩, rfl⟩ : (z = 0 ∧ a = 0 ∧ b = 0) ∧ g = ins := by simpa [decIC, e] using hi
      exact hg

theorem dec0_readsOnly {j : Instr} (h : P 0 j) : ReadsOnly 0 (dec0 j) P := by
  intro t i ht hi
  obtain rfl : t = 0 := Nat.lt_one_iff.1 ht
  obtain rfl : j = i := by simpa [dec0] using hi
  exact h

end

/-! ### The rows of the opcode map (R48)

Each `rows…_encodesBack` lists the layouts of its rows in the order of the map. A row whose operation has one type alone, or lacks an option of its
layout, says why the layout reads nothing else. -/

/-- The instruction is well-formed and encodes to this head and tail, but for a SPAWN that names no cluster, whose field CL is free (R282). -/
def EncodesBack (h : Head) (op t tail : Nat) (i : Instr) : Prop :=
  i.wf = true ∧ ∃ tail', encodeOp i = some (op, t, h, tail') ∧ ((∀ g xa, i ≠ .spawn g xa none ∧ i ≠ .spawnRes g xa none) → tail' = tail)

theorem EncodesBack.same {h : Head} {op t tail : Nat} {i : Instr} (hw : i.wf = true) (he : encodeOp i = some (op, t, h, tail)) : EncodesBack h op t tail i :=
  ⟨hw, tail, he, fun _ => rfl⟩

theorem EncodesBack.spawn {h : Head} {a : XReg} {tail : Nat} (r : Bool) :
    EncodesBack h 0x1C0 2 tail (if r = true then .spawnRes h a none else .spawn h a none) := by
  cases r with
  | false => exact ⟨rfl, _, rfl, fun hne => absurd rfl (hne h a).1⟩
  | true => exact ⟨rfl, _, rfl, fun hne => absurd rfl (hne h a).2⟩

/-- Whatever a row reads encodes to the head and the tail that it was read from. -/
def RowEncodesBack (h : Head) (r : OpRow) : Prop := ReadsOnly (tailLen r.t) r.dec (EncodesBack h r.op r.t)

theorem eq_of_isOneOf_single {t y : Ty} (w : t.isOneOf [y] = true) : decide (t = y) = true := by simpa [Ty.isOneOf] using w

theorem eq_of_isOneOf_single_and {t y : Ty} {b : Bool} (w : (t.isOneOf [y] && b) = true) : (decide (t = y) && b) = true := by
  rw [eq_of_isOneOf_single (and_left w), and_right w]; rfl

theorem eq_false_of_two_b01_le {b : Bool} (h : 2 * b01 b ≤ 1) : b = false := by cases b with
  | false => rfl
  | true => exact absurd h (by decide)

theorem and_dist_absent {b : Bool} {n : Fin 4096} (w : b = true) (h : false = true ∨ n = 0) : (b && n = 0) = true := by
  rw [w, of_absent h]; rfl

theorem rowsA_encodesBack (h : Head) : ∀ r ∈ rowsA h, RowEncodesBack h r := by
  simp only [rowsA, List.forall_mem_cons, RowEncodesBack, tailLen]
  exact
    ⟨decA3_readsOnly fun _ _ _ => .same rfl rfl, decA3_readsOnly fun _ _ _ => .same rfl rfl, decA2I_readsOnly fun _ _ _ => .same rfl rfl,
      decA3_readsOnly fun _ _ _ => .same rfl rfl, decA3_readsOnly fun _ _ _ => .same rfl rfl, decA3_readsOnly fun _ _ _ => .same rfl rfl,
      decA3_readsOnly fun _ _ _ => .same rfl rfl, decA3_readsOnly fun _ _ _ => .same rfl rfl, decA2I_readsOnly fun _ _ _ => .same rfl rfl,
      decA2I_readsOnly fun _ _ _ => .same rfl rfl, decA2I_readsOnly fun _ _ _ => .same rfl rfl, decA3_readsOnly fun _ _ _ => .same rfl rfl,
      decA3_readsOnly fun _ _ _ => .same rfl rfl, decA3_readsOnly fun _ _ _ => .same rfl rfl, decSHI_readsOnly fun _ _ _ => .same rfl rfl,
      decSHI_readsOnly fun _ _ _ => .same rfl rfl, decSHI_readsOnly fun _ _ _ => .same rfl rfl, decA3_readsOnly fun _ _ _ => .same rfl rfl,
      decA3_readsOnly fun _ _ _ => .same rfl rfl, decA3_readsOnly fun _ _ _ => .same rfl rfl, decA3_readsOnly fun _ _ _ => .same rfl rfl,
      decA1_readsOnly fun _ _ => .same rfl rfl, decA1_readsOnly fun _ _ => .same rfl rfl, decMOVI_readsOnly fun _ _ => .same rfl rfl,
      decMT_readsOnly fun _ _ _ _ => .same rfl rfl, decSL_readsOnly fun _ _ _ _ => .same rfl rfl, nofun⟩

theorem rowsB_encodesBack (h : Head) : ∀ r ∈ rowsB h, RowEncodesBack h r := by
  simp only [rowsB, List.forall_mem_cons, RowEncodesBack, tailLen]
  exact
    ⟨decCR_readsOnly fun _ _ _ _ w => .same w rfl, decCR_readsOnly fun _ _ _ _ w => .same w rfl, decCR_readsOnly fun _ _ _ _ w => .same w rfl,
      decCR_readsOnly fun _ _ _ _ w => .same w rfl, decCR_readsOnly fun _ _ _ _ w => .same w rfl, decCR_readsOnly fun _ _ _ _ w => .same w rfl,
      decCI_readsOnly fun _ _ _ _ w => .same w rfl, decCI_readsOnly fun _ _ _ _ w => .same w rfl, decP2_readsOnly fun _ _ _ => .same rfl rfl,
      decP2_readsOnly fun _ _ _ => .same rfl rfl, decP2_readsOnly fun _ _ _ => .same rfl rfl, decP1_readsOnly fun _ _ => .same rfl rfl,
      decX1_readsOnly fun _ => .same rfl rfl, decX1_readsOnly fun _ => .same rfl rfl, decA3_readsOnly fun _ _ _ => .same rfl rfl,
      decA3_readsOnly fun _ _ _ => .same rfl rfl, decA3_readsOnly fun _ _ _ => .same rfl rfl, decA3_readsOnly fun _ _ _ => .same rfl rfl,
      decF4_readsOnly fun _ _ _ _ => .same rfl rfl, decA3_readsOnly fun _ _ _ => .same rfl rfl, decA3_readsOnly fun _ _ _ => .same rfl rfl,
      decA3s_readsOnly fun _ _ => .same rfl rfl, decCR_readsOnly fun _ _ _ _ w => .same w rfl, decCR_readsOnly fun _ _ _ _ w => .same w rfl,
      decCR_readsOnly fun _ _ _ _ w => .same w rfl, decCV_readsOnly fun _ _ _ _ w _ => .same w rfl, decCV_readsOnly fun _ _ _ _ w _ => .same w rfl,
      decCV_readsOnly fun _ _ _ _ w hq => of_absent hq ▸ .same w rfl, nofun⟩

theorem rowsC_encodesBack (h : Head) : ∀ r ∈ rowsC h, RowEncodesBack h r := by
  simp only [rowsC, List.forall_mem_cons, RowEncodesBack, tailLen]
  exact
    ⟨decBD_readsOnly fun _ _ => .same rfl rfl, decBD_readsOnly fun _ _ => .same rfl rfl, dec0_readsOnly (.same rfl rfl),
      decX1_readsOnly fun _ => .same rfl rfl, decX1_readsOnly fun _ => .same rfl rfl, decLP_readsOnly fun _ _ _ w => .same w rfl,
      dec0_readsOnly (.same rfl rfl), decLS_readsOnly fun _ _ _ _ _ _ w => .same w rfl, decLSs_readsOnly fun _ _ _ _ _ w => .same w rfl,
      decLX_readsOnly fun _ _ _ _ _ _ _ w => .same w rfl, decLXs_readsOnly fun _ _ _ _ _ _ w => .same w rfl,
      decLSp_readsOnly fun _ _ _ => .same rfl rfl, decDV_readsOnly fun _ _ _ _ => .same rfl rfl, decDV_readsOnly fun _ _ _ _ => .same rfl rfl,
      decDV_readsOnly fun _ _ _ _ => .same rfl rfl, decDV_readsOnly fun _ _ _ _ => .same rfl rfl, decFN_readsOnly fun _ _ w => .same w rfl,
      decLQ_readsOnly fun _ _ _ _ _ _ _ w => .same w rfl, decSQ_readsOnly fun _ _ _ _ _ _ w => .same w rfl, decAM_readsOnly fun _ w => .same w rfl,
      decAM_readsOnly fun _ w => .same w rfl, decAM_readsOnly fun _ w => .same w rfl, decAM_readsOnly fun _ w => .same w rfl,
      decAM_readsOnly fun _ w => .same w rfl, decAM_readsOnly fun _ w => .same w rfl, decAM_readsOnly fun _ w => .same w rfl,
      decAM_readsOnly fun _ w => .same w rfl, decAM_readsOnly fun _ w => .same w rfl, decVA_readsOnly fun _ w => .same w rfl,
      decVA_readsOnly fun _ w => .same w rfl, decVA_readsOnly fun _ w => .same w rfl, decVA_readsOnly fun _ w => .same w rfl,
      decVA_readsOnly fun _ w => .same w rfl, decVA_readsOnly fun _ w => .same w rfl, decVA_readsOnly fun _ w => .same w rfl,
      decAP_readsOnly fun _ _ _ _ _ _ w => .same w rfl, nofun⟩

theorem rowsV_encodesBack (h : Head) : ∀ r ∈ rowsV h, RowEncodesBack h r := by
  simp only [rowsV, List.forall_mem_cons, RowEncodesBack, tailLen]
  exact
    ⟨decQS_readsOnly fun _ _ _ _ _ _ w => .same w rfl, decBD8_readsOnly fun _ _ _ _ _ _ _ _ w => .same w rfl,
      decBH_readsOnly fun _ _ _ _ _ => .same rfl rfl, decCT_readsOnly fun _ _ _ _ w => .same w rfl, decVVg_plain_readsOnly fun _ w => .same w rfl,
      decVVg_plain_readsOnly fun _ w => .same w rfl, decVVg_plain_readsOnly fun _ w => .same w rfl,
      decVVg_third_readsOnly fun _ _ w => .same (eq_of_isOneOf_single_and w) rfl, decVVg_plain_readsOnly fun _ w => .same w rfl,
      decVVg_plain_readsOnly fun _ w => .same w rfl, decVU_readsOnly fun _ _ w hq => of_absent hq ▸ .same w rfl,
      decVU_readsOnly fun _ _ w hq => of_absent hq ▸ .same (eq_of_isOneOf_single w) rfl,
      decVU_readsOnly fun _ _ w hq => of_absent hq ▸ .same (eq_of_isOneOf_single w) rfl,
      decVU_readsOnly fun _ _ w hq => of_absent hq ▸ .same (eq_of_isOneOf_single w) rfl,
      decVU_readsOnly fun _ _ w hq => of_absent hq ▸ .same (eq_of_isOneOf_single w) rfl,
      decVVg_plain_readsOnly fun _ w => .same (eq_of_isOneOf_single_and w) rfl,
      decVVg_plain_readsOnly fun _ w => .same (eq_of_isOneOf_single_and w) rfl,
      decVVg_plain_readsOnly fun _ w => .same (eq_of_isOneOf_single_and w) rfl,
      decVVg_plain_readsOnly fun _ w => .same (eq_of_isOneOf_single_and w) rfl,
      decVVs_readsOnly (fun _ _ w ho => eq_false_of_two_b01_le ho ▸ .same (eq_of_isOneOf_single_and w) rfl) (by decide),
      decVVs_readsOnly (fun _ _ w ho => eq_false_of_two_b01_le ho ▸ .same w rfl) (by decide),
      decVVs_readsOnly (fun _ _ w _ => .same (eq_of_isOneOf_single_and w) rfl) (by decide),
      decVVg_plain_readsOnly fun _ w => .same (eq_of_isOneOf_single_and w) rfl,
      decVVg_option_readsOnly fun _ _ w => .same (eq_of_isOneOf_single_and w) rfl, nofun⟩

theorem rowsW_encodesBack (h : Head) : ∀ r ∈ rowsW h, RowEncodesBack h r := by
  simp only [rowsW, List.forall_mem_cons, RowEncodesBack, tailLen]
  exact
    ⟨decVR_readsOnly fun _ _ _ _ w => .same w rfl, decVR_readsOnly fun _ _ _ _ w => .same w rfl, decVR_readsOnly fun _ _ _ _ w => .same w rfl,
      decVVc_readsOnly fun _ w => .same w rfl, decVVc_readsOnly fun _ w => .same w rfl, decVVc_readsOnly fun _ w => .same w rfl,
      decVVg_plain_readsOnly fun _ w => .same (eq_of_isOneOf_single_and w) rfl, decVVg_count_readsOnly fun _ _ w => .same w rfl,
      decVVg_count_readsOnly fun _ _ w => .same w rfl, decVVg_plain_readsOnly fun _ w => .same (eq_of_isOneOf_single_and w) rfl,
      decVBC_readsOnly fun _ _ _ => .same rfl rfl, decVU_readsOnly fun _ _ w hq => of_absent hq ▸ .same (eq_of_isOneOf_single w) rfl,
      decVVg_plain_readsOnly fun _ w => .same w rfl, decVU_readsOnly fun _ _ w _ => .same w rfl, decM3_readsOnly fun _ _ _ => .same rfl rfl,
      decM3_readsOnly fun _ _ _ => .same rfl rfl, decM3_readsOnly fun _ _ _ => .same rfl rfl, decM2_readsOnly fun _ _ => .same rfl rfl,
      decMP_readsOnly fun _ _ => .same rfl rfl, decMS_readsOnly fun _ _ => .same rfl rfl,
      decVM_readsOnly fun _ _ _ _ w _ ho hb => of_absent ho ▸ of_absent hb ▸ .same w rfl,
      decVM_readsOnly fun _ _ _ _ w hd _ hb => of_absent hb ▸ .same (and_dist_absent w hd) rfl,
      decVMS_readsOnly fun _ _ _ _ w _ ho => of_absent ho ▸ .same w rfl, decVMS_readsOnly fun _ _ _ _ w hd _ => .same (and_dist_absent w hd) rfl,
      decVM_readsOnly fun _ _ _ _ w _ ho _ => of_absent ho ▸ .same w rfl, decVMX_readsOnly fun _ _ _ w _ ho => of_absent ho ▸ .same w rfl,
      decVMX_readsOnly fun _ _ _ w hd _ => .same (and_dist_absent w hd) rfl, nofun⟩

theorem rowsX_encodesBack (h : Head) : ∀ r ∈ rowsX h, RowEncodesBack h r := by
  simp only [rowsX, List.forall_mem_cons, RowEncodesBack, tailLen]
  exact
    ⟨decSH_readsOnly fun _ _ _ => .same rfl rfl, decX1_readsOnly fun _ => .same rfl rfl, decST_readsOnly fun _ _ _ _ _ _ => .same rfl rfl,
      decSW_readsOnly fun _ _ => .same rfl rfl, decSP_readsOnly fun _ => .same rfl rfl, decQC_readsOnly fun _ _ _ _ w => .same w rfl,
      decQP_readsOnly fun _ _ _ => .same rfl rfl, decQPr_readsOnly fun _ _ _ => .same rfl rfl, decQN_readsOnly fun _ _ => .same rfl rfl,
      decQF_readsOnly fun _ w => .same w rfl, decCP_readsOnly fun _ _ _ _ _ _ _ _ w => .same w rfl, decTS_readsOnly fun _ _ _ _ _ _ w => .same w rfl,
      decRR_readsOnly fun _ _ => .same rfl rfl, decTW_readsOnly fun _ _ => .same rfl rfl, decMW_readsOnly fun _ _ _ w _ => .same w rfl,
      decMW_readsOnly fun _ _ _ w _ => .same w rfl, decMW_readsOnly fun _ _ _ w _ => .same w rfl, decSL4_readsOnly fun _ _ => .same rfl rfl,
      decVT_readsOnly fun _ _ _ => .same rfl rfl, decMW_readsOnly fun _ _ _ w hq => by obtain ⟨rfl, rfl⟩ := of_absent hq; exact .same w rfl,
      decGW_readsOnly fun _ _ w => .same w rfl, nofun⟩

theorem rowsS_encodesBack (h : Head) : ∀ r ∈ rowsS h, RowEncodesBack h r := by
  simp only [rowsS, List.forall_mem_cons, RowEncodesBack, tailLen]
  exact
    ⟨decSPN_readsOnly (fun _ _ r => by cases r <;> exact .same rfl rfl) (fun _ r _ => .spawn r), decX4_readsOnly fun _ => .same rfl rfl,
      dec0_readsOnly (.same rfl rfl), dec0_readsOnly (.same rfl rfl), decFW_readsOnly fun _ _ _ w => .same w rfl,
      decRR_readsOnly fun _ _ => .same rfl rfl, decRR_readsOnly fun _ _ => .same rfl rfl, decRR_readsOnly fun _ _ => .same rfl rfl,
      decX1_readsOnly fun _ => .same rfl rfl, decX1_readsOnly fun _ => .same rfl rfl, decFM_readsOnly fun _ _ _ _ _ _ => .same rfl rfl,
      decSV_readsOnly fun _ _ _ _ w => .same w rfl, decRR_readsOnly fun _ _ => .same rfl rfl, decTXA_readsOnly fun _ _ => .same rfl rfl,
      decTXW_readsOnly (fun _ => .same rfl rfl) (fun _ => .same rfl rfl), decMFS_readsOnly fun _ _ => .same rfl rfl,
      decMTS_readsOnly (fun _ _ w => .same w rfl) (fun _ => .same rfl rfl), dec0_readsOnly (.same rfl rfl), dec0_readsOnly (.same rfl rfl),
      decTB_readsOnly fun _ => .same rfl rfl, dec0_readsOnly (.same rfl rfl), decIC_readsOnly (fun _ _ => .same rfl rfl) (.same rfl rfl),
      decTB_readsOnly fun _ => .same rfl rfl, nofun⟩

theorem rowsFor_encodesBack (h : Head) (op : Nat) : ∀ r ∈ rowsFor h op, RowEncodesBack h r := by
  unfold rowsFor
  split_ifs
  · exact rowsA_encodesBack h
  · exact rowsB_encodesBack h
  · exact rowsC_encodesBack h
  · exact rowsV_encodesBack h
  · exact rowsW_encodesBack h
  · exact rowsX_encodesBack h
  · exact rowsS_encodesBack h

/-! ### Heads (R28) -/

theorem findRow_some {op : Nat} {r : OpRow} : ∀ {rs : List OpRow}, findRow rs op = some r → r ∈ rs ∧ r.op = op
  | [], h => by cases h
  | q :: rs, h => by
    by_cases hq : q.op = op
    · obtain rfl : q = r := by simpa [findRow, hq] using h
      exact ⟨List.mem_cons_self, hq⟩
    · obtain ⟨hm, ho⟩ := findRow_some (rs := rs) (by simpa [findRow, hq] using h)
      exact ⟨List.mem_cons_of_mem _ hm, ho⟩

/-- A head that decodes names a row of the map, or an opcode that the map leaves unassigned. -/
theorem decodeOp_cases {hw tail : Nat} {i : Instr} (hd : decodeOp hw tail = .ok i) :
    (∃ r ∈ rowsFor (headOf hw) (headOp hw), r.op = headOp hw ∧ r.t = headT hw ∧ r.dec tail = .ok i) ∨
      (findRow (rowsFor (headOf hw) (headOp hw)) (headOp hw) = none ∧ headOp hw ≠ 0 ∧
        i = .unassignedOpcode (headOf hw) (BitVec.ofNat 9 (headOp hw)) (f4 (headT hw))) := by
  cases hr : findRow (rowsFor (headOf hw) (headOp hw)) (headOp hw) with
  | some r =>
    obtain ⟨hm, ho⟩ := findRow_some hr
    simp only [decodeOp, hr] at hd
    split at hd
    next ht => exact .inl ⟨r, hm, ho, ht, hd⟩
    next => cases hd
  | none =>
    simp only [decodeOp, hr] at hd
    split at hd
    next => cases hd
    next h0 => exact .inr ⟨rfl, h0, (Except.ok.inj hd).symm⟩

theorem unassignedOpcode_wf {h : Head} {op : BitVec 9} {t : Fin 4} (hn : findRow (rowsFor h op.toNat) op.toNat = none) (h0 : op ≠ 0) :
    (Instr.unassignedOpcode h op t).wf = true := by
  have ha : assigned op.toNat = false := by rw [← findRow_assigned h op, hn, Option.isSome_none]
  show (!assigned op.toNat && decide (op ≠ 0)) = true
  rw [ha, decide_eq_true h0]; rfl

theorem headOf_e (w : Nat) : (headOf w).e = decide (w / 2 ^ 15 % 2 = 1) := by
  norm_num [headOf, bit1]

theorem headOf_g (w : Nat) : (headOf w).g.val = w / 2 ^ 11 % 2 ^ 4 := by
  norm_num [headOf, pr]

/-- Settles O35: a row of the map gives back the head and tail that it read, and an unassigned opcode is kept with its head. -/
theorem headLayout : Obligations.HeadLayout := by
  refine ⟨fun hw tail i _ ht hd => ?_, fun s => ⟨by simp [Machine.State.p, Machine.Hart.p], by simp [Machine.State.pPoi, Machine.Hart.pPoi]⟩⟩
  rcases decodeOp_cases hd with ⟨r, hm, ho, hT, hdec⟩ | ⟨hn, h0, rfl⟩
  · obtain ⟨hwf, tail', he, htail⟩ := rowsFor_encodesBack _ _ r hm tail i (hT ▸ ht) hdec
    exact ⟨hwf, r.op, r.t, headOf hw, tail', he, headOf_e hw, headOf_g hw, ho, hT, fun _ => htail⟩
  · have hop : (BitVec.ofNat 9 (headOp hw)).toNat = headOp hw := Nat.mod_eq_of_lt (Nat.mod_lt _ (by decide))
    have hT : (f4 (headT hw)).val = headT hw := Nat.mod_eq_of_lt (Nat.mod_lt _ (by decide))
    have hne : BitVec.ofNat 9 (headOp hw) ≠ 0 := fun e => h0 (by rw [← hop, e]; rfl)
    exact ⟨unassignedOpcode_wf (hop.symm ▸ hn) hne, _, _, headOf hw, 0, rfl, headOf_e hw, headOf_g hw, hop, hT, fun hu => absurd rfl (hu _ _ _)⟩

end Sys2Proof

namespace Sys2Proof.Machine

open Sys2Proof.Spec

/-! ## NOP and the hard-wired registers (R46, R93) -/

/-- An instruction that makes the round trip decodes from the head and tail that it is encoded to. -/
theorem decodeOp_of_roundTrip {i : Instr} {op t tail : Nat} {h : Head} (hr : Laws.RoundTrip.Statement i) (hw : i.wf = true)
    (he : encodeOp i = some (op, t, h, tail)) : decodeOp (headWord h op t) tail = .ok i := by
  obtain ⟨_, hop, ht, _, hread⟩ := hr hw op t h tail he
  rw [decodeOp_headWord h op t tail hop ht, hread]

/-! ### A landing writes no x0 -/

theorem foldl_x0 {α : Type} {f : Regs → α → Regs} (hf : ∀ r a, (f r a).x[0] = r.x[0]) : ∀ (l : List α) (r : Regs), (l.foldl f r).x[0] = r.x[0]
  | [], _ => rfl
  | a :: l, r => (foldl_x0 hf l (f r a)).trans (hf r a)

theorem Regs.set_x0 (x : Vector Word 32) {k : XReg} (hk : k ≠ 0) (v : Word) : (x.set k.val v)[0] = x[0] :=
  Vector.getElem_set_ne _ _ fun e => hk (Fin.ext e)

theorem State.raiseVNow_x (s : State) (n : HartId) (ser : Nat) (w : Word) : ((s.raiseVNow n ser w).hartAt n).r.x = (s.hartAt n).r.x := by
  simp [State.raiseVNow]

/-- A landing leaves the stored x0 as it was, whatever registers and cells it writes (R46, R97). -/
theorem State.land_x0 (s : State) (n : HartId) (l : Landing) : ((s.land n l).hartAt n).r.x[0] = (s.hartAt n).r.x[0] := by
  unfold State.land
  extract_lets c ws k pick cells wins put written s2
  have hregs : (written.hartAt n).r.x[0] = (s.hartAt n).r.x[0] := by
    simp only [written, State.updHartAt_hartAt_same]
    split
    all_goals
      refine foldl_x0 (fun r w => ?_) ws (s.hartAt n).r
      split
      · split
        · rfl
        · exact Regs.set_x0 _ ‹_› _
      · rfl
  have hcells : s2.hartAt n = written.hartAt n := by
    simp only [s2]
    split
    · rfl
    · rw [State.spendFree_hartAt, State.updCoreAt_hartAt]
  split <;> simp only [State.raiseVNow_x, hcells, hregs]

/-! ### Compares with p0 as a destination -/

/-- A compare whose complement goes to p0 writes its other predicate alone (R46, R77). -/
theorem cmpeq_p0_computes {s : State} {h : Head} (he : Enabled s h) (hl : Latest s) (pd : PReg) (xa xb : XReg) :
    Computes (.cmpeq h pd 0 xa xb) s 1 (toP pd (s.x xa == s.x xb) (s.xPoi xa || s.xPoi xb)) :=
  computes_of (guarded_enabled he _) (putP_lands s pd _ _ 1 hl) (putP_wqOnly s pd _ _ 1)

/-- Settles O31: the guard is true, so NOP and a compare into p0 leave the state as it is, and a landing writes every register but x0. -/
theorem nopAndHardwiredRegisters : Obligations.NopAndHardwiredRegisters := by
  intro s h he
  refine ⟨decodeOp_of_roundTrip (Laws.RoundTrip.nop h) rfl rfl, rfl, rfl, guarded_enabled he id, fun v m b poi lat => ⟨rfl, rfl, rfl⟩, State.land_x0 s, ?_,
    fun xd xa xb => ⟨decodeOp_of_roundTrip (Laws.RoundTrip.cmpeq h 0 0 xa xb) rfl rfl, guarded_enabled he _, fun hl pd => cmpeq_p0_computes he hl pd xa xb⟩⟩
  · rintro pd pc xd xa xb i ht ⟨rfl, rfl⟩
    exact absurd ht (by decide)

end Sys2Proof.Machine

namespace Sys2Proof.Machine

open Sys2Proof.Spec

/-! ## Vector operations that write registers (R19, R180, R183, R346) -/

/-! ### Checks that pass -/

/-- Operands that the hart owns raise no ACCBUSY (R183). -/
theorem accCheck_owned {s : State} {ops : List VOp} (ho : Owned s ops) (f : State → State) : State.accCheck ops f s = f s := by
  unfold State.accCheck
  split
  next v hv =>
    have hbusy : v.kind ≠ .row ∧ s.coreV.busy v.half = true := by simpa using List.find?_some hv
    obtain ⟨_, hrow | hfree | hchk⟩ := ho v (List.mem_of_find?_eq_some hv)
    · exact absurd hrow hbusy.1
    · rw [hbusy.2] at hfree; cases hfree
    · rw [hchk]; rfl
  next => rfl

/-- What a vector operation with a true guard answers where the hart owns its operands (R19, R183). -/
theorem guardedVec_enabled {s : State} {h : Head} {ops : List VOp} (he : Enabled s h) (ho : Owned s ops) (f : State → State) :
    guardedVec h ops f s = .next (f s) := by
  have hown : (ops.map fun v => v.half).all s.owns = true := by
    simp only [List.all_map, List.all_eq_true]
    exact fun v hv => (ho v hv).1
  rw [guardedVec, guardedHalf, if_pos hown, guarded_enabled he, accCheck_owned ho]

/-! ### Updates that no register sees -/

/-- From `s` to `t` the hart changes as `g` says and the core as `k` says, no register reads otherwise, and no byte, no result in flight and
nothing outside them changes. -/
structure Unseen (s t : State) (g : Hart → Hart) (k : Core → Core) : Prop where
  keeps : Keeps s t []
  bytes : SameBytes s t
  loc : Local s t
  hart : t.hart = g s.hart
  core : t.core = k s.core
  wq : t.hart.wq = s.hart.wq
  wrote : t.hart.bun.wrote = s.hart.bun.wrote

theorem Unseen.trans {s t u : State} {g g' : Hart → Hart} {k k' : Core → Core} (h1 : Unseen s t g k) (h2 : Unseen t u g' k') :
    Unseen s u (g' ∘ g) (k' ∘ k) where
  keeps := Keeps.trans h1.keeps h2.keeps
  bytes a b := (h2.bytes a b).trans (h1.bytes a b)
  loc := Local.trans h1.loc h2.loc
  hart := by rw [h2.hart, h1.hart]; rfl
  core := by rw [h2.core, h1.core]; rfl
  wq := h2.wq.trans h1.wq
  wrote := h2.wrote.trans h1.wrote

theorem Unseen.refl (s : State) : Unseen s s id id := ⟨Keeps.refl s [], fun _ _ => rfl, Local.refl s, rfl, rfl, rfl, rfl⟩

/-- Results in flight followed by updates that no register sees are an effect. -/
theorem effect_of_unseen {i : Instr} {s t u : State} {lat : Nat} {ws : Writes} {g : Hart → Hart} {k : Core → Core} (he : exec i s = .next u)
    (hl : Lands s t lat ws) (hw : WqOnly s t) (hu : Unseen t u g k) : Effect i s lat ws g k := by
  have hres : withResults u s.hart = withResults t s.hart := by unfold withResults; rw [hu.wq, hu.wrote]
  refine ⟨u, he, fun w hm => ?_, ?_, fun a b => (hu.bytes a b).trans (hw.bytes a b), Local.trans hw.loc hu.loc, ?_, ?_⟩
  · rw [hu.keeps _ _ List.not_mem_nil]; exact hl.1 w hm
  · simpa using Keeps.trans hl.2 hu.keeps
  · rw [hu.hart, hw.hart, hres]
  · rw [hu.core, hw.core]

/-- A change of the hart that leaves its registers, and what reads of them see, alone. -/
theorem updHart_unseen {s : State} {g : Hart → Hart} (hf : SysFixed s (s.updHart g)) (hv : ∀ c, view c (g s.hart) = view c s.hart)
    (hq : (g s.hart).wq = s.hart.wq) (hw : (g s.hart).bun.wrote = s.hart.bun.wrote) : Unseen s (s.updHart g) g id where
  keeps c r _ := read_congr _ _ c r hf (by rw [State.updHart_hart, hv])
  bytes := SameBytes.updHart s g
  loc := Local.updHart s g
  hart := State.updHart_hart s g
  core := rfl
  wq := by rw [State.updHart_hart, hq]
  wrote := by rw [State.updHart_hart, hw]

theorem raiseF_unseen (f : FFlags) (s : State) : Unseen s (s.raiseF f) (raisesF f) id :=
  updHart_unseen (SysFixed.updHart s (raisesF f) rfl rfl rfl rfl rfl rfl) (fun _ => rfl) rfl rfl

theorem holdV_unseen (n : Nat) (s : State) : Unseen s (s.holdV n) (holdsV (s.cycle + n)) id :=
  updHart_unseen (SysFixed.updHart s (holdsV (s.cycle + n)) rfl rfl rfl rfl rfl rfl) (fun _ => rfl) rfl rfl

theorem spendFree_unseen (s : State) : Unseen s s.spendFree id id where
  keeps _ _ _ := rfl
  bytes u _ := by cases u <;> rfl
  loc := ⟨rfl, fun _ _ => rfl, fun _ _ => rfl⟩
  hart := rfl
  core := rfl
  wq := rfl
  wrote := rfl

/-- The entry of the recheck queue that a V-class operation of the current bundle takes (R346). -/
def State.recheckEntry (s : State) : Recheck := ⟨s.fresh, slotOf s.cur, s.hart.ser, false, s.cycle + 1, 1⟩

/-- The core with one more entry in its recheck queue. -/
def Core.addRecheck (e : Recheck) (k : Core) : Core := { k with recheck := k.recheck ++ [e] }

/-- The state with one more entry in the recheck queue of its core, and one more number given out. -/
def State.addRecheck (e : Recheck) (s : State) : State := { s.updCore (Core.addRecheck e) with fresh := s.fresh + 1 }

theorem State.addRecheck_core (e : Recheck) (s : State) : (s.addRecheck e).core = s.core.addRecheck e := State.updCore_core s _

theorem vRecheck_eq (s : State) : s.vRecheck = if s.core.rechkLevel = 0 then s else s.addRecheck s.recheckEntry := rfl

theorem rechecks_eq (s : State) (k : Core) :
    Spec.rechecks s s.fresh k = if k.rechkLevel = 0 then k else k.addRecheck s.recheckEntry := rfl

theorem SysFixed.addRecheck (e : Recheck) (s : State) : SysFixed s (s.addRecheck e) where
  cur := rfl
  now := rfl
  pkg := rfl
  gmode := (congrArg Core.gmode (State.addRecheck_core e s)).trans rfl
  t0 := (congrArg Core.t0 (State.addRecheck_core e s)).trans rfl
  dpt := (congrArg Core.dptroot (State.addRecheck_core e s)).trans rfl
  ipt := (congrArg Core.iptroot (State.addRecheck_core e s)).trans rfl
  queues := (congrArg Core.queues (State.addRecheck_core e s)).trans rfl
  mtag := (congrArg Core.mtag (State.addRecheck_core e s)).trans rfl
  hist := (congrArg Core.hist (State.addRecheck_core e s)).trans rfl
  wh := rfl
  bundles := rfl
  inh := rfl
  tr := rfl
  ckptpc := rfl
  txtag := rfl

theorem SameBytes.addRecheck (e : Recheck) (s : State) : SameBytes s (s.addRecheck e) := by
  intro u a
  cases u with
  | tcm c =>
    by_cases hc : c = coreOf s.cur
    · subst hc
      exact (congrArg (fun k : Core => k.tcm.byte a) (State.addRecheck_core e s)).trans rfl
    · exact congrArg (fun k : Core => k.tcm.byte a) (State.updCoreAt_coreAt_ne s _ c _ hc)
  | _ => rfl

theorem addRecheck_unseen (e : Recheck) (s : State) : Unseen s (s.addRecheck e) id (Core.addRecheck e) where
  keeps c r _ := read_congr s (s.addRecheck e) c r (SysFixed.addRecheck e s) rfl
  bytes := SameBytes.addRecheck e s
  loc := ⟨rfl, fun _ _ => rfl, fun c hc => State.updCoreAt_coreAt_ne s _ c _ hc⟩
  hart := rfl
  core := State.addRecheck_core e s
  wq := rfl
  wrote := rfl

/-- A rechecked operation takes an entry of the recheck queue, which no register sees (R346). -/
theorem vRecheck_unseen (s : State) : Unseen s s.vRecheck id (Spec.rechecks s s.fresh) := by
  rw [vRecheck_eq, funext (rechecks_eq s)]
  split
  next h => exact { Unseen.refl s with core := (if_pos h).symm }
  next h => exact { addRecheck_unseen s.recheckEntry s with core := (State.addRecheck_core _ s).trans (if_neg h).symm }

/-- The recheck entry is the same wherever the core's clock and the hart's bundle are. -/
theorem rechecks_congr {s t : State} (hc : t.cur = s.cur) (hs : t.hart.ser = s.hart.ser) (hy : t.cycle = s.cycle) (id : Nat) :
    Spec.rechecks t id = Spec.rechecks s id := by
  unfold Spec.rechecks
  rw [hc, hs, hy]

/-! ### A scalar result of a vector operation -/

@[simp] theorem putX_fresh (s : State) (r : XReg) (v : Word) (poi : Bool) (lat : Nat) : (s.putX r v poi lat).fresh = s.fresh := by
  unfold State.putX; split <;> rfl

@[simp] theorem raiseF_fresh (f : FFlags) (s : State) : (s.raiseF f).fresh = s.fresh := rfl
@[simp] theorem holdV_fresh (n : Nat) (s : State) : (s.holdV n).fresh = s.fresh := rfl

@[simp] theorem raiseF_rechecks (f : FFlags) (s : State) (id : Nat) : Spec.rechecks (s.raiseF f) id = Spec.rechecks s id :=
  rechecks_congr (s := s) (t := s.raiseF f) rfl (by rw [(raiseF_unseen f s).hart]; rfl) rfl id
@[simp] theorem holdV_rechecks (n : Nat) (s : State) (id : Nat) : Spec.rechecks (s.holdV n) id = Spec.rechecks s id :=
  rechecks_congr (s := s) (t := s.holdV n) rfl (by rw [(holdV_unseen n s).hart]; rfl) rfl id
@[simp] theorem putX_rechecks (s : State) (r : XReg) (v : Word) (poi : Bool) (lat id : Nat) :
    Spec.rechecks (s.putX r v poi lat) id = Spec.rechecks s id :=
  have hw := putX_wqOnly s r v poi lat
  rechecks_congr (by rw [hw.loc.1]) (by rw [hw.hart]; rfl) (putX_cycle s r v poi lat) id

/-- A vector operation that writes a scalar register, raises flags, holds the V slot and is rechecked (R180, R346). -/
theorem scalarResult_effect {i : Instr} {s : State} (hl : Latest s) (xd : XReg) (v : Word) (poi : Bool) (lat n : Nat) (f : FFlags)
    (hx : exec i s = .next ((((s.putX xd v poi lat).raiseF f).holdV n).vRecheck).spendFree) :
    Effect i s lat (toX xd v poi) (fun k => holdsV (s.cycle + n) (raisesF f k)) (Spec.rechecks s s.fresh) := by
  have hr := vRecheck_unseen (((s.putX xd v poi lat).raiseF f).holdV n)
  simp only [holdV_rechecks, raiseF_rechecks, putX_rechecks, holdV_fresh, raiseF_fresh, putX_fresh] at hr
  refine effect_of_unseen hx (putX_lands s xd v poi lat hl) (putX_wqOnly s xd v poi lat) ?_
  rw [← putX_cycle s xd v poi lat]
  exact (((raiseF_unseen f _).trans (holdV_unseen n _)).trans hr).trans (spendFree_unseen _)

/-! ### The value of a reduction (R199) -/

/-- The operand of each leaf of the tree: the active elements (R200). -/
def treeLeaves (s : State) (va : VOp) (ma : MReg) : List (Option Nat) :=
  (List.range 256).map fun i => if i < s.vl ∧ (s.m ma).getLsbD i then some (s.vread va i).v.toNat else none

/-- The value and the flags of a reduction of the active elements. -/
def reduced (k : RedKind) (va : VOp) (ty : Ty) (ma : MReg) (s : State) : Word × FFlags :=
  if ty = .f32 then
    let t := treeReduce (redOp k s.rm) (treeLeaves s va ma)
    ((t.1.map fun n => BitVec.ofNat 64 n).getD (redIdentity k ty), t.2)
  else (reduceInt k ty ((s.active ma).map fun i => (s.vread va i).v), FFlags.none)

theorem active_contains {i : Nat} (hi : i < 256) (s : State) (ma : MReg) :
    (s.active ma).contains i = true ↔ i < s.vl ∧ (s.m ma).getLsbD i := by
  simp [State.active, activeOf, hi]

theorem treeLeaves_eq (s : State) (va : VOp) (ma : MReg) :
    ((List.range 256).map fun i => if (s.active ma).contains i then some (s.vread va i).v.toNat else none) = treeLeaves s va ma :=
  List.map_congr_left fun _ hi => if_congr (active_contains (List.mem_range.1 hi) s ma) rfl rfl

theorem reduced_f32 (k : RedKind) (va : VOp) (ma : MReg) (s : State) :
    reduced k va .f32 ma s =
      (((treeReduce (redOp k s.rm) (treeLeaves s va ma)).1.map fun n => BitVec.ofNat 64 n).getD (redIdentity k .f32),
        (treeReduce (redOp k s.rm) (treeLeaves s va ma)).2) := if_pos rfl

theorem reduced_int (k : RedKind) (va : VOp) {ty : Ty} (hf : ty ≠ .f32) (ma : MReg) (s : State) :
    reduced k va ty ma s = (reduceInt k ty ((s.active ma).map fun i => (s.vread va i).v), FFlags.none) := if_neg hf

/-- A reduction writes its value to one scalar register, and is otherwise a V-class operation that writes no cell (R199, R214). -/
theorem reduce_effect {i : Instr} {s : State} {h : Head} {va : VOp} {k : RedKind} {xd : XReg} {ty : Ty} {ma : MReg}
    (he : Enabled s h) (hl : Latest s) (ho : Owned s [va]) (hx : exec i s = reduce k h xd va ty ma s) :
    Effect i s 12 (toX xd (reduced k va ty ma s).1 (s.mPoi ma || (s.active ma).any fun j => (s.vread va j).poi))
      (fun q => holdsV (s.cycle + s.vGroups) (raisesF (reduced k va ty ma s).2 q)) (Spec.rechecks s s.fresh) := by
  refine scalarResult_effect hl xd _ _ 12 s.vGroups _ (hx.trans ((guardedVec_enabled he ho _).trans ?_))
  simp only [treeLeaves_eq, reduced]

/-- The integer operation that a reduction folds with. -/
def redIntOp : RedKind → Int → Int → Int
  | .sum => (· + ·)
  | .max => max
  | .min => min

/-- A list folded from its first element on, or `empty` where it has none. -/
def foldOr (op : Int → Int → Int) (l : List Int) (empty : Int) : Int := match l with | [] => empty | z :: r => r.foldl op z

theorem foldOr_add (l : List Int) : foldOr (· + ·) l 0 = l.sum := by
  rw [List.sum_eq_foldl]
  cases l with
  | nil => rfl
  | cons z r => simp [foldOr]

/-- A reduction of integers folds them, and its value with no active element is `empty` (R199). -/
theorem reduceInt_eq {k : RedKind} {ty : Ty} {empty : Int} (he : redIdentity k ty = BitVec.ofInt 64 empty) (l : List Cell) :
    reduceInt k ty l = BitVec.ofInt 64 (foldOr (redIntOp k) (l.map (intOf ty)) empty) := by
  unfold reduceInt
  cases l.map (intOf ty) with
  | nil => exact he
  | cons => cases k <;> rfl

theorem reduceInt_sum (ty : Ty) (l : List Cell) : reduceInt .sum ty l = BitVec.ofInt 64 (l.map (intOf ty)).sum :=
  (reduceInt_eq (k := .sum) (empty := 0) rfl l).trans (congrArg _ (foldOr_add _))

/-! ### The fixed binary tree (R200) -/

/-- A node over its two children: an absent child passes the other through. -/
def joinNodes (op : Nat → Nat → Nat × FFlags) : Option Nat → Option Nat → Option Nat
  | none, v => v
  | u, none => u
  | some u, some v => some (op u v).1

/-- The flags that a node raises: none where a child is absent. -/
def joinFlags (op : Nat → Nat → Nat × FFlags) : Option Nat → Option Nat → FFlags
  | some u, some v => (op u v).2
  | _, _ => FFlags.none

/-- A flag of `FFlags`: it is not raised by nothing, and two operations raise it where either does. -/
structure GathersFlag (flag : FFlags → Bool) : Prop where
  none : flag FFlags.none = false
  or (a b : FFlags) : flag (a.or b) = (flag a || flag b)

theorem gathersFlag_of_mem : ∀ flag ∈ ([FFlags.nv, FFlags.dz, FFlags.of, FFlags.uf, FFlags.nx] : List (FFlags → Bool)), GathersFlag flag := by
  simp only [List.forall_mem_cons]
  exact ⟨⟨rfl, fun _ _ => rfl⟩, ⟨rfl, fun _ _ => rfl⟩, ⟨rfl, fun _ _ => rfl⟩, ⟨rfl, fun _ _ => rfl⟩, ⟨rfl, fun _ _ => rfl⟩, nofun⟩

section
variable {op : Nat → Nat → Nat × FFlags} {flag : FFlags → Bool}

theorem joinFlags_raises (hg : GathersFlag flag) (x y : Option Nat) :
    flag (joinFlags op x y) = true ↔ ∃ u v, x = some u ∧ y = some v ∧ flag (op u v).2 = true := by
  cases x <;> cases y <;> simp [joinFlags, hg.none]

theorem treeLevel_cons (x y : Option Nat) (l : List (Option Nat)) :
    (treeLevel op (x :: y :: l)).1 = joinNodes op x y :: (treeLevel op l).1 := by
  cases x <;> cases y <;> rfl

theorem treeLevel_cons_flags (hg : GathersFlag flag) (x y : Option Nat) (l : List (Option Nat)) :
    flag (treeLevel op (x :: y :: l)).2 = (flag (joinFlags op x y) || flag (treeLevel op l).2) := by
  cases x <;> cases y <;> simp [treeLevel, joinFlags, hg.none, hg.or, Bool.or_comm]

/-- The first two of an even number of nodes stand before the rest. -/
theorem map_range_two (f : Nat → Option Nat) (c : Nat) :
    (List.range (2 * (c + 1))).map f = f 0 :: f 1 :: (List.range (2 * c)).map fun j => f (j + 2) := by
  simp [Nat.mul_add, List.range_succ_eq_map]

/-- One level over the nodes `f` gives their parents. -/
theorem treeLevel_nodes (c : Nat) : ∀ f : Nat → Option Nat,
    (treeLevel op ((List.range (2 * c)).map f)).1 = (List.range c).map fun j => joinNodes op (f (2 * j)) (f (2 * j + 1)) := by
  induction c with
  | zero => intro f; rfl
  | succ c ih =>
    intro f
    rw [map_range_two, treeLevel_cons, ih, List.range_succ_eq_map]
    simp [Nat.mul_add, Nat.add_right_comm]

/-- One level raises what its nodes raise. -/
theorem treeLevel_flags (hg : GathersFlag flag) (c : Nat) : ∀ f : Nat → Option Nat,
    (flag (treeLevel op ((List.range (2 * c)).map f)).2 = true ↔ ∃ j < c, flag (joinFlags op (f (2 * j)) (f (2 * j + 1))) = true) := by
  induction c with
  | zero => intro f; simp [treeLevel, hg.none]
  | succ c ih =>
    intro f
    rw [map_range_two, treeLevel_cons_flags hg, Bool.or_eq_true, ih, Nat.exists_lt_succ_left]
    simp only [Nat.mul_add, Nat.add_right_comm, Nat.mul_zero, Nat.mul_one, Nat.zero_add]

/-- The nodes of the tree: level 0 holds the leaves, and each node of the next level joins two. -/
def IsTree (op : Nat → Nat → Nat × FFlags) (node : Nat → Nat → Option Nat) : Prop :=
  ∀ k j, node (k + 1) j = joinNodes op (node k (2 * j)) (node k (2 * j + 1))

/-- The first level turns the leaves into the nodes of level 1. -/
theorem treeUp_succ (n : Nat) {node : Nat → Nat → Option Nat} (ht : IsTree op node) (f : FFlags) :
    treeUp op (n + 1) ((List.range (2 ^ (n + 1))).map (node 0), f) =
      treeUp op n ((List.range (2 ^ n)).map (node 1), f.or (treeLevel op ((List.range (2 ^ (n + 1))).map (node 0))).2) := by
  have hlevel : (treeLevel op ((List.range (2 ^ (n + 1))).map (node 0))).1 = (List.range (2 ^ n)).map (node 1) := by
    rw [Nat.pow_succ', treeLevel_nodes, ← funext (ht 0)]
  rw [← hlevel]
  rfl

/-- The root of a tree of `n` levels. -/
theorem treeUp_root (n : Nat) : ∀ (node : Nat → Nat → Option Nat) (f : FFlags), IsTree op node →
    (treeUp op n ((List.range (2 ^ n)).map (node 0), f)).1 = node n 0 := by
  induction n with
  | zero => intro node f _; rfl
  | succ n ih =>
    intro node f ht
    rw [treeUp_succ n ht]
    exact ih (fun k => node (k + 1)) _ fun k => ht (k + 1)

/-- A tree of `n` levels raises what its nodes raise. -/
theorem treeUp_flags (hg : GathersFlag flag) (n : Nat) : ∀ (node : Nat → Nat → Option Nat) (f : FFlags), IsTree op node →
    (flag (treeUp op n ((List.range (2 ^ n)).map (node 0), f)).2 = true ↔
      flag f = true ∨ ∃ k < n, ∃ j < 2 ^ (n - 1 - k), flag (joinFlags op (node k (2 * j)) (node k (2 * j + 1))) = true) := by
  induction n with
  | zero => intro node f _; simp [treeUp]
  | succ n ih =>
    intro node f ht
    rw [treeUp_succ n ht, ih (fun k => node (k + 1)) _ fun k => ht (k + 1), hg.or, Bool.or_eq_true, Nat.pow_succ', treeLevel_flags hg,
      Nat.exists_lt_succ_left, or_assoc]
    simp [Nat.sub_sub, Nat.add_comm]

end

/-- Leaves written down as level 0 of `node`. -/
theorem leaves_eq_nodes {l : List (Option Nat)} (hl : l.length = 256) {node : Nat → Nat → Option Nat}
    (h0 : ∀ i (hi : i < l.length), node 0 i = l[i]) : l = (List.range (2 ^ 8)).map (node 0) :=
  List.ext_getElem (by simp [hl]) fun i hi _ => by simp [h0 i hi]

/-- Settles O12: the three reductions share `reduce_effect`, and the tree is climbed level by level from its leaves. -/
theorem reductions : Obligations.Reductions := by
  refine ⟨fun s h xd va ma he hl ho => ?_, fun op l hlen node h0 hnode => ?_⟩
  · intro act cells poi n res leaves tree greatest least si un
    -- The 256 leaves are opaque from here on, so that no step computes the tree.
    have hleaves : treeLeaves s va ma = leaves := rfl
    clear_value leaves
    have htree (i : Instr) (k : RedKind) (hx : exec i s = reduce k h xd va .f32 ma s) : tree i (redOp k s.rm) (redIdentity k .f32) := by
      have heff := reduce_effect he hl ho hx
      rw [reduced_f32, hleaves] at heff
      simp only [tree, res]
      cases hroot : (treeReduce (redOp k s.rm) leaves).1 <;> rw [hroot] at heff <;> exact heff
    have hint (i : Instr) (k : RedKind) (ty : Ty) (v : Word) (hf : ty ≠ .f32) (hx : exec i s = reduce k h xd va ty ma s)
        (hv : reduceInt k ty cells = v) : res i v FFlags.none := by
      have heff := reduce_effect he hl ho hx
      rw [reduced_int k va hf] at heff
      exact hv ▸ heff
    exact ⟨htree _ .sum rfl, htree _ .max rfl, htree _ .min rfl, hint _ .sum .s32 _ nofun rfl (reduceInt_sum ..),
      hint _ .sum .z32 _ nofun rfl (reduceInt_sum ..), hint _ .max .s32 _ nofun rfl (reduceInt_eq rfl _),
      hint _ .max .z32 _ nofun rfl (reduceInt_eq rfl _), hint _ .min .s32 _ nofun rfl (reduceInt_eq rfl _),
      hint _ .min .z32 _ nofun rfl (reduceInt_eq rfl _)⟩
  · have ht : IsTree op node := fun k j => (hnode k j).trans rfl
    rw [treeReduce, leaves_eq_nodes hlen h0]
    refine ⟨treeUp_root 8 node _ ht, fun flag hf => ?_⟩
    have hg := gathersFlag_of_mem flag hf
    rw [treeUp_flags hg 8 node _ ht]
    simp [joinFlags_raises hg, hg.none]

end Sys2Proof.Machine
